-- ==== Sys2Proof/Word.lean ====
section
/-! DEFINITION. The word types of the GZ-1280 (R9, R15) and their plainest conversions. -/

namespace Sys2Proof

/-- A 32-bit general, scalar or affine word (R15). -/
abbrev Word := BitVec 32

/-- A 64-bit floating register, doubleword or instruction word (R9, R15). -/
abbrev DWord := BitVec 64

/-- A 128-bit quadword: a page table entry, a captured value, a channel entry (R22, R275). -/
abbrev QWord := BitVec 128

/-- A 52-bit address or program counter (R15, R278). -/
abbrev Addr := BitVec 52

/-- A 16-bit agent id (R16). -/
abbrev AgentId := BitVec 16

/-- A register-file read outside the file's size reads zero; the checks of R17 come before. -/
def vget {α : Type} {n : Nat} [Inhabited α] (v : Vector α n) (i : Nat) : α := (v[i]?).getD default

/-- A register-file write; an index outside the file writes nothing. -/
def vset {α : Type} {n : Nat} (v : Vector α n) (i : Nat) (x : α) : Vector α n := v.setIfInBounds i x

end Sys2Proof
end

