-- ==== Sys2Proof/Syntax.lean ====
section
/-! DEFINITION. The instruction terms: operands, M-field options, event payloads, and `Instr`, one constructor per row of
spec/opcode_table.json. A full-form word is one constructor with its decoded fields (R32 to R49). A paired word
(R44) is the constructor of its slot X with slot Y as an argument. The rows that are no instruction words are the
machine's indivisible events (95_what_each_step_holds); each carries what the event is about. -/

namespace Sys2Proof

/-- An operand byte, decoded (R35, R37). -/
inductive Opnd where
  | g (n : BitVec 6)                       -- g0–g63
  | f (n : BitVec 5)                       -- f0–f31
  | a (n : BitVec 3)                       -- a0–a7
  | s (n : BitVec 4)                       -- s0–s15
  | i (n : BitVec 2)                       -- i0–i3
  | zr
  | lid
  | imm (v : BitVec 13)                    -- IMM with the value of M
  | idx (r : BitVec 2) (k : BitVec 6)      -- operand 127: g[iR + k]
  | chan (c : BitVec 6) (pk : Bool)        -- channel pop, push or peek
  deriving DecidableEq, Repr, Inhabited

/-- A guard (R33): the register, the bit and the sense. -/
structure Guard where
  reg : BitVec 6
  bit : BitVec 5
  sense : Bool
  deriving DecidableEq, Repr

/-- What every full-form word carries beside its operands: the guard and the lookahead count (R32). -/
structure Hdr where
  guard : Option Guard
  la : BitVec 4
  deriving DecidableEq, Repr

/-- The header of a word without guard and lookahead. -/
def Hdr.plain : Hdr := ⟨none, 0⟩

/-- A memory operand (R40): space, base, optional register, offset in units of the access size. -/
structure MemOpnd where
  scratch : Bool
  base : Opnd
  index : Option Opnd
  off : BitVec 8
  deriving DecidableEq, Repr

/-- Access widths (R48 layout L). -/
inductive Wid where
  | b | bu | h | hu | w | d | q
  deriving DecidableEq, Repr

/-- Options of layout F (R48). -/
structure FOpt where
  absB : Bool
  absA : Bool
  negB : Bool
  negA : Bool
  fp64 : Bool
  rm : BitVec 2
  deriving DecidableEq, Repr

/-- Options of layout X (R48). -/
structure XOpt where
  negB : Bool
  negA : Bool
  x64 : Bool
  deriving DecidableEq, Repr

/-- Options of layout V (R48). -/
structure VOpt where
  ttag : BitVec 4
  uns : Bool
  sat : Bool
  rm : BitVec 2
  deriving DecidableEq, Repr

/-- Options of layout T (R48). -/
structure TOpt where
  wide : Bool
  rel : BitVec 4
  pb : BitVec 5
  deriving DecidableEq, Repr

/-- Options of layout A (R48). -/
structure AOpt where
  dbl : Bool
  ord : BitVec 2
  aop : BitVec 4
  deriving DecidableEq, Repr

/-- The paired operations (R47). -/
inductive PairOp where
  | pnop | mov | add | sub | and | or | xor | shl | shr | sar | min | max | addi | movi | shli | shri
  | fadd | fsub | fmul | fmin | fmax | fmov | aaddi | popc
  deriving DecidableEq, Repr

/-- One slot of a paired word (R44). -/
structure Slot where
  op : PairOp
  d : Opnd
  s : Opnd
  imm : BitVec 8
  deriving DecidableEq, Repr

/-- The four engines of a core (R94). -/
inductive Eng where
  | matrix | copy | quant | fabric
  deriving DecidableEq, Repr

/-- Access kinds of a fault record (R294). -/
inductive Acc where
  | load | store | atomic | fetch | fence | jobRead | jobWrite | racking | mode
  deriving DecidableEq, Repr

/-- What one lane records when it calls trap (R11, R353). -/
structure TrapRec where
  lane : Nat
  cls : BitVec 4
  sub : BitVec 8
  addr : Addr
  aux : Word
  deriving DecidableEq, Repr

/-- A request for a page walk (R278): who asks, for which page, with which kind of access. -/
structure WalkReq where
  core : BitVec 11
  agent : AgentId
  wave : Nat
  part : Nat
  level : Nat
  va : Addr
  acc : Acc
  deriving DecidableEq, Repr

/-- What a remote access asks of its home package (R289, R396). -/
inductive RemoteOp where
  | load (size : Nat)
  | store (size : Nat) (v : QWord)
  | amo (size : Nat) (fp : Bool) (aop : BitVec 4) (b : DWord) (d : DWord) (cas : Bool)
  | lda (size : Nat)
  | stl (size : Nat) (v : QWord)
  | red (v : Word)
  /-- Bytes 23:0 of a stream buffer's header (R244). -/
  | ringRead
  /-- A pop or peek of `n` words, or a push of them with the offsets of those poisoned, at a stream buffer of a geometry (R245, R413). -/
  | ringPop (slots size n : Nat) (peek : Bool)
  | ringPush (slots size n v : Nat) (bad : List Nat)
  /-- A word of a slot of a stream buffer whose header lies at the requester: popped or peeked, pushed (R156, R245). -/
  | slotGet
  /-- A join step of a distributor on a record there (R324), inbound bytes written or read there (R402). -/
  | join (n faulted cancelled : Nat)
  | bytes (l : List (BitVec 8))
  | inward (size : Nat)
  | slotPut (v : Word) (bad : Bool)
  /-- A store of an engine job, with the offsets of the poisoned words that it copies (R413). -/
  | put (size : Nat) (v : QWord) (bad : List Nat)
  deriving DecidableEq, Repr

/-- A request of VC 0 (R289, R397). -/
structure RemoteReq where
  spkg : BitVec 12
  mid : BitVec 24
  part : Nat
  agent : AgentId
  level : Nat
  va : Addr
  op : RemoteOp
  deriving DecidableEq, Repr

/-- A response of VC 1 (R289, R396): the value, or the class and subcode that refused it. -/
structure RemoteResp where
  mid : BitVec 24
  value : Nat
  poison : Bool
  /-- The stream buffer is empty or full: nothing was popped or pushed (R245). -/
  again : Bool
  refused : Option (BitVec 4 × BitVec 8)
  deriving DecidableEq, Repr

/-- A delivery report (R389, R405). -/
structure Report where
  mid : BitVec 24
  ok : Bool
  cls : BitVec 4
  sub : BitVec 8
  deriving DecidableEq, Repr

/-- What a message stands for whose layout the spec does not give: an access (R289), its response (R396), a delivery report
(R389, R405), a cancel (R398), or a piece of a collective's block (R200) with the rank it comes from and its place in the
block; the piece's bytes are the message itself; or the NAK that a control flit carries. -/
inductive Body where
  | request (r : RemoteReq)
  | response (r : RemoteResp)
  | report (r : Report)
  | cancel (table : Addr) (rank : Nat)
  | block (table : Addr) (rank off : Nat)
  /-- A NAK of a link (R379, R393). -/
  | nak (lseq : BitVec 20)
  deriving DecidableEq, Repr

/-- A fragment as it reaches a core's vats (R378, R386). -/
structure Fragment where
  spkg : BitVec 12
  dagt : AgentId
  mid : BitVec 24
  fidx : BitVec 4
  k : BitVec 5
  m : BitVec 4
  rch : BitVec 6
  len : BitVec 13
  payload : List (BitVec 8)
  /-- Poisoned 8-byte units of the message, by offset, as far as this fragment carries them (R413). -/
  bad : List Nat
  body : Option Body
  deriving DecidableEq, Repr

/-- A flit header (R378); the payload is the plaintext of bytes 239:16. The flits of an access, a response, a report and a
cancel carry a `body` in its place. -/
structure Flit where
  lseq : BitVec 20
  dpkg : BitVec 12
  spkg : BitVec 12
  dagt : AgentId
  mid : BitVec 24
  fidx : BitVec 4
  k : BitVec 5
  m : BitVec 4
  path : BitVec 7
  vc : BitVec 2
  type : BitVec 2
  ks : Bool
  rch : BitVec 6
  len : BitVec 13
  payload : List (BitVec 8)
  bad : List Nat
  body : Option Body
  deriving DecidableEq, Repr

/-- The unit an uncorrected error hits (R412). -/
inductive ErrTarget where
  | mem (pa : Addr)
  | scratch (agent : AgentId) (off : Nat)
  | reg (agent : AgentId) (slot : Nat) (f : Bool) (n : Nat)
  /-- Element `e` = 96 × row + column of a z tile. -/
  | tile (agent : AgentId) (t e : Nat)
  /-- 32 bits of an active or a loading bank: eight cells of a plane-column, or (unit 16) the scale codes of a column. -/
  | bank (agent : AgentId) (loading : Bool) (mac col unit : Nat)
  /-- An entry of the matrix engine's leader table. -/
  | leader (agent : AgentId) (n : Nat)
  /-- An entry of a quantisation engine's leader table. -/
  | qleader (core : BitVec 11) (n : Nat)
  /-- The 32 bits that hold the tags of f registers 8n to 8n + 7. -/
  | tags (agent : AgentId) (slot n : Nat)
  /-- Eight bytes of shadow storage: registers g2n and g2n + 1 of a fibre in a partition's image (R363). -/
  | image (part : Nat) (agent : AgentId) (slot n : Nat)
  /-- Eight bytes of shadow storage: g2n and g2n + 1 of a lane in its wave's entry save (R354). -/
  | entrySave (part : Nat) (agent : AgentId) (wave lane n : Nat)
  /-- Eight bytes of a partition's image (R363): fN, sixteen f tags, two elements of a tile, two units of a bank (cells, or from
  unit 16 on the scales of two columns), two entries of a matrix or of a quantisation leader table. -/
  | imageF (part : Nat) (agent : AgentId) (slot n : Nat)
  | imageTags (part : Nat) (agent : AgentId) (slot n : Nat)
  | imageTile (part : Nat) (agent : AgentId) (t n : Nat)
  | imageBank (part : Nat) (agent : AgentId) (loading : Bool) (mac col n : Nat)
  | imageLeader (part : Nat) (agent : AgentId) (n : Nat)
  | imageQleader (part : Nat) (core : BitVec 11) (n : Nat)
  /-- Eight bytes of a wave's entry save: s2n and s2n + 1 (R354). -/
  | entryS (part : Nat) (agent : AgentId) (wave n : Nat)
  /-- Eight bytes of a lane's captured values in an entry of a replay area, or of its result (R363): bytes 8n to 8n + 7 of A, B, D
  and result as R211 lays them out. -/
  | replayArea (part : Nat) (agent : AgentId) (wave ent lane n : Nat)
  deriving DecidableEq, Repr

/-- A PCIe inbound request (R402). -/
structure Inbound where
  port : Nat
  rid : BitVec 16
  write : Bool
  va : Addr
  size : Nat
  data : List (BitVec 8)
  deriving DecidableEq, Repr

/-- One contiguous part of a partition's shares (R234): which store, which units of it, which steps. -/
inductive ShareKind where
  | scratch | near | cluster | die | hbm
  deriving DecidableEq, Repr

/-- A share: `unit = none` means every unit (core, cluster or die) of the package; steps `lo … lo + n − 1`. -/
structure Share where
  kind : ShareKind
  unit : Option Nat
  lo : Nat
  n : Nat
  deriving DecidableEq, Repr

/-- What the monitor keeps for key slot 0 of a port's two directions (R391, R425, R426 step 5): key, salt, counter, threshold. -/
structure LinkKeys where
  port : Nat
  txKey : BitVec 256
  txSalt : Word
  txCtr : DWord
  txThr : DWord
  rxKey : BitVec 256
  rxSalt : Word
  rxCtr : DWord
  rxThr : DWord
  deriving DecidableEq, Repr

/-- A `.channel` line of a kernel: entry `ch` is bound at the start of a team that begins at `code` (R23). -/
structure ChanDecl where
  code : Addr
  ch : BitVec 6
  base : Addr
  slots : BitVec 12
  size : BitVec 13
  deriving DecidableEq, Repr

/-- The kernel image of the boot drive and what reset step 7 writes from it (R426, R427). -/
structure BootImage where
  shares : List Share
  ptroot : Addr
  tvbk : Addr
  tside : Addr
  swapb : Addr
  fltq : Addr
  code : Addr
  shape : DWord
  info : Addr
  bytes : List (Nat × BitVec 8)
  /-- SHA-384 of the image's bytes and of the monitor's firmware. -/
  measure : BitVec 384
  fwMeasure : BitVec 384
  /-- Ports whose links train (R426 step 5), and keys that the monitor's nonvolatile store receives (R425). -/
  trained : List Nat
  links : List LinkKeys
  /-- Channel entries that its kernels declare. -/
  channels : List ChanDecl
  /-- The boot information page's bytes: drives found, ports up, the image's extent, laid out nowhere (R427). -/
  infoBytes : List (BitVec 8)
  deriving DecidableEq, Repr

/-- How the reset steps end (R426): a step 2, 3 or 6 that fails holds the package there, with what the steps before it have found; or
the boot drive gives its image. -/
inductive BootResult where
  | failed2
  | failed3 (fwMeasure : BitVec 384)
  | failed6 (fwMeasure : BitVec 384) (trained : List Nat) (links : List LinkKeys)
  | image (i : BootImage)
  deriving DecidableEq, Repr

/-- One constructor per row of spec/opcode_table.json. -/
inductive Instr where
  -- group 0: control, fibres, convergence, channels (R77)
  | nop
  | br (h : Hdr) (off : BitVec 29)
  | bru (reg : BitVec 6) (bit : BitVec 5) (off : BitVec 29)
  | brx (h : Hdr) (a : Opnd)
  | call (h : Hdr) (d : Opnd) (off : BitVec 29)
  | callx (h : Hdr) (d a : Opnd)
  | ret (h : Hdr) (a : Opnd)
  | spawn (h : Hdr) (d : Opnd) (off : BitVec 29)
  | endf (h : Hdr)
  | yield (h : Hdr)
  | join (h : Hdr) (k : BitVec 4)
  | leave (h : Hdr) (k : BitVec 4)
  | waitm (h : Hdr) (k : BitVec 4)
  | mmov (h : Hdr) (d : Opnd) (k : BitVec 4) (arr : Bool)
  | mop (h : Hdr) (a : Opnd) (k : BitVec 4) (op : BitVec 4)
  | ballot (h : Hdr) (d a : Opnd)
  | tbar (h : Hdr) (regroup : Bool)
  | qset (h : Hdr) (a : Opnd) (q : BitVec 3)
  | sign (h : Hdr) (q : BitVec 3)
  | fork (h : Hdr) (d a : Opnd) (set : BitVec 4)
  | rdv (h : Hdr) (d a : Opnd)
  | arrive (h : Hdr) (a : Opnd) (rlx : Bool)
  | wait (h : Hdr) (a b : Opnd)
  | ctst (h : Hdr) (d : Opnd) (c : BitVec 6)
  | cbind (h : Hdr) (a b : Opnd) (c : BitVec 6)
  | cunb (h : Hdr) (c : BitVec 6)
  | cprod (h : Hdr) (a : Opnd) (c : BitVec 6)
  | ccons (h : Hdr) (a : Opnd) (c : BitVec 6)
  -- group 1: integer, address, affine, index (R105)
  | add (h : Hdr) (d a b : Opnd)
  | sub (h : Hdr) (d a b : Opnd)
  | mul (h : Hdr) (d a b : Opnd)
  | mulh (h : Hdr) (d a b : Opnd)
  | mulhu (h : Hdr) (d a b : Opnd)
  | mad (h : Hdr) (d a b : Opnd)
  | div (h : Hdr) (d a b : Opnd)
  | divu (h : Hdr) (d a b : Opnd)
  | rem (h : Hdr) (d a b : Opnd)
  | remu (h : Hdr) (d a b : Opnd)
  | and (h : Hdr) (d a b : Opnd)
  | or (h : Hdr) (d a b : Opnd)
  | xor (h : Hdr) (d a b : Opnd)
  | andn (h : Hdr) (d a b : Opnd)
  | shl (h : Hdr) (d a b : Opnd)
  | shr (h : Hdr) (d a b : Opnd)
  | sar (h : Hdr) (d a b : Opnd)
  | rol (h : Hdr) (d a b : Opnd)
  | clz (h : Hdr) (d a : Opnd)
  | ctz (h : Hdr) (d a : Opnd)
  | popc (h : Hdr) (d a b : Opnd)
  | brev (h : Hdr) (d a : Opnd)
  | bfx (h : Hdr) (d a : Opnd) (pos len : BitVec 5)
  | bfxs (h : Hdr) (d a : Opnd) (pos len : BitVec 5)
  | bfi (h : Hdr) (d a : Opnd) (pos len : BitVec 5)
  | min (h : Hdr) (d a b : Opnd)
  | max (h : Hdr) (d a b : Opnd)
  | minu (h : Hdr) (d a b : Opnd)
  | maxu (h : Hdr) (d a b : Opnd)
  | abs (h : Hdr) (d a : Opnd)
  | cmp (h : Hdr) (d a b : Opnd) (t : TOpt)
  | sel (h : Hdr) (d a b : Opnd) (cr : BitVec 6) (cb : BitVec 5)
  | mov (h : Hdr) (d a : Opnd)
  | li (h : Hdr) (d : Opnd) (imm : BitVec 29)
  | lih (h : Hdr) (d : Opnd) (imm : BitVec 16)
  | shfl (h : Hdr) (d a b : Opnd) (mode : BitVec 2)
  | rdid (h : Hdr) (d : Opnd) (sel : BitVec 4)
  | amk (h : Hdr) (d a b : Opnd)
  | aadd (h : Hdr) (d a b : Opnd)
  | ascl (h : Hdr) (d a b : Opnd)
  | amat (h : Hdr) (d a : Opnd)
  | setix (h : Hdr) (d a b : Opnd)
  | getix (h : Hdr) (d a b : Opnd)
  | lea (h : Hdr) (d : Opnd) (wid : Wid) (m : MemOpnd)
  -- group 2: floating point (R124)
  | fadd (h : Hdr) (d a b : Opnd) (o : FOpt)
  | fsub (h : Hdr) (d a b : Opnd) (o : FOpt)
  | fmul (h : Hdr) (d a b : Opnd) (o : FOpt)
  | ffma (h : Hdr) (d a b : Opnd) (o : FOpt)
  | fmin (h : Hdr) (d a b : Opnd) (o : FOpt)
  | fmax (h : Hdr) (d a b : Opnd) (o : FOpt)
  | fdiv (h : Hdr) (d a b : Opnd) (o : FOpt)
  | fsqrt (h : Hdr) (d a : Opnd) (o : FOpt)
  | frcp (h : Hdr) (d a : Opnd) (o : FOpt)
  | frsq (h : Hdr) (d a : Opnd) (o : FOpt)
  | fex2 (h : Hdr) (d a : Opnd) (o : FOpt)
  | flg2 (h : Hdr) (d a : Opnd) (o : FOpt)
  | fsin (h : Hdr) (d a : Opnd) (o : FOpt)
  | fcos (h : Hdr) (d a : Opnd) (o : FOpt)
  | fcmp (h : Hdr) (d a b : Opnd) (t : TOpt)
  | fcls (h : Hdr) (d a : Opnd) (o : FOpt)
  | fcvt (h : Hdr) (d a b : Opnd) (v : VOpt)
  | ftoi (h : Hdr) (d a : Opnd) (v : VOpt)
  | itof (h : Hdr) (d a : Opnd) (v : VOpt)
  | frnd (h : Hdr) (d a : Opnd) (o : FOpt)
  | fscl (h : Hdr) (d a b : Opnd) (o : FOpt)
  | fdot (h : Hdr) (d a b : Opnd)
  | fmov (h : Hdr) (d a : Opnd)
  | ftag (h : Hdr) (d a : Opnd) (tag : BitVec 4)
  | fraw (h : Hdr) (d a b : Opnd)
  | fsel (h : Hdr) (d a b : Opnd) (cr : BitVec 6) (cb : BitVec 5)
  -- group 3: intervals (R136)
  | xmk (h : Hdr) (d a b : Opnd) (x : XOpt)
  | xpt (h : Hdr) (d a : Opnd) (x : XOpt)
  | xlo (h : Hdr) (d a : Opnd) (x : XOpt)
  | xhi (h : Hdr) (d a : Opnd) (x : XOpt)
  | xadd (h : Hdr) (d a b : Opnd) (x : XOpt)
  | xsub (h : Hdr) (d a b : Opnd) (x : XOpt)
  | xmul (h : Hdr) (d a b : Opnd) (x : XOpt)
  | xdiv (h : Hdr) (d a b : Opnd) (x : XOpt)
  | xsqr (h : Hdr) (d a : Opnd) (x : XOpt)
  | xsqrt (h : Hdr) (d a : Opnd) (x : XOpt)
  | xneg (h : Hdr) (d a : Opnd) (x : XOpt)
  | xabs (h : Hdr) (d a : Opnd) (x : XOpt)
  | xhull (h : Hdr) (d a b : Opnd) (x : XOpt)
  | xmeet (h : Hdr) (d a b : Opnd) (x : XOpt)
  | xmid (h : Hdr) (d a : Opnd) (x : XOpt)
  | xwid (h : Hdr) (d a : Opnd) (x : XOpt)
  | xcmp (h : Hdr) (d a b : Opnd) (t : TOpt)
  | xin (h : Hdr) (d a b : Opnd) (t : TOpt)
  | xsubs (h : Hdr) (d a b : Opnd) (t : TOpt)
  | xbis (h : Hdr) (d a b : Opnd) (x : XOpt)
  | xld (h : Hdr) (d : Opnd) (wid : Wid) (m : MemOpnd)
  | xst (h : Hdr) (d : Opnd) (wid : Wid) (m : MemOpnd)
  | xcvt (h : Hdr) (d a : Opnd) (v : VOpt)
  | xexp (h : Hdr) (d a : Opnd) (x : XOpt)
  -- groups 4 and 5: memory, atomics, ordering (R145)
  | ld (h : Hdr) (d : Opnd) (wid : Wid) (m : MemOpnd)
  | st (h : Hdr) (d : Opnd) (wid : Wid) (m : MemOpnd)
  | ldf (h : Hdr) (d : Opnd) (wid : Wid) (m : MemOpnd)
  | stf (h : Hdr) (d : Opnd) (wid : Wid) (m : MemOpnd)
  | ldp (h : Hdr) (d : Opnd) (wid : Wid) (m : MemOpnd)
  | stp (h : Hdr) (d : Opnd) (wid : Wid) (m : MemOpnd)
  | place (h : Hdr) (d a b : Opnd) (lvl : BitVec 2)
  | evict (h : Hdr) (d a b : Opnd)
  | lds (h : Hdr) (d : Opnd) (wid : Wid) (m : MemOpnd)
  | zfill (h : Hdr) (a b : Opnd) (scratch : Bool)
  | amo (h : Hdr) (d a b : Opnd) (o : AOpt)
  | cas (h : Hdr) (d a b : Opnd) (o : AOpt)
  | amof (h : Hdr) (d a b : Opnd) (o : AOpt)
  | lda (h : Hdr) (d : Opnd) (wid : Wid) (m : MemOpnd)
  | stl (h : Hdr) (d : Opnd) (wid : Wid) (m : MemOpnd)
  | fence (h : Hdr) (a : Opnd) (kind : BitVec 2)
  | tfence (h : Hdr) (a : Opnd)
  | seal (h : Hdr) (a b : Opnd) (code : Bool)
  | unseal (h : Hdr) (a b : Opnd)
  | hand (h : Hdr) (a b : Opnd)
  | take (h : Hdr) (a : Opnd)
  | pub (h : Hdr) (a : Opnd)
  | red (h : Hdr) (d : Opnd) (m : MemOpnd)
  | probe (h : Hdr) (a : Opnd)
  | chkerr (h : Hdr) (d : Opnd)
  -- group 6: engine commands (R177)
  | mcfg (h : Hdr) (arr : BitVec 2) (wf af : BitVec 3) (fac : Bool)
  | mldb (h : Hdr) (a b : Opnd) (mask : BitVec 4)
  | mvqb (h : Hdr) (a b : Opnd) (mask : BitVec 4)
  | mldt (h : Hdr) (a : Opnd)
  | mswb (h : Hdr) (mask : BitVec 4)
  | mma (h : Hdr) (d a b : Opnd) (t : BitVec 3) (rows : BitVec 4) (q : BitVec 3)
  | mzro (h : Hdr) (t : BitVec 3) (i32 : Bool)
  | mstz (h : Hdr) (a b : Opnd) (t : BitVec 3)
  | mrdz (h : Hdr) (d a : Opnd) (t : BitVec 3)
  | mfac (h : Hdr) (n : BitVec 7)
  | mpiv (h : Hdr) (d a b : Opnd) (k : BitVec 6)
  | mrnm (h : Hdr) (d a : Opnd)
  | mgrw (h : Hdr) (d : Opnd)
  | mfst (h : Hdr) (a b : Opnd)
  | qenq (h : Hdr) (d a b : Opnd) (kind : BitVec 4)
  | cpy (h : Hdr) (d a b : Opnd) (c : BitVec 4) (dsc ssc : Bool)
  | gthr (h : Hdr) (d a b : Opnd) (c : BitVec 4) (dsc ssc : Bool)
  | sctr (h : Hdr) (d a b : Opnd) (c : BitVec 4) (dsc ssc : Bool)
  | mcast (h : Hdr) (d a b : Opnd) (c : BitVec 4)
  | msnd (h : Hdr) (a b : Opnd) (ssc : Bool)
  | coll (h : Hdr) (d a b : Opnd) (ty op : BitVec 4)
  | eloop (h : Hdr) (l : BitVec 8) (a b : Opnd) (count : BitVec 13)
  | ewait (h : Hdr) (d : Opnd)
  -- group 7: system (R207)
  | trap (h : Hdr) (code : BitVec 13)
  | sysc (h : Hdr) (code : BitVec 13)
  | rft (h : Hdr)
  | rplyGet (h : Hdr) (d a b : Opnd)
  | rplyPut (h : Hdr) (d a b : Opnd)
  | rplyDrop (h : Hdr) (d a b : Opnd)
  | rplyIns (h : Hdr) (d a b : Opnd)
  | csrr (h : Hdr) (d : Opnd) (n : BitVec 12)
  | csrw (h : Hdr) (a : Opnd) (n : BitVec 12)
  | csrx (h : Hdr) (d a : Opnd) (n : BitVec 12)
  | csrHighLatchRead (h : Hdr) (d : Opnd) (n : BitVec 12)
  | fenvWrite (h : Hdr) (a : Opnd)
  | tepcWrite (h : Hdr) (a : Opnd) (hi : Bool)
  | fltqWrite (h : Hdr) (a : Opnd)
  | mstatWrite (h : Hdr) (a : Opnd)
  | keystWrite (h : Hdr) (a : Opnd)
  | lnch (h : Hdr) (d a b : Opnd)
  | canc (h : Hdr) (a : Opnd) (lvl : BitVec 2)
  | cntr (h : Hdr) (d a b : Opnd) (op lvl : BitVec 2)
  | tinv (h : Hdr) (a b : Opnd)
  | rack (h : Hdr) (d a b : Opnd)
  | parkr (h : Hdr) (d a : Opnd)
  | rsumRetry (h : Hdr) (d a b : Opnd)
  | rsumFail (h : Hdr) (d a b : Opnd)
  | swpo (h : Hdr) (d a : Opnd)
  | swpi (h : Hdr) (d a : Opnd)
  | prem (h : Hdr) (d a b : Opnd)
  | frz (h : Hdr)
  | cndl (h : Hdr) (d a : Opnd)
  | cmap (h : Hdr) (d a b : Opnd)
  | halt (h : Hdr) (a : Opnd)
  | haltEnable (h : Hdr) (a : Opnd)
  | atst (h : Hdr) (d a b : Opnd)
  -- paired words, by the operation of slot X (R47); slot Y is the last argument
  | pnop (y : Slot)
  | pairMov (d s : Opnd) (y : Slot)
  | pairAdd (d s : Opnd) (y : Slot)
  | pairSub (d s : Opnd) (y : Slot)
  | pairAnd (d s : Opnd) (y : Slot)
  | pairOr (d s : Opnd) (y : Slot)
  | pairXor (d s : Opnd) (y : Slot)
  | pairShl (d s : Opnd) (y : Slot)
  | pairShr (d s : Opnd) (y : Slot)
  | pairSar (d s : Opnd) (y : Slot)
  | pairMin (d s : Opnd) (y : Slot)
  | pairMax (d s : Opnd) (y : Slot)
  | addi (d : Opnd) (imm : BitVec 8) (y : Slot)
  | movi (d : Opnd) (imm : BitVec 8) (y : Slot)
  | shli (d : Opnd) (imm : BitVec 8) (y : Slot)
  | shri (d : Opnd) (imm : BitVec 8) (y : Slot)
  | pairFadd (d s : Opnd) (y : Slot)
  | pairFsub (d s : Opnd) (y : Slot)
  | pairFmul (d s : Opnd) (y : Slot)
  | pairFmin (d s : Opnd) (y : Slot)
  | pairFmax (d s : Opnd) (y : Slot)
  | pairFmov (d s : Opnd) (y : Slot)
  | aaddi (d : Opnd) (imm : BitVec 8) (y : Slot)
  | pairPopc (d s : Opnd) (y : Slot)
  -- events of a wave
  | longLatencyCompletion (agent : AgentId) (wave : Nat) (ent : Nat)
  | lateTrap (agent : AgentId) (wave : Nat) (ent : Nat)
  | handlerEntry (agent : AgentId) (wave : Nat) (pc : Addr) (traps : List TrapRec)
  | freeze
  -- events of translation and placement
  | walk (r : WalkReq)
  | snapshot (part : Nat) (vpn : Nat)
  | rackingEntry (part : Nat) (counter : Nat)
  | ownedMoveCopyComplete (mv : Nat)
  | bellwetherMark (mv : Nat)
  | bellwetherSignal (mv : Nat) (core : BitVec 11)
  | bellwetherLastAck (mv : Nat)
  | bellwetherCopyComplete (mv : Nat)
  -- events of scheduling
  | ringEntryAdmit (part die prio : Nat)
  | unitPop (core : BitVec 11)
  | headReservation (part die prio : Nat)
  | stealRequest (part thief victim : Nat)
  | stealAnswer (part thief victim : Nat)
  | joinStep (part die : Nat) (agent : AgentId) (join : Addr) (n faulted cancelled : Nat)
  | continuationEnqueue (part die : Nat) (addr : Addr) (faulted cancelled : Nat)
  | launchCompletion (part launch : Nat)
  | teamDiscard (agent : AgentId)
  | hardwareSwap (agent : AgentId)
  | teamReadmit (agent : AgentId)
  -- events of the engines
  | jobReady (job : Nat)
  | jobStart (job : Nat)
  | jobCompletion (job : Nat)
  | mmaGroupCommit (job : Nat)
  | engineStopAck (core : BitVec 11) (eng : Eng)
  -- events of the fabric
  | remoteRequest (r : RemoteReq)
  | remoteResponse (r : RemoteResp)
  | remoteAccessTimeout (mid : BitVec 24)
  | flitReceive (port : Nat) (fl : Flit) (ok : Bool)
  | nakReceive (port : Nat) (lseq : BitVec 20)
  | keySwitchMarker (port : Nat)
  | keySlotWindowEnd (port : Nat)
  | retraining (port : Nat)
  | linkDown (port : Nat)
  | retryBufferExpiry (port : Nat) (mid : BitVec 24)
  | fragmentArrival (fr : Fragment)
  | delivery (core : BitVec 11) (spkg : BitVec 12) (mid : BitVec 24)
  | vatTimeout (core : BitVec 11) (spkg : BitVec 12) (mid : BitVec 24)
  | keyForget (core : BitVec 11) (spkg : BitVec 12) (mid : BitVec 24)
  | deliveryReport (r : Report)
  | senderLossTimeout (mid : BitVec 24)
  | fabricFenceTimeout (agent : AgentId) (wave : Nat)
  | cancel (part : Nat) (agent : AgentId) (table : Addr) (rank : Nat)
  | inboundMemoryRequest (r : Inbound)
  | msiX (port : Nat) (rid : BitVec 16) (data : Word)
  -- the sideband port
  | getVersion
  | getCapabilities
  | negotiateAlgorithms
  | getDigests
  | getCertificate
  | challenge (nonce : BitVec 256)
  | getMeasurements
  | unsupportedRequest (code : BitVec 8)
  | otherMctpMessage (type : BitVec 8)
  | resetRequest
  | resetDeadline
  -- reset, power, reliability
  | powerOn
  | packageReset (r : BootResult)
  | powerWindow (above : Bool)
  | rollbackRestore (part launch : Nat)
  | keySlotLoad (port : Nat) (tx : Bool) (slot : Bool) (key : BitVec 256) (salt : Word) (ctr thr : DWord)
  | linkRetrained (port : Nat)
  | uncorrectedError (t : ErrTarget)
  | candlingScanEnd (core : BitVec 11) (pass : Bool) (pdm vmm : BitVec 8)
  | performedMidExpiry (spkg : BitVec 12) (mid : BitVec 24)
  deriving DecidableEq, Repr

end Sys2Proof
end

