-- ==== Sys2Proof/WellFormed.lean ====
section
/-! DEFINITION. Which instruction terms the manual gives an encoding: the operand kinds of the opcode tables R77,
R105, R124, R136, R145, R177 and R207, the layouts of R48 and the own fields of R49. It is written over the terms,
apart from the decoder: Decode.lean checks words. -/

namespace Sys2Proof

/-- Kinds of operand an entry's column may list: `ge`, `fe`, `se` are even numbers, `gq` multiples of four. -/
inductive K where
  | g | ge | gq | f | fe | a | s | se | i | zr | lid | ch | ix | im
  deriving DecidableEq, Repr

/-- Whether an operand is of one of the kinds. -/
def Opnd.isIn (o : Opnd) (ks : List K) : Bool :=
  match o with
  | .g n => ks.contains .g || (ks.contains .ge && n.toNat % 2 == 0) || (ks.contains .gq && n.toNat % 4 == 0)
  | .f n => ks.contains .f || (ks.contains .fe && n.toNat % 2 == 0)
  | .a _ => ks.contains .a
  | .s n => ks.contains .s || (ks.contains .se && n.toNat % 2 == 0)
  | .i _ => ks.contains .i
  | .zr => ks.contains .zr
  | .lid => ks.contains .lid
  | .imm _ => ks.contains .im
  | .idx _ _ => ks.contains .ix
  | .chan _ _ => ks.contains .ch

/-- V of R105: value sources. -/
def kV : List K := [.g, .a, .s, .i, .zr, .lid, .ch, .ix]
/-- V of R105 with IMM, in the B of layout I. -/
def kVI : List K := [.g, .a, .s, .i, .zr, .lid, .ch, .ix, .im]
/-- W of R105: value destinations. -/
def kW : List K := [.g, .s, .zr, .ch, .ix]
/-- V less 127. -/
def kV7 : List K := [.g, .a, .s, .i, .zr, .lid, .ch]
/-- Operand kinds of a table column. -/
def kGSZ : List K := [.g, .s, .zr]
/-- Operand kinds of a table column. -/
def kGS : List K := [.g, .s]
/-- Operand kinds of a table column. -/
def kGZ : List K := [.g, .zr]
/-- A pair of R77: an even g or s register. -/
def kPair : List K := [.ge, .se]
/-- Operand kinds of a table column. -/
def kF : List K := [.f]
/-- Operand kinds of a table column. -/
def kG : List K := [.g]
/-- Operand kinds of a table column. -/
def kE : List K := [.ge]
/-- adr of R178. -/
def kAdr : List K := [.ge, .s, .zr]
/-- Lane-wise sources without channels. -/
def kAll : List K := [.g, .a, .s, .i, .zr, .lid]
/-- Scratch offsets of R40 and CPROD’s counts. -/
def kOff : List K := [.g, .a, .s, .zr]
/-- FMOV and FTAG sources. -/
def kFC : List K := [.f, .ch]
/-- B of layout L (R40): IMM adds nothing. -/
def kIndex : List K := [.g, .a, .s, .i, .zr, .lid, .im]

/-- The channel-push form of a destination has no peek bit (R35). -/
def Opnd.okD : Opnd → Bool
  | .chan _ pk => !pk
  | _ => true

/-- A word that may not carry lookahead (R41). -/
def Hdr.noLa (h : Hdr) : Bool := h.la == 0

/-- Every operand 127 of a word names the same register, and IMM excludes 127 (R37). -/
def share (os : List Opnd) : Bool :=
  let ixs := os.filter (·.isIn [.ix])
  ixs.all (fun o => some o == ixs.head?) && (ixs.isEmpty || !os.any (·.isIn [.im]))

/-- The B of a memory operand: only kinds read(B) has a meaning for without layout I's M (R40). -/
def MemOpnd.ok (m : MemOpnd) : Bool :=
  (if m.scratch then m.base.isIn kOff else m.base.isIn kPair) &&
    (match m.index with | none => true | some b => b.isIn kAll)

/-- The memory operand of LDS (R145, R154). -/
def MemOpnd.okLds (m : MemOpnd) : Bool :=
  (if m.scratch then m.base.isIn [.s, .zr] else m.base.isIn [.se]) &&
    (match m.index with | none => true | some b => b.isIn [.s])

/-- FRAW's two forms (R124): into f from two words, or out of f into an even g. -/
def frawOk (d a b : Opnd) : Bool :=
  if d.isIn kF then a.isIn kGSZ && b.isIn kGSZ else d.isIn kE && a.isIn kF && b == .g 0

/-- PB names the even bit of a pair (R48 layout T). -/
def TOpt.evenPb (t : TOpt) : Bool := t.pb.toNat % 2 == 0

/-- CSR numbers that are the high half of a 64-bit register (R25). -/
def csrHigh (n : BitVec 12) : Bool := n == 0x002 || n == 0x109

/-- CSR numbers whose write is a row of its own (R57, R213, R293, R340, R399). -/
def csrOwnRow (n : BitVec 12) : Bool :=
  n == 0x000 || n == 0x108 || n == 0x109 || n == 0x10E || n == 0x006 || n == 0x10F

/-- Kinds a paired operation allows in D (R47). -/
def PairOp.dKinds : PairOp → List K
  | .pnop => []
  | .fadd | .fsub | .fmul | .fmin | .fmax | .fmov => kF
  | .aaddi => [.a]
  | _ => kGS

/-- Kinds a paired operation allows in S (R47); none for an I-form. -/
def PairOp.sKinds : PairOp → List K
  | .pnop | .addi | .movi | .shli | .shri | .aaddi => []
  | .fadd | .fsub | .fmul | .fmin | .fmax => [.f, .zr]
  | .fmov => kF
  | _ => kOff

/-- I-forms take their value from imm8 (R45). -/
def PairOp.isImm : PairOp → Bool
  | .addi | .movi | .shli | .shri | .aaddi => true
  | _ => false

/-- Whether an operation reads its D (R46). -/
def PairOp.readsD : PairOp → Bool
  | .pnop | .mov | .movi | .fmov => false
  | _ => true

/-- One slot of a paired word on its own (R45, R47). An unused operand byte decodes as g0. -/
def Slot.ok (x : Slot) : Bool :=
  (if x.op = .pnop then x.d == .g 0 else x.d.isIn x.op.dKinds) &&
  (if x.op = .pnop || x.op.isImm then x.s == .g 0 else x.s.isIn x.op.sKinds) &&
  (x.op.isImm || x.imm == 0) &&
  (!(x.op == .shli || x.op == .shri) || decide (x.imm.toNat < 32))

/-- The bank of a register read: its file and its number modulo four (R46). -/
def Opnd.bank : Opnd → Option (Nat × Nat)
  | .g n => some (0, n.toNat % 4)
  | .f n => some (1, n.toNat % 4)
  | .a n => some (2, n.toNat % 4)
  | .s n => some (3, n.toNat % 4)
  | _ => none

/-- The register reads of a slot (R46). -/
def Slot.reads (x : Slot) : List (Nat × Nat) :=
  (if x.op = .pnop || x.op.isImm then [] else x.s.bank.toList) ++ (if x.op.readsD then x.d.bank.toList else [])

/-- At most two reads lie in any one bank (R46). -/
def banksOk (x y : Slot) : Bool :=
  let r := x.reads ++ y.reads
  r.all (fun b => r.count b ≤ 2)

/-- Both slots write one register (R45). -/
def sameDst (x y : Slot) : Bool := x.op != .pnop && y.op != .pnop && x.d == y.d

/-- A paired word (R45, R46). -/
def pairOk (x y : Slot) : Bool := x.ok && y.ok && banksOk x y && !sameDst x y

/-- Slot X of a paired word; none for a full-form word or an event. -/
def Instr.slotX : Instr → Option (Slot × Slot)
  | .pnop y => some (⟨.pnop, .g 0, .g 0, 0⟩, y)
  | .pairMov d s y => some (⟨.mov, d, s, 0⟩, y)
  | .pairAdd d s y => some (⟨.add, d, s, 0⟩, y)
  | .pairSub d s y => some (⟨.sub, d, s, 0⟩, y)
  | .pairAnd d s y => some (⟨.and, d, s, 0⟩, y)
  | .pairOr d s y => some (⟨.or, d, s, 0⟩, y)
  | .pairXor d s y => some (⟨.xor, d, s, 0⟩, y)
  | .pairShl d s y => some (⟨.shl, d, s, 0⟩, y)
  | .pairShr d s y => some (⟨.shr, d, s, 0⟩, y)
  | .pairSar d s y => some (⟨.sar, d, s, 0⟩, y)
  | .pairMin d s y => some (⟨.min, d, s, 0⟩, y)
  | .pairMax d s y => some (⟨.max, d, s, 0⟩, y)
  | .pairFadd d s y => some (⟨.fadd, d, s, 0⟩, y)
  | .pairFsub d s y => some (⟨.fsub, d, s, 0⟩, y)
  | .pairFmul d s y => some (⟨.fmul, d, s, 0⟩, y)
  | .pairFmin d s y => some (⟨.fmin, d, s, 0⟩, y)
  | .pairFmax d s y => some (⟨.fmax, d, s, 0⟩, y)
  | .pairFmov d s y => some (⟨.fmov, d, s, 0⟩, y)
  | .pairPopc d s y => some (⟨.popc, d, s, 0⟩, y)
  | .addi d imm y => some (⟨.addi, d, .g 0, imm⟩, y)
  | .movi d imm y => some (⟨.movi, d, .g 0, imm⟩, y)
  | .shli d imm y => some (⟨.shli, d, .g 0, imm⟩, y)
  | .shri d imm y => some (⟨.shri, d, .g 0, imm⟩, y)
  | .aaddi d imm y => some (⟨.aaddi, d, .g 0, imm⟩, y)
  | _ => none

/-- The instruction terms that have an encoding, by layout group. The arms follow the rows of the opcode tables. -/
def Instr.wf (i : Instr) : Bool :=
  match i with
  | .nop => true
  | .bru _ bit _ => bit.toNat % 2 == 0
  | .br h _ => h.noLa
  | .brx h a => h.noLa && a.isIn kPair && share [a]
  | .call h d _ => h.noLa && d.isIn kE
  | .callx h d a => h.noLa && d.isIn kE && a.isIn kPair && share [d, a]
  | .ret h a => h.noLa && a.isIn kPair && share [a]
  | .spawn h d _ => h.noLa && d.isIn kG
  | .endf h => h.noLa
  | .yield h => h.noLa
  | .join h k => h.noLa && (k.toNat ≤ 11)
  | .leave h k => h.noLa && (k.toNat ≤ 11)
  | .waitm h k => h.noLa && (k.toNat ≤ 11)
  | .mmov h d k _ => h.noLa && d.isIn kGS && (k.toNat ≤ 11)
  | .mop h a k op => h.noLa && a.isIn [.s, .zr] && (k.toNat ≤ 11 && op.toNat ≤ 2)
  | .ballot h d a => h.noLa && d.isIn kGS && a.isIn kAll && share [d, a]
  | .tbar h _ => h.noLa
  | .qset h a _ => h.noLa && a.isIn [.s, .zr]
  | .sign h _ => h.noLa
  | .fork h d a set => h.noLa && d.isIn kG && a.isIn kPair && (set ≠ 0)
  | .rdv h d a => h.noLa && d.isIn kGZ && a.isIn kGS && share [d, a]
  | .arrive h a _ => h.noLa && a.isIn kGSZ
  | .wait h a b => h.noLa && a.isIn kGSZ && b.isIn kGSZ && share [a, b]
  | .ctst h d _ => h.noLa && d.isIn kGS
  | .cbind h a b _ => h.noLa && a.isIn kPair && b.isIn kGS
  | .cunb h _ => h.noLa
  | .cprod h a _ => h.noLa && a.isIn kOff
  | .ccons h a _ => h.noLa && a.isIn kOff
  | .add h d a b => h.noLa && d.isIn kW && d.okD && a.isIn kV && b.isIn kVI && share [d, a, b]
  | .sub h d a b => h.noLa && d.isIn kW && d.okD && a.isIn kV && b.isIn kVI && share [d, a, b]
  | .mul h d a b => h.noLa && d.isIn kW && d.okD && a.isIn kV && b.isIn kVI && share [d, a, b]
  | .mulh h d a b => h.noLa && d.isIn kW && d.okD && a.isIn kV && b.isIn kVI && share [d, a, b]
  | .mulhu h d a b => h.noLa && d.isIn kW && d.okD && a.isIn kV && b.isIn kVI && share [d, a, b]
  | .mad h d a b => h.noLa && d.isIn kGS && a.isIn kV && b.isIn kVI && share [d, a, b]
  | .div h d a b => d.isIn kW && d.okD && a.isIn kV && b.isIn kVI && share [d, a, b] && (h.la = 0 || !d.isIn [.ch])
  | .divu h d a b => d.isIn kW && d.okD && a.isIn kV && b.isIn kVI && share [d, a, b] && (h.la = 0 || !d.isIn [.ch])
  | .rem h d a b => d.isIn kW && d.okD && a.isIn kV && b.isIn kVI && share [d, a, b] && (h.la = 0 || !d.isIn [.ch])
  | .remu h d a b => d.isIn kW && d.okD && a.isIn kV && b.isIn kVI && share [d, a, b] && (h.la = 0 || !d.isIn [.ch])
  | .and h d a b => h.noLa && d.isIn kW && d.okD && a.isIn kV && b.isIn kVI && share [d, a, b]
  | .or h d a b => h.noLa && d.isIn kW && d.okD && a.isIn kV && b.isIn kVI && share [d, a, b]
  | .xor h d a b => h.noLa && d.isIn kW && d.okD && a.isIn kV && b.isIn kVI && share [d, a, b]
  | .andn h d a b => h.noLa && d.isIn kW && d.okD && a.isIn kV && b.isIn kVI && share [d, a, b]
  | .shl h d a b => h.noLa && d.isIn kW && d.okD && a.isIn kV && b.isIn kVI && share [d, a, b]
  | .shr h d a b => h.noLa && d.isIn kW && d.okD && a.isIn kV && b.isIn kVI && share [d, a, b]
  | .sar h d a b => h.noLa && d.isIn kW && d.okD && a.isIn kV && b.isIn kVI && share [d, a, b]
  | .rol h d a b => h.noLa && d.isIn kW && d.okD && a.isIn kV && b.isIn kVI && share [d, a, b]
  | .clz h d a => h.noLa && d.isIn kW && d.okD && a.isIn kV && share [d, a]
  | .ctz h d a => h.noLa && d.isIn kW && d.okD && a.isIn kV && share [d, a]
  | .popc h d a b => h.noLa && d.isIn kW && d.okD && a.isIn kV && b.isIn kVI && share [d, a, b]
  | .brev h d a => h.noLa && d.isIn kW && d.okD && a.isIn kV && share [d, a]
  | .bfx h d a pos len => h.noLa && d.isIn kGSZ && a.isIn kV7 && (pos.toNat + len.toNat < 32)
  | .bfxs h d a pos len => h.noLa && d.isIn kGSZ && a.isIn kV7 && (pos.toNat + len.toNat < 32)
  | .bfi h d a pos len => h.noLa && d.isIn kGS && a.isIn kV7 && (pos.toNat + len.toNat < 32)
  | .min h d a b => h.noLa && d.isIn kW && d.okD && a.isIn kV && b.isIn kVI && share [d, a, b]
  | .max h d a b => h.noLa && d.isIn kW && d.okD && a.isIn kV && b.isIn kVI && share [d, a, b]
  | .minu h d a b => h.noLa && d.isIn kW && d.okD && a.isIn kV && b.isIn kVI && share [d, a, b]
  | .maxu h d a b => h.noLa && d.isIn kW && d.okD && a.isIn kV && b.isIn kVI && share [d, a, b]
  | .abs h d a => h.noLa && d.isIn kW && d.okD && a.isIn kV && share [d, a]
  | .cmp h d a b t => h.noLa && d.isIn kG && a.isIn kV7 && b.isIn kV7 && (!t.wide && t.rel.toNat ≤ 9 && t.evenPb)
  | .sel h d a b _ _ => h.noLa && d.isIn [.g, .s, .zr, .ch] && d.okD && a.isIn kV7 && b.isIn kV7
  | .mov h d a => h.noLa && d.isIn [.g, .s, .zr, .ch, .ix, .i] && d.okD && a.isIn kV && share [d, a]
  | .li h d _ => h.noLa && d.isIn kGS
  | .lih h d _ => h.noLa && d.isIn kGS
  | .shfl _ d a b _ => d.isIn kG && a.isIn kAll && b.isIn kGSZ
  | .rdid h d w => h.noLa && d.isIn kGS && (w.toNat ≤ 9 && (2 ≤ w.toNat || d.isIn kG))
  | .amk h d a b => h.noLa && d.isIn [.a] && a.isIn kGSZ && b.isIn [.g, .s, .zr, .im] && share [d, a, b]
  | .aadd h d a b => h.noLa && d.isIn [.a] && a.isIn [.a] && b.isIn [.g, .s, .zr, .im] && share [d, a, b]
  | .ascl h d a b => h.noLa && d.isIn [.a] && a.isIn [.a] && b.isIn [.g, .s, .zr, .im] && share [d, a, b]
  | .amat h d a => h.noLa && d.isIn [.a] && a.isIn kGS && share [d, a]
  | .setix h d a b => h.noLa && d.isIn [.i] && a.isIn kV && b.isIn kVI && share [d, a, b]
  | .getix h d a b => h.noLa && d.isIn kW && d.okD && a.isIn [.i] && b.isIn kVI && share [d, a, b]
  | .lea h d _ m => h.noLa && d.isIn (if m.scratch then kGS else kE) && m.ok
  | .fadd h d a b _ => h.noLa && d.isIn kF && a.isIn kF && b.isIn kF
  | .fsub h d a b _ => h.noLa && d.isIn kF && a.isIn kF && b.isIn kF
  | .fmul h d a b _ => h.noLa && d.isIn kF && a.isIn kF && b.isIn kF
  | .ffma h d a b _ => h.noLa && d.isIn kF && a.isIn kF && b.isIn kF
  | .fmin h d a b o => h.noLa && d.isIn kF && a.isIn kF && b.isIn kF && (o.rm = 0)
  | .fmax h d a b o => h.noLa && d.isIn kF && a.isIn kF && b.isIn kF && (o.rm = 0)
  | .fdiv _ d a b _ => d.isIn kF && a.isIn kF && b.isIn kF
  | .fsqrt _ d a o => d.isIn kF && a.isIn kF && !o.absB && !o.negB
  | .frcp _ d a o => d.isIn kF && a.isIn kF && !o.absB && !o.negB
  | .frsq _ d a o => d.isIn kF && a.isIn kF && !o.absB && !o.negB
  | .fex2 _ d a o => d.isIn kF && a.isIn kF && !o.absB && !o.negB
  | .flg2 _ d a o => d.isIn kF && a.isIn kF && !o.absB && !o.negB
  | .fsin _ d a o => d.isIn kF && a.isIn kF && !o.absB && !o.negB
  | .fcos _ d a o => d.isIn kF && a.isIn kF && !o.absB && !o.negB
  | .fcmp h d a b t => h.noLa && d.isIn kG && a.isIn kF && b.isIn kF && (t.rel.toNat ≤ 5 && t.evenPb)
  | .fcls h d a o => h.noLa && d.isIn kGS && a.isIn kF && (o.rm = 0 && !o.absB && !o.negB)
  | .fcvt h d a b v => h.noLa && d.isIn kF && a.isIn kF && b.isIn kGSZ && (v.ttag.toNat ∈ [1, 2, 5, 6, 7, 8, 9, 10, 11] && !v.uns)
  | .ftoi h d a v => h.noLa && d.isIn kGS && a.isIn kF && (v.ttag = 0 && !v.sat)
  | .itof h d a v => h.noLa && d.isIn kF && a.isIn kAll && (v.ttag.toNat ∈ [1, 2] && !v.sat)
  | .frnd h d a o => h.noLa && d.isIn kF && a.isIn kF && !o.absB && !o.negB
  | .fscl h d a b o => h.noLa && d.isIn kF && a.isIn kF && b.isIn [.g, .a, .s, .zr, .lid] && !o.absB && !o.negB
  | .fdot h d a b => h.noLa && d.isIn kF && a.isIn kF && b.isIn kF && share [d, a, b]
  | .fmov h d a => h.noLa && d.isIn [.f, .ch] && d.okD && a.isIn [.f, .ch] && share [d, a] && (!(d.isIn [.ch] && a.isIn [.ch]))
  | .ftag h d a tag => h.noLa && d.isIn kF && a.isIn [.f, .ch] && (tag.toNat ≤ 13)
  | .fraw h d a b => h.noLa && frawOk d a b && share [d, a, b]
  | .fsel h d a b _ _ => h.noLa && d.isIn kF && a.isIn kF && b.isIn kF
  | .xmk h d a b x => h.noLa && d.isIn kF && a.isIn kF && b.isIn kF && (!x.x64 || (d.isIn [.fe]))
  | .xpt h d a x => h.noLa && d.isIn kF && a.isIn kF && !x.negB && (!x.x64 || (d.isIn [.fe]))
  | .xlo h d a x => h.noLa && d.isIn kF && a.isIn kF && !x.negB && (!x.x64 || (a.isIn [.fe]))
  | .xhi h d a x => h.noLa && d.isIn kF && a.isIn kF && !x.negB && (!x.x64 || (a.isIn [.fe]))
  | .xadd h d a b x => h.noLa && d.isIn kF && a.isIn kF && b.isIn kF && (!x.x64 || (d.isIn [.fe] && a.isIn [.fe] && b.isIn [.fe]))
  | .xsub h d a b x => h.noLa && d.isIn kF && a.isIn kF && b.isIn kF && (!x.x64 || (d.isIn [.fe] && a.isIn [.fe] && b.isIn [.fe]))
  | .xmul h d a b x => h.noLa && d.isIn kF && a.isIn kF && b.isIn kF && (!x.x64 || (d.isIn [.fe] && a.isIn [.fe] && b.isIn [.fe]))
  | .xdiv _ d a b x => d.isIn kF && a.isIn kF && b.isIn kF && (!x.x64 || (d.isIn [.fe] && a.isIn [.fe] && b.isIn [.fe]))
  | .xsqr h d a x => h.noLa && d.isIn kF && a.isIn kF && !x.negB && (!x.x64 || (d.isIn [.fe] && a.isIn [.fe]))
  | .xsqrt _ d a x => d.isIn kF && a.isIn kF && !x.negB && (!x.x64 || (d.isIn [.fe] && a.isIn [.fe]))
  | .xneg h d a x => h.noLa && d.isIn kF && a.isIn kF && !x.negB && (!x.x64 || (d.isIn [.fe] && a.isIn [.fe]))
  | .xabs h d a x => h.noLa && d.isIn kF && a.isIn kF && !x.negB && (!x.x64 || (d.isIn [.fe] && a.isIn [.fe]))
  | .xhull h d a b x => h.noLa && d.isIn kF && a.isIn kF && b.isIn kF && (!x.x64 || (d.isIn [.fe] && a.isIn [.fe] && b.isIn [.fe]))
  | .xmeet h d a b x => h.noLa && d.isIn kF && a.isIn kF && b.isIn kF && (!x.x64 || (d.isIn [.fe] && a.isIn [.fe] && b.isIn [.fe]))
  | .xmid h d a x => h.noLa && d.isIn kF && a.isIn kF && !x.negB && (!x.x64 || (a.isIn [.fe]))
  | .xwid h d a x => h.noLa && d.isIn kF && a.isIn kF && !x.negB && (!x.x64 || (a.isIn [.fe]))
  | .xcmp h d a b t => h.noLa && d.isIn kG && a.isIn kF && b.isIn kF && (t.rel.toNat ≤ 5 && t.evenPb) && (!t.wide || (a.isIn [.fe] && b.isIn [.fe]))
  | .xin h d a b t => h.noLa && d.isIn kG && a.isIn kF && b.isIn kF && (t.rel.toNat ≤ 0 && t.evenPb) && (!t.wide || (a.isIn [.fe] && b.isIn [.fe]))
  | .xsubs h d a b t => h.noLa && d.isIn kG && a.isIn kF && b.isIn kF && (t.rel.toNat ≤ 0 && t.evenPb) && (!t.wide || (a.isIn [.fe] && b.isIn [.fe]))
  | .xbis h d a b x => h.noLa && d.isIn kF && a.isIn kF && b.isIn kG && (!x.negA && !x.negB) && (!x.x64 || (d.isIn [.fe] && a.isIn [.fe]))
  | .xld _ d wid m => d.isIn kF && m.ok && decide (wid ∈ [.d, .q]) && (wid = .d || d.isIn [.fe])
  | .xst h d wid m => h.noLa && d.isIn kF && m.ok && decide (wid ∈ [.d, .q]) && (wid = .d || d.isIn [.fe])
  | .xcvt h d a v => h.noLa && d.isIn kF && a.isIn kF && (v.ttag.toNat ∈ [3, 4] && !v.uns && !v.sat && v.rm = 0 && (v.ttag = 3 || d.isIn [.fe]))
  | .xexp _ d a x => d.isIn kF && a.isIn kF && !x.negB && (!x.x64 || (d.isIn [.fe] && a.isIn [.fe]))
  | .ld _ d wid m => d.isIn (if wid = .d then kE else if wid = .q then [.gq] else kGZ) && m.ok
  | .st h d wid m => h.noLa && d.isIn (if wid = .d then kE else if wid = .q then [.gq] else kGSZ) && m.ok && decide (wid ∈ [.b, .h, .w, .d, .q])
  | .ldf _ d wid m => d.isIn (if wid = .q then [.fe] else kF) && m.ok && decide (wid ∈ [.w, .d, .q])
  | .stf h d wid m => h.noLa && d.isIn (if wid = .q then [.fe] else kF) && m.ok && decide (wid ∈ [.w, .d, .q])
  | .ldp _ d wid m => d.isIn [.i] && m.ok && decide (wid ≠ .q)
  | .stp h d wid m => h.noLa && d.isIn [.i] && m.ok && decide (wid ∈ [.b, .h, .w, .d])
  | .place h d a b lvl => h.noLa && d.isIn kGZ && a.isIn kPair && b.isIn kGSZ && (lvl ≠ 0)
  | .evict h d a b => h.noLa && d.isIn kGZ && a.isIn kPair && b.isIn kGSZ && share [d, a, b]
  | .lds _ d wid m => d.isIn (if wid = .d then [.se] else [.s]) && m.okLds && decide (wid ≠ .q)
  | .zfill h a b sc => h.noLa && a.isIn (if sc then kOff else kPair) && b.isIn kGS
  | .amo _ d a b o => d.isIn (if o.dbl then kE else kGZ) && a.isIn kPair && b.isIn (if o.dbl then kE else kGSZ) && (o.aop.toNat ≤ 10)
  | .cas h d a b o => d.isIn (if o.dbl then kE else kG) && a.isIn kPair && b.isIn (if o.dbl then kE else kGSZ) && (h.la = 0 || !d.isIn [.ch]) && (o.aop = 0)
  | .amof _ d a b o => d.isIn [.f, .zr] && a.isIn kPair && b.isIn kF && (o.aop.toNat ≤ 2)
  | .lda _ d wid m => d.isIn (if wid = .d then kE else kG) && m.ok && !m.scratch && decide (wid ∈ [.w, .d])
  | .stl h d wid m => h.noLa && d.isIn (if wid = .d then kE else kGSZ) && m.ok && !m.scratch && decide (wid ∈ [.w, .d])
  | .fence h a kind => h.noLa && a.isIn kPair && (kind ≠ 0)
  | .tfence h a => h.noLa && a.isIn kPair && share [a]
  | .seal h a b _ => h.noLa && a.isIn kPair && b.isIn kGSZ
  | .unseal h a b => h.noLa && a.isIn kPair && b.isIn kGSZ && share [a, b]
  | .hand h a b => h.noLa && a.isIn kPair && b.isIn kGS && share [a, b]
  | .take h a => h.noLa && a.isIn kPair && share [a]
  | .pub h a => h.noLa && a.isIn kPair && share [a]
  | .red h d m => h.noLa && d.isIn kGSZ && m.ok && !m.scratch
  | .probe h a => h.noLa && a.isIn kGSZ && share [a]
  | .chkerr h d => h.noLa && d.isIn kGS && share [d]
  | .mcfg h arr wf af fac => h.noLa && (arr ≠ 3 && wf.toNat ≤ 5 && af.toNat ≤ 5 && (!fac || (arr = 0 && wf = 0 && af = 0)))
  | .mldb h a b mask => h.noLa && a.isIn kAdr && b.isIn kAdr && (mask ≠ 0)
  | .mvqb h a b mask => h.noLa && a.isIn kAdr && b.isIn kAdr && (mask ≠ 0)
  | .mldt h a => h.noLa && a.isIn kAdr && share [a]
  | .mswb h mask => h.noLa && (mask ≠ 0)
  | .mma h d a b _ _ _ => h.noLa && d.isIn kAdr && a.isIn kAdr && b.isIn kGS
  | .mzro h _ _ => h.noLa
  | .mstz h a b _ => h.noLa && a.isIn kAdr && b.isIn kGS
  | .mrdz _ d a _ => d.isIn kG && a.isIn [.g, .s, .zr, .lid]
  | .mfac h n => h.noLa && (n.toNat ≠ 0 && n.toNat ≤ 64)
  | .mpiv h d a b _ => h.noLa && d.isIn kGZ && a.isIn kGS && b.isIn kGS
  | .mrnm h d a => h.noLa && d.isIn kG && a.isIn [.g, .s, .zr, .lid] && share [d, a]
  | .mgrw h d => h.noLa && d.isIn kF && share [d]
  | .mfst h a b => h.noLa && a.isIn kAdr && b.isIn kGS && share [a, b]
  | .qenq h d a b kind => h.noLa && d.isIn kGSZ && a.isIn kE && b.isIn kGSZ && (kind.toNat ∈ [0, 1, 2, 3, 4, 5, 8, 9, 10, 11, 12])
  | .cpy h d a b c dsc ssc => h.noLa && d.isIn (if dsc then kGSZ else kE) && a.isIn (if ssc then kGSZ else kE) && b.isIn kGSZ && (c.toNat ≤ 12)
  | .gthr h d a b c dsc ssc => h.noLa && d.isIn (if dsc then kGSZ else kE) && a.isIn (if ssc then kGSZ else kE) && b.isIn kE && (c.toNat ≤ 12)
  | .sctr h d a b c dsc ssc => h.noLa && d.isIn (if dsc then kGSZ else kE) && a.isIn (if ssc then kGSZ else kE) && b.isIn kE && (c.toNat ≤ 12)
  | .mcast h d a b c => h.noLa && d.isIn kGSZ && a.isIn kE && b.isIn kE && (c.toNat ≤ 12)
  | .msnd h a b ssc => h.noLa && a.isIn (if ssc then kGSZ else kE) && b.isIn kE
  | .coll h d a b ty op => h.noLa && d.isIn kE && a.isIn kE && b.isIn kGSZ && (ty.toNat ≤ 1 && op.toNat ≤ 3)
  | .eloop h _ a b _ => h.noLa && a.isIn kGSZ && b.isIn kGSZ
  | .ewait h d => h.noLa && d.isIn kGZ && share [d]
  | .trap h _ => h.noLa
  | .sysc h _ => h.noLa
  | .rft h => h.noLa
  | .rplyGet h d a b => h.noLa && d.isIn kGZ && a.isIn kGS && b.isIn kGSZ && share [d, a, b]
  | .rplyPut h d a b => h.noLa && d.isIn kGZ && a.isIn kGS && b.isIn kGSZ && share [d, a, b]
  | .rplyDrop h d a b => h.noLa && d.isIn kGZ && a.isIn kGS && b.isIn kGSZ && share [d, a, b]
  | .rplyIns h d a b => h.noLa && d.isIn kGZ && a.isIn kGS && b.isIn kGSZ && share [d, a, b]
  | .csrr _ d n => d.isIn kGS && !csrHigh n
  | .csrHighLatchRead _ d n => d.isIn kGS && csrHigh n
  | .csrw h a n => h.noLa && a.isIn kGSZ && !csrOwnRow n
  | .fenvWrite h a => h.noLa && a.isIn kGSZ
  | .tepcWrite h a _ => h.noLa && a.isIn kGSZ
  | .fltqWrite h a => h.noLa && a.isIn kGSZ
  | .mstatWrite h a => h.noLa && a.isIn kGSZ
  | .keystWrite h a => h.noLa && a.isIn kGSZ
  | .csrx h d a _ => h.noLa && d.isIn kGS && a.isIn kGSZ
  | .lnch h d a b => h.noLa && d.isIn kGZ && a.isIn kPair && b.isIn kGSZ && share [d, a, b]
  | .canc h a _ => h.noLa && a.isIn kGS
  | .cntr h d a b op lvl => h.noLa && d.isIn kGZ && a.isIn kGS && b.isIn kGSZ && ((op = 3 || lvl = 0))
  | .tinv h a b => h.noLa && a.isIn kPair && b.isIn kGSZ && share [a, b]
  | .rack h d a b => h.noLa && d.isIn kGZ && a.isIn kGS && b.isIn kGSZ && share [d, a, b]
  | .parkr h d a => h.noLa && d.isIn kG && a.isIn kGSZ && share [d, a]
  | .rsumRetry h d a b => h.noLa && d.isIn kGZ && a.isIn kGS && b.isIn kGSZ && share [d, a, b]
  | .rsumFail h d a b => h.noLa && d.isIn kGZ && a.isIn kGS && b.isIn kGSZ && share [d, a, b]
  | .swpo h d a => h.noLa && d.isIn kGZ && a.isIn kGS && share [d, a]
  | .swpi h d a => h.noLa && d.isIn kGZ && a.isIn kGS && share [d, a]
  | .prem h d a b => h.noLa && d.isIn kGZ && a.isIn kGS && b.isIn kGS && share [d, a, b]
  | .frz h => h.noLa
  | .cndl h d a => h.noLa && d.isIn kGZ && a.isIn kGS && share [d, a]
  | .cmap h d a b => h.noLa && d.isIn kGZ && a.isIn kGS && b.isIn kGS && share [d, a, b]
  | .halt h a => h.noLa && a.isIn kGS && share [a]
  | .haltEnable h a => h.noLa && a.isIn kGS && share [a]
  | .atst h d a b => h.noLa && d.isIn kGS && a.isIn kPair && b.isIn kGS && share [d, a, b]
  | .pairMov d s y => pairOk ⟨.mov, d, s, 0⟩ y
  | .pairAdd d s y => pairOk ⟨.add, d, s, 0⟩ y
  | .pairSub d s y => pairOk ⟨.sub, d, s, 0⟩ y
  | .pairAnd d s y => pairOk ⟨.and, d, s, 0⟩ y
  | .pairOr d s y => pairOk ⟨.or, d, s, 0⟩ y
  | .pairXor d s y => pairOk ⟨.xor, d, s, 0⟩ y
  | .pairShl d s y => pairOk ⟨.shl, d, s, 0⟩ y
  | .pairShr d s y => pairOk ⟨.shr, d, s, 0⟩ y
  | .pairSar d s y => pairOk ⟨.sar, d, s, 0⟩ y
  | .pairMin d s y => pairOk ⟨.min, d, s, 0⟩ y
  | .pairMax d s y => pairOk ⟨.max, d, s, 0⟩ y
  | .pairFadd d s y => pairOk ⟨.fadd, d, s, 0⟩ y
  | .pairFsub d s y => pairOk ⟨.fsub, d, s, 0⟩ y
  | .pairFmul d s y => pairOk ⟨.fmul, d, s, 0⟩ y
  | .pairFmin d s y => pairOk ⟨.fmin, d, s, 0⟩ y
  | .pairFmax d s y => pairOk ⟨.fmax, d, s, 0⟩ y
  | .pairFmov d s y => pairOk ⟨.fmov, d, s, 0⟩ y
  | .pairPopc d s y => pairOk ⟨.popc, d, s, 0⟩ y
  | .addi d imm y => pairOk ⟨.addi, d, .g 0, imm⟩ y
  | .movi d imm y => pairOk ⟨.movi, d, .g 0, imm⟩ y
  | .shli d imm y => pairOk ⟨.shli, d, .g 0, imm⟩ y
  | .shri d imm y => pairOk ⟨.shri, d, .g 0, imm⟩ y
  | .aaddi d imm y => pairOk ⟨.aaddi, d, .g 0, imm⟩ y
  | .pnop y => pairOk ⟨.pnop, .g 0, .g 0, 0⟩ y
  | .longLatencyCompletion _ _ _ => false
  | .lateTrap _ _ _ => false
  | .handlerEntry _ _ _ _ => false
  | .freeze => false
  | .walk _ => false
  | .snapshot _ _ => false
  | .rackingEntry _ _ => false
  | .ownedMoveCopyComplete _ => false
  | .bellwetherMark _ => false
  | .bellwetherSignal _ _ => false
  | .bellwetherLastAck _ => false
  | .bellwetherCopyComplete _ => false
  | .ringEntryAdmit _ _ _ => false
  | .unitPop _ => false
  | .headReservation _ _ _ => false
  | .stealRequest _ _ _ => false
  | .stealAnswer _ _ _ => false
  | .joinStep _ _ _ _ _ _ _ => false
  | .continuationEnqueue _ _ _ _ _ => false
  | .launchCompletion _ _ => false
  | .teamDiscard _ => false
  | .hardwareSwap _ => false
  | .teamReadmit _ => false
  | .jobReady _ => false
  | .jobStart _ => false
  | .jobCompletion _ => false
  | .mmaGroupCommit _ => false
  | .engineStopAck _ _ => false
  | .remoteRequest _ => false
  | .remoteResponse _ => false
  | .remoteAccessTimeout _ => false
  | .flitReceive _ _ _ => false
  | .nakReceive _ _ => false
  | .keySwitchMarker _ => false
  | .keySlotWindowEnd _ => false
  | .retraining _ => false
  | .linkDown _ => false
  | .retryBufferExpiry _ _ => false
  | .fragmentArrival _ => false
  | .delivery _ _ _ => false
  | .vatTimeout _ _ _ => false
  | .keyForget _ _ _ => false
  | .deliveryReport _ => false
  | .senderLossTimeout _ => false
  | .fabricFenceTimeout _ _ => false
  | .cancel _ _ _ _ => false
  | .inboundMemoryRequest _ => false
  | .msiX _ _ _ => false
  | .getVersion => false
  | .getCapabilities => false
  | .negotiateAlgorithms => false
  | .getDigests => false
  | .getCertificate => false
  | .challenge _ => false
  | .getMeasurements => false
  | .unsupportedRequest _ => false
  | .otherMctpMessage _ => false
  | .resetRequest => false
  | .resetDeadline => false
  | .powerOn => false
  | .packageReset _ => false
  | .powerWindow _ => false
  | .rollbackRestore _ _ => false
  | .keySlotLoad _ _ _ _ _ _ _ => false
  | .linkRetrained _ => false
  | .uncorrectedError _ => false
  | .candlingScanEnd _ _ _ _ => false
  | .performedMidExpiry _ _ => false

end Sys2Proof
end

