-- ==== Sys2Proof/Decode.lean ====
section
/-! DEFINITION. Decoding and encoding of instruction words (R32 to R52). `decode` is total on 64-bit words: it
answers the instruction or the ILL subcode R51 gives the word, the lowest when several rules are broken. `encode` is
written from the same tables. -/

namespace Sys2Proof

/-- The fields of a full-form word (R32). -/
structure Fields where
  op : BitVec 9
  h : Hdr
  d : BitVec 8
  a : BitVec 8
  b : BitVec 8
  m : BitVec 13
  deriving DecidableEq, Repr

/-- The 29-bit field A ‖ B ‖ M (R38). -/
def Fields.off (F : Fields) : BitVec 29 := F.a ++ F.b ++ F.m

/-- A word with a 29-bit field. -/
def Fields.wide (op : BitVec 9) (h : Hdr) (d : BitVec 8) (off : BitVec 29) : Fields :=
  ⟨op, h, d, off.extractLsb' 21 8, off.extractLsb' 13 8, off.extractLsb' 0 13⟩

/-- How an entry uses an operand byte (R34): it must be zero; it holds raw bits; or it is an operand of the listed kinds. -/
inductive Use where
  | unused
  | raw
  | oneOf (ks : List K)
  deriving DecidableEq, Repr

/-- The values an M field may take (R48, R49): any, at most n, a listed one, an even one, a column count. -/
inductive MOk where
  | any
  | le (n : Nat)
  | mem (l : List Nat)
  | even
  | col
  deriving DecidableEq, Repr

/-- A field of an M layout: lowest bit, width, accepted values. -/
structure MField where
  lo : Nat
  len : Nat
  ok : MOk
  deriving DecidableEq, Repr

/-- The M layouts: W, I and N of R48, or a list of fields. -/
inductive Layout where
  | w
  | i
  | n
  | own (fs : List MField)
  deriving DecidableEq, Repr

/-- A row of the encoding tables: uses of D, A and B, the layout, whether lookahead is allowed (R41). -/
structure Row where
  d : Use
  a : Use
  b : Use
  lay : Layout
  la : Bool
  deriving DecidableEq, Repr

/-- Group 0: the encoding table of its chapter (R77). -/
def rowControl (op : Nat) (_m : BitVec 13) (_toF : Bool) : Option Row :=
  match op with
  | 0x001 => some ⟨.unused, .raw, .raw, .w, false⟩
  | 0x003 => some ⟨.unused, (.oneOf kPair), .unused, .n, false⟩
  | 0x004 => some ⟨(.oneOf kE), .raw, .raw, .w, false⟩
  | 0x005 => some ⟨(.oneOf kE), (.oneOf kPair), .unused, .n, false⟩
  | 0x006 => some ⟨.unused, (.oneOf kPair), .unused, .n, false⟩
  | 0x007 => some ⟨(.oneOf kG), .raw, .raw, .w, false⟩
  | 0x008 => some ⟨.unused, .unused, .unused, .n, false⟩
  | 0x009 => some ⟨.unused, .unused, .unused, .n, false⟩
  | 0x00A => some ⟨.unused, .unused, .unused, (.own [⟨0, 4, .le 11⟩]), false⟩
  | 0x00B => some ⟨.unused, .unused, .unused, (.own [⟨0, 4, .le 11⟩]), false⟩
  | 0x00C => some ⟨.unused, .unused, .unused, (.own [⟨0, 4, .le 11⟩]), false⟩
  | 0x00D => some ⟨(.oneOf kGS), .unused, .unused, (.own [⟨0, 4, .le 11⟩, ⟨4, 2, .le 1⟩]), false⟩
  | 0x00E => some ⟨.unused, (.oneOf [.s, .zr]), .unused, (.own [⟨0, 4, .le 11⟩, ⟨4, 4, .le 2⟩]), false⟩
  | 0x00F => some ⟨(.oneOf kGS), (.oneOf kAll), .unused, .n, false⟩
  | 0x010 => some ⟨.unused, .unused, .unused, (.own [⟨0, 1, .any⟩]), false⟩
  | 0x011 => some ⟨.unused, (.oneOf [.s, .zr]), .unused, (.own [⟨0, 3, .any⟩]), false⟩
  | 0x012 => some ⟨.unused, .unused, .unused, (.own [⟨0, 3, .any⟩]), false⟩
  | 0x013 => some ⟨(.oneOf kG), (.oneOf kPair), .unused, (.own [⟨0, 4, .mem [1, 2, 3, 4, 5, 6, 7, 8, 9, 10, 11, 12, 13, 14, 15]⟩]), false⟩
  | 0x014 => some ⟨(.oneOf kGZ), (.oneOf kGS), .unused, .n, false⟩
  | 0x015 => some ⟨.unused, (.oneOf kGSZ), .unused, (.own [⟨0, 1, .any⟩]), false⟩
  | 0x016 => some ⟨.unused, (.oneOf kGSZ), (.oneOf kGSZ), .n, false⟩
  | 0x017 => some ⟨(.oneOf kGS), .unused, .unused, (.own [⟨0, 6, .any⟩]), false⟩
  | 0x018 => some ⟨.unused, (.oneOf kPair), (.oneOf kGS), (.own [⟨0, 6, .any⟩]), false⟩
  | 0x019 => some ⟨.unused, .unused, .unused, (.own [⟨0, 6, .any⟩]), false⟩
  | 0x01A => some ⟨.unused, (.oneOf kOff), .unused, (.own [⟨0, 6, .any⟩]), false⟩
  | 0x01B => some ⟨.unused, (.oneOf kOff), .unused, (.own [⟨0, 6, .any⟩]), false⟩
  | _ => none

/-- Group 1: the encoding table of its chapter (R105). -/
def rowInteger (op : Nat) (m : BitVec 13) (_toF : Bool) : Option Row :=
  match op with
  | 0x040 => some ⟨(.oneOf kW), (.oneOf kV), (.oneOf kVI), .i, false⟩
  | 0x041 => some ⟨(.oneOf kW), (.oneOf kV), (.oneOf kVI), .i, false⟩
  | 0x042 => some ⟨(.oneOf kW), (.oneOf kV), (.oneOf kVI), .i, false⟩
  | 0x043 => some ⟨(.oneOf kW), (.oneOf kV), (.oneOf kVI), .i, false⟩
  | 0x044 => some ⟨(.oneOf kW), (.oneOf kV), (.oneOf kVI), .i, false⟩
  | 0x045 => some ⟨(.oneOf kGS), (.oneOf kV), (.oneOf kVI), .i, false⟩
  | 0x046 => some ⟨(.oneOf kW), (.oneOf kV), (.oneOf kVI), .i, true⟩
  | 0x047 => some ⟨(.oneOf kW), (.oneOf kV), (.oneOf kVI), .i, true⟩
  | 0x048 => some ⟨(.oneOf kW), (.oneOf kV), (.oneOf kVI), .i, true⟩
  | 0x049 => some ⟨(.oneOf kW), (.oneOf kV), (.oneOf kVI), .i, true⟩
  | 0x04A => some ⟨(.oneOf kW), (.oneOf kV), (.oneOf kVI), .i, false⟩
  | 0x04B => some ⟨(.oneOf kW), (.oneOf kV), (.oneOf kVI), .i, false⟩
  | 0x04C => some ⟨(.oneOf kW), (.oneOf kV), (.oneOf kVI), .i, false⟩
  | 0x04D => some ⟨(.oneOf kW), (.oneOf kV), (.oneOf kVI), .i, false⟩
  | 0x04E => some ⟨(.oneOf kW), (.oneOf kV), (.oneOf kVI), .i, false⟩
  | 0x04F => some ⟨(.oneOf kW), (.oneOf kV), (.oneOf kVI), .i, false⟩
  | 0x050 => some ⟨(.oneOf kW), (.oneOf kV), (.oneOf kVI), .i, false⟩
  | 0x051 => some ⟨(.oneOf kW), (.oneOf kV), (.oneOf kVI), .i, false⟩
  | 0x052 => some ⟨(.oneOf kW), (.oneOf kV), .unused, .i, false⟩
  | 0x053 => some ⟨(.oneOf kW), (.oneOf kV), .unused, .i, false⟩
  | 0x054 => some ⟨(.oneOf kW), (.oneOf kV), (.oneOf kVI), .i, false⟩
  | 0x055 => some ⟨(.oneOf kW), (.oneOf kV), .unused, .i, false⟩
  | 0x056 => some ⟨(.oneOf kGSZ), (.oneOf kV7), .unused, (.own [⟨0, 5, .any⟩, ⟨5, 5, .any⟩]), false⟩
  | 0x057 => some ⟨(.oneOf kGSZ), (.oneOf kV7), .unused, (.own [⟨0, 5, .any⟩, ⟨5, 5, .any⟩]), false⟩
  | 0x058 => some ⟨(.oneOf kGS), (.oneOf kV7), .unused, (.own [⟨0, 5, .any⟩, ⟨5, 5, .any⟩]), false⟩
  | 0x059 => some ⟨(.oneOf kW), (.oneOf kV), (.oneOf kVI), .i, false⟩
  | 0x05A => some ⟨(.oneOf kW), (.oneOf kV), (.oneOf kVI), .i, false⟩
  | 0x05B => some ⟨(.oneOf kW), (.oneOf kV), (.oneOf kVI), .i, false⟩
  | 0x05C => some ⟨(.oneOf kW), (.oneOf kV), (.oneOf kVI), .i, false⟩
  | 0x05D => some ⟨(.oneOf kW), (.oneOf kV), .unused, .i, false⟩
  | 0x05E => some ⟨(.oneOf kG), (.oneOf kV7), (.oneOf kV7), (.own [⟨9, 1, .mem [0]⟩, ⟨5, 4, .le 9⟩, ⟨0, 5, .even⟩]), false⟩
  | 0x05F => some ⟨(.oneOf [.g, .s, .zr, .ch]), (.oneOf kV7), (.oneOf kV7), (.own [⟨5, 6, .any⟩, ⟨0, 5, .any⟩]), false⟩
  | 0x060 => some ⟨(.oneOf [.g, .s, .zr, .ch, .ix, .i]), (.oneOf kV), .unused, .i, false⟩
  | 0x061 => some ⟨(.oneOf kGS), .raw, .raw, .w, false⟩
  | 0x062 => some ⟨(.oneOf kGS), .raw, .raw, .w, false⟩
  | 0x063 => some ⟨(.oneOf kG), (.oneOf kAll), (.oneOf kGSZ), (.own [⟨0, 2, .any⟩]), true⟩
  | 0x064 => some ⟨(.oneOf kGS), .unused, .unused, (.own [⟨0, 4, .le 9⟩]), false⟩
  | 0x065 => some ⟨(.oneOf [.a]), (.oneOf kGSZ), (.oneOf [.g, .s, .zr, .im]), .i, false⟩
  | 0x066 => some ⟨(.oneOf [.a]), (.oneOf [.a]), (.oneOf [.g, .s, .zr, .im]), .i, false⟩
  | 0x067 => some ⟨(.oneOf [.a]), (.oneOf [.a]), (.oneOf [.g, .s, .zr, .im]), .i, false⟩
  | 0x068 => some ⟨(.oneOf [.a]), (.oneOf kGS), .unused, .i, false⟩
  | 0x069 => some ⟨(.oneOf [.i]), (.oneOf kV), (.oneOf kVI), .i, false⟩
  | 0x06A => some ⟨(.oneOf kW), (.oneOf [.i]), (.oneOf kVI), .i, false⟩
  | 0x06B => some ⟨(.oneOf (if m.extractLsb' 8 2 = 0 then kE else kGS)), (.oneOf (if m.extractLsb' 8 2 = 0 then kPair else kOff)), (.oneOf kIndex), (.own [⟨10, 3, .le 6⟩, ⟨8, 2, .le 1⟩, ⟨0, 8, .any⟩]), false⟩
  | _ => none

/-- Group 2: the encoding table of its chapter (R124). -/
def rowFloat (op : Nat) (_m : BitVec 13) (toF : Bool) : Option Row :=
  match op with
  | 0x080 => some ⟨(.oneOf kF), (.oneOf kF), (.oneOf kF), (.own [⟨6, 1, .any⟩, ⟨5, 1, .any⟩, ⟨4, 1, .any⟩, ⟨3, 1, .any⟩, ⟨2, 1, .any⟩, ⟨0, 2, .any⟩]), false⟩
  | 0x081 => some ⟨(.oneOf kF), (.oneOf kF), (.oneOf kF), (.own [⟨6, 1, .any⟩, ⟨5, 1, .any⟩, ⟨4, 1, .any⟩, ⟨3, 1, .any⟩, ⟨2, 1, .any⟩, ⟨0, 2, .any⟩]), false⟩
  | 0x082 => some ⟨(.oneOf kF), (.oneOf kF), (.oneOf kF), (.own [⟨6, 1, .any⟩, ⟨5, 1, .any⟩, ⟨4, 1, .any⟩, ⟨3, 1, .any⟩, ⟨2, 1, .any⟩, ⟨0, 2, .any⟩]), false⟩
  | 0x083 => some ⟨(.oneOf kF), (.oneOf kF), (.oneOf kF), (.own [⟨6, 1, .any⟩, ⟨5, 1, .any⟩, ⟨4, 1, .any⟩, ⟨3, 1, .any⟩, ⟨2, 1, .any⟩, ⟨0, 2, .any⟩]), false⟩
  | 0x084 => some ⟨(.oneOf kF), (.oneOf kF), (.oneOf kF), (.own [⟨6, 1, .any⟩, ⟨5, 1, .any⟩, ⟨4, 1, .any⟩, ⟨3, 1, .any⟩, ⟨2, 1, .any⟩, ⟨0, 2, .mem [0]⟩]), false⟩
  | 0x085 => some ⟨(.oneOf kF), (.oneOf kF), (.oneOf kF), (.own [⟨6, 1, .any⟩, ⟨5, 1, .any⟩, ⟨4, 1, .any⟩, ⟨3, 1, .any⟩, ⟨2, 1, .any⟩, ⟨0, 2, .mem [0]⟩]), false⟩
  | 0x086 => some ⟨(.oneOf kF), (.oneOf kF), (.oneOf kF), (.own [⟨6, 1, .any⟩, ⟨5, 1, .any⟩, ⟨4, 1, .any⟩, ⟨3, 1, .any⟩, ⟨2, 1, .any⟩, ⟨0, 2, .any⟩]), true⟩
  | 0x087 => some ⟨(.oneOf kF), (.oneOf kF), .unused, (.own [⟨6, 1, .mem [0]⟩, ⟨5, 1, .any⟩, ⟨4, 1, .mem [0]⟩, ⟨3, 1, .any⟩, ⟨2, 1, .any⟩, ⟨0, 2, .any⟩]), true⟩
  | 0x088 => some ⟨(.oneOf kF), (.oneOf kF), .unused, (.own [⟨6, 1, .mem [0]⟩, ⟨5, 1, .any⟩, ⟨4, 1, .mem [0]⟩, ⟨3, 1, .any⟩, ⟨2, 1, .any⟩, ⟨0, 2, .any⟩]), true⟩
  | 0x089 => some ⟨(.oneOf kF), (.oneOf kF), .unused, (.own [⟨6, 1, .mem [0]⟩, ⟨5, 1, .any⟩, ⟨4, 1, .mem [0]⟩, ⟨3, 1, .any⟩, ⟨2, 1, .any⟩, ⟨0, 2, .any⟩]), true⟩
  | 0x08A => some ⟨(.oneOf kF), (.oneOf kF), .unused, (.own [⟨6, 1, .mem [0]⟩, ⟨5, 1, .any⟩, ⟨4, 1, .mem [0]⟩, ⟨3, 1, .any⟩, ⟨2, 1, .any⟩, ⟨0, 2, .any⟩]), true⟩
  | 0x08B => some ⟨(.oneOf kF), (.oneOf kF), .unused, (.own [⟨6, 1, .mem [0]⟩, ⟨5, 1, .any⟩, ⟨4, 1, .mem [0]⟩, ⟨3, 1, .any⟩, ⟨2, 1, .any⟩, ⟨0, 2, .any⟩]), true⟩
  | 0x08C => some ⟨(.oneOf kF), (.oneOf kF), .unused, (.own [⟨6, 1, .mem [0]⟩, ⟨5, 1, .any⟩, ⟨4, 1, .mem [0]⟩, ⟨3, 1, .any⟩, ⟨2, 1, .any⟩, ⟨0, 2, .any⟩]), true⟩
  | 0x08D => some ⟨(.oneOf kF), (.oneOf kF), .unused, (.own [⟨6, 1, .mem [0]⟩, ⟨5, 1, .any⟩, ⟨4, 1, .mem [0]⟩, ⟨3, 1, .any⟩, ⟨2, 1, .any⟩, ⟨0, 2, .any⟩]), true⟩
  | 0x08E => some ⟨(.oneOf kG), (.oneOf kF), (.oneOf kF), (.own [⟨9, 1, .any⟩, ⟨5, 4, .le 5⟩, ⟨0, 5, .even⟩]), false⟩
  | 0x08F => some ⟨(.oneOf kGS), (.oneOf kF), .unused, (.own [⟨6, 1, .mem [0]⟩, ⟨5, 1, .any⟩, ⟨4, 1, .mem [0]⟩, ⟨3, 1, .any⟩, ⟨2, 1, .any⟩, ⟨0, 2, .mem [0]⟩]), false⟩
  | 0x090 => some ⟨(.oneOf kF), (.oneOf kF), (.oneOf kGSZ), (.own [⟨4, 4, .mem [1, 2, 5, 6, 7, 8, 9, 10, 11]⟩, ⟨3, 1, .mem [0]⟩, ⟨2, 1, .any⟩, ⟨0, 2, .any⟩]), false⟩
  | 0x091 => some ⟨(.oneOf kGS), (.oneOf kF), .unused, (.own [⟨4, 4, .mem [0]⟩, ⟨3, 1, .any⟩, ⟨2, 1, .mem [0]⟩, ⟨0, 2, .any⟩]), false⟩
  | 0x092 => some ⟨(.oneOf kF), (.oneOf kAll), .unused, (.own [⟨4, 4, .mem [1, 2]⟩, ⟨3, 1, .any⟩, ⟨2, 1, .mem [0]⟩, ⟨0, 2, .any⟩]), false⟩
  | 0x093 => some ⟨(.oneOf kF), (.oneOf kF), .unused, (.own [⟨6, 1, .mem [0]⟩, ⟨5, 1, .any⟩, ⟨4, 1, .mem [0]⟩, ⟨3, 1, .any⟩, ⟨2, 1, .any⟩, ⟨0, 2, .any⟩]), false⟩
  | 0x094 => some ⟨(.oneOf kF), (.oneOf kF), (.oneOf [.g, .a, .s, .zr, .lid]), (.own [⟨6, 1, .mem [0]⟩, ⟨5, 1, .any⟩, ⟨4, 1, .mem [0]⟩, ⟨3, 1, .any⟩, ⟨2, 1, .any⟩, ⟨0, 2, .any⟩]), false⟩
  | 0x095 => some ⟨(.oneOf kF), (.oneOf kF), (.oneOf kF), .n, false⟩
  | 0x096 => some ⟨(.oneOf [.f, .ch]), (.oneOf [.f, .ch]), .unused, .n, false⟩
  | 0x097 => some ⟨(.oneOf kF), (.oneOf [.f, .ch]), .unused, (.own [⟨0, 4, .le 13⟩]), false⟩
  | 0x098 => some ⟨(.oneOf [.f, .ge]), (.oneOf (if toF then kGSZ else kF)), (if toF then .oneOf kGSZ else .unused), .n, false⟩
  | 0x099 => some ⟨(.oneOf kF), (.oneOf kF), (.oneOf kF), (.own [⟨5, 6, .any⟩, ⟨0, 5, .any⟩]), false⟩
  | _ => none

/-- Group 3: the encoding table of its chapter (R136). -/
def rowInterval (op : Nat) (m : BitVec 13) (_toF : Bool) : Option Row :=
  match op with
  | 0x0C0 => some ⟨(.oneOf (if m.getLsbD 2 then [.fe] else kF)), (.oneOf kF), (.oneOf kF), (.own [⟨4, 1, .any⟩, ⟨3, 1, .any⟩, ⟨2, 1, .any⟩]), false⟩
  | 0x0C1 => some ⟨(.oneOf (if m.getLsbD 2 then [.fe] else kF)), (.oneOf kF), .unused, (.own [⟨4, 1, .mem [0]⟩, ⟨3, 1, .any⟩, ⟨2, 1, .any⟩]), false⟩
  | 0x0C2 => some ⟨(.oneOf kF), (.oneOf (if m.getLsbD 2 then [.fe] else kF)), .unused, (.own [⟨4, 1, .mem [0]⟩, ⟨3, 1, .any⟩, ⟨2, 1, .any⟩]), false⟩
  | 0x0C3 => some ⟨(.oneOf kF), (.oneOf (if m.getLsbD 2 then [.fe] else kF)), .unused, (.own [⟨4, 1, .mem [0]⟩, ⟨3, 1, .any⟩, ⟨2, 1, .any⟩]), false⟩
  | 0x0C4 => some ⟨(.oneOf (if m.getLsbD 2 then [.fe] else kF)), (.oneOf (if m.getLsbD 2 then [.fe] else kF)), (.oneOf (if m.getLsbD 2 then [.fe] else kF)), (.own [⟨4, 1, .any⟩, ⟨3, 1, .any⟩, ⟨2, 1, .any⟩]), false⟩
  | 0x0C5 => some ⟨(.oneOf (if m.getLsbD 2 then [.fe] else kF)), (.oneOf (if m.getLsbD 2 then [.fe] else kF)), (.oneOf (if m.getLsbD 2 then [.fe] else kF)), (.own [⟨4, 1, .any⟩, ⟨3, 1, .any⟩, ⟨2, 1, .any⟩]), false⟩
  | 0x0C6 => some ⟨(.oneOf (if m.getLsbD 2 then [.fe] else kF)), (.oneOf (if m.getLsbD 2 then [.fe] else kF)), (.oneOf (if m.getLsbD 2 then [.fe] else kF)), (.own [⟨4, 1, .any⟩, ⟨3, 1, .any⟩, ⟨2, 1, .any⟩]), false⟩
  | 0x0C7 => some ⟨(.oneOf (if m.getLsbD 2 then [.fe] else kF)), (.oneOf (if m.getLsbD 2 then [.fe] else kF)), (.oneOf (if m.getLsbD 2 then [.fe] else kF)), (.own [⟨4, 1, .any⟩, ⟨3, 1, .any⟩, ⟨2, 1, .any⟩]), true⟩
  | 0x0C8 => some ⟨(.oneOf (if m.getLsbD 2 then [.fe] else kF)), (.oneOf (if m.getLsbD 2 then [.fe] else kF)), .unused, (.own [⟨4, 1, .mem [0]⟩, ⟨3, 1, .any⟩, ⟨2, 1, .any⟩]), false⟩
  | 0x0C9 => some ⟨(.oneOf (if m.getLsbD 2 then [.fe] else kF)), (.oneOf (if m.getLsbD 2 then [.fe] else kF)), .unused, (.own [⟨4, 1, .mem [0]⟩, ⟨3, 1, .any⟩, ⟨2, 1, .any⟩]), true⟩
  | 0x0CA => some ⟨(.oneOf (if m.getLsbD 2 then [.fe] else kF)), (.oneOf (if m.getLsbD 2 then [.fe] else kF)), .unused, (.own [⟨4, 1, .mem [0]⟩, ⟨3, 1, .any⟩, ⟨2, 1, .any⟩]), false⟩
  | 0x0CB => some ⟨(.oneOf (if m.getLsbD 2 then [.fe] else kF)), (.oneOf (if m.getLsbD 2 then [.fe] else kF)), .unused, (.own [⟨4, 1, .mem [0]⟩, ⟨3, 1, .any⟩, ⟨2, 1, .any⟩]), false⟩
  | 0x0CC => some ⟨(.oneOf (if m.getLsbD 2 then [.fe] else kF)), (.oneOf (if m.getLsbD 2 then [.fe] else kF)), (.oneOf (if m.getLsbD 2 then [.fe] else kF)), (.own [⟨4, 1, .any⟩, ⟨3, 1, .any⟩, ⟨2, 1, .any⟩]), false⟩
  | 0x0CD => some ⟨(.oneOf (if m.getLsbD 2 then [.fe] else kF)), (.oneOf (if m.getLsbD 2 then [.fe] else kF)), (.oneOf (if m.getLsbD 2 then [.fe] else kF)), (.own [⟨4, 1, .any⟩, ⟨3, 1, .any⟩, ⟨2, 1, .any⟩]), false⟩
  | 0x0CE => some ⟨(.oneOf kF), (.oneOf (if m.getLsbD 2 then [.fe] else kF)), .unused, (.own [⟨4, 1, .mem [0]⟩, ⟨3, 1, .any⟩, ⟨2, 1, .any⟩]), false⟩
  | 0x0CF => some ⟨(.oneOf kF), (.oneOf (if m.getLsbD 2 then [.fe] else kF)), .unused, (.own [⟨4, 1, .mem [0]⟩, ⟨3, 1, .any⟩, ⟨2, 1, .any⟩]), false⟩
  | 0x0D0 => some ⟨(.oneOf kG), (.oneOf (if m.getLsbD 9 then [.fe] else kF)), (.oneOf (if m.getLsbD 9 then [.fe] else kF)), (.own [⟨9, 1, .any⟩, ⟨5, 4, .le 5⟩, ⟨0, 5, .even⟩]), false⟩
  | 0x0D1 => some ⟨(.oneOf kG), (.oneOf (if m.getLsbD 9 then [.fe] else kF)), (.oneOf (if m.getLsbD 9 then [.fe] else kF)), (.own [⟨9, 1, .any⟩, ⟨5, 4, .mem [0]⟩, ⟨0, 5, .even⟩]), false⟩
  | 0x0D2 => some ⟨(.oneOf kG), (.oneOf (if m.getLsbD 9 then [.fe] else kF)), (.oneOf (if m.getLsbD 9 then [.fe] else kF)), (.own [⟨9, 1, .any⟩, ⟨5, 4, .mem [0]⟩, ⟨0, 5, .even⟩]), false⟩
  | 0x0D3 => some ⟨(.oneOf (if m.getLsbD 2 then [.fe] else kF)), (.oneOf (if m.getLsbD 2 then [.fe] else kF)), (.oneOf kG), (.own [⟨4, 1, .mem [0]⟩, ⟨3, 1, .mem [0]⟩, ⟨2, 1, .any⟩]), false⟩
  | 0x0D4 => some ⟨(.oneOf (if m.extractLsb' 10 3 = 6 then [.fe] else kF)), (.oneOf (if m.extractLsb' 8 2 = 0 then kPair else kOff)), (.oneOf kIndex), (.own [⟨10, 3, .mem [5, 6]⟩, ⟨8, 2, .le 1⟩, ⟨0, 8, .any⟩]), true⟩
  | 0x0D5 => some ⟨(.oneOf (if m.extractLsb' 10 3 = 6 then [.fe] else kF)), (.oneOf (if m.extractLsb' 8 2 = 0 then kPair else kOff)), (.oneOf kIndex), (.own [⟨10, 3, .mem [5, 6]⟩, ⟨8, 2, .le 1⟩, ⟨0, 8, .any⟩]), false⟩
  | 0x0D6 => some ⟨(.oneOf (if m.extractLsb' 4 4 = 4 then [.fe] else kF)), (.oneOf kF), .unused, (.own [⟨4, 4, .mem [3, 4]⟩, ⟨3, 1, .mem [0]⟩, ⟨2, 1, .mem [0]⟩, ⟨0, 2, .mem [0]⟩]), false⟩
  | 0x0D7 => some ⟨(.oneOf (if m.getLsbD 2 then [.fe] else kF)), (.oneOf (if m.getLsbD 2 then [.fe] else kF)), .unused, (.own [⟨4, 1, .mem [0]⟩, ⟨3, 1, .any⟩, ⟨2, 1, .any⟩]), true⟩
  | _ => none

/-- Group 4: the encoding table of its chapter (R145). -/
def rowMemory (op : Nat) (m : BitVec 13) (_toF : Bool) : Option Row :=
  match op with
  | 0x100 => some ⟨(.oneOf (if m.extractLsb' 10 3 = 5 then kE else if m.extractLsb' 10 3 = 6 then [.gq] else kGZ)), (.oneOf (if m.extractLsb' 8 2 = 0 then kPair else kOff)), (.oneOf kIndex), (.own [⟨10, 3, .le 6⟩, ⟨8, 2, .le 1⟩, ⟨0, 8, .any⟩]), true⟩
  | 0x101 => some ⟨(.oneOf (if m.extractLsb' 10 3 = 5 then kE else if m.extractLsb' 10 3 = 6 then [.gq] else kGSZ)), (.oneOf (if m.extractLsb' 8 2 = 0 then kPair else kOff)), (.oneOf kIndex), (.own [⟨10, 3, .mem [0, 2, 4, 5, 6]⟩, ⟨8, 2, .le 1⟩, ⟨0, 8, .any⟩]), false⟩
  | 0x102 => some ⟨(.oneOf (if m.extractLsb' 10 3 = 6 then [.fe] else kF)), (.oneOf (if m.extractLsb' 8 2 = 0 then kPair else kOff)), (.oneOf kIndex), (.own [⟨10, 3, .mem [4, 5, 6]⟩, ⟨8, 2, .le 1⟩, ⟨0, 8, .any⟩]), true⟩
  | 0x103 => some ⟨(.oneOf (if m.extractLsb' 10 3 = 6 then [.fe] else kF)), (.oneOf (if m.extractLsb' 8 2 = 0 then kPair else kOff)), (.oneOf kIndex), (.own [⟨10, 3, .mem [4, 5, 6]⟩, ⟨8, 2, .le 1⟩, ⟨0, 8, .any⟩]), false⟩
  | 0x104 => some ⟨(.oneOf [.i]), (.oneOf (if m.extractLsb' 8 2 = 0 then kPair else kOff)), (.oneOf kIndex), (.own [⟨10, 3, .le 5⟩, ⟨8, 2, .le 1⟩, ⟨0, 8, .any⟩]), true⟩
  | 0x105 => some ⟨(.oneOf [.i]), (.oneOf (if m.extractLsb' 8 2 = 0 then kPair else kOff)), (.oneOf kIndex), (.own [⟨10, 3, .mem [0, 2, 4, 5]⟩, ⟨8, 2, .le 1⟩, ⟨0, 8, .any⟩]), false⟩
  | 0x106 => some ⟨(.oneOf kGZ), (.oneOf kPair), (.oneOf kGSZ), (.own [⟨0, 2, .mem [1, 2, 3]⟩]), false⟩
  | 0x107 => some ⟨(.oneOf kGZ), (.oneOf kPair), (.oneOf kGSZ), .n, false⟩
  | 0x108 => some ⟨(.oneOf (if m.extractLsb' 10 3 = 5 then [.se] else [.s])), (.oneOf (if m.extractLsb' 8 2 = 0 then [.se] else [.s, .zr])), (.oneOf [.s, .im]), (.own [⟨10, 3, .le 5⟩, ⟨8, 2, .le 1⟩, ⟨0, 8, .any⟩]), true⟩
  | 0x109 => some ⟨.unused, (.oneOf (if m.extractLsb' 8 2 = 0 then kPair else kOff)), (.oneOf kGS), (.own [⟨8, 2, .le 1⟩]), false⟩
  | _ => none

/-- Group 5: the encoding table of its chapter (R145). An atomic word of a width that its layout refuses has the operand kinds that
bit 6 of M selects (R48; DEDUCED, log 68). -/
def rowOrder (op : Nat) (m : BitVec 13) (_toF : Bool) : Option Row :=
  match op with
  | 0x140 => some ⟨(.oneOf (if m.getLsbD 6 then kE else kGZ)), (.oneOf kPair), (.oneOf (if m.getLsbD 6 then kE else kGSZ)), (.own [⟨6, 2, .le 1⟩, ⟨4, 2, .any⟩, ⟨0, 4, .le 10⟩]), true⟩
  | 0x141 => some ⟨(.oneOf (if m.getLsbD 6 then kE else kG)), (.oneOf kPair), (.oneOf (if m.getLsbD 6 then kE else kGSZ)), (.own [⟨6, 2, .le 1⟩, ⟨4, 2, .any⟩, ⟨0, 4, .mem [0]⟩]), true⟩
  | 0x142 => some ⟨(.oneOf [.f, .zr]), (.oneOf kPair), (.oneOf kF), (.own [⟨6, 2, .le 1⟩, ⟨4, 2, .any⟩, ⟨0, 4, .le 2⟩]), true⟩
  | 0x143 => some ⟨(.oneOf (if m.extractLsb' 10 3 = 5 then kE else kG)), (.oneOf (if m.extractLsb' 8 2 = 0 then kPair else kOff)), (.oneOf kIndex), (.own [⟨10, 3, .mem [4, 5]⟩, ⟨8, 2, .mem [0]⟩, ⟨0, 8, .any⟩]), true⟩
  | 0x144 => some ⟨(.oneOf (if m.extractLsb' 10 3 = 5 then kE else kGSZ)), (.oneOf (if m.extractLsb' 8 2 = 0 then kPair else kOff)), (.oneOf kIndex), (.own [⟨10, 3, .mem [4, 5]⟩, ⟨8, 2, .mem [0]⟩, ⟨0, 8, .any⟩]), false⟩
  | 0x145 => some ⟨.unused, (.oneOf kPair), .unused, (.own [⟨0, 2, .mem [1, 2, 3]⟩]), false⟩
  | 0x146 => some ⟨.unused, (.oneOf kPair), .unused, .n, false⟩
  | 0x147 => some ⟨.unused, (.oneOf kPair), (.oneOf kGSZ), (.own [⟨0, 1, .any⟩]), false⟩
  | 0x148 => some ⟨.unused, (.oneOf kPair), (.oneOf kGSZ), .n, false⟩
  | 0x149 => some ⟨.unused, (.oneOf kPair), (.oneOf kGS), .n, false⟩
  | 0x14A => some ⟨.unused, (.oneOf kPair), .unused, .n, false⟩
  | 0x14B => some ⟨.unused, (.oneOf kPair), .unused, .n, false⟩
  | 0x14C => some ⟨(.oneOf kGSZ), (.oneOf (if m.extractLsb' 8 2 = 0 then kPair else kOff)), (.oneOf kIndex), (.own [⟨10, 3, .mem [4]⟩, ⟨8, 2, .mem [0]⟩, ⟨0, 8, .any⟩]), false⟩
  | 0x14D => some ⟨.unused, (.oneOf kGSZ), .unused, .n, false⟩
  | 0x14E => some ⟨(.oneOf kGS), .unused, .unused, .n, false⟩
  | _ => none

/-- Group 6: the encoding table of its chapter (R177). -/
def rowEngine (op : Nat) (m : BitVec 13) (_toF : Bool) : Option Row :=
  match op with
  | 0x180 => some ⟨.unused, .unused, .unused, (.own [⟨0, 2, .le 2⟩, ⟨2, 3, .le 5⟩, ⟨5, 3, .le 5⟩, ⟨8, 1, .any⟩]), false⟩
  | 0x181 => some ⟨.unused, (.oneOf kAdr), (.oneOf kAdr), (.own [⟨0, 4, .mem [1, 2, 3, 4, 5, 6, 7, 8, 9, 10, 11, 12, 13, 14, 15]⟩]), false⟩
  | 0x182 => some ⟨.unused, (.oneOf kAdr), (.oneOf kAdr), (.own [⟨0, 4, .mem [1, 2, 3, 4, 5, 6, 7, 8, 9, 10, 11, 12, 13, 14, 15]⟩]), false⟩
  | 0x183 => some ⟨.unused, (.oneOf kAdr), .unused, .n, false⟩
  | 0x184 => some ⟨.unused, .unused, .unused, (.own [⟨0, 4, .mem [1, 2, 3, 4, 5, 6, 7, 8, 9, 10, 11, 12, 13, 14, 15]⟩]), false⟩
  | 0x185 => some ⟨(.oneOf kAdr), (.oneOf kAdr), (.oneOf kGS), (.own [⟨0, 3, .any⟩, ⟨3, 4, .any⟩, ⟨7, 3, .any⟩]), false⟩
  | 0x186 => some ⟨.unused, .unused, .unused, (.own [⟨0, 3, .any⟩, ⟨3, 1, .any⟩]), false⟩
  | 0x187 => some ⟨.unused, (.oneOf kAdr), (.oneOf kGS), (.own [⟨0, 3, .any⟩]), false⟩
  | 0x188 => some ⟨(.oneOf kG), (.oneOf [.g, .s, .zr, .lid]), .unused, (.own [⟨0, 3, .any⟩]), true⟩
  | 0x189 => some ⟨.unused, .unused, .unused, (.own [⟨0, 7, .col⟩]), false⟩
  | 0x18A => some ⟨(.oneOf kGZ), (.oneOf kGS), (.oneOf kGS), (.own [⟨0, 6, .any⟩]), false⟩
  | 0x18B => some ⟨(.oneOf kG), (.oneOf [.g, .s, .zr, .lid]), .unused, .n, false⟩
  | 0x18C => some ⟨(.oneOf kF), .unused, .unused, .n, false⟩
  | 0x18D => some ⟨.unused, (.oneOf kAdr), (.oneOf kGS), .n, false⟩
  | 0x18E => some ⟨(.oneOf kGSZ), (.oneOf kE), (.oneOf kGSZ), (.own [⟨0, 4, .mem [0, 1, 2, 3, 4, 5, 8, 9, 10, 11, 12]⟩]), false⟩
  | 0x18F => some ⟨(.oneOf (if m.getLsbD 4 then kGSZ else kE)), (.oneOf (if m.getLsbD 5 then kGSZ else kE)), (.oneOf kGSZ), (.own [⟨0, 4, .le 12⟩, ⟨4, 1, .any⟩, ⟨5, 1, .any⟩, ⟨6, 2, .mem [0]⟩]), false⟩
  | 0x190 => some ⟨(.oneOf (if m.getLsbD 4 then kGSZ else kE)), (.oneOf (if m.getLsbD 5 then kGSZ else kE)), (.oneOf kE), (.own [⟨0, 4, .le 12⟩, ⟨4, 1, .any⟩, ⟨5, 1, .any⟩, ⟨6, 2, .mem [0]⟩]), false⟩
  | 0x191 => some ⟨(.oneOf (if m.getLsbD 4 then kGSZ else kE)), (.oneOf (if m.getLsbD 5 then kGSZ else kE)), (.oneOf kE), (.own [⟨0, 4, .le 12⟩, ⟨4, 1, .any⟩, ⟨5, 1, .any⟩, ⟨6, 2, .mem [0]⟩]), false⟩
  | 0x192 => some ⟨(.oneOf kGSZ), (.oneOf kE), (.oneOf kE), (.own [⟨0, 4, .le 12⟩, ⟨4, 4, .mem [0]⟩]), false⟩
  | 0x193 => some ⟨.unused, (.oneOf (if m.getLsbD 4 then kGSZ else kE)), (.oneOf kE), (.own [⟨0, 4, .mem [0]⟩, ⟨4, 1, .any⟩, ⟨5, 3, .mem [0]⟩]), false⟩
  | 0x194 => some ⟨(.oneOf kE), (.oneOf kE), (.oneOf kGSZ), (.own [⟨0, 4, .le 1⟩, ⟨4, 4, .le 3⟩]), false⟩
  | 0x195 => some ⟨.raw, (.oneOf kGSZ), (.oneOf kGSZ), (.own [⟨0, 13, .any⟩]), false⟩
  | 0x196 => some ⟨(.oneOf kGZ), .unused, .unused, .n, false⟩
  | _ => none

/-- Group 7: the encoding table of its chapter (R207). -/
def rowSystem (op : Nat) (_m : BitVec 13) (_toF : Bool) : Option Row :=
  match op with
  | 0x1C0 => some ⟨.unused, .unused, .unused, (.own [⟨0, 13, .any⟩]), false⟩
  | 0x1C1 => some ⟨.unused, .unused, .unused, (.own [⟨0, 13, .any⟩]), false⟩
  | 0x1C2 => some ⟨.unused, .unused, .unused, .n, false⟩
  | 0x1C3 => some ⟨(.oneOf kGZ), (.oneOf kGS), (.oneOf kGSZ), .n, false⟩
  | 0x1C4 => some ⟨(.oneOf kGS), .unused, .unused, (.own [⟨0, 12, .any⟩]), true⟩
  | 0x1C5 => some ⟨.unused, (.oneOf kGSZ), .unused, (.own [⟨0, 12, .any⟩]), false⟩
  | 0x1C6 => some ⟨(.oneOf kGS), (.oneOf kGSZ), .unused, (.own [⟨0, 12, .any⟩]), false⟩
  | 0x1C7 => some ⟨(.oneOf kGZ), (.oneOf kPair), (.oneOf kGSZ), .n, false⟩
  | 0x1C8 => some ⟨.unused, (.oneOf kGS), .unused, (.own [⟨0, 2, .any⟩, ⟨2, 2, .mem [0]⟩]), false⟩
  | 0x1C9 => some ⟨(.oneOf kGZ), (.oneOf kGS), (.oneOf kGSZ), (.own [⟨0, 2, .any⟩, ⟨2, 2, .any⟩]), false⟩
  | 0x1CA => some ⟨.unused, (.oneOf kPair), (.oneOf kGSZ), .n, false⟩
  | 0x1CB => some ⟨(.oneOf kGZ), (.oneOf kGS), (.oneOf kGSZ), .n, false⟩
  | 0x1CC => some ⟨(.oneOf kG), (.oneOf kGSZ), .unused, .n, false⟩
  | 0x1CD => some ⟨(.oneOf kGZ), (.oneOf kGS), (.oneOf kGSZ), .n, false⟩
  | 0x1CE => some ⟨(.oneOf kGZ), (.oneOf kGS), .unused, .n, false⟩
  | 0x1CF => some ⟨(.oneOf kGZ), (.oneOf kGS), .unused, .n, false⟩
  | 0x1D0 => some ⟨(.oneOf kGZ), (.oneOf kGS), (.oneOf kGS), .n, false⟩
  | 0x1D1 => some ⟨.unused, .unused, .unused, .n, false⟩
  | 0x1D2 => some ⟨(.oneOf kGZ), (.oneOf kGS), .unused, .n, false⟩
  | 0x1D3 => some ⟨(.oneOf kGZ), (.oneOf kGS), (.oneOf kGS), .n, false⟩
  | 0x1D4 => some ⟨.unused, (.oneOf kGS), .unused, .n, false⟩
  | 0x1D5 => some ⟨(.oneOf kGS), (.oneOf kPair), (.oneOf kGS), .n, false⟩
  | _ => none

/-- The row of a listed opcode (R50); BRU and NOP have rules of their own. -/
def rowOf (op : Nat) (m : BitVec 13) (toF : Bool) : Option Row :=
  match op / 64 with
  | 0 => rowControl op m toF
  | 1 => rowInteger op m toF
  | 2 => rowFloat op m toF
  | 3 => rowInterval op m toF
  | 4 => rowMemory op m toF
  | 5 => rowOrder op m toF
  | 6 => rowEngine op m toF
  | 7 => rowSystem op m toF
  | _ => none

/-- An operand byte as R35 reads it; IMM and operand 127 take their value from M (R37). -/
def opndOf (x : BitVec 8) (m : BitVec 13) : Opnd :=
  let n := x.toNat
  if n < 64 then .g (x.setWidth 6)
  else if n < 96 then .f (x.setWidth 5)
  else if n < 104 then .a (x.setWidth 3)
  else if n < 120 then .s (BitVec.ofNat 4 (n - 104))
  else if n < 124 then .i (x.setWidth 2)
  else if n = 124 then .zr
  else if n = 125 then .lid
  else if n = 126 then .imm m
  else if n = 127 then .idx (m.extractLsb' 11 2) (m.extractLsb' 5 6)
  else .chan (x.setWidth 6) (x.getLsbD 6)

/-- The byte of an operand (R35). -/
def Opnd.byte : Opnd → BitVec 8
  | .g n => n.setWidth 8
  | .f n => BitVec.ofNat 8 (64 + n.toNat)
  | .a n => BitVec.ofNat 8 (96 + n.toNat)
  | .s n => BitVec.ofNat 8 (104 + n.toNat)
  | .i n => BitVec.ofNat 8 (120 + n.toNat)
  | .zr => 124
  | .lid => 125
  | .imm _ => 126
  | .idx _ _ => 127
  | .chan c pk => BitVec.ofNat 8 (128 + (if pk then 64 else 0) + c.toNat)

/-- The M field of layouts I and N: IMM's value, or operand 127's index specification, or zero (R37). -/
def opM : List Opnd → BitVec 13
  | [] => 0
  | .imm v :: _ => v
  | .idx r k :: _ => BitVec.ofNat 13 (r.toNat * 2048 + k.toNat * 32)
  | _ :: l => opM l

/-- A value at bit `lo` of M. -/
def put (lo v : Nat) : BitVec 13 := BitVec.ofNat 13 (v * 2 ^ lo)

/-- Subcodes of R51. -/
def illPair : Nat := 0x01
def illOpcode : Nat := 0x02
def illOp7 : Nat := 0x03
def illRsvd : Nat := 0x04
def illChanop : Nat := 0x05
def illOperand : Nat := 0x06
def illImm : Nat := 0x07
def illLa : Nat := 0x08
def illBank : Nat := 0x09
def illSamedst : Nat := 0x0A
def illValue : Nat := 0x0B

/-- What is wrong with an operand byte used as `u` in a word of layout `lay` (R34, R35, R37). `inD`: the byte is D;
`inB`: it is B. DEDUCED (log 4): IMM in the B of a layout I row that does not list it, and operand 127 in a position
of a layout I or N row of groups 0 and 1 that does not list it, are register numbers outside the set (OPERAND);
elsewhere they are operands the layout has no room for (IMM). -/
def byteIll (u : Use) (lay : Layout) (grp : Nat) (x : BitVec 8) (m : BitVec 13) (inD inB : Bool) : List Nat :=
  match u with
  | .raw => []
  | .unused => if x = 0 then [] else [illRsvd]
  | .oneOf ks =>
    if x.toNat ≥ 128 then
      if !ks.contains .ch then [illChanop] else if inD && x.getLsbD 6 then [illChanop] else []
    else if x = 126 then
      if ks.contains .im then [] else if inB && lay = .i then [illOperand] else [illImm]
    else if x = 127 then
      if ks.contains .ix then []
      else if grp ≤ 1 && (lay = .i || lay = .n) then [illOperand] else [illImm]
    else if (opndOf x m).isIn ks then [] else [illOperand]

/-- What is wrong with an own field of M. -/
def MField.ill (f : MField) (m : BitVec 13) : List Nat :=
  let v := m.toNat / 2 ^ f.lo % 2 ^ f.len
  let ok : Bool := match f.ok with
    | .any => true
    | .le n => v ≤ n
    | .mem l => l.contains v
    | .even => v % 2 == 0
    | .col => 1 ≤ v && v ≤ 64
  if ok then [] else [illValue]

/-- The bits of M that the fields cover. -/
def fieldMask : List MField → Nat
  | [] => 0
  | f :: l => (2 ^ f.len - 1) * 2 ^ f.lo ||| fieldMask l

/-- What is wrong with M in its layout (R48). With B = IMM, M is the immediate: another operand 127 then breaks the rule of IMM, and
that of its zero bits 4:0 is not asked (R37; DEDUCED, log 4). -/
def layIll (r : Row) (F : Fields) : List Nat :=
  let isOp (u : Use) (x n : BitVec 8) : Bool := match u with | .oneOf _ => x == n | _ => false
  let indexed : Bool := isOp r.d F.d 127 || isOp r.a F.a 127 || isOp r.b F.b 127
  match r.lay with
  | .w => []
  | .own fs => fs.flatMap (·.ill F.m) ++ (if F.m.toNat &&& (8191 - fieldMask fs) = 0 then [] else [illRsvd])
  | _ =>
    if r.lay = .i && isOp r.b F.b 126 then (if indexed then [illImm] else [])
    else if indexed then (if F.m.extractLsb' 0 5 = 0 then [] else [illRsvd])
    else if F.m = 0 then [] else [illRsvd]

/-- Conditions that single entries add (R115, R113, R117, R131, R177, R207). CANC's operation field must be zero: a
field its entry does not use (R48; DEDUCED, log 4: VALUE). -/
def ownIll (F : Fields) : List Nat :=
  match F.op.toNat with
  | 0x062 => if F.off.toNat < 65536 then [] else [illValue]
  | 0x056 | 0x057 | 0x058 =>
    if (F.m.extractLsb' 0 5).toNat + (F.m.extractLsb' 5 5).toNat < 32 then [] else [illValue]
  | 0x064 => if F.m.extractLsb' 0 4 < 2#4 && (opndOf F.d 0).isIn [.s] then [illOperand] else []
  | 0x096 => if F.d.getLsbD 7 && F.a.getLsbD 7 then [illChanop] else []
  | 0x180 => if F.m.getLsbD 8 && F.m.extractLsb' 0 8 ≠ 0 then [illValue] else []
  | 0x1C9 => if F.m.extractLsb' 2 2 ≠ 3 && F.m.extractLsb' 0 2 ≠ 0 then [illValue] else []
  | _ => []

/-- The lookahead rule (R41). -/
def laIll (r : Row) (F : Fields) : List Nat :=
  if F.h.la = 0 then [] else if !r.la || F.d.getLsbD 7 then [illLa] else []

/-- The lowest of the subcodes found (R51). -/
def lowest : List Nat → Option Nat
  | [] => none
  | x :: l => match lowest l with | none => some x | some y => some (if x ≤ y then x else y)

/-- The fields of a 64-bit word (R32). With G = 0 the guard fields are checked by `guardIll`. -/
def fieldsOf (w : DWord) : Fields :=
  ⟨w.extractLsb' 54 9,
   ⟨if w.getLsbD 53 then some ⟨w.extractLsb' 47 6, w.extractLsb' 42 5, w.getLsbD 41⟩ else none, w.extractLsb' 37 4⟩,
   w.extractLsb' 29 8, w.extractLsb' 21 8, w.extractLsb' 13 8, w.extractLsb' 0 13⟩

/-- Guard fields with G = 0 must be zero (R33). -/
def guardIll (w : DWord) : List Nat :=
  if !w.getLsbD 53 && w.extractLsb' 41 12 ≠ 0 then [illRsvd] else []

/-- BRU (R38, R39): D zero, no lookahead, G = 1, GB even, GS = 0. -/
def bruIll (F : Fields) : List Nat :=
  (if F.d = 0 then [] else [illRsvd]) ++ (if F.h.la = 0 then [] else [illLa]) ++
  (match F.h.guard with
   | some gd => if gd.bit.toNat % 2 = 0 && !gd.sense then [] else [illValue]
   | none => [illValue])

/-- The subcode of an illegal full-form word; none for an instruction. FRAW's columns depend on the file of D. -/
def fullIll (w : DWord) : Option Nat :=
  let F := fieldsOf w
  let op := F.op.toNat
  if op = 0 then (if w = 0 then none else some illRsvd)
  else if op = 2 then lowest (bruIll F)
  else match rowOf op F.m ((opndOf F.d 0).isIn kF) with
    | none => some illOpcode
    | some r =>
      lowest (guardIll w ++ byteIll r.d r.lay (op / 64) F.d F.m true false ++
        byteIll r.a r.lay (op / 64) F.a F.m false false ++ byteIll r.b r.lay (op / 64) F.b F.m false true ++
        layIll r F ++ ownIll F ++ laIll r F)

/-- Options of layout T (R48). -/
def TOpt.ofBits (m : BitVec 13) : TOpt := ⟨m.getLsbD 9, m.extractLsb' 5 4, m.extractLsb' 0 5⟩
def TOpt.bits (t : TOpt) : BitVec 13 := put 9 t.wide.toNat ||| put 5 t.rel.toNat ||| put 0 t.pb.toNat
/-- Options of layout F (R48). -/
def FOpt.ofBits (m : BitVec 13) : FOpt :=
  ⟨m.getLsbD 6, m.getLsbD 5, m.getLsbD 4, m.getLsbD 3, m.getLsbD 2, m.extractLsb' 0 2⟩
def FOpt.bits (o : FOpt) : BitVec 13 :=
  put 6 o.absB.toNat ||| put 5 o.absA.toNat ||| put 4 o.negB.toNat ||| put 3 o.negA.toNat ||| put 2 o.fp64.toNat |||
    put 0 o.rm.toNat
/-- Options of layout X (R48). -/
def XOpt.ofBits (m : BitVec 13) : XOpt := ⟨m.getLsbD 4, m.getLsbD 3, m.getLsbD 2⟩
def XOpt.bits (x : XOpt) : BitVec 13 := put 4 x.negB.toNat ||| put 3 x.negA.toNat ||| put 2 x.x64.toNat
/-- Options of layout V (R48). -/
def VOpt.ofBits (m : BitVec 13) : VOpt := ⟨m.extractLsb' 4 4, m.getLsbD 3, m.getLsbD 2, m.extractLsb' 0 2⟩
def VOpt.bits (v : VOpt) : BitVec 13 :=
  put 4 v.ttag.toNat ||| put 3 v.uns.toNat ||| put 2 v.sat.toNat ||| put 0 v.rm.toNat
/-- Options of layout A (R48). -/
def AOpt.ofBits (m : BitVec 13) : AOpt := ⟨m.getLsbD 6, m.extractLsb' 4 2, m.extractLsb' 0 4⟩
def AOpt.bits (o : AOpt) : BitVec 13 := put 6 o.dbl.toNat ||| put 4 o.ord.toNat ||| put 0 o.aop.toNat
/-- Widths of layout L (R48). -/
def Wid.code : Wid → Nat
  | .b => 0 | .bu => 1 | .h => 2 | .hu => 3 | .w => 4 | .d => 5 | .q => 6
def Wid.ofBits (m : BitVec 13) : Wid :=
  match (m.extractLsb' 10 3).toNat with
  | 0 => .b | 1 => .bu | 2 => .h | 3 => .hu | 4 => .w | 5 => .d | _ => .q
/-- Layout L of a memory operand (R40, R48). -/
def MemOpnd.bits (m : MemOpnd) (wd : Wid) : BitVec 13 :=
  put 10 wd.code ||| put 8 m.scratch.toNat ||| put 0 m.off.toNat
def MemOpnd.indexByte (m : MemOpnd) : BitVec 8 := match m.index with | none => 126 | some b => b.byte
def MemOpnd.ofFields (F : Fields) : MemOpnd :=
  ⟨F.m.getLsbD 8, opndOf F.a F.m, if F.b = 126 then none else some (opndOf F.b F.m), F.m.extractLsb' 0 8⟩

/-- CSRR words: the two high halves are a row of their own (R25). -/
def csrRead (F : Fields) : Instr :=
  let n := F.m.extractLsb' 0 12
  if csrHigh n then .csrHighLatchRead F.h (opndOf F.d F.m) n else .csrr F.h (opndOf F.d F.m) n

/-- CSRW words: some registers' writes are rows of their own. -/
def csrWrite (F : Fields) : Instr :=
  let n := F.m.extractLsb' 0 12
  let a := opndOf F.a F.m
  if n = 0x000 then .fenvWrite F.h a
  else if n = 0x108 then .tepcWrite F.h a false
  else if n = 0x109 then .tepcWrite F.h a true
  else if n = 0x10E then .fltqWrite F.h a
  else if n = 0x006 then .mstatWrite F.h a
  else if n = 0x10F then .keystWrite F.h a
  else .csrw F.h a n

/-- The term of a legal word of group 0. -/
def buildControl (F : Fields) : Option Instr :=
  match F.op.toNat with
  | 0x000 => some .nop
  | 0x002 => some (.bru (match F.h.guard with | some gd => gd.reg | none => 0) (match F.h.guard with | some gd => gd.bit | none => 0) F.off)
  | 0x001 => some (.br F.h F.off)
  | 0x003 => some (.brx F.h (opndOf F.a F.m))
  | 0x004 => some (.call F.h (opndOf F.d F.m) F.off)
  | 0x005 => some (.callx F.h (opndOf F.d F.m) (opndOf F.a F.m))
  | 0x006 => some (.ret F.h (opndOf F.a F.m))
  | 0x007 => some (.spawn F.h (opndOf F.d F.m) F.off)
  | 0x008 => some (.endf F.h)
  | 0x009 => some (.yield F.h)
  | 0x00A => some (.join F.h (F.m.extractLsb' 0 4))
  | 0x00B => some (.leave F.h (F.m.extractLsb' 0 4))
  | 0x00C => some (.waitm F.h (F.m.extractLsb' 0 4))
  | 0x00D => some (.mmov F.h (opndOf F.d F.m) (F.m.extractLsb' 0 4) (F.m.getLsbD 4))
  | 0x00E => some (.mop F.h (opndOf F.a F.m) (F.m.extractLsb' 0 4) (F.m.extractLsb' 4 4))
  | 0x00F => some (.ballot F.h (opndOf F.d F.m) (opndOf F.a F.m))
  | 0x010 => some (.tbar F.h (F.m.getLsbD 0))
  | 0x011 => some (.qset F.h (opndOf F.a F.m) (F.m.extractLsb' 0 3))
  | 0x012 => some (.sign F.h (F.m.extractLsb' 0 3))
  | 0x013 => some (.fork F.h (opndOf F.d F.m) (opndOf F.a F.m) (F.m.extractLsb' 0 4))
  | 0x014 => some (.rdv F.h (opndOf F.d F.m) (opndOf F.a F.m))
  | 0x015 => some (.arrive F.h (opndOf F.a F.m) (F.m.getLsbD 0))
  | 0x016 => some (.wait F.h (opndOf F.a F.m) (opndOf F.b F.m))
  | 0x017 => some (.ctst F.h (opndOf F.d F.m) (F.m.extractLsb' 0 6))
  | 0x018 => some (.cbind F.h (opndOf F.a F.m) (opndOf F.b F.m) (F.m.extractLsb' 0 6))
  | 0x019 => some (.cunb F.h (F.m.extractLsb' 0 6))
  | 0x01A => some (.cprod F.h (opndOf F.a F.m) (F.m.extractLsb' 0 6))
  | 0x01B => some (.ccons F.h (opndOf F.a F.m) (F.m.extractLsb' 0 6))
  | _ => none

/-- The term of a legal word of group 1. -/
def buildInteger (F : Fields) : Option Instr :=
  match F.op.toNat with
  | 0x040 => some (.add F.h (opndOf F.d F.m) (opndOf F.a F.m) (opndOf F.b F.m))
  | 0x041 => some (.sub F.h (opndOf F.d F.m) (opndOf F.a F.m) (opndOf F.b F.m))
  | 0x042 => some (.mul F.h (opndOf F.d F.m) (opndOf F.a F.m) (opndOf F.b F.m))
  | 0x043 => some (.mulh F.h (opndOf F.d F.m) (opndOf F.a F.m) (opndOf F.b F.m))
  | 0x044 => some (.mulhu F.h (opndOf F.d F.m) (opndOf F.a F.m) (opndOf F.b F.m))
  | 0x045 => some (.mad F.h (opndOf F.d F.m) (opndOf F.a F.m) (opndOf F.b F.m))
  | 0x046 => some (.div F.h (opndOf F.d F.m) (opndOf F.a F.m) (opndOf F.b F.m))
  | 0x047 => some (.divu F.h (opndOf F.d F.m) (opndOf F.a F.m) (opndOf F.b F.m))
  | 0x048 => some (.rem F.h (opndOf F.d F.m) (opndOf F.a F.m) (opndOf F.b F.m))
  | 0x049 => some (.remu F.h (opndOf F.d F.m) (opndOf F.a F.m) (opndOf F.b F.m))
  | 0x04A => some (.and F.h (opndOf F.d F.m) (opndOf F.a F.m) (opndOf F.b F.m))
  | 0x04B => some (.or F.h (opndOf F.d F.m) (opndOf F.a F.m) (opndOf F.b F.m))
  | 0x04C => some (.xor F.h (opndOf F.d F.m) (opndOf F.a F.m) (opndOf F.b F.m))
  | 0x04D => some (.andn F.h (opndOf F.d F.m) (opndOf F.a F.m) (opndOf F.b F.m))
  | 0x04E => some (.shl F.h (opndOf F.d F.m) (opndOf F.a F.m) (opndOf F.b F.m))
  | 0x04F => some (.shr F.h (opndOf F.d F.m) (opndOf F.a F.m) (opndOf F.b F.m))
  | 0x050 => some (.sar F.h (opndOf F.d F.m) (opndOf F.a F.m) (opndOf F.b F.m))
  | 0x051 => some (.rol F.h (opndOf F.d F.m) (opndOf F.a F.m) (opndOf F.b F.m))
  | 0x052 => some (.clz F.h (opndOf F.d F.m) (opndOf F.a F.m))
  | 0x053 => some (.ctz F.h (opndOf F.d F.m) (opndOf F.a F.m))
  | 0x054 => some (.popc F.h (opndOf F.d F.m) (opndOf F.a F.m) (opndOf F.b F.m))
  | 0x055 => some (.brev F.h (opndOf F.d F.m) (opndOf F.a F.m))
  | 0x056 => some (.bfx F.h (opndOf F.d F.m) (opndOf F.a F.m) (F.m.extractLsb' 0 5) (F.m.extractLsb' 5 5))
  | 0x057 => some (.bfxs F.h (opndOf F.d F.m) (opndOf F.a F.m) (F.m.extractLsb' 0 5) (F.m.extractLsb' 5 5))
  | 0x058 => some (.bfi F.h (opndOf F.d F.m) (opndOf F.a F.m) (F.m.extractLsb' 0 5) (F.m.extractLsb' 5 5))
  | 0x059 => some (.min F.h (opndOf F.d F.m) (opndOf F.a F.m) (opndOf F.b F.m))
  | 0x05A => some (.max F.h (opndOf F.d F.m) (opndOf F.a F.m) (opndOf F.b F.m))
  | 0x05B => some (.minu F.h (opndOf F.d F.m) (opndOf F.a F.m) (opndOf F.b F.m))
  | 0x05C => some (.maxu F.h (opndOf F.d F.m) (opndOf F.a F.m) (opndOf F.b F.m))
  | 0x05D => some (.abs F.h (opndOf F.d F.m) (opndOf F.a F.m))
  | 0x05E => some (.cmp F.h (opndOf F.d F.m) (opndOf F.a F.m) (opndOf F.b F.m) (TOpt.ofBits F.m))
  | 0x05F => some (.sel F.h (opndOf F.d F.m) (opndOf F.a F.m) (opndOf F.b F.m) (F.m.extractLsb' 5 6) (F.m.extractLsb' 0 5))
  | 0x060 => some (.mov F.h (opndOf F.d F.m) (opndOf F.a F.m))
  | 0x061 => some (.li F.h (opndOf F.d F.m) F.off)
  | 0x062 => some (.lih F.h (opndOf F.d F.m) (F.off.setWidth 16))
  | 0x063 => some (.shfl F.h (opndOf F.d F.m) (opndOf F.a F.m) (opndOf F.b F.m) (F.m.extractLsb' 0 2))
  | 0x064 => some (.rdid F.h (opndOf F.d F.m) (F.m.extractLsb' 0 4))
  | 0x065 => some (.amk F.h (opndOf F.d F.m) (opndOf F.a F.m) (opndOf F.b F.m))
  | 0x066 => some (.aadd F.h (opndOf F.d F.m) (opndOf F.a F.m) (opndOf F.b F.m))
  | 0x067 => some (.ascl F.h (opndOf F.d F.m) (opndOf F.a F.m) (opndOf F.b F.m))
  | 0x068 => some (.amat F.h (opndOf F.d F.m) (opndOf F.a F.m))
  | 0x069 => some (.setix F.h (opndOf F.d F.m) (opndOf F.a F.m) (opndOf F.b F.m))
  | 0x06A => some (.getix F.h (opndOf F.d F.m) (opndOf F.a F.m) (opndOf F.b F.m))
  | 0x06B => some (.lea F.h (opndOf F.d F.m) (Wid.ofBits F.m) (MemOpnd.ofFields F))
  | _ => none

/-- The term of a legal word of group 2. -/
def buildFloat (F : Fields) : Option Instr :=
  match F.op.toNat with
  | 0x080 => some (.fadd F.h (opndOf F.d F.m) (opndOf F.a F.m) (opndOf F.b F.m) (FOpt.ofBits F.m))
  | 0x081 => some (.fsub F.h (opndOf F.d F.m) (opndOf F.a F.m) (opndOf F.b F.m) (FOpt.ofBits F.m))
  | 0x082 => some (.fmul F.h (opndOf F.d F.m) (opndOf F.a F.m) (opndOf F.b F.m) (FOpt.ofBits F.m))
  | 0x083 => some (.ffma F.h (opndOf F.d F.m) (opndOf F.a F.m) (opndOf F.b F.m) (FOpt.ofBits F.m))
  | 0x084 => some (.fmin F.h (opndOf F.d F.m) (opndOf F.a F.m) (opndOf F.b F.m) (FOpt.ofBits F.m))
  | 0x085 => some (.fmax F.h (opndOf F.d F.m) (opndOf F.a F.m) (opndOf F.b F.m) (FOpt.ofBits F.m))
  | 0x086 => some (.fdiv F.h (opndOf F.d F.m) (opndOf F.a F.m) (opndOf F.b F.m) (FOpt.ofBits F.m))
  | 0x087 => some (.fsqrt F.h (opndOf F.d F.m) (opndOf F.a F.m) (FOpt.ofBits F.m))
  | 0x088 => some (.frcp F.h (opndOf F.d F.m) (opndOf F.a F.m) (FOpt.ofBits F.m))
  | 0x089 => some (.frsq F.h (opndOf F.d F.m) (opndOf F.a F.m) (FOpt.ofBits F.m))
  | 0x08A => some (.fex2 F.h (opndOf F.d F.m) (opndOf F.a F.m) (FOpt.ofBits F.m))
  | 0x08B => some (.flg2 F.h (opndOf F.d F.m) (opndOf F.a F.m) (FOpt.ofBits F.m))
  | 0x08C => some (.fsin F.h (opndOf F.d F.m) (opndOf F.a F.m) (FOpt.ofBits F.m))
  | 0x08D => some (.fcos F.h (opndOf F.d F.m) (opndOf F.a F.m) (FOpt.ofBits F.m))
  | 0x08E => some (.fcmp F.h (opndOf F.d F.m) (opndOf F.a F.m) (opndOf F.b F.m) (TOpt.ofBits F.m))
  | 0x08F => some (.fcls F.h (opndOf F.d F.m) (opndOf F.a F.m) (FOpt.ofBits F.m))
  | 0x090 => some (.fcvt F.h (opndOf F.d F.m) (opndOf F.a F.m) (opndOf F.b F.m) (VOpt.ofBits F.m))
  | 0x091 => some (.ftoi F.h (opndOf F.d F.m) (opndOf F.a F.m) (VOpt.ofBits F.m))
  | 0x092 => some (.itof F.h (opndOf F.d F.m) (opndOf F.a F.m) (VOpt.ofBits F.m))
  | 0x093 => some (.frnd F.h (opndOf F.d F.m) (opndOf F.a F.m) (FOpt.ofBits F.m))
  | 0x094 => some (.fscl F.h (opndOf F.d F.m) (opndOf F.a F.m) (opndOf F.b F.m) (FOpt.ofBits F.m))
  | 0x095 => some (.fdot F.h (opndOf F.d F.m) (opndOf F.a F.m) (opndOf F.b F.m))
  | 0x096 => some (.fmov F.h (opndOf F.d F.m) (opndOf F.a F.m))
  | 0x097 => some (.ftag F.h (opndOf F.d F.m) (opndOf F.a F.m) (F.m.extractLsb' 0 4))
  | 0x098 => some (.fraw F.h (opndOf F.d F.m) (opndOf F.a F.m) (opndOf F.b F.m))
  | 0x099 => some (.fsel F.h (opndOf F.d F.m) (opndOf F.a F.m) (opndOf F.b F.m) (F.m.extractLsb' 5 6) (F.m.extractLsb' 0 5))
  | _ => none

/-- The term of a legal word of group 3. -/
def buildInterval (F : Fields) : Option Instr :=
  match F.op.toNat with
  | 0x0C0 => some (.xmk F.h (opndOf F.d F.m) (opndOf F.a F.m) (opndOf F.b F.m) (XOpt.ofBits F.m))
  | 0x0C1 => some (.xpt F.h (opndOf F.d F.m) (opndOf F.a F.m) (XOpt.ofBits F.m))
  | 0x0C2 => some (.xlo F.h (opndOf F.d F.m) (opndOf F.a F.m) (XOpt.ofBits F.m))
  | 0x0C3 => some (.xhi F.h (opndOf F.d F.m) (opndOf F.a F.m) (XOpt.ofBits F.m))
  | 0x0C4 => some (.xadd F.h (opndOf F.d F.m) (opndOf F.a F.m) (opndOf F.b F.m) (XOpt.ofBits F.m))
  | 0x0C5 => some (.xsub F.h (opndOf F.d F.m) (opndOf F.a F.m) (opndOf F.b F.m) (XOpt.ofBits F.m))
  | 0x0C6 => some (.xmul F.h (opndOf F.d F.m) (opndOf F.a F.m) (opndOf F.b F.m) (XOpt.ofBits F.m))
  | 0x0C7 => some (.xdiv F.h (opndOf F.d F.m) (opndOf F.a F.m) (opndOf F.b F.m) (XOpt.ofBits F.m))
  | 0x0C8 => some (.xsqr F.h (opndOf F.d F.m) (opndOf F.a F.m) (XOpt.ofBits F.m))
  | 0x0C9 => some (.xsqrt F.h (opndOf F.d F.m) (opndOf F.a F.m) (XOpt.ofBits F.m))
  | 0x0CA => some (.xneg F.h (opndOf F.d F.m) (opndOf F.a F.m) (XOpt.ofBits F.m))
  | 0x0CB => some (.xabs F.h (opndOf F.d F.m) (opndOf F.a F.m) (XOpt.ofBits F.m))
  | 0x0CC => some (.xhull F.h (opndOf F.d F.m) (opndOf F.a F.m) (opndOf F.b F.m) (XOpt.ofBits F.m))
  | 0x0CD => some (.xmeet F.h (opndOf F.d F.m) (opndOf F.a F.m) (opndOf F.b F.m) (XOpt.ofBits F.m))
  | 0x0CE => some (.xmid F.h (opndOf F.d F.m) (opndOf F.a F.m) (XOpt.ofBits F.m))
  | 0x0CF => some (.xwid F.h (opndOf F.d F.m) (opndOf F.a F.m) (XOpt.ofBits F.m))
  | 0x0D0 => some (.xcmp F.h (opndOf F.d F.m) (opndOf F.a F.m) (opndOf F.b F.m) (TOpt.ofBits F.m))
  | 0x0D1 => some (.xin F.h (opndOf F.d F.m) (opndOf F.a F.m) (opndOf F.b F.m) (TOpt.ofBits F.m))
  | 0x0D2 => some (.xsubs F.h (opndOf F.d F.m) (opndOf F.a F.m) (opndOf F.b F.m) (TOpt.ofBits F.m))
  | 0x0D3 => some (.xbis F.h (opndOf F.d F.m) (opndOf F.a F.m) (opndOf F.b F.m) (XOpt.ofBits F.m))
  | 0x0D4 => some (.xld F.h (opndOf F.d F.m) (Wid.ofBits F.m) (MemOpnd.ofFields F))
  | 0x0D5 => some (.xst F.h (opndOf F.d F.m) (Wid.ofBits F.m) (MemOpnd.ofFields F))
  | 0x0D6 => some (.xcvt F.h (opndOf F.d F.m) (opndOf F.a F.m) (VOpt.ofBits F.m))
  | 0x0D7 => some (.xexp F.h (opndOf F.d F.m) (opndOf F.a F.m) (XOpt.ofBits F.m))
  | _ => none

/-- The term of a legal word of group 4. -/
def buildMemory (F : Fields) : Option Instr :=
  match F.op.toNat with
  | 0x100 => some (.ld F.h (opndOf F.d F.m) (Wid.ofBits F.m) (MemOpnd.ofFields F))
  | 0x101 => some (.st F.h (opndOf F.d F.m) (Wid.ofBits F.m) (MemOpnd.ofFields F))
  | 0x102 => some (.ldf F.h (opndOf F.d F.m) (Wid.ofBits F.m) (MemOpnd.ofFields F))
  | 0x103 => some (.stf F.h (opndOf F.d F.m) (Wid.ofBits F.m) (MemOpnd.ofFields F))
  | 0x104 => some (.ldp F.h (opndOf F.d F.m) (Wid.ofBits F.m) (MemOpnd.ofFields F))
  | 0x105 => some (.stp F.h (opndOf F.d F.m) (Wid.ofBits F.m) (MemOpnd.ofFields F))
  | 0x106 => some (.place F.h (opndOf F.d F.m) (opndOf F.a F.m) (opndOf F.b F.m) (F.m.extractLsb' 0 2))
  | 0x107 => some (.evict F.h (opndOf F.d F.m) (opndOf F.a F.m) (opndOf F.b F.m))
  | 0x108 => some (.lds F.h (opndOf F.d F.m) (Wid.ofBits F.m) (MemOpnd.ofFields F))
  | 0x109 => some (.zfill F.h (opndOf F.a F.m) (opndOf F.b F.m) (F.m.getLsbD 8))
  | _ => none

/-- The term of a legal word of group 5. -/
def buildOrder (F : Fields) : Option Instr :=
  match F.op.toNat with
  | 0x140 => some (.amo F.h (opndOf F.d F.m) (opndOf F.a F.m) (opndOf F.b F.m) (AOpt.ofBits F.m))
  | 0x141 => some (.cas F.h (opndOf F.d F.m) (opndOf F.a F.m) (opndOf F.b F.m) (AOpt.ofBits F.m))
  | 0x142 => some (.amof F.h (opndOf F.d F.m) (opndOf F.a F.m) (opndOf F.b F.m) (AOpt.ofBits F.m))
  | 0x143 => some (.lda F.h (opndOf F.d F.m) (Wid.ofBits F.m) (MemOpnd.ofFields F))
  | 0x144 => some (.stl F.h (opndOf F.d F.m) (Wid.ofBits F.m) (MemOpnd.ofFields F))
  | 0x145 => some (.fence F.h (opndOf F.a F.m) (F.m.extractLsb' 0 2))
  | 0x146 => some (.tfence F.h (opndOf F.a F.m))
  | 0x147 => some (.seal F.h (opndOf F.a F.m) (opndOf F.b F.m) (F.m.getLsbD 0))
  | 0x148 => some (.unseal F.h (opndOf F.a F.m) (opndOf F.b F.m))
  | 0x149 => some (.hand F.h (opndOf F.a F.m) (opndOf F.b F.m))
  | 0x14A => some (.take F.h (opndOf F.a F.m))
  | 0x14B => some (.pub F.h (opndOf F.a F.m))
  | 0x14C => some (.red F.h (opndOf F.d F.m) (MemOpnd.ofFields F))
  | 0x14D => some (.probe F.h (opndOf F.a F.m))
  | 0x14E => some (.chkerr F.h (opndOf F.d F.m))
  | _ => none

/-- The term of a legal word of group 6. -/
def buildEngine (F : Fields) : Option Instr :=
  match F.op.toNat with
  | 0x180 => some (.mcfg F.h (F.m.extractLsb' 0 2) (F.m.extractLsb' 2 3) (F.m.extractLsb' 5 3) (F.m.getLsbD 8))
  | 0x181 => some (.mldb F.h (opndOf F.a F.m) (opndOf F.b F.m) (F.m.extractLsb' 0 4))
  | 0x182 => some (.mvqb F.h (opndOf F.a F.m) (opndOf F.b F.m) (F.m.extractLsb' 0 4))
  | 0x183 => some (.mldt F.h (opndOf F.a F.m))
  | 0x184 => some (.mswb F.h (F.m.extractLsb' 0 4))
  | 0x185 => some (.mma F.h (opndOf F.d F.m) (opndOf F.a F.m) (opndOf F.b F.m) (F.m.extractLsb' 0 3) (F.m.extractLsb' 3 4) (F.m.extractLsb' 7 3))
  | 0x186 => some (.mzro F.h (F.m.extractLsb' 0 3) (F.m.getLsbD 3))
  | 0x187 => some (.mstz F.h (opndOf F.a F.m) (opndOf F.b F.m) (F.m.extractLsb' 0 3))
  | 0x188 => some (.mrdz F.h (opndOf F.d F.m) (opndOf F.a F.m) (F.m.extractLsb' 0 3))
  | 0x189 => some (.mfac F.h (F.m.extractLsb' 0 7))
  | 0x18A => some (.mpiv F.h (opndOf F.d F.m) (opndOf F.a F.m) (opndOf F.b F.m) (F.m.extractLsb' 0 6))
  | 0x18B => some (.mrnm F.h (opndOf F.d F.m) (opndOf F.a F.m))
  | 0x18C => some (.mgrw F.h (opndOf F.d F.m))
  | 0x18D => some (.mfst F.h (opndOf F.a F.m) (opndOf F.b F.m))
  | 0x18E => some (.qenq F.h (opndOf F.d F.m) (opndOf F.a F.m) (opndOf F.b F.m) (F.m.extractLsb' 0 4))
  | 0x18F => some (.cpy F.h (opndOf F.d F.m) (opndOf F.a F.m) (opndOf F.b F.m) (F.m.extractLsb' 0 4) (F.m.getLsbD 4) (F.m.getLsbD 5))
  | 0x190 => some (.gthr F.h (opndOf F.d F.m) (opndOf F.a F.m) (opndOf F.b F.m) (F.m.extractLsb' 0 4) (F.m.getLsbD 4) (F.m.getLsbD 5))
  | 0x191 => some (.sctr F.h (opndOf F.d F.m) (opndOf F.a F.m) (opndOf F.b F.m) (F.m.extractLsb' 0 4) (F.m.getLsbD 4) (F.m.getLsbD 5))
  | 0x192 => some (.mcast F.h (opndOf F.d F.m) (opndOf F.a F.m) (opndOf F.b F.m) (F.m.extractLsb' 0 4))
  | 0x193 => some (.msnd F.h (opndOf F.a F.m) (opndOf F.b F.m) (F.m.getLsbD 4))
  | 0x194 => some (.coll F.h (opndOf F.d F.m) (opndOf F.a F.m) (opndOf F.b F.m) (F.m.extractLsb' 0 4) (F.m.extractLsb' 4 4))
  | 0x195 => some (.eloop F.h F.d (opndOf F.a F.m) (opndOf F.b F.m) (F.m.extractLsb' 0 13))
  | 0x196 => some (.ewait F.h (opndOf F.d F.m))
  | _ => none

/-- The term of a legal word of group 7. -/
def buildSystem (F : Fields) : Option Instr :=
  match F.op.toNat with
  | 0x1C0 => some (.trap F.h (F.m.extractLsb' 0 13))
  | 0x1C1 => some (.sysc F.h (F.m.extractLsb' 0 13))
  | 0x1C2 => some (.rft F.h)
  | 0x1C3 => some (.rplyGet F.h (opndOf F.d F.m) (opndOf F.a F.m) (opndOf F.b F.m))
  | 0x1C4 => some (csrRead F)
  | 0x1C5 => some (csrWrite F)
  | 0x1C6 => some (.csrx F.h (opndOf F.d F.m) (opndOf F.a F.m) (F.m.extractLsb' 0 12))
  | 0x1C7 => some (.lnch F.h (opndOf F.d F.m) (opndOf F.a F.m) (opndOf F.b F.m))
  | 0x1C8 => some (.canc F.h (opndOf F.a F.m) (F.m.extractLsb' 0 2))
  | 0x1C9 => some (.cntr F.h (opndOf F.d F.m) (opndOf F.a F.m) (opndOf F.b F.m) (F.m.extractLsb' 2 2) (F.m.extractLsb' 0 2))
  | 0x1CA => some (.tinv F.h (opndOf F.a F.m) (opndOf F.b F.m))
  | 0x1CB => some (.rack F.h (opndOf F.d F.m) (opndOf F.a F.m) (opndOf F.b F.m))
  | 0x1CC => some (.parkr F.h (opndOf F.d F.m) (opndOf F.a F.m))
  | 0x1CD => some (.rsumRetry F.h (opndOf F.d F.m) (opndOf F.a F.m) (opndOf F.b F.m))
  | 0x1CE => some (.swpo F.h (opndOf F.d F.m) (opndOf F.a F.m))
  | 0x1CF => some (.swpi F.h (opndOf F.d F.m) (opndOf F.a F.m))
  | 0x1D0 => some (.prem F.h (opndOf F.d F.m) (opndOf F.a F.m) (opndOf F.b F.m))
  | 0x1D1 => some (.frz F.h)
  | 0x1D2 => some (.cndl F.h (opndOf F.d F.m) (opndOf F.a F.m))
  | 0x1D3 => some (.cmap F.h (opndOf F.d F.m) (opndOf F.a F.m) (opndOf F.b F.m))
  | 0x1D4 => some (.halt F.h (opndOf F.a F.m))
  | 0x1D5 => some (.atst F.h (opndOf F.d F.m) (opndOf F.a F.m) (opndOf F.b F.m))
  | _ => none

/-- The term of a legal full-form word. -/
def build (F : Fields) : Option Instr :=
  match F.op.toNat / 64 with
  | 0 => buildControl F
  | 1 => buildInteger F
  | 2 => buildFloat F
  | 3 => buildInterval F
  | 4 => buildMemory F
  | 5 => buildOrder F
  | 6 => buildEngine F
  | 7 => buildSystem F
  | _ => none

/-- The term of a legal paired word. -/
def buildPair (x y : Slot) : Instr :=
  match x.op with
  | .pnop => .pnop y
  | .mov => .pairMov x.d x.s y
  | .add => .pairAdd x.d x.s y
  | .sub => .pairSub x.d x.s y
  | .and => .pairAnd x.d x.s y
  | .or => .pairOr x.d x.s y
  | .xor => .pairXor x.d x.s y
  | .shl => .pairShl x.d x.s y
  | .shr => .pairShr x.d x.s y
  | .sar => .pairSar x.d x.s y
  | .min => .pairMin x.d x.s y
  | .max => .pairMax x.d x.s y
  | .fadd => .pairFadd x.d x.s y
  | .fsub => .pairFsub x.d x.s y
  | .fmul => .pairFmul x.d x.s y
  | .fmin => .pairFmin x.d x.s y
  | .fmax => .pairFmax x.d x.s y
  | .fmov => .pairFmov x.d x.s y
  | .popc => .pairPopc x.d x.s y
  | .addi => .addi x.d x.imm y
  | .movi => .movi x.d x.imm y
  | .shli => .shli x.d x.imm y
  | .shri => .shri x.d x.imm y
  | .aaddi => .aaddi x.d x.imm y

/-- op7 codes (R47). -/
def PairOp.code : PairOp → BitVec 7
  | .pnop => 0x00
  | .mov => 0x01
  | .add => 0x02
  | .sub => 0x03
  | .and => 0x04
  | .or => 0x05
  | .xor => 0x06
  | .shl => 0x07
  | .shr => 0x08
  | .sar => 0x09
  | .min => 0x0A
  | .max => 0x0B
  | .addi => 0x0C
  | .movi => 0x0D
  | .shli => 0x0E
  | .shri => 0x0F
  | .fadd => 0x10
  | .fsub => 0x11
  | .fmul => 0x12
  | .fmin => 0x13
  | .fmax => 0x14
  | .fmov => 0x15
  | .aaddi => 0x16
  | .popc => 0x17

/-- The operation of an op7 code (R47); none for 0x18–0x7F. -/
def pairOpOf (c : BitVec 7) : Option PairOp :=
  match c.toNat with
  | 0x00 => some .pnop
  | 0x01 => some .mov
  | 0x02 => some .add
  | 0x03 => some .sub
  | 0x04 => some .and
  | 0x05 => some .or
  | 0x06 => some .xor
  | 0x07 => some .shl
  | 0x08 => some .shr
  | 0x09 => some .sar
  | 0x0A => some .min
  | 0x0B => some .max
  | 0x0C => some .addi
  | 0x0D => some .movi
  | 0x0E => some .shli
  | 0x0F => some .shri
  | 0x10 => some .fadd
  | 0x11 => some .fsub
  | 0x12 => some .fmul
  | 0x13 => some .fmin
  | 0x14 => some .fmax
  | 0x15 => some .fmov
  | 0x16 => some .aaddi
  | 0x17 => some .popc
  | _ => none

/-- A slot of a paired word from its 31 bits (R44); none for an unlisted op7. -/
def slotOf (x : BitVec 31) : Option Slot :=
  match pairOpOf (x.extractLsb' 24 7) with
  | none => none
  | some op => some ⟨op, opndOf (x.extractLsb' 16 8) 0, opndOf (x.extractLsb' 8 8) 0, x.extractLsb' 0 8⟩

/-- The 31 bits of a slot (R44). -/
def Slot.bits (x : Slot) : BitVec 31 := x.op.code ++ x.d.byte ++ x.s.byte ++ x.imm

/-- What is wrong with a slot (R45, R47). -/
def Slot.ill (x : Slot) : List Nat :=
  (if x.op = .pnop then (if x.d == .g 0 then [] else [illRsvd]) else if x.d.isIn x.op.dKinds then [] else [illOperand]) ++
  (if x.op = .pnop || x.op.isImm then (if x.s == .g 0 then [] else [illRsvd])
   else if x.s.isIn x.op.sKinds then [] else [illOperand]) ++
  (if x.op.isImm || x.imm == 0 then [] else [illRsvd]) ++
  (if (x.op == .shli || x.op == .shri) && 32 ≤ x.imm.toNat then [illValue] else [])

/-- The subcode of an illegal paired word. -/
def pairIll (w : DWord) : Option Nat :=
  if w.getLsbD 62 then some illPair
  else match slotOf (w.extractLsb' 31 31), slotOf (w.extractLsb' 0 31) with
    | some x, some y =>
      lowest (x.ill ++ y.ill ++ (if banksOk x y then [] else [illBank]) ++ (if sameDst x y then [illSamedst] else []))
    | _, _ => some illOp7

/-- The fields of a full-form instruction, from the encoding tables; a term that is no full-form word has NOP's. -/
def Instr.fields (i : Instr) : Fields :=
  match i with
  | .bru reg bit off => Fields.wide 0x002 ⟨some ⟨reg, bit, false⟩, 0⟩ 0 off
  | .br h off => Fields.wide 0x001 h 0 off
  | .brx h a => ⟨0x003, h, 0, a.byte, 0, opM [a]⟩
  | .call h d off => Fields.wide 0x004 h d.byte off
  | .callx h d a => ⟨0x005, h, d.byte, a.byte, 0, opM [d, a]⟩
  | .ret h a => ⟨0x006, h, 0, a.byte, 0, opM [a]⟩
  | .spawn h d off => Fields.wide 0x007 h d.byte off
  | .endf h => ⟨0x008, h, 0, 0, 0, 0⟩
  | .yield h => ⟨0x009, h, 0, 0, 0, 0⟩
  | .join h k => ⟨0x00A, h, 0, 0, 0, put 0 k.toNat⟩
  | .leave h k => ⟨0x00B, h, 0, 0, 0, put 0 k.toNat⟩
  | .waitm h k => ⟨0x00C, h, 0, 0, 0, put 0 k.toNat⟩
  | .mmov h d k arr => ⟨0x00D, h, d.byte, 0, 0, put 0 k.toNat ||| put 4 (BitVec.ofBool arr).toNat⟩
  | .mop h a k op => ⟨0x00E, h, 0, a.byte, 0, put 0 k.toNat ||| put 4 op.toNat⟩
  | .ballot h d a => ⟨0x00F, h, d.byte, a.byte, 0, opM [d, a]⟩
  | .tbar h fl => ⟨0x010, h, 0, 0, 0, put 0 (BitVec.ofBool fl).toNat⟩
  | .qset h a q => ⟨0x011, h, 0, a.byte, 0, put 0 q.toNat⟩
  | .sign h q => ⟨0x012, h, 0, 0, 0, put 0 q.toNat⟩
  | .fork h d a set => ⟨0x013, h, d.byte, a.byte, 0, put 0 set.toNat⟩
  | .rdv h d a => ⟨0x014, h, d.byte, a.byte, 0, opM [d, a]⟩
  | .arrive h a fl => ⟨0x015, h, 0, a.byte, 0, put 0 (BitVec.ofBool fl).toNat⟩
  | .wait h a b => ⟨0x016, h, 0, a.byte, b.byte, opM [a, b]⟩
  | .ctst h d c => ⟨0x017, h, d.byte, 0, 0, put 0 c.toNat⟩
  | .cbind h a b c => ⟨0x018, h, 0, a.byte, b.byte, put 0 c.toNat⟩
  | .cunb h c => ⟨0x019, h, 0, 0, 0, put 0 c.toNat⟩
  | .cprod h a c => ⟨0x01A, h, 0, a.byte, 0, put 0 c.toNat⟩
  | .ccons h a c => ⟨0x01B, h, 0, a.byte, 0, put 0 c.toNat⟩
  | .add h d a b => ⟨0x040, h, d.byte, a.byte, b.byte, opM [d, a, b]⟩
  | .sub h d a b => ⟨0x041, h, d.byte, a.byte, b.byte, opM [d, a, b]⟩
  | .mul h d a b => ⟨0x042, h, d.byte, a.byte, b.byte, opM [d, a, b]⟩
  | .mulh h d a b => ⟨0x043, h, d.byte, a.byte, b.byte, opM [d, a, b]⟩
  | .mulhu h d a b => ⟨0x044, h, d.byte, a.byte, b.byte, opM [d, a, b]⟩
  | .mad h d a b => ⟨0x045, h, d.byte, a.byte, b.byte, opM [d, a, b]⟩
  | .div h d a b => ⟨0x046, h, d.byte, a.byte, b.byte, opM [d, a, b]⟩
  | .divu h d a b => ⟨0x047, h, d.byte, a.byte, b.byte, opM [d, a, b]⟩
  | .rem h d a b => ⟨0x048, h, d.byte, a.byte, b.byte, opM [d, a, b]⟩
  | .remu h d a b => ⟨0x049, h, d.byte, a.byte, b.byte, opM [d, a, b]⟩
  | .and h d a b => ⟨0x04A, h, d.byte, a.byte, b.byte, opM [d, a, b]⟩
  | .or h d a b => ⟨0x04B, h, d.byte, a.byte, b.byte, opM [d, a, b]⟩
  | .xor h d a b => ⟨0x04C, h, d.byte, a.byte, b.byte, opM [d, a, b]⟩
  | .andn h d a b => ⟨0x04D, h, d.byte, a.byte, b.byte, opM [d, a, b]⟩
  | .shl h d a b => ⟨0x04E, h, d.byte, a.byte, b.byte, opM [d, a, b]⟩
  | .shr h d a b => ⟨0x04F, h, d.byte, a.byte, b.byte, opM [d, a, b]⟩
  | .sar h d a b => ⟨0x050, h, d.byte, a.byte, b.byte, opM [d, a, b]⟩
  | .rol h d a b => ⟨0x051, h, d.byte, a.byte, b.byte, opM [d, a, b]⟩
  | .clz h d a => ⟨0x052, h, d.byte, a.byte, 0, opM [d, a]⟩
  | .ctz h d a => ⟨0x053, h, d.byte, a.byte, 0, opM [d, a]⟩
  | .popc h d a b => ⟨0x054, h, d.byte, a.byte, b.byte, opM [d, a, b]⟩
  | .brev h d a => ⟨0x055, h, d.byte, a.byte, 0, opM [d, a]⟩
  | .bfx h d a pos len => ⟨0x056, h, d.byte, a.byte, 0, put 0 pos.toNat ||| put 5 len.toNat⟩
  | .bfxs h d a pos len => ⟨0x057, h, d.byte, a.byte, 0, put 0 pos.toNat ||| put 5 len.toNat⟩
  | .bfi h d a pos len => ⟨0x058, h, d.byte, a.byte, 0, put 0 pos.toNat ||| put 5 len.toNat⟩
  | .min h d a b => ⟨0x059, h, d.byte, a.byte, b.byte, opM [d, a, b]⟩
  | .max h d a b => ⟨0x05A, h, d.byte, a.byte, b.byte, opM [d, a, b]⟩
  | .minu h d a b => ⟨0x05B, h, d.byte, a.byte, b.byte, opM [d, a, b]⟩
  | .maxu h d a b => ⟨0x05C, h, d.byte, a.byte, b.byte, opM [d, a, b]⟩
  | .abs h d a => ⟨0x05D, h, d.byte, a.byte, 0, opM [d, a]⟩
  | .cmp h d a b t => ⟨0x05E, h, d.byte, a.byte, b.byte, t.bits⟩
  | .sel h d a b cr cb => ⟨0x05F, h, d.byte, a.byte, b.byte, put 5 cr.toNat ||| put 0 cb.toNat⟩
  | .mov h d a => ⟨0x060, h, d.byte, a.byte, 0, opM [d, a]⟩
  | .li h d off => Fields.wide 0x061 h d.byte off
  | .lih h d imm => Fields.wide 0x062 h d.byte (imm.setWidth 29)
  | .shfl h d a b mode => ⟨0x063, h, d.byte, a.byte, b.byte, put 0 mode.toNat⟩
  | .rdid h d w => ⟨0x064, h, d.byte, 0, 0, put 0 w.toNat⟩
  | .amk h d a b => ⟨0x065, h, d.byte, a.byte, b.byte, opM [d, a, b]⟩
  | .aadd h d a b => ⟨0x066, h, d.byte, a.byte, b.byte, opM [d, a, b]⟩
  | .ascl h d a b => ⟨0x067, h, d.byte, a.byte, b.byte, opM [d, a, b]⟩
  | .amat h d a => ⟨0x068, h, d.byte, a.byte, 0, opM [d, a]⟩
  | .setix h d a b => ⟨0x069, h, d.byte, a.byte, b.byte, opM [d, a, b]⟩
  | .getix h d a b => ⟨0x06A, h, d.byte, a.byte, b.byte, opM [d, a, b]⟩
  | .lea h d wid m => ⟨0x06B, h, d.byte, m.base.byte, m.indexByte, m.bits wid⟩
  | .fadd h d a b o => ⟨0x080, h, d.byte, a.byte, b.byte, o.bits⟩
  | .fsub h d a b o => ⟨0x081, h, d.byte, a.byte, b.byte, o.bits⟩
  | .fmul h d a b o => ⟨0x082, h, d.byte, a.byte, b.byte, o.bits⟩
  | .ffma h d a b o => ⟨0x083, h, d.byte, a.byte, b.byte, o.bits⟩
  | .fmin h d a b o => ⟨0x084, h, d.byte, a.byte, b.byte, o.bits⟩
  | .fmax h d a b o => ⟨0x085, h, d.byte, a.byte, b.byte, o.bits⟩
  | .fdiv h d a b o => ⟨0x086, h, d.byte, a.byte, b.byte, o.bits⟩
  | .fsqrt h d a o => ⟨0x087, h, d.byte, a.byte, 0, o.bits⟩
  | .frcp h d a o => ⟨0x088, h, d.byte, a.byte, 0, o.bits⟩
  | .frsq h d a o => ⟨0x089, h, d.byte, a.byte, 0, o.bits⟩
  | .fex2 h d a o => ⟨0x08A, h, d.byte, a.byte, 0, o.bits⟩
  | .flg2 h d a o => ⟨0x08B, h, d.byte, a.byte, 0, o.bits⟩
  | .fsin h d a o => ⟨0x08C, h, d.byte, a.byte, 0, o.bits⟩
  | .fcos h d a o => ⟨0x08D, h, d.byte, a.byte, 0, o.bits⟩
  | .fcmp h d a b t => ⟨0x08E, h, d.byte, a.byte, b.byte, t.bits⟩
  | .fcls h d a o => ⟨0x08F, h, d.byte, a.byte, 0, o.bits⟩
  | .fcvt h d a b v => ⟨0x090, h, d.byte, a.byte, b.byte, v.bits⟩
  | .ftoi h d a v => ⟨0x091, h, d.byte, a.byte, 0, v.bits⟩
  | .itof h d a v => ⟨0x092, h, d.byte, a.byte, 0, v.bits⟩
  | .frnd h d a o => ⟨0x093, h, d.byte, a.byte, 0, o.bits⟩
  | .fscl h d a b o => ⟨0x094, h, d.byte, a.byte, b.byte, o.bits⟩
  | .fdot h d a b => ⟨0x095, h, d.byte, a.byte, b.byte, opM [d, a, b]⟩
  | .fmov h d a => ⟨0x096, h, d.byte, a.byte, 0, opM [d, a]⟩
  | .ftag h d a tag => ⟨0x097, h, d.byte, a.byte, 0, put 0 tag.toNat⟩
  | .fraw h d a b => ⟨0x098, h, d.byte, a.byte, b.byte, opM [d, a, b]⟩
  | .fsel h d a b cr cb => ⟨0x099, h, d.byte, a.byte, b.byte, put 5 cr.toNat ||| put 0 cb.toNat⟩
  | .xmk h d a b x => ⟨0x0C0, h, d.byte, a.byte, b.byte, x.bits⟩
  | .xpt h d a x => ⟨0x0C1, h, d.byte, a.byte, 0, x.bits⟩
  | .xlo h d a x => ⟨0x0C2, h, d.byte, a.byte, 0, x.bits⟩
  | .xhi h d a x => ⟨0x0C3, h, d.byte, a.byte, 0, x.bits⟩
  | .xadd h d a b x => ⟨0x0C4, h, d.byte, a.byte, b.byte, x.bits⟩
  | .xsub h d a b x => ⟨0x0C5, h, d.byte, a.byte, b.byte, x.bits⟩
  | .xmul h d a b x => ⟨0x0C6, h, d.byte, a.byte, b.byte, x.bits⟩
  | .xdiv h d a b x => ⟨0x0C7, h, d.byte, a.byte, b.byte, x.bits⟩
  | .xsqr h d a x => ⟨0x0C8, h, d.byte, a.byte, 0, x.bits⟩
  | .xsqrt h d a x => ⟨0x0C9, h, d.byte, a.byte, 0, x.bits⟩
  | .xneg h d a x => ⟨0x0CA, h, d.byte, a.byte, 0, x.bits⟩
  | .xabs h d a x => ⟨0x0CB, h, d.byte, a.byte, 0, x.bits⟩
  | .xhull h d a b x => ⟨0x0CC, h, d.byte, a.byte, b.byte, x.bits⟩
  | .xmeet h d a b x => ⟨0x0CD, h, d.byte, a.byte, b.byte, x.bits⟩
  | .xmid h d a x => ⟨0x0CE, h, d.byte, a.byte, 0, x.bits⟩
  | .xwid h d a x => ⟨0x0CF, h, d.byte, a.byte, 0, x.bits⟩
  | .xcmp h d a b t => ⟨0x0D0, h, d.byte, a.byte, b.byte, t.bits⟩
  | .xin h d a b t => ⟨0x0D1, h, d.byte, a.byte, b.byte, t.bits⟩
  | .xsubs h d a b t => ⟨0x0D2, h, d.byte, a.byte, b.byte, t.bits⟩
  | .xbis h d a b x => ⟨0x0D3, h, d.byte, a.byte, b.byte, x.bits⟩
  | .xld h d wid m => ⟨0x0D4, h, d.byte, m.base.byte, m.indexByte, m.bits wid⟩
  | .xst h d wid m => ⟨0x0D5, h, d.byte, m.base.byte, m.indexByte, m.bits wid⟩
  | .xcvt h d a v => ⟨0x0D6, h, d.byte, a.byte, 0, v.bits⟩
  | .xexp h d a x => ⟨0x0D7, h, d.byte, a.byte, 0, x.bits⟩
  | .ld h d wid m => ⟨0x100, h, d.byte, m.base.byte, m.indexByte, m.bits wid⟩
  | .st h d wid m => ⟨0x101, h, d.byte, m.base.byte, m.indexByte, m.bits wid⟩
  | .ldf h d wid m => ⟨0x102, h, d.byte, m.base.byte, m.indexByte, m.bits wid⟩
  | .stf h d wid m => ⟨0x103, h, d.byte, m.base.byte, m.indexByte, m.bits wid⟩
  | .ldp h d wid m => ⟨0x104, h, d.byte, m.base.byte, m.indexByte, m.bits wid⟩
  | .stp h d wid m => ⟨0x105, h, d.byte, m.base.byte, m.indexByte, m.bits wid⟩
  | .place h d a b lvl => ⟨0x106, h, d.byte, a.byte, b.byte, put 0 lvl.toNat⟩
  | .evict h d a b => ⟨0x107, h, d.byte, a.byte, b.byte, opM [d, a, b]⟩
  | .lds h d wid m => ⟨0x108, h, d.byte, m.base.byte, m.indexByte, m.bits wid⟩
  | .zfill h a b sc => ⟨0x109, h, 0, a.byte, b.byte, put 8 (BitVec.ofBool sc).toNat⟩
  | .amo h d a b o => ⟨0x140, h, d.byte, a.byte, b.byte, o.bits⟩
  | .cas h d a b o => ⟨0x141, h, d.byte, a.byte, b.byte, o.bits⟩
  | .amof h d a b o => ⟨0x142, h, d.byte, a.byte, b.byte, o.bits⟩
  | .lda h d wid m => ⟨0x143, h, d.byte, m.base.byte, m.indexByte, m.bits wid⟩
  | .stl h d wid m => ⟨0x144, h, d.byte, m.base.byte, m.indexByte, m.bits wid⟩
  | .fence h a kind => ⟨0x145, h, 0, a.byte, 0, put 0 kind.toNat⟩
  | .tfence h a => ⟨0x146, h, 0, a.byte, 0, opM [a]⟩
  | .seal h a b fl => ⟨0x147, h, 0, a.byte, b.byte, put 0 (BitVec.ofBool fl).toNat⟩
  | .unseal h a b => ⟨0x148, h, 0, a.byte, b.byte, opM [a, b]⟩
  | .hand h a b => ⟨0x149, h, 0, a.byte, b.byte, opM [a, b]⟩
  | .take h a => ⟨0x14A, h, 0, a.byte, 0, opM [a]⟩
  | .pub h a => ⟨0x14B, h, 0, a.byte, 0, opM [a]⟩
  | .red h d m => ⟨0x14C, h, d.byte, m.base.byte, m.indexByte, m.bits .w⟩
  | .probe h a => ⟨0x14D, h, 0, a.byte, 0, opM [a]⟩
  | .chkerr h d => ⟨0x14E, h, d.byte, 0, 0, opM [d]⟩
  | .mcfg h arr wf af fac => ⟨0x180, h, 0, 0, 0, put 0 arr.toNat ||| put 2 wf.toNat ||| put 5 af.toNat ||| put 8 (BitVec.ofBool fac).toNat⟩
  | .mldb h a b mask => ⟨0x181, h, 0, a.byte, b.byte, put 0 mask.toNat⟩
  | .mvqb h a b mask => ⟨0x182, h, 0, a.byte, b.byte, put 0 mask.toNat⟩
  | .mldt h a => ⟨0x183, h, 0, a.byte, 0, opM [a]⟩
  | .mswb h mask => ⟨0x184, h, 0, 0, 0, put 0 mask.toNat⟩
  | .mma h d a b t rows q => ⟨0x185, h, d.byte, a.byte, b.byte, put 0 t.toNat ||| put 3 rows.toNat ||| put 7 q.toNat⟩
  | .mzro h t fl => ⟨0x186, h, 0, 0, 0, put 0 t.toNat ||| put 3 (BitVec.ofBool fl).toNat⟩
  | .mstz h a b t => ⟨0x187, h, 0, a.byte, b.byte, put 0 t.toNat⟩
  | .mrdz h d a t => ⟨0x188, h, d.byte, a.byte, 0, put 0 t.toNat⟩
  | .mfac h n => ⟨0x189, h, 0, 0, 0, put 0 n.toNat⟩
  | .mpiv h d a b k => ⟨0x18A, h, d.byte, a.byte, b.byte, put 0 k.toNat⟩
  | .mrnm h d a => ⟨0x18B, h, d.byte, a.byte, 0, opM [d, a]⟩
  | .mgrw h d => ⟨0x18C, h, d.byte, 0, 0, opM [d]⟩
  | .mfst h a b => ⟨0x18D, h, 0, a.byte, b.byte, opM [a, b]⟩
  | .qenq h d a b kind => ⟨0x18E, h, d.byte, a.byte, b.byte, put 0 kind.toNat⟩
  | .cpy h d a b c dsc ssc => ⟨0x18F, h, d.byte, a.byte, b.byte, put 0 c.toNat ||| put 4 (BitVec.ofBool dsc).toNat ||| put 5 (BitVec.ofBool ssc).toNat⟩
  | .gthr h d a b c dsc ssc => ⟨0x190, h, d.byte, a.byte, b.byte, put 0 c.toNat ||| put 4 (BitVec.ofBool dsc).toNat ||| put 5 (BitVec.ofBool ssc).toNat⟩
  | .sctr h d a b c dsc ssc => ⟨0x191, h, d.byte, a.byte, b.byte, put 0 c.toNat ||| put 4 (BitVec.ofBool dsc).toNat ||| put 5 (BitVec.ofBool ssc).toNat⟩
  | .mcast h d a b c => ⟨0x192, h, d.byte, a.byte, b.byte, put 0 c.toNat⟩
  | .msnd h a b ssc => ⟨0x193, h, 0, a.byte, b.byte, put 4 (BitVec.ofBool ssc).toNat⟩
  | .coll h d a b ty op => ⟨0x194, h, d.byte, a.byte, b.byte, put 0 ty.toNat ||| put 4 op.toNat⟩
  | .eloop h l a b count => ⟨0x195, h, l, a.byte, b.byte, put 0 count.toNat⟩
  | .ewait h d => ⟨0x196, h, d.byte, 0, 0, opM [d]⟩
  | .trap h code => ⟨0x1C0, h, 0, 0, 0, put 0 code.toNat⟩
  | .sysc h code => ⟨0x1C1, h, 0, 0, 0, put 0 code.toNat⟩
  | .rft h => ⟨0x1C2, h, 0, 0, 0, 0⟩
  | .rplyGet h d a b => ⟨0x1C3, h, d.byte, a.byte, b.byte, opM [d, a, b]⟩
  | .rplyPut h d a b => ⟨0x1C3, h, d.byte, a.byte, b.byte, opM [d, a, b]⟩
  | .rplyDrop h d a b => ⟨0x1C3, h, d.byte, a.byte, b.byte, opM [d, a, b]⟩
  | .rplyIns h d a b => ⟨0x1C3, h, d.byte, a.byte, b.byte, opM [d, a, b]⟩
  | .csrr h d n => ⟨0x1C4, h, d.byte, 0, 0, put 0 n.toNat⟩
  | .csrHighLatchRead h d n => ⟨0x1C4, h, d.byte, 0, 0, put 0 n.toNat⟩
  | .csrw h a n => ⟨0x1C5, h, 0, a.byte, 0, put 0 n.toNat⟩
  | .fenvWrite h a => ⟨0x1C5, h, 0, a.byte, 0, 0x000⟩
  | .fltqWrite h a => ⟨0x1C5, h, 0, a.byte, 0, 0x10E⟩
  | .mstatWrite h a => ⟨0x1C5, h, 0, a.byte, 0, 0x006⟩
  | .keystWrite h a => ⟨0x1C5, h, 0, a.byte, 0, 0x10F⟩
  | .tepcWrite h a hi => ⟨0x1C5, h, 0, a.byte, 0, if hi then 0x109 else 0x108⟩
  | .csrx h d a n => ⟨0x1C6, h, d.byte, a.byte, 0, put 0 n.toNat⟩
  | .lnch h d a b => ⟨0x1C7, h, d.byte, a.byte, b.byte, opM [d, a, b]⟩
  | .canc h a lvl => ⟨0x1C8, h, 0, a.byte, 0, put 0 lvl.toNat⟩
  | .cntr h d a b op lvl => ⟨0x1C9, h, d.byte, a.byte, b.byte, put 2 op.toNat ||| put 0 lvl.toNat⟩
  | .tinv h a b => ⟨0x1CA, h, 0, a.byte, b.byte, opM [a, b]⟩
  | .rack h d a b => ⟨0x1CB, h, d.byte, a.byte, b.byte, opM [d, a, b]⟩
  | .parkr h d a => ⟨0x1CC, h, d.byte, a.byte, 0, opM [d, a]⟩
  | .rsumRetry h d a b => ⟨0x1CD, h, d.byte, a.byte, b.byte, opM [d, a, b]⟩
  | .rsumFail h d a b => ⟨0x1CD, h, d.byte, a.byte, b.byte, opM [d, a, b]⟩
  | .swpo h d a => ⟨0x1CE, h, d.byte, a.byte, 0, opM [d, a]⟩
  | .swpi h d a => ⟨0x1CF, h, d.byte, a.byte, 0, opM [d, a]⟩
  | .prem h d a b => ⟨0x1D0, h, d.byte, a.byte, b.byte, opM [d, a, b]⟩
  | .frz h => ⟨0x1D1, h, 0, 0, 0, 0⟩
  | .cndl h d a => ⟨0x1D2, h, d.byte, a.byte, 0, opM [d, a]⟩
  | .cmap h d a b => ⟨0x1D3, h, d.byte, a.byte, b.byte, opM [d, a, b]⟩
  | .halt h a => ⟨0x1D4, h, 0, a.byte, 0, opM [a]⟩
  | .haltEnable h a => ⟨0x1D4, h, 0, a.byte, 0, opM [a]⟩
  | .atst h d a b => ⟨0x1D5, h, d.byte, a.byte, b.byte, opM [d, a, b]⟩
  | _ => ⟨0, Hdr.plain, 0, 0, 0, 0⟩

/-- A full-form word from its fields (R32). -/
def Fields.pack (F : Fields) : DWord :=
  let gd : BitVec 13 := match F.h.guard with
    | none => 0
    | some gd => 1#1 ++ gd.reg ++ gd.bit ++ BitVec.ofBool gd.sense
  0#1 ++ F.op ++ gd ++ F.h.la ++ F.d ++ F.a ++ F.b ++ F.m

/-- The word of an instruction; an event, which has no word, is given NOP's. -/
def encode (i : Instr) : DWord :=
  match i.slotX with
  | some (x, y) => 1#1 ++ 0#1 ++ x.bits ++ y.bits
  | none => i.fields.pack

/-- The instruction of a 64-bit word, or the subcode of ILL it raises (R51, R52). -/
def decode (w : DWord) : Except Nat Instr :=
  if w.getLsbD 63 then
    match pairIll w with
    | some c => .error c
    | none => match slotOf (w.extractLsb' 31 31), slotOf (w.extractLsb' 0 31) with
      | some x, some y => .ok (buildPair x y)
      | _, _ => .error illOp7
  else match fullIll w with
    | some c => .error c
    | none => match build (fieldsOf w) with
      | some i => .ok i
      | none => .error illOpcode

/-- Eight bytes, lowest address first, as a word (R9). -/
def wordOfBytes : List (BitVec 8) → Nat
  | [] => 0
  | b :: l => b.toNat + 256 * wordOfBytes l

/-- The little-endian bytes of a word (R9). -/
def bytesOfWord : Nat → Nat → List (BitVec 8)
  | 0, _ => []
  | n + 1, w => BitVec.ofNat 8 w :: bytesOfWord n (w / 256)

/-- The decoder on bytes: an instruction and the bytes after it. -/
def decodeBytes (l : List (BitVec 8)) : Option (Instr × List (BitVec 8)) :=
  if l.length < 8 then none
  else match decode (BitVec.ofNat 64 (wordOfBytes (l.take 8))) with
    | .ok i => some (i, l.drop 8)
    | .error _ => none

/-- The instruction read from the bytes of a word that spec/opcode_table.json numbers `w`: every Kutrum word is
8 bytes, the bits above `nbits` zero. -/
def decodeTableWord (nbits w : Nat) : Option Instr :=
  match decodeBytes (bytesOfWord 8 (w % 2 ^ nbits)) with
  | some (i, _) => some i
  | none => none

end Sys2Proof
end

