-- ==== Sys2Proof/Machine/Sparse.lean ====
section
/-! DEFINITION. Sparse stores: lists of (key, value) pairs in one canonical form, keys strictly rising and no
value equal to the default that an unlisted key reads as. Memory is the store of bytes with default 0: R426 step 3
writes every frame to zero at reset, R235 zeroes scratch at team start. -/

namespace Sys2Proof.Machine

/-- The value at key `k`; an unlisted key reads as `d`. -/
def spGet {α : Type} (d : α) : List (Nat × α) → Nat → α
  | [], _ => d
  | (k', v) :: l, k => if k' = k then v else spGet d l k

/-- Writes `v` at key `k`, keeping the canonical form. -/
def spSet {α : Type} [DecidableEq α] (d : α) : List (Nat × α) → Nat → α → List (Nat × α)
  | [], k, v => if v = d then [] else [(k, v)]
  | (k', v') :: l, k, v =>
    if k < k' then (if v = d then (k', v') :: l else (k, v) :: (k', v') :: l)
    else if k = k' then (if v = d then l else (k, v) :: l)
    else (k', v') :: spSet d l k v

/-- Every key of the list is above `k`. -/
def spAbove {α : Type} (k : Nat) : List (Nat × α) → Bool
  | [] => true
  | (k', _) :: l => decide (k < k') && spAbove k l

/-- The canonical form: keys strictly rising, no value the default. -/
def spWf {α : Type} [DecidableEq α] (d : α) : List (Nat × α) → Bool
  | [] => true
  | (k, v) :: l => decide (v ≠ d) && spAbove k l && spWf d l

/-- A byte store in canonical form; an unlisted byte reads 0 (R235, R426). -/
abbrev Memory := List Host.Cell

/-- The canonical form of memory. -/
abbrev Memory.wf (m : Memory) : Bool := spWf (0 : BitVec 8) m

/-- One byte. -/
def Memory.byte (m : Memory) (a : Nat) : BitVec 8 := spGet 0 m a

/-- Writes one byte. -/
def Memory.setByte (m : Memory) (a : Nat) (v : BitVec 8) : Memory := spSet 0 m a v

/-- `n` bytes from `a`, little-endian (R9), as a number. -/
def Memory.read (m : Memory) (a : Nat) : Nat → Nat
  | 0 => 0
  | n + 1 => (m.byte a).toNat + 256 * Memory.read m (a + 1) n

/-- Writes the low `n` bytes of `v` at `a`, little-endian (R9). -/
def Memory.write (m : Memory) (a : Nat) : Nat → Nat → Memory
  | 0, _ => m
  | n + 1, v => Memory.write (m.setByte a (BitVec.ofNat 8 v)) (a + 1) n (v / 256)

/-- `n` bytes from `a` as a list, lowest address first. -/
def Memory.bytes (m : Memory) (a : Nat) : Nat → List (BitVec 8)
  | 0 => []
  | n + 1 => m.byte a :: Memory.bytes m (a + 1) n

/-- Writes a list of bytes from `a` upward. -/
def Memory.writeBytes (m : Memory) (a : Nat) : List (BitVec 8) → Memory
  | [] => m
  | b :: bs => Memory.writeBytes (m.setByte a b) (a + 1) bs

/-- The first element of a list that meets `p`, replaced by `f`; the rest unchanged. -/
def updFirst {α : Type} (p : α → Bool) (f : α → α) : List α → List α
  | [] => []
  | x :: l => if p x then f x :: l else x :: updFirst p f l

/-- Insertion into a list kept in increasing order of `key`. -/
def insertBy {α : Type} (key : α → Nat) (x : α) : List α → List α
  | [] => [x]
  | y :: l => if key x < key y then x :: y :: l else y :: insertBy key x l

end Sys2Proof.Machine
end

