-- ==== Sys2Proof/Machine/State.lean ====
section
/-! DEFINITION. The state of one package, as plain data (R1, R2, R15, R24, R25 and the chapters that name more). -/

namespace Sys2Proof.Machine

/-! ### Fibres and waves -/

/-- The register window of one lane (R15): g, f with tags, i; and the 32-bit units of it that are poisoned (R412): `(false, n)` is
gN, `(true, 2n)` and `(true, 2n + 1)` are the low and the high half of fN. -/
structure Regs where
  g : Vector Word 64
  f : Vector DWord 32
  tag : Vector (BitVec 4) 32
  ix : Vector Word 4
  bad : List (Bool × Nat)
  deriving DecidableEq, Repr, Inhabited

/-- Every register zero, every tag NONE (R23). -/
def Regs.zero : Regs := ⟨Vector.replicate 64 0, Vector.replicate 32 0, Vector.replicate 32 0, Vector.replicate 4 0, []⟩

/-- What fN reads as: under tag F32, bits 63:32 read as zero (R19). -/
def Regs.fval (r : Regs) (n : Nat) : DWord := if vget r.tag n = 2 then vget r.f n &&& 0xFFFF_FFFF else vget r.f n

/-- Whether a read of fN meets poison: under tag F32 its high half is not read. -/
def Regs.fBad (r : Regs) (n : Nat) : Bool := r.bad.contains (true, 2 * n) || (vget r.tag n != 2 && r.bad.contains (true, 2 * n + 1))

/-- The poisoned units left when fN is written whole (R413). -/
def Regs.fClean (r : Regs) (n : Nat) : List (Bool × Nat) := r.bad.filter (fun b => !(b.1 && b.2 / 2 == n))

/-- The operand values a lane captured for a word (R43, R211): A, B, D and their tags. -/
structure Cap where
  av : QWord
  bv : QWord
  dv : QWord
  ta : BitVec 4
  tb : BitVec 4
  td : BitVec 4
  deriving DecidableEq, Repr, Inhabited

/-- Where a fibre stands: it may issue; it belongs to a blocked batch; it has arrived at a mask (R85) or at the
team barrier (R89); its access is parked (R292). -/
inductive FSt where
  | run
  | stuck
  | atMask (k : BitVec 4)
  | atBar (regroup : Bool)
  | parked
  deriving DecidableEq, Repr, Inhabited

/-- One fibre (R15, R24). -/
structure Fibre where
  regs : Regs
  /-- The shadow lane's registers in yoke mode (R367). -/
  shadow : Option Regs
  pc : Addr
  /-- Register-window base within the register pool, in bytes (R15). -/
  base : Nat
  /-- Hidden signature bits, one per convergence register (R91). -/
  sig : Vector Bool 8
  st : FSt
  /-- Latched high halves of 64-bit CSRs (R25): CSR number of the high half, value. -/
  latch : List (Nat × Word)
  /-- Held low-half writes (R213): CSR number of the low half, value. -/
  held : List (Nat × Word)
  /-- Direct jobs this fibre issued, for EWAIT (R204); `presentMark + k` stands for an MMA it has presented through qk
  that is not yet issued (R93). -/
  jobs : List Nat
  /-- Messages by which the fibre's writes to other packages travel, not yet delivered (R164). -/
  remoteWrites : List (BitVec 24)
  /-- Which issue or release brought it to its PC: fibres of one number at one PC stay in one batch (R78). -/
  grp : Nat
  /-- The level of a fibre that SPAWN put into a wave inside a handler: the team's launch level (R82). -/
  own : Option (BitVec 2)
  deriving DecidableEq, Repr, Inhabited

/-- One lane of an unfinished long-latency word (R43). -/
structure LaneRec where
  lane : Nat
  cap : Cap
  scap : Cap
  /-- Window words of this lane's fibre not yet issued. -/
  win : Nat
  /-- Window words issued, for the ISS byte of a late trap (R356). -/
  iss : Nat
  perf : Bool
  res : QWord
  rtag : BitVec 4
  sres : QWord
  deriving DecidableEq, Repr, Inhabited

/-- An issued but unfinished word (R43); the same record is a replay-queue entry. -/
structure Entry where
  id : Nat
  ins : Instr
  pc : Addr
  lanes : List LaneRec
  /-- The late trap it is bound for: a scratch word of its window has gone before it (R260, R356). -/
  fate : List TrapRec
  /-- The lanes that executed the word, those whose result has landed included (R353). -/
  execs : List Nat
  /-- Some of its lanes have been performed by themselves, and the others follow (R12, R304). -/
  begun : Bool
  /-- The lanes of whose captured values some are poisoned (R412). -/
  bad : List Nat
  deriving DecidableEq, Repr

/-- Why a batch is blocked (R103, R175, R231): `chan` names the channel, `slot` is the stream of a copy job (R245). -/
inductive Wait where
  | rdv | counter | chan (c : BitVec 6) | slot | sign | qset | ending | take | probe | unseal | fence | chkerr
  | engine | tile | mpiv | queue | ewait | jobTable | parkr | rft | cancel | stop | drain
  | remote | move | replayFull
  /-- The word goes on by itself: its next column (R349) or part (R170), or its other lanes (R304), are still to come. -/
  | more | lanes
  deriving DecidableEq, Repr

/-- A write to a uniform register, held until the word's last lane (R18, R106). -/
inductive Uni where
  | s (n : BitVec 4) (v : Word)
  | a (n : BitVec 3) (base stride : Word)
  /-- A value that is to land later: checked now, not written. -/
  | later (n : BitVec 4) (v : Word)
  deriving DecidableEq, Repr

/-- A batch that stands blocked in a word, or whose lanes are parked there (R98, R292). -/
structure Stuck where
  pc : Addr
  todo : List Nat
  done : List Nat
  why : Wait
  /-- Replay-buffer entry when lanes are parked. -/
  ent : Option Nat
  /-- Its lanes that pass the word's guard (R353). -/
  execs : List Nat
  /-- What the lanes that are done write to uniform registers once the last is (R18, R98). -/
  unis : List Uni
  /-- The word in which it stands (R36, R292); none at a fetch. -/
  word : Option Instr
  deriving DecidableEq, Repr

/-- A handler entry that is due (R100, R223): the word's PC, its traps, the lanes that executed it, its batch, the unfinished
word whose trap is late. -/
structure Due where
  pc : Addr
  traps : List TrapRec
  execs : List Nat
  batch : List Nat
  late : Option Nat
  deriving DecidableEq, Repr

/-- Where a fibre resumes (R355). -/
structure Place where
  lane : Nat
  pc : Addr
  grp : Nat
  own : Option (BitVec 2)
  deriving DecidableEq, Repr

/-- g0–g3 of a lane as an entry saves them (R354), visible and shadow, each with those of them that are poisoned (R413). -/
structure Low4 where
  lane : Nat
  g : List Word
  bad : List Nat
  sg : List Word
  sbad : List Nat
  deriving DecidableEq, Repr

/-- What a handler entry saves (R354, R355, R358, R359). -/
structure HSave where
  tcause : Word
  tepc : Addr
  /-- Level at entry. -/
  level : BitVec 2
  depth : Nat
  /-- Where each lane that was live at entry resumes. -/
  resume : List Place
  /-- Blocked batches are left; the trapping batch's lanes. -/
  batch : List Nat
  replay : List Entry
  /-- g0–g3 of each live lane. -/
  gs : List Low4
  ss : List Word
  /-- Some of s0–s3 as saved are poisoned (R412). -/
  sBad : Bool
  /-- Handler entries that are due after this one (R100). -/
  dues : List Due
  deriving DecidableEq, Repr, Inhabited

/-- One wave (R15). -/
structure Wave where
  /-- Wave slot of the core. -/
  wslot : Nat
  level : BitVec 2
  a : Vector (Word × Word) 8
  s : Vector Word 16
  /-- Member and arrival sets. -/
  m : Vector (Word × Word) 12
  tcause : Word
  tepc : Addr
  /-- The handler the wave is in, with what its entry saved. -/
  h : Option HSave
  /-- Depth-1 save (R358). -/
  d1 : Option HSave
  /-- Monitor-call save (R359). -/
  mc : Option HSave
  /-- The wave's entry into the monitor after a trap in a DOUBLE handler (R360): RFT is refused. -/
  lost : Bool
  unfinished : List Entry
  stuck : List Stuck
  /-- The handler entries that are due, in order (R100, R223). -/
  due : List Due
  deriving DecidableEq, Repr, Inhabited

/-! ### Team-scope state -/

/-- The address operands and modifiers a command acts on, read from registers (R178): space and value of D, A
and B, and the second register of an even g pair. -/
structure CmdArgs where
  dsc : Bool
  d : Nat
  asc : Bool
  a : Nat
  a2 : Nat
  bsc : Bool
  b : Nat
  b2 : Nat
  deriving DecidableEq, Repr

/-- A convergence register (R21) with its captured operands and presentations (R93). -/
structure ConvReg where
  target : BitVec 10
  signed : Nat
  st : BitVec 2
  opw : DWord
  caps : Option CmdArgs
  presented : Nat
  job : Option Nat
  deriving DecidableEq, Repr, Inhabited

/-- Idle, as at team start (R23). -/
def ConvReg.zero : ConvReg := ⟨0, 0, 0, 0, none, 0, none⟩

/-- A channel-table entry (R22). -/
structure Chan where
  base : Addr
  slots : BitVec 12
  size : BitVec 13
  head : BitVec 12
  filled : BitVec 12
  role : BitVec 2
  kind : BitVec 2
  v : Bool
  deriving DecidableEq, Repr, Inhabited

/-- Unbound. -/
def Chan.zero : Chan := ⟨0, 0, 0, 0, 0, 0, 0, false⟩

/-- An accumulator tile (R15): 16 × 96 elements, tag F32 or I32, poisoned elements (R412). -/
structure Tile where
  i32 : Bool
  e : List (Nat × Word)
  bad : List Nat
  deriving DecidableEq, Repr, Inhabited

/-- +0 everywhere, tag F32 (R23). -/
def Tile.zero : Tile := ⟨false, [], []⟩

/-- A bank of a macro (R182): 128 × 96 cells of 4 bits, four scale codes per column. -/
structure Bank where
  /-- Plane-column ↦ its 128 cells, cell k in bits 4k + 3 : 4k. -/
  cells : List (Nat × BitVec 512)
  scales : List (Nat × BitVec 8)
  deriving DecidableEq, Repr, Inhabited

/-- Every cell 0, every scale 0x7F (R182). -/
def Bank.zero : Bank := ⟨[], []⟩

/-- The factor state (R182, R192, R193). -/
structure Factor where
  counter : Nat
  /-- Column ↦ (EXT, core, history row, local row). -/
  map : List (Nat × Bool × Nat × Nat × Nat)
  pivoted : List Nat
  growth : Word
  startMax : Word
  maxSeen : Word
  /-- Pivot-row buffer: column, whether this core won, winning core and row, the 64 elements. -/
  buf : Option (Nat × Bool × Nat × Nat × List Word)
  deriving DecidableEq, Repr, Inhabited

/-- As after `mcfg.fac` (R183). -/
def Factor.zero : Factor := ⟨0, [], [], 0x3F80_0000, 0, 0, none⟩

/-- A 32-bit unit of a bank (R412): 8 cells of a plane-column, or (unit 16) the four scale codes of a column. -/
structure MacUnit where
  loading : Bool
  bank : Nat
  col : Nat
  unit : Nat
  deriving DecidableEq, Repr

/-- The matrix engine's state for its holder (R182). -/
structure MatState where
  configured : Bool
  fac : Bool
  arr : BitVec 2
  wf : BitVec 3
  af : BitVec 3
  active : Vector Bank 4
  loading : Vector Bank 4
  leaders : List (Nat × Word)
  factor : Factor
  /-- Poisoned 32-bit units of the banks (R412). -/
  badMac : List MacUnit
  /-- Poisoned entries of the leader table (R412). -/
  badLead : List Nat
  deriving DecidableEq, Repr, Inhabited

/-- Unconfigured and cleared (R182). -/
def MatState.zero : MatState :=
  ⟨false, false, 0, 0, 0, Vector.replicate 4 Bank.zero, Vector.replicate 4 Bank.zero, [], Factor.zero, [], []⟩

/-- A fork-table entry (R94). -/
structure ForkEntry where
  ent : Nat
  seq : BitVec 26
  jobs : List Nat
  deriving DecidableEq, Repr

/-- Level slots of a unit (R310): the counters it names at launch, graph, phase and job level. -/
structure Slots where
  launch : Option Nat
  graph : Option Nat
  phase : Option Nat
  job : Option Nat
  deriving DecidableEq, Repr, Inhabited

/-- What a unit's record says (R310). -/
structure UnitRec where
  code : Addr
  frame : Addr
  join : Addr
  unit : Word
  slots : Slots
  shape : Nat
  prio : Nat
  lvl : Bool
  yoke : Bool
  rbk : Bool
  /-- The launch it belongs to; none for a continuation. -/
  launch : Option Nat
  deriving DecidableEq, Repr, Inhabited

/-- Residency of a team (R224, R320): a team that the hardware swapped is due once the condition of a wait holds. -/
inductive Resid where
  | resident
  | swappedBySwpo
  | swappedByHw
  | due
  deriving DecidableEq, Repr, Inhabited

/-- A team (R15, R24). -/
structure Team where
  agent : AgentId
  part : Nat
  work : UnitRec
  gWin : Nat
  fWin : Nat
  scr : Nat
  /-- First of its pages within the core's scratch steps (R235, R316). -/
  scrPage : Nat
  tiles : Nat
  waves : Vector Wave 32
  nwaves : Nat
  /-- Live fibres by slot, in increasing slot order. -/
  fibres : List (Nat × Fibre)
  q : Vector ConvReg 8
  c : Vector Chan 64
  z : Vector Tile 8
  forks : List ForkEntry
  forkSeq : BitVec 26
  fenv : Word
  chki : Word
  glim : Word
  ftau : Word
  scratch : Memory
  /-- Poisoned 8-byte units of scratch (R412). -/
  scratchBad : List Nat
  mat : Option MatState
  resid : Resid
  /-- A fault the unit's end counts (R323): END in a handler entered from level 0, a job error unobserved. -/
  faulted : Bool
  /-- A cancel (R325) or a failed attempt (R418) has reached it: its discard is due. -/
  axed : Bool
  /-- Its partition's context is being ended: its discard is due and counts it faulted (R360). -/
  doomed : Bool
  /-- Undelivered messages by which ended fibres of the team have written to other packages (R254, R273). -/
  remoteWrites : List (BitVec 24)
  /-- Packages toward which fragments of this team are still on their paths (R172): package, MID, fragments. -/
  onPath : List (BitVec 12 × BitVec 24 × Nat)
  /-- Since when every fibre of it stands in a swap-eligible wait (R320). -/
  since : Option Nat
  deriving DecidableEq, Repr, Inhabited

/-! ### Jobs of the engines -/

/-- States of a job (R348). -/
inductive JSt where
  | wait | ready | run | parked | stopped | done
  deriving DecidableEq, Repr, Inhabited

/-- A byte range of a footprint (R347). -/
structure Range where
  scratch : Bool
  lo : Nat
  len : Nat
  deriving DecidableEq, Repr

/-- A card's header fields and the registers of the forking lane (R201, R202). -/
structure Card where
  cptr : Addr
  cnt : Nat
  g : Vector Word 64
  s : Vector Word 16
  a : Vector (Word × Word) 8
  lane : Nat
  /-- The g registers that were poisoned at the FORK (R414). -/
  bad : List Nat
  deriving DecidableEq, Repr, Inhabited

/-- An engine job (R180, R202, R348). -/
structure Job where
  id : Nat
  agent : AgentId
  core : BitVec 11
  level : BitVec 2
  eng : Eng
  st : JSt
  card : Option Card
  /-- The command of a direct job with its captured operands. -/
  cmd : Option (Instr × CmdArgs)
  reads : List Range
  writes : List Range
  edges : List Nat
  /-- Index of the current command; elements done of it; loop state: start, length, count, iteration, steps. -/
  idx : Nat
  elem : Nat
  loop : Option (Nat × Nat × Nat × Nat × Int × Int)
  err : Bool
  can : Bool
  /-- The convergence register that issued it, and the fork entry it belongs to. -/
  q : Option Nat
  ent : Option Nat
  observed : Bool
  /-- State before it was stopped. -/
  wasParked : Bool
  /-- The batch that waits for a direct MFAC or MPIV to complete (R193, R194): its wave, first lane and word. -/
  wait : Option (Nat × Nat × Addr)
  /-- What that word comes to: a trap with its aux word, or the value for D. -/
  trap : Option (BitVec 4 × BitVec 8 × Word)
  out : Word
  deriving DecidableEq, Repr

/-! ### Translation, placement -/

/-- A translation-cache entry (R280, R281): the leaf and where it lies, and the replica override's frame and GEN. -/
structure TlbEntry where
  part : Nat
  vpn : Nat
  leaf : QWord
  /-- Physical address of the leaf. -/
  src : Nat
  ovr : Option (Nat × BitVec 16)
  deriving DecidableEq, Repr, Inhabited

/-- States of a page move (R285, R287). -/
inductive MvSt where
  | idle | drain | copy | commit
  deriving DecidableEq, Repr, Inhabited

/-- A page move or a broadcast in progress (R285, R287). -/
structure Move where
  id : Nat
  part : Nat
  vpn : Nat
  /-- Carried out without a broadcast, on the owner's core (R285). -/
  owned : Bool
  core : BitVec 11
  st : MvSt
  /-- Leaf value recorded when M was set. -/
  seen : QWord
  /-- New LEVEL and FRAME; none for UNSEAL and drop-replicas. -/
  dest : Option (BitVec 2 × Nat)
  /-- UNSEAL: the new owner (R167). -/
  newOwner : Option AgentId
  /-- Cores whose acknowledgement is awaited. -/
  acks : List (BitVec 11)
  /-- The racking entry's index for an abandoned move's record (R249). -/
  rack : Option Nat
  /-- UNSEAL: the fibre that waits (R175): agent, wave, lane. A finished UNSEAL stays at COMMIT until it has seen it. -/
  waiter : Option (AgentId × Nat × Nat)
  /-- drop-replicas: the level and the agent (0xFFFF every holder) whose replicas are dropped (R249). -/
  only : Option (Nat × AgentId)
  deriving DecidableEq, Repr, Inhabited

/-- An instance of a REDUCE page other than home (R238): level 2 staging, 1 cluster, 0 die of unit `unit`. -/
structure RedInst where
  part : Nat
  vpn : Nat
  lvl : Nat
  unit : Nat
  frame : Nat
  words : List (Nat × Word)
  /-- Offsets of its poisoned words (R412). -/
  bad : List Nat
  deriving DecidableEq, Repr

/-- A replica of a HALO page that a walk is filling (R243, R250): the neighbour's core, the page, its leaf and where that lies, the
frame, and the offsets of the 8-byte words that are filled. -/
structure Fill where
  core : BitVec 11
  part : Nat
  vpn : Nat
  leaf : QWord
  src : Nat
  frame : Nat
  words : List Nat
  deriving DecidableEq, Repr

/-- A page that the device has moved away from home: its home frame, and the frame it moved it to (R158, R236). -/
structure Away where
  part : Nat
  vpn : Nat
  home : Nat
  frame : Nat
  deriving DecidableEq, Repr

/-- A fault record (R294). -/
structure FRec where
  va : Addr
  ticket : Word
  cls : BitVec 8
  sub : BitVec 8
  agent : AgentId
  kind : BitVec 8
  acc : BitVec 8
  wlvl : BitVec 8
  gen : BitVec 16
  index : Word
  lanes : Word
  deriving DecidableEq, Repr

/-- What may come next beside the issue of a word: an event the machine itself brings about, or one that came from
outside as its row of the table. `Event.run` gives each the meaning of its row. -/
inductive Event where
  | ext (i : Instr)
  | completion (agent : AgentId) (wave ent : Nat)
  | enter (agent : AgentId) (wave : Nat) (due : Due)
  | walk (r : WalkReq)
  | snapshot (part vpn : Nat)
  | racking (part counter : Nat)
  | ownedCopy (mv : Nat)
  | mark (mv : Nat)
  | signal (mv : Nat) (core : BitVec 11)
  | lastAck (mv : Nat)
  | copyDone (mv : Nat)
  | ringIn (part die prio : Nat)
  | pop (core : BitVec 11)
  | stealReq (part thief victim : Nat)
  | stealAns (part thief victim : Nat)
  /-- A step on a join record (R324); `clusters` are those from which it releases when no one agent makes it (R239). -/
  | joinStep (part die : Nat) (agent : AgentId) (join : Addr) (n faulted cancelled : Nat) (clusters : List Nat)
  /-- A continuation (R315): its record once it is read, as a number. -/
  | enqueue (part die : Nat) (addr : Addr) (faulted cancelled : Nat) (record : Option Nat)
  | launchDone (part launch : Nat)
  | discard (agent : AgentId)
  | readmit (agent : AgentId)
  | swap (agent : AgentId)
  | cancelled (part : Nat) (agent : AgentId) (table : Addr) (rank : Nat)
  /-- A discarded member's CANCELs to the others of a table of `n` are to be sent (R398). -/
  | cancels (part table rank n : Nat)
  | jobReady (job : Nat)
  | jobStart (job : Nat)
  | jobUnit (job : Nat)
  | jobDone (job : Nat)
  | mmaGroup (job : Nat)
  | stopAck (core : BitVec 11) (eng : Eng)
  | keySwitch (port : Nat)
  | retrain (port : Nat)
  | arrive (fr : Fragment)
  | request (r : RemoteReq)
  | response (r : RemoteResp)
  | reported (r : Report)
  | inbound (r : Inbound)
  | windowEnd (port : Nat)
  | deliver (core : BitVec 11) (spkg : BitVec 12) (mid : BitVec 24)
  | restore (part launch : Nat)
  | switchTo (part mask : Nat)
  /-- A PREM whose cores have halted switches once every stop is counted, its word left or not (R225, R364). -/
  | switchDue (part mask : Nat) (agent : AgentId) (wave : Nat)
  /-- Words of a replica that a walk is filling are copied (R243, R250); the fill ends (`rest`). -/
  | fill (core : BitVec 11) (part vpn : Nat) (rest : Bool)
  | reserve (part die prio : Nat)
  | remoteTimeout (mid : BitVec 24)
  | midExpiry (spkg : BitVec 12) (mid : BitVec 24)
  | linkDown (port : Nat)
  | retryExpiry (port : Nat) (mid : BitVec 24)
  | vatTimeout (core : BitVec 11) (spkg : BitVec 12) (mid : BitVec 24)
  | keyForget (core : BitVec 11) (spkg : BitVec 12) (mid : BitVec 24)
  | senderLoss (mid : BitVec 24)
  /-- A message's fragments have reached their vat (R172). -/
  | reached (agent : AgentId) (mid : BitVec 24)
  | fenceTimeout (agent : AgentId) (wave : Nat)
  | deadline
  /-- The monitor's firmware ends a context whose trap state is lost (R351). -/
  | endPart (part : Nat)
  deriving DecidableEq, Repr

/-- A replay-buffer entry of a core, or of a die's distributor park buffer (R222, R292, R315). -/
structure Parked where
  ent : Nat
  seq : BitVec 8
  part : Nat
  agent : AgentId
  wave : Nat
  /-- Each parked lane with the address and the aux word of the trap that a refusal makes of it (R223). -/
  lanes : List (Nat × Addr × Word)
  pc : Addr
  /-- The unfinished long-latency word that parked when it was performed (R356). -/
  word : Option Nat
  /-- The parked job, or the parked distributor access, when it is not a fibre's. -/
  job : Option Nat
  again : Option Event
  deriving DecidableEq, Repr

/-- A candling scan of a core that an instruction asked for (R228): the lane that waits, and the result. -/
structure Candle where
  part : Nat
  agent : AgentId
  wave : Nat
  lane : Nat
  result : Option Nat
  /-- The unit that asked has ended: no lane takes the result. -/
  left : Bool
  deriving DecidableEq, Repr

/-- A closed or open vat of a core (R386). -/
structure Vat where
  spkg : BitVec 12
  mid : BitVec 24
  /-- Partition of the destination team. -/
  part : Nat
  agent : AgentId
  rch : BitVec 6
  decoded : Bool
  k : BitVec 5
  m : BitVec 4
  len : BitVec 13
  frags : List (Nat × List (BitVec 8))
  /-- Poisoned 8-byte units of the message (R413). -/
  bad : List Nat
  msg : List (BitVec 8)
  rebuilt : Bool
  body : Option Body
  deriving DecidableEq, Repr

/-- A core (R2, R15, R292, R386, R430), by its logical number. -/
structure Core where
  id : BitVec 11
  halted : Bool
  cyc : DWord
  tlb : List TlbEntry
  /-- Round-robin position of each set (R280). -/
  rr : List (Nat × Nat)
  replay : List Parked
  /-- Uses of each replay-buffer entry (R292). -/
  seqs : List (Nat × Nat)
  /-- The team that holds the matrix engine (R182). -/
  holder : Option AgentId
  /-- The quantisation engine's leader table (R196), and its poisoned entries (R412). -/
  qlead : List (Nat × Word)
  qbad : List Nat
  vats : List Vat
  /-- Keys of closed vats (R386): source package, MID, partition, agent, channel. -/
  closed : List (BitVec 12 × BitVec 24 × Nat × AgentId × BitVec 6)
  /-- Engines whose stop has not been acknowledged in a switch (R364). -/
  awaiting : List Eng
  /-- The core has halted for a switch that is not complete (R364). -/
  switching : Bool
  candle : Option Candle
  /-- The copy job whose chunk came last: the next in turn has a higher number, or the lowest (R343). -/
  turn : Nat
  deriving DecidableEq, Repr, Inhabited

/-- A ring entry (R313). -/
inductive RingEntry where
  /-- Chunks `first, first + stride, …` (`count` of them); `pos` units of the first have started. -/
  | range (launch first stride count pos : Nat)
  | cont (r : UnitRec) (faulted cancelled : Nat) (shape : DWord)
  deriving DecidableEq, Repr, Inhabited

/-- A ring of a die for one partition and priority, with the entries held for room (R313). -/
structure Ring where
  part : Nat
  die : Nat
  prio : Nat
  entries : List RingEntry
  /-- Entries held for room, each with its place in the die's order of reception. -/
  held : List (Nat × RingEntry)
  reserved : Bool
  deriving DecidableEq, Repr

/-- A compute die (R2, R247, R315, R317). -/
structure Die where
  id : Nat
  /-- The partition its cores run now (R225). -/
  part : Option Nat
  /-- Contention predictor counters (R247). -/
  pred : List (Nat × Nat)
  /-- Core of the previous home request of a page (R247): partition, page and core. -/
  prevHome : List (Nat × Nat × Nat)
  park : List Parked
  seqs : List (Nat × Nat)
  /-- Partitions for which it asks no further steal (R317). -/
  quiet : List Nat
  deriving DecidableEq, Repr, Inhabited

/-! ### Partitions -/

/-- A level counter (R96, R219). -/
structure Counter where
  count : Word
  scope : Nat
  tag : BitVec 2
  /-- Levels at which CANC marked it (R218). -/
  marks : List Nat
  deriving DecidableEq, Repr, Inhabited

/-- As after reset (R427): 0, scope CORE. -/
def Counter.zero : Counter := ⟨0, 0, 0, []⟩

/-- A RACK binding (R221, R249). -/
structure Binding where
  counter : Nat
  /-- Index of the next entry, and the page of it at which the engine stands. -/
  next : Nat
  page : Nat
  /-- Highest STEP among the entries carried out. -/
  top : Nat
  deriving DecidableEq, Repr

/-- A launch that LNCH accepted (R217, R326, R416). -/
structure Launch where
  id : Nat
  part : Nat
  code : Addr
  frame : Addr
  stride : Word
  count : Nat
  join : Addr
  slots : Slots
  shapeIdx : Nat
  shape : DWord
  prio : Nat
  lvl : Bool
  yoke : Bool
  rbk : Bool
  /-- Step of the racking schedule awaited before the first pop (R217). -/
  rke : Option Nat
  footprint : List (Nat × Nat)
  /-- Listed pages that are not protected (R416). -/
  bare : List Nat
  /-- Units ended or counted cancelled. -/
  ended : Nat
  /-- Join steps held under rollback: faulted and cancelled counts so far, ends (R324). -/
  heldEnds : Nat
  heldFaulted : Nat
  heldCancelled : Nat
  /-- Clusters on which a unit ran (R239). -/
  clusters : List Nat
  attempt : Nat
  /-- The failing unit and whether it failed by a YOKE mismatch (R418). -/
  failing : Option (AgentId × Bool)
  /-- Snapshots taken (R416): page, frame number. -/
  snaps : List (Nat × Nat)
  /-- CANC has reached it: it yields no unit any more (R325, R420). -/
  cancelled : Bool
  deriving DecidableEq, Repr, Inhabited

/-- A partition (R25, R234, R237, R293). -/
structure Partition where
  id : Nat
  shares : List Share
  crate : Word
  ptroot : Addr
  tshape : Addr
  rackb : Addr
  wthr : Word
  tvbk : Addr
  tside : Addr
  fto : Word
  swapb : Addr
  fltq : Addr
  fltHead : Nat
  fltCount : Nat
  /-- Records behind a full ring (R293). -/
  pending : List FRec
  counters : List (Nat × Counter)
  bindings : List Binding
  /-- Seal refcount slots (R237): slot, page, count. -/
  refs : List (Nat × Nat × Nat)
  /-- Channel entries that the kernels of its images declare (R23). -/
  declared : List ChanDecl
  deriving DecidableEq, Repr, Inhabited

/-! ### The fabric -/

/-- A key slot of a port direction (R391, R399). -/
structure KeySlot where
  st : BitVec 2
  key : BitVec 256
  salt : Word
  ctr : DWord
  thr : DWord
  deriving DecidableEq, Repr, Inhabited

/-- A port (R391 to R394, R399). -/
structure Port where
  id : Nat
  up : Bool
  rtr : Bool
  swc : BitVec 8
  tx : Bool
  tx0 : KeySlot
  tx1 : KeySlot
  rx0 : KeySlot
  rx1 : KeySlot
  lseqTx : BitVec 20
  lseqRx : BitVec 20
  /-- LSEQ of the first marker authenticated, while the old receive slot drains (R392). -/
  drainFrom : Option (BitVec 20)
  retry : List Flit
  /-- The LSEQ from which a resending that had to stop goes on (R393, R394). -/
  resend : Option (BitVec 20)
  /-- Consecutive failures of the awaited LSEQ (R394). -/
  fails : Nat
  /-- Flits that wait for a key or a retraining link. -/
  queue : List Flit
  deriving DecidableEq, Repr, Inhabited

/-- A path list (R380) and the sender's rotation (R381). -/
structure PathList where
  dest : BitVec 12
  ports : List Nat
  rot : Nat
  deriving DecidableEq, Repr

/-- A message sent and not yet reported (R389). -/
structure SentMsg where
  mid : BitVec 24
  dest : BitVec 12
  part : Nat
  agent : AgentId
  acc : BitVec 8
  va : Addr
  recorded : Bool
  /-- A report has come (R389). -/
  heard : Bool
  /-- The engine job that wrote, and the launch of its team (R254, R255). -/
  job : Option Nat
  launch : Option Nat
  deriving DecidableEq, Repr

/-- An outstanding remote load or atomic (R396): its word and address, and its response once it has come. -/
structure Outst where
  mid : BitVec 24
  part : Nat
  agent : AgentId
  wave : Nat
  lane : Nat
  pc : Addr
  va : Addr
  resp : Option RemoteResp
  deriving DecidableEq, Repr

/-- An MPIV presentation (R194). -/
structure PivOffer where
  cluster : Nat
  core : Nat
  agent : AgentId
  wave : Nat
  tag : Word
  mask : Nat
  col : Nat
  /-- Best candidate: magnitude bits, row; its 64 elements. -/
  offer : Option (Word × Nat × List Word)
  /-- Outcome once all have presented. -/
  result : Option (Option (Nat × Nat × List Word) × Bool)
  deriving DecidableEq, Repr

/-- The context of a partition on a core that runs another one (R225, R363, R364). -/
structure SavedCtx where
  part : Nat
  core : BitVec 11
  teams : List Team
  jobs : List Job
  holder : Option AgentId
  qlead : List (Nat × Word)
  qbad : List Nat
  replay : List Parked
  pivs : List PivOffer
  deriving DecidableEq, Repr

/-- A steal answer on its way (R317): partition, thief, victim, and what the victim gives with its priority. -/
structure Steal where
  part : Nat
  thief : Nat
  victim : Nat
  gift : Option (Nat × RingEntry)
  deriving DecidableEq, Repr

/-- The batch that issues now: the fibres of one wave at one PC (R78). -/
structure Issue where
  agent : AgentId
  wave : Nat
  pc : Addr
  /-- Every lane of the batch. -/
  lanes : List Nat
  /-- Lanes whose part of the word is still to be done. -/
  todo : List Nat
  /-- Of these, the lanes whose access to memory comes later: they are only checked now (R12, R304). -/
  later : List Nat
  deriving DecidableEq, Repr

/-- The algorithms that the sideband offers (R403). -/
inductive Algorithm where
  | ecdsaP384 | sha384
  deriving DecidableEq, Repr

/-- What leaves the package (R378, R399, R403): seen only from outside. -/
inductive Output where
  /-- A flit, under a key slot as it stands when the flit is encrypted. -/
  | flit (port : Nat) (fl : Flit) (slot : KeySlot)
  | completion (port : Nat) (ok : Bool) (data : List (BitVec 8))
  | unsupported (port : Nat)
  | spdm (bytes : List (BitVec 8))
  /-- The answer that names the algorithms, its other bytes free. -/
  | algorithms (offered : List Algorithm) (bytes : List (BitVec 8))
  | spdmError
  deriving DecidableEq, Repr

/-- How far the package is (R426, R430): in its reset steps, whose end comes from outside (`Instr.packageReset`); held at a step that
failed; in service; frozen. -/
inductive Power where
  | resetting
  | held (step : Nat)
  | running
  | frozen
  deriving DecidableEq, Repr

/-- A piece of a block that a member of a collective has sent (R200): the receiver's partition and agent, the member table, the
sender's rank, the piece's place in the block, its bytes, and which of its 8-byte units are poisoned (R413). -/
structure Mail where
  part : Nat
  agent : AgentId
  table : Addr
  rank : Nat
  off : Nat
  data : List (BitVec 8)
  bad : List Nat
  /-- It has come from another package (R414). -/
  abroad : Bool
  deriving DecidableEq, Repr

/-- A batch that stands ready and unissued (R319): its wave and PC, the value of its core's CYC when it began to, and
whether a YIELD of it gives way (R84). -/
structure Standing where
  agent : AgentId
  wave : Nat
  pc : Addr
  since : DWord
  gives : Bool
  deriving DecidableEq, Repr

/-- The package. -/
structure State where
  power : Power
  /-- Physical memory: HBM and every SRAM frame (R233). -/
  mem : Memory
  /-- Poisoned units (R412): keys are 8-byte units in SRAM, 32-byte units (named by their first 8) in HBM. -/
  memBad : List Nat
  parts : List Partition
  dies : List Die
  cores : List Core
  teams : List Team
  jobs : List Job
  nextJob : Nat
  moves : List Move
  nextMove : Nat
  /-- Frames the device has taken for replicas, instances, moves and snapshots (R236). -/
  taken : List Nat
  /-- Pages that the device itself has moved away from home (R158, R247, R249). -/
  homes : List Away
  redInsts : List RedInst
  /-- Replicas that walks are filling (R243). -/
  fills : List Fill
  rings : List Ring
  launches : List Launch
  nextLaunch : Nat
  pivs : List PivOffer
  saved : List SavedCtx
  steals : List Steal
  ports : List Port
  paths : List PathList
  pkg : BitVec 12
  mid : BitVec 24
  sent : List SentMsg
  outst : List Outst
  /-- (SPKG, MID) of requests performed (R397). -/
  performed : List (BitVec 12 × BitVec 24)
  /-- Package-scope CSRs (R25). -/
  rdl : Word
  keyPort : BitVec 7
  tvbm : Addr
  lcmap : Addr
  frzcfg : Word
  /-- The logical core map (R229): entry ↦ halfword, where it differs from the identity map built at reset (R426). -/
  coreMap : List (Nat × BitVec 16)
  /-- Measurement slots (R230). -/
  atst : Vector (BitVec 384) 16
  /-- A sideband reset deadline runs (R404). -/
  deadline : Bool
  /-- The power limit is exceeded: issue is throttled (R429). -/
  throttled : Bool
  /-- Cores removed by the monitor's nonvolatile store (R422). -/
  removed : List (BitVec 11)
  /-- Physical cores that CMAP has removed since reset: they stand still until the next one (R430). -/
  stopped : List (BitVec 11)
  /-- AGEM of the physical cores that have a supply offset or have been candled (R421); of any other it holds the margins alone. -/
  agem : List (Nat × Word)
  /-- The model's own counter as reset step 4 read the margins (R426): an argument of the free values. -/
  aged : Nat
  /-- Link keys in the monitor's nonvolatile store (R425). -/
  keys : List LinkKeys
  /-- Pieces of collectives' blocks that have come and are not yet taken (R200). -/
  mail : List Mail
  /-- Which fragments of a cancel have come, by source package and MID (R387, R398). -/
  control : List (BitVec 12 × BitVec 24 × List (BitVec 4))
  /-- The batches that stand ready and unissued (R319). -/
  standing : List Standing
  /-- Events that are due or have come from outside; the step takes them when they are enabled. -/
  agenda : List Event
  /-- The batch that issues now. -/
  cur : Option Issue
  out : List Output
  /-- The model's own counter: the argument of its free values. -/
  tick : Nat
  deriving DecidableEq, Repr

/-- Why the machine stops. -/
inductive Fault where
  /-- An instruction word was to run but no batch issues it; only `exec` called outside `step` answers it. Safe. -/
  | noBatch
  deriving DecidableEq, Repr

/-- Why an instruction is refused. -/
inductive Refusal where
  /-- The instruction has no meaning in the model yet. Safe. -/
  | notModelled (mnemonic : String)
  deriving DecidableEq, Repr

/-- The identity core map that reset step 4 builds with no core removed (R229, R426): entry n names physical
core n with V = 1. Only entries that differ from it are listed in `coreMap`. -/
def mapIdentity (n : Nat) : BitVec 16 :=
  BitVec.ofNat 16 ((n / 160) * 8192 + (n / 16 % 10) * 512 + (n % 16) * 32 + 1)

/-- A compute die as reset leaves it (R427). -/
def Die.reset (d : Nat) : Die := ⟨d, none, [], [], [], [], []⟩

/-- A key slot holding no key. -/
def KeySlot.empty : KeySlot := ⟨0, 0, 0, 0, 0⟩

/-- A port before training (R426 step 5). -/
def Port.reset (p : Nat) : Port :=
  ⟨p, false, false, 0, false, KeySlot.empty, KeySlot.empty, KeySlot.empty, KeySlot.empty, 0, 0, none, [], none, 0, []⟩

/-- A core that nothing has used: the value of a core that `State.cores` does not list (R427). -/
def Core.reset (c : BitVec 11) : Core := ⟨c, false, 0, [], [], [], [], none, [], [], [], [], [], false, none, 0⟩

/-- The package right after reset (R426, R427), in its reset steps: what they find, the boot drive's image with it, comes from
outside (`Instr.packageReset`). Memory is zero and lists nothing; every CSR holds its reset value (R25). -/
def State.reset : State where
  power := .resetting
  mem := []
  memBad := []
  parts := []
  dies := (List.range 8).map Die.reset
  cores := []
  teams := []
  jobs := []
  nextJob := 1
  moves := []
  nextMove := 1
  taken := []
  homes := []
  redInsts := []
  fills := []
  rings := []
  launches := []
  nextLaunch := 1
  pivs := []
  saved := []
  steals := []
  ports := (List.range 72).map Port.reset
  paths := []
  pkg := 0
  mid := 0
  sent := []
  outst := []
  performed := []
  rdl := 100000
  keyPort := 0
  tvbm := 0
  lcmap := 0
  frzcfg := 0
  coreMap := []
  atst := Vector.replicate 16 0
  deadline := false
  throttled := false
  removed := []
  stopped := []
  agem := []
  aged := 0
  keys := []
  mail := []
  control := []
  standing := []
  agenda := []
  cur := none
  out := []
  tick := 0

end Sys2Proof.Machine
end

