-- ==== Sys2Proof/Machine/Access.lean ====
section
/-! DEFINITION. Finding and updating the parts of the state: teams, waves, fibres, cores, partitions, pages' bits. -/

namespace Sys2Proof.Machine

/-! ### Numbers -/

/-- The low `n` bits of a word, sign-extended (R11). -/
def sextN (x : Nat) (n : Nat) : Int := if x % 2 ^ n < 2 ^ (n - 1) then (x % 2 ^ n : Nat) else (x % 2 ^ n : Nat) - 2 ^ n

/-- Bits `hi:lo` of a number. -/
def bits (x lo len : Nat) : Nat := x / 2 ^ lo % 2 ^ len

/-- A number with bits `lo + len − 1 : lo` replaced. -/
def setBits (x lo len v : Nat) : Nat := x - bits x lo len * 2 ^ lo + v % 2 ^ len * 2 ^ lo

/-- Bit `n` of a word. -/
def bitOf (x : Word) (n : Nat) : Bool := x.getLsbD n

/-- A word with one bit set. -/
def oneBit (n : Nat) : Word := BitVec.ofNat 32 (2 ^ n)

/-- The set of bits of a list of lanes. -/
def laneSet : List Nat → Word
  | [] => 0
  | l :: ls => oneBit l ||| laneSet ls

/-- Signed value of a word. -/
def Word.s (x : Word) : Int := x.toInt

/-- Bytes of a number, lowest first. -/
def bytesOfNat : Nat → Nat → List (BitVec 8)
  | 0, _ => []
  | n + 1, x => BitVec.ofNat 8 x :: bytesOfNat n (x / 256)

/-- The number of a list of bytes, lowest first. -/
def natOfBytes : List (BitVec 8) → Nat
  | [] => 0
  | b :: l => b.toNat + 256 * natOfBytes l

/-! ### Agents and cores (R16) -/

/-- The logical core of an agent: die, cluster, core. -/
def coreOf (a : AgentId) : BitVec 11 := a.extractLsb' 5 11
/-- The logical cluster, die included. -/
def clusterOf (c : BitVec 11) : Nat := c.toNat / 16
def dieOf (c : BitVec 11) : Nat := c.toNat / 256
def slotOf (a : AgentId) : Nat := a.toNat % 32
/-- The agent id of a team slot. -/
def agentOf (c : BitVec 11) (slot : Nat) : AgentId := BitVec.ofNat 16 (c.toNat * 32 + slot)
/-- Entry number of a logical core in the core map and its package number (R229, R353): clusters 0–9 only. -/
def coreIndex (c : BitVec 11) : Nat := (c.toNat / 256 * 10 + c.toNat / 16 % 16) * 16 + c.toNat % 16
/-- The logical core of an index. -/
def coreOfIndex (n : Nat) : BitVec 11 := BitVec.ofNat 11 (n / 160 * 256 + n / 16 % 10 * 16 + n % 16)
/-- A core that exists in the numbering: its cluster is 0–9. -/
def coreExists (c : BitVec 11) : Bool := c.toNat / 16 % 16 < 10

/-- The halfword of the logical core map for a core (R229): in memory at LCMAP; while LCMAP is 0, its reset value, in the
store where reset step 4 has built the map (R426). LCMAP is taken as a physical address (DESIGN CHOICE, log 90). -/
def State.mapEntry (s : State) (n : Nat) : BitVec 16 :=
  if s.lcmap ≠ 0 then BitVec.ofNat 16 (s.mem.read (s.lcmap.toNat + 2 * n) 2)
  else match s.coreMap.find? (·.1 == n) with
    | some (_, v) => v
    | none => mapIdentity n

/-- The physical core behind a logical core; none when it is removed (R229), or stands still since a removal (R430). -/
def State.physCore (s : State) (c : BitVec 11) : Option (BitVec 11) :=
  let e := s.mapEntry (coreIndex c)
  if e.getLsbD 0 && !s.stopped.contains (e.extractLsb' 5 11) then some (e.extractLsb' 5 11) else none

/-- A core's record; one that nothing has used is as reset leaves it. -/
def State.core (s : State) (c : BitVec 11) : Core := (s.cores.find? (·.id == c)).getD (Core.reset c)

/-- Writes a core's record. -/
def State.setCore (s : State) (k : Core) : State :=
  if s.cores.any (·.id == k.id) then { s with cores := updFirst (·.id == k.id) (fun _ => k) s.cores }
  else { s with cores := insertBy (·.id.toNat) k s.cores }

def State.updCore (s : State) (c : BitVec 11) (f : Core → Core) : State := s.setCore (f (s.core c))

def State.die (s : State) (d : Nat) : Die := (s.dies.find? (·.id == d)).getD (Die.reset d)
def State.updDie (s : State) (d : Nat) (f : Die → Die) : State := { s with dies := updFirst (·.id == d) f s.dies }
def State.part? (s : State) (p : Nat) : Option Partition := s.parts.find? (·.id == p)
def State.updPart (s : State) (p : Nat) (f : Partition → Partition) : State := { s with parts := updFirst (·.id == p) f s.parts }
def State.team? (s : State) (a : AgentId) : Option Team := s.teams.find? (·.agent == a)
def State.updTeam (s : State) (a : AgentId) (f : Team → Team) : State := { s with teams := updFirst (·.agent == a) f s.teams }
def State.job? (s : State) (j : Nat) : Option Job := s.jobs.find? (·.id == j)
def State.updJob (s : State) (j : Nat) (f : Job → Job) : State := { s with jobs := updFirst (·.id == j) f s.jobs }
def State.launch? (s : State) (l : Nat) : Option Launch := s.launches.find? (·.id == l)
def State.updLaunch (s : State) (l : Nat) (f : Launch → Launch) : State := { s with launches := updFirst (·.id == l) f s.launches }
def State.updPort (s : State) (p : Nat) (f : Port → Port) : State := { s with ports := updFirst (·.id == p) f s.ports }
def State.port? (s : State) (p : Nat) : Option Port := s.ports.find? (·.id == p)
/-- Puts an event on the agenda. -/
def State.push (s : State) (i : Event) : State := { s with agenda := s.agenda ++ [i] }
/-- Appends to what has left the package. -/
def State.emit (s : State) (o : Output) : State := { s with out := s.out ++ [o] }
/-- Advances the counter that free values are applied to. -/
def State.tock (s : State) : State := { s with tick := s.tick + 1 }
/-- Removes the first event of the agenda that equals `i`. -/
def State.unpush (s : State) (i : Event) : State := { s with agenda := s.agenda.erase i }

/-! ### Teams, waves, fibres -/

/-- Fibres of a wave: 32, or 16 visible ones in yoke mode (R15, R82). -/
def Team.width (t : Team) : Nat := if t.work.yoke then 16 else 32
def Team.fibre? (t : Team) (slot : Nat) : Option Fibre := (t.fibres.find? (·.1 == slot)).map (·.2)
def Team.updFibre (t : Team) (slot : Nat) (f : Fibre → Fibre) : Team :=
  { t with fibres := updFirst (·.1 == slot) (fun x => (x.1, f x.2)) t.fibres }
def Team.addFibre (t : Team) (slot : Nat) (f : Fibre) : Team := { t with fibres := insertBy (·.1) (slot, f) t.fibres }
def Team.wave (t : Team) (w : Nat) : Wave := vget t.waves w
def Team.updWave (t : Team) (w : Nat) (f : Wave → Wave) : Team := { t with waves := vset t.waves w (f (vget t.waves w)) }
/-- Slot of a lane of a wave. -/
def Team.slot (t : Team) (w lane : Nat) : Nat := w * t.width + lane
/-- Lanes of a wave that hold live fibres, rising. -/
def Team.liveLanes (t : Team) (w : Nat) : List Nat :=
  (t.fibres.filter (fun x => x.1 / t.width == w)).map (fun x => x.1 % t.width)
/-- The privilege level of a lane's fibre: its wave's (R14), or the team's launch level where SPAWN put it into a wave inside a
handler (R82). -/
def Team.levelAt (t : Team) (w lane : Nat) : Nat := (((t.fibre? (t.slot w lane)).bind (·.own)).getD (t.wave w).level).toNat
/-- Waves that hold a live fibre. -/
def Team.liveWaves (t : Team) : List Nat := (List.range t.nwaves).filter (fun w => !(t.liveLanes w).isEmpty)

def State.fibre? (s : State) (a : AgentId) (w lane : Nat) : Option Fibre :=
  match s.team? a with
  | some t => t.fibre? (t.slot w lane)
  | none => none
def State.updFibre (s : State) (a : AgentId) (w lane : Nat) (f : Fibre → Fibre) : State :=
  s.updTeam a (fun t => t.updFibre (t.slot w lane) f)
def State.wave? (s : State) (a : AgentId) (w : Nat) : Option Wave := (s.team? a).map (·.wave w)
def State.updWave (s : State) (a : AgentId) (w : Nat) (f : Wave → Wave) : State := s.updTeam a (·.updWave w f)

/-- The wave's package number (R353). -/
def waveNumber (a : AgentId) (w : Wave) : Nat := coreIndex (coreOf a) * 32 + w.wslot

/-- A wave as team start leaves it (R23): every register zero, at its launch level. -/
def Wave.start (wslot : Nat) (level : BitVec 2) : Wave where
  wslot := wslot
  level := level
  a := Vector.replicate 8 (0, 0)
  s := Vector.replicate 16 0
  m := Vector.replicate 12 (0, 0)
  tcause := 0
  tepc := 0
  h := none
  d1 := none
  mc := none
  lost := false
  unfinished := []
  stuck := []
  due := []

/-- A fibre as team start leaves it (R23). -/
def Fibre.start (yoke : Bool) (pc : Addr) (base : Nat) : Fibre where
  regs := Regs.zero
  shadow := if yoke then some Regs.zero else none
  pc := pc
  base := base
  sig := Vector.replicate 8 false
  st := .run
  latch := []
  held := []
  jobs := []
  remoteWrites := []
  grp := 0
  own := none

/-- Bytes of the register pool one fibre slot takes (R17). -/
def windowBytes (g f : Nat) : Nat := 4 * g + 8 * f

end Sys2Proof.Machine
end

