-- ==== Sys2Proof/Config.lean ====
section
/-! DEFINITION. The free values: what the manual leaves open. Each is opaque, so nothing can be proved of it but
that it is one value; each is applied to a counter of State (`State.tick`) or to the operands it depends on. -/

namespace Sys2Proof.Config

/-- Which of `n` events that may come next does come next (R6, R78, R205, R260: no order is given). -/
opaque choose : Nat → Nat → Nat

/-- How many cycles a core counts in a step (R25 CYC; timing is no part of the model, and no two cores share a time base,
R322): by the model's counter and the core. -/
opaque stepCycles : Nat → Nat → Nat

/-- How many lanes of a word that accesses memory perform their access before anything else comes between (R304, R305, R307,
R309: the order among lanes and other events is open). -/
opaque lanesNow : Nat → Nat

/-- Which 8-byte words of a page a fill of a replica or a PUB copies at once, the others at instants of their own (R170, R243, R250):
by the model's counter and the word. -/
opaque partsNow : Nat → Nat → Bool

/-- What is written at SWAPB when context goes there: offsets and bytes (R224, R363, R364: no layout is given). -/
opaque swapImage : Nat → List (Nat × BitVec 8)

/-- Whether a word with lookahead is performed late (R356: it may find its trap only when performed). -/
opaque performsLate : Nat → Bool

/-- Which free frame the device takes where the manual says only "a free frame" (R158, R237, R244, R249). -/
opaque frameChoice : Nat → Nat

/-- The ageing readings of a core, path-delay slack and voltage margin (R421, R426 step 4): by the model's counter and the
physical core. -/
opaque margins : Nat → Nat → BitVec 16

/-- The bits of a register, cell or memory unit after an uncorrected error (R412, R414: "the bits as read"). -/
opaque erroredBits : Nat → QWord

/-- Bytes of a cancelled collective's write footprint (R200: "unspecified values"). -/
opaque cancelledByte : Nat → BitVec 8

/-- Path of fragments through a path list when the list is the firmware's choice (R380): port of entry i. -/
opaque pathPort : Nat → Nat → Nat

/-- Header fields of a message that carries an access, a response, a report or a cancel (R378): the destination agent, the
receive channel and the length, where the spec gives none; by the model's counter, MID and field. -/
opaque headerField : Nat → Nat → Nat → Nat

/-- The payload bytes of a flit whose content the spec lays out nowhere (R378: accesses, responses, reports, cancels, NAKs): by
MID and place. -/
opaque bodyByte : Nat → Nat → BitVec 8

/-- Bytes of an SPDM answer but those that the spec fixes (R403: no format given). -/
opaque spdmBytes : Nat → List (BitVec 8)

/-- The certificate chain in the monitor's nonvolatile store (R425): one value, which no reset changes. -/
opaque certificate : List (BitVec 8)

/-- A port's requester table stays with the monitor's firmware (R402): the partition and I/O agent of a port and requester id. -/
opaque ioAgent : Nat → Nat → Option (Nat × AgentId)

/-- Result of a correctly rounded function where the model's enclosure loop does not decide (never met below
the precision bound; R126). -/
opaque undecidedRound : Nat → Nat

end Sys2Proof.Config
end

