-- ==== Sys2Proof/Machine/Float.lean ====
section
/-! DEFINITION. Number formats and exact arithmetic (R53 to R76). A value is exact: NaN, an infinity, or
(−1)^neg × m × 2^e. Operations give the exact result; one rounding follows, as R56 says. A quotient, a root or a
transcendental value that no dyadic number equals is given as a dyadic number that lies between the same two
neighbours of every rounding grid it is rounded to, so its rounding is that of the exact value. -/

namespace Sys2Proof.Machine

/-- An exact extended real, or NaN. A zero keeps its sign. -/
inductive FV where
  | nan
  | inf (neg : Bool)
  | fin (neg : Bool) (m : Nat) (e : Int)
  deriving DecidableEq, Repr, Inhabited

/-- How a format ends (R54): with infinities and NaNs, with one NaN code (E4M3), with neither (E2M1). -/
inductive Top where
  | ieee | nan1 | none
  deriving DecidableEq, Repr

/-- A floating format: exponent and fraction width, and how it ends. -/
structure Fmt where
  eb : Nat
  fb : Nat
  top : Top
  deriving DecidableEq, Repr

/-- The formats of R54. -/
def fmtF64 : Fmt := ⟨11, 52, .ieee⟩
def fmtF32 : Fmt := ⟨8, 23, .ieee⟩
def fmtF16 : Fmt := ⟨5, 10, .ieee⟩
def fmtBF16 : Fmt := ⟨8, 7, .ieee⟩
def fmtE5M2 : Fmt := ⟨5, 2, .ieee⟩
def fmtE4M3 : Fmt := ⟨4, 3, .nan1⟩
def fmtE2M1 : Fmt := ⟨2, 1, .none⟩

/-- The exponent bias. -/
def Fmt.bias (f : Fmt) : Int := if f.eb = 2 then 1 else 2 ^ (f.eb - 1) - 1

/-- The quantum of the subnormals. -/
def Fmt.qmin (f : Fmt) : Int := 1 - f.bias - f.fb

/-- The magnitude code of the largest finite value. -/
def Fmt.maxCode (f : Fmt) : Nat :=
  match f.top with
  | .ieee => (2 ^ f.eb - 1) * 2 ^ f.fb - 1
  | .nan1 => 2 ^ (f.eb + f.fb) - 2
  | .none => 2 ^ (f.eb + f.fb) - 1

/-- The sign bit's weight. -/
def Fmt.signBit (f : Fmt) : Nat := 2 ^ (f.eb + f.fb)

/-- The canonical NaN (R54, R55); E2M1, which has none, gives +0 (R60). -/
def Fmt.nanCode (f : Fmt) : Nat :=
  match f.top with
  | .ieee => if f.fb = 2 then 0x7F else (2 ^ f.eb - 1) * 2 ^ f.fb + 2 ^ (f.fb - 1)
  | .nan1 => 2 ^ (f.eb + f.fb) - 1
  | .none => 0

/-- A code with a sign. -/
def Fmt.withSign (f : Fmt) (neg : Bool) (mag : Nat) : Nat := if neg then f.signBit + mag else mag

/-- The code of an infinity of a format that has one. -/
def Fmt.infCode (f : Fmt) (neg : Bool) : Nat := f.withSign neg (f.maxCode + 1)

/-- The value of a code (R54). -/
def Fmt.value (f : Fmt) (bits : Nat) : FV :=
  let neg := bits / f.signBit % 2 == 1
  let e := bits / 2 ^ f.fb % 2 ^ f.eb
  let fr := bits % 2 ^ f.fb
  if f.top = .ieee && e = 2 ^ f.eb - 1 then (if fr = 0 then .inf neg else .nan)
  else if f.top = .nan1 && e = 2 ^ f.eb - 1 && fr = 2 ^ f.fb - 1 then .nan
  else if e = 0 then .fin neg fr f.qmin
  else .fin neg (2 ^ f.fb + fr) (f.qmin + (e : Int) - 1)

/-- Rounding modes (R48 layout F). -/
inductive Rm where
  | rne | rtz | rup | rdn
  deriving DecidableEq, Repr

/-- The mode of an RM field. -/
def Rm.ofBits (b : BitVec 2) : Rm :=
  match b.toNat with
  | 0 => .rne | 1 => .rtz | 2 => .rup | _ => .rdn

/-- Exception flags, numbered as FENV's sticky bits (R57): NX 0, UF 1, OF 2, DZ 3, NV 4. -/
abbrev Fl := BitVec 5
def flNX : Fl := 1
def flUF : Fl := 2
def flOF : Fl := 4
def flDZ : Fl := 8
def flNV : Fl := 16

/-- The multiple of 2^q that m × 2^e of the given sign rounds to, as a magnitude, and whether it is inexact. -/
def roundAt (rm : Rm) (neg : Bool) (m : Nat) (e q : Int) : Nat × Bool :=
  if q ≤ e then (m * 2 ^ (e - q).toNat, false)
  else
    let sh := (q - e).toNat
    let k := m / 2 ^ sh
    let r := m % 2 ^ sh
    let up := match rm with
      | .rne => decide (2 ^ (sh - 1) < r) || (r == 2 ^ (sh - 1) && k % 2 == 1)
      | .rtz => false
      | .rup => r != 0 && !neg
      | .rdn => r != 0 && neg
    (if up then k + 1 else k, r != 0)

/-- Whether overflow in the mode gives the infinity (R56). -/
def ovfInf (rm : Rm) (neg : Bool) : Bool :=
  match rm with
  | .rne => true
  | .rtz => false
  | .rup => !neg
  | .rdn => neg

/-- A rounded code and its flags. -/
structure Rnd where
  code : Nat
  fl : Fl
  deriving DecidableEq, Repr

/-- Overflow (R56, R60). -/
def overflow (f : Fmt) (rm : Rm) (sat neg : Bool) : Rnd :=
  ⟨match f.top with
    | .ieee => if !sat && ovfInf rm neg then f.infCode neg else f.withSign neg f.maxCode
    | .nan1 => if sat then f.withSign neg f.maxCode else f.nanCode
    | .none => f.withSign neg f.maxCode, flOF ||| flNX⟩

/-- Rounds a nonzero magnitude m × 2^e (R56). Magnitudes far beyond the range are cut short to one that rounds the
same way, so no exponent makes the arithmetic large. -/
def roundMag (f : Fmt) (rm : Rm) (sat neg : Bool) (m : Nat) (e : Int) : Rnd :=
  let top := e + (m.log2 : Int)
  if top > f.bias + 2 then overflow f rm sat neg
  else
    let small := top < f.qmin - 2
    let m := if small then 1 else m
    let e := if small then f.qmin - 3 else e
    let top := if small then f.qmin - 3 else top
    let qu := top - f.fb
    let q := if qu < f.qmin then f.qmin else qu
    let (k, inx) := roundAt rm neg m e q
    let code := (q - f.qmin).toNat * 2 ^ f.fb + k
    if f.maxCode < code then overflow f rm sat neg
    else
      let (ku, _) := roundAt rm neg m e qu
      let tiny := qu < f.qmin && (qu < f.qmin - 1 || ku < 2 ^ (f.fb + 1))
      ⟨f.withSign neg code, (if inx then flNX else 0) ||| (if inx && tiny then flUF else 0)⟩

/-- round_f32 and round_f64, and the conversions to a floating target (R56, R60). -/
def roundTo (f : Fmt) (rm : Rm) (sat : Bool) : FV → Rnd
  | .nan => ⟨f.nanCode, if f.top = .none then flNV else 0⟩
  | .inf neg =>
    match f.top with
    | .ieee => ⟨if sat then f.withSign neg f.maxCode else f.infCode neg, 0⟩
    | .nan1 => ⟨if sat then f.withSign neg f.maxCode else f.nanCode, flNV⟩
    | .none => ⟨f.withSign neg f.maxCode, flNV⟩
  | .fin neg m e => if m = 0 then ⟨f.withSign neg 0, 0⟩ else roundMag f rm sat neg m e

/-! ### Exact operations -/

/-- An exact result and the flags that the operation itself raises. -/
structure Ex where
  v : FV
  fl : Fl
  deriving DecidableEq, Repr

/-- The invalid result. -/
def Ex.invalid : Ex := ⟨.nan, flNV⟩

/-- A result that raises nothing of its own. -/
def Ex.plain (v : FV) : Ex := ⟨v, 0⟩

def FV.isNan : FV → Bool | .nan => true | _ => false
def FV.isInf : FV → Bool | .inf _ => true | _ => false
def FV.isZero : FV → Bool | .fin _ m _ => m == 0 | _ => false
def FV.neg : FV → Bool | .nan => false | .inf s => s | .fin s _ _ => s
def FV.negate : FV → FV | .nan => .nan | .inf s => .inf !s | .fin s m e => .fin (!s) m e
def FV.abs : FV → FV | .nan => .nan | .inf _ => .inf false | .fin _ m e => .fin false m e

/-- An integer as an exact value; zero is +0. -/
def FV.ofInt (n : Int) : FV := .fin (decide (n < 0)) n.natAbs 0

/-- The signed integer m × 2^(e − q) for q ≤ e. -/
def scaled (neg : Bool) (m : Nat) (e q : Int) : Int :=
  let x : Int := (m * 2 ^ (e - q).toNat : Nat)
  if neg then -x else x

/-- a + b, with the zero rule of R56. -/
def addX (rm : Rm) (a b : FV) : Ex :=
  match a, b with
  | .nan, _ => .plain .nan
  | _, .nan => .plain .nan
  | .inf s, .inf t => if s = t then .plain (.inf s) else .invalid
  | .inf s, _ => .plain (.inf s)
  | _, .inf t => .plain (.inf t)
  | .fin s m e, .fin t n d =>
    if m = 0 && n = 0 then .plain (.fin (if s = t then s else rm == .rdn) 0 0)
    else if m = 0 then .plain (.fin t n d)
    else if n = 0 then .plain (.fin s m e)
    else
      let q := if e ≤ d then e else d
      let x := scaled s m e q + scaled t n d q
      if x = 0 then .plain (.fin (rm == .rdn) 0 0) else .plain (.fin (decide (x < 0)) x.natAbs q)

/-- a × b. -/
def mulX (a b : FV) : Ex :=
  match a, b with
  | .nan, _ => .plain .nan
  | _, .nan => .plain .nan
  | .inf s, .inf t => .plain (.inf (s != t))
  | .inf s, .fin t n _ => if n = 0 then .invalid else .plain (.inf (s != t))
  | .fin s m _, .inf t => if m = 0 then .invalid else .plain (.inf (s != t))
  | .fin s m e, .fin t n d => .plain (.fin (s != t) (m * n) (e + d))

/-- a × b + d with one rounding to follow (R126). -/
def fmaX (rm : Rm) (a b d : FV) : Ex :=
  if (a.isZero && b.isInf) || (a.isInf && b.isZero) then .invalid else addX rm (mulX a b).v d

/-- A positive quotient m ÷ n as a dyadic number that rounds as the quotient does: its 70 or more leading bits,
then one bit that says the rest is not zero. -/
def divMag (m n : Nat) : Nat × Int :=
  let k := 70 + n.log2 - m.log2
  let q := m * 2 ^ k / n
  if m * 2 ^ k % n = 0 then (q, -(k : Int)) else (2 * q + 1, -(k : Int) - 1)

/-- a ÷ b. -/
def divX (a b : FV) : Ex :=
  match a, b with
  | .nan, _ => .plain .nan
  | _, .nan => .plain .nan
  | .inf _, .inf _ => .invalid
  | .inf s, .fin t _ _ => .plain (.inf (s != t))
  | .fin s _ _, .inf t => .plain (.fin (s != t) 0 0)
  | .fin s m e, .fin t n d =>
    if n = 0 then (if m = 0 then .invalid else ⟨.inf (s != t), flDZ⟩)
    else if m = 0 then .plain (.fin (s != t) 0 0)
    else
      let (q, k) := divMag m n
      .plain (.fin (s != t) q (k + e - d))

/-- Bits of an integer square root, from bit `n − 1` down. -/
def isqrtAux (m : Nat) : Nat → Nat → Nat
  | 0, r => r
  | n + 1, r => isqrtAux m n (if (r + 2 ^ n) * (r + 2 ^ n) ≤ m then r + 2 ^ n else r)

/-- ⌊√m⌋. -/
def isqrt (m : Nat) : Nat := isqrtAux m (m.log2 / 2 + 1) 0

/-- √(m × 2^e) for m > 0, as `divMag` gives a quotient. -/
def sqrtMag (m : Nat) (e : Int) : Nat × Int :=
  let k := 142 - m.log2
  let k := if (e - k) % 2 = 0 then k else k + 1
  let m := m * 2 ^ k
  let e := e - k
  let r := isqrt m
  if r * r = m then (r, e / 2) else (2 * r + 1, e / 2 - 1)

/-- √a. -/
def sqrtX (a : FV) : Ex :=
  match a with
  | .nan => .plain .nan
  | .inf s => if s then .invalid else .plain (.inf false)
  | .fin s m e =>
    if m = 0 then .plain (.fin s 0 0) else if s then .invalid
    else let (r, k) := sqrtMag m e; .plain (.fin false r k)

/-- 1 ÷ √(m × 2^e) for m > 0, e even after adjustment. -/
def rsqrtMag (m : Nat) (e : Int) : Nat × Int :=
  let odd := e % 2 ≠ 0
  let m := if odd then 2 * m else m
  let e := if odd then e - 1 else e
  let k := 74 + m.log2
  let r := isqrt (2 ^ (2 * k) / m)
  if r * r * m = 2 ^ (2 * k) then (r, -(k : Int) - e / 2) else (2 * r + 1, -(k : Int) - e / 2 - 1)

/-- 1 ÷ √a. -/
def rsqrtX (a : FV) : Ex :=
  match a with
  | .nan => .plain .nan
  | .inf s => if s then .invalid else .plain (.fin false 0 0)
  | .fin s m e =>
    if m = 0 then ⟨.inf s, flDZ⟩ else if s then .invalid
    else let (r, k) := rsqrtMag m e; .plain (.fin false r k)

/-- a rounded to an integer, no flag (R126 FRND). -/
def rndX (rm : Rm) (a : FV) : FV :=
  match a with
  | .fin s m e => if 0 ≤ e then a else .fin s (roundAt rm s m e 0).1 0
  | _ => a

/-- a × 2^n (R126 FSCL). -/
def sclX (a : FV) (n : Int) : FV :=
  match a with
  | .fin s m e => if m = 0 then a else .fin s m (e + n)
  | _ => a

/-- Order of two numbers as extended reals, zeros equal: −1, 0 or 1. -/
def FV.cmp (a b : FV) : Int :=
  match a, b with
  | .inf s, .inf t => if s = t then 0 else if s then -1 else 1
  | .inf s, _ => if s then -1 else 1
  | _, .inf t => if t then 1 else -1
  | .fin s m e, .fin t n d =>
    let q := if e ≤ d then e else d
    let x := scaled s m e q - scaled t n d q
    if x < 0 then -1 else if x = 0 then 0 else 1
  | _, _ => 0

def FV.lt (a b : FV) : Bool := a.cmp b == -1
def FV.le (a b : FV) : Bool := a.cmp b != 1
def FV.eq (a b : FV) : Bool := a.cmp b == 0

/-- minimumNumber orders −0 below +0 (R127). -/
def FV.below (a b : FV) : Bool := a.lt b || (a.eq b && a.neg && !b.neg)

/-- An integer result of FTOI and of conversions to integers (R61): the bits' integer and the flags. -/
def toIntX (rm : Rm) (lo hi : Int) (a : FV) : Int × Fl :=
  match a with
  | .nan => (0, flNV)
  | .inf s => (if s then lo else hi, flNV)
  | .fin s m e =>
    let big : Bool := decide (m ≠ 0) && decide (e + m.log2 > 40)
    let (k, inx) := if big then (2 ^ 41, false) else if m ≠ 0 && e + m.log2 < -3 then roundAt rm s 1 (-3) 0 else roundAt rm s m e 0
    let x : Int := if s then -(k : Int) else k
    if x < lo then (lo, flNV) else if hi < x then (hi, flNV) else (x, if inx then flNX else 0)

/-! ### Group sums (R74) -/

/-- ⌊p ÷ 2^q⌋ of a finite value. -/
def floorAt (s : Bool) (m : Nat) (e q : Int) : Int :=
  if q ≤ e then scaled s m e q
  else
    let d := 2 ^ (q - e).toNat
    if s then -(((m + d - 1) / d : Nat) : Int) else ((m / d : Nat) : Int)

/-- The products of a group: a zero activation gives 0 whatever the weight. -/
def prods (ps : List (FV × FV)) : List Ex :=
  ps.map fun p => if p.1.isZero then .plain (.fin false 0 0) else mulX p.1 p.2

/-- The group sum s of R74 before its rounding, and whether it is NaN through 0 × ∞ or opposite infinities (R135).
`scale` is sa + sb, none for a NaN scale. -/
def groupSum (ps : List (FV × FV)) (scale : Option Int) : Ex :=
  if ps.all (·.1.isZero) then .plain (.fin false 0 0)
  else match scale with
    | none => .plain .nan
    | some sc =>
      let xs := prods ps
      let bad := xs.any (fun x => x.fl != 0) || (xs.any (·.v == .inf false) && xs.any (·.v == .inf true))
      if bad then .invalid
      else if xs.any (·.v.isNan) then .plain .nan
      else match xs.find? (·.v.isInf) with
        | some x => .plain x.v
        | none =>
          let mag (x : Ex) : Option Int := match x.v with
            | .fin _ m e => if m = 0 then none else some (e + m.log2)
            | _ => none
          match (xs.filterMap mag).foldl (fun (o : Option Int) x => match o with | none => some x | some y => some (max x y)) none with
          | none => .plain (.fin false 0 0)
          | some e =>
            let q := e - 40
            let t := xs.foldl (fun (acc : Int) x => match x.v with | .fin s m e => acc + floorAt s m e q | _ => acc) 0
            .plain (.fin (decide (t < 0)) t.natAbs (q + sc))

/-- z + s, both roundings in RNE, as R74 and R76 compute an F32 element; the flags are FDOT's. -/
def accumulate (z : Nat) (s : Ex) : Rnd :=
  let r := roundTo fmtF32 .rne false s.v
  let x := addX .rne (fmtF32.value z) (fmtF32.value r.code)
  let y := roundTo fmtF32 .rne false x.v
  ⟨y.code, s.fl ||| r.fl ||| x.fl ||| y.fl⟩

/-! ### Shared scales and VQ2 (R62 to R66) -/

/-- The exponent of an E8M0 scale code; none for NaN. -/
def scaleExp (c : Nat) : Option Int := if c = 255 then none else some ((c : Int) - 127)

/-- The weights of a VQ2 index, doubled, so that they are integers (R64). -/
def decodeVq2 (v leader : Nat) : List Int :=
  let s := fun j => v / 2 ^ (j + 1) % 2
  let neg := (List.range 7).foldl (fun n j => n + s j) 0
  (List.range 8).map fun j =>
    let m : Int := leader / 2 ^ (3 * j) % 8
    let sg := if j = 7 then neg % 2 else s j
    (if sg = 1 then -m else m) + (v % 2 : Nat)

/-- The L4 codes of an index (R65). -/
def l4Codes (v leader : Nat) : List (BitVec 4) := (decodeVq2 v leader).map (BitVec.ofInt 4)

/-- A 4-bit L4 code's value (R65). -/
def l4Value (c : BitVec 4) : FV :=
  let n := c.toInt
  .fin (decide (n < 0)) n.natAbs (-1)

/-! ### Packed tags (R19, R133) -/

/-- Elements of a tag, their width in bits and their format; integers have none. -/
def tagElems (t : BitVec 4) : Option (Nat × Nat × Option Fmt) :=
  match t.toNat with
  | 1 => some (1, 64, some fmtF64)
  | 2 => some (1, 32, some fmtF32)
  | 5 => some (4, 16, some fmtBF16)
  | 6 => some (4, 16, some fmtF16)
  | 7 => some (8, 8, some fmtE4M3)
  | 8 => some (8, 8, some fmtE5M2)
  | 9 => some (16, 4, some fmtE2M1)
  | 10 => some (8, 8, none)
  | 11 => some (2, 32, none)
  | _ => none

/-- Bits `w × k + w − 1 : w × k` of a register. -/
def elemBits (x : Nat) (w k : Nat) : Nat := x / 2 ^ (w * k) % 2 ^ w

/-- A pattern of `w` bits as a signed integer. -/
def signed (w x : Nat) : Int := if x % 2 ^ w < 2 ^ (w - 1) then (x % 2 ^ w : Nat) else (x % 2 ^ w : Nat) - 2 ^ w

/-- The value of element k of a register with the given layout. -/
def elemValue (x : Nat) (w : Nat) (f : Option Fmt) (k : Nat) : FV :=
  match f with
  | some f => f.value (elemBits x w k)
  | none => FV.ofInt (signed w (elemBits x w k))

/-- convert of R60 and R61 to an element of `w` bits: its bits and flags. -/
def convertElem (w : Nat) (f : Option Fmt) (rm : Rm) (sat : Bool) (v : FV) : Rnd :=
  match f with
  | some f => roundTo f rm sat v
  | none =>
    let (n, fl) := toIntX rm (-(2 ^ (w - 1))) (2 ^ (w - 1) - 1) v
    ⟨(BitVec.ofInt w n).toNat, fl⟩

/-- The elements of a packed register as exact values. -/
def elemsOf (x : Nat) (t : BitVec 4) : List FV :=
  match tagElems t with
  | some (n, w, f) => (List.range n).map (elemValue x w f)
  | none => []

/-! ### Block quantisation (R62, R66) -/

/-- ⌊log₂ |x|⌋ of a nonzero finite value. -/
def FV.log2 : FV → Int
  | .fin _ m e => e + m.log2
  | _ => 0

/-- The scale code of a block for a target with largest power of two 2^emax; none of the elements matter where the
answer's second part is false. -/
def blockScale (emax : Int) (xs : List FV) : Nat × Bool :=
  if xs.any (fun x => x.isNan || x.isInf) then (255, false)
  else if xs.all (·.isZero) then (0, false)
  else
    let big := (xs.filter (fun x => !x.isZero)).foldl (fun (a : Int) x => max a x.log2) (-2000)
    let sh := max (-127) (min 127 (big - emax))
    ((sh + 127).toNat, true)

end Sys2Proof.Machine
end

