-- ==== Sys2Proof/Machine/Paging.lean ====
section
/-! DEFINITION. Physical memory and poison (R233, R412, R413), page table entries, the walk and the translation
caches (R275 to R282), frames and replicas (R234 to R237), the mode checks (R146, R149, R150), REDUCE instances
(R238 to R241), HALO replicas (R242, R243) and atomic placement (R247). -/

namespace Sys2Proof.Machine

/-! ### Physical memory -/

/-- What a frame number names (R233); units are numbered physically. -/
inductive Loc where
  | hbm
  | die (d : Nat)
  | cluster (d c : Nat)
  | near (d c k : Nat)
  | hole
  deriving DecidableEq, Repr

/-- The physical map (R233). -/
def frameLoc (f : Nat) : Loc :=
  if f < 2 ^ 27 then .hbm
  else if f < 2 ^ 39 then .hole
  else
    let d := (f - 2 ^ 39) / 2 ^ 20
    let r := (f - 2 ^ 39) % 2 ^ 20
    if 8 ≤ d then .hole
    else if r < 0x4000 then .die d
    else if 0x10000 ≤ r && r < 0x1A000 then .cluster d ((r - 0x10000) / 0x1000)
    else if 0x20000 ≤ r && r < 0x34000 && r % 0x200 < 0x180 then
      .near d ((r - 0x20000) / 0x200 / 16) ((r - 0x20000) / 0x200 % 16)
    else .hole

/-- The LEVEL of a place; none for a reserved address. -/
def Loc.level : Loc → Option Nat
  | .hbm => some 0 | .die _ => some 1 | .cluster _ _ => some 2 | .near _ _ _ => some 3 | .hole => none

/-- The CHKI bit of poison read there (R414). -/
def chkiOf (pa : Nat) : Word := if pa < 2 ^ 39 then 1 else 2

/-- Bytes of the ECC unit that holds an address (R412): 32 in HBM, 8 in SRAM. -/
def unitLen (pa : Nat) : Nat := if pa < 2 ^ 39 then 32 else 8

/-- Whether any of `n` bytes at `pa` lies in a poisoned unit. -/
def State.poisoned (s : State) (pa n : Nat) : Bool := s.memBad.any (fun u => u < pa + n && pa < u + unitLen u)

/-- Reads `n` bytes of physical memory, little-endian. -/
def State.readP (s : State) (pa n : Nat) : Nat := s.mem.read pa n

/-- Writes `n` bytes; a unit wholly covered loses its poison (R413). -/
def State.writeP (s : State) (pa n v : Nat) : State :=
  { s with mem := s.mem.write pa n v, memBad := s.memBad.filter (fun u => !(pa ≤ u && u + unitLen u ≤ pa + n)) }

/-- Writes a list of bytes. -/
def State.writePBytes (s : State) (pa : Nat) (l : List (BitVec 8)) : State :=
  { s with mem := s.mem.writeBytes pa l,
           memBad := s.memBad.filter (fun u => !(pa ≤ u && u + unitLen u ≤ pa + l.length)) }

/-- Poisons the unit that holds an address. -/
def State.poison (s : State) (pa : Nat) : State :=
  let u := pa / unitLen pa * unitLen pa
  if s.memBad.contains u then s else { s with memBad := u :: s.memBad }

/-- The 8-byte words of a range that are poisoned, as offsets. -/
def State.badWords (s : State) (pa n : Nat) : List Nat :=
  ((List.range (n / 8)).map (· * 8)).filter (fun o => s.poisoned (pa + o) 8)

/-- Copies a 4 KiB frame, poison included (R413). -/
def State.copyPage (s : State) (src dst : Nat) : State :=
  let page := s.mem.filter (fun c => src ≤ c.1 && c.1 < src + 4096)
  let rest := s.mem.filter (fun c => !(dst ≤ c.1 && c.1 < dst + 4096))
  let bad := if s.memBad.any (fun u => src ≤ u && u < src + 4096) then s.badWords src 4096 else []
  let s := { s with mem := page.foldl (fun m c => spSet 0 m (c.1 - src + dst) c.2) rest,
                    memBad := s.memBad.filter (fun u => !(dst ≤ u && u < dst + 4096)) }
  bad.foldl (fun s o => s.poison (dst + o)) s

/-! ### Page table entries (R275) -/

def lfV (q : QWord) : Bool := q.getLsbD 0
def lfMode (q : QWord) : Nat := (q.extractLsb' 1 3).toNat
def lfScope (q : QWord) : Nat := (q.extractLsb' 4 3).toNat
def lfLevel (q : QWord) : Nat := (q.extractLsb' 7 2).toNat
def lfM (q : QWord) : Bool := q.getLsbD 9
def lfK (q : QWord) : Bool := q.getLsbD 10
def lfC (q : QWord) : Bool := q.getLsbD 11
def lfAux (q : QWord) : Nat := (q.extractLsb' 12 4).toNat
def lfOwner (q : QWord) : AgentId := q.extractLsb' 16 16
def lfGen (q : QWord) : BitVec 16 := q.extractLsb' 32 16
def lfFrame (q : QWord) : Nat := (q.extractLsb' 48 40).toNat
def lfAuxIdx (q : QWord) : Nat := (q.extractLsb' 88 12).toNat
def lfPkg (q : QWord) : BitVec 12 := q.extractLsb' 100 12

/-- An entry with one field replaced. -/
def lfSet (q : QWord) (lo len v : Nat) : QWord := BitVec.ofNat 128 (setBits q.toNat lo len v)

/-- GEN + 1 (R284). -/
def lfBump (q : QWord) : QWord := lfSet q 32 16 ((lfGen q).toNat + 1)

/-- Page modes (R275). -/
def mOwned : Nat := 0
def mSealed : Nat := 1
def mAtomic : Nat := 2
def mReduce : Nat := 3
def mHalo : Nat := 4
def mStream : Nat := 5
def mPtab : Nat := 6
def mCode : Nat := 7

/-! ### A partition's frames (R234) -/

/-- Frames per step: 64 KiB of near SRAM, 1 MiB of cluster and die SRAM (R234); HBM shares are counted in 1 MiB
(DESIGN CHOICE, log 8). -/
def stepFrames : ShareKind → Nat
  | .scratch | .near => 16
  | _ => 256

/-- The share kind, unit number and frame number within the unit of a place. -/
def locShare (f : Nat) : Option (ShareKind × Nat × Nat) :=
  match frameLoc f with
  | .hbm => some (.hbm, 0, f)
  | .die d => some (.die, d, f % 2 ^ 20)
  | .cluster d c => some (.cluster, d * 10 + c, f % 0x1000)
  | .near d c k => some (.near, (d * 10 + c) * 16 + k, f % 0x200)
  | .hole => none

/-- Whether a share covers step `st` of a unit. -/
def shareCovers (h : Share) (k : ShareKind) (unit st : Nat) : Bool :=
  h.kind == k && (match h.unit with | none => true | some u => u == unit) && h.lo ≤ st && st < h.lo + h.n

/-- A frame that a leaf or table entry of the partition may name (R234, R276): any HBM frame, or one in a frame step
of the partition. -/
def Partition.mayName (p : Partition) (f : Nat) : Bool :=
  match locShare f with
  | none => false
  | some (k, u, n) => k == .hbm || p.shares.any (fun h => shareCovers h k u (n / stepFrames k))

/-! ### Halo descriptors (R242) -/

/-- A strip: neighbour, first row, rows, first byte, bytes. -/
structure Strip where
  nbr : AgentId
  row : Nat
  rows : Nat
  col : Nat
  cols : Nat
  deriving DecidableEq, Repr

/-- Scope region (R146). The region of scope PACKAGE is the package named by PKG. -/
def inRegion (pkg : BitVec 12) (q : QWord) (a : AgentId) : Bool :=
  let o := lfOwner q
  match lfScope q with
  | 0 => coreOf a == coreOf o
  | 1 => clusterOf (coreOf a) == clusterOf (coreOf o)
  | 2 => dieOf (coreOf a) == dieOf (coreOf o)
  | 3 => lfPkg q == 0xFFF || lfPkg q == pkg
  | _ => true

/-- The physical address of the descriptor that a HALO leaf names (R242). -/
def haloDesc (p : Partition) (q : QWord) : Nat := p.ptroot.toNat / 4096 * 4096 + 0x1000 + 64 * (lfAux q * 4096 + lfAuxIdx q)

/-- Valid strips of a descriptor; none when the descriptor is refused (R242). -/
def haloStrips (s : State) (p : Partition) (q : QWord) : Option (Nat × List Strip) :=
  let base := haloDesc p q
  let hdr := s.readP base 8
  let rowl := bits hdr 0 4
  let nstr := bits hdr 4 3
  let words := (List.range 7).map (fun j => (j, s.readP (base + 8 * j + 8) 8))
  let strip (w : Nat) : Strip :=
    ⟨BitVec.ofNat 16 (bits w 48 16), bits w 39 9, bits w 30 9 + 1, bits w 18 12, bits w 6 12 + 1⟩
  let okWord (jw : Nat × Nat) : Bool :=
    let w := jw.2
    let t := strip w
    if nstr ≤ jw.1 then w == 0
    else if w % 2 == 0 then w == 0
    else bits w 1 5 == 0 && t.col % 8 == 0 && t.cols % 8 == 0 && t.col + t.cols ≤ 2 ^ rowl &&
      t.row + t.rows ≤ 2 ^ (12 - rowl) && inRegion s.pkg q t.nbr
  if rowl < 3 || 12 < rowl || bits hdr 7 57 ≠ 0 || !words.all okWord then none
  else some (rowl, (words.filter (fun jw => jw.2 % 2 == 1)).map (fun jw => strip jw.2))

/-- The page bytes of a strip. -/
def Strip.has (t : Strip) (rowl off : Nat) : Bool :=
  let r := off / 2 ^ rowl
  let c := off % 2 ^ rowl
  t.row ≤ r && r < t.row + t.rows && t.col ≤ c && c < t.col + t.cols

/-- Strips of an agent, the owner's own ignored. -/
def stripsOf (s : State) (p : Partition) (q : QWord) (a : AgentId) : Nat × List Strip :=
  match haloStrips s p q with
  | none => (3, [])
  | some (r, l) => if a = lfOwner q then (r, []) else (r, l.filter (·.nbr == a))

/-! ### The walk (R276 to R278, R290) -/

/-- What a walk answers: the leaf and its address; a stall on M; a fault with subcode, WLVL and the leaf's GEN. -/
inductive WalkRes where
  | leaf (q : QWord) (addr : Nat)
  | stall
  | fault (sub : BitVec 8) (lvl : Nat) (gen : BitVec 16)
  deriving DecidableEq, Repr

/-- A malformed leaf with V = 1 (R276). -/
def leafBad (s : State) (p : Partition) (q : QWord) : Bool :=
  let f := lfFrame q
  q.extractLsb' 112 16 != 0 || 5 ≤ lfScope q ||
  (if lfPkg q == 0xFFF then
      (frameLoc f).level != some (lfLevel q) || !p.mayName f
    else lfLevel q != 0 || f != 0 || lfAuxIdx q != 0) ||
  (if lfMode q == mReduce then 5 ≤ lfAux q else lfMode q != mHalo && lfAux q != 0) ||
  (lfMode q == mHalo && (haloStrips s p q).isNone)

/-- A malformed table entry with V = 1 (R277). -/
def tableBad (p : Partition) (q : QWord) : Bool :=
  q.extractLsb' 88 40 != 0 || q.extractLsb' 4 44 != 0 || lfMode q != mPtab || !p.mayName (lfFrame q)

/-- The walk from the table of level `lvl` at physical address `table`. -/
def walkFrom (s : State) (p : Partition) (vpn : Nat) : Nat → Nat → WalkRes
  | 0, table =>
    let addr := table + 16 * (vpn % 256)
    let q := BitVec.ofNat 128 (s.readP addr 16)
    if s.poisoned addr 16 then .fault 0x12 0 0
    else if !lfV q then .fault 0x10 0 0
    else if leafBad s p q then .fault 0x11 0 (lfGen q)
    else if lfM q then .stall
    else .leaf q addr
  | n + 1, table =>
    let addr := table + 16 * (vpn / 2 ^ (8 * (n + 1)) % 256)
    let q := BitVec.ofNat 128 (s.readP addr 16)
    if s.poisoned addr 16 then .fault 0x12 (n + 1) 0
    else if !lfV q then .fault 0x10 (n + 1) 0
    else if tableBad p q then .fault 0x11 (n + 1) 0
    else walkFrom s p vpn n (lfFrame q * 4096)

/-- A walk of a page for a partition (R278). The low 12 bits of PTROOT are ignored (DEDUCED, log 4). -/
def walk (s : State) (p : Partition) (vpn : Nat) : WalkRes :=
  let root := p.ptroot.toNat / 4096
  if p.mayName root then walkFrom s p vpn 4 (root * 4096) else .fault 0x11 4 0

/-- The leaf of a page as it stands, M included, and its address; none where the walk does not reach a valid leaf. -/
def leafAt (s : State) (p : Partition) (vpn : Nat) : Option (QWord × Nat) :=
  let rec go : Nat → Nat → Option (QWord × Nat)
    | 0, table =>
      let addr := table + 16 * (vpn % 256)
      let q := BitVec.ofNat 128 (s.readP addr 16)
      if lfV q then some (q, addr) else none
    | n + 1, table =>
      let q := BitVec.ofNat 128 (s.readP (table + 16 * (vpn / 2 ^ (8 * (n + 1)) % 256)) 16)
      if lfV q then go n (lfFrame q * 4096) else none
  go 4 (p.ptroot.toNat / 4096 * 4096)

/-- Writes an entry by one atomic step (R278). -/
def State.writeLeaf (s : State) (addr : Nat) (q : QWord) : State := s.writeP addr 16 q.toNat

/-! ### Free frames (R236) -/

/-- Frames that a table's entries and the leaves below it name, those of tables and of halo descriptors included: what the kernel has
given out. -/
def tableFrames (s : State) (p : Partition) : Nat → Nat → List Nat
  | 0, table => (List.range 256).flatMap fun i =>
      let q := BitVec.ofNat 128 (s.readP (table + 16 * i) 16)
      if lfV q && lfPkg q == 0xFFF then lfFrame q :: (if lfMode q = mHalo then [haloDesc p q / 4096] else []) else []
  | n + 1, table => (List.range 256).flatMap fun i =>
      let q := BitVec.ofNat 128 (s.readP (table + 16 * i) 16)
      if lfV q then lfFrame q :: tableFrames s p n (lfFrame q * 4096) else []

/-- Frames in use in a partition: its tables and what they name, or taken by the device. -/
def State.usedFrames (s : State) (p : Partition) : List Nat :=
  s.taken ++ p.ptroot.toNat / 4096 :: tableFrames s p 4 (p.ptroot.toNat / 4096 * 4096)

/-- Ranges of frames, first frame and count, that registers name by physical address: the fault queue, the side entries of every wave
(R353), the logical core map. -/
def State.fixedRanges (s : State) (p : Partition) : List (Nat × Nat) :=
  (if p.fltq = 0 then [] else [(p.fltq.toNat / 4096, 1)]) ++ (if p.tside = 0 then [] else [(p.tside.toNat / 4096, 5121)]) ++
  (if s.lcmap = 0 then [] else [(s.lcmap.toNat / 4096, 2)])

/-- A range of frames without those of another. -/
def cutRange (x r : Nat × Nat) : List (Nat × Nat) :=
  if x.1 + x.2 ≤ r.1 || r.1 + r.2 ≤ x.1 then [r]
  else (if r.1 < x.1 then [(r.1, x.1 - r.1)] else []) ++
    (if x.1 + x.2 < r.1 + r.2 then [(x.1 + x.2, r.1 + r.2 - (x.1 + x.2))] else [])

/-- First frame of a physical unit. -/
def unitBase : ShareKind → Nat → Nat
  | .hbm, _ => 0
  | .die, u => 2 ^ 39 + u * 2 ^ 20
  | .cluster, u => 2 ^ 39 + u / 10 * 2 ^ 20 + 0x10000 + u % 10 * 0x1000
  | _, u => 2 ^ 39 + u / 160 * 2 ^ 20 + 0x20000 + u % 160 * 0x200

/-- Free frames of a range, first frame and count. -/
def rangeFree (used : List Nat) (r : Nat × Nat) : Nat :=
  r.2 - ((used.filter (fun f => r.1 ≤ f && f < r.1 + r.2)).dedup).length

/-- Free frame number `k` from `base` up; `used` rises. -/
def kthFree (used : List Nat) (base k : Nat) : Nat := used.foldl (fun c f => if base ≤ f && f ≤ c then c + 1 else c) (base + k)

/-- Free frame number `k` of some ranges. -/
def pickFrame (used : List Nat) (k : Nat) : List (Nat × Nat) → Option Nat
  | [] => none
  | r :: l =>
    if k < rangeFree used r then some (kthFree ((used.dedup).foldr (insertBy id) []) r.1 k)
    else pickFrame used (k - rangeFree used r) l

/-- A free frame of the partition's share of a unit: the manual says only "a free frame", so which one is a free value
(`Config.frameChoice`, log 8). -/
def State.freeFrame (s : State) (p : Partition) (k : ShareKind) (unit : Nat) : Option Nat :=
  let mine := p.shares.filter (fun h => h.kind == k && (match h.unit with | none => true | some u => u == unit))
  if mine.isEmpty then none
  else
    let used := s.usedFrames p
    let all := mine.map (fun h => (unitBase k unit + h.lo * stepFrames k, h.n * stepFrames k))
    let ranges := (s.fixedRanges p).foldl (fun l x => l.flatMap (cutRange x)) all
    let total := (ranges.map (rangeFree used)).sum
    if total = 0 then none else pickFrame used (Config.frameChoice s.tick % total) ranges

/-- The share kind of a LEVEL. -/
def levelKind : Nat → ShareKind
  | 3 => .near | 2 => .cluster | 1 => .die | _ => .hbm

/-- The unit of a physical core at a LEVEL. -/
def levelUnit (lvl : Nat) (c : BitVec 11) : Nat :=
  match lvl with
  | 3 => coreIndex c
  | 2 => c.toNat / 256 * 10 + c.toNat / 16 % 16
  | 1 => c.toNat / 256
  | _ => 0

/-- A free frame at a level for a logical core (R433). -/
def State.freeFrameFor (s : State) (p : Partition) (lvl : Nat) (c : BitVec 11) : Option Nat :=
  if lvl = 0 then s.freeFrame p .hbm 0
  else match s.physCore c with
    | none => none
    | some pc => s.freeFrame p (levelKind lvl) (levelUnit lvl pc)

/-! ### Translation caches (R280, R281) -/

def tlbSet (vpn : Nat) : Nat := (vpn % 256) ^^^ (vpn / 256 % 256)

def Core.entry? (k : Core) (part vpn : Nat) : Option TlbEntry := k.tlb.find? (fun e => e.part == part && e.vpn == vpn)

/-- Installs an entry: in place of the page's own, in a free way, or round-robin over the unpinned ways. -/
def Core.install (k : Core) (e : TlbEntry) : Core :=
  if k.tlb.any (fun x => x.part == e.part && x.vpn == e.vpn) then
    { k with tlb := k.tlb.map (fun x => if x.part == e.part && x.vpn == e.vpn then e else x) }
  else
    let set := k.tlb.filter (fun x => tlbSet x.vpn == tlbSet e.vpn)
    if set.length < 4 then { k with tlb := k.tlb ++ [e] }
    else
      let pos := ((k.rr.find? (·.1 == tlbSet e.vpn)).map (·.2)).getD 0
      let order := (List.range 4).map (fun i => (pos + i) % 4)
      match order.find? (fun i => match set[i]? with | some x => x.ovr.isNone | none => false) with
      | none => k
      | some i =>
        match set[i]? with
        | none => k
        | some old =>
          { k with tlb := k.tlb.map (fun x => if x == old then e else x),
                   rr := (tlbSet e.vpn, (i + 1) % 4) :: k.rr.filter (·.1 != tlbSet e.vpn) }

/-- Pinned ways of a page's set, the page's own not counted. -/
def Core.pinned (k : Core) (part vpn : Nat) : Nat :=
  (k.tlb.filter (fun x => tlbSet x.vpn == tlbSet vpn && x.ovr.isSome && !(x.part == part && x.vpn == vpn))).length

/-- Adds to a seal refcount slot (R237). -/
def Partition.bumpRef (p : Partition) (slot : Nat) (up : Bool) : Partition :=
  { p with refs := p.refs.map (fun r => if r.1 == slot then (r.1, r.2.1, if up then r.2.2 + 1 else r.2.2 - 1) else r) }

/-- Drops a core's entry of a page; a replica's frame is freed and the seal refcount falls (R281). -/
def State.dropEntry (s : State) (c : BitVec 11) (part vpn : Nat) : State :=
  match (s.core c).entry? part vpn with
  | none => s
  | some e =>
    let s := s.updCore c (fun k => { k with tlb := k.tlb.filter (fun x => !(x.part == part && x.vpn == vpn)) })
    match e.ovr with
    | none => s
    | some (f, _) =>
      let s := { s with taken := s.taken.erase f }
      if lfMode e.leaf == mSealed || lfMode e.leaf == mCode then
        s.updPart part (·.bumpRef (lfAuxIdx e.leaf) false) else s

/-- Drops every core's entry of a page. -/
def State.dropAll (s : State) (part vpn : Nat) : State :=
  (s.cores.map (·.id)).foldl (fun s c => s.dropEntry c part vpn) s

/-- Fills a replica of a page for a core in a frame and pins its entry (R281); `src` is where the leaf lies. -/
def State.makeReplica (s : State) (c : BitVec 11) (part vpn : Nat) (q : QWord) (src f : Nat) : State :=
  let s := s.copyPage (lfFrame q * 4096) (f * 4096)
  let s := { s with taken := f :: s.taken }
  let s := if lfMode q == mSealed || lfMode q == mCode then s.updPart part (·.bumpRef (lfAuxIdx q) true) else s
  s.updCore c (·.install ⟨part, vpn, q, src, some (f, lfGen q)⟩)

/-- Copies some 8-byte words of a frame, poison included (R413). -/
def State.copyWords (s : State) (src dst : Nat) (offs : List Nat) : State :=
  offs.foldl (fun s o =>
    let bad := s.poisoned (src + o) 8
    let s := s.writePBytes (dst + o) (s.mem.bytes (src + o) 8)
    if bad then s.poison (dst + o) else s) s

/-- The offsets of the 8-byte words of a page that a copy in parts makes now (R250). -/
def State.partsNow (s : State) : List Nat := ((List.range 512).filter (Config.partsNow s.tick)).map (8 * ·)

/-! ### Mode checks (R149, R150) -/

/-- Kinds of access (R149). -/
inductive AK where
  | load | store | lda | stl | amo | red | fetch
  /-- A pop or peek, a push of a STREAM buffer (R245). -/
  | pop | push
  deriving DecidableEq, Repr

def AK.writes : AK → Bool
  | .store | .stl | .amo | .red | .push => true
  | _ => false

/-- The access kind of a fault record (R294). -/
def AK.acc : AK → Nat
  | .load | .lda | .pop => 0
  | .store | .stl | .push => 1
  | .amo | .red => 2
  | .fetch => 3

/-- An access to check: the requesting core, agent, partition, level; `fp` says whether rule 5 applies (a fibre's). -/
structure Req where
  core : BitVec 11
  agent : AgentId
  part : Nat
  lvl : Nat
  kind : AK
  va : Nat
  size : Nat
  fp : Bool
  deriving DecidableEq, Repr

/-- Active jobs of a team (R150): not complete. -/
def State.activeJobs (s : State) (a : AgentId) : List Job := s.jobs.filter (fun j => j.agent == a && j.st != .done)

/-- Whether a global range meets a list of ranges. -/
def meets (l : List Range) (va n : Nat) : Bool := l.any (fun r => !r.scratch && r.lo < va + n && va < r.lo + r.len)

/-- Rule 5 (R257): a store meets an active job's footprint, or a load its write footprint; a fetch is neither (R150), nor are a
channel's pops and pushes (R245, R246; DEDUCED, log 64). -/
def State.footprintHit (s : State) (r : Req) : Bool :=
  r.kind != .fetch && r.kind != .pop && r.kind != .push && (s.activeJobs r.agent).any fun j => meets j.writes r.va r.size || (r.kind.writes && meets j.reads r.va r.size)

/-- The lowest MMX subcode an access meets, or none (R149, R150). -/
def mmxSub (s : State) (p : Partition) (q : QWord) (r : Req) : Option (BitVec 8) :=
  let m := lfMode q
  let owner := r.agent == lfOwner q
  let (rowl, mine) := if m == mHalo then stripsOf s p q r.agent else (3, [])
  let off := r.va % 4096
  let modeBad : Bool := match r.kind with
    | .fetch => false
    | .load => m == mAtomic || m == mStream
    | .lda => m == mStream
    | .store => !(m == mOwned || m == mHalo || m == mPtab)
    | .stl => !(m == mOwned || m == mHalo || m == mPtab || m == mAtomic)
    | .amo => !(m == mOwned || m == mAtomic || m == mPtab)
    | .red => m != mReduce
    | .pop | .push => m != mStream
  let ownerBad : Bool := r.kind != .fetch && r.kind != .red &&
    ((m == mOwned && !owner) || (m == mHalo && !owner && mine.isEmpty))
  let haloBad : Bool := m == mHalo && !owner && !mine.isEmpty && r.kind != .fetch && r.kind != .red && r.kind != .amo &&
    (r.kind == .store || r.kind == .stl ||
      !((List.range r.size).all (fun i => mine.any (·.has rowl (off + i)))))
  if (lfK q || m == mPtab) && r.lvl == 0 then some 1
  else if !inRegion s.pkg q r.agent then some 2
  else if r.kind == .fetch && m != mCode then some 3
  else if modeBad then some 4
  else if ownerBad then some 5
  else if haloBad then some 6
  else if r.fp && s.footprintHit r then some 7
  else none

/-- MMX's aux word: MODE in 2:0, SCOPE in 6:4 (R150). -/
def mmxAux (q : QWord) : Word := BitVec.ofNat 32 (lfMode q + lfScope q * 16)

/-! ### Resolving an access -/

/-- A page's accesses are held at a core by a move of it: an owned move from its start, a broadcast from the moment
the core has received the signal (R285, R287). -/
def State.held (s : State) (c : BitVec 11) (part vpn : Nat) : Bool :=
  s.moves.any fun m => m.part == part && m.vpn == vpn && m.st != .idle && m.st != .commit && (m.owned || !m.acks.contains c)

/-- Where an access goes. -/
inductive Res where
  | ok (pa : Nat) (leaf : QWord) (s : State)
  | remote (leaf : QWord) (s : State)
  | mmx (sub : BitVec 8) (leaf : QWord)
  | fault (sub : BitVec 8) (lvl : Nat) (gen : BitVec 16)
  | stall (s : State)
  deriving DecidableEq, Repr

/-- Whether a core's replica is of another generation than a leaf, or, of a HALO page, of another mode or descriptor (R243, R284). -/
def TlbEntry.stale (e : TlbEntry) (q : QWord) : Bool :=
  match e.ovr with
  | none => false
  | some (_, gen) => gen != lfGen q ||
    (lfMode e.leaf == mHalo && (lfMode q != mHalo || lfAux q != lfAux e.leaf || lfAuxIdx q != lfAuxIdx e.leaf))

/-- A stale replica is dropped at the core's next walk of the page (R284). -/
def State.dropStale (s : State) (c : BitVec 11) (part vpn : Nat) (q : QWord) : State :=
  if (((s.core c).entry? part vpn).map (·.stale q)).getD false then s.dropEntry c part vpn else s

/-- A HALO neighbour's replica (R243): near, else cluster, else die; REPLICA when none can be made (R281). Its fill begins, word by word
(R250), and the walk stalls until it is done. -/
def haloReplica (s : State) (p : Partition) (r : Req) (q : QWord) (src : Nat) : Option State :=
  let vpn := r.va / 4096
  if s.fills.any (fun x => x.core == r.core && x.part == r.part && x.vpn == vpn) then some s
  else if 3 ≤ (s.core r.core).pinned r.part vpn then none
  else match [3, 2, 1].findSome? (fun lvl => s.freeFrameFor p lvl r.core) with
    | none => none
    | some f =>
      let s : State := { s with taken := f :: s.taken, fills := s.fills ++ [⟨r.core, r.part, vpn, q, src, f, []⟩] }
      some ((s.push (.fill r.core r.part vpn false)).push (.fill r.core r.part vpn true))

/-- A fill of a replica goes on: some of its words are copied, or with `rest` all that are left; then the entry is pinned with its
override, if the leaf is still as it was (R243, R281). -/
def State.fillOn (s : State) (c : BitVec 11) (part vpn : Nat) (rest : Bool) : State :=
  match s.fills.find? (fun x => x.core == c && x.part == part && x.vpn == vpn) with
  | none => s
  | some x =>
    let copied (l : List Nat) : State := s.copyWords (lfFrame x.leaf * 4096) (x.frame * 4096) (l.filter (fun o => !x.words.contains o))
    let others := s.fills.filter (fun y => !(y.core == c && y.part == part && y.vpn == vpn))
    if BitVec.ofNat 128 (s.readP x.src 16) ≠ x.leaf || 3 ≤ (s.core c).pinned part vpn then { s with fills := others, taken := s.taken.erase x.frame }
    else if rest then
      let s' := copied ((List.range 512).map (8 * ·))
      ({ s' with fills := others }).updCore c (·.install ⟨part, vpn, x.leaf, x.src, some (x.frame, lfGen x.leaf)⟩)
    else
      let now := s.partsNow
      let s' := copied now
      ({ s' with fills := { x with words := x.words ++ now.filter (fun o => !x.words.contains o) } :: others }).push
        (.fill c part vpn false)

/-- A CODE page's replica at a fetch of a core that has none (R237); without a free near frame, slot or pinned way it is not made,
and later fetches try again. -/
def codeReplica (s : State) (p : Partition) (r : Req) (q : QWord) (src : Nat) : State :=
  let vpn := r.va / 4096
  let plain := s.updCore r.core (·.install ⟨r.part, vpn, q, src, none⟩)
  if lfAuxIdx q = 0xFFF || lfPkg q ≠ 0xFFF || 3 ≤ (s.core r.core).pinned r.part vpn then plain
  else match s.freeFrameFor p 3 r.core with
    | none => plain
    | some f => s.makeReplica r.core r.part vpn q src f

/-- The leaf that an entry came from, as it stands now. -/
def State.leafOf (s : State) (e : TlbEntry) : QWord := BitVec.ofNat 128 (s.readP e.src 16)

/-- A write that finds C = 1 in the page's leaf waits for its snapshot (R276, R416). -/
def State.snapWait (s : State) (p : Partition) (r : Req) : Bool :=
  r.kind.writes && (match leafAt s p (r.va / 4096) with | some (q, _) => lfC q | none => false)

/-- The place of an access that passed its checks, by its entry. -/
def placeOf (s : State) (e : TlbEntry) (r : Req) : Res :=
  let off := r.va % 4096
  if lfPkg e.leaf ≠ 0xFFF then .remote e.leaf s
  else match e.ovr with
    | some (f, _) =>
      -- a HALO replica serves the neighbour's loads; the owner uses the page's frame
      if lfMode e.leaf == mHalo && r.agent == lfOwner e.leaf then .ok (lfFrame e.leaf * 4096 + off) e.leaf s
      else .ok (f * 4096 + off) e.leaf s
    | none => .ok (lfFrame e.leaf * 4096 + off) e.leaf s

/-- A walk for an access that its checks let pass (R147 step 7, R280): it installs an entry, or makes the neighbour's replica. -/
def walked (s : State) (p : Partition) (r : Req) (q : QWord) (src : Nat) : Res :=
  let vpn := r.va / 4096
  if lfMode q == mHalo && r.agent ≠ lfOwner q && lfPkg q == 0xFFF then
    match haloReplica s p r q src with
    | none => .fault 0x13 0 (lfGen q)
    | some s => .stall s
  else
    let s := if r.kind == .fetch then codeReplica s p r q src else s.updCore r.core (·.install ⟨r.part, vpn, q, src, none⟩)
    placeOf s (((s.core r.core).entry? r.part vpn).getD (⟨r.part, vpn, q, src, none⟩ : TlbEntry)) r

/-- A page with C = 1: the write waits, and its snapshot is asked for. -/
def awaitSnapshot (s : State) (r : Req) : Res :=
  .stall (if s.agenda.contains (.snapshot r.part (r.va / 4096)) then s else s.push (.snapshot r.part (r.va / 4096)))

/-- Checks and places an access by a walk. -/
def resolveWalk (s : State) (p : Partition) (r : Req) : Res :=
  match walk s p (r.va / 4096) with
  | .fault sub lvl gen => .fault sub lvl gen
  | .stall => .stall s
  | .leaf q src =>
    let s := s.dropStale r.core r.part (r.va / 4096) q
    match mmxSub s p q r with
    | some sub => .mmx sub q
    | none => if s.snapWait p r then awaitSnapshot s r else walked s p r q src

/-- Checks and places an access: by the core's entry, or by a walk (R147 steps 6 and 7, R280). A replica that the entry lacks is made
only while its GEN is the leaf's (R284); the owner's entry serves no neighbour. -/
def resolve (s : State) (p : Partition) (r : Req) : Res :=
  if s.held r.core r.part (r.va / 4096) then .stall s
  else match (s.core r.core).entry? r.part (r.va / 4096) with
    | none => resolveWalk s p r
    | some e =>
      match mmxSub s p e.leaf r with
      | some sub => .mmx sub e.leaf
      | none =>
        let sameGen := lfGen (s.leafOf e) == lfGen e.leaf
        if s.snapWait p r then awaitSnapshot s r
        else if lfMode e.leaf == mHalo && r.agent ≠ lfOwner e.leaf && e.ovr.isNone && lfPkg e.leaf == 0xFFF then
          if sameGen then walked s p r e.leaf e.src else resolveWalk s p r
        else if r.kind == .fetch && e.ovr.isNone && sameGen then
          let s := codeReplica s p r e.leaf e.src
          placeOf s (((s.core r.core).entry? r.part (r.va / 4096)).getD e) r
        else placeOf s e r

/-! ### REDUCE pages (R238 to R241) -/

/-- The identity of an operator (R238). -/
def redIdentity (aux : Nat) : Word :=
  match aux with
  | 1 => 0x8000_0000
  | 2 => 0x7FFF_FFFF
  | 3 => 0x8000_0000
  | _ => 0

/-- The operators of R171. -/
def redOp (aux : Nat) (x v : Word) : Word :=
  match aux with
  | 0 => x + v
  | 1 => BitVec.ofNat 32 (roundTo fmtF32 .rne false
      (addX .rne (fmtF32.value x.toNat) (fmtF32.value v.toNat)).v).code
  | 2 => if x.toInt ≤ v.toInt then x else v
  | 3 => if v.toInt ≤ x.toInt then x else v
  | _ => x ||| v

/-- The home level of a REDUCE page (R238): 1 cluster, 2 die, 3 package. -/
def redHome (q : QWord) : Nat :=
  match lfScope q with
  | 0 | 1 => 1 | 2 => 2 | _ => 3

/-- The unit of an instance level for a contributor's core: staging (0) and cluster (1) by cluster, die (2) by die. -/
def redUnit (lvl : Nat) (c : BitVec 11) : Nat := if lvl = 2 then dieOf c else clusterOf c

/-- Combines a word into home, one atomic step (R240); a poisoned word poisons what it is combined into (R413). -/
def State.redHomeAdd (s : State) (q : QWord) (off : Nat) (v : Word) (bad : Bool := false) : State :=
  let pa := lfFrame q * 4096 + off
  let s := s.writeP pa 4 (redOp (lfAux q) (BitVec.ofNat 32 (s.readP pa 4)) v).toNat
  if bad then s.poison pa else s

/-- The instance of a page at a level for a core. -/
def State.redInst? (s : State) (part vpn lvl : Nat) (c : BitVec 11) : Option RedInst :=
  s.redInsts.find? (fun i => i.part == part && i.vpn == vpn && i.lvl == lvl && i.unit == redUnit lvl c)

/-- A word combined into an instance. -/
def RedInst.add (i : RedInst) (q : QWord) (off : Nat) (v : Word) (bad : Bool) : RedInst :=
  let id := redIdentity (lfAux q)
  { i with words := spSet id i.words off (redOp (lfAux q) (spGet id i.words off) v),
           bad := if bad && !i.bad.contains off then off :: i.bad else i.bad }

/-- Combines a word into an instance, making it when it first receives something; without a free frame the word goes
to the next instance outward, and home is the last resort (R241). -/
def State.redAdd (s : State) (p : Partition) (vpn : Nat) (q : QWord) (c : BitVec 11) (off : Nat) (v : Word) (n lvl : Nat)
    (bad : Bool := false) : State :=
  match n with
  | 0 => s.redHomeAdd q off v bad
  | n + 1 =>
    if redHome q ≤ lvl then s.redHomeAdd q off v bad
    else match s.redInst? p.id vpn lvl c with
      | some i => { s with redInsts := updFirst (· == i) (fun i => i.add q off v bad) s.redInsts }
      | none =>
        match s.freeFrameFor p (if lvl = 2 then 1 else 2) c with
        | none => s.redAdd p vpn q c off v n (lvl + 1) bad
        | some f =>
          { s with taken := f :: s.taken,
                   redInsts := s.redInsts ++ [RedInst.add ⟨p.id, vpn, lvl, redUnit lvl c, f, [], []⟩ q off v bad] }

/-- Pushes one instance into the next level outward and resets it to the identity (R239). -/
def State.redPush (s : State) (p : Partition) (q : QWord) (c : BitVec 11) (i : RedInst) : State :=
  let s := { s with redInsts := updFirst (· == i) (fun x => { x with words := [], bad := [] }) s.redInsts }
  i.words.foldl (fun s w => s.redAdd p i.vpn q c w.1 w.2 4 (i.lvl + 1) (i.bad.contains w.1)) s

/-- The level at which a release at a scope stops (R239): CORE as CLUSTER, FABRIC as PACKAGE. -/
def relLevel (scope : Nat) : Nat :=
  match scope with
  | 0 | 1 => 1 | 2 => 2 | _ => 3

/-- The push of a release by an agent of core `c` at scope `x` (R239): every REDUCE page of the partition, from
staging outward, below the narrower of `x` and the page's scope. -/
def State.release (s : State) (part : Nat) (c : BitVec 11) (x : Nat) : State :=
  match s.part? part with
  | none => s
  | some p =>
    [0, 1, 2].foldl (fun s lvl =>
      (s.redInsts.filter (fun i => i.part == part && i.lvl == lvl && i.unit == redUnit lvl c && !i.words.isEmpty)).foldl
        (fun s i => match leafAt s p i.vpn with
          | some (q, _) =>
            if lfMode q == mReduce && lvl < min (relLevel x) (redHome q) then s.redPush p q c i else s
          | none => s) s) s

/-! ### Moving a page's frame -/

/-- Writes the new LEVEL, FRAME and GEN + 1 of a page whose bytes are copied to the new frame (R284, R285, R287). The leaf then
names the new frame; a page away from home keeps its home frame. -/
def State.commitFrame (s : State) (part vpn : Nat) (q : QWord) (addr lvl frame : Nat) : State :=
  let mine (h : Away) : Bool := h.part == part && h.vpn == vpn
  let home := if lfLevel q = 0 then some (lfFrame q) else (s.homes.find? mine).map (·.home)
  let others := s.homes.filter (fun h => !mine h)
  let taken := s.taken.filter (fun f => f != frame && some f != home)
  let s : State := match home with
    | some h => if lvl = 0 then { s with taken := taken, homes := others }
      else { s with taken := h :: taken, homes := ⟨part, vpn, h, frame⟩ :: others }
    | none => { s with taken := taken, homes := others }
  s.writeLeaf addr (lfSet (lfSet (lfSet (lfBump q) 7 2 lvl) 48 40 frame) 9 1 0)

/-- The home frame of a page: the one recorded when the device moved it away, else a free HBM frame of the
partition (the manual does not say how a page placed away from home by its entry gets one; DESIGN CHOICE, log 8). -/
def State.homeFrame (s : State) (p : Partition) (vpn : Nat) : Option Nat :=
  match s.homes.find? (fun h => h.part == p.id && h.vpn == vpn) with
  | some h => some h.home
  | none => s.freeFrame p .hbm 0

/-- An atomic page's remap (R247): the copy, the commit and the drop of every entry, as one part of the atomic step. -/
def State.remapNow (s : State) (part vpn : Nat) (q : QWord) (addr lvl frame : Nat) : State :=
  let s := s.copyPage (lfFrame q * 4096) (frame * 4096)
  (s.commitFrame part vpn q addr lvl frame).dropAll part vpn

/-- The contention predictor's counter of a page (R247). -/
def predIndex (vpn : Nat) : Nat := (vpn ^^^ (vpn / 2 ^ 10) ^^^ (vpn / 2 ^ 20) ^^^ (vpn / 2 ^ 30)) % 1024

/-- The die of a page's home frame: stack f mod 8 (R233). -/
def homeDie (s : State) (part vpn : Nat) (q : QWord) : Nat :=
  match s.homes.find? (fun h => h.part == part && h.vpn == vpn) with
  | some h => h.home % 8
  | none => lfFrame q % 8

/-- The placement of an atomic, STL or LDA to a local ATOMIC page (R247): the state with the page where the step runs. The
requester is a core of this package, or of another one (`far`), at which the page cannot be near. A page the kernel placed away from home, so that no home frame is known, stays where it is (DEDUCED, log 8). -/
def State.atomicPlace (s : State) (p : Partition) (c : BitVec 11) (vpn : Nat) (far : Option (BitVec 12) := none) : State :=
  match leafAt s p vpn with
  | none => s
  | some (q, addr) =>
    if lfMode q ≠ mAtomic || lfPkg q ≠ 0xFFF || lfM q then s
    else
      let d := homeDie s p.id vpn q
      let ix := predIndex vpn
      let cnt := spGet 0 (s.die d).pred ix
      let who := match far with | none => c.toNat | some k => 2048 * (1 + k.toNat) + c.toNat
      let setPrev (s : State) (n : Nat) : State :=
        s.updDie d (fun k => { k with pred := spSet 0 k.pred ix n,
                                      prevHome := (p.id, vpn, who) :: k.prevHome.filter (fun x => !(x.1 == p.id && x.2.1 == vpn)) })
      let nearAt (s : State) (q : QWord) (addr : Nat) : State :=
        match (if far.isNone then s.freeFrameFor p 3 c else none) with
        | none => setPrev s (spGet 0 (s.die d).pred ix)
        | some f => s.remapNow p.id vpn q addr 3 f
      if lfLevel q = 0 then
        if cnt ≤ 1 then nearAt s q addr
        else
          let same := ((s.die d).prevHome.find? (fun x => x.1 == p.id && x.2.1 == vpn)).map (·.2.2) == some who
          setPrev s (if same then cnt - 1 else cnt)
      else match s.homes.find? (fun h => h.part == p.id && h.vpn == vpn) with
        | none => s
        | some h =>
          if far.isNone && lfLevel q = 3 && (match s.physCore c, frameLoc (lfFrame q) with
              | some pc, .near d' c' k' => coreIndex pc == (d' * 10 + c') * 16 + k' | _, _ => false) then s
          else
            let s := s.remapNow p.id vpn q addr 0 h.home
            let cnt' := min 3 (cnt + 1)
            let s := s.updDie d (fun k => { k with pred := spSet 0 k.pred ix cnt' })
            match leafAt s p vpn with
            | none => s
            | some (q, addr) => if cnt' ≤ 1 then nearAt s q addr else setPrev s cnt'

/-! ### What a rewritten page table entry leaves behind (R236, R241, R243) -/

/-- The leaf of a partition's page as it stands. -/
def State.leafNow (s : State) (part vpn : Nat) : Option QWord := (s.part? part).bind (fun p => (leafAt s p vpn).map (·.1))

/-- A page whose leaf names another frame than the device gave it is away from home no more: its home frame is free. -/
def State.pruneHomes (s : State) : State :=
  let gone := s.homes.filter (fun h => (s.leafNow h.part h.vpn).map lfFrame != some h.frame)
  { s with homes := s.homes.filter (fun h => !gone.contains h), taken := gone.foldl (fun l h => l.erase h.home) s.taken }

/-- A page that has left REDUCE mode frees the frames of its instances. -/
def State.pruneInsts (s : State) : State :=
  let gone := s.redInsts.filter (fun i => (s.leafNow i.part i.vpn).map lfMode != some mReduce)
  { s with redInsts := s.redInsts.filter (fun i => !gone.contains i), taken := gone.foldl (fun l i => l.erase i.frame) s.taken }

/-- A neighbour's replica of a HALO page whose rewritten entry gives another mode or descriptor is dropped. -/
def State.pruneHalos (s : State) : State :=
  s.cores.foldl (fun s k =>
    (k.tlb.filter (fun e => e.ovr.isSome && lfMode e.leaf == mHalo)).foldl (fun s e =>
      let q := s.leafOf e
      if lfV q && (lfMode q != mHalo || lfAux q != lfAux e.leaf || lfAuxIdx q != lfAuxIdx e.leaf) then s.dropEntry k.id e.part e.vpn
      else s) s) s

/-- What the rewriting of page table entries leaves behind goes. -/
def State.prunePages (s : State) : State := s.pruneHomes.pruneInsts.pruneHalos

end Sys2Proof.Machine
end

