-- ==== Sys2Proof/Machine/Lane.lean ====
section
/-! DEFINITION. What one lane does: the lane monad, the ways a lane can stop (R11, R12), the registers of the lane
(R15, R17), and the run of a word's body over the lanes of a batch in increasing lane order, in yoke mode by both
members of each pair (R367, R368). -/

namespace Sys2Proof.Machine

/-- A walk fault of a lane's access that parks (R291, R294). -/
structure Flt where
  va : Nat
  sub : BitVec 8
  lvl : Nat
  gen : BitVec 16
  acc : Nat
  deriving DecidableEq, Repr

/-! ### Registers that wait for a result (R41, R42) -/

/-- Consecutive registers of one file, `n` of them. -/
def regRun : Opnd → Nat → List Opnd
  | .g k, n => (List.range n).map (fun j => .g (k + BitVec.ofNat 6 j))
  | .f k, n => (List.range n).map (fun j => .f (k + BitVec.ofNat 5 j))
  | .s k, n => (List.range n).map (fun j => .s (k + BitVec.ofNat 4 j))
  | .zr, _ => []
  | o, _ => [o]

/-- 32-bit registers an integer access of a width names (R151). -/
def widRegs : Wid → Nat
  | .d => 2 | .q => 4 | _ => 1

/-- The g register an index value names with an addend. -/
def idxG (iv : QWord) (k : Nat) : Opnd := .g (BitVec.ofNat 6 (iv.toNat % 2 ^ 16 + k))

/-- An integer destination, an indexed one resolved by the index value captured at issue (R43, R211). -/
def intDest (d : Opnd) (c : Cap) : List Opnd :=
  match d with
  | .idx _ k => [idxG c.dv k.toNat]
  | .zr => []
  | o => [o]

/-- The destination registers of a long-latency word (R41), resolved by its captured values (R43). -/
def destsOf (i : Instr) (c : Cap) : List Opnd :=
  match i with
  | .ld _ d wd _ | .lda _ d wd _ | .lds _ d wd _ => regRun d (widRegs wd)
  | .ldf _ d wd _ => regRun d (if wd = .q then 2 else 1)
  | .xld _ d wd _ => regRun d (if wd = .q then 2 else 1)
  | .ldp _ _ wd _ => if wd = .d then [idxG c.dv 0, idxG c.dv 1] else [idxG c.dv 0]
  | .amo _ d _ _ o | .cas _ d _ _ o => regRun d (if o.dbl then 2 else 1)
  | .amof _ d _ _ _ => regRun d 1
  | .div _ d _ _ | .divu _ d _ _ | .rem _ d _ _ | .remu _ d _ _ => intDest d c
  | .fdiv _ d _ _ _ | .fsqrt _ d _ _ | .frcp _ d _ _ | .frsq _ d _ _ | .fex2 _ d _ _ | .flg2 _ d _ _
  | .fsin _ d _ _ | .fcos _ d _ _ => [d]
  | .xdiv _ d _ _ x => regRun d (if x.x64 then 2 else 1)
  | .xsqrt _ d _ x | .xexp _ d _ x => regRun d (if x.x64 then 2 else 1)
  | .mrdz _ d _ _ => regRun d 1
  | .csrr _ d _ | .csrHighLatchRead _ d _ => [d]
  | .shfl _ d _ _ _ => [d]
  | _ => []

/-- Whether a result of a lane whose window has passed is still to land in a register (R42); a word that names the register waits for it,
inside the window of another result for that register too (DESIGN CHOICE, log 104). -/
def Wave.owes (w : Wave) (lane : Nat) (o : Opnd) : Bool :=
  w.unfinished.any (fun e => e.lanes.any (fun r => r.lane == lane && r.win == 0 && (destsOf e.ins r.cap).contains o))

/-- A compared effect of yoke mode (R367): a store, an atomic or a card submission. -/
structure Eff where
  card : Bool
  addr : Nat
  data : Nat
  deriving DecidableEq, Repr

/-- How a lane stops (R12): it calls trap, with the state for what its reads leave (R284, R414); an engine's unit does so with progress that stands (R193); its access parks (R292); it
blocks (R103, R175), with the state to keep where the lanes before it have acted, and where nothing of the word has had an effect,
and the effects that it has been about to have (R367);
a register it names still waits for a result, so that the word does not issue (R42); its team does not exist. -/
inductive Stop where
  | trap (cls : BitVec 4) (sub : BitVec 8) (addr : Addr) (aux : Word) (s : State)
  | trapKeep (cls : BitVec 4) (sub : BitVec 8) (aux : Word) (s : State)
  | park (f : Flt)
  | block (why : Wait) (s base : State) (effs : List Eff)
  | interlock
  | lost
  deriving DecidableEq, Repr

/-- What a lane's part of a word works on. -/
structure LS where
  st : State
  /-- The state before the word: what cross-lane reads see (R88, R116). -/
  st0 : State
  /-- The state before this lane's part: what a block keeps of the lanes before it. -/
  clean : State
  /-- The state before the word, with the requests and moves that its blocked lanes have asked for. -/
  base : State
  agent : AgentId
  wave : Nat
  lane : Nat
  /-- The privilege level of its accesses, and the engine job that makes them, if one does (R180). -/
  lvl : Nat
  job : Option Nat
  /-- Every lane of the batch, and those that pass the guard. -/
  batch : List Nat
  execs : List Nat
  pc : Addr
  npc : Addr
  /-- The lane's open lookahead windows close (R42). -/
  closes : Bool
  /-- The lane waits in this state after the word: a mask or barrier arrival. -/
  hold : Option FSt
  unis : List Uni
  effs : List Eff
  recs : List LaneRec
  deriving DecidableEq, Repr

abbrev L := StateT LS (Except Stop)

namespace L

def stop {α : Type} (e : Stop) : L α := fun _ => .error e
/-- trap(CLASS, subcode) (R11). -/
def trap {α : Type} (cls : BitVec 4) (sub : BitVec 8) (addr : Nat := 0) (aux : Word := 0) : L α :=
  fun x => .error (.trap cls sub (BitVec.ofNat 52 addr) aux x.st)
/-- Blocks; nothing of the lane's part has an effect. -/
def block {α : Type} (w : Wait) : L α := fun x => .error (.block w x.clean x.base x.effs)
/-- Blocks, keeping a change of the state before the lane's part. -/
def blockWith {α : Type} (w : Wait) (f : State → State) : L α := fun x => .error (.block w (f x.clean) (f x.base) x.effs)
/-- Blocks in a word that acts once for its batch, its progress so far kept. -/
def blockHere {α : Type} (w : Wait) : L α := fun x => .error (.block w x.st x.st x.effs)

def modSt (f : State → State) : L Unit := modify (fun x => { x with st := f x.st })
def setSt (s : State) : L Unit := modify (fun x => { x with st := s })

/-- The lane's team. -/
def team : L Team := fun x => match x.st.team? x.agent with
  | some t => .ok (t, x)
  | none => .error .lost
/-- The lane's fibre. -/
def fibre : L Fibre := fun x => match x.st.fibre? x.agent x.wave x.lane with
  | some f => .ok (f, x)
  | none => .error .lost
/-- The lane's partition. -/
def part : L Partition := fun x => match x.st.team? x.agent with
  | some t => match x.st.part? t.part with
    | some p => .ok (p, x)
    | none => .error .lost
  | none => .error .lost
def wave : L Wave := do return (← team).wave (← get).wave
def modFibre (f : Fibre → Fibre) : L Unit := modify (fun x => { x with st := x.st.updFibre x.agent x.wave x.lane f })
def modWave (f : Wave → Wave) : L Unit := modify (fun x => { x with st := x.st.updWave x.agent x.wave f })
def modTeam (f : Team → Team) : L Unit := modify (fun x => { x with st := x.st.updTeam x.agent f })
def modPart (f : Partition → Partition) : L Unit := do
  let p ← part
  modSt (·.updPart p.id f)
def core : L (BitVec 11) := do return coreOf (← get).agent
/-- The wave's privilege level (R14). -/
def level : L Nat := do return (← get).lvl
/-- Sets CHKI bits of the consuming team (R414). -/
def chki (b : Word) : L Unit := if b = 0 then pure () else modTeam (fun t => { t with chki := t.chki ||| b })
/-- Notes a compared effect (R367). -/
def effect (e : Eff) : L Unit := modify (fun x => { x with effs := x.effs ++ [e] })

/-! ### Registers of the lane -/

/-- The word waits while a result whose window has passed is to land in a register that it reads or writes (R42). -/
def landed (o : Opnd) : L Unit := do if (← wave).owes (← get).lane o then stop .interlock
/-- The word waits for every result of its lane whose window has passed: it reads all of the fibre's registers. -/
def landedAll : L Unit := do
  let x ← get
  if (← wave).unfinished.any (fun e => e.lanes.any (fun r => r.lane == x.lane && r.win == 0)) then stop .interlock
/-- REG WINDOW for a g register outside the window (R17). -/
def checkG (n : Nat) : L Unit := do if (← team).gWin ≤ n then trap 1 1
def checkF (n : Nat) : L Unit := do if (← team).fWin ≤ n then trap 1 1

/-- Reads gN; poisoned bits set CHKI REG (R414). -/
def rdG (n : Nat) : L Word := do
  checkG n
  landed (.g (BitVec.ofNat 6 n))
  let r := (← fibre).regs
  if r.bad.contains (false, n) then chki 8
  return vget r.g n
/-- Writes gN; a whole write clears its poison (R413). -/
def wrG (n : Nat) (v : Word) : L Unit := do
  checkG n
  landed (.g (BitVec.ofNat 6 n))
  modFibre (fun f => { f with regs := { f.regs with g := vset f.regs.g n v, bad := f.regs.bad.erase (false, n) } })
/-- Reads fN with its tag: under F32, bits 63:32 read as zero (R19). -/
def rdF (n : Nat) : L (DWord × BitVec 4) := do
  checkF n
  landed (.f (BitVec.ofNat 5 n))
  let r := (← fibre).regs
  if r.fBad n then chki 8
  return (r.fval n, vget r.tag n)
/-- Writes fN and its tag. -/
def wrF (n : Nat) (v : DWord) (t : BitVec 4) : L Unit := do
  checkF n
  landed (.f (BitVec.ofNat 5 n))
  modFibre (fun f => { f with regs := { f.regs with
    f := vset f.regs.f n v, tag := vset f.regs.tag n t, bad := f.regs.fClean n } })
def rdI (n : Nat) : L Word := do
  landed (.i (BitVec.ofNat 2 n))
  return vget (← fibre).regs.ix n
def wrI (n : Nat) (v : Word) : L Unit := do
  landed (.i (BitVec.ofNat 2 n))
  modFibre (fun f => { f with regs := { f.regs with ix := vset f.regs.ix n v } })
def rdS (n : Nat) : L Word := do
  landed (.s (BitVec.ofNat 4 n))
  return vget (← wave).s n
def uni (u : Uni) : L Unit := do
  match u with
  | .s n _ => landed (.s n)
  | _ => pure ()
  modify (fun x => { x with unis := x.unis ++ [u] })
/-- The g register that operand 127 names (R17). -/
def idxReg (r : BitVec 2) (k : BitVec 6) : L Nat := do
  let i ← rdI r.toNat
  let ix := bits i.toNat 0 16
  if (← team).gWin ≤ ix + k.toNat ∨ bits i.toNat 16 16 ≤ ix then trap 1 2
  return ix + k.toNat
/-- The fibre's slot number in the team. -/
def slot : L Nat := do return (← team).slot (← get).wave (← get).lane

end L

/-! ### Running a body over lanes -/

/-- Exchanges a fibre's visible and shadow registers. -/
def Fibre.swap (f : Fibre) : Fibre :=
  match f.shadow with
  | some r => { f with regs := r, shadow := some f.regs }
  | none => f

/-- The fibres of a yoke wave after both members ran from `s0`: the lane's own fibre, and every fibre the word created,
takes as shadow the registers that the shadow run left in the visible place. -/
def yokeMerge (a : AgentId) (own : Nat) (s0 s1 s2 : State) : State :=
  match s0.team? a, s2.team? a with
  | some t0, some t2 => s1.updTeam a (fun t => { t with fibres := t.fibres.map (fun x =>
      match t2.fibre? x.1 with
      | some f2 => if x.1 = own ∨ (t0.fibre? x.1).isNone then (x.1, { x.2 with shadow := some f2.regs }) else x
      | none => x) })
  | _, _ => s1

/-- Compares the effects of a pair (R367). -/
def effsDiffer : List Eff → List Eff → Option (BitVec 8)
  | [], [] => none
  | a :: l, b :: m =>
    if a.addr ≠ b.addr then some 1
    else if a = b then effsDiffer l m
    else some (if a.card || b.card then 4 else 2)
  | a :: _, [] | [], a :: _ => some (if a.card then 4 else 1)

/-- A lane's part of a word; in yoke mode by the visible and the shadow member, compared (R367, R368). The effects
outside the fibre are the visible member's, performed once. -/
def runPair (body : Bool → L Unit) (x : LS) : Except Stop LS :=
  match x.st.team? x.agent with
  | none => .error .lost
  | some t =>
    let r1 := (body false x).map (·.2)
    if !t.work.yoke then r1
    else
      let slot := t.slot x.wave x.lane
      let x2 := { x with st := x.st.updTeam x.agent (·.updFibre slot Fibre.swap),
                         st0 := x.st0.updTeam x.agent (fun t => { t with fibres := t.fibres.map (fun f => (f.1, f.2.swap)) }) }
      let r2 := (body true x2).map (·.2)
      match r1, r2 with
      | .ok y1, .ok y2 =>
        match effsDiffer y1.effs y2.effs with
        | some sub => .error (.trap 12 sub 0 0 x.st)
        | none =>
          let both (a b : LaneRec) : LaneRec := { a with scap := b.cap, sres := b.res, perf := a.perf && b.perf }
          .ok { y1 with st := yokeMerge x.agent slot x.st y1.st y2.st, recs := y1.recs.zipWith both y2.recs }
      | .error (.trap c1 s1 a1 x1 k), .error (.trap c2 s2 _ _ _) =>
        if c1 = c2 ∧ s1 = s2 then .error (.trap c1 s1 a1 x1 k) else .error (.trap 12 3 0 0 k)
      | .error (.trapKeep c1 s1 x1 s), .error (.trapKeep c2 s2 _ _) =>
        if c1 = c2 ∧ s1 = s2 then .error (.trapKeep c1 s1 x1 s) else .error (.trap 12 3 0 0 x.st)
      | .error (.block w s z e1), .error (.block _ _ _ e2) => match effsDiffer e1 e2 with
        | some sub => .error (.trap 12 sub 0 0 x.st)
        | none => .error (.block w s z e1)
      | .ok y, .error (.block _ _ _ e) | .error (.block _ _ _ e), .ok y =>
        .error (.trap 12 ((effsDiffer y.effs e).getD 3) 0 0 x.st)
      | .error (.park f), .error (.park g) => if f = g then .error (.park f) else .error (.trap 12 3 0 0 x.st)
      | .error .lost, _ => .error .lost
      | _, .error .lost => .error .lost
      | .error .interlock, _ => .error .interlock
      | _, .error .interlock => .error .interlock
      | _, _ => .error (.trap 12 3 0 0 x.st)

/-- What the reads of a word that calls trap leave: CHKI's bits (R414), and the stale replicas that its walks have dropped (R284). -/
def State.keepReads (s x : State) (a : AgentId) : State :=
  let s : State := match s.team? a, x.team? a with
    | some u, some t => if u.chki ||| t.chki = u.chki then s else s.updTeam a (fun u => { u with chki := u.chki ||| t.chki })
    | _, _ => s
  let c := coreOf a
  ((s.core c).tlb.filter (fun e => e.stale (s.leafOf e) && !(x.core c).tlb.contains e)).foldl (fun s e => s.dropEntry c e.part e.vpn) s

/-- A lane whose part is done. -/
structure LaneDone where
  lane : Nat
  npc : Addr
  closes : Bool
  hold : Option FSt
  deriving DecidableEq, Repr

/-- The run of a word over lanes, so far. -/
structure Run where
  st : State
  /-- The state before the word, with what its blocked lanes have asked for. -/
  base : State
  /-- The state before the word, with what the reads of the lanes that called trap leave. -/
  noted : State
  traps : List TrapRec
  dones : List LaneDone
  /-- Lanes that are blocked, or wait behind one that is. -/
  held : List Nat
  /-- Lanes that pass their checks, and whose part comes later. -/
  later : List Nat
  why : Option Wait
  parks : List (Nat × Flt)
  unis : List Uni
  recs : List LaneRec
  /-- A register of the word still waits for a result: the word does not issue (R42). -/
  locked : Bool
  deriving Repr

/-- A run in which no lane has had its turn. -/
def Run.start (s : State) (dones : List LaneDone) (unis : List Uni) : Run := ⟨s, s, s, [], dones, [], [], none, [], unis, [], false⟩

/-- One lane's turn. With `inOrder`, a lane behind a blocked one waits, but is still checked for traps (R12, R98); so is a lane
whose part comes later. -/
def runLane (body : Bool → L Unit) (inOrder : Bool) (late : List Nat) (x0 : LS) (r : Run) (lane : Nat) : Run :=
  match runPair body { x0 with st := r.st, clean := r.st, base := r.base, lane := lane,
                               lvl := ((r.st.team? x0.agent).map (·.levelAt x0.wave lane)).getD x0.lvl } with
  | .ok y =>
    if inOrder && !r.held.isEmpty then { r with held := r.held ++ [lane] }
    else if late.contains lane then { r with later := r.later ++ [lane] }
    else { r with st := y.st, dones := r.dones ++ [⟨lane, y.npc, y.closes, y.hold⟩], unis := r.unis ++ y.unis,
                  recs := r.recs ++ y.recs }
  | .error (.trap c sub addr aux s) =>
    { r with traps := r.traps ++ [⟨lane, c, sub, addr, aux⟩], noted := r.noted.keepReads s x0.agent }
  | .error (.trapKeep c sub aux _) => { r with traps := r.traps ++ [⟨lane, c, sub, 0, aux⟩] }
  | .error (.park f) => { r with parks := r.parks ++ [(lane, f)] }
  | .error (.block w s z _) => { r with st := s, base := z, held := r.held ++ [lane], why := some (r.why.getD w) }
  | .error .interlock => { r with locked := true }
  | .error .lost => { r with held := r.held ++ [lane] }

/-- Every lane's turn, in the order given. -/
def runLanes (body : Bool → L Unit) (inOrder : Bool) (late : List Nat) (x0 : LS) (lanes : List Nat) (r : Run) : Run :=
  lanes.foldl (runLane body inOrder late x0) r

end Sys2Proof.Machine
end

