-- ==== Sys2Proof/Machine/Message.lean ====
section
/-! DEFINITION. Sending on the fabric: the erasure code (R382), paths (R380, R381), a port's key slots, sequence and
retry buffer (R391 to R393), and messages: all that leaves the package crosses the fabric as fragments of one (R378, R383,
R405). -/

namespace Sys2Proof.Machine

/-! ### GF(2⁸) with 0x11D (R382) -/

/-- One step of a product: the factor doubled. -/
def gfDouble (x : Nat) : Nat := if x < 128 then 2 * x else (2 * x) ^^^ 0x11D

/-- A product in GF(2⁸). -/
def gfMul (x y : Nat) : Nat :=
  ((List.range 8).foldl (fun (p : Nat × Nat) i => (if y.testBit i then p.1 ^^^ p.2 else p.1, gfDouble p.2)) (0, x)).1

/-- The inverse, as the 254th power. -/
def gfInv (x : Nat) : Nat := (List.range 253).foldl (fun p _ => gfMul p x) x

/-- The parity matrix. -/
def parityC (j i : Nat) : Nat := gfMul (gfMul (gfInv ((16 + j) ^^^ i)) (16 ^^^ i)) (gfMul (16 + j) (gfInv 16))

/-- Adds a multiple of a fragment. -/
def gfAxpy (c : Nat) (x acc : List Nat) : List Nat := (acc.zip x).map (fun p => p.1 ^^^ gfMul c p.2)

/-- The 224-byte data fragments of a message, padded with zeros. -/
def dataFrags (k : Nat) (msg : List (BitVec 8)) : List (List Nat) :=
  (List.range k).map (fun i =>
    let d := (msg.drop (224 * i)).take 224
    d.map (·.toNat) ++ List.replicate (224 - d.length) 0)

/-- Parity fragment j. -/
def parityFrag (d : List (List Nat)) (j : Nat) : List Nat :=
  d.zipIdx.foldl (fun acc x => gfAxpy (parityC j x.2) x.1 acc) (List.replicate 224 0)

/-- The k + m fragments of a message, data first. -/
def fragsOf (k m : Nat) (msg : List (BitVec 8)) : List (List (BitVec 8)) :=
  let d := dataFrags k msg
  (d ++ (List.range m).map (parityFrag d)).map (·.map (BitVec.ofNat 8))

/-! ### A port's sending side (R391 to R394) -/

def Port.active (p : Port) : KeySlot := if p.tx then p.tx1 else p.tx0
def Port.setActive (p : Port) (k : KeySlot) : Port := if p.tx then { p with tx1 := k } else { p with tx0 := k }

/-- Whether a port can send a flit that is no marker: its link works and the active slot's next counter is not the
marker's. -/
def Port.canSend (p : Port) : Bool :=
  p.up && !p.rtr && p.active.st ≠ 0 && p.active.ctr.toNat + 1 < p.active.thr.toNat

/-- Whether the next flit must be the key-switch marker (R392). -/
def Port.markerDue (p : Port) : Bool :=
  p.up && !p.rtr && p.active.st ≠ 0 && p.active.ctr.toNat + 1 = p.active.thr.toNat

/-- The newest 512 flits of a retry buffer. -/
def keep512 (l : List Flit) : List Flit := l.drop (l.length - 512)

/-- A new flit leaves a port: it takes the next LSEQ and counter, and stays in the retry buffer. -/
def State.putFlit (s : State) (pn : Nat) (fl : Flit) : State :=
  match s.port? pn with
  | none => s
  | some p =>
    let fl := { fl with lseq := p.lseqTx, ks := p.tx }
    let k := p.active
    let p := { p.setActive { k with ctr := k.ctr + 1 } with lseqTx := p.lseqTx + 1, retry := keep512 (p.retry ++ [fl]) }
    (s.updPort pn (fun _ => p)).emit (.flit pn fl k)

/-- Sends what waits at a port, as far as it may; a due marker is put on the agenda when flits wait behind it. -/
def State.flushPort (s : State) (pn : Nat) : Nat → State
  | 0 => s
  | n + 1 =>
    match s.port? pn with
    | none => s
    | some p =>
      match p.queue with
      | [] => s
      | fl :: rest =>
        if p.canSend then ((s.updPort pn (fun p => { p with queue := rest })).putFlit pn fl).flushPort pn n
        else if p.markerDue && !s.agenda.contains (.keySwitch pn) then s.push (.keySwitch pn)
        else s

/-- A flit for a port: behind those that wait there. -/
def State.sendFlit (s : State) (pn : Nat) (fl : Flit) : State :=
  let s := s.updPort pn (fun p => { p with queue := p.queue ++ [fl] })
  s.flushPort pn (((s.port? pn).map (·.queue.length)).getD 0)

/-! ### Paths to other packages (R380, R381) -/

/-- The path list of a destination: as recorded, or as the firmware built it (a free value, R380): at most 72 ports, each
once. -/
def State.pathList (s : State) (dest : BitVec 12) : PathList :=
  match s.paths.find? (·.dest == dest) with
  | some l => l
  | none =>
    let n := Config.pathPort dest.toNat 72 % 73
    ⟨dest, ((List.range n).map (fun i => Config.pathPort dest.toNat i % 72)).dedup, 0⟩

/-- Entries of a list whose first link is up: path number and port. -/
def State.upPaths (s : State) (l : PathList) : List (Nat × Nat) :=
  (l.ports.zipIdx.map (fun x => (x.2, x.1))).filter (fun x => ((s.port? x.2).map (·.up)).getD false)

/-- The sender's rotation for a destination advances with each message (R381). -/
def State.rotate (s : State) (l : PathList) (n : Nat) : State :=
  { s with paths := ⟨l.dest, l.ports, l.rot + n⟩ :: s.paths.filter (·.dest != l.dest) }

/-- m of a partition's CRATE; 0 for a partition that does not exist. -/
def State.crateM (s : State) (part : Nat) : Nat := ((s.part? part).map (fun p => bits p.crate.toNat 8 4)).getD 0

/-- A new message id of the package (R378). -/
def State.newMid (s : State) : BitVec 24 × State := (s.mid, { s with mid := s.mid + 1 })

/-! ### Messages (R380, R381, R383, R389) -/

/-- Fragments of a message as they arrive in this package: each on its own (R386). -/
def State.sendLocal (s : State) (frs : List Fragment) : State := frs.foldl (fun s f => s.push (.arrive f)) s

/-- The fragments go to their paths, in increasing index (R381). -/
def State.sendPaths (s : State) (dest : BitVec 12) (mk : Nat → Nat → List (BitVec 8) → Flit) (fs : List (List (BitVec 8))) :
    State :=
  let l := s.pathList dest
  let up := s.upPaths l
  let s := fs.zipIdx.foldl (fun s x =>
    match up[(l.rot + x.2) % up.length]? with
    | some (path, port) => s.sendFlit port (mk x.2 path x.1)
    | none => s) s
  s.rotate l fs.length

/-- The fragments that leave when a message of n fragments goes to a package: none with no path up (R381). -/
def State.leaving (s : State) (dest : BitVec 12) (n : Nat) : Nat := if (s.upPaths (s.pathList dest)).isEmpty then 0 else n

/-- A team's PROBE awaits the fragments of a message (R172). -/
def State.onPath (s : State) (a : AgentId) (dest : BitVec 12) (mid : BitVec 24) (n : Nat) : State :=
  s.updTeam a (fun t => { t with onPath := t.onPath ++ [(dest, mid, s.leaving dest n)] })

/-- An access, a response, a report or a cancel leaves as a message of k + m fragments (R383, R405), reports and cancels in control
flits (R379). The header fields that the spec gives no value for here are free values. -/
def State.sendBody (s : State) (dest : BitVec 12) (vc : BitVec 2) (dagt : Option AgentId) (mid : BitVec 24) (k m : Nat)
    (b : Body) : State :=
  let free (n : Nat) : Nat := Config.headerField s.tick mid.toNat n
  s.sendPaths dest (fun i path pl =>
    ⟨0, dest, s.pkg, dagt.getD (BitVec.ofNat 16 (free 0)), mid, BitVec.ofNat 4 i, BitVec.ofNat 5 k, BitVec.ofNat 4 m,
      BitVec.ofNat 7 path, vc, if vc = 3 then 2 else 0, false, BitVec.ofNat 6 (free 1), BitVec.ofNat 13 (free 2), pl, [], some b⟩)
    (List.replicate (k + m) [])

/-- A request to another package leaves (R289, R383); one to this package is its own to perform. -/
def State.sendRequest (s : State) (dest : BitVec 12) (r : RemoteReq) : State :=
  if dest = s.pkg then s.push (.request r)
  else (s.onPath r.agent dest r.mid (1 + s.crateM r.part)).sendBody dest 0 none r.mid 1 (s.crateM r.part) (.request r)

/-- Sends one message of a team (R199, R378, R383): it is coded, its fragments leave, and the sender remembers it for its
report. A message to this package takes no path. -/
def State.sendMessage (s : State) (a : AgentId) (part : Nat) (dest : BitVec 12) (dagt : AgentId) (k m : Nat)
    (rch : BitVec 6) (msg : List (BitVec 8)) (bad : List Nat) (body : Option Body) : State :=
  let (mid, s) := s.newMid
  let len := BitVec.ofNat 13 msg.length
  let fs := fragsOf k m msg
  let s : State := { s with sent := s.sent ++ [⟨mid, dest, part, a, 6, 0, false, false, none, none⟩] }
  if dest = 0xFFF || dest = s.pkg then
    s.sendLocal (fs.zipIdx.map (fun (x : List (BitVec 8) × Nat) =>
      ⟨s.pkg, dagt, mid, BitVec.ofNat 4 x.2, BitVec.ofNat 5 k, BitVec.ofNat 4 m, rch, len, x.1, bad, body⟩))
  else
    (s.onPath a dest mid fs.length).sendPaths dest (fun i path pl =>
      ⟨0, dest, s.pkg, dagt, mid, BitVec.ofNat 4 i, BitVec.ofNat 5 k, BitVec.ofNat 4 m, BitVec.ofNat 7 path, 2, 0, false,
        rch, len, pl, bad, body⟩) fs

end Sys2Proof.Machine
end

