-- ==== Sys2Proof/Machine/Ops.lean ====
section
/-! DEFINITION. The operations the meanings share: fault records and parking (R291 to R294), taking an exception
(R351 to R361) and returning from one (R357 to R359), the landing of long-latency results (R42, R43), the run of a
word over its batch (R12, R18, R36, R98), and one lane's access to memory (R11, R147, R156). -/

namespace Sys2Proof.Machine

/-! ### Fault records (R293, R294) -/

/-- The 32 bytes of a record as a number. -/
def FRec.num (r : FRec) : Nat :=
  r.va.toNat + r.ticket.toNat * 2 ^ 64 + r.cls.toNat * 2 ^ 112 + r.sub.toNat * 2 ^ 120 + r.agent.toNat * 2 ^ 128 +
  r.kind.toNat * 2 ^ 144 + r.acc.toNat * 2 ^ 152 + r.wlvl.toNat * 2 ^ 160 + r.gen.toNat * 2 ^ 176 +
  r.index.toNat * 2 ^ 192 + r.lanes.toNat * 2 ^ 224

/-- The oldest pending record enters the ring when a slot is free (R293). -/
def State.enterRecord (s : State) (pn : Nat) : State :=
  match s.part? pn with
  | none => s
  | some p =>
    match p.pending with
    | [] => s
    | r :: rest =>
      if p.fltCount < 128 then
        (s.writeP (p.fltq.toNat + 32 * ((p.fltHead + p.fltCount) % 128)) 32 r.num).updPart pn
          (fun p => { p with pending := rest, fltCount := p.fltCount + 1 })
      else s

/-- Queues a record; with FLTQ = 0 it is discarded (R293). -/
def State.record (s : State) (pn : Nat) (r : FRec) : State :=
  match s.part? pn with
  | none => s
  | some p => if p.fltq = 0 then s
    else (s.updPart pn (fun p => { p with pending := p.pending ++ [r] })).enterRecord pn

/-- A record of KIND 2 (R294): WLVL is 7 and GEN 0 where no walk was involved. -/
def errRecord (cls sub : BitVec 8) (agent : AgentId) (index : Word) (va : Nat) (acc : BitVec 8) (wlvl : Nat := 7)
    (gen : BitVec 16 := 0) : FRec :=
  ⟨BitVec.ofNat 52 va, 0, cls, sub, agent, 2, acc, BitVec.ofNat 8 wlvl, gen, index, 0⟩

/-! ### Parking (R222, R292) -/

/-- The ticket of a replay-buffer entry's use (R222). -/
def ticketOf (core : BitVec 11) (ent : Nat) (seq : BitVec 8) : Word :=
  BitVec.ofNat 32 (core.toNat * 2 ^ 21 + ent * 2 ^ 15 + seq.toNat * 2 ^ 7)

/-- The next sequence number of an entry: 1 to 255, then 1 again (R292). -/
def nextSeq (seqs : List (Nat × Nat)) (ent : Nat) : Nat :=
  let n := spGet 0 seqs ent
  if n = 255 then 1 else n + 1

/-- The lowest free entry of a buffer of 64. -/
def freeEnt (l : List Parked) : Option Nat := (List.range 64).find? (fun e => !l.any (·.ent == e))

/-- Takes a replay-buffer entry of a core; none when all are in use. `mk` gives the entry from its number and SEQ. -/
def State.takeEnt (s : State) (c : BitVec 11) (mk : Nat → BitVec 8 → Parked) : Option (State × Nat × BitVec 8) :=
  let k := s.core c
  match freeEnt k.replay with
  | none => none
  | some e =>
    let q := nextSeq k.seqs e
    some (s.setCore { k with replay := insertBy (·.ent) (mk e (BitVec.ofNat 8 q)) k.replay, seqs := spSet 0 k.seqs e q },
      e, BitVec.ofNat 8 q)

/-- A parked lane with the trap that RSUM FAIL makes of it: VA, and WLVL and ACC in the aux word. -/
def Flt.parked (x : Nat × Flt) : Nat × Addr × Word :=
  (x.1, BitVec.ofNat 52 x.2.va, BitVec.ofNat 32 (x.2.lvl + x.2.acc * 16))

/-- Parks lanes of a wave's word: one entry and one record, whose address is the first lane's (R292, R294). -/
def State.parkLanes (s : State) (a : AgentId) (wv part : Nat) (pc : Addr) (word : Option Nat) (lanes : List (Nat × Flt)) :
    Option (State × Nat) :=
  match lanes with
  | [] => none
  | (_, f) :: _ =>
    match s.takeEnt (coreOf a) (fun e q => ⟨e, q, part, a, wv, lanes.map Flt.parked, pc, word, none, none⟩) with
    | none => none
    | some (s, e, q) =>
      some (s.record part ⟨BitVec.ofNat 52 f.va, ticketOf (coreOf a) e q, 8, f.sub, a, 0, BitVec.ofNat 8 f.acc,
        BitVec.ofNat 8 f.lvl, f.gen, 0, laneSet (lanes.map (·.1))⟩, e)

/-- Whether an access of a wave is parked, so that the wave issues nothing (R156). -/
def State.waveParked (s : State) (a : AgentId) (wv : Nat) : Bool :=
  (s.core (coreOf a)).replay.any (fun p => p.agent == a && p.wave == wv && p.job.isNone)

/-- Frees every parked access of a team (R232, R325). -/
def State.freeParked (s : State) (a : AgentId) : State :=
  s.updCore (coreOf a) (fun k => { k with replay := k.replay.filter (·.agent != a) })

/-! ### A failed attempt of a launch with rollback (R418), the end of a partition's context (R360) -/

/-- Every team of the package, those of partitions that do not run now included. -/
def State.allTeams (s : State) : List Team := s.teams ++ s.saved.flatMap (·.teams)

/-- Changes every team, those of partitions that do not run now included. -/
def State.mapTeams (s : State) (f : Team → Team) : State :=
  { s with teams := s.teams.map f, saved := s.saved.map (fun x => { x with teams := x.teams.map f }) }

/-- The launch whose attempt an error of the team fails: one with rollback that has not lapsed (R367, R415, R417). -/
def State.rollsBack (s : State) (t : Team) : Option Nat :=
  match t.work.launch with
  | none => none
  | some l => match s.launch? l with
    | some k => if k.rbk then some l else none
    | none => none

/-- Once a failing launch has no team left, its restore is due. -/
def State.checkRestore (s : State) (l : Nat) : State :=
  match s.launch? l with
  | none => s
  | some k =>
    if k.failing.isSome && !s.allTeams.any (·.work.launch == some l) && !s.agenda.contains (.restore k.part l)
    then s.push (.restore k.part l) else s

/-- Teams whose discard becomes due (R325, R418). -/
def State.axeTeams (s : State) (p : Team → Bool) : State :=
  let hit := s.allTeams.filter (fun t => p t && !t.axed)
  hit.foldl (fun s t => s.push (.discard t.agent)) (s.mapTeams (fun t => if p t then { t with axed := true } else t))

/-- Marks a launch's attempt failed: none of its units starts any more, those on their way to another die included, and its running
teams are discarded (R418 step 1). -/
def State.failAttempt (s : State) (a : AgentId) (l : Nat) (yoke : Bool) : State :=
  match s.launch? l with
  | none => s
  | some k =>
    if k.failing.isSome then s
    else
      let s := s.updLaunch l (fun k => { k with failing := some (a, yoke) })
      let other (e : RingEntry) : Bool := match e with
        | .range m _ _ _ _ => m != l
        | .cont _ _ _ _ => true
      let cut (r : Ring) : Ring := { r with entries := r.entries.filter other, held := r.held.filter (fun e => other e.2) }
      let left (x : Steal) : Steal := { x with gift := x.gift.filter (fun g => other g.2) }
      let s : State := { s with rings := s.rings.map cut, steals := s.steals.map left }
      s.axeTeams (·.work.launch == some l)

/-- The monitor ends a partition's context (R360): its cores issue nothing more for it, its rings are empty, and its teams are
discarded; its launches go with the last of them (`State.discardTeam`). -/
def State.endContext (s : State) (part : Nat) : State :=
  let mine := s.allTeams.filter (·.part == part)
  let s := s.mapTeams (fun t => if t.part == part then { t with doomed := true } else t)
  let s := mine.foldl (fun s t => s.push (.discard t.agent)) s
  let freed (k : Core) : Core := { k with replay := k.replay.filter (·.part != part) }
  { s with cores := s.cores.map freed,
           saved := s.saved.map (fun x => if x.part == part then { x with replay := [] } else x),
           dies := s.dies.map (fun d => { d with park := d.park.filter (·.part != part),
                                                 part := if d.part == some part then none else d.part }),
           rings := s.rings.filter (·.part != part)
           fills := s.fills.filter (·.part != part)
           taken := (s.fills.filter (·.part == part)).foldl (fun l x => l.erase x.frame) s.taken
           steals := s.steals.map (fun x => if x.part == part then { x with gift := none } else x)
           launches := if mine.isEmpty then s.launches.filter (·.part != part)
             else s.launches.map (fun k => if k.part == part then { k with rbk := false, failing := none } else k) }

/-! ### Taking an exception (R351 to R361) -/

/-- The lowest class among the lanes that called trap (R12). -/
def lowestClass : List TrapRec → BitVec 4
  | [] => 15
  | r :: l => if r.cls.toNat ≤ (lowestClass l).toNat then r.cls else lowestClass l

/-- Where a handler entry goes (R351). -/
inductive Entry.Kind where
  | plain | double | call | lost | freeze
  deriving DecidableEq, Repr

/-- The row of R351: kind, vector, level in the handler. -/
def vectorOf (s : State) (p : Partition) (w : Wave) (cls : BitVec 4) : Entry.Kind × Nat × BitVec 2 :=
  let k (c : Nat) : Nat := p.tvbk.toNat + c * 0x100
  let m (c : Nat) : Nat := s.tvbm.toNat + c * 0x100
  match w.level.toNat, w.h with
  | 0, _ => (.plain, k cls.toNat, 1)
  | 1, none => if cls = 13 then (.plain, m 13, 2) else (.plain, k cls.toNat, 1)
  | 1, some h =>
    if cls = 13 then (.call, m 13, 2)
    else if h.depth = 0 then (.double, k 15, 1)
    else (.lost, m 15, 2)
  | _, none => (.plain, m cls.toNat, 2)
  | _, some _ => (.freeze, 0, 2)

/-- FLG of a side entry (R353). -/
def sideFlg (t x l k : Bool) : Nat := t.toNat + 2 * x.toNat + 4 * l.toNat + 8 * k.toNat

/-- The 16 bytes of a lane's side entry (R353), as a number; its low word is what g0 takes. -/
def sideEntry (r : Option TrapRec) (x l k : Bool) (iss : Nat) : Nat :=
  match r with
  | none => sideFlg false x l false * 2 ^ 16
  | some r => r.sub.toNat + r.cls.toNat * 2 ^ 8 + sideFlg true x l k * 2 ^ 16 + iss % 16 * 2 ^ 24 +
      r.addr.toNat * 2 ^ 32 + r.aux.toNat * 2 ^ 96

/-- g0–g3 of a register window. -/
def Regs.g03 (r : Regs) : List Word := [vget r.g 0, vget r.g 1, vget r.g 2, vget r.g 3]

/-- Which of g0–g3 are poisoned. -/
def Regs.bad03 (r : Regs) : List Nat := (List.range 4).filter (fun n => r.bad.contains (false, n))

/-- Writes g0 and g1: a write clears poison (R413). -/
def Regs.setG01 (r : Regs) (x y : Word) : Regs :=
  { r with g := vset (vset r.g 0 x) 1 y, bad := r.bad.filter (fun b => !(b == (false, 0) || b == (false, 1))) }

/-- What an entry saves of a lane's window (R354). -/
def Fibre.low4 (f : Fibre) (lane : Nat) : Low4 :=
  ⟨lane, f.regs.g03, f.regs.bad03, (f.shadow.map Regs.g03).getD [], (f.shadow.map Regs.bad03).getD []⟩

/-- A lane has issued a word: each open window of it is one word shorter, or closed (R42). -/
def Wave.passWindows (w : Wave) (lane : Nat) (closes : Bool) : Wave :=
  let pass (r : LaneRec) : LaneRec :=
    if r.lane == lane then { r with iss := if r.win = 0 then r.iss else r.iss + 1, win := if closes then 0 else r.win - 1 }
    else r
  { w with unfinished := w.unfinished.map (fun e => { e with lanes := e.lanes.map pass }) }

/-- The lanes that trap at a word await none of its accesses any more: when it issues again they ask anew (R396). -/
def State.dropOutst (s : State) (part : Nat) (a : AgentId) (wv : Nat) (lanes : List Nat) (pc : Addr) : State :=
  { s with outst := s.outst.filter (fun o =>
      !(o.part == part && o.agent == a && o.wave == wv && lanes.contains o.lane && o.pc == pc)) }

/-- Where a lane of a wave stands, or will stand after the returns that are saved: its PC and those of unfinished words. -/
def Wave.placesOf (w : Wave) (lane : Nat) (pc : Addr) : List Addr :=
  let saved (h : Option HSave) : List Addr := match h with
    | some h => (h.resume.filter (·.lane == lane)).map (·.pc) ++ h.replay.map (·.pc)
    | none => []
  pc :: w.unfinished.map (·.pc) ++ saved w.h ++ saved w.d1 ++ saved w.mc

/-- After a return, the accesses of words to which no lane of the wave comes back are awaited no more. -/
def State.pruneOutst (s : State) (a : AgentId) (wv : Nat) : State :=
  match s.team? a with
  | none => s
  | some t =>
    let gone (o : Outst) : Bool := o.part == t.part && o.agent == a && o.wave == wv &&
      !(match t.fibres.find? (·.1 == wv * t.width + o.lane) with
        | some x => ((t.wave wv).placesOf o.lane x.2.pc).contains o.pc
        | none => false)
    { s with outst := s.outst.filter (fun o => !gone o) }

/-- Context goes to a partition's swap area (R224, R363, R364). The spec lays the area out nowhere: which bytes change there, and to
what, is free. A partition whose SWAPB is 0 has no area (log 46). -/
def State.writeSwap (s : State) (part : Nat) : State :=
  match s.part? part with
  | none => s
  | some p =>
    if p.swapb = 0 then s
    else (Config.swapImage s.tick).foldl (fun s b =>
      let a := (p.swapb.toNat + b.1) % 2 ^ 52
      if frameLoc (a / 4096) = .hole then s else s.writeP a 1 b.2.toNat) s

/-- The fibres of a wave leave their waits in MFAC and MPIV (R352): a command that has not completed is treated as not issued, and a
pivot it has presented is presented no more; what it has done stands (R193). One whose trap the batch at `pc` takes now is no longer
waited for: after RFT its word runs anew (R193, R362). -/
def State.leaveWaits (s : State) (a : AgentId) (wv : Nat) (pc : Addr) (batch : List Nat) : State :=
  let mine (j : Job) : Bool := j.agent == a && (match j.wait with | some (w, _, _) => w == wv | none => false)
  let open' (j : Job) : Bool := mine j && j.st != .done && !s.pivs.any (fun o => o.agent == a && o.wave == 1000 + j.id && o.result.isSome)
  let taken (j : Job) : Bool := mine j && j.st == .done && j.trap.isSome &&
    (match j.wait with | some (_, l, p) => p == pc && batch.contains l | none => false)
  { s with pivs := s.pivs.filter (fun o => !(o.agent == a && s.jobs.any (fun j => open' j && o.wave == 1000 + j.id))),
           jobs := (s.jobs.filter (fun j => !open' j)).map (fun j => if taken j then { j with wait := none } else j) }

/-- A wave enters a handler for the traps its lanes called (R352). A TRAP or SYSC is complete, and counts in the windows of its
fibres (R209, R42). Commands of the engines that it waits for are left (`leaveWaits`). `execs` are the lanes that executed the word,
`batch` the lanes that resume at it, `late` the long-latency word whose trap is late (R356). -/
def State.enterHandler (s : State) (a : AgentId) (wv : Nat) (tepc : Addr) (traps : List TrapRec)
    (execs batch : List Nat) (late : Option Entry) : State :=
  match s.team? a with
  | none => s
  | some t =>
  match s.part? t.part with
  | none => s
  | some p =>
    let w := t.wave wv
    let cls := lowestClass traps
    let sub := ((traps.find? (·.cls == cls)).map (·.sub)).getD 0
    let (kind, vec, lvl) := vectorOf s p w cls
    let isDouble := kind == .double || kind == .lost
    if kind == .freeze || traps.any (fun r => bitOf s.frzcfg r.cls.toNat) || (isDouble && bitOf s.frzcfg 15) then
      { s with power := .frozen }
    else if traps.any (·.cls == 12) && (s.rollsBack t).isSome then { s.failAttempt a ((s.rollsBack t).getD 0) true with cur := none }
    else
      let live := t.liveLanes wv
      let n := waveNumber a w
      let recOf (l : Nat) : Option TrapRec := traps.find? (·.lane == l)
      let issOf (l : Nat) : Nat := match late with
        | none => 0
        | some e => ((e.lanes.find? (·.lane == l)).map (·.iss)).getD 0
      let side (l : Nat) : Nat := sideEntry (recOf l) (execs.contains l) (live.contains l) late.isSome (issOf l)
      let s := (List.range 32).foldl (fun s l => s.writeP (p.tside.toNat + n * 512 + 16 * l) 16 (side l)) s
      let fibs := t.fibres.filter (fun x => x.1 / t.width == wv)
      let whole := late.isNone && !isDouble && (cls = 13 || cls = 14)
      let left := if whole then (batch.foldl (fun w l => w.passWindows l false) w).unfinished else w.unfinished
      let save : HSave := {
        tcause := 0
        tepc := 0
        level := w.level
        depth := if isDouble then 1 else 0
        resume := fibs.map (fun x => ⟨x.1 % t.width, x.2.pc, x.2.grp, x.2.own⟩)
        batch := batch
        replay := match late with
          | none => left
          | some e => left.takeWhile (fun x => x.id != e.id)
        gs := fibs.map (fun x => x.2.low4 (x.1 % t.width))
        ss := [vget w.s 0, vget w.s 1, vget w.s 2, vget w.s 3]
        sBad := false
        dues := w.due }
      let moved : Option HSave := w.h.map (fun h => { h with tcause := w.tcause, tepc := w.tepc })
      let w' : Wave := { w with
        level := lvl
        s := vset w.s 0 (BitVec.ofNat 32 n)
        tcause := BitVec.ofNat 32 (if isDouble then 15 + cls.toNat * 2 ^ 8 + 2 ^ 16 else cls.toNat + sub.toNat * 2 ^ 8)
        tepc := tepc
        h := some save
        d1 := if kind == .double then moved else w.d1
        mc := if kind == .call then moved else w.mc
        lost := w.lost || kind == .lost
        unfinished := []
        stuck := []
        due := [] }
      let enter (l : Nat) (f : Fibre) : Fibre :=
        let x := BitVec.ofNat 32 (side l)
        let y := ((recOf l).map (·.aux)).getD 0
        { f with regs := f.regs.setG01 x y, shadow := f.shadow.map (·.setG01 x y),
                 pc := BitVec.ofNat 52 vec, st := .run, held := [], grp := s.tick * 2048, own := none }
      let s := s.updTeam a (fun t => { t with
        waves := vset t.waves wv w',
        fibres := t.fibres.map (fun x => if x.1 / t.width == wv then (x.1, enter (x.1 % t.width) x.2) else x) })
      let s := if kind == .lost then s.push (.endPart p.id) else s
      let s := s.leaveWaits a wv tepc batch
      let s := if kind == .double || kind == .call then s.writeSwap p.id else s
      let s := s.dropOutst p.id a wv (traps.map (·.lane)) ((late.map (·.pc)).getD tepc)
      { s with cur := none }

/-! ### Returning from an exception (R210, R357 to R359) -/

/-- Restores g0–g3 of a register window, with their poison (R413); g0 and g1 only when `all` (R357). -/
def Regs.restore (r : Regs) (all : Bool) (g : List Word) (bad : List Nat) : Regs :=
  match g with
  | [x0, x1, x2, x3] =>
    let g' := vset (vset r.g 2 x2) 3 x3
    let covers (n : Nat) : Bool := n < 4 && (all || 2 ≤ n)
    { r with g := if all then vset (vset g' 0 x0) 1 x1 else g',
             bad := r.bad.filter (fun b => b.1 || !covers b.2) ++ (bad.filter covers).map (fun n => (false, n)) }
  | _ => r

/-- RFT of a wave whose handler's words have completed (R210, R357). -/
def State.returnHandler (s : State) (a : AgentId) (wv : Nat) : State :=
  match s.team? a with
  | none => s
  | some t =>
    let w := t.wave wv
    match w.h with
    | none => s
    | some h =>
      let cls := bits w.tcause.toNat 0 4
      let stand := cls = 13 || cls = 14
      let back : Addr := if stand then w.tepc + 8 else w.tepc
      let (outer, d1, mc) : Option HSave × Option HSave × Option HSave :=
        if w.mc.isSome then (w.mc, w.d1, none)
        else if h.depth = 1 then (w.d1, none, none)
        else (none, w.d1, none)
      let ss := h.ss
      let s4 := (((vset w.s 0 (ss.getD 0 0)) |> (vset · 1 (ss.getD 1 0))) |> (vset · 2 (ss.getD 2 0))) |>
        (vset · 3 (ss.getD 3 0))
      let w' : Wave := { w with
        level := h.level
        s := s4
        tcause := (outer.map (·.tcause)).getD w.tcause
        tepc := (outer.map (·.tepc)).getD w.tepc
        h := outer
        d1 := d1
        mc := mc
        unfinished := h.replay
        stuck := []
        due := h.dues }
      let leave (l : Nat) (f : Fibre) : Fibre :=
        let f := match h.gs.find? (·.lane == l) with
          | some k => { f with regs := f.regs.restore (!stand) k.g k.bad,
                               shadow := f.shadow.map (fun (r : Regs) => r.restore (!stand) k.sg k.sbad) }
          | none => f
        let f := match h.resume.find? (·.lane == l) with
          | some q => { f with pc := q.pc, grp := q.grp, own := q.own }
          | none => { f with own := none }
        { f with pc := if h.batch.contains l then back else f.pc, st := .run, held := [] }
      let s := s.updTeam a (fun t => { t with
        waves := vset t.waves wv w',
        fibres := t.fibres.map (fun x => if x.1 / t.width == wv then (x.1, leave (x.1 % t.width) x.2) else x),
        chki := if h.sBad then t.chki ||| 8 else t.chki })
      { s.pruneOutst a wv with cur := none }

/-! ### Landing (R42, R43) -/

/-- Writes a result into one register of a window: part `j` of the value. -/
def Regs.put (r : Regs) (o : Opnd) (j : Nat) (v : QWord) (t : BitVec 4) : Regs :=
  match o with
  | .g n => { r with g := vset r.g n.toNat (v.extractLsb' (32 * j) 32), bad := r.bad.erase (false, n.toNat) }
  | .f n => { r with f := vset r.f n.toNat (v.extractLsb' (64 * j) 64), tag := vset r.tag n.toNat t,
                     bad := r.fClean n.toNat }
  | .i n => { r with ix := vset r.ix n.toNat (v.extractLsb' 0 32) }
  | _ => r

/-- Writes a result into its registers, first register first. -/
def Regs.putAll (r : Regs) (l : List Opnd) (v : QWord) (t : BitVec 4) : Regs :=
  (l.zipIdx).foldl (fun r x => r.put x.1 x.2 v t) r

/-- The uniform part of a result: its s registers. -/
def Wave.putAll (w : Wave) (l : List Opnd) (v : QWord) : Wave :=
  (l.zipIdx).foldl (fun w x => match x.1 with
    | .s n => { w with s := vset w.s n.toNat (v.extractLsb' (32 * x.2) 32) }
    | _ => w) w

/-- Lands one lane's result; one that is poisoned where it is kept is consumed as it lands (R414). -/
def State.landLane (s : State) (a : AgentId) (wv : Nat) (e : Entry) (r : LaneRec) : State :=
  let d := destsOf e.ins r.cap
  let land (f : Fibre) : Fibre :=
    { f with regs := f.regs.putAll d r.res r.rtag,
             shadow := f.shadow.map (fun (x : Regs) => x.putAll (destsOf e.ins r.scap) r.sres r.rtag) }
  let s := if e.bad.contains r.lane then s.updTeam a (fun t => { t with chki := t.chki ||| 8 }) else s
  let s := s.updFibre a wv r.lane land
  s.updWave a wv (·.putAll d r.res)

/-- Whether an operand is an s register. -/
def isS (o : Opnd) : Bool := match o with | .s _ => true | _ => false

/-- Whether a lane's result may land: performed, its window spent, and no earlier result of the lane for the same
register outstanding (R42). An s register takes its value when the windows of all its lanes are spent: until then a lane inside
its window reads the old one. -/
def mayLand (before : List Entry) (e : Entry) (r : LaneRec) : Bool :=
  r.perf && r.win == 0 && (!(destsOf e.ins r.cap).any isS || e.lanes.all (fun q => q.perf && q.win == 0)) &&
  !before.any (fun x => x.lanes.any (fun q => q.lane == r.lane &&
    (destsOf x.ins q.cap).any (fun o => (destsOf e.ins r.cap).contains o)))

/-- Lands what may land, entry by entry in issue order. -/
def landList (a : AgentId) (wv : Nat) : List Entry → List Entry → State → State × List Entry
  | before, [], s => (s, before)
  | before, e :: l, s =>
    let ready := e.lanes.filter (mayLand before e)
    let s := ready.foldl (fun s r => s.landLane a wv e r) s
    let rest := e.lanes.filter (fun r => !mayLand before e r)
    if rest.isEmpty then landList a wv before l s
    else landList a wv (before ++ [{ e with lanes := rest }]) l s

/-- Lands a wave's results. -/
def State.landReady (s : State) (a : AgentId) (wv : Nat) : State :=
  match s.wave? a wv with
  | none => s
  | some w =>
    let (s, rest) := landList a wv [] w.unfinished s
    s.updWave a wv (fun w => { w with unfinished := rest })

/-- A lane's unfinished words are dropped with their results (R42, R83). -/
def Wave.dropLane (w : Wave) (lane : Nat) : Wave :=
  let cut (e : Entry) : Entry := { e with lanes := e.lanes.filter (·.lane != lane), execs := e.execs.filter (· != lane) }
  { w with unfinished := (w.unfinished.map cut).filter (fun e => !e.lanes.isEmpty) }

/-- Whether a lane has an unfinished word that is not performed. -/
def Wave.pendingLane (w : Wave) (lane : Nat) : Bool :=
  w.unfinished.any (fun e => e.lanes.any (fun r => r.lane == lane && !r.perf))

/-! ### Running a word (R12, R28, R33, R78, R98) -/

/-- Whether a lane's register window passes a guard (R28, R33). -/
def guardPass (g : Option Guard) (r : Regs) : Bool :=
  match g with
  | none => true
  | some g => bitOf (vget r.g g.reg.toNat) g.bit.toNat != g.sense

/-- Applies the uniform writes of a word (R18). -/
def Wave.applyUni (w : Wave) : Uni → Wave
  | .s n v => { w with s := vset w.s n.toNat v }
  | .a n b st => { w with a := vset w.a n.toNat (b, st) }
  | .later _ _ => w

/-- Two writes of one uniform register that differ. -/
def uniClash : Uni → Uni → Bool
  | .s n v, .s m u => n = m && v ≠ u
  | .a n b s, .a m c t => n = m && (b, s) ≠ (c, t)
  | .later n v, .later m u => n = m && v ≠ u
  | _, _ => false

/-- R106: PARTIAL unless the batch is every live fibre and all pass the guard; DIVERGE when the values differ. -/
def uniFault (live execs : List Nat) (u : List Uni) : Option (BitVec 8) :=
  if u.isEmpty then none
  else if !live.all execs.contains then some 1
  else if u.any (fun x => u.any (uniClash x)) then some 2
  else none

/-- A trap in each of several lanes. -/
def trapAll (lanes : List Nat) (cls : BitVec 4) (sub : BitVec 8) : List TrapRec := lanes.map (fun l => ⟨l, cls, sub, 0, 0⟩)

/-- A lane is done with the word: its PC, its standing, its windows. -/
def State.laneDone (s : State) (a : AgentId) (wv : Nat) (d : LaneDone) : State :=
  (s.updFibre a wv d.lane (fun f => { f with pc := d.npc, st := d.hold.getD .run, grp := s.tick * 2048 })).updWave a wv
    (·.passWindows d.lane d.closes)

/-- How the lanes of a word stand to one another when one blocks or parks. `each`: no lane of the word has an effect while one is
blocked, so that a trap at its end finds nothing done (R12); parked ones are left behind (R292). `own`: each waits alone, and the
others leave it behind (R83, R92, R97, R169, R172, R204). `order`: in order, later ones behind a blocked one (R98); with a uniform
destination (`uniform`) its value stands when the last lane has acted (R18). `all`: all together, none with an effect before the
last. `once`: one lane for the batch (R79). -/
inductive WMode where
  | each | own | order | uniform | all | once
  deriving DecidableEq, Repr

/-- Whether lanes act in lane order. -/
def WMode.inOrder (m : WMode) : Bool := match m with | .each | .own => false | _ => true

/-- Whether a blocked batch is the one that issues. -/
def Stuck.isOf (k : Stuck) (b : Issue) : Bool := k.pc == b.pc && b.lanes.any (fun l => k.todo.contains l || k.done.contains l)

/-- The unfinished words that a word leaves: a result for an s register concerns every lane that executed the word (R42, R154). -/
def spreadRecs (recs : List LaneRec) (dones : List LaneDone) (i : Instr) : List LaneRec :=
  match i with
  | .lds .. => recs.flatMap (fun r => dones.map (fun d => { r with lane := d.lane }))
  | _ => recs

/-- What the lanes that are done leave: uniform registers, PCs and windows, unfinished words; the batch's former blocked
place is gone. -/
def State.retire (s : State) (i : Instr) (b : Issue) (id : Nat) (r : Run) : State :=
  let s := s.updWave b.agent b.wave (fun w => r.unis.foldl Wave.applyUni w)
  let s := r.dones.foldl (fun s d => s.laneDone b.agent b.wave d) s
  let s := if r.recs.isEmpty then s
    else s.updWave b.agent b.wave (fun w => { w with unfinished := w.unfinished ++
      [⟨id, i, b.pc, spreadRecs r.recs r.dones i, [], r.recs.map (·.lane), false, []⟩] })
  s.updWave b.agent b.wave (fun w => { w with stuck := w.stuck.filter (fun k => !k.isOf b) })

/-- No lane of the batch is blocked any more: they go on as one batch (R78). -/
def State.unstick (s : State) (b : Issue) : State :=
  b.lanes.foldl (fun s l => s.updFibre b.agent b.wave l (fun f =>
    if f.st == .stuck then { f with st := .run, grp := s.tick * 2048 } else f)) s

/-- The batch stands blocked in its word: the lanes that wait, and the others behind them (R98, R292). -/
def State.standBlocked (s : State) (b : Issue) (waits : List Nat) (why : Wait) (ent : Option Nat) (execs : List Nat)
    (unis : List Uni) (word : Option Instr := none) : State :=
  let s := b.lanes.foldl (fun s l => s.updFibre b.agent b.wave l (fun f => { f with st := .stuck })) s
  s.updWave b.agent b.wave (fun w => { w with
    stuck := w.stuck ++ [⟨b.pc, waits, b.lanes.filter (fun l => !waits.contains l), why, ent, execs, unis, word⟩] })

/-- The traps of a word: where the lanes that called trap all called classes above UNIFORM, the others call UNIFORM if its check
fails (R12, R106). -/
def Run.allTraps (r : Run) (execs : List Nat) (uf : Option (BitVec 8)) : List TrapRec :=
  match uf with
  | some sub =>
    if r.traps.all (fun t => 11 < t.cls.toNat) then
      r.traps ++ trapAll (execs.filter (fun l => !r.traps.any (·.lane == l))) 11 sub
    else r.traps
  | none => r.traps

/-- What stands of a run in which lanes wait: nothing but what they have asked for, or what the lanes that are done did. -/
def Run.kept (m : WMode) (r : Run) : Run :=
  let waits := !r.held.isEmpty || !r.parks.isEmpty
  if (m == .each && !r.held.isEmpty) || (m == .all && waits) then
    { r with st := r.base, dones := [], unis := [], recs := [], parks := if m == .each then [] else r.parks }
  else if m == .once && waits then { r with dones := [], unis := [], recs := [] }
  else r

/-- The lanes of a batch that wait after a run. -/
def Run.waits (m : WMode) (r : Run) (b : Issue) : List Nat :=
  if (m == .each && !r.held.isEmpty) || ((m == .all || m == .once) && (!r.held.isEmpty || !r.parks.isEmpty)) then b.todo
  else b.todo.filter (fun l => r.held.contains l || r.later.contains l || r.parks.any (·.1 == l))

/-- The word's end over its batch: a word that meets a register still waiting for a result does not issue (R42); traps enter the
handler from the state before the word (R12); otherwise what the lanes did stands, blocked and parked lanes stay behind with the
batch (R98, R292), and results land. -/
def finishWord (i : Instr) (b : Issue) (live execs : List Nat) (s0 : State) (m : WMode) (after : State → State)
    (r : Run) : State :=
  let traps := r.allTraps execs (uniFault live execs r.unis)
  if r.locked then { s0 with cur := none }
  else if !traps.isEmpty then (r.noted.keepReads r.st b.agent).enterHandler b.agent b.wave b.pc traps execs b.todo none
  else
    let waits := r.waits m b
    let k := r.kept m
    let part := ((s0.team? b.agent).map (·.part)).getD 0
    let why := r.why.getD (if r.later.isEmpty then .drain else .lanes)
    let (st, ent, why) : State × Option Nat × Wait :=
      if k.parks.isEmpty then (k.st, none, why)
      else match k.st.parkLanes b.agent b.wave part b.pc none k.parks with
        | some (s, e) => (s.dropOutst part b.agent b.wave (k.parks.map (·.1)) b.pc, some e, .drain)
        | none => (k.st, none, .replayFull)
    if waits.isEmpty then { after (((st.retire i b s0.tick k).unstick b).landReady b.agent b.wave) with cur := none }
    else
      let s := (st.retire i b s0.tick { k with unis := [] }).standBlocked
        (if m == .own then { b with lanes := waits } else b) waits why ent execs k.unis
        (some i)
      { after (s.landReady b.agent b.wave) with cur := none }

/-- What each lane's part of a word starts from, but for the lane and the state so far. -/
def Issue.lanes0 (b : Issue) (s : State) (t : Team) (execs : List Nat) : LS :=
  { st := s, st0 := s, clean := s, base := s, agent := b.agent, wave := b.wave, lane := 0, lvl := (t.wave b.wave).level.toNat,
    job := none, batch := b.lanes, execs := execs, pc := b.pc, npc := b.pc + 8, closes := false, hold := none, unis := [],
    effs := [], recs := [] }

/-- The body of a word: the shadow member of a pair tests the guard for itself (R368). -/
def guarded (g : Option Guard) (body : Bool → L Unit) (sh : Bool) : L Unit :=
  if sh then do
    if guardPass g (← L.fibre).regs then body true else pure ()
  else body false

/-- The registers of a lane of a wave. -/
def Team.regsAt (t : Team) (wv l : Nat) : Regs := ((t.fibre? (t.slot wv l)).map (·.regs)).getD Regs.zero

/-- Lanes that fail the guard are done at once (R28). -/
def guardedOut (b : Issue) (execs : List Nat) : List LaneDone :=
  (b.todo.filter (fun l => !execs.contains l)).map (fun l => ⟨l, b.pc + 8, false, none⟩)

/-- The state as the guard's register leaves it: poison there is consumed (R414). -/
def State.guardRead (s : State) (b : Issue) (t : Team) (g : Option Guard) : State :=
  match g with
  | none => s
  | some g =>
    if b.todo.any (fun l => (t.regsAt b.wave l).bad.contains (false, g.reg.toNat)) then
      s.updTeam b.agent (fun t => { t with chki := t.chki ||| 8 })
    else s

/-- Whether a guard names a register outside the window (R33). -/
def guardOut (g : Option Guard) (t : Team) : Bool := match g with | some g => decide (t.gWin ≤ g.reg.toNat) | none => false

/-- Whether the guard's register waits for a result in a lane (R42). -/
def guardOwed (g : Option Guard) (w : Wave) (lanes : List Nat) : Bool :=
  match g with | some g => lanes.any (fun l => w.owes l (.g g.reg)) | none => false

/-- The run of a word over its batch; with a lane that parks, no other lane comes later (R12, R292). -/
def runBatch (i : Instr) (g : Option Guard) (m : WMode) (after : Issue → State → State) (body : Bool → L Unit) (s : State)
    (b : Issue) (t : Team) : State :=
  let execs := b.lanes.filter (fun l => guardPass g (t.regsAt b.wave l))
  let s1 := s.guardRead b t g
  let run (later : List Nat) : Run :=
    runLanes (guarded g body) m.inOrder later (b.lanes0 s1 t execs) (b.todo.filter execs.contains)
      (Run.start s1 (guardedOut b execs) (((t.wave b.wave).stuck.filter (·.isOf b)).flatMap (·.unis)))
  let r := run (if m == .each then b.later else [])
  finishWord i b (t.liveLanes b.wave) execs s m (after b) (if !r.later.isEmpty && !r.parks.isEmpty then run [] else r)

/-- Runs a word over the issuing batch; `after` is what follows once the lanes are done. -/
def runWord (i : Instr) (g : Option Guard) (m : WMode) (after : Issue → State → State)
    (body : Bool → L Unit) (s : State) : Host.Outcome State Fault Refusal :=
  match s.cur with
  | none => .fault .noBatch
  | some b =>
    match s.team? b.agent with
    | none => .fault .noBatch
    | some t =>
      if guardOut g t then .next (s.enterHandler b.agent b.wave b.pc (trapAll b.todo 1 1) b.todo b.todo none)
      else if guardOwed g (t.wave b.wave) b.todo then .next { s with cur := none }
      else .next (runBatch i g m after body s b t)

/-- A word whose lanes act alike in both members of a pair, and need nothing after them. -/
def laneWord (i : Instr) (h : Hdr) (m : WMode) (body : L Unit) (s : State) : Host.Outcome State Fault Refusal :=
  runWord i h.guard m (fun _ => id) (fun _ => body) s

/-- A word that acts once for its batch (R79, R208): the first executing lane carries it. -/
def onceWord (i : Instr) (h : Hdr) (after : Issue → State → State) (body : L Unit) (s : State) :
    Host.Outcome State Fault Refusal :=
  runWord i h.guard .once after (fun _ => do
    let x ← get
    if x.execs.head? == some x.lane then
      body
      modify (fun x => { x with effs := [] })
    else pure ()) s

/-! ### One lane's access to memory (R11, R147 to R150, R156) -/

/-- A precise PAGE trap that no walk is involved in, RANGE or ALIGN: WLVL 7 and the access kind in its aux word (R291, R294, R353). -/
def L.pageTrap {α : Type} (sub : BitVec 8) (va acc : Nat) : L α := L.trap 8 sub va (BitVec.ofNat 32 (7 + acc * 16))

/-- The fate of a walk fault (R291): a level-0 lane, and an engine job, parks while FLTQ ≠ 0; otherwise a precise
PAGE trap, or the job's error. -/
def L.walkFault {α : Type} (va : Nat) (sub : BitVec 8) (lvl : Nat) (gen : BitVec 16) (acc : Nat) : L α := do
  let p ← L.part
  if ((← get).job.isSome ∨ (← L.level) = 0) ∧ p.fltq ≠ 0 then L.stop (.park ⟨va, sub, lvl, gen, acc⟩)
  else L.trap 8 sub va (BitVec.ofNat 32 (lvl + acc * 16))

/-- Checks and places an access; none when the page lies in another package. -/
def L.locate (kind : AK) (ea size : Nat) : L (Option Nat × QWord) := do
  let x ← get
  let p ← L.part
  let acc := if x.job.isSome then (if kind.writes then 6 else 5) else kind.acc
  let r : Req := ⟨coreOf x.agent, x.agent, p.id, x.lvl, kind, ea, size, x.job.isNone⟩
  match resolve x.st p r with
  | .ok pa leaf s => L.setSt s; return (some pa, leaf)
  | .remote leaf s => L.setSt s; return (none, leaf)
  | .mmx sub leaf => L.trap 6 sub ea (mmxAux leaf)
  | .fault sub lvl gen => L.walkFault ea sub lvl gen acc
  | .stall s => L.blockWith .move (fun c => { c with agenda := s.agenda, taken := s.taken, fills := s.fills })

/-- As `locate`, for the steps that the contention predictor places (R247). -/
def L.locateAtomic (kind : AK) (ea size : Nat) : L (Option Nat × QWord) := do
  let (pa, leaf) ← L.locate kind ea size
  if pa.isSome && lfMode leaf == mAtomic then
    let x ← get
    let p ← L.part
    L.setSt (x.st.atomicPlace p (coreOf x.agent) (ea / 4096))
    L.locate kind ea size
  else return (pa, leaf)

/-! ### Accesses to pages of other packages (R289, R396) -/

/-- What the lane has asked of another package at an address and not yet taken. -/
def L.asked (ea : Nat) : L (Option Outst) := do
  let x ← get
  let p ← L.part
  return x.st.outst.find? (fun o =>
    o.part == p.id && o.agent == x.agent && o.wave == x.wave && o.lane == x.lane && o.pc == x.pc && o.va.toNat == ea)

/-- Writes of the lane to pages of other packages that are not delivered (R164): the fibre's own; for an engine job, those of its
team. -/
def L.undelivered : L (List SentMsg) := do
  let x ← get
  let t ← L.team
  if x.job.isSome then return x.st.sent.filter (fun m => m.part == t.part && m.agent == x.agent && m.acc != 6 && !m.heard)
  else
    let f ← L.fibre
    return x.st.sent.filter (fun m => f.remoteWrites.contains m.mid)

/-- A remote load or atomic (R156, R289, R396): the request leaves, after a release where one comes first (R254), and the lane
waits; with its response the lane goes on, or meets the refusal or walk fault of the home. -/
def L.remoteCallP (ea : Nat) (acc : Nat) (leaf : QWord) (op : RemoteOp) (first : State → State := id)
    (busy : Wait := .remote) : L (Nat × Bool) := do
  let x ← get
  let p ← L.part
  let lvl ← L.level
  match ← L.asked ea with
  | none =>
    L.blockWith .remote (fun c =>
      let (mid, c) := (first c).newMid
      let c : State := { c with outst := c.outst ++ [⟨mid, p.id, x.agent, x.wave, x.lane, x.pc, BitVec.ofNat 52 ea, none⟩] }
      c.sendRequest (lfPkg leaf) ⟨c.pkg, mid, p.id, x.agent, lvl, BitVec.ofNat 52 ea, op⟩)
  | some o =>
    match o.resp with
    | none => L.block .remote
    | some r =>
      let acc := if x.job.isSome then (if acc = 0 then 5 else 6) else acc
      let taken (c : State) : State := { c with outst := c.outst.filter (fun q => q.mid != o.mid) }
      L.modSt taken
      match r.refused with
      | none =>
        if r.again then L.blockWith busy taken
        if r.poison then L.chki 0x40
        return (r.value, r.poison)
      | some (6, sub) => L.trap 6 sub ea (mmxAux leaf)
      | some (8, sub) => L.walkFault ea sub 0 0 acc
      | some (cls, sub) => L.trap cls sub ea

/-- Its value alone. -/
def L.remoteCall (ea : Nat) (acc : Nat) (leaf : QWord) (op : RemoteOp) (first : State → State := id) : L Nat := do
  return (← L.remoteCallP ea acc leaf op first).1

/-- A remote store or RED (R156, R289): performed when it leaves; its delivery is awaited by fences. Requests of
one agent to one page are performed in the order in which they leave (R253, `State.enabled`). -/
def L.remoteStore (ea : Nat) (acc : BitVec 8) (leaf : QWord) (op : RemoteOp) : L Unit := do
  let x ← get
  let p ← L.part
  let t ← L.team
  let lvl ← L.level
  let (mid, s) := x.st.newMid
  let s := s.sendRequest (lfPkg leaf) ⟨s.pkg, mid, p.id, x.agent, lvl, BitVec.ofNat 52 ea, op⟩
  L.setSt { s with sent := s.sent ++ [⟨mid, lfPkg leaf, p.id, x.agent, acc, BitVec.ofNat 52 ea, false, false,
    x.job, t.work.launch⟩] }
  L.modFibre (fun f => { f with remoteWrites := f.remoteWrites ++ [mid] })

/-- A global load of `size` bytes (R11, R149). -/
def L.load (kind : AK) (ea size : Nat) : L Nat := do
  let (pa, leaf) ← if kind == .lda then L.locateAtomic kind ea size else L.locate kind ea size
  match pa with
  | some pa =>
    let x ← get
    if x.st.poisoned pa size then L.chki (chkiOf pa)
    return x.st.readP pa size
  | none =>
    L.remoteCall ea kind.acc leaf (if kind == .lda then .lda size else .load size)

/-- A store's effect on the fibre's own record of compared effects. -/
def L.noteStore (ea v : Nat) : L Unit := L.effect ⟨false, ea, v⟩

/-- A global store of `size` bytes (R11, R149). -/
def L.store (kind : AK) (ea size v : Nat) : L Unit := do
  L.noteStore ea v
  let (pa, leaf) ← if kind == .stl then L.locateAtomic kind ea size else L.locate kind ea size
  match pa with
  | some pa => L.modSt (·.writeP pa size v)
  | none => L.remoteStore ea 1 leaf (if kind == .stl then .stl size (BitVec.ofNat 128 v) else .store size (BitVec.ofNat 128 v))

/-- A release at FABRIC waits for the writes to other packages that it covers (R254). -/
def L.awaitWrites (scope : Nat) : L Unit := do
  if scope = 4 ∧ !(← L.undelivered).isEmpty then L.block .fence

/-- A release of the lane at a scope (R239, R254). -/
def L.release (scope : Nat) : L Unit := do
  L.awaitWrites scope
  let x ← get
  let p ← L.part
  L.setSt (x.st.release p.id (coreOf x.agent) scope)

/-! ### Scratch (R148, R235) -/

/-- Whether any of `n` scratch bytes is poisoned. -/
def Team.scrBad (t : Team) (off n : Nat) : Bool := t.scratchBad.any (fun u => u < off + n && off < u + 8)
def Team.rdScr (t : Team) (off n : Nat) : Nat := t.scratch.read off n
/-- Writes scratch; a unit wholly covered loses its poison (R413). -/
def Team.wrScr (t : Team) (off n v : Nat) : Team :=
  { t with scratch := t.scratch.write off n v,
           scratchBad := t.scratchBad.filter (fun u => !(off ≤ u && u + 8 ≤ off + n)) }
/-- Writes a list of bytes to scratch. -/
def Team.wrScrBytes (t : Team) (off : Nat) (l : List (BitVec 8)) : Team :=
  { t with scratch := t.scratch.writeBytes off l,
           scratchBad := t.scratchBad.filter (fun u => !(off ≤ u && u + 8 ≤ off + l.length)) }

/-- SCRATCH ALIGN, then SCRATCH BOUND (R147, R148). -/
def L.checkScr (off size al : Nat) : L Unit := do
  if off % al ≠ 0 then L.trap 7 2 off
  if (← L.team).scr < off + size then L.trap 7 1 off

/-- Loads `size` scratch bytes. -/
def L.loadScr (off size : Nat) : L Nat := do
  let t ← L.team
  if t.scrBad off size then L.chki 4
  return t.rdScr off size

/-- Stores `size` scratch bytes. -/
def L.storeScr (off size v : Nat) : L Unit := do
  L.effect ⟨false, off, v⟩
  L.modTeam (·.wrScr off size v)

end Sys2Proof.Machine
end

