-- ==== Sys2Proof/Machine/Operands.lean ====
section
/-! DEFINITION. Every operand form (R11, R17, R35 to R37, R40): register reads and writes, pairs, indexed registers,
immediates, channel pops, peeks and pushes (R22, R36, R98, R244, R245, R384), address formation; and words whose
result may come late (R41 to R43). -/

namespace Sys2Proof.Machine

namespace L

/-! ### Channels (R22, R98) -/

/-- What a channel operation needs of its ring: head, tail, filled, and where slot 0 lies. -/
structure Ring where
  scratch : Bool
  base : Nat
  head : Nat
  tail : Nat
  filled : Nat
  slots : Nat
  size : Nat
  deriving DecidableEq, Repr

/-- The entry of a channel; ILL CHAN when it is unbound or lacks the role (R22). -/
def chan (n : Nat) (push : Bool) : L Chan := do
  let c := vget (← team).c n
  if !c.v then trap 0 0x0E
  if !(c.role = 3 || c.role = (if push then 2 else 1)) then trap 0 0x0E
  return c

/-- The place of one aligned word of a STREAM page (R245); none when the page lies in another package. -/
def streamWord (push : Bool) (va : Nat) : L (Option Nat × QWord) := locate (if push then .push else .pop) va 4

/-- Whether a word of a slot has been pushed into a page of another package and may not have arrived there. -/
def coming (va : Nat) : L Bool := do
  let x ← get
  let p ← part
  return x.st.sent.any (fun m => m.part == p.id && m.va.toNat == va && !m.heard)

/-- Reads a word of a ring's memory, with whether it is poisoned; a slot's page may lie in another package (R156), and then its bytes
must have arrived there, for a pop returns what the matching push wrote (R245). -/
def ringRd (scratch push : Bool) (a : Nat) (busy : Wait := .slot) : L (Nat × Bool) := do
  if scratch then
    let t ← team
    return (← loadScr a 4, t.scrBad a 4)
  else
    let (pa, leaf) ← streamWord push a
    match pa with
    | some pa =>
      let x ← get
      if x.st.poisoned pa 4 then chki (chkiOf pa)
      return (x.st.readP pa 4, x.st.poisoned pa 4)
    | none =>
      if ← coming a then block busy
      remoteCallP a 0 leaf .slotGet

/-- Writes a word of a ring's memory, poisoned if so it was (R413). -/
def ringWr (scratch push : Bool) (a v : Nat) (bad : Bool := false) : L Unit := do
  if scratch then modTeam (·.wrScr a 4 v)
  else
    let (pa, leaf) ← streamWord push a
    match pa with
    | some pa => modSt (fun s => if bad then (s.writeP pa 4 v).poison pa else s.writeP pa 4 v)
    | none => remoteStore a 1 leaf (.slotPut (BitVec.ofNat 32 v) bad)

/-- The leaf of a stream buffer's header page when it lies in another package, whose home carries out the channel's accesses
(R156, R245). -/
def abroad (c : Chan) (push : Bool) : L (Option QWord) := do
  if c.kind ≠ 1 then return none
  else
    let (pa, leaf) ← locate (if push then .push else .pop) c.base.toNat 4
    return if pa.isSome then none else some leaf

/-- A channel's ring: from the entry (KIND 0) or from the header of its buffer (R244, R384). -/
def ring (c : Chan) (push : Bool) : L Ring := do
  if c.kind = 0 then
    return ⟨true, c.base.toNat, c.head.toNat, (c.head.toNat + c.filled.toNat) % c.slots.toNat, c.filled.toNat,
      c.slots.toNat, c.size.toNat⟩
  else
    let scr := c.kind == 2
    let b := c.base.toNat
    match ← abroad c push with
    | some leaf =>
      let v ← remoteCall (b + 8) (if push then 1 else 0) leaf .ringRead
      return ⟨false, b + 64, v % 2 ^ 32, v / 2 ^ 32 % 2 ^ 32, v / 2 ^ 64 % 2 ^ 32, c.slots.toNat, c.size.toNat⟩
    | none =>
      let (hd, _) ← ringRd scr push b
      let (tl, _) ← ringRd scr push (b + 4)
      let (fl, _) ← ringRd scr push (b + 8)
      return ⟨scr, b + 64, hd, tl, fl, c.slots.toNat, c.size.toNat⟩

/-- Blocks at a channel: counters that another package has answered are asked for anew. -/
def blockChan {α : Type} (ch : Nat) (c : Chan) : L α := do
  let mid := (← asked (c.base.toNat + 8)).map (·.mid)
  blockWith (.chan (BitVec.ofNat 6 ch)) (fun s => { s with outst := s.outst.filter (fun q => some q.mid != mid) })

/-- Writes back a ring's counters. -/
def ringSet (n : Nat) (c : Chan) (push : Bool) (r : Ring) : L Unit := do
  if c.kind = 0 then
    modTeam (fun t => { t with c := vset t.c n { c with head := BitVec.ofNat 12 r.head, filled := BitVec.ofNat 12 r.filled } })
  else
    let b := c.base.toNat
    ringWr (c.kind == 2) push b r.head
    ringWr (c.kind == 2) push (b + 4) r.tail
    ringWr (c.kind == 2) push (b + 8) r.filled

/-- `n` words from an address of a ring, lowest first, with the offsets of those poisoned. -/
def ringRds (scratch push : Bool) (a : Nat) (busy : Wait := .slot) : Nat → L (Nat × List Nat)
  | 0 => return (0, [])
  | n + 1 => do
    let (v, bad) ← ringRd scratch push a busy
    let (w, l) ← ringRds scratch push (a + 4) busy n
    return (v + 2 ^ 32 * w, (if bad then [0] else []) ++ l.map (· + 4))

/-- Writes `n` words from an address of a ring; `bad` are the offsets of those poisoned. -/
def ringWrs (scratch push : Bool) (a : Nat) (v : Nat) (bad : List Nat) : Nat → L Unit
  | 0 => return ()
  | n + 1 => do
    ringWr scratch push a (v % 2 ^ 32) (bad.contains 0)
    ringWrs scratch push (a + 4) (v / 2 ^ 32) ((bad.filter (4 ≤ ·)).map (· - 4)) n

/-- A slot of a ring is popped: what others have asked of its words in another package they ask anew, of the slot that is the next
then. -/
def slotTaken (c : Chan) (r : Ring) : L Unit :=
  if c.kind = 1 then do
    let p ← part
    let lo := r.base + r.head * r.size
    modSt (fun s => { s with outst := s.outst.filter (fun o => !(o.part == p.id && lo ≤ o.va.toNat && o.va.toNat < lo + r.size)) })
  else pure ()

/-- Pops or peeks `n` words of the slot at the head of a channel (R98, R245). -/
def chanPop (ch : Nat) (peek : Bool) (n : Nat) : L Nat := do
  let c ← chan ch false
  if c.size.toNat < 4 * n then trap 0 0x0E
  match ← abroad c false with
  | some leaf =>
    return (← remoteCallP c.base.toNat 0 leaf (.ringPop c.slots.toNat c.size.toNat n peek) id (.chan (BitVec.ofNat 6 ch))).1
  | none =>
    let r ← ring c false
    if r.filled = 0 then block (.chan (BitVec.ofNat 6 ch))
    let (v, _) ← ringRds r.scratch false (r.base + r.head * r.size) (.chan (BitVec.ofNat 6 ch)) n
    if !peek then
      slotTaken c r
      ringSet ch c false { r with head := (r.head + 1) % r.slots, filled := r.filled - 1 }
    return v

/-- Pushes `n` words into the next free slot of a channel; a push to a STREAM buffer is a release (R98, R245, R254). -/
def chanPush (ch : Nat) (v n : Nat) : L Unit := do
  let c ← chan ch true
  if c.size.toNat < 4 * n then trap 0 0x0E
  match ← abroad c true with
  | some leaf =>
    if (← asked (c.base.toNat + 4)).isNone then awaitWrites (lfScope leaf)
    let x ← get
    let p ← part
    discard (remoteCallP (c.base.toNat + 4) 1 leaf (.ringPush c.slots.toNat c.size.toNat n v [])
      (fun s => s.release p.id (coreOf x.agent) (lfScope leaf)) (.chan (BitVec.ofNat 6 ch)))
  | none =>
    let r ← ring c true
    if r.slots ≤ r.filled then block (.chan (BitVec.ofNat 6 ch))
    if c.kind = 1 then
      let (_, leaf) ← locate .push c.base.toNat 4
      release (lfScope leaf)
    ringWrs r.scratch true (r.base + r.tail * r.size) v [] n
    ringSet ch c true { r with tail := (r.tail + 1) % r.slots, filled := r.filled + 1 }

/-! ### Checks made before any operand is read -/

/-- REG WINDOW and REG INDEX of an operand (R17). -/
def checkReg (o : Opnd) : L Unit := do
  match o with
  | .g n => checkG n.toNat
  | .f n => checkF n.toNat
  | .idx r k => discard (idxReg r k)
  | _ => pure ()

/-- Checks the registers of a list of operands. -/
def checkRegs : List Opnd → L Unit
  | [] => pure ()
  | o :: l => do
    checkReg o
    checkRegs l

/-- Pops and peeks of one channel among the sources of a word. -/
def takesOf (srcs : List Opnd) (ch : BitVec 6) : Nat :=
  (srcs.filter (fun o => match o with | .chan c _ => c == ch | _ => false)).length

/-- The channel operands of a word can proceed together, or the lane blocks (R36); `n` is their width in words. -/
def checkChans (n : Nat) (all : List Opnd) : List Opnd → L Unit
  | [] => pure ()
  | .chan ch _ :: l => do
    let c ← chan ch.toNat false
    if c.size.toNat < 4 * n then trap 0 0x0E
    let r ← ring c false
    checkChans n all l
    if r.filled < takesOf all ch then blockChan ch.toNat c
  | _ :: l => checkChans n all l

/-- Every check of a word's operands before its first read: windows, then channels; a pushed channel has a free slot
before any pop of the word (R36). A channel on a stream buffer of another package is checked by a read of its counters there, and its
slot is taken by a request of its own: what a word of several such channels has taken stands while another of them must wait
(DESIGN CHOICE, log 89). -/
def check (n : Nat) (srcs : List Opnd) (dst : List Opnd) : L Unit := do
  checkRegs (srcs ++ dst)
  match dst with
  | [.chan ch _] => do
    let c ← chan ch.toNat true
    if c.size.toNat < 4 * n then trap 0 0x0E
    checkChans n srcs srcs
    let r ← ring c true
    if r.slots ≤ r.filled then blockChan ch.toNat c
  | _ => checkChans n srcs srcs

/-! ### Reads and writes (R11) -/

/-- read(op), 32 bits. -/
def rdW (o : Opnd) : L Word := do
  match o with
  | .g n => rdG n.toNat
  | .f n => do return ((← rdF n.toNat).1).extractLsb' 0 32
  | .a n => do
    let (b, st) := vget (← wave).a n.toNat
    return b + st * BitVec.ofNat 32 (← get).lane
  | .s n => rdS n.toNat
  | .i n => rdI n.toNat
  | .zr => return 0
  | .lid => return BitVec.ofNat 32 (← get).lane
  | .imm v => return v.signExtend 32
  | .idx r k => do rdG (← idxReg r k)
  | .chan c pk => do return BitVec.ofNat 32 (← chanPop c.toNat pk 1)

/-- write(op, v), 32 bits; s registers are held for the uniform check (R18). -/
def wrW (o : Opnd) (v : Word) : L Unit := do
  match o with
  | .g n => wrG n.toNat v
  | .s n => uni (.s n v)
  | .i n => wrI n.toNat v
  | .idx r k => do wrG (← idxReg r k) v
  | .chan c _ => chanPush c.toNat v.toNat 1
  | _ => pure ()

/-- A 64-bit source in an f position, with its tag: a channel value carries RAW (R98). -/
def rdD (o : Opnd) : L (DWord × BitVec 4) := do
  match o with
  | .f n => rdF n.toNat
  | .chan c pk => do return (BitVec.ofNat 64 (← chanPop c.toNat pk 2), 13)
  | _ => return (0, 0)

/-- A 64-bit destination in an f position. -/
def wrD (o : Opnd) (v : DWord) (t : BitVec 4) : L Unit := do
  match o with
  | .f n => wrF n.toNat v t
  | .chan c _ => chanPush c.toNat v.toNat 2
  | _ => pure ()

/-- read(A + 1) ‖ read(A) of a g or s pair (R40, R77). -/
def rdPair (o : Opnd) : L Nat := do
  match o with
  | .g n => do
    let hi ← rdG (n.toNat + 1)
    let lo ← rdG n.toNat
    return hi.toNat * 2 ^ 32 + lo.toNat
  | .s n => do return (← rdS (n.toNat + 1)).toNat * 2 ^ 32 + (← rdS n.toNat).toNat
  | _ => return 0

/-- Writes a g pair. -/
def wrPair (o : Opnd) (v : Nat) : L Unit := do
  match o with
  | .g n => do
    checkG (n.toNat + 1)
    wrG n.toNat (BitVec.ofNat 32 v)
    wrG (n.toNat + 1) (BitVec.ofNat 32 (v / 2 ^ 32))
  | _ => pure ()

/-- Whether a register operand is uniform: s or a. -/
def uniform : Opnd → Bool
  | .s _ | .a _ => true
  | _ => false

/-- A value that must be the same in every executing lane (R106, R208): UNIFORM DIVERGE otherwise, in every one. -/
def sameInAll (v : Word) (rd : L Word) : L Unit := do
  let x ← get
  let other (l : Nat) : Bool :=
    match rd { x with lane := l, st := x.st0 } with
    | .ok (u, _) => u == v
    | .error _ => true
  if !x.execs.all other then trap 11 2

end L

/-- Words with channel operands take effect in lane order (R98); others with a uniform destination in all lanes or none (R18);
others lane by lane. -/
def modeOf (l : List Opnd) (d : Opnd) : WMode :=
  if (d :: l).any (fun o => match o with | .chan _ _ => true | _ => false) then (if L.uniform d then .uniform else .order)
  else if L.uniform d then .all
  else .each

/-! ### Addresses (R40) -/

/-- Bytes of an access width. -/
def widSize : Wid → Nat
  | .b | .bu => 1 | .h | .hu => 2 | .w => 4 | .d => 8 | .q => 16

/-- REG WINDOW for an address's registers, the upper register of a pair base too (R77). -/
def L.checkAddr (m : MemOpnd) : L Unit := do
  match m.scratch, m.base with
  | false, .g n => L.checkG (n.toNat + 1)
  | true, o => L.checkReg o
  | _, _ => pure ()
  match m.index with
  | some o => L.checkReg o
  | none => pure ()

/-- read(op) as a number; an absent index register adds nothing. -/
def L.rdNat (o : Opnd) : L Nat := do return (← L.rdW o).toNat
def L.rdIndex (o : Option Opnd) : L Nat :=
  match o with
  | some o => L.rdNat o
  | none => pure 0

/-- The captured A and B of an address: the base pair, or the scratch offset; and the added register. -/
def L.addrOps (m : MemOpnd) : L (Nat × Nat) := do
  let a ← if m.scratch then L.rdNat m.base else L.rdPair m.base
  let b ← L.rdIndex m.index
  return (a, b)

/-- ea from the captured values: exact integer arithmetic (R40). -/
def memEa (m : MemOpnd) (size av bv : Nat) : Int :=
  (av : Int) + m.off.toInt * size + (BitVec.ofNat 32 bv).toInt

/-- The global address of ea: PAGE RANGE unless bits 63:52 are zero; `acc` is the access kind of the trap (R291, R294). -/
def L.globalEa (acc : Nat) (ea : Int) : L Nat := do
  let a := (ea % 2 ^ 64).toNat
  if 2 ^ 52 ≤ a then L.pageTrap 1 a acc
  return a

/-- Address checks of an access (R147 steps 3 to 5), from captured values. -/
def L.access (acc : Nat) (m : MemOpnd) (size av bv : Nat) : L Nat := do
  let ea := memEa m size av bv
  if m.scratch then
    let a := (ea % 2 ^ 52).toNat
    if a % size ≠ 0 then L.trap 7 2 a
    if ea < 0 ∨ ((← L.team).scr : Int) < ea + size then L.trap 7 1 a
    return a
  else
    let a ← L.globalEa acc ea
    if a % size ≠ 0 then L.pageTrap 2 a acc
    return a

/-- A pair address of a page instruction: PAGE RANGE, no alignment check, bits 11:0 ignored (R147). -/
def L.pageAddr (acc : Nat) (o : Opnd) : L Nat := do
  let a ← L.rdPair o
  if 2 ^ 52 ≤ a then L.pageTrap 1 a acc
  return a

/-! ### Words whose result may come late (R41 to R43) -/

/-- No captured value. -/
def Cap.zero : Cap := ⟨0, 0, 0, 0, 0, 0⟩

/-- Writes a result at once: into the channel named, into uniform registers through the uniform check, or into the
registers of the lane. -/
def L.landNow (i : Instr) (c : Cap) (v : QWord) (t : BitVec 4) : L Unit :=
  match destsOf i c with
  | [.chan ch _] => L.chanPush ch.toNat (v.toNat % 2 ^ 64) (if t = 0 then 1 else 2)
  | l => (l.zipIdx).foldlM (fun _ x => match x.1 with
      | .s n => L.uni (.s n (v.extractLsb' (32 * x.2) 32))
      | o => L.modFibre (fun f => { f with regs := f.regs.put o x.2 v t })) ()

/-- Whether an earlier result of the lane for one of these registers is still to land (R42). -/
def L.behind (l : List Opnd) : L Bool := do
  let x ← get
  return (← L.wave).unfinished.any (fun e => e.lanes.any (fun r => r.lane == x.lane &&
    (destsOf e.ins r.cap).any l.contains))

/-- Whether a frame lies at a level of a logical core's own core, cluster or die. -/
def State.frameAt (s : State) (f lvl : Nat) (c : BitVec 11) : Bool :=
  match s.physCore c, locShare f with
  | some pc, some (k, u, _) => k == levelKind lvl && u == levelUnit lvl pc
  | _, _ => false

/-- The address of a long-latency word's access from its captured operands, and whether it lies in scratch. -/
def longEa (i : Instr) (c : Cap) : Option (Bool × Nat) :=
  match i with
  | .ld _ _ wid m | .ldf _ _ wid m | .ldp _ _ wid m | .lds _ _ wid m | .xld _ _ wid m | .lda _ _ wid m =>
    some (m.scratch, (memEa m (widSize wid) c.av.toNat c.bv.toNat % 2 ^ 64).toNat)
  | .amo .. | .cas .. | .amof .. => some (false, c.av.toNat)
  | _ => none

/-- Whether a long-latency word's access is to the team's scratch or to a near frame of its core: such accesses are performed in issue
order (R253), so with their words. -/
def L.ownPlace (i : Instr) (c : Cap) : L Bool := do
  let x ← get
  let p ← L.part
  let core := coreOf x.agent
  match longEa i c with
  | some (true, _) => return true
  | some (false, ea) => return ea < 2 ^ 52 && (match resolve x.st p ⟨core, x.agent, p.id, x.lvl, .load, ea, 1, false⟩ with
      | .ok pa _ _ => x.st.frameAt (pa / 4096) 3 core
      | _ => false)
  | none => return false

/-- The body of a long-latency word: capture, then perform and land. With lookahead the result is held for its window;
the access itself may be performed now or later (R42, R356); without, it is performed now, for its traps are precise (R356). -/
def L.longBody (i : Instr) (h : Hdr) (cap : L Cap) (perf : Cap → L (QWord × BitVec 4)) : L Unit := do
  let c ← cap
  let l := destsOf i c
  if h.la = 0 ∧ !(← L.behind l) then
    let (v, t) ← perf c
    L.landNow i c v t
  else
    let x ← get
    let rec0 : LaneRec := ⟨x.lane, c, Cap.zero, h.la.toNat, 0, false, 0, 0, 0⟩
    let now := h.la = 0 || l.any L.uniform || (← L.ownPlace i c) || !Config.performsLate x.st.tick
    if !now then modify (fun x => { x with recs := x.recs ++ [rec0] })
    else match perf c x with
      | .ok ((v, t), y) =>
        set { y with recs := y.recs ++ [{ rec0 with perf := true, res := v, rtag := t }] }
        l.zipIdx.foldlM (fun _ o => match o.1 with
          | .s n => L.uni (.later n (v.extractLsb' (32 * o.2) 32))
          | _ => pure ()) ()
      | .error (.trap cls sub addr aux y) => L.stop (.trap cls sub addr aux y)
      | .error e => if h.la = 0 || l.any L.uniform then L.stop e else modify (fun x => { x with recs := x.recs ++ [rec0] })

/-- A long-latency word (R41). -/
def longWord (i : Instr) (h : Hdr) (m : WMode) (cap : L Cap) (perf : Cap → L (QWord × BitVec 4)) (s : State) :
    Host.Outcome State Fault Refusal :=
  runWord i h.guard m (fun _ => id) (fun _ => L.longBody i h cap perf) s

end Sys2Proof.Machine
end

