-- ==== Sys2Proof/Machine/Flags.lean ====
section
/-! DEFINITION. Flag computations: FENV's sticky flags and the ARITH class (R57, R58), and the bit pairs that hold
three-valued results (R72). -/

namespace Sys2Proof.Machine

/-- The ARITH subcode of the flags that are enabled: the lowest of NV, DZ, OF, UF, NX (R58). -/
def arithSub (fl : Fl) : Option (BitVec 8) :=
  if fl.getLsbD 4 then some 1
  else if fl.getLsbD 3 then some 2
  else if fl.getLsbD 2 then some 3
  else if fl.getLsbD 1 then some 4
  else if fl.getLsbD 0 then some 5
  else none

/-- Raises flags in the lane: an enabled one traps ARITH; otherwise they are ORed into FENV (R58). -/
def L.raise (fl : Fl) : L Unit := do
  let fenv := (← L.team).fenv
  match arithSub (fl &&& fenv.extractLsb' 8 5) with
  | some sub => L.trap 3 sub
  | none => if fl = 0 then pure () else L.modTeam (fun t => { t with fenv := t.fenv ||| fl.setWidth 32 })

/-- A word with the pair at even bit `b` replaced: true is 01, false is 10, undecided 00 (R72). -/
def withPair (v : Word) (b : Nat) (r : Option Bool) : Word :=
  let p : Nat := match r with
    | some true => 1 | some false => 2 | none => 0
  BitVec.ofNat 32 (setBits v.toNat b 2 p)

/-- Writes a three-valued result into the pair of gD; only its two bits change (R72, R113). -/
def L.wrPairBits (d : Opnd) (b : BitVec 5) (r : Option Bool) : L Unit := do
  let v ← L.rdW d
  L.wrW d (withPair v b.toNat r)

end Sys2Proof.Machine
end

