-- ==== Sys2Proof/Machine/Units.lean ====
section
/-! DEFINITION. Level counters (R96), masks and barriers as fibres leave them (R85, R89, R90), and the end of a unit
(R83, R323 to R326, R386, R415). -/

namespace Sys2Proof.Machine

/-! ### Level counters (R96, R219) -/

def Partition.counter (p : Partition) (n : Nat) : Counter := spGet Counter.zero p.counters n
def Partition.setCounter (p : Partition) (n : Nat) (c : Counter) : Partition :=
  { p with counters := spSet Counter.zero p.counters n c }

/-- Adds to a level counter, modulo 2³² (R96). -/
def State.countUp (s : State) (part n : Nat) (k : Word) : State :=
  s.updPart part (fun p => p.setCounter n { p.counter n with count := (p.counter n).count + k })

/-- Whether the count has reached a target, allowing for wrap (R97). -/
def reached (count target : Word) : Bool := (count - target).toNat < 2 ^ 31

/-- Whether a slot names a counter marked cancelled at that level (R218, R325). -/
def Partition.marked (p : Partition) (lvl : Nat) (slot : Option Nat) : Bool :=
  match slot with
  | none => false
  | some n => (p.counter n).marks.contains lvl

/-- Whether any level slot of a unit is marked. -/
def Partition.cancels (p : Partition) (l : Slots) : Bool :=
  p.marked 0 l.launch || p.marked 1 l.graph || p.marked 2 l.phase || p.marked 3 l.job

/-! ### Masks and the barrier -/

/-- The bit set of one lane. -/
def laneBit (l : Nat) : Word := BitVec.ofNat 32 (2 ^ l)

/-- A fibre that a mask or a barrier releases: those released together go on as one batch (R78). -/
def State.released (s : State) (f : Fibre) : Fibre := { f with st := .run, pc := f.pc + 8, grp := s.tick * 2048 + 1 }

/-- The check that follows JOIN, LEAVE, WAITM, MOP and END (R85): a fibre blocked at the mask that is no longer arrived
goes on; when every member has arrived, every arrived fibre goes on, one that left its WAITM for a handler and has
returned to it among them (R352). -/
def State.maskCheck (s : State) (a : AgentId) (wv k : Nat) : State :=
  match s.team? a with
  | none => s
  | some t =>
    let w := t.wave wv
    let (mem, arr) := vget w.m k
    let all := arr ≠ 0 && arr == mem
    let go (l : Nat) (f : Fibre) : Fibre :=
      match f.st with
      | .atMask j => if j.toNat = k && (all || !bitOf arr l) then s.released f else f
      | .run => if all && bitOf arr l && w.h.isNone then s.released f else f
      | _ => f
    let fs := t.fibres.map (fun x => if x.1 / t.width == wv then (x.1, go (x.1 % t.width) x.2) else x)
    s.updTeam a (fun t => { t.updWave wv (fun w => { w with m := vset w.m k (mem, if all then 0 else arr) }) with fibres := fs })

/-- The check of every mask of a wave. -/
def State.maskChecks (s : State) (a : AgentId) (wv : Nat) : State :=
  (List.range 12).foldl (fun s k => s.maskCheck a wv k) s

/-- The lowest slots not in a list, one for each fibre of another list. -/
def placeLow (held : List Nat) : Nat → List (Nat × Fibre) → Nat → List (Nat × Nat × Fibre)
  | 0, _, _ => []
  | _, [], _ => []
  | n + 1, (o, f) :: l, k =>
    if held.contains k then placeLow held n ((o, f) :: l) (k + 1) else (o, k, f) :: placeLow held n l (k + 1)

/-- Whether a slot's fibre is a member of a mask of its wave. -/
def Team.inMask (t : Team) (slot : Nat) : Bool :=
  (t.wave (slot / t.width)).m.toList.any (fun x => bitOf x.1 (slot % t.width))

/-- The repacking of `tbar.regroup` (R90): mask members stay; the others, by continuing PC and old slot, take the lowest
free slots. What a wave inside a handler has saved stays with its lane numbers, and a fibre that comes into such a wave runs at its
level (DESIGN CHOICE, log 92). -/
def Team.regroup (t : Team) : Team :=
  let stay := t.fibres.filter (fun x => t.inMask x.1)
  let move := (t.fibres.filter (fun x => !t.inMask x.1)).foldr (fun x l => insertBy (fun y => y.2.pc.toNat * 1024 + y.1) x l) []
  let placed := placeLow (stay.map (·.1)) (t.fibres.length + stay.length + 1024) move 0
  let rebase (x : Nat × Nat × Fibre) : Nat × Fibre := (x.2.1, { x.2.2 with base := x.2.1 * windowBytes t.gWin t.fWin })
  { t with fibres := (placed.map rebase).foldr (fun x l => insertBy (·.1) x l) stay }

/-- Whether a fibre stands at the barrier. -/
def Fibre.atBarrier (f : Fibre) : Bool := match f.st with | .atBar _ => true | _ => false

/-- When every live fibre stands in a TBAR all go on, and the team is repacked if all asked for it (R89, R90); the
barrier is a release at CORE (R254), and an acquire of all that its fibres did, their writes to other packages included: a later
release covers these too (R255, R273). -/
def State.barrierCheck (s : State) (a : AgentId) : State :=
  match s.team? a with
  | none => s
  | some t =>
    if t.fibres.isEmpty || !t.fibres.all (·.2.atBarrier) then s
    else
      let again := t.fibres.all (fun x => x.2.st == .atBar true)
      let writes := (t.remoteWrites ++ t.fibres.flatMap (fun x => x.2.remoteWrites)).dedup
      let t' := { t with remoteWrites := [], fibres := t.fibres.map (fun x => (x.1, { s.released x.2 with remoteWrites := writes })) }
      (s.updTeam a (fun _ => if again then t'.regroup else t')).release t.part (coreOf a) 0

/-! ### Receive vats (R386) -/

/-- Drops a message from the writes that fibres await (R164). -/
def Team.forgetWrite (t : Team) (mid : BitVec 24) : Team :=
  { t with remoteWrites := t.remoteWrites.filter (· != mid), fibres := t.fibres.map (fun x => (x.1, { x.2 with remoteWrites := x.2.remoteWrites.filter (· != mid) })) }

/-- The sender takes a report (R389, R405): the first outcome other than DELIVERED queues one record. -/
def State.takeReport (s : State) (r : Report) : State :=
  match s.sent.find? (·.mid == r.mid) with
  | none => s
  | some m =>
    let new := !r.ok && !m.recorded
    let note (m : SentMsg) : SentMsg := { m with heard := true, recorded := m.recorded || !r.ok }
    let s : State := { s with sent := updFirst (·.mid == r.mid) note s.sent }
    let s := s.mapTeams (·.forgetWrite r.mid)
    if new then s.record m.part (errRecord (r.cls.setWidth 8) r.sub m.agent (m.mid.setWidth 32) m.va.toNat m.acc) else s

/-- A report goes to the sender's package, with m of a partition's CRATE (R389, R405). -/
def State.sendReport (s : State) (part : Nat) (dest : BitVec 12) (r : Report) : State :=
  let (mid, s) := s.newMid
  if dest = s.pkg || dest = 0xFFF then s.takeReport r else s.sendBody dest 3 none mid 1 (s.crateM part) (.report r)

/-- The delivery report of a message's outcome (R389). -/
def State.report (s : State) (part : Nat) (dest : BitVec 12) (mid : BitVec 24) (sub : Option (BitVec 8)) : State :=
  s.sendReport part dest ⟨mid, sub.isNone, 10, sub.getD 0⟩

/-- Adds to a 32-bit field of a receive channel's header in the team's scratch (R384). -/
def Team.bumpHdr (t : Team) (ch off : Nat) (up : Bool) : Team :=
  let c := vget t.c ch
  if c.v && c.kind = 2 then
    let x := BitVec.ofNat 32 (t.rdScr (c.base.toNat + off) 4)
    t.wrScr (c.base.toNat + off) 4 (if up then x + 1 else x - 1).toNat
  else t

/-- Disposes the vats of a team's channel, or of all its channels (R386: CUNB, or the unit's end). -/
def State.disposeVats (s : State) (a : AgentId) (ch : Option (BitVec 6)) : State :=
  let k := s.core (coreOf a)
  let part := ((s.team? a).map (·.part)).getD 0
  let mine (v : Vat) : Bool := v.part == part && v.agent == a && (match ch with | some c => v.rch == c | none => true)
  let gone := k.vats.filter mine
  let s := s.setCore { k with vats := k.vats.filter (fun v => !mine v),
                              closed := k.closed.filter (fun x => !(x.2.2.1 == part && x.2.2.2.1 == a &&
                                (match ch with | some c => x.2.2.2.2 == c | none => true))) }
  gone.foldl (fun s v => (s.updTeam a (·.bumpHdr v.rch.toNat 40 false)).report part v.spkg v.mid (some 3)) s

/-! ### The end of a unit -/

/-- Whether a unit's end counts faulted (R83, R323). -/
def State.unitFaulted (s : State) (t : Team) : Bool :=
  t.faulted || t.doomed || t.q.toList.any (fun q => q.st = 1 && q.signed ≠ 0) ||
  s.jobs.any (fun j => j.agent == t.agent && j.err && !j.observed)

/-- Whether every unit of a launch has ended or been counted. -/
def Launch.over (l : Launch) : Bool := l.count ≤ l.ended

/-- Counts ended units of a launch: join steps are made, or held under rollback (R324); a launch all of whose units
are counted completes (R326). -/
def State.countUnits (s : State) (l die : Nat) (a : AgentId) (n faulted cancelled : Nat) : State :=
  match s.launch? l with
  | none => s
  | some k =>
    let k' := { k with ended := k.ended + n,
                       clusters := if a = 0xFFFF || k.clusters.contains (clusterOf (coreOf a)) then k.clusters
                                   else clusterOf (coreOf a) :: k.clusters }
    let k' := if k.rbk then { k' with heldEnds := k.heldEnds + n, heldFaulted := k.heldFaulted + faulted,
                                      heldCancelled := k.heldCancelled + cancelled } else k'
    let s := s.updLaunch l (fun _ => k')
    let s := if !k.rbk && k.join ≠ 0 then s.push (.joinStep k.part die a k.join n faulted cancelled []) else s
    if k'.over && !k.over then s.push (.launchDone k.part l) else s

/-- No lane of a team takes the result of a scan that it has asked for any more (R228). -/
def State.leaveCandles (s : State) (part : Nat) (a : AgentId) : State :=
  let leave (y : Candle) : Candle := if y.part == part && y.agent == a then { y with left := true } else y
  { s with cores := s.cores.map (fun k => { k with candle := k.candle.map leave }) }

/-- A unit ends: its last fibre has ended, or it is discarded (R83, R323, R325, R415). -/
def State.unitEnd (s : State) (a : AgentId) (discarded : Bool) : State :=
  match s.team? a with
  | none => s
  | some t =>
    let bad := s.unitFaulted t
    let cancelled := discarded && !t.doomed
    let s := s.disposeVats a none
    let s := if discarded then s else s.release t.part (coreOf a) 0
    let s := s.leaveCandles t.part a
    let s := s.updCore (coreOf a) (fun k => { k with holder := if k.holder = some a then none else k.holder,
                                                      replay := k.replay.filter (·.agent != a) })
    let roll := s.rollsBack t
    let failing := match t.work.launch.bind s.launch? with | some k => k.failing.isSome | none => false
    let keep (m : Move) : Option Move := match m.waiter with
      | some w =>
        if m.part == t.part && w.1 == a then (if m.st == .commit then none else some { m with waiter := none }) else some m
      | none => some m
    let s : State := { s with
      teams := s.teams.filter (·.agent != a)
      jobs := s.jobs.filter (·.agent != a)
      outst := s.outst.filter (fun o => !(o.part == t.part && o.agent == a))
      moves := s.moves.filterMap keep
      pivs := s.pivs.filter (·.agent != a) }
    if failing then s.checkRestore (t.work.launch.getD 0)
    else
      let s := match roll with
        | some l => if t.chki ≠ 0 && !discarded then (s.failAttempt a l false).checkRestore l else s
        | none => if t.chki ≠ 0 then s.record t.part (errRecord 12 6 a t.chki 0 0) else s
      let failedNow := match roll.bind s.launch? with | some k => k.failing.isSome | none => false
      if failedNow then s
      else
        let f := if bad && !cancelled then 1 else 0
        let c := if cancelled then 1 else 0
        match t.work.launch with
        | some l => s.countUnits l (dieOf (coreOf a)) a 1 f c
        | none => if t.work.join = 0 then s else s.push (.joinStep t.part (dieOf (coreOf a)) a t.work.join 1 f c [])

/-- A fibre leaves its wave: its masks, unfinished words, saved places and slot (R20, R83). Its writes to other packages stay with the
team, whose next barrier covers them (R254). -/
def State.fibreEnd (s : State) (a : AgentId) (wv lane : Nat) : State :=
  let cutDue (d : Due) : Due := { d with traps := d.traps.filter (·.lane != lane), execs := d.execs.filter (· != lane),
                                         batch := d.batch.filter (· != lane) }
  let dues (l : List Due) : List Due := (l.map cutDue).filter (fun d => !d.traps.isEmpty)
  let cut (h : HSave) : HSave := { h with resume := h.resume.filter (·.lane != lane), gs := h.gs.filter (·.lane != lane),
                                          batch := h.batch.filter (· != lane), dues := dues h.dues }
  let leave (w : Wave) : Wave :=
    { w.dropLane lane with
      m := w.m.map (fun x => (x.1 &&& ~~~ laneBit lane, x.2 &&& ~~~ laneBit lane))
      h := w.h.map cut
      d1 := w.d1.map cut
      mc := w.mc.map cut
      stuck := w.stuck.map (fun k => { k with todo := k.todo.filter (· != lane), done := k.done.filter (· != lane) })
      due := dues w.due }
  let fresh (t : Team) : Team :=
    if (t.liveLanes wv).isEmpty then
      t.updWave wv (fun w => { w with level := if t.work.lvl then 1 else 0, h := none, d1 := none, mc := none })
    else t
  let s := s.updTeam a (fun t =>
    fresh { t.updWave wv leave with
      fibres := t.fibres.filter (·.1 != t.slot wv lane)
      remoteWrites := t.remoteWrites ++ ((t.fibre? (t.slot wv lane)).map (·.remoteWrites)).getD [] })
  (s.maskChecks a wv).barrierCheck a

end Sys2Proof.Machine
end

