-- ==== Sys2Proof/Machine/Control.lean ====
section
/-! DEFINITION. The meanings of group 0 but FORK and RDV: control, fibres, convergence, counters, channels (R78 to
R103). -/

namespace Sys2Proof.Machine

/-- What every meaning answers. -/
abbrev Out := Host.Outcome State Fault Refusal

/-- A PC-relative target (R38); past either end of the address space it wraps (DESIGN CHOICE, log 91). -/
def relTarget (pc : Addr) (off : BitVec 29) : Addr := pc + (off.signExtend 52) * 8

namespace L

/-- Sends the lane to a target; its lookahead windows close (R42, R81). -/
def goTo (pc : Addr) : L Unit := modify (fun x => { x with npc := pc, closes := true })

/-- A target held in a pair (R81). -/
def pairTarget (a : Opnd) : L Addr := do
  let v ← rdPair a
  if 2 ^ 52 ≤ v then pageTrap 1 v 3
  if v % 8 ≠ 0 then pageTrap 2 v 3
  return BitVec.ofNat 52 v

/-- The link: PC + 8 into the pair at D (R81). -/
def link (d : Opnd) : L Unit := do wrPair d ((← get).pc + 8).toNat

/-- The lane's value of a read in another lane, before the word (R88, R116). -/
def peer {α : Type} (l : Nat) (rd : L α) : L (Option α) := do
  let x ← get
  match rd { x with lane := l, st := x.st0 } with
  | .ok (v, _) => return some v
  | .error _ => return none

/-- A mask's member and arrival sets. -/
def mask (k : Nat) : L (Word × Word) := do return vget (← wave).m k
def setMask (k : Nat) (v : Word × Word) : L Unit := modWave (fun w => { w with m := vset w.m k v })

end L

/-! ### Branches and calls -/

/-- NOP (R80): no effect. -/
def execNop (s : State) : Out := runWord .nop none .each (fun _ => id) (fun _ => pure ()) s

/-- BR (R81). -/
def execBr (h : Hdr) (off : BitVec 29) (s : State) : Out :=
  laneWord (.br h off) h .each (do L.goTo (relTarget (← get).pc off)) s

/-- BRU (R39): the lanes whose pair is undecided branch; the others fall through. -/
def execBru (reg : BitVec 6) (bit : BitVec 5) (off : BitVec 29) (s : State) : Out :=
  runWord (.bru reg bit off) none .each (fun _ => id) (fun _ => do
    let v ← L.rdG reg.toNat
    if bits v.toNat bit.toNat 2 = 0 then L.goTo (relTarget (← get).pc off)) s

/-- BRX (R81). -/
def execBrx (h : Hdr) (a : Opnd) (s : State) : Out :=
  laneWord (.brx h a) h .each (do L.goTo (← L.pairTarget a)) s

/-- CALL (R81). -/
def execCall (h : Hdr) (d : Opnd) (off : BitVec 29) (s : State) : Out :=
  laneWord (.call h d off) h .each (do
    L.link d
    L.goTo (relTarget (← get).pc off)) s

/-- CALLX (R81): the target is read before the link is written. -/
def execCallx (h : Hdr) (d a : Opnd) (s : State) : Out :=
  laneWord (.callx h d a) h .each (do
    let t ← L.pairTarget a
    L.link d
    L.goTo t) s

/-- RET (R81). -/
def execRet (h : Hdr) (a : Opnd) (s : State) : Out :=
  laneWord (.ret h a) h .each (do L.goTo (← L.pairTarget a)) s

/-! ### Creating and ending fibres -/

/-- The slot a child takes: the lowest free one of the parent's wave, else of the team (R82). -/
def Team.childSlot (t : Team) (wv : Nat) : Option Nat :=
  let free (n : Nat) : Bool := (t.fibre? n).isNone
  match ((List.range t.width).map (wv * t.width + ·)).find? free with
  | some n => some n
  | none => (List.range (t.nwaves * t.width)).find? free

/-- A child at a target, of a group of its own, with its parent's registers. In a wave inside a handler it runs at the team's launch
level all the same (R82). Its accesses follow its parent's: its releases cover the writes that its parent has sent (R253). -/
def Team.newFibre (t : Team) (n tick : Nat) (target : Addr) (regs : Regs) (shadow : Option Regs) (writes : List (BitVec 24)) : Fibre :=
  { Fibre.start false target (n * windowBytes t.gWin t.fWin) with
    regs := regs, shadow := shadow, grp := tick * 2048 + 2, remoteWrites := writes,
    own := if (t.wave (n / t.width)).h.isSome then some (if t.work.lvl then 1 else 0) else none }

/-- Creates a child at a target with the parent's registers, gD set on both sides (R82). -/
def L.spawnChild (d : Opnd) (target : Addr) : L Unit := do
  L.checkReg d
  let t ← L.team
  let x ← get
  match t.childSlot x.wave with
  | none => L.wrW d 0xFFFF_FFFF
  | some n =>
    L.landedAll
    let f ← L.fibre
    let own ← L.slot
    let mark (r : Regs) : Regs := match d with
      | .g k => { r with g := vset r.g k.toNat (0x8000_0000 + BitVec.ofNat 32 own), bad := r.bad.erase (false, k.toNat) }
      | _ => r
    L.modTeam (·.addFibre n (t.newFibre n x.st.tick target (mark f.regs) (f.shadow.map mark) f.remoteWrites))
    L.wrW d (BitVec.ofNat 32 n)

/-- SPAWN (R82). -/
def execSpawn (h : Hdr) (d : Opnd) (off : BitVec 29) (s : State) : Out :=
  laneWord (.spawn h d off) h .each (do L.spawnChild d (relTarget (← get).pc off)) s

/-- Whether a fibre's wave is inside a handler entered from level 0 (R323). -/
def Wave.fromUser (w : Wave) : Bool := [w.h, w.d1, w.mc].any (fun h => match h with | some k => k.level == 0 | none => false)

/-- The scope of the page of a unit's join record; CORE where it has none (R239). -/
def State.joinScope (s : State) (t : Team) : Nat :=
  if t.work.join = 0 then 0
  else match (s.part? t.part).bind (fun p => leafAt s p (t.work.join.toNat / 4096)) with
    | some (q, _) => lfScope q
    | none => 0

/-- Whether the end of a unit must wait, as a release at FABRIC, for writes of it or of its jobs to other packages (R254). -/
def State.endAwaits (s : State) (t : Team) : Bool :=
  s.joinScope t == 4 && s.sent.any (fun m => m.part == t.part && m.agent == t.agent && m.acc != 6 && !m.heard)

/-- END (R83): waits for the fibre's own words, and when it is the last for the unit's jobs and, at FABRIC, for its writes to other
packages (R254); then the fibre leaves, and with the last one the unit ends. -/
def execEndf (h : Hdr) (s : State) : Out :=
  runWord (.endf h) h.guard .own (fun _ => id) (fun _ => do
    let x ← get
    let w ← L.wave
    if w.pendingLane x.lane then L.block .ending
    let t ← L.team
    let last := t.fibres.length = 1
    if last ∧ (!(x.st.activeJobs x.agent).isEmpty ∨ x.st.endAwaits t) then L.block .ending
    if w.fromUser then L.modTeam (fun t => { t with faulted := true })
    L.modSt (·.fibreEnd x.agent x.wave x.lane)
    if last then L.modSt (·.unitEnd x.agent false)) s

/-- YIELD (R84): no state changes. -/
def execYield (h : Hdr) (s : State) : Out := laneWord (.yield h) h .each (pure ()) s

/-! ### Mask registers (R85 to R88) -/

/-- The mask check that follows a word. -/
def afterMask (k : BitVec 4) (b : Issue) (s : State) : State := s.maskCheck b.agent b.wave k.toNat

/-- JOIN (R85). -/
def execJoin (h : Hdr) (k : BitVec 4) (s : State) : Out :=
  runWord (.join h k) h.guard .each (afterMask k) (fun _ => do
    let (m, a) ← L.mask k.toNat
    L.setMask k.toNat (m ||| laneBit (← get).lane, a)) s

/-- LEAVE (R85). -/
def execLeave (h : Hdr) (k : BitVec 4) (s : State) : Out :=
  runWord (.leave h k) h.guard .each (afterMask k) (fun _ => do
    let (m, a) ← L.mask k.toNat
    let b := ~~~ laneBit (← get).lane
    L.setMask k.toNat (m &&& b, a &&& b)) s

/-- WAITM (R85): members arrive and wait; others pass through. -/
def execWaitm (h : Hdr) (k : BitVec 4) (s : State) : Out :=
  runWord (.waitm h k) h.guard .each (afterMask k) (fun _ => do
    let (m, a) ← L.mask k.toNat
    let l := (← get).lane
    if bitOf m l then
      L.setMask k.toNat (m, a ||| laneBit l)
      modify (fun x => { x with npc := x.pc, closes := true, hold := some (.atMask k) })
    else modify (fun x => { x with closes := true })) s

/-- MMOV (R86). -/
def execMmov (h : Hdr) (d : Opnd) (k : BitVec 4) (arr : Bool) (s : State) : Out :=
  laneWord (.mmov h d k arr) h (modeOf [] d) (do
    let (m, a) ← L.mask k.toNat
    L.wrW d (if arr then a else m)) s

/-- MOP (R87), once for the batch. -/
def execMop (h : Hdr) (a : Opnd) (k op : BitVec 4) (s : State) : Out :=
  onceWord (.mop h a k op) h (afterMask k) (do
    let v ← L.rdW a
    let (m, r) ← L.mask k.toNat
    L.setMask k.toNat (match op.toNat with
      | 0 => (v, r &&& v)
      | 1 => (m ||| v, r)
      | _ => (m &&& ~~~ v, r &&& (m &&& ~~~ v)))) s

/-- The lanes of a list whose predicate is true, as a bit set (R88). -/
def L.ballot (a : Opnd) : List Nat → L Word
  | [] => return 0
  | l :: ls => do
    let v ← L.peer l (L.rdW a)
    let w ← L.ballot a ls
    return if v.getD 0 ≠ 0 then w ||| laneBit l else w

/-- BALLOT (R88). -/
def execBallot (h : Hdr) (d a : Opnd) (s : State) : Out :=
  laneWord (.ballot h d a) h (modeOf [] d) (do
    L.checkRegs [a, d]
    discard (L.rdW a)
    L.wrW d (← L.ballot a (← get).execs)) s

/-- TBAR (R89). -/
def execTbar (h : Hdr) (again : Bool) (s : State) : Out :=
  runWord (.tbar h again) h.guard .each (fun b s => s.barrierCheck b.agent) (fun _ =>
    modify (fun x => { x with npc := x.pc, closes := true, hold := some (.atBar again) })) s

/-! ### Convergence registers (R91, R92) -/

/-- What a fibre's list of direct jobs holds for an MMA presented and not yet issued. -/
def presentMark : Nat := 2 ^ 64

/-- Clears every fibre's signature bit for a convergence register, and what it presented there. -/
def Team.clearSigs (t : Team) (q : Nat) : Team :=
  { t with fibres := t.fibres.map (fun x =>
      (x.1, { x.2 with sig := vset x.2.sig q false, jobs := x.2.jobs.filter (· != presentMark + q) })) }

/-- QSET (R91), once for the batch. -/
def execQset (h : Hdr) (a : Opnd) (q : BitVec 3) (s : State) : Out :=
  onceWord (.qset h a q) h (fun _ => id) (do
    let v ← L.rdW a
    let r := vget (← L.team).q q.toNat
    if 2 ≤ r.st.toNat then L.block .qset
    let open1 : ConvReg := { ConvReg.zero with target := v.extractLsb' 0 10, st := 1 }
    L.modTeam (fun t => { t.clearSigs q.toNat with q := vset t.q q.toNat open1 })) s

/-- The signers a register needs: the value 0 stands for 1,024 (R21). -/
def ConvReg.need (r : ConvReg) : Nat := if r.target = 0 then 1024 else r.target.toNat

/-- SIGN (R92). -/
def execSign (h : Hdr) (q : BitVec 3) (s : State) : Out :=
  runWord (.sign h q) h.guard .own (fun _ => id) (fun _ => do
    let r := vget (← L.team).q q.toNat
    if r.st = 0 then L.trap 0 0x0F
    if vget (← L.fibre).sig q.toNat then pure ()
    else if r.need ≤ r.signed then L.block .sign
    else
      L.modFibre (fun f => { f with sig := vset f.sig q.toNat true })
      L.modTeam (fun t => { t with q := vset t.q q.toNat { r with signed := r.signed + 1 } })) s

/-! ### Level counters (R96, R97) -/

/-- The scope at which a counter's release or acquire acts. -/
def L.counterOf (a : Opnd) : L (Nat × Counter) := do
  let n := bits (← L.rdW a).toNat 0 12
  return (n, (← L.part).counter n)

/-- ARRIVE (R96): a release at the counter's scope, or relaxed. The lanes of the batch add together: none does while the release of
one waits. -/
def execArrive (h : Hdr) (a : Opnd) (rlx : Bool) (s : State) : Out :=
  laneWord (.arrive h a rlx) h .each (do
    L.checkReg a
    let (n, c) ← L.counterOf a
    if !rlx then L.release c.scope
    let p ← L.part
    L.modSt (·.countUp p.id n 1)) s

/-- WAIT (R97). -/
def execWait (h : Hdr) (a b : Opnd) (s : State) : Out :=
  laneWord (.wait h a b) h .own (do
    L.checkRegs [a, b]
    let (_, c) ← L.counterOf a
    let v ← L.rdW b
    if !reached c.count v then L.block .counter) s

/-! ### Channels (R99 to R102) -/

/-- CTST (R101): a snapshot of the counters; an unbound entry gives 0, and no role is needed. -/
def execCtst (h : Hdr) (d : Opnd) (c : BitVec 6) (s : State) : Out :=
  laneWord (.ctst h d c) h (modeOf [] d) (do
    L.checkReg d
    let e := vget (← L.team).c c.toNat
    if !e.v then L.wrW d 0
    else
      let r ← L.ring e false
      L.wrW d (BitVec.ofNat 32 (2 ^ 31 + (r.slots - r.filled) % 2 ^ 12 * 2 ^ 12 + r.filled % 2 ^ 12))) s

/-- A page a STREAM buffer reaches, as CBIND reads it (R245): ILL CHAN unless it is a STREAM page; its frame when it lies in this
package. -/
def L.bindPage (va : Nat) : L (Option Nat × QWord) := do
  let x ← get
  let p ← L.part
  match resolve x.st p ⟨coreOf x.agent, x.agent, p.id, x.lvl, .pop, va, 4, true⟩ with
  | .ok pa leaf s => L.setSt s; return (some pa, leaf)
  | .remote leaf s => L.setSt s; return (none, leaf)
  | .mmx sub leaf => if sub = 4 then L.trap 0 0x0E else L.trap 6 sub va (mmxAux leaf)
  | .fault sub lvl gen => L.walkFault va sub lvl gen 0
  | .stall s => L.blockWith .move (fun c => { c with agenda := s.agenda, taken := s.taken, fills := s.fills })

/-- Every further page of a buffer is a STREAM page of the header page's scope (R245). -/
def L.bindPages (scope va : Nat) : Nat → L Unit
  | 0 => pure ()
  | n + 1 => do
    let (_, leaf) ← L.bindPage va
    if lfScope leaf ≠ scope then L.trap 0 0x0E
    L.bindPages scope (va + 4096) n

/-- The header of a STREAM buffer agrees with the configuration (R244, R245). -/
def L.bindStream (base slots size : Nat) : L Unit := do
  if base % 4096 ≠ 0 then L.trap 0 0x0E
  let (pa, leaf) ← L.bindPage base
  let s := (← get).st
  let head ← match pa with
    | some pa => do
      if s.poisoned pa 64 then L.chki (chkiOf pa)
      pure (s.readP pa 24)
    | none => L.remoteCall base 0 leaf .ringRead
  if bits head 160 32 % 2 = 0 ∨ bits head 96 32 ≠ slots ∨ bits head 128 32 ≠ size then L.trap 0 0x0E
  L.bindPages (lfScope leaf) (base + 4096) ((64 + slots * size + 4095) / 4096 - 1)

/-- CBIND (R99, R245, R384): each executing lane in order, so a second lane finds the entry bound. -/
def execCbind (h : Hdr) (a b : Opnd) (c : BitVec 6) (s : State) : Out :=
  laneWord (.cbind h a b c) h .all (do
    let base ← L.rdPair a
    let v := (← L.rdW b).toNat
    let t ← L.team
    let role := bits v 27 2
    let kind := bits v 25 2
    let size := bits v 12 13
    let slots := bits v 0 12
    if (vget t.c c.toNat).v ∨ bits v 29 3 ≠ 0 ∨ role = 0 ∨ kind = 3 ∨ size % 4 ≠ 0 ∨ size < 4 ∨ 4096 < size ∨ slots = 0 then
      L.trap 0 0x0E
    let base := base % 2 ^ 52
    if kind = 0 then
      if t.scr < base + slots * size then L.trap 7 1 base
    else if kind = 1 then L.bindStream base slots size
    else
      if role ≠ 1 ∨ base % 64 ≠ 0 ∨ size < 16 then L.trap 0 0x0E
      if t.scr < base + 64 + slots * size then L.trap 7 1 base
      L.modTeam (·.wrScr base 64 (slots * 2 ^ 96 + size * 2 ^ 128 + 2 ^ 160))
    let e : Chan := ⟨BitVec.ofNat 52 base, BitVec.ofNat 12 slots, BitVec.ofNat 13 size, 0, 0, BitVec.ofNat 2 role,
      BitVec.ofNat 2 kind, true⟩
    L.modTeam (fun t => { t with c := vset t.c c.toNat e })) s

/-- The channel of an operand byte in a column that takes one (R35). -/
def useChan (u : Use) (x : BitVec 8) : List (BitVec 6) :=
  match u with
  | .oneOf ks => if ks.contains .ch && x.getLsbD 7 then [x.setWidth 6] else []
  | _ => []

/-- Words that access memory. -/
def accessWord (i : Instr) : Bool :=
  match i with
  | .ld .. | .ldf .. | .ldp .. | .lds .. | .xld .. | .lda .. | .st .. | .stf .. | .stp .. | .xst .. | .stl .. | .amo .. | .amof ..
  | .cas .. | .red .. | .zfill .. => true
  | _ => false

/-- Words whose one access is to scratch. -/
def scratchWord (i : Instr) : Bool :=
  match i with
  | .ld _ _ _ m | .ldf _ _ _ m | .ldp _ _ _ m | .lds _ _ _ m | .xld _ _ _ m | .st _ _ _ m | .stf _ _ _ m | .stp _ _ _ m
  | .xst _ _ _ m => m.scratch
  | .zfill _ _ _ sc => sc
  | _ => false

/-- The channels on which a word operates (R98, R102). -/
def chansOf (i : Instr) : List (BitVec 6) :=
  match i with
  | .cprod _ _ c | .ccons _ _ c => [c]
  | i =>
    let F := i.fields
    match rowOf F.op.toNat F.m ((opndOf F.d 0).isIn kF) with
    | some r => useChan r.d F.d ++ useChan r.a F.a ++ useChan r.b F.b
    | none => []

/-- The batches of a wave that stand blocked in an operation on a channel: their ILL CHAN is due, batch by batch (R100). -/
def Wave.failOn (w : Wave) (c : BitVec 6) : Wave :=
  let on (k : Stuck) : Bool := k.why == .chan c || (match k.word with | some i => (chansOf i).contains c | none => false)
  let hit (k : Stuck) : Bool := k.ent.isNone && on k && !w.due.any (fun d => d.pc == k.pc && k.todo.any d.batch.contains)
  { w with due := w.due ++ (w.stuck.filter hit).map (fun k => ⟨k.pc, trapAll k.todo 0 0x0E, k.execs, k.todo, none⟩) }

/-- A channel entry is unbound: what it counted is gone, and the fibres blocked on it fail (R100). -/
def Team.unbind (t : Team) (c : BitVec 6) : Team :=
  { t with c := vset t.c c.toNat { vget t.c c.toNat with v := false, head := 0, filled := 0 },
           waves := t.waves.map (·.failOn c) }

/-- CUNB (R100), once for the batch. -/
def execCunb (h : Hdr) (c : BitVec 6) (s : State) : Out :=
  onceWord (.cunb h c) h (fun _ => id) (do
    let e := vget (← L.team).c c.toNat
    if e.v then
      if e.kind = 2 then
        let a := (← get).agent
        L.modSt (·.disposeVats a (some c))
      L.modTeam (·.unbind c)) s

/-- The scratch range of a whole slot (R102). -/
def L.slotRange (off size : Nat) : L Unit := L.checkScr off size 4

/-- CPROD (R102): a whole slot from scratch into the channel. -/
def execCprod (h : Hdr) (a : Opnd) (c : BitVec 6) (s : State) : Out :=
  laneWord (.cprod h a c) h .order (do
    L.checkReg a
    let e ← L.chan c.toNat true
    let off := (← L.rdW a).toNat
    L.slotRange off e.size.toNat
    L.chanPush c.toNat (← L.loadScr off e.size.toNat) (e.size.toNat / 4)) s

/-- CCONS (R102): the slot at HEAD to scratch. -/
def execCcons (h : Hdr) (a : Opnd) (c : BitVec 6) (s : State) : Out :=
  laneWord (.ccons h a c) h .order (do
    L.checkReg a
    let e ← L.chan c.toNat false
    let off := (← L.rdW a).toNat
    L.slotRange off e.size.toNat
    L.storeScr off e.size.toNat (← L.chanPop c.toNat false (e.size.toNat / 4))) s

end Sys2Proof.Machine
end

