-- ==== Sys2Proof/Machine/Integer.lean ====
section
/-! DEFINITION. The meanings of group 1: integer, address, affine and index instructions (R104 to R121). -/

namespace Sys2Proof.Machine

/-! ### Results (R108, R109, R111) -/

/-- The shift amount: bits 4:0 (R108). -/
def shAmt (y : Word) : Nat := y.toNat % 32

/-- The high 32 bits of the signed and of the unsigned product. -/
def mulHi (x y : Word) : Word := BitVec.ofInt 32 (x.toInt * y.toInt / 2 ^ 32)
def mulHiU (x y : Word) : Word := BitVec.ofNat 32 (x.toNat * y.toNat / 2 ^ 32)

/-- Division and remainder (R109): toward zero, never a trap. -/
def divS (x y : Word) : Word := if y = 0 then 0xFFFF_FFFF else BitVec.ofInt 32 (x.toInt.tdiv y.toInt)
def divU (x y : Word) : Word := if y = 0 then 0xFFFF_FFFF else BitVec.ofNat 32 (x.toNat / y.toNat)
def remS (x y : Word) : Word := if y = 0 then x else BitVec.ofInt 32 (x.toInt.tmod y.toInt)
def remU (x y : Word) : Word := if y = 0 then x else BitVec.ofNat 32 (x.toNat % y.toNat)

/-- Leading and trailing zeros, and the count of ones. -/
def clzW (x : Word) : Word := x.clz
def ctzW (x : Word) : Word := x.ctz
def popcW (x : Word) : Word := x.cpop
/-- The bits in reverse order. -/
def brevW (x : Word) : Word := x.reverse

/-- Lesser and greater, signed and unsigned. -/
def minS (x y : Word) : Word := if x.toInt ≤ y.toInt then x else y
def maxS (x y : Word) : Word := if x.toInt ≤ y.toInt then y else x
def minU (x y : Word) : Word := if x.toNat ≤ y.toNat then x else y
def maxU (x y : Word) : Word := if x.toNat ≤ y.toNat then y else x

/-- Relations of R48's REL, for integers. -/
def relHolds (rel : Nat) (x y : Word) : Bool :=
  match rel with
  | 0 => x == y
  | 1 => x != y
  | 2 => decide (x.toInt < y.toInt)
  | 3 => decide (x.toInt ≤ y.toInt)
  | 4 => decide (y.toInt < x.toInt)
  | 5 => decide (y.toInt ≤ x.toInt)
  | 6 => decide (x.toNat < y.toNat)
  | 7 => decide (x.toNat ≤ y.toNat)
  | 8 => decide (y.toNat < x.toNat)
  | _ => decide (y.toNat ≤ x.toNat)

/-! ### Shapes of words -/

/-- A word of two sources (R107). -/
def L.two (f : Word → Word → Word) (d a b : Opnd) : L Unit := do
  L.check 1 [a, b] [d]
  let x ← L.rdW a
  let y ← L.rdW b
  L.wrW d (f x y)

/-- A word of one source (R111). -/
def L.one (f : Word → Word) (d a : Opnd) : L Unit := do
  L.check 1 [a] [d]
  L.wrW d (f (← L.rdW a))

def twoWord (i : Instr) (h : Hdr) (f : Word → Word → Word) (d a b : Opnd) (s : State) : Out :=
  laneWord i h (modeOf [a, b] d) (L.two f d a b) s
def oneWord (i : Instr) (h : Hdr) (f : Word → Word) (d a : Opnd) (s : State) : Out :=
  laneWord i h (modeOf [a] d) (L.one f d a) s

/-- The index register an indexed destination is captured with: bound ‖ index (R43, R211). -/
def L.destIndex (d : Opnd) : L QWord := do
  match d with
  | .idx r _ => return (← L.rdI r.toNat).setWidth 128
  | _ => return 0

/-- What a long-latency integer word captures (R43): its sources, and the index of an indexed destination. -/
def L.capInt (d a b : Opnd) : L Cap := do
  L.check 1 [a, b] [d]
  let x ← L.rdW a
  let y ← L.rdW b
  let ix ← L.destIndex d
  return { Cap.zero with av := x.setWidth 128, bv := y.setWidth 128, dv := ix }

/-- What such a word computes from its captured sources. -/
def perfInt (f : Word → Word → Word) (c : Cap) : L (QWord × BitVec 4) :=
  return ((f (c.av.setWidth 32) (c.bv.setWidth 32)).setWidth 128, 0)

def divWord (i : Instr) (h : Hdr) (f : Word → Word → Word) (d a b : Opnd) (s : State) : Out :=
  longWord i h (modeOf [a, b] d) (L.capInt d a b) (perfInt f) s

/-! ### Two sources -/

def execAdd (h : Hdr) (d a b : Opnd) (s : State) : Out := twoWord (.add h d a b) h (· + ·) d a b s
def execSub (h : Hdr) (d a b : Opnd) (s : State) : Out := twoWord (.sub h d a b) h (· - ·) d a b s
def execMul (h : Hdr) (d a b : Opnd) (s : State) : Out := twoWord (.mul h d a b) h (· * ·) d a b s
def execMulh (h : Hdr) (d a b : Opnd) (s : State) : Out := twoWord (.mulh h d a b) h mulHi d a b s
def execMulhu (h : Hdr) (d a b : Opnd) (s : State) : Out := twoWord (.mulhu h d a b) h mulHiU d a b s

/-- MAD (R110): D is a source too. -/
def execMad (h : Hdr) (d a b : Opnd) (s : State) : Out :=
  laneWord (.mad h d a b) h (modeOf [a, b] d) (do
    L.check 1 [a, b] [d]
    let x ← L.rdW a
    let y ← L.rdW b
    let z ← L.rdW d
    L.wrW d (x * y + z)) s

def execDiv (h : Hdr) (d a b : Opnd) (s : State) : Out := divWord (.div h d a b) h divS d a b s
def execDivu (h : Hdr) (d a b : Opnd) (s : State) : Out := divWord (.divu h d a b) h divU d a b s
def execRem (h : Hdr) (d a b : Opnd) (s : State) : Out := divWord (.rem h d a b) h remS d a b s
def execRemu (h : Hdr) (d a b : Opnd) (s : State) : Out := divWord (.remu h d a b) h remU d a b s

def execAnd (h : Hdr) (d a b : Opnd) (s : State) : Out := twoWord (.and h d a b) h (· &&& ·) d a b s
def execOr (h : Hdr) (d a b : Opnd) (s : State) : Out := twoWord (.or h d a b) h (· ||| ·) d a b s
def execXor (h : Hdr) (d a b : Opnd) (s : State) : Out := twoWord (.xor h d a b) h (· ^^^ ·) d a b s
def execAndn (h : Hdr) (d a b : Opnd) (s : State) : Out := twoWord (.andn h d a b) h (fun x y => x &&& ~~~ y) d a b s
def execShl (h : Hdr) (d a b : Opnd) (s : State) : Out := twoWord (.shl h d a b) h (fun x y => x <<< shAmt y) d a b s
def execShr (h : Hdr) (d a b : Opnd) (s : State) : Out := twoWord (.shr h d a b) h (fun x y => x >>> shAmt y) d a b s
def execSar (h : Hdr) (d a b : Opnd) (s : State) : Out :=
  twoWord (.sar h d a b) h (fun x y => x.sshiftRight (shAmt y)) d a b s
def execRol (h : Hdr) (d a b : Opnd) (s : State) : Out := twoWord (.rol h d a b) h (fun x y => x.rotateLeft (shAmt y)) d a b s
def execMin (h : Hdr) (d a b : Opnd) (s : State) : Out := twoWord (.min h d a b) h minS d a b s
def execMax (h : Hdr) (d a b : Opnd) (s : State) : Out := twoWord (.max h d a b) h maxS d a b s
def execMinu (h : Hdr) (d a b : Opnd) (s : State) : Out := twoWord (.minu h d a b) h minU d a b s
def execMaxu (h : Hdr) (d a b : Opnd) (s : State) : Out := twoWord (.maxu h d a b) h maxU d a b s

/-! ### One source, bit fields -/

def execClz (h : Hdr) (d a : Opnd) (s : State) : Out := oneWord (.clz h d a) h clzW d a s
def execCtz (h : Hdr) (d a : Opnd) (s : State) : Out := oneWord (.ctz h d a) h ctzW d a s
def execPopc (h : Hdr) (d a b : Opnd) (s : State) : Out := twoWord (.popc h d a b) h (fun x y => popcW x + y) d a b s
def execBrev (h : Hdr) (d a : Opnd) (s : State) : Out := oneWord (.brev h d a) h brevW d a s

/-- A field of `len + 1` bits at `pos`, zero-extended and sign-extended (R112). -/
def bfxW (pos len : BitVec 5) (x : Word) : Word := BitVec.ofNat 32 (bits x.toNat pos.toNat (len.toNat + 1))
def bfxsW (pos len : BitVec 5) (x : Word) : Word := BitVec.ofInt 32 (sextN (x.toNat / 2 ^ pos.toNat) (len.toNat + 1))

def execBfx (h : Hdr) (d a : Opnd) (pos len : BitVec 5) (s : State) : Out :=
  oneWord (.bfx h d a pos len) h (bfxW pos len) d a s
def execBfxs (h : Hdr) (d a : Opnd) (pos len : BitVec 5) (s : State) : Out :=
  oneWord (.bfxs h d a pos len) h (bfxsW pos len) d a s

/-- BFI (R112): D is read too. -/
def execBfi (h : Hdr) (d a : Opnd) (pos len : BitVec 5) (s : State) : Out :=
  laneWord (.bfi h d a pos len) h (modeOf [a] d) (do
    L.check 1 [a] [d]
    let x ← L.rdW a
    let y ← L.rdW d
    L.wrW d (BitVec.ofNat 32 (setBits y.toNat pos.toNat (len.toNat + 1) x.toNat))) s

def execAbs (h : Hdr) (d a : Opnd) (s : State) : Out :=
  oneWord (.abs h d a) h (fun x => if x.toInt < 0 then - x else x) d a s

/-! ### Comparison, selection, moves -/

/-- CMP (R113): a decided pair at an even bit of gD. -/
def execCmp (h : Hdr) (d a b : Opnd) (t : TOpt) (s : State) : Out :=
  laneWord (.cmp h d a b t) h (modeOf [a, b] d) (do
    L.check 1 [a, b] [d]
    let x ← L.rdW a
    let y ← L.rdW b
    L.wrPairBits d t.pb (some (relHolds t.rel.toNat x y))) s

/-- SEL (R114): both sources are read. -/
def execSel (h : Hdr) (d a b : Opnd) (cr : BitVec 6) (cb : BitVec 5) (s : State) : Out :=
  laneWord (.sel h d a b cr cb) h (modeOf [a, b] d) (do
    L.checkG cr.toNat
    L.check 1 [a, b] [d]
    let c ← L.rdG cr.toNat
    let x ← L.rdW a
    let y ← L.rdW b
    L.wrW d (if bitOf c cb.toNat then x else y)) s

def execMov (h : Hdr) (d a : Opnd) (s : State) : Out := oneWord (.mov h d a) h id d a s

/-- LI (R115). -/
def execLi (h : Hdr) (d : Opnd) (imm : BitVec 29) (s : State) : Out :=
  laneWord (.li h d imm) h (modeOf [] d) (L.wrW d (imm.signExtend 32)) s

/-- LIH (R115): the low half of D stays. -/
def execLih (h : Hdr) (d : Opnd) (imm : BitVec 16) (s : State) : Out :=
  laneWord (.lih h d imm) h (modeOf [] d) (do
    let x ← L.rdW d
    L.wrW d (imm ++ x.extractLsb' 0 16)) s

/-! ### Lane exchange, identity -/

/-- Source lane of SHFL (R116). -/
def shflLane (mode : BitVec 2) (l d : Nat) : Int :=
  match mode.toNat with
  | 0 => d
  | 1 => (l : Int) - d
  | 2 => l + d
  | _ => ((l ^^^ d : Nat) : Int)

/-- What SHFL captures: the value of A in the source lane, or the lane's own (R116). -/
def L.capShfl (d a b : Opnd) (mode : BitVec 2) : L Cap := do
  L.checkRegs [a, b, d]
  let x ← get
  let own ← L.rdW a
  let k := shflLane mode x.lane (bits (← L.rdW b).toNat 0 5)
  let w : Int := (← L.team).width
  if 0 ≤ k ∧ k < w ∧ x.execs.contains k.toNat then
    let v ← L.peer k.toNat (L.rdW a)
    return { Cap.zero with av := (v.getD own).setWidth 128 }
  else return { Cap.zero with av := own.setWidth 128 }

/-- What a word that captured its result answers. -/
def perfCaptured (c : Cap) : L (QWord × BitVec 4) := return (c.av, 0)

/-- SHFL (R116). -/
def execShfl (h : Hdr) (d a b : Opnd) (mode : BitVec 2) (s : State) : Out :=
  longWord (.shfl h d a b mode) h (modeOf [a, b] d) (L.capShfl d a b mode) perfCaptured s

/-- RDID's values (R117). -/
def L.identity (sel : BitVec 4) : L Word := do
  let x ← get
  let t ← L.team
  match sel.toNat with
  | 0 => return BitVec.ofNat 32 x.lane
  | 1 => return BitVec.ofNat 32 (t.slot x.wave x.lane)
  | 2 => return BitVec.ofNat 32 x.wave
  | 3 => return x.agent.setWidth 32
  | 4 => return t.work.unit
  | 5 => return BitVec.ofNat 32 t.work.shape
  | 6 => return BitVec.ofNat 32 t.part
  | 7 => return BitVec.ofNat 32 t.nwaves
  | 8 => return BitVec.ofNat 32 (match x.st0.team? x.agent with
    | some t => (t.liveLanes x.wave).length
    | none => 0)
  | _ => return x.st.pkg.setWidth 32

def execRdid (h : Hdr) (d : Opnd) (sel : BitVec 4) (s : State) : Out :=
  laneWord (.rdid h d sel) h (modeOf [] d) (do
    L.checkReg d
    L.wrW d (← L.identity sel)) s

/-! ### The affine unit (R118, R119) -/

/-- UNIFORM PARTIAL unless every live fibre of the wave executes the word; it comes before DIVERGE (R106). -/
def L.wholeWave : L Unit := do
  let x ← get
  if !((← L.team).liveLanes x.wave).all x.execs.contains then L.trap 11 1

/-- A uniform value read by an affine word. -/
def L.uniformW (o : Opnd) : L Word := do
  let v ← L.rdW o
  L.sameInAll v (L.rdW o)
  return v

def L.writeA (d : Opnd) (base stride : Word) : L Unit :=
  match d with
  | .a n => L.uni (.a n base stride)
  | _ => pure ()

/-- Base and stride of an a register. -/
def L.pairA (o : Opnd) : L (Word × Word) := do
  match o with
  | .a n => return vget (← L.wave).a n.toNat
  | _ => return (0, 0)

/-- AMK. -/
def execAmk (h : Hdr) (d a b : Opnd) (s : State) : Out :=
  laneWord (.amk h d a b) h .all (do
    L.checkRegs [a, b]
    L.wholeWave
    L.writeA d (← L.uniformW a) (← L.uniformW b)) s

/-- AADD. -/
def execAadd (h : Hdr) (d a b : Opnd) (s : State) : Out :=
  laneWord (.aadd h d a b) h .all (do
    L.checkReg b
    L.wholeWave
    let (base, stride) ← L.pairA a
    L.writeA d (base + (← L.uniformW b)) stride) s

/-- ASCL. -/
def execAscl (h : Hdr) (d a b : Opnd) (s : State) : Out :=
  laneWord (.ascl h d a b) h .all (do
    L.checkReg b
    L.wholeWave
    let (base, stride) ← L.pairA a
    let v ← L.uniformW b
    L.writeA d (base * v) (stride * v)) s

/-- Whether every lane of a list reads the affine value. -/
def L.affineIn (a : Opnd) (base stride : Word) : List Nat → L Bool
  | [] => return true
  | k :: l => do
    let v ← L.peer k (L.rdW a)
    let r ← L.affineIn a base stride l
    return r && v == some (base + stride * BitVec.ofNat 32 k)

/-- AMAT. -/
def execAmat (h : Hdr) (d a : Opnd) (s : State) : Out :=
  laneWord (.amat h d a) h .all (do
    L.checkReg a
    L.wholeWave
    let live := (← L.team).liveLanes (← get).wave
    discard (L.rdW a)
    let v0 := (← L.peer 0 (L.rdW a)).getD 0
    let v1 := (← L.peer 1 (L.rdW a)).getD 0
    if !(live.contains 0 && live.contains 1 && (← L.affineIn a v0 (v1 - v0) live)) then L.trap 11 3
    L.writeA d v0 (v1 - v0)) s

/-! ### Index registers, addresses -/

/-- SETIX (R120). -/
def execSetix (h : Hdr) (d a b : Opnd) (s : State) : Out :=
  laneWord (.setix h d a b) h (modeOf [a, b] d) (do
    L.check 1 [a, b] [d]
    let x ← L.rdW a
    let y ← L.rdW b
    if 2 ^ 16 ≤ x.toNat ∨ 2 ^ 16 ≤ y.toNat ∨ (← L.team).gWin < y.toNat then L.trap 1 2
    L.wrW d (y.extractLsb' 0 16 ++ x.extractLsb' 0 16)) s

/-- GETIX (R120). -/
def execGetix (h : Hdr) (d a b : Opnd) (s : State) : Out :=
  laneWord (.getix h d a b) h (modeOf [a, b] d) (do
    L.check 1 [a, b] [d]
    let x ← L.rdW a
    let y ← L.rdW b
    L.wrW d ((x.extractLsb' 0 16).setWidth 32 + y)) s

/-- LEA (R121). -/
def execLea (h : Hdr) (d : Opnd) (wid : Wid) (m : MemOpnd) (s : State) : Out :=
  laneWord (.lea h d wid m) h (modeOf [] d) (do
    L.checkAddr m
    L.checkReg d
    let (av, bv) ← L.addrOps m
    let ea := memEa m (widSize wid) av bv
    if m.scratch then L.wrW d (BitVec.ofInt 32 ea)
    else
      let a ← L.globalEa 0 ea
      L.wrPair d a) s

end Sys2Proof.Machine
end

