-- ==== Sys2Proof/Machine/Trans.lean ====
section
/-! DEFINITION. The correctly rounded functions 2^a, log₂ a, sin a, cos a (R126) and e^a (R138). A value is computed
in fixed point with `p` fraction bits, within 2^16 units of the last place; when both ends of that enclosure round
alike, that is the rounding of the exact value, which no rounding grid contains (but for the cases answered first).
Otherwise `p` grows. Should no precision tried decide, the result is a free value (`Config.undecidedRound`). -/

namespace Sys2Proof.Machine

/-- Σ over odd k of u^k ÷ k from term `n` down, in fixed point: `n` terms of the inverse hyperbolic tangent (or, with
`alt`, of the arc tangent) of u = num ÷ den. `pw` is u^k in fixed point, `u2` the factor from one power to the next. -/
def atanSum (alt : Bool) (num2 den2 : Nat) : Nat → Nat → Nat → Int → Int
  | 0, _, _, acc => acc
  | n + 1, k, pw, acc =>
    let t : Int := (pw / k : Nat)
    atanSum alt num2 den2 n (k + 2) (pw * num2 / den2) (if alt && k % 4 == 3 then acc - t else acc + t)

/-- ln 2 × 2^p = 2 artanh(1/3) × 2^p. -/
def ln2Fix (p : Nat) : Nat := (2 * atanSum false 1 9 (p / 3 + 2) 1 (2 ^ p / 3) 0).toNat

/-- π/2 × 2^p = (8 arctan(1/5) − 2 arctan(1/239)) × 2^p. -/
def halfPiFix (p : Nat) : Nat :=
  (8 * atanSum true 1 25 (p / 4 + 2) 1 (2 ^ p / 5) 0 - 2 * atanSum true 1 57121 (p / 15 + 2) 1 (2 ^ p / 239) 0).toNat

/-- e^t × 2^p for 0 ≤ t < 1 in fixed point, by Horner's rule over `n` terms. -/
def expFix (p t : Nat) : Nat → Nat → Nat
  | 0, acc => acc
  | n + 1, acc => expFix p t n (2 ^ p + t * acc / 2 ^ p / (n + 1))

/-- ln z × 2^p for z = num ÷ 2^s in [1, 2]. -/
def lnFix (p num s : Nat) : Nat :=
  let u := 2 ^ p * (num - 2 ^ s) / (num + 2 ^ s)
  (2 * atanSum false (u * u) (2 ^ (2 * p)) (p / 3 + 2) 1 u 0).toNat

/-- Terms of sin (k from 1) or cos (k from 0) of t in fixed point, with alternating signs. -/
def trigSum (p t2 : Nat) : Nat → Nat → Nat → Bool → Int → Int
  | 0, _, _, _, acc => acc
  | n + 1, k, term, minus, acc =>
    trigSum p t2 n (k + 2) (term * t2 / 2 ^ p / ((k + 1) * (k + 2))) (!minus)
      (if minus then acc - (term : Int) else acc + (term : Int))

/-- sin t × 2^p and cos t × 2^p for 0 ≤ t < 2. -/
def sinFix (p t : Nat) : Int := trigSum p (t * t / 2 ^ p) (p / 4) 1 t false 0
def cosFix (p t : Nat) : Int := trigSum p (t * t / 2 ^ p) (p / 4) 0 (2 ^ p) false 0

/-- The fixed-point magnitude of m × 2^e with p fraction bits. -/
def fixOf (p m : Nat) (e : Int) : Nat :=
  if 0 ≤ e + p then m * 2 ^ (e + p).toNat else m / 2 ^ (-(e + p)).toNat

/-- A signed fixed-point approximation: x × 2^(shift − p), within 2^16 units. -/
structure Approx where
  x : Int
  shift : Int

/-- 2^a for finite nonzero a: with a = n + f, f in [0, 1), e^(f ln 2) × 2^n. -/
def ex2Approx (neg : Bool) (m : Nat) (e : Int) (p : Nat) : Approx :=
  let a : Int := if neg then -(fixOf p m e : Int) else fixOf p m e
  let n := a / 2 ^ p
  let f := (a % 2 ^ p).toNat
  ⟨expFix p (f * ln2Fix p / 2 ^ p) (p / 2) (2 ^ p), n⟩

/-- e^a for finite nonzero a. -/
def expApprox (neg : Bool) (m : Nat) (e : Int) (p : Nat) : Approx :=
  let a : Int := if neg then -(fixOf p m e : Int) else fixOf p m e
  let n := a / ln2Fix p
  let f := (a % ln2Fix p).toNat
  ⟨expFix p f (p / 2) (2 ^ p), n⟩

/-- log₂ of a positive m × 2^e. -/
def lg2Approx (m : Nat) (e : Int) (p : Nat) : Approx :=
  let s := m.log2
  let n : Int := e + s
  ⟨n * 2 ^ p + ((lnFix p m s * 2 ^ p / ln2Fix p : Nat) : Int), 0⟩

/-- sin or cos of a positive m × 2^e: the argument is reduced by π/2 held with enough bits for every finite a. -/
def trigApprox (cos : Bool) (m : Nat) (e : Int) (p : Nat) : Approx :=
  let g := p + 8 + (e + m.log2 + 1).toNat
  let h := halfPiFix g
  let a := fixOf g m e
  let k := a / h
  let r := (a % h) / 2 ^ (g - p)
  let q := (if cos then k + 1 else k) % 4
  let v := if q % 2 = 0 then sinFix p r else cosFix p r
  ⟨if q ≥ 2 then -v else v, 0⟩

/-- Rounds an approximation when both ends of its enclosure round alike. -/
def roundApprox (f : Fmt) (rm : Rm) (p : Nat) (a : Approx) : Option Rnd :=
  let lo := a.x - 2 ^ 16
  let hi := a.x + 2 ^ 16
  let at' (x : Int) := roundTo f rm false (.fin (decide (x < 0)) x.natAbs (a.shift - p))
  if lo ≤ 0 && 0 ≤ hi then none
  else if at' lo = at' hi then some (at' lo) else none

/-- The first precision that decides. -/
def firstRound (f : Fmt) (rm : Rm) (g : Nat → Approx) : List Nat → Rnd
  | [] => ⟨Config.undecidedRound (g 64).x.natAbs % (2 * f.signBit), flNX⟩
  | p :: l => match roundApprox f rm p (g p) with
    | some r => r
    | none => firstRound f rm g l

/-- The precisions tried. -/
def precisions : List Nat := [208, 320, 640, 1280]

/-- Just above 1 (or, with `below`, just below it): where e^a, 2^a and cos a of a tiny a lie. -/
def nearOne (below : Bool) : FV := if below then .fin false (2 ^ 90 - 1) (-90) else .fin false (2 ^ 90 + 1) (-90)

/-- A result and the flags it raises. -/
def exactRnd (f : Fmt) (rm : Rm) (x : Ex) : Rnd :=
  let r := roundTo f rm false x.v
  ⟨r.code, x.fl ||| r.fl⟩

/-- FEX2. -/
def ex2R (f : Fmt) (rm : Rm) (a : FV) : Rnd :=
  match a with
  | .nan => exactRnd f rm (.plain .nan)
  | .inf s => exactRnd f rm (.plain (if s then .fin false 0 0 else .inf false))
  | .fin s m e =>
    if m = 0 then exactRnd f rm (.plain (.fin false 1 0))
    else if e + m.log2 ≥ 14 then exactRnd f rm (.plain (.fin false 1 (if s then -20000 else 20000)))
    else if e + m.log2 < -80 then exactRnd f rm (.plain (nearOne s))
    else
      let whole := if 0 ≤ e then m * 2 ^ e.toNat else m / 2 ^ (-e).toNat
      if 0 ≤ e || m % 2 ^ (-e).toNat = 0 then
        exactRnd f rm (.plain (.fin false 1 (if s then -(whole : Int) else whole)))
      else firstRound f rm (ex2Approx s m e) precisions

/-- e^a, for XEXP's bounds. -/
def expR (f : Fmt) (rm : Rm) (a : FV) : Rnd :=
  match a with
  | .nan => exactRnd f rm (.plain .nan)
  | .inf s => exactRnd f rm (.plain (if s then .fin false 0 0 else .inf false))
  | .fin s m e =>
    if m = 0 then exactRnd f rm (.plain (.fin false 1 0))
    else if e + m.log2 ≥ 14 then exactRnd f rm (.plain (.fin false 1 (if s then -20000 else 20000)))
    else if e + m.log2 < -80 then exactRnd f rm (.plain (nearOne s))
    else firstRound f rm (expApprox s m e) precisions

/-- FLG2. -/
def lg2R (f : Fmt) (rm : Rm) (a : FV) : Rnd :=
  match a with
  | .nan => exactRnd f rm (.plain .nan)
  | .inf s => exactRnd f rm (if s then .invalid else .plain (.inf false))
  | .fin s m e =>
    if m = 0 then exactRnd f rm ⟨.inf true, flDZ⟩
    else if s then exactRnd f rm .invalid
    else if m = 2 ^ m.log2 then exactRnd f rm (.plain (FV.ofInt (e + m.log2)))
    else firstRound f rm (lg2Approx m e) precisions

/-- FSIN and FCOS, radians. -/
def trigR (cos : Bool) (f : Fmt) (rm : Rm) (a : FV) : Rnd :=
  match a with
  | .nan => exactRnd f rm (.plain .nan)
  | .inf _ => exactRnd f rm .invalid
  | .fin s m e =>
    if m = 0 then exactRnd f rm (.plain (if cos then .fin false 1 0 else a))
    else if e + m.log2 < -50 then
      exactRnd f rm (.plain (if cos then nearOne true else .fin s (m * 2 ^ 90 - 1) (e - 90)))
    else
      firstRound f rm (fun p =>
        let x := trigApprox cos m e p
        ⟨if s && !cos then -x.x else x.x, x.shift⟩) precisions

end Sys2Proof.Machine
end

