-- ==== Sys2Proof/Machine/FloatOps.lean ====
section
/-! DEFINITION. The meanings of group 2: floating point (R122 to R135). -/

namespace Sys2Proof.Machine

/-! ### Tags, formats, values (R59, R125) -/

/-- FMT TAG unless an f register carries one of the tags (R59). -/
def L.tagIn (ts : List (BitVec 4)) (o : Opnd) : L Unit := do
  match o with
  | .f n => do
    L.checkF n.toNat
    L.landed (.f n)
    let t := vget (← L.fibre).regs.tag n.toNat
    if !ts.contains t then L.trap 2 1
  | _ => pure ()

/-- The format and the tag that FP64 or WIDE chooses (R122). -/
def fmtOf (wide : Bool) : Fmt := if wide then fmtF64 else fmtF32
def tagOf (wide : Bool) : BitVec 4 := if wide then 1 else 2

/-- An operand's value after ABS and NEG (R125). -/
def modSign (abs neg : Bool) (v : FV) : FV :=
  let v := if abs then v.abs else v
  if neg then v.negate else v

/-- A's and B's bits as values. -/
def fA (o : FOpt) (x : DWord) : FV := modSign o.absA o.negA ((fmtOf o.fp64).value x.toNat)
def fB (o : FOpt) (x : DWord) : FV := modSign o.absB o.negB ((fmtOf o.fp64).value x.toNat)
def fMode (o : FOpt) : Rm := Rm.ofBits o.rm

/-- Raises a rounded result's flags and gives its bits. -/
def L.settle (r : Rnd) : L DWord := do
  L.raise r.fl
  return BitVec.ofNat 64 r.code

/-- Windows, then tags, of a floating word's operands (R59); which of the two comes first is open (DESIGN CHOICE, log 97). -/
def L.checkF3 (wide : Bool) (srcs dst : List Opnd) : L Unit := do
  L.checkRegs (srcs ++ dst)
  srcs.forM (L.tagIn [tagOf wide])

/-- A word of two f sources. -/
def L.float2 (o : FOpt) (f : Rm → FV → FV → Rnd) (d a b : Opnd) : L Unit := do
  L.checkF3 o.fp64 [a, b] [d]
  let x ← L.rdD a
  let y ← L.rdD b
  let v ← L.settle (f (fMode o) (fA o x.1) (fB o y.1))
  L.wrD d v (tagOf o.fp64)

/-- A word of one f source. -/
def L.float1 (o : FOpt) (f : Rm → FV → Rnd) (d a : Opnd) : L Unit := do
  L.checkF3 o.fp64 [a] [d]
  let x ← L.rdD a
  let v ← L.settle (f (fMode o) (fA o x.1))
  L.wrD d v (tagOf o.fp64)

/-- What a long-latency floating word captures. -/
def L.capF (wide : Bool) (d a b : Opnd) : L Cap := do
  L.checkF3 wide [a, b] [d]
  let x ← L.rdD a
  let y ← L.rdD b
  return { Cap.zero with av := x.1.setWidth 128, bv := y.1.setWidth 128 }

/-- What it computes from its captured sources. -/
def perfF (o : FOpt) (f : Rm → FV → FV → Rnd) (c : Cap) : L (QWord × BitVec 4) := do
  let v ← L.settle (f (fMode o) (fA o (c.av.setWidth 64)) (fB o (c.bv.setWidth 64)))
  return (v.setWidth 128, tagOf o.fp64)

/-- One rounding from the exact result. -/
def fRnd (o : FOpt) (rm : Rm) (x : Ex) : Rnd := exactRnd (fmtOf o.fp64) rm x

/-! ### Arithmetic (R126, R127) -/

def execFadd (h : Hdr) (d a b : Opnd) (o : FOpt) (s : State) : Out :=
  laneWord (.fadd h d a b o) h .each (L.float2 o (fun rm x y => fRnd o rm (addX rm x y)) d a b) s
def execFsub (h : Hdr) (d a b : Opnd) (o : FOpt) (s : State) : Out :=
  laneWord (.fsub h d a b o) h .each (L.float2 o (fun rm x y => fRnd o rm (addX rm x y.negate)) d a b) s
def execFmul (h : Hdr) (d a b : Opnd) (o : FOpt) (s : State) : Out :=
  laneWord (.fmul h d a b o) h .each (L.float2 o (fun rm x y => fRnd o rm (mulX x y)) d a b) s

/-- FFMA: D is a source too; one rounding. -/
def execFfma (h : Hdr) (d a b : Opnd) (o : FOpt) (s : State) : Out :=
  laneWord (.ffma h d a b o) h .each (do
    L.checkF3 o.fp64 [a, b, d] [d]
    let x ← L.rdD a
    let y ← L.rdD b
    let z ← L.rdD d
    let v ← L.settle (fRnd o (fMode o) (fmaX (fMode o) (fA o x.1) (fB o y.1) ((fmtOf o.fp64).value z.1.toNat)))
    L.wrD d v (tagOf o.fp64)) s

/-- minimumNumber and maximumNumber (R127). -/
def minNum (x y : FV) : FV := if x.isNan then y else if y.isNan then x else if y.below x then y else x
def maxNum (x y : FV) : FV := if x.isNan then y else if y.isNan then x else if x.below y then y else x

def execFmin (h : Hdr) (d a b : Opnd) (o : FOpt) (s : State) : Out :=
  laneWord (.fmin h d a b o) h .each (L.float2 o (fun rm x y => fRnd o rm (.plain (minNum x y))) d a b) s
def execFmax (h : Hdr) (d a b : Opnd) (o : FOpt) (s : State) : Out :=
  laneWord (.fmax h d a b o) h .each (L.float2 o (fun rm x y => fRnd o rm (.plain (maxNum x y))) d a b) s

def execFdiv (h : Hdr) (d a b : Opnd) (o : FOpt) (s : State) : Out :=
  longWord (.fdiv h d a b o) h .each (L.capF o.fp64 d a b) (perfF o (fun rm x y => fRnd o rm (divX x y))) s

/-- A long-latency word of one f source. -/
def float1Long (i : Instr) (h : Hdr) (o : FOpt) (f : Rm → FV → Rnd) (d a : Opnd) (s : State) : Out :=
  longWord i h .each (L.capF o.fp64 d a a) (perfF o (fun rm x _ => f rm x)) s

def execFsqrt (h : Hdr) (d a : Opnd) (o : FOpt) (s : State) : Out :=
  float1Long (.fsqrt h d a o) h o (fun rm x => fRnd o rm (sqrtX x)) d a s
def execFrcp (h : Hdr) (d a : Opnd) (o : FOpt) (s : State) : Out :=
  float1Long (.frcp h d a o) h o (fun rm x => fRnd o rm (divX (.fin false 1 0) x)) d a s
def execFrsq (h : Hdr) (d a : Opnd) (o : FOpt) (s : State) : Out :=
  float1Long (.frsq h d a o) h o (fun rm x => fRnd o rm (rsqrtX x)) d a s
def execFex2 (h : Hdr) (d a : Opnd) (o : FOpt) (s : State) : Out :=
  float1Long (.fex2 h d a o) h o (ex2R (fmtOf o.fp64)) d a s
def execFlg2 (h : Hdr) (d a : Opnd) (o : FOpt) (s : State) : Out :=
  float1Long (.flg2 h d a o) h o (lg2R (fmtOf o.fp64)) d a s
def execFsin (h : Hdr) (d a : Opnd) (o : FOpt) (s : State) : Out :=
  float1Long (.fsin h d a o) h o (trigR false (fmtOf o.fp64)) d a s
def execFcos (h : Hdr) (d a : Opnd) (o : FOpt) (s : State) : Out :=
  float1Long (.fcos h d a o) h o (trigR true (fmtOf o.fp64)) d a s

/-- FRND: no flag at all (R126). -/
def execFrnd (h : Hdr) (d a : Opnd) (o : FOpt) (s : State) : Out :=
  laneWord (.frnd h d a o) h .each (L.float1 o (fun rm x => ⟨(fRnd o rm (.plain (rndX rm x))).code, 0⟩) d a) s

/-- FSCL (R126). -/
def execFscl (h : Hdr) (d a b : Opnd) (o : FOpt) (s : State) : Out :=
  laneWord (.fscl h d a b o) h .each (do
    L.checkReg b
    L.checkF3 o.fp64 [a] [d]
    let x ← L.rdD a
    let n ← L.rdW b
    let v ← L.settle (fRnd o (fMode o) (.plain (sclX (fA o x.1) n.toInt)))
    L.wrD d v (tagOf o.fp64)) s

/-! ### Comparison, classification, selection (R128 to R130) -/

/-- A relation of two numbers, zeros equal; none when either is a NaN (R72). -/
def fRel (rel : Nat) (x y : FV) : Option Bool :=
  if x.isNan || y.isNan then none
  else some (match rel with
    | 0 => x.eq y
    | 1 => !x.eq y
    | 2 => x.lt y
    | 3 => x.le y
    | 4 => y.lt x
    | _ => y.le x)

def execFcmp (h : Hdr) (d a b : Opnd) (t : TOpt) (s : State) : Out :=
  laneWord (.fcmp h d a b t) h .each (do
    L.checkF3 t.wide [a, b] [d]
    let x ← L.rdD a
    let y ← L.rdD b
    let f := fmtOf t.wide
    L.wrPairBits d t.pb (fRel t.rel.toNat (f.value x.1.toNat) (f.value y.1.toNat))) s

/-- The class mask of R129. -/
def classOf (f : Fmt) (abs neg : Bool) (x : Nat) : Nat :=
  match modSign abs neg (f.value x) with
  | .nan => if x / 2 ^ (f.fb - 1) % 2 = 1 then 2 ^ 9 else 2 ^ 8
  | .inf s => if s then 1 else 2 ^ 7
  | .fin s m _ =>
    if m = 0 then (if s then 2 ^ 3 else 2 ^ 4)
    else if m < 2 ^ f.fb then (if s then 2 ^ 2 else 2 ^ 5)
    else if s then 2 else 2 ^ 6

def execFcls (h : Hdr) (d a : Opnd) (o : FOpt) (s : State) : Out :=
  laneWord (.fcls h d a o) h (modeOf [] d) (do
    L.checkF3 o.fp64 [a] [d]
    let x ← L.rdD a
    L.wrW d (BitVec.ofNat 32 (classOf (fmtOf o.fp64) o.absA o.negA x.1.toNat))) s

/-- FSEL: no tag is checked; both sources are read (R130). -/
def execFsel (h : Hdr) (d a b : Opnd) (cr : BitVec 6) (cb : BitVec 5) (s : State) : Out :=
  laneWord (.fsel h d a b cr cb) h .each (do
    L.checkG cr.toNat
    L.checkRegs [a, b, d]
    let c ← L.rdG cr.toNat
    let x ← L.rdD a
    let y ← L.rdD b
    let v := if bitOf c cb.toNat then x else y
    L.wrD d v.1 v.2) s

/-! ### Moves (R131) -/

/-- FMOV: a value into a channel leaves its tag behind. -/
def execFmov (h : Hdr) (d a : Opnd) (s : State) : Out :=
  laneWord (.fmov h d a) h (modeOf [a] d) (do
    L.check 2 [a] [d]
    let x ← L.rdD a
    L.wrD d x.1 x.2) s

def execFtag (h : Hdr) (d a : Opnd) (tag : BitVec 4) (s : State) : Out :=
  laneWord (.ftag h d a tag) h (modeOf [a] d) (do
    L.check 2 [a] [d]
    let x ← L.rdD a
    L.wrD d x.1 tag) s

/-- FRAW: two words into an f register, or an f register into a g pair. -/
def execFraw (h : Hdr) (d a b : Opnd) (s : State) : Out :=
  laneWord (.fraw h d a b) h .each (do
    match d with
    | .f _ => do
      L.checkRegs [a, b, d]
      let x ← L.rdW a
      let y ← L.rdW b
      L.wrD d (y ++ x) 13
    | _ => do
      L.checkRegs [a, d]
      let x ← L.rdD a
      L.wrPair d x.1.toNat) s

/-! ### Conversions (R132 to R134) -/

/-- The elements that FCVT writes: old elements of D with those converted put in, lowest first, and the flags. -/
def convertRun (rm : Rm) (sat : Bool) (w : Nat) (f : Option Fmt) (src : Nat → FV) (at0 : Nat) : Nat → Nat → Rnd
  | 0, old => ⟨old, 0⟩
  | n + 1, old =>
    let x := convertElem w f rm sat (src n)
    let r := convertRun rm sat w f src at0 n old
    ⟨setBits r.code (w * (at0 + n)) w x.code, r.fl ||| x.fl⟩

/-- D's bits when it carries the target tag, else zero; a packing FCVT fills into them. -/
def L.rdTagged (d : Opnd) (t : BitVec 4) : L Nat := do
  match d with
  | .f n =>
    L.landed (.f n)
    let r := (← L.fibre).regs
    return if vget r.tag n.toNat = t then (vget r.f n.toNat).toNat else 0
  | _ => return 0

/-- FCVT (R133). -/
def execFcvt (h : Hdr) (d a b : Opnd) (v : VOpt) (s : State) : Out :=
  laneWord (.fcvt h d a b v) h .each (do
    L.checkRegs [a, b, d]
    L.tagIn [1, 2, 5, 6, 7, 8, 9, 10, 11] a
    let x ← L.rdD a
    let sel := (← L.rdW b).toNat
    let old ← L.rdTagged d v.ttag
    let (ns, ws, fs) := (tagElems x.2).getD (1, 64, none)
    let (nt, wt, ft) := (tagElems v.ttag).getD (1, 64, none)
    let rm := Rm.ofBits v.rm
    if nt ≤ ns then
      if ns < (sel + 1) * nt then L.trap 2 2
      let r := convertRun rm v.sat wt ft (fun k => elemValue x.1.toNat ws fs (sel * nt + k)) 0 nt 0
      L.wrD d (← L.settle r) v.ttag
    else
      if nt < (sel + 1) * ns then L.trap 2 2
      let r := convertRun rm v.sat wt ft (fun k => elemValue x.1.toNat ws fs k) (sel * ns) ns old
      L.wrD d (← L.settle r) v.ttag) s

/-- FTOI (R134). -/
def execFtoi (h : Hdr) (d a : Opnd) (v : VOpt) (s : State) : Out :=
  laneWord (.ftoi h d a v) h (modeOf [] d) (do
    L.checkRegs [a, d]
    L.tagIn [1, 2] a
    let x ← L.rdD a
    let (lo, hi) : Int × Int := if v.uns then (0, 2 ^ 32 - 1) else (-(2 ^ 31), 2 ^ 31 - 1)
    let (n, fl) := toIntX (Rm.ofBits v.rm) lo hi ((fmtOf (x.2 == 1)).value x.1.toNat)
    L.raise fl
    L.wrW d (BitVec.ofInt 32 n)) s

/-- ITOF (R134). -/
def execItof (h : Hdr) (d a : Opnd) (v : VOpt) (s : State) : Out :=
  laneWord (.itof h d a v) h .each (do
    L.checkRegs [a, d]
    let x ← L.rdW a
    let n : Int := if v.uns then x.toNat else x.toInt
    let r ← L.settle (exactRnd (fmtOf (v.ttag == 1)) (Rm.ofBits v.rm) (.plain (FV.ofInt n)))
    L.wrD d r v.ttag) s

/-! ### Packed dot product (R135) -/

def execFdot (h : Hdr) (d a b : Opnd) (s : State) : Out :=
  laneWord (.fdot h d a b) h .each (do
    L.checkRegs [a, b, d]
    L.tagIn [5, 6, 7, 8, 9, 10] a
    L.tagIn [5, 6, 7, 8, 9, 10] b
    L.tagIn [2] d
    let x ← L.rdD a
    let y ← L.rdD b
    if x.2 ≠ y.2 then L.trap 2 1
    let z ← L.rdD d
    let g := groupSum ((elemsOf x.1.toNat x.2).zip (elemsOf y.1.toNat y.2)) (some 0)
    L.wrD d (← L.settle (accumulate (z.1.toNat % 2 ^ 32) g)) 2) s

end Sys2Proof.Machine
end

