-- ==== Sys2Proof/Machine/Moves.lean ====
section
/-! DEFINITION. What the racking engine does with pages: moves of owned pages (R285), Bellwether (R286, R287), replicas
(R237, R281), seals (R166, R167) and strips (R170), as operations of the state. -/

namespace Sys2Proof.Machine

/-! ### Frames (R433) -/

/-- The frame of a core's replica of a page. -/
def State.replicaOf (s : State) (c : BitVec 11) (part vpn : Nat) : Option (Nat × BitVec 16) :=
  ((s.core c).entry? part vpn).bind (·.ovr)

/-- Makes a replica of a SEALED or CODE page at a level for a core; none when it cannot be made (R237, R281). One
already at that level counts. `src` is where the leaf was read. -/
def State.replicate (s : State) (p : Partition) (c : BitVec 11) (vpn : Nat) (q : QWord) (src lvl : Nat) : Option State :=
  let s := s.dropStale c p.id vpn q
  match s.replicaOf c p.id vpn with
  | some (f, _) =>
    if s.frameAt f lvl c then some s
    else match s.freeFrameFor p lvl c with
      | none => none
      | some f => some ((s.dropEntry c p.id vpn).makeReplica c p.id vpn q src f)
  | none =>
    if lfAuxIdx q = 0xFFF || lfPkg q ≠ 0xFFF || 3 ≤ (s.core c).pinned p.id vpn then none
    else match s.freeFrameFor p lvl c with
      | none => none
      | some f => some (s.makeReplica c p.id vpn q src f)

/-! ### Requests (R158, R285, R287) -/

/-- Moves of one page run in the order in which they were received (R236). -/
def State.firstMove (s : State) (m : Move) : Bool :=
  (s.moves.find? (fun x => x.part == m.part && x.vpn == m.vpn && x.st != .commit)).map (·.id) == some m.id

def State.move? (s : State) (n : Nat) : Option Move := s.moves.find? (·.id == n)
def State.updMove (s : State) (n : Nat) (f : Move → Move) : State := { s with moves := updFirst (·.id == n) f s.moves }

/-- Ends a move. -/
def State.endMove (s : State) (n : Nat) : State := { s with moves := s.moves.filter (·.id != n) }

/-- The events that carry a move on. -/
def Move.next (m : Move) : Event := if m.owned then .ownedCopy m.id else .mark m.id

/-- Step 1 of an owned move: M is set, and the owner's core holds new accesses (R285). A request whose page is no
longer its owner's lapses (DESIGN CHOICE, log 19). -/
def State.startOwned (s : State) (n : Nat) : State :=
  match s.move? n with
  | none => s
  | some m =>
    match s.part? m.part with
    | none => s
    | some p =>
      match leafAt s p m.vpn with
      | none => { s.endMove n with taken := match m.dest with | some (_, f) => s.taken.erase f | none => s.taken }
      | some (q, addr) =>
        if lfM q || !s.firstMove m then s
        else if lfMode q ≠ mOwned || coreOf (lfOwner q) ≠ m.core then
          { s.endMove n with taken := match m.dest with | some (_, f) => s.taken.erase f | none => s.taken }
        else
          let q := lfSet q 9 1 1
          (s.writeLeaf addr q).updMove n (fun m => { m with st := .copy, seen := q })

/-- The racking engine receives a request; its new frame is taken at once. -/
def State.requestMove (s : State) (part vpn : Nat) (owned : Bool) (core : BitVec 11) (dest : Option (BitVec 2 × Nat))
    (newOwner : Option AgentId) (rack : Option Nat) (waiter : Option (AgentId × Nat × Nat)) : State :=
  let m : Move := ⟨s.nextMove, part, vpn, owned, core, .idle, 0, dest, newOwner, [], rack, waiter, none⟩
  let s := { s with moves := s.moves ++ [m], nextMove := s.nextMove + 1,
                    taken := match dest with | some (_, f) => f :: s.taken | none => s.taken }
  let s := s.push m.next
  if owned then s.startOwned m.id else s

/-! ### Commit (R284, R287, R288) -/

/-- A record of kind RACK (R249, R294). -/
def rackRecord (cls sub : BitVec 8) (va index : Nat) (wlvl : Nat) (gen : BitVec 16) : FRec :=
  ⟨BitVec.ofNat 52 va, 0, cls, sub, 0xFFFF, 3, 7, BitVec.ofNat 8 wlvl, gen, BitVec.ofNat 32 index, 0⟩

/-- A leaf after UNSEAL (R167): OWNED by the agent, GEN + 1, its slot given back, M clear. -/
def unsealedLeaf (q : QWord) (a : AgentId) : QWord :=
  lfSet (lfSet (lfSet (lfSet (lfBump q) 1 3 mOwned) 16 16 a.toNat) 88 12 0) 9 1 0

/-- Frees a page's seal refcount slot. -/
def Partition.freeSlot (p : Partition) (vpn : Nat) : Partition := { p with refs := p.refs.filter (·.2.1 != vpn) }

/-- A move whose leaf was changed meanwhile: its new frame is freed and a record queued (R287); the accesses that the owner's core
held walk again to the new entry (R288). -/
def State.abandon (s : State) (m : Move) (gen : BitVec 16) : State :=
  let s := if m.owned then s.dropEntry m.core m.part m.vpn else s
  let s := { s.endMove m.id with taken := match m.dest with | some (_, f) => s.taken.erase f | none => s.taken }
  s.record m.part (rackRecord 8 0x16 (m.vpn * 4096) (m.rack.getD 0) 0 gen)

/-- COMMIT of a move (R285 step 4, R287). -/
def State.commitMove (s : State) (n : Nat) : State :=
  match s.move? n with
  | none => s
  | some m =>
    match s.part? m.part with
    | none => s.endMove n
    | some p =>
      match leafAt s p m.vpn with
      | none => match m.newOwner with
        | some _ => (s.updMove n (fun m => { m with st := .idle, acks := [] })).push (.mark n)
        | none => s.abandon m 0
      | some (q, addr) =>
        if q ≠ m.seen then
          match m.newOwner with
          | some _ => (s.updMove n (fun m => { m with st := .idle, acks := [] })).push (.mark n)
          | none => s.abandon m (lfGen q)
        else match m.newOwner, m.dest with
          | some a, _ =>
            let s := (s.writeLeaf addr (unsealedLeaf q a)).updPart m.part (·.freeSlot m.vpn)
            if m.waiter.isSome then s.updMove n (fun m => { m with st := .commit }) else s.endMove n
          | none, some (lvl, f) =>
            let s := s.commitFrame m.part m.vpn q addr lvl.toNat f
            let s := if m.owned then
                s.updCore m.core (fun k => if (k.entry? m.part m.vpn).isSome then
                  k.install ⟨m.part, m.vpn, ((leafAt s p m.vpn).map (·.1)).getD q, addr, none⟩ else k)
              else s
            s.endMove n
          | none, none => (s.writeLeaf addr (lfSet q 9 1 0)).endMove n

/-- The copy of a move's page, then its commit. -/
def State.copyMove (s : State) (n : Nat) : State :=
  match s.move? n with
  | some m => match m.dest with
    | some (_, f) => (s.copyPage (lfFrame m.seen * 4096) (f * 4096)).commitMove n
    | none => s.commitMove n
  | none => s

/-! ### Seals (R166, R237) -/

/-- The lowest free seal refcount slot; 0xFFF when none is free. -/
def Partition.lowSlot (p : Partition) : Nat :=
  let used := p.refs.map (·.1)
  ((List.range (used.length + 1)).find? (fun n => n < 0xFFF && !used.contains n)).getD 0xFFF

/-- SEAL of one page: MODE, a slot, and the sealer's own entry follows (R166). -/
def State.sealPage (s : State) (p : Partition) (c : BitVec 11) (vpn : Nat) (code : Bool) : State :=
  match leafAt s p vpn, s.part? p.id with
  | some (q, addr), some p =>
    let slot := if lfPkg q = 0xFFF then p.lowSlot else 0
    let q' := lfSet (lfSet q 1 3 (if code then mCode else mSealed)) 88 12 slot
    let s := s.writeLeaf addr q'
    let s := if lfPkg q = 0xFFF && slot ≠ 0xFFF then
        s.updPart p.id (fun p => { p with refs := p.refs ++ [(slot, vpn, 0)] }) else s
    s.updCore c (fun k => if (k.entry? p.id vpn).isSome then k.install ⟨p.id, vpn, q', addr, none⟩ else k)
  | _, _ => s

/-! ### Strips (R170) -/

/-- The parts of a run of bytes that lie in one aligned 8-byte word each: their addresses and lengths. -/
def wordParts (off n : Nat) : List (Nat × Nat) :=
  ((List.range (n / 8 + 2)).map (fun k =>
    let w := (off / 8 + k) * 8
    (max off w, min (off + n) (w + 8) - max off w))).filter (·.2 ≠ 0)

/-- Copies the bytes of a strip from a page's frame into a replica: those in the 8-byte words that `now` names by their number. -/
def State.copyStrip (s : State) (rowl src dst : Nat) (now : Nat → Bool) (t : Strip) : State :=
  ((List.range t.rows).flatMap (fun r => wordParts ((t.row + r) * 2 ^ rowl + t.col) t.cols)).foldl (fun s x =>
    if now (x.1 / 8) then
      let bad := s.poisoned (src + x.1) x.2
      let s := s.writePBytes (dst + x.1) (s.mem.bytes (src + x.1) x.2)
      if bad then s.poison (dst + x.1) else s
    else s) s

/-- Where PUB of a page pushes: the length of its rows, and each neighbour's strips with the frame of a replica that it has, or that is
being filled, of the page's GEN (R170, R243, R284). -/
def State.stripFrames (s : State) (p : Partition) (vpn : Nat) (q : QWord) : Nat × List (Strip × Nat) :=
  match haloStrips s p q with
  | none => (0, [])
  | some (rowl, l) => (rowl, (l.filter (·.nbr != lfOwner q)).flatMap (fun t =>
      (match s.replicaOf (coreOf t.nbr) p.id vpn with
        | some (f, gen) => if gen = lfGen q then [(t, f)] else []
        | none => []) ++
      (s.fills.filter (fun x => x.core == coreOf t.nbr && x.part == p.id && x.vpn == vpn && lfGen x.leaf == lfGen q)).map
        (fun x => (t, x.frame))))

/-- PUB: the strips of every neighbour go into its replica: the 8-byte words of the page that `now` names (R170). -/
def State.pushStrips (s : State) (p : Partition) (vpn : Nat) (q : QWord) (now : Nat → Bool) : State :=
  let (rowl, l) := s.stripFrames p vpn q
  l.foldl (fun s x => s.copyStrip rowl (lfFrame q * 4096) (x.2 * 4096) now x.1) s

/-! ### The checks of mode instructions (R149, R150, R158, R166 to R170) -/

/-- The lowest MMX subcode a mode or placement instruction meets on a page: modes it takes, whether the issuer must own
it, whether footprints count, and HAND's target. -/
def modeSub (s : State) (q : QWord) (a : AgentId) (lvl : Nat) (modes : List Nat) (own fp : Bool) (va : Nat)
    (target : Option AgentId) : Option (BitVec 8) :=
  let m := lfMode q
  let out : Bool := match target with | some t => !inRegion s.pkg q t | none => false
  if (lfK q || m == mPtab) && lvl == 0 then some 1
  else if !inRegion s.pkg q a || out then some 2
  else if !modes.contains m then some 4
  else if own && a ≠ lfOwner q then some 5
  else if fp && (s.activeJobs a).any (fun j => meets (j.reads ++ j.writes) (va / 4096 * 4096) 4096) then some 7
  else none

/-- The leaf a mode instruction or a fence finds: it walks; M makes it wait, and a fault takes R291's course. -/
def L.pageLeaf (va acc : Nat) : L (QWord × Nat) := do
  let x ← get
  let p ← L.part
  if x.st.held (coreOf x.agent) p.id (va / 4096) then L.block .move
  match walk x.st p (va / 4096) with
  | .leaf q addr =>
    L.modSt (·.dropStale (coreOf x.agent) p.id (va / 4096) q)
    return (q, addr)
  | .stall => L.block .move
  | .fault sub lvl gen => L.walkFault va sub lvl gen acc

/-- Checks one page for a mode instruction. -/
def L.modePage (va : Nat) (modes : QWord → List Nat) (own : QWord → Bool) (fp : Bool) (target : Option AgentId) :
    L QWord := do
  let (q, _) ← L.pageLeaf va 8
  let x ← get
  match modeSub x.st q x.agent x.lvl (modes q) (own q) fp va target with
  | some sub => L.trap 6 sub va (mmxAux q)
  | none => return q

/-- Addresses of consecutive pages; past the top of the address space they go on at page 0 (DESIGN CHOICE, log 91). -/
def pageRun (va n : Nat) : List Nat := (List.range n).map (fun i => (va + 4096 * i) % 2 ^ 52)

/-- Checks every page of a run before any changes; the lowest subcode of the lane is reported (R150, R166). -/
def L.modePages (modes : QWord → List Nat) (own : QWord → Bool) (fp : Bool) (pages : List Nat) : L Unit := do
  let lvs ← pages.mapM (fun va => L.pageLeaf va 8)
  let x ← get
  let subs := (pages.zip lvs).filterMap (fun y =>
    (modeSub x.st y.2.1 x.agent x.lvl (modes y.2.1) (own y.2.1) fp y.1 none).map (fun sub => (sub, y.1, y.2.1)))
  match subs with
  | [] => pure ()
  | y :: l =>
    let low := l.foldl (fun (b : BitVec 8 × Nat × QWord) z => if z.1.toNat < b.1.toNat then z else b) y
    L.trap 6 low.1 low.2.1 (mmxAux low.2.2)

end Sys2Proof.Machine
end

