-- ==== Sys2Proof/Machine/MemoryOps.lean ====
section
/-! DEFINITION. The meanings of groups 4 and 5: memory, atomics, ordering (R145 to R175). -/

namespace Sys2Proof.Machine

/-! ### Loads (R151 to R154) -/

/-- Reads `size` bytes of scratch or of the global space. -/
def L.readMem (m : MemOpnd) (kind : AK) (a size : Nat) : L Nat :=
  if m.scratch then L.loadScr a size else L.load kind a size

/-- What an integer load writes: narrow values extended to a word (R151). -/
def loadValue (wid : Wid) (v : Nat) : QWord :=
  match wid with
  | .b => (BitVec.ofInt 32 (sextN v 8)).setWidth 128
  | .h => (BitVec.ofInt 32 (sextN v 16)).setWidth 128
  | _ => BitVec.ofNat 128 v

/-- What a load captures: its address operands. -/
def L.capMem (dst : List Opnd) (m : MemOpnd) : L Cap := do
  L.checkRegs dst
  L.checkAddr m
  let (av, bv) ← L.addrOps m
  return { Cap.zero with av := BitVec.ofNat 128 av, bv := BitVec.ofNat 128 bv }

/-- Performs a load from its captured address. -/
def perfLoad (m : MemOpnd) (wid : Wid) (kind : AK) (f : Nat → QWord) (tag : BitVec 4) (c : Cap) : L (QWord × BitVec 4) := do
  let a ← L.access kind.acc m (widSize wid) c.av.toNat c.bv.toNat
  return (f (← L.readMem m kind a (widSize wid)), tag)

/-- LD (R151). -/
def execLd (h : Hdr) (d : Opnd) (wid : Wid) (m : MemOpnd) (s : State) : Out :=
  longWord (.ld h d wid m) h .each (L.capMem (regRun d (widRegs wid)) m) (perfLoad m wid .load (loadValue wid) 0) s

/-- The tag LDF writes (R152). -/
def ldfTag (wid : Wid) : BitVec 4 := if wid = .w then 2 else 1

/-- LDF (R152). -/
def execLdf (h : Hdr) (d : Opnd) (wid : Wid) (m : MemOpnd) (s : State) : Out :=
  longWord (.ldf h d wid m) h .each (L.capMem (regRun d (if wid = .q then 2 else 1)) m)
    (perfLoad m wid .load (BitVec.ofNat 128) (ldfTag wid)) s

/-- The register that LDP and STP name (R153): REG INDEX when it, or the one after it, lies outside. -/
def L.arrayReg (d : Opnd) (wid : Wid) : L Nat := do
  match d with
  | .i n => do
    let v := (← L.rdI n.toNat).toNat
    let r := bits v 0 16
    let top := if wid = .d then r + 1 else r
    if bits v 16 16 ≤ top ∨ (← L.team).gWin ≤ top then L.trap 1 2
    return r
  | _ => return 0

/-- LDP (R153). -/
def execLdp (h : Hdr) (d : Opnd) (wid : Wid) (m : MemOpnd) (s : State) : Out :=
  longWord (.ldp h d wid m) h .each (do
    let _ ← L.arrayReg d wid
    let c ← L.capMem [] m
    let v ← match d with
      | .i n => L.rdI n.toNat
      | _ => pure 0
    return { c with dv := v.setWidth 128 }) (perfLoad m wid .load (loadValue wid) 0) s

/-- LDS (R154): one access for the wave, by its first lane. -/
def execLds (h : Hdr) (d : Opnd) (wid : Wid) (m : MemOpnd) (s : State) : Out :=
  runWord (.lds h d wid m) h.guard .all (fun _ => id) (fun _ => do
    L.wholeWave
    let x ← get
    if x.execs.head? == some x.lane then
      L.longBody (.lds h d wid m) h (L.capMem [] m) (perfLoad m wid .load (loadValue wid) 0)) s

/-- LDA (R163): a load that acts as an acquire. -/
def execLda (h : Hdr) (d : Opnd) (wid : Wid) (m : MemOpnd) (s : State) : Out :=
  longWord (.lda h d wid m) h .each (L.capMem (regRun d (widRegs wid)) m) (perfLoad m wid .lda (loadValue wid) 0) s

/-! ### Stores (R151 to R153, R163) -/

/-- A store's address: the operands are read, then checked; `acc` is its access kind (R294). -/
def L.memAddr (acc : Nat) (m : MemOpnd) (wid : Wid) : L Nat := do
  let (av, bv) ← L.addrOps m
  L.access acc m (widSize wid) av bv

/-- Writes `size` bytes of scratch or of the global space. -/
def L.writeMem (m : MemOpnd) (kind : AK) (a size v : Nat) : L Unit :=
  if m.scratch then L.storeScr a size v else L.store kind a size v

/-- The value of `n` registers from D on, first register lowest. -/
def L.rdRun : List Opnd → L Nat
  | [] => return 0
  | o :: l => do
    let v ← L.rdW o
    let w ← L.rdRun l
    return v.toNat + 2 ^ 32 * w

/-- The bytes of D that an integer store stores. -/
def L.storeValue (d : Opnd) (wid : Wid) : L Nat := do
  match wid with
  | .d => L.rdRun (regRun d 2)
  | .q => L.rdRun (regRun d 4)
  | _ => do return (← L.rdW d).toNat % 2 ^ (8 * widSize wid)

/-- ST (R151). -/
def execSt (h : Hdr) (d : Opnd) (wid : Wid) (m : MemOpnd) (s : State) : Out :=
  laneWord (.st h d wid m) h .each (do
    L.checkRegs (regRun d (widRegs wid))
    L.checkAddr m
    let v ← L.storeValue d wid
    L.writeMem m .store (← L.memAddr 1 m wid) (widSize wid) v) s

/-- The bits of `n` f registers from D on. -/
def L.rdFRun : List Opnd → L Nat
  | [] => return 0
  | o :: l => do
    let v ← L.rdD o
    let w ← L.rdFRun l
    return v.1.toNat + 2 ^ 64 * w

/-- STF (R152). -/
def execStf (h : Hdr) (d : Opnd) (wid : Wid) (m : MemOpnd) (s : State) : Out :=
  laneWord (.stf h d wid m) h .each (do
    let l := regRun d (if wid = .q then 2 else 1)
    L.checkRegs l
    L.checkAddr m
    let v ← L.rdFRun l
    L.writeMem m .store (← L.memAddr 1 m wid) (widSize wid) (v % 2 ^ (8 * widSize wid))) s

/-- STP (R153). -/
def execStp (h : Hdr) (d : Opnd) (wid : Wid) (m : MemOpnd) (s : State) : Out :=
  laneWord (.stp h d wid m) h .each (do
    let r ← L.arrayReg d wid
    L.checkAddr m
    let lo ← L.rdG r
    let v ← if wid = .d then (fun (x : Word) => lo.toNat + 2 ^ 32 * x.toNat) <$> L.rdG (r + 1) else pure lo.toNat
    L.writeMem m .store (← L.memAddr 1 m wid) (widSize wid) (v % 2 ^ (8 * widSize wid))) s

/-- STL (R163): a release at the page's scope, then the store. -/
def execStl (h : Hdr) (d : Opnd) (wid : Wid) (m : MemOpnd) (s : State) : Out :=
  laneWord (.stl h d wid m) h .each (do
    L.checkRegs (regRun d (widRegs wid))
    L.checkAddr m
    let v ← L.storeValue d wid
    let a ← L.memAddr 1 m wid
    let (_, leaf) ← L.locate .stl a (widSize wid)
    L.release (lfScope leaf)
    L.store .stl a (widSize wid) v) s

/-- Checks each word of a ZFILL's range as a store (R157). -/
def L.zfillCheck (scratch : Bool) (a : Nat) : Nat → L Unit
  | 0 => pure ()
  | n + 1 => do
    if scratch then L.checkScr a 4 4
    else
      if a % 4 ≠ 0 then L.pageTrap 2 a 1
      discard (L.locate .store a 4)
    L.zfillCheck scratch (a + 4) n

/-- ZFILL (R157). -/
def execZfill (h : Hdr) (a b : Opnd) (scratch : Bool) (s : State) : Out :=
  laneWord (.zfill h a b scratch) h .each (do
    match a with
    | .g n => if !scratch then L.checkG (n.toNat + 1)
    | _ => pure ()
    L.checkRegs [a, b]
    let n := (← L.rdW b).toNat
    let ea ← if scratch then L.rdNat a else L.rdPair a
    if !scratch ∧ 2 ^ 52 ≤ ea then L.pageTrap 1 ea 1
    if n % 4 ≠ 0 ∨ n < 4 ∨ 4096 < n ∨ 4096 < ea % 4096 + n then (if scratch then L.trap 7 2 ea else L.pageTrap 2 ea 1)
    L.zfillCheck scratch ea (n / 4)
    if scratch then
      L.effect ⟨false, ea, n⟩
      L.modTeam (·.wrScr ea n 0)
    else L.store .store ea n 0) s

/-! ### Placement (R158) -/

/-- PLACE of one page that passed its checks; whether it is accepted. -/
def L.placePage (lvl va : Nat) : L Bool := do
  let (q, src) ← L.pageLeaf va 8
  let x ← get
  let p ← L.part
  let c := coreOf x.agent
  let vpn := va / 4096
  if lfPkg q ≠ 0xFFF then return false
  else if lfMode q = mOwned then
    if x.st.frameAt (lfFrame q) lvl c then return true
    else match x.st.freeFrameFor p lvl c with
      | none => return false
      | some f =>
        L.modSt (·.requestMove p.id vpn true c (some (BitVec.ofNat 2 lvl, f)) none none none)
        return true
  else match x.st.replicate p c vpn q src lvl with
    | some s => L.setSt s; return true
    | none => return false

/-- EVICT of one page that passed its checks. -/
def L.evictPage (va : Nat) : L Bool := do
  let (q, _) ← L.pageLeaf va 8
  let x ← get
  let p ← L.part
  let c := coreOf x.agent
  let vpn := va / 4096
  if lfPkg q ≠ 0xFFF then return false
  else if lfMode q = mOwned then
    if lfLevel q = 0 then return false
    else match x.st.homeFrame p vpn with
      | none => return false
      | some f =>
        L.modSt (·.requestMove p.id vpn true c (some (0, f)) none none none)
        return true
  else if (x.st.replicaOf c p.id vpn).isSome then
    L.setSt (x.st.dropEntry c p.id vpn)
    return true
  else return false

/-- Counts the pages of a run that are accepted. -/
def L.acceptRun (f : Nat → L Bool) : List Nat → L Nat
  | [] => return 0
  | va :: l => do
    let b ← f va
    let n ← L.acceptRun f l
    return if b then n + 1 else n

/-- The page count of an operand: bits 5:0 plus one. -/
def L.pageCount (b : Opnd) : L Nat := do return bits (← L.rdW b).toNat 0 6 + 1

/-- Windows of a page instruction's operands: the base pair with its upper register, and the others. -/
def L.checkPage (a : Opnd) (others : List Opnd) : L Unit := do
  match a with
  | .g n => L.checkG (n.toNat + 1)
  | _ => pure ()
  L.checkRegs others

/-- The modes PLACE and EVICT take, and when the issuer must own the page. -/
def placeModes (_ : QWord) : List Nat := [mOwned, mSealed, mCode]
def placeOwn (q : QWord) : Bool := lfMode q == mOwned

/-- PLACE (R158). -/
def execPlace (h : Hdr) (d a b : Opnd) (lvl : BitVec 2) (s : State) : Out :=
  laneWord (.place h d a b lvl) h .each (do
    L.checkPage a [b, d]
    let n ← L.pageCount b
    let pages := pageRun (← L.pageAddr 8 a) n
    L.modePages placeModes placeOwn false pages
    L.wrW d (BitVec.ofNat 32 (← L.acceptRun (L.placePage lvl.toNat) pages))) s

/-- EVICT (R158). -/
def execEvict (h : Hdr) (d a b : Opnd) (s : State) : Out :=
  laneWord (.evict h d a b) h .each (do
    L.checkPage a [b, d]
    let n ← L.pageCount b
    let pages := pageRun (← L.pageAddr 8 a) n
    L.modePages placeModes placeOwn false pages
    L.wrW d (BitVec.ofNat 32 (← L.acceptRun L.evictPage pages))) s

/-! ### Atomics (R159 to R162) -/

/-- f(old, b) of AMO at a size in bytes (R159). -/
def amoNew (aop size old b : Nat) : Nat :=
  let w := 8 * size
  let so := signed w old
  let sb := signed w b
  match aop with
  | 0 => (old + b) % 2 ^ w
  | 1 => old &&& b
  | 2 => old ||| b
  | 3 => old ^^^ b
  | 4 => if so ≤ sb then old else b
  | 5 => if sb ≤ so then old else b
  | 6 => Nat.min old b
  | 7 => Nat.max old b
  | 8 => b
  | 9 => if b ≤ old then 0 else old + 1
  | _ => if old = 0 ∨ b < old then b else old - 1

/-- The new value of AMOF (R161). -/
def amofNew (aop size old b : Nat) : Nat :=
  let f := fmtOf (size == 8)
  let x := f.value old
  let y := f.value b
  (roundTo f .rne false (match aop with
    | 0 => (addX .rne x y).v
    | 1 => minNum x y
    | _ => maxNum x y)).code

/-- One atomic step's new value: CAS, AMO or AMOF. -/
def stepNew (size : Nat) (fp cas : Bool) (aop old b d : Nat) : Nat :=
  if cas then (if old = d then b else old) else if fp then amofNew aop size old b else amoNew aop size old b

/-- One atomic step at its place; a failing CAS writes nothing (R160). -/
def State.atomicStep (s : State) (pa size : Nat) (fp cas : Bool) (aop b d : Nat) : State :=
  let old := s.readP pa size
  if cas && old ≠ d then s else s.writeP pa size (stepNew size fp cas aop old b d)

/-- Performs an atomic step: checks, its release, the step where the predictor places it (R159 to R162, R247). The release comes
before the step, before the request leaves where the page lies in another package (R254). -/
def L.atomic (size : Nat) (fp cas : Bool) (o : AOpt) (c : Cap) : L Nat := do
  let ea := c.av.toNat
  if 2 ^ 52 ≤ ea then L.pageTrap 1 ea 2
  if ea % size ≠ 0 then L.pageTrap 2 ea 2
  let (here, leaf) ← L.locate .amo ea size
  let x ← get
  let p ← L.part
  let rel := decide (2 ≤ o.ord.toNat)
  if rel && (← L.asked ea).isNone then
    if here.isSome then L.release (lfScope leaf) else L.awaitWrites (lfScope leaf)
  let b := c.bv.toNat
  let d := c.dv.toNat
  L.effect ⟨false, ea, b + d * 2 ^ 64⟩
  let (pa, leaf) ← L.locateAtomic .amo ea size
  match pa with
  | some pa =>
    let x ← get
    if x.st.poisoned pa size then L.chki (chkiOf pa)
    let old := x.st.readP pa size
    L.modSt (·.atomicStep pa size fp cas o.aop.toNat b d)
    return old
  | none =>
    L.remoteCall ea 2 leaf (.amo size fp o.aop (BitVec.ofNat 64 b) (BitVec.ofNat 64 d) cas)
      (fun s => if rel then s.release p.id (coreOf x.agent) (lfScope leaf) else s)

/-- What AMO and CAS capture: the address pair, B, and D for CAS. -/
def L.capAtomic (d a b : Opnd) (dbl cas : Bool) : L Cap := do
  let n := if dbl then 2 else 1
  L.checkPage a (regRun b n ++ regRun d n)
  let av ← L.rdPair a
  let bv ← L.rdRun (regRun b n)
  let dv ← if cas then L.rdRun (regRun d n) else pure 0
  return { Cap.zero with av := BitVec.ofNat 128 av, bv := BitVec.ofNat 128 bv, dv := BitVec.ofNat 128 dv }

/-- The size of an atomic. -/
def atomSize (dbl : Bool) : Nat := if dbl then 8 else 4

/-- What AMOF's destination takes of the old bits: a NaN is written canonical (R55, R161). -/
def amofOld (dbl : Bool) (old : Nat) : Nat := if ((fmtOf dbl).value old).isNan then (fmtOf dbl).nanCode else old

/-- What an atomic answers: the old value, with the tag of its destination. -/
def perfAtomic (fp cas : Bool) (o : AOpt) (c : Cap) : L (QWord × BitVec 4) := do
  let old ← L.atomic (atomSize o.dbl) fp cas o c
  return (BitVec.ofNat 128 (if fp then amofOld o.dbl old else old), if fp then tagOf o.dbl else 0)

/-- AMO (R159). -/
def execAmo (h : Hdr) (d a b : Opnd) (o : AOpt) (s : State) : Out :=
  longWord (.amo h d a b o) h .each (L.capAtomic d a b o.dbl false)
    (perfAtomic false false o) s

/-- CAS (R160). -/
def execCas (h : Hdr) (d a b : Opnd) (o : AOpt) (s : State) : Out :=
  longWord (.cas h d a b o) h .each (L.capAtomic d a b o.dbl true)
    (perfAtomic false true o) s

/-- What AMOF captures: B must carry the width's tag (R161). -/
def L.capAmof (d a b : Opnd) (dbl : Bool) : L Cap := do
  L.checkPage a [b, d]
  L.tagIn [tagOf dbl] b
  let av ← L.rdPair a
  let bv := (← L.rdD b).1.toNat % 2 ^ (8 * atomSize dbl)
  return { Cap.zero with av := BitVec.ofNat 128 av, bv := BitVec.ofNat 128 bv }

/-- AMOF (R161). -/
def execAmof (h : Hdr) (d a b : Opnd) (o : AOpt) (s : State) : Out :=
  longWord (.amof h d a b o) h .each (L.capAmof d a b o.dbl)
    (perfAtomic true false o) s

/-! ### Fences (R164, R165) -/

/-- A byte of a page that an agent could load: of a HALO page that is not its own, the first of its strips (R242). -/
def loadByte (s : State) (p : Partition) (q : QWord) (a : AgentId) : Nat :=
  match lfMode q == mHalo, stripsOf s p q a with
  | true, (rowl, t :: _) => t.row * 2 ^ rowl + t.col
  | _, _ => 0

/-- The leaf a FENCE takes its scope from: the core's entry, or a walk, which installs an entry, and makes a replica, as a load of the
page by this agent would (R164, R243, R281); where it could load nothing there it installs nothing. -/
def L.fenceLeaf (va : Nat) : L QWord := do
  let x ← get
  let p ← L.part
  let c := coreOf x.agent
  match (x.st.core c).entry? p.id (va / 4096), x.st.held c p.id (va / 4096) with
  | some e, false => return e.leaf
  | _, _ =>
    let (q, _) ← L.pageLeaf va 4
    let s := (← get).st
    match resolve s p ⟨c, x.agent, p.id, x.lvl, .load, va / 4096 * 4096 + loadByte s p q x.agent, 1, false⟩ with
    | .ok _ _ s | .remote _ s => L.setSt s
    | .fault sub lvl gen => L.walkFault va sub lvl gen 4
    | .stall s => L.blockWith .move (fun c => { c with agenda := s.agenda, taken := s.taken, fills := s.fills })
    | .mmx _ _ => pure ()
    return q

/-- FENCE (R164). -/
def execFence (h : Hdr) (a : Opnd) (kind : BitVec 2) (s : State) : Out :=
  laneWord (.fence h a kind) h .each (do
    L.checkPage a []
    let va ← L.pageAddr 4 a
    let q ← L.fenceLeaf va
    if kind ≠ 1 then
      if !(← L.fibre).remoteWrites.isEmpty then L.block .fence
      L.release (lfScope q)) s

/-- TFENCE (R165): in a machine whose accesses are one sequence, it checks its page and orders nothing further. -/
def execTfence (h : Hdr) (a : Opnd) (s : State) : Out :=
  laneWord (.tfence h a) h .each (do
    L.checkPage a []
    let va ← L.pageAddr 4 a
    let (q, _) ← L.pageLeaf va 4
    let x ← get
    if x.lvl = 0 then L.trap 6 1 va (mmxAux q)
    if !inRegion x.st.pkg q x.agent then L.trap 6 2 va (mmxAux q)
    if lfMode q ≠ mPtab then L.trap 6 8 va (mmxAux q)) s

/-! ### Modes and owners (R166 to R171) -/

/-- SEAL (R166). -/
def execSeal (h : Hdr) (a b : Opnd) (code : Bool) (s : State) : Out :=
  laneWord (.seal h a b code) h .each (do
    L.checkPage a [b]
    if code ∧ (← L.level) = 0 then L.trap 0 0x0C
    let n ← L.pageCount b
    let pages := pageRun (← L.pageAddr 8 a) n
    L.modePages (fun _ => [mOwned]) (fun _ => true) true pages
    pages.forM (fun va => do
      let (q, _) ← L.pageLeaf va 8
      L.release (lfScope q)
      let p ← L.part
      let c ← L.core
      L.modSt (·.sealPage p c (va / 4096) code))) s

/-- The UNSEAL moves that a lane waits for. -/
def L.unseals : L (List Move) := do
  let x ← get
  return x.st.moves.filter (fun m => m.waiter == some (x.agent, x.wave, x.lane))

/-- UNSEAL (R167): each page goes through a Bellwether, and the lane waits for all of them. -/
def execUnseal (h : Hdr) (a b : Opnd) (s : State) : Out :=
  laneWord (.unseal h a b) h .each (do
    L.checkPage a [b]
    let n ← L.pageCount b
    let pages := pageRun (← L.pageAddr 8 a) n
    let mine ← L.unseals
    if mine.isEmpty then
      let x ← get
      L.modePages (fun _ => [mSealed, mCode]) (fun _ => decide (x.lvl = 0)) true pages
      let p ← L.part
      L.blockWith .unseal (fun c => pages.foldl (fun c va =>
        c.requestMove p.id (va / 4096) false (coreOf x.agent) none (some x.agent) none (some (x.agent, x.wave, x.lane))) c)
    else if mine.all (·.st == .commit) then
      L.modSt (fun c => { c with moves := c.moves.filter (fun m => !mine.any (·.id == m.id)) })
    else L.block .unseal) s

/-- HAND (R168). -/
def execHand (h : Hdr) (a b : Opnd) (s : State) : Out :=
  laneWord (.hand h a b) h .each (do
    L.checkPage a [b]
    let t : AgentId := (← L.rdW b).extractLsb' 0 16
    let va ← L.pageAddr 8 a
    let q ← L.modePage va (fun _ => [mOwned]) (fun _ => true) true (some t)
    L.release (lfScope q)
    let x ← get
    let p ← L.part
    let c := coreOf x.agent
    let vpn := va / 4096
    let away := coreOf t ≠ c && lfPkg q == 0xFFF && x.st.frameAt (lfFrame q) 3 c
    match leafAt x.st p vpn with
    | none => L.block .move
    | some (q, addr) =>
      let s1 := if away then match x.st.homeFrame p vpn with
          | some f => (x.st.copyPage (lfFrame q * 4096) (f * 4096)).commitFrame p.id vpn q addr 0 f
          | none => x.st
        else x.st
      let q1 := ((leafAt s1 p vpn).map (·.1)).getD q
      L.setSt ((s1.writeLeaf addr (lfSet (lfBump q1) 16 16 t.toNat)).dropEntry c p.id vpn)) s

/-- TAKE (R169). -/
def execTake (h : Hdr) (a : Opnd) (s : State) : Out :=
  laneWord (.take h a) h .own (do
    L.checkPage a []
    let va ← L.pageAddr 8 a
    let q ← L.modePage va (fun _ => [mOwned]) (fun _ => false) false none
    if lfOwner q ≠ (← get).agent then L.block .take) s

/-- PUB (R170): where a neighbour has a replica, its words are pushed in two parts, at instants of their own (R260, R305). -/
def execPub (h : Hdr) (a : Opnd) (s : State) : Out :=
  laneWord (.pub h a) h .each (do
    L.checkPage a []
    let va ← L.pageAddr 8 a
    let q ← L.modePage va (fun _ => [mHalo]) (fun _ => true) false none
    L.release (lfScope q)
    let x ← get
    let p ← L.part
    let begun := (← L.wave).stuck.any (fun k => k.pc == x.pc && k.why == .lanes && k.todo.contains x.lane)
    if begun || (x.st.stripFrames p (va / 4096) q).2.isEmpty then
      L.modSt (·.pushStrips p (va / 4096) q (fun _ => true))
    else
      L.blockWith .lanes (fun c =>
        (c.release p.id (coreOf x.agent) (lfScope q)).pushStrips p (va / 4096) q (Config.partsNow c.tick))) s

/-- RED (R171). -/
def execRed (h : Hdr) (d : Opnd) (m : MemOpnd) (s : State) : Out :=
  laneWord (.red h d m) h .each (do
    L.checkReg d
    L.checkAddr m
    let v ← L.rdW d
    let ea ← L.memAddr 2 m .w
    L.noteStore ea v.toNat
    let (pa, leaf) ← L.locate .red ea 4
    match pa with
    | some _ =>
      let p ← L.part
      let c ← L.core
      L.modSt (·.redAdd p (ea / 4096) leaf c (ea % 4096) v 4 0)
    | none => L.remoteStore ea 2 leaf (.red v)) s

/-! ### Poison (R173) -/

/-- CHKERR (R173). -/
def execChkerr (h : Hdr) (d : Opnd) (s : State) : Out :=
  laneWord (.chkerr h d) h (modeOf [] d) (do
    L.checkReg d
    if (← L.wave).pendingLane (← get).lane then L.block .chkerr
    L.wrW d (← L.team).chki) s

end Sys2Proof.Machine
end

