-- ==== Sys2Proof/Machine/Commands.lean ====
section
/-! DEFINITION. The commands of the engines as data: their operands (R178), the engine state that a team's earlier commands
leave (R180), the checks made at issue (R185 to R200) and footprints (R180, R197, R347). -/

namespace Sys2Proof.Machine

/-! ### Operands (R178) -/

/-- The register after a g register. -/
def nextReg : Opnd → Opnd
  | .g n => .g (n + 1)
  | o => o

/-- An address operand's registers: a g register with the next one. -/
def adrRegs (o : Opnd) : List Opnd := match o with | .g n => [.g n, .g (n + 1)] | o => [o]

/-- Registers a command reads. -/
def cmdRegs : Instr → List Opnd
  | .mldb _ a b _ | .mvqb _ a b _ => adrRegs a ++ adrRegs b
  | .mldt _ a => adrRegs a
  | .mma _ d a b _ _ _ => adrRegs d ++ adrRegs a ++ [b]
  | .mstz _ a b _ | .mfst _ a b => adrRegs a ++ [b]
  | .mpiv _ _ a b _ => [a, b]
  | .qenq _ d a b _ => [d, a, nextReg a, b]
  | .cpy _ d a b _ dsc ssc => (if dsc then [d] else adrRegs d) ++ (if ssc then [a] else adrRegs a) ++ [b]
  | .gthr _ d a b _ dsc ssc | .sctr _ d a b _ dsc ssc =>
    (if dsc then [d] else adrRegs d) ++ (if ssc then [a] else adrRegs a) ++ [b, nextReg b]
  | .mcast _ d a b _ => d :: adrRegs a ++ [b, nextReg b]
  | .msnd _ a b ssc => (if ssc then [a] else adrRegs a) ++ [b, nextReg b]
  | .coll _ d a b _ _ => adrRegs d ++ adrRegs a ++ [b]
  | .eloop _ _ a b _ => [a, b]
  | _ => []

/-- No operand. -/
def CmdArgs.none : CmdArgs := ⟨false, 0, false, 0, 0, false, 0, 0⟩

/-- A command's operand values under a reading of registers. -/
def cmdArgs (r : Opnd → Word) (i : Instr) : CmdArgs :=
  let w (o : Opnd) : Nat := (r o).toNat
  let pair (o : Opnd) : Nat := w (nextReg o) * 2 ^ 32 + w o
  let isG (o : Opnd) : Bool := match o with | .g _ => true | _ => false
  let adr (o : Opnd) : Bool × Nat := if isG o then (false, pair o) else (true, w o)
  let sp (sc : Bool) (o : Opnd) : Nat := if sc then w o else pair o
  match i with
  | .mldb _ a b _ | .mvqb _ a b _ => ⟨false, 0, (adr a).1, (adr a).2, 0, (adr b).1, (adr b).2, 0⟩
  | .mldt _ a => ⟨false, 0, (adr a).1, (adr a).2, 0, false, 0, 0⟩
  | .mma _ d a b _ _ _ => ⟨(adr d).1, (adr d).2, (adr a).1, (adr a).2, 0, false, w b, 0⟩
  | .mstz _ a b _ | .mfst _ a b => ⟨false, 0, (adr a).1, (adr a).2, 0, false, w b, 0⟩
  | .mpiv _ _ a b _ => ⟨false, 0, false, w a, 0, false, w b, 0⟩
  | .qenq _ d a b _ => ⟨true, w d, true, w a, w (nextReg a), true, w b, 0⟩
  | .cpy _ d a b _ dsc ssc => ⟨dsc, sp dsc d, ssc, sp ssc a, 0, false, w b, 0⟩
  | .gthr _ d a b _ dsc ssc | .sctr _ d a b _ dsc ssc => ⟨dsc, sp dsc d, ssc, sp ssc a, 0, true, w b, w (nextReg b)⟩
  | .mcast _ d a b _ => ⟨true, w d, false, pair a, 0, false, w b, w (nextReg b)⟩
  | .msnd _ a b ssc => ⟨false, 0, ssc, sp ssc a, 0, false, w b, w (nextReg b)⟩
  | .coll _ d a b _ _ => ⟨false, pair d, false, pair a, 0, true, w b, 0⟩
  | .eloop _ _ a b _ => ⟨false, 0, false, w a, 0, false, w b, 0⟩
  | _ => CmdArgs.none

/-- A value advanced by a step of a loop (R203). -/
def stepBy (v : Nat) (d : Int) (i : Nat) : Nat := (((v : Int) + i * d) % 2 ^ 64).toNat

/-- The address operands of a command advanced for iteration `n`: global ones by `dg`, scratch ones by `ds` (R203). -/
def loopArgs (i : Instr) (c : CmdArgs) (dg ds : Int) (n : Nat) : CmdArgs :=
  let adv (sc : Bool) (v : Nat) : Nat := stepBy v (if sc then ds else dg) n
  match i with
  | .mldb .. | .mvqb .. => { c with a := adv c.asc c.a, b := adv c.bsc c.b }
  | .mldt .. | .mstz .. | .mfst .. | .msnd .. => { c with a := adv c.asc c.a }
  | .mma .. | .cpy .. => { c with d := adv c.dsc c.d, a := adv c.asc c.a }
  | .qenq .. | .gthr .. | .sctr .. | .coll .. => { c with d := adv c.dsc c.d, a := adv c.asc c.a, b := adv true c.b }
  | .mcast .. => { c with d := adv true c.d, a := adv false c.a }
  | _ => c

/-! ### Matrix formats and shapes (R73, R184) -/

/-- Planes of a weight format. -/
def planesOf (wf : Nat) : Nat := if wf ≤ 1 then 1 else if wf = 5 then 4 else 2

/-- Whether a format carries an E8M0 scale. -/
def scaledFmt (f : Nat) : Bool := f ≤ 3

/-- Bits of an element of a format. -/
def fmtBits (f : Nat) : Nat := 4 * planesOf f

/-- The value of an element of a matrix format. -/
def matValue (f x : Nat) : FV :=
  match f with
  | 0 => fmtE2M1.value x
  | 1 => l4Value (BitVec.ofNat 4 x)
  | 2 => fmtE4M3.value x
  | 3 => fmtE5M2.value x
  | 4 => FV.ofInt (signed 8 x)
  | _ => fmtBF16.value x

/-- Logical columns of one macro. -/
def macroCols (wf : Nat) : Nat := 96 / planesOf wf

/-- K and N of an arrangement (R184). -/
def shapeK (arr : Nat) : Nat := 512 / 2 ^ arr
def shapeN (arr wf : Nat) : Nat := macroCols wf * 2 ^ arr

/-- Tiles of an MMA. -/
def tilesOf (arr wf : Nat) : Nat := (shapeN arr wf + 95) / 96

/-- The macros of a mask, in increasing order. -/
def maskMacros (m : BitVec 4) : List Nat := (List.range 4).filter (fun j => m.getLsbD j)

/-! ### The engine state that earlier commands leave (R180) -/

/-- Mode, formats and tile tags. -/
structure MatView where
  conf : Bool
  fac : Bool
  arr : Nat
  wf : Nat
  af : Nat
  i32 : Vector Bool 8
  deriving DecidableEq, Repr

/-- As the team's own engine state stands. -/
def viewNow (t : Team) : MatView :=
  let m := t.mat.getD MatState.zero
  ⟨m.configured, m.fac, m.arr.toNat, m.wf.toNat, m.af.toNat, t.z.map (·.i32)⟩

/-- After one command. -/
def MatView.after (v : MatView) : Instr → MatView
  | .mcfg _ arr wf af fac =>
    if fac then { v with conf := true, fac := true }
    else { v with conf := true, fac := false, arr := arr.toNat, wf := wf.toNat, af := af.toNat }
  | .mzro _ t i32 => { v with i32 := vset v.i32 t.toNat i32 }
  | .mfst .. => { v with i32 := (List.range 4).foldl (fun z j => vset z j false) v.i32 }
  | _ => v

/-- What stands at a card's index in memory now: a command, no instruction, or what cannot be seen from here: a word whose page
has no translation or lies in another package. -/
inductive Peek where
  | word (i : Instr)
  | bad
  | unseen
  deriving DecidableEq, Repr

/-- Looks at a command word of a card. -/
def peekAt (s : State) (p : Partition) (c : Card) (idx : Nat) : Peek :=
  let va := c.cptr.toNat + 8 * idx
  match leafAt s p (va / 4096) with
  | some (q, _) =>
    if lfPkg q ≠ 0xFFF then .unseen
    else match decode (BitVec.ofNat 64 (s.readP (lfFrame q * 4096 + va % 4096) 8)) with
      | .ok i => .word i
      | .error _ => .bad
  | none => .unseen

/-- The command word at an index, where it can be seen. -/
def peekCard (s : State) (p : Partition) (c : Card) (idx : Nat) : Option Instr :=
  match peekAt s p c idx with
  | .word i => some i
  | _ => none

/-- Commands of a card: one for each index, none for what cannot be seen; none follow a word that ends the job. -/
def cardCmds (s : State) (p : Partition) (c : Card) : List Nat → List (Option Instr)
  | [] => []
  | n :: l => match peekAt s p c n with
    | .word i => some i :: cardCmds s p c l
    | .unseen => none :: cardCmds s p c l
    | .bad => []

/-- The matrix commands of the team's jobs that are not complete, in received order; none for one that cannot be seen. -/
def pendingCmds (s : State) (t : Team) (before : Nat) : List (Option Instr) :=
  match s.part? t.part with
  | none => []
  | some p =>
    (s.jobs.filter (fun j => j.agent == t.agent && j.eng == .matrix && j.st != .done && j.id < before)).flatMap (fun j =>
      match j.cmd, j.card with
      | some (i, _), _ => [some i]
      | none, some c =>
        let start := match j.loop with | some (st, _) => min st j.idx | none => j.idx
        cardCmds s p c ((List.range (c.cnt - start)).map (start + ·))
      | none, none => [])

/-- The view that every earlier command of the team leaves. -/
def viewAt (s : State) (t : Team) (before : Nat) : MatView :=
  (pendingCmds s t before).reduceOption.foldl MatView.after (viewNow t)

/-- Whether a matrix command writes a tile, under the formats in force (R191). -/
def writesTile (v : MatView) (z : Nat) : Instr → Bool
  | .mma _ _ _ _ t _ _ => t.toNat ≤ z && z < t.toNat + tilesOf v.arr v.wf
  | .mzro _ t _ => t.toNat == z
  | .mfst .. | .mfac .. => z < 4
  | _ => false

/-- Whether a command of a list, run from a view, writes a tile, or may: one that cannot be seen. -/
def anyWrites (z : Nat) : MatView → List (Option Instr) → Bool
  | _, [] => false
  | _, none :: _ => true
  | v, some i :: l => writesTile v z i || anyWrites z (v.after i) l

/-! ### Checks (R185 to R200) -/

/-- A refusal: class, subcode, address. -/
abbrev Bad := Option (BitVec 4 × BitVec 8 × Nat)

/-- The first refusal of a list. -/
def firstBad : List Bad → Bad
  | [] => none
  | none :: l => firstBad l
  | some b :: _ => some b

/-- A refusal on a condition. -/
def badIf (c : Bool) (cls : BitVec 4) (sub : BitVec 8) (a : Nat := 0) : Bad := if c then some (cls, sub, a) else none

/-- A range's address checks: PAGE RANGE, alignment, SCRATCH BOUND (R147, R148). -/
def chkRange (t : Team) (sc : Bool) (a len al : Nat) : Bad :=
  if sc then firstBad [badIf (a % al ≠ 0) 7 2 a, badIf (len ≠ 0 && t.scr < a + len) 7 1 a]
  else firstBad [badIf (2 ^ 52 ≤ a) 8 1 a, badIf (a % al ≠ 0) 8 2 a]

/-- Rows at a stride: only scratch rows are bounded. -/
def chkRows (t : Team) (sc : Bool) (a b rows len : Nat) : Bad :=
  if sc then firstBad ((List.range rows).map (fun w => badIf (t.scr < a + w * b + len) 7 1 (a + w * b))) else none

/-- ENGINE STATE unless configured in the mode wanted (R182, R185, R189). -/
def chkMode (v : MatView) (fac : Option Bool) : Bad :=
  badIf (!v.conf || (match fac with | some f => v.fac != f | none => false)) 9 6

/-- Bytes that one element of a width code takes. -/
def elemSize (c : BitVec 4) : Nat := 2 ^ c.toNat

/-- Bytes of a COLL's blocks: one member's, and the destination's. -/
def collSizes (op : BitVec 4) (cnt n : Nat) : Nat × Nat := (4 * cnt, if op = 0 then 4 * cnt * n else 4 * cnt)

/-- A group descriptor (R200). -/
structure Group where
  cnt : Nat
  n : Nat
  rank : Nat
  table : Nat
  rch : Nat
  rest : Nat
  deriving DecidableEq, Repr

/-- The descriptor at a scratch offset. -/
def groupAt (t : Team) (off : Nat) : Group :=
  ⟨t.rdScr off 4, t.rdScr (off + 4) 2, t.rdScr (off + 6) 2, t.rdScr (off + 8) 8, t.rdScr (off + 16) 4, t.rdScr (off + 20) 12⟩

/-- Source bytes of a block of QENQ. -/
def qSrc (kind : BitVec 4) : Nat := if 8 ≤ kind.toNat then 64 else 128
/-- Element bytes that a block writes. -/
def qDst (kind : BitVec 4) : Nat := match kind.toNat % 8 with | 0 => 16 | 4 => 8 | _ => 32

/-- The checks of a command that depend on its operands, registers, tags, scratch and the engine's configuration. -/
def cmdCheck (t : Team) (v : MatView) (i : Instr) (c : CmdArgs) : Bad :=
  match i with
  | .mldb _ _ b mask =>
    let n := (maskMacros mask).length
    let noB := match b with | .zr => true | _ => false
    firstBad [chkMode v (some false), badIf (!scaledFmt v.wf && !noB) 9 6, chkRange t c.asc c.a (6144 * n) 16,
      if scaledFmt v.wf then chkRange t c.bsc c.b (4 * macroCols v.wf * n) 1 else none]
  | .mvqb _ _ _ mask =>
    let n := (maskMacros mask).length
    firstBad [chkMode v (some false), badIf (v.wf ≠ 1) 9 6, chkRange t c.asc c.a (3072 * n) 1, chkRange t c.bsc c.b (384 * n) 1]
  | .mldt .. => firstBad [chkMode v none, chkRange t c.asc c.a 1024 4]
  | .mswb .. => chkMode v none
  | .mma _ _ _ _ z rows _ =>
    let k := shapeK v.arr
    let nt := tilesOf v.arr v.wf
    let int := v.wf = 4 && v.af = 4
    let r := rows.toNat + 1
    firstBad [chkMode v (some false), badIf (t.tiles < z.toNat + nt) 1 1,
      badIf ((List.range nt).any (fun j => vget v.i32 (z.toNat + j) != int)) 2 1,
      chkRange t c.asc c.a 0 16, badIf (c.b % 16 ≠ 0) 9 7, chkRows t c.asc c.a c.b r (k * fmtBits v.af / 8),
      if scaledFmt v.af then chkRange t c.dsc c.d (r * (k / 32)) 1 else none]
  | .mzro _ z _ => firstBad [chkMode v none, badIf (t.tiles ≤ z.toNat) 1 1]
  | .mstz _ _ _ z =>
    firstBad [chkMode v none, badIf (t.tiles ≤ z.toNat) 1 1, chkRange t c.asc c.a 0 16, badIf (c.b % 16 ≠ 0) 9 7,
      chkRows t c.asc c.a c.b 16 384]
  | .mfac .. | .mrnm .. | .mgrw .. | .mpiv .. => firstBad [chkMode v (some true), badIf (t.tiles < 4) 1 1]
  | .mfst .. =>
    firstBad [chkMode v (some true), badIf (t.tiles < 4) 1 1, chkRange t c.asc c.a 0 16, badIf (c.b % 16 ≠ 0) 9 7,
      chkRows t c.asc c.a c.b 64 256]
  | .qenq _ _ _ _ kind =>
    if kind = 5 then firstBad [badIf (c.a2 ≠ 1) 9 7, chkRange t true c.a 1024 4]
    else if c.a2 = 0 then none
    else firstBad [chkRange t true c.a (c.a2 * qSrc kind) 4, chkRange t true c.d (c.a2 * qDst kind) 4,
      chkRange t true c.b c.a2 4]
  | .cpy _ _ _ _ w _ _ =>
    let n := elemSize w
    firstBad [badIf (2 ^ 24 < c.b * n) 9 7, chkRange t c.dsc c.d (c.b * n) (min n 16), chkRange t c.asc c.a (c.b * n) (min n 16)]
  | .gthr _ _ _ _ w _ _ =>
    let n := elemSize w
    firstBad [badIf (2 ^ 24 < c.b2 * n) 9 7, chkRange t c.dsc c.d (c.b2 * n) (min n 16), chkRange t c.asc c.a 0 (min n 16),
      chkRange t true c.b (4 * c.b2) 4]
  | .sctr _ _ _ _ w _ _ =>
    let n := elemSize w
    firstBad [badIf (2 ^ 24 < c.b2 * n) 9 7, chkRange t c.dsc c.d 0 (min n 16), chkRange t c.asc c.a (c.b2 * n) (min n 16),
      chkRange t true c.b (4 * c.b2) 4]
  | .mcast _ _ _ _ w =>
    let n := elemSize w
    firstBad [badIf (2 ^ 24 < c.b2 * n || bits c.b 21 11 ≠ 0) 9 7, chkRange t true c.d 0 (min n 16),
      chkRange t false c.a 0 (min n 16)]
  | .msnd .. =>
    let k := bits c.b2 18 5
    let m := bits c.b2 23 4
    let len := bits c.b2 0 12
    firstBad [badIf (bits c.b 28 4 ≠ 0 || bits c.b2 27 5 ≠ 0 || k = 0 || 16 < k + m || len = 0 || k * 224 < len) 9 7,
      chkRange t c.asc c.a len 1]
  | .coll .. =>
    let g := groupAt t c.b
    firstBad [chkRange t true c.b 32 1,
      badIf (g.n < 2 || 4095 < g.n || g.n ≤ g.rank || 2 ^ 52 ≤ g.table || 64 ≤ g.rch || g.rest ≠ 0) 9 7,
      chkRange t false c.d 0 4, chkRange t false c.a 0 4]
  | _ => none

/-! ### Footprints (R180, R197, R347) -/

/-- Rows at a stride as ranges. -/
def rowRanges (sc : Bool) (a b rows len : Nat) : List Range := (List.range rows).map (fun w => ⟨sc, a + w * b, len⟩)

/-- The table elements that an index list names now. -/
def listRanges (t : Team) (sc : Bool) (table size list n : Nat) : List Range :=
  (List.range n).map (fun k => ⟨sc, table + t.rdScr (list + 4 * k) 4 * size, size⟩)

/-- The read and write ranges of a direct command. -/
def footprint (t : Team) (v : MatView) (i : Instr) (c : CmdArgs) : List Range × List Range :=
  match i with
  | .mldb _ _ _ mask =>
    let n := (maskMacros mask).length
    (⟨c.asc, c.a, 6144 * n⟩ :: (if scaledFmt v.wf then [⟨c.bsc, c.b, 4 * macroCols v.wf * n⟩] else []), [])
  | .mvqb _ _ _ mask =>
    let n := (maskMacros mask).length
    ([⟨c.asc, c.a, 3072 * n⟩, ⟨c.bsc, c.b, 384 * n⟩], [])
  | .mldt .. => ([⟨c.asc, c.a, 1024⟩], [])
  | .mma _ _ _ _ _ rows _ =>
    let k := shapeK v.arr
    let r := rows.toNat + 1
    (rowRanges c.asc c.a c.b r (k * fmtBits v.af / 8) ++ (if scaledFmt v.af then [⟨c.dsc, c.d, r * (k / 32)⟩] else []), [])
  | .mstz .. => ([], rowRanges c.asc c.a c.b 16 384)
  | .mfst .. => (rowRanges c.asc c.a c.b 64 256, [])
  | .qenq _ _ _ _ kind =>
    if kind = 5 then ([⟨true, c.a, 1024⟩], [])
    else ([⟨true, c.a, c.a2 * qSrc kind⟩], [⟨true, c.d, c.a2 * qDst kind⟩, ⟨true, c.b, c.a2⟩])
  | .cpy _ _ _ _ w _ _ => ([⟨c.asc, c.a, c.b * elemSize w⟩], [⟨c.dsc, c.d, c.b * elemSize w⟩])
  | .gthr _ _ _ _ w _ _ =>
    (⟨true, c.b, 4 * c.b2⟩ :: listRanges t c.asc c.a (elemSize w) c.b c.b2, [⟨c.dsc, c.d, c.b2 * elemSize w⟩])
  | .sctr _ _ _ _ w _ _ =>
    ([⟨true, c.b, 4 * c.b2⟩, ⟨c.asc, c.a, c.b2 * elemSize w⟩], listRanges t c.dsc c.d (elemSize w) c.b c.b2)
  | .mcast _ _ _ _ w =>
    let core := coreOf t.agent
    let own := (BitVec.ofNat 32 c.b).getLsbD (core.toNat % 16) && bits c.b 16 5 == slotOf t.agent
    ([⟨false, c.a, c.b2 * elemSize w⟩], if own then [⟨true, c.d, c.b2 * elemSize w⟩] else [])
  | .msnd .. => ([⟨c.asc, c.a, bits c.b2 0 12⟩], [])
  | .coll _ _ _ _ _ op =>
    let g := groupAt t c.b
    let (one, all) := collSizes op g.cnt g.n
    ([⟨false, c.a, one⟩, ⟨true, c.b, 32⟩, ⟨false, g.table, 4 * g.n⟩], [⟨false, c.d, all⟩])
  | _ => ([], [])

/-- Whether two ranges share a byte. -/
def Range.meets (x y : Range) : Bool := x.scratch == y.scratch && x.len ≠ 0 && y.len ≠ 0 && x.lo < y.lo + y.len && y.lo < x.lo + x.len

/-- Whether two lists of ranges overlap. -/
def overlap (l m : List Range) : Bool := l.any (fun x => m.any x.meets)

/-- Whether every byte of an access lies in one range of a list. -/
def covered (l : List Range) (sc : Bool) (a n : Nat) : Bool :=
  l.any (fun r => r.scratch == sc && r.lo ≤ a && a + n ≤ r.lo + r.len)

/-- The engine of a command's class (R179). -/
def engOf : Instr → Option Eng
  | .mcfg .. | .mldb .. | .mvqb .. | .mldt .. | .mswb .. | .mzro .. | .mstz .. | .mfst .. | .mfac .. | .mpiv .. | .mma .. =>
    some .matrix
  | .qenq .. => some .quant
  | .cpy .. | .gthr .. | .sctr .. | .mcast .. => some .copy
  | .msnd .. | .coll .. => some .fabric
  | _ => none

end Sys2Proof.Machine
end

