-- ==== Sys2Proof/Machine/EngineWork.lean ====
section
/-! DEFINITION. What the commands of the engines do, unit by unit: a unit is what an engine finishes before it can stop
(R349): an element of a copy, a row of a store, a block, a K group, a column, a message (R182 to R200, R246). -/

namespace Sys2Proof.Machine

/-! ### A job's accesses (R180, R202) -/

/-- An access in pieces of at most 32 bytes, none across a 32-byte boundary: the largest unit that poison marks (R412). -/
def pieces : Nat → Nat → Nat → List (Nat × Nat)
  | 0, _, _ => []
  | f + 1, a, n => if n = 0 then [] else
    let k := min n (32 - a % 32)
    (a, k) :: pieces f (a + k) (n - k)

/-- A piece as requests to another package carry it: at most 16 bytes each. -/
def halves (a n : Nat) : List (Nat × Nat) :=
  let k := min n (16 - a % 16)
  if n = k then [(a, n)] else [(a, k), (a + k, n - k)]

/-- A declared range covers an access; otherwise it is not made: ENGINE REGION (R197, R202). Only global accesses are
declared by a card; a direct job's scratch elements are declared too. -/
def L.declared (j : Job) (write sc : Bool) (a n : Nat) : L Unit :=
  if sc && j.card.isSome then pure ()
  else if covered j.writes sc a n || (!write && covered j.reads sc a n) then pure ()
  else L.trap 9 0x0B a

/-- A card's regions cover a stream buffer's header and slots (R202, R246); a direct job's footprint does not bound them. -/
def L.declaredSlot (j : Job) (write : Bool) (a n : Nat) : L Unit := if j.card.isSome then L.declared j write false a n else pure ()

/-- The leaf of a page, if it is reached: to tell STREAM pages (R246). -/
def L.peekMode (va : Nat) : L (Option QWord) := do
  let x ← get
  let p ← L.part
  match walk x.st p (va / 4096) with
  | .leaf q _ => return some q
  | _ => return none

/-- Copy-engine commands but CPY's slots name no STREAM page (R246). -/
def L.noStream (j : Job) (va : Nat) : L Unit := do
  if j.eng == .copy then
    match ← L.peekMode va with
    | some q => if lfMode q = mStream then L.trap 9 6 va
    | none => pure ()

/-- The offsets of the 4-byte words in `n` bytes that pass a test. -/
def wordsThat (n : Nat) (bad : Nat → Bool) : List Nat := ((List.range ((n + 3) / 4)).map (4 * ·)).filter bad

/-- Reads one piece: its value and the offsets of its poisoned words (R413). -/
def L.jobPiece (j : Job) (a n : Nat) : L (Nat × List Nat) := do
  if 2 ^ 52 ≤ a then L.trap 8 1 a
  L.declared j false false a n
  L.noStream j a
  let (pa, leaf) ← L.locate .load a n
  match pa with
  | some pa =>
    let x ← get
    let bad := wordsThat n (fun o => x.st.poisoned (pa + o) (min 4 (n - o)))
    if !bad.isEmpty then L.chki (chkiOf pa)
    return (x.st.readP pa n, bad)
  | none =>
    let vs ← (halves a n).mapM (fun h => do return (h, ← L.remoteCallP h.1 0 leaf (.load h.2)))
    return ((vs.map (fun v => v.2.1 * 2 ^ (8 * (v.1.1 - a)))).sum,
      vs.flatMap (fun v => (wordsThat v.1.2 (fun _ => v.2.2)).map (v.1.1 - a + ·)))

/-- Reads pieces in order: the bytes, and offsets of poisoned ones. -/
def L.jobPieces (j : Job) (base : Nat) : List (Nat × Nat) → L (List (BitVec 8) × List Nat)
  | [] => return ([], [])
  | (a, n) :: l => do
    let v ← L.jobPiece j a n
    let r ← L.jobPieces j base l
    return (bytesOfNat n v.1 ++ r.1, v.2.map (a - base + ·) ++ r.2)

/-- A job reads `n` bytes: the bytes, and offsets at which poison was met (R413, R414). -/
def L.jobRd (j : Job) (sc : Bool) (a n : Nat) : L (List (BitVec 8) × List Nat) := do
  if sc then
    let t ← L.team
    if t.scr < a + n then L.trap 7 1 a
    L.declared j false true a n
    let bad := wordsThat n (fun o => t.scrBad (a + o) (min 4 (n - o)))
    if !bad.isEmpty then L.chki 4
    return (t.scratch.bytes a n, bad)
  else L.jobPieces j a (pieces n a n)

/-- A number read by a job. -/
def L.jobNum (j : Job) (sc : Bool) (a n : Nat) : L Nat := do return natOfBytes (← L.jobRd j sc a n).1

/-- Poisons the 8-byte units of scratch at offsets. -/
def Team.poisonScr (t : Team) (offs : List Nat) : Team :=
  { t with scratchBad := offs.foldl (fun l o => if l.contains (o / 8 * 8) then l else o / 8 * 8 :: l) t.scratchBad }

/-- Writes one piece; `bad` are the offsets of its words that come poisoned. -/
def L.jobPut (j : Job) (a : Nat) (bs : List (BitVec 8)) (bad : List Nat) : L Unit := do
  if 2 ^ 52 ≤ a then L.trap 8 1 a
  L.declared j true false a bs.length
  L.noStream j a
  let (pa, leaf) ← L.locate .store a bs.length
  match pa with
  | some pa =>
    L.modSt (·.writePBytes pa bs)
    L.modSt (fun s => bad.foldl (fun s o => s.poison (pa + o)) s)
  | none => (halves a bs.length).forM (fun h => do
      let o := h.1 - a
      let v : QWord := BitVec.ofNat 128 (natOfBytes ((bs.drop o).take h.2))
      let l := (bad.filter (fun u => u < o + h.2 && o < u + 4)).map (· - o)
      L.remoteStore h.1 1 leaf (if l.isEmpty then .store h.2 v else .put h.2 v l))

/-- Writes pieces in order. -/
def L.jobPuts (j : Job) (base : Nat) (bs : List (BitVec 8)) (bad : List Nat) : List (Nat × Nat) → L Unit
  | [] => return ()
  | (a, n) :: l => do
    let o := a - base
    L.jobPut j a ((bs.drop o).take n) ((bad.filter (fun u => u < o + n && o < u + 4)).map (· - o))
    L.jobPuts j base bs bad l

/-- A job writes bytes; poison met at the source goes with them (R413). -/
def L.jobWr (j : Job) (sc : Bool) (a : Nat) (bs : List (BitVec 8)) (bad : List Nat) : L Unit := do
  if sc then
    if (← L.team).scr < a + bs.length then L.trap 7 1 a
    L.declared j true true a bs.length
    L.modTeam (fun t => (t.wrScrBytes a bs).poisonScr (bad.map (a + ·)))
  else L.jobPuts j a bs bad (pieces bs.length a bs.length)

/-! ### The matrix engine's state -/

def L.mat : L MatState := do return (← L.team).mat.getD MatState.zero
def L.setMat (f : MatState → MatState) : L Unit := L.modTeam (fun t => { t with mat := some (f (t.mat.getD MatState.zero)) })

def Tile.get (t : Tile) (r c : Nat) : Word := spGet 0 t.e (r * 96 + c)
/-- Writes an element; it loses its poison (R413). -/
def Tile.set (t : Tile) (r c : Nat) (v : Word) : Tile :=
  { t with e := spSet 0 t.e (r * 96 + c) v, bad := t.bad.erase (r * 96 + c) }

/-- MCFG (R183). -/
def MatState.config (m : MatState) (arr : BitVec 2) (wf af : BitVec 3) (fac : Bool) : MatState :=
  if fac then { m with configured := true, fac := true, factor := Factor.zero }
  else
    let clear := m.arr ≠ arr || m.wf ≠ wf
    let m := if clear then
        { m with active := Vector.replicate 4 Bank.zero, loading := Vector.replicate 4 Bank.zero, badMac := [] }
      else m
    { m with configured := true, fac := false, arr := arr, wf := wf, af := af }

/-- Nibbles, lowest first, as the cells of a plane-column. -/
def packCells (l : List Nat) : BitVec 512 := BitVec.ofNat 512 (l.foldr (fun x acc => x % 16 + 16 * acc) 0)

/-- The plane-columns of one logical column: element kk in `64p` packed bytes, p nibbles each, lowest first (R184, R185). -/
def columnPlanes (p : Nat) (packed : Nat) : List (BitVec 512) :=
  (List.range p).map (fun j => packCells ((List.range 128).map (fun k => bits packed (4 * p * k + 4 * j) 4)))

/-- A bank from its logical columns' plane-columns and its scale codes. -/
def bankOf (cols : List (BitVec 512)) (scales : List (BitVec 8)) : Bank :=
  ⟨cols.zipIdx.foldl (fun l x => spSet 0 l x.2 x.1) [], scales.zipIdx.foldl (fun l x => spSet 0x7F l x.2 x.1) []⟩

/-- Reads `n` numbers of `k` bytes from consecutive places. -/
def L.jobNums (j : Job) (sc : Bool) (a k : Nat) : Nat → L (List Nat)
  | 0 => return []
  | n + 1 => do
    let v ← L.jobNum j sc a k
    let l ← L.jobNums j sc (a + k) k n
    return v :: l

/-- The loading bank of one macro, read by MLDB (R185). -/
def L.readBank (j : Job) (wf : Nat) (c : CmdArgs) (k : Nat) : L Bank := do
  let p := planesOf wf
  let cols ← L.jobNums j c.asc (c.a + 6144 * k) (64 * p) (macroCols wf)
  let sc ← if scaledFmt wf then L.jobRd j c.bsc (c.b + 4 * macroCols wf * k) (4 * macroCols wf) else pure ([], [])
  return bankOf (cols.flatMap (columnPlanes p)) sc.1

/-- One column of indices as L4 cells (R64, R65). -/
def vqColumn (leaders : List (Nat × Word)) (ix : Nat) : BitVec 512 :=
  packCells ((List.range 16).flatMap (fun n =>
    let v := bits ix (16 * n) 16
    (l4Codes v (spGet 0 leaders (v / 256)).toNat).map (·.toNat)))

/-- The loading bank of one macro, read by MVQB through the leader table (R186, R414). -/
def L.readVq (j : Job) (leaders : List (Nat × Word)) (badLead : List Nat) (c : CmdArgs) (k : Nat) : L Bank := do
  let cols ← L.jobNums j c.asc (c.a + 3072 * k) 32 96
  if cols.any (fun ix => (List.range 16).any (fun n => badLead.contains (bits ix (16 * n) 16 / 256))) then L.chki 0x20
  let sc ← L.jobRd j c.bsc (c.b + 384 * k) 384
  return bankOf (cols.map (vqColumn leaders)) sc.1

/-- Reads one bank per macro of a mask. -/
def L.readBanks (f : Nat → L Bank) : List Nat → Nat → L (List (Nat × Bank))
  | [], _ => return []
  | m :: l, k => do
    let b ← f k
    let r ← L.readBanks f l (k + 1)
    return (m, b) :: r

/-- Writes loading banks, after every read (R371); they lose their poison (R413). -/
def MatState.load (m : MatState) (l : List (Nat × Bank)) : MatState :=
  { m with loading := l.foldl (fun v x => vset v x.1 x.2) m.loading,
           badMac := m.badMac.filter (fun u => !(u.loading && l.any (·.1 == u.bank))) }

/-- Reads and checks a leader table (R187). -/
def L.readLeaders (j : Job) (sc : Bool) (a : Nat) : L (List (Nat × Word)) := do
  let ws ← L.jobNums j sc a 4 256
  let badEntry (w : Nat) : Bool := 2 ^ 24 ≤ w || (List.range 8).any (fun c => bits w (3 * c) 3 = 7)
  if ws.any badEntry then L.trap 9 0x0A a
  return ws.zipIdx.foldl (fun l x => spSet 0 l x.2 (BitVec.ofNat 32 x.1)) []

/-- MSWB (R188). -/
def MatState.swapBanks (m : MatState) (mask : BitVec 4) : MatState :=
  { m with active := (maskMacros mask).foldl (fun v j => vset v j (vget m.loading j)) m.active,
           loading := (maskMacros mask).foldl (fun v j => vset v j (vget m.active j)) m.loading,
           badMac := m.badMac.map (fun u => if mask.getLsbD u.bank then { u with loading := !u.loading } else u) }

/-! ### MMA (R189, R74, R75) -/

/-- The macro of logical column n for group g (R184). -/
def MatState.macroOf (m : MatState) (g n : Nat) : Nat :=
  let kq := 32 * g / 128
  let nm := macroCols m.wf.toNat
  match m.arr.toNat with | 0 => kq | 1 => kq + 2 * (n / nm) | _ => n / nm

/-- Whether group g reads a poisoned unit of an active bank (R412): a cell of its 32 K rows, or a scale code. -/
def MatState.groupBad (m : MatState) (g : Nat) : Bool :=
  let wf := m.wf.toNat
  let k8 := 32 * g % 128 / 8
  (List.range (shapeN m.arr.toNat wf)).any (fun n =>
    m.badMac.any (fun u => !u.loading && u.bank == m.macroOf g n &&
      (if u.unit = 16 then scaledFmt wf && u.col == n % macroCols wf
       else u.col / planesOf wf == n % macroCols wf && k8 ≤ u.unit && u.unit < k8 + 4)))

/-- The weights of logical column n for group g, and their scale code. -/
def MatState.weights (m : MatState) (g n : Nat) : List FV × Nat :=
  let wf := m.wf.toNat
  let p := planesOf wf
  let bank := vget m.active (m.macroOf g n)
  let col := n % macroCols wf
  let k0 := 32 * g % 128
  let planes := (List.range p).map (fun j => (spGet 0 bank.cells (p * col + j)).toNat)
  let elem (k : Nat) : Nat := planes.zipIdx.foldl (fun acc x => acc + bits x.1 (4 * (k0 + k)) 4 * 16 ^ x.2) 0
  ((List.range 32).map (fun k => matValue wf (elem k)), (spGet 0x7F bank.scales (4 * col + k0 / 32)).toNat)

/-- The integer value of a whole element. -/
def FV.toInt : FV → Int
  | .fin s m e => (if s then -1 else 1) * (m * 2 ^ e.toNat : Nat)
  | _ => 0

/-- One group's contribution to one element. -/
def MatState.addGroup (m : MatState) (xs : List FV) (sa : Option Int) (w : List FV × Nat) (z : Word) : Word :=
  if m.wf = 4 && m.af = 4 then z + BitVec.ofInt 32 ((xs.zip w.1).foldl (fun acc p => acc + p.1.toInt * p.2.toInt) 0)
  else
    let sb := if scaledFmt m.wf.toNat then scaleExp w.2 else some 0
    let sc := match sa, sb with | some x, some y => some (x + y) | _, _ => none
    BitVec.ofNat 32 (accumulate z.toNat (groupSum (xs.zip w.1) sc)).code

/-- The activations of a row for group g, and their scale. -/
def L.activations (j : Job) (m : MatState) (c : CmdArgs) (w g : Nat) : L (List FV × Option Int) := do
  let af := m.af.toNat
  let eb := fmtBits af
  let n := 4 * eb
  let x ← L.jobNum j c.asc (c.a + w * c.b + g * n) n
  let sa ← if scaledFmt af then (fun v => scaleExp v) <$> L.jobNum j c.dsc (c.d + w * (shapeK m.arr.toNat / 32) + g) 1
    else pure (some 0)
  return ((List.range 32).map (fun k => matValue af (bits x (eb * k) eb)), sa)

/-- The activations of every row for group g. -/
def L.rowsOf (j : Job) (m : MatState) (c : CmdArgs) (g : Nat) : List Nat → L (List (Nat × List FV × Option Int))
  | [] => return []
  | w :: l => do
    let a ← L.activations j m c w g
    let r ← L.rowsOf j m c g l
    return (w, a) :: r

/-- Commits group g into every row of the tiles (R339). -/
def L.mmaGroup (j : Job) (c : CmdArgs) (t0 : Nat) (rows : Nat) (g : Nat) : L Unit := do
  let m ← L.mat
  let acts ← L.rowsOf j m c g (List.range rows)
  if m.groupBad g then L.chki 0x10
  let n := shapeN m.arr.toNat m.wf.toNat
  if (← L.team).z.toList.zipIdx.any (fun x => t0 ≤ x.2 && x.2 < t0 + (n + 95) / 96 && x.1.bad.any (fun e => e / 96 < rows)) then
    L.chki 0x20
  let ws := (List.range n).map (m.weights g)
  let upd (z : Vector Tile 8) (col : Nat) (w : List FV × Nat) : Vector Tile 8 :=
    let ti := t0 + col / 96
    let tile := acts.foldl (fun (t : Tile) a =>
      t.set a.1 (col % 96) (m.addGroup a.2.1 a.2.2 w (t.get a.1 (col % 96)))) (vget z ti)
    vset z ti tile
  L.modTeam (fun t => { t with z := ws.zipIdx.foldl (fun z x => upd z x.2 x.1) t.z })

/-! ### Factorising (R192 to R194) -/

/-- The magnitude of an FP32 code. -/
def magW (x : Word) : Nat := x.toNat % 2 ^ 31
/-- Whether an FP32 code is NaN. -/
def nanW (x : Word) : Bool := 0x7F80_0000 < magW x
/-- The larger magnitude, NaN left out. -/
def maxMag (m : Nat) (x : Word) : Nat := if nanW x then m else max m (magW x)

/-- Element (row, column) of the factor tile. -/
def facGet (z : Vector Tile 8) (r c : Nat) : Word := (vget z (r / 16)).get (r % 16) c
def facSet (z : Vector Tile 8) (r c : Nat) (v : Word) : Vector Tile 8 := vset z (r / 16) ((vget z (r / 16)).set (r % 16) c v)

/-- A row of 64 elements. -/
def facRow (z : Vector Tile 8) (r : Nat) : List Word := (List.range 64).map (facGet z r)

/-- The unpivoted row with the largest magnitude in column k, lowest on ties; NaN never wins. -/
def bestRow (z : Vector Tile 8) (pivoted : List Nat) (k : Nat) : Option (Nat × Nat) :=
  ((List.range 64).filter (fun r => !pivoted.contains r && !nanW (facGet z r k))).foldl (fun b r =>
    match b with
    | none => some (magW (facGet z r k), r)
    | some (m, q) => if m < magW (facGet z r k) then some (magW (facGet z r k), r) else some (m, q)) none

/-- FP32 operations of the factor unit. -/
def divW (x y : Word) : Word := BitVec.ofNat 32 (roundTo fmtF32 .rne false (divX (fmtF32.value x.toNat) (fmtF32.value y.toNat)).v).code
def subMulW (a l p : Word) : Word :=
  BitVec.ofNat 32 (roundTo fmtF32 .rne false
    (fmaX .rne (fmtF32.value l.toNat).negate (fmtF32.value p.toNat) (fmtF32.value a.toNat)).v).code

/-- Eliminates one row against a pivot row: the tile and the largest magnitude written right of column k. -/
def elimRow (piv : List Word) (k : Nat) (z : Vector Tile 8) (mx : Nat) (q : Nat) : Vector Tile 8 × Nat :=
  let l := divW (facGet z q k) (piv.getD k 0)
  let z := facSet z q k l
  (List.range (63 - k)).foldl (fun (s : Vector Tile 8 × Nat) i =>
    let jc := k + 1 + i
    let v := subMulW (facGet s.1 q jc) l (piv.getD jc 0)
    (facSet s.1 q jc v, maxMag s.2 v)) (z, mx)

/-- The growth register: maxseen ÷ start maximum toward +∞, and +∞ once an infinity is seen (R193). -/
def growthOf (maxSeen start : Word) : Word :=
  if start = 0 then 0x3F80_0000
  else if magW maxSeen = 0x7F80_0000 then 0x7F80_0000
  else BitVec.ofNat 32 (roundTo fmtF32 .rup false (divX (fmtF32.value maxSeen.toNat) (fmtF32.value start.toNat)).v).code

/-- What one column of MFAC comes to. -/
inductive ColRes where
  | singular
  | next (z : Vector Tile 8) (f : Factor)
  | growth (z : Vector Tile 8) (f : Factor)
  deriving DecidableEq, Repr

/-- Column k of MFAC, k the counter (R193). -/
def facColumn (core : Nat) (ftau glim : Word) (z : Vector Tile 8) (f : Factor) : ColRes :=
  let k := f.counter
  let go (piv : List Word) (pivoted : List Nat) (rec : Bool × Nat × Nat × Nat) : ColRes :=
    let r := ((List.range 64).filter (fun q => !pivoted.contains q)).foldl (fun s q => elimRow piv k s.1 s.2 q) (z, 0)
    let mx : Word := if magW f.maxSeen < r.2 then BitVec.ofNat 32 r.2 else f.maxSeen
    let g := growthOf mx f.startMax
    let f := { f with counter := k + 1, map := (k, rec) :: f.map, pivoted := pivoted, maxSeen := mx, growth := g }
    if (fmtF32.value glim.toNat).lt (fmtF32.value g.toNat) then .growth r.1 f else .next r.1 f
  let own (_ : Unit) : ColRes :=
    match bestRow z f.pivoted k with
    | none => .singular
    | some (m, p) =>
      if (fmtF32.value m).le (fmtF32.value ftau.toNat) then .singular
      else go (facRow z p) (p :: f.pivoted) (false, core, p, p)
  match f.buf with
  | some (kb, won, wc, wr, row) => if kb = k && !won then go row f.pivoted (true, wc, wr, 0) else own ()
  | none => own ()

/-- Whether an element of the factor tile, whose columns are 0 to 63, is poisoned (R414). -/
def Team.facBad (t : Team) : Bool := (List.range 4).any (fun j => (vget t.z j).bad.any (fun e => e % 96 < 64))

/-- One column; it stops with the trap of R193 after what it has done. -/
def L.facStep : L Unit := do
  let t ← L.team
  let m ← L.mat
  let k := BitVec.ofNat 32 m.factor.counter
  if t.facBad then L.chki 0x20
  match facColumn ((coreOf t.agent).toNat % 16) t.ftau t.glim t.z m.factor with
  | .singular =>
    let x ← get
    L.stop (.trapKeep 5 1 k x.st)
  | .next z f =>
    L.modTeam (fun t => { t with z := z })
    L.setMat (fun m => { m with factor := f })
  | .growth z f =>
    L.modTeam (fun t => { t with z := z })
    L.setMat (fun m => { m with factor := f })
    let x ← get
    L.stop (.trapKeep 5 2 k x.st)

/-- MFST (R192). -/
def L.facLoad (j : Job) (c : CmdArgs) : List Nat → L (List (Nat × List Nat))
  | [] => return []
  | w :: l => do
    let x ← L.jobNums j c.asc (c.a + w * c.b) 4 64
    let r ← L.facLoad j c l
    return (w, x) :: r

/-- The factor tile and state after MFST. -/
def facInit (z : Vector Tile 8) (rows : List (Nat × List Nat)) : Vector Tile 8 × Factor :=
  let z0 := (List.range 4).foldl (fun z j => vset z j Tile.zero) z
  let z1 := rows.foldl (fun z r => r.2.zipIdx.foldl (fun z x => facSet z r.1 x.2 (BitVec.ofNat 32 x.1)) z) z0
  let mx : Word := BitVec.ofNat 32 (rows.foldl (fun m r => r.2.foldl (fun m x => maxMag m (BitVec.ofNat 32 x)) m) 0)
  (z1, ⟨0, [], [], 0x3F80_0000, mx, mx, none⟩)

/-- All participants of a mask have presented. -/
def allIn (ps : List PivOffer) (p : PivOffer) : Bool :=
  (List.range 16).all (fun c => !p.mask.testBit c || ps.any (fun q => q.core == c))

/-- The largest offer, lowest core and row on ties. -/
def pivWinner (ps : List PivOffer) : Option (Nat × Nat × List Word × Word) :=
  ps.foldl (fun b p => match p.offer with
    | none => b
    | some (m, r, row) => match b with
      | none => some (p.core, r, row, m)
      | some (c, q, rw, m') =>
        if m'.toNat < m.toNat || (m' = m && p.core < c) then some (p.core, r, row, m) else some (c, q, rw, m')) none

/-- Settles a negotiation once one participant's mask is complete; the cluster holds it while a participant is swapped out
(R194, R206). -/
def State.pivSettle (s : State) (cluster : Nat) (tag : Word) : State :=
  let mine (p : PivOffer) : Bool := p.cluster == cluster && p.tag == tag && p.result.isNone
  let ps := s.pivs.filter mine
  if !ps.any (allIn ps) || ps.any (fun p => (s.team? p.agent).map (·.resid) != some .resident) then s
  else
    let same := ps.all (fun p => ps.all (fun q => p.mask == q.mask && p.col == q.col))
    let res : Option (Nat × Nat × List Word) × Bool := ((pivWinner ps).map (fun w => (w.1, w.2.1, w.2.2.1)), !same)
    { s with pivs := s.pivs.map (fun p => if mine p then { p with result := some res } else p) }

/-- Settles every negotiation that may be. -/
def State.pivsSettle (s : State) : State := s.pivs.foldl (fun s p => if p.result.isNone then s.pivSettle p.cluster p.tag else s) s

/-- MPIV: presents, waits, and takes the outcome into the pivot-row buffer; what D receives (R194). The pivot is sought in the
tiles, whose poison it consumes (R414). -/
def L.mpiv (k : Nat) (maskW tagW : Word) : L Word := do
  let x ← get
  let t ← L.team
  let m ← L.mat
  let core := (coreOf x.agent).toNat % 16
  match x.st.pivs.find? (fun p => p.agent == x.agent && p.wave == x.wave) with
  | none =>
    if k ≠ m.factor.counter ∨ !maskW.getLsbD core ∨ bits maskW.toNat 16 16 ≠ 0 then L.trap 9 7
    let offer := (bestRow t.z m.factor.pivoted k).map (fun b => (BitVec.ofNat 32 b.1, b.2, facRow t.z b.2))
    let cl := clusterOf (coreOf x.agent)
    let tag : Word := tagW &&& 0xFFFF
    let bad := t.facBad
    L.blockWith .mpiv (fun c =>
      let c := if bad then c.updTeam x.agent (fun t => { t with chki := t.chki ||| 0x20 }) else c
      ({ c with pivs := c.pivs ++ [⟨cl, core, x.agent, x.wave, tag, maskW.toNat, k, offer, none⟩] } : State).pivSettle cl tag)
  | some p =>
    match p.result with
    | none => L.block .mpiv
    | some (win, differ) =>
      let s1 : State := { x.st with pivs := x.st.pivs.filter (fun q => !(q.agent == x.agent && q.wave == x.wave)) }
      let c1 : State := { x.clean with pivs := x.clean.pivs.filter (fun q => !(q.agent == x.agent && q.wave == x.wave)) }
      if differ then L.stop (.trapKeep 9 8 0 c1)
      match win with
      | none => L.stop (.trapKeep 5 1 (BitVec.ofNat 32 k) c1)
      | some (wc, wr, row) =>
        if (fmtF32.value (magW (row.getD k 0))).le (fmtF32.value t.ftau.toNat) then
          L.stop (.trapKeep 5 1 (BitVec.ofNat 32 k) c1)
        L.setSt s1
        L.setMat (fun m => { m with factor := { m.factor with buf := some (k, wc = core, wc, wr, row) } })
        return BitVec.ofNat 32 (wc + wr * 16 + if wc = core then 2 ^ 31 else 0)

/-! ### Quantisation (R62, R66, R196) -/

/-- Little-endian packing of elements of a width. -/
def packElems (w : Nat) (l : List Nat) (n : Nat) : List (BitVec 8) :=
  bytesOfNat n (l.foldr (fun x acc => x % 2 ^ w + 2 ^ w * acc) 0)

/-- An element format of QENQ and its largest power of two (R62). -/
def qFmt : Nat → Nat × Option Fmt × Int
  | 0 => (4, some fmtE2M1, 2)
  | 1 => (8, some fmtE4M3, 8)
  | 2 => (8, some fmtE5M2, 15)
  | 3 => (8, none, 6)
  | _ => (16, none, 1)

/-- Twice the decoded weights of an index against the scaled values: the exact sum of squared differences, as an integer
over a common power of two. -/
def vqError (leader : Nat) (v : Nat) (q : Int) (ys : List FV) : Int :=
  let at' (y : FV) : Int := match y with | .fin s m e => (if s then -1 else 1) * (m * 2 ^ (e - q).toNat : Nat) | _ => 0
  ((decodeVq2 v leader).zip ys).foldl (fun acc p =>
    let d := p.1 * (2 ^ (-1 - q).toNat : Nat) - at' p.2
    acc + d * d) 0

/-- The index with the least sum, lowest on ties (R66). -/
def vqBest (leaders : List (Nat × Word)) (ys : List FV) : Nat :=
  let q := ys.foldl (fun (m : Int) y => match y with | .fin _ mt e => if mt = 0 then m else min m e | _ => m) (-1)
  ((List.range 65536).foldl (fun (b : Nat × Option Int) v =>
    let e := vqError (spGet 0 leaders (v / 256)).toNat v q ys
    match b.2 with
    | none => (v, some e)
    | some e0 => if e < e0 then (v, some e) else b) (0, none)).1

/-- One block: its element bytes and its scale code. -/
def quantBlock (kind : Nat) (leaders : List (Nat × Word)) (xs : List FV) : List (BitVec 8) × Nat :=
  let (w, f, emax) := qFmt (kind % 8)
  let (c, live) := blockScale emax xs
  let ys := xs.map (fun x => sclX x (127 - (c : Int)))
  if kind % 8 = 4 then
    let ix := if live && c ≠ 0 then (List.range 4).map (fun v => vqBest leaders ((ys.drop (8 * v)).take 8)) else [0, 0, 0, 0]
    (packElems 16 ix 8, c)
  else
    let es := if live then ys.map (fun y => (convertElem w f .rne true y).code) else List.replicate 32 0
    (packElems w es (w * 4), c)

/-- Block b of QENQ. -/
def L.quantUnit (j : Job) (kind : BitVec 4) (c : CmdArgs) (b : Nat) : L Unit := do
  let core ← L.core
  if kind = 5 then
    let l ← L.readLeaders j true c.a
    L.modSt (·.updCore core (fun k => { k with qlead := l, qbad := [] }))
  else
    let bf := 8 ≤ kind.toNat
    let xs ← L.jobNums j true (c.a + b * qSrc kind) (if bf then 2 else 4) 32
    let vals := xs.map (fun x => (if bf then fmtBF16 else fmtF32).value x)
    let k := (← get).st.core core
    if kind.toNat % 8 = 4 ∧ !k.qbad.isEmpty then L.chki 0x20
    let r := quantBlock kind.toNat k.qlead vals
    L.jobWr j true (c.d + b * qDst kind) r.1 []
    L.jobWr j true (c.b + b) [BitVec.ofNat 8 r.2] []

/-! ### Copying (R197, R198, R246) -/

/-- A STREAM buffer named by a CPY operand: its header agrees with the element size, or ENGINE STATE (R246). -/
def L.streamOpnd (j : Job) (write sc : Bool) (base size : Nat) : L (Option Chan) := do
  if sc then return none
  match ← L.peekMode base with
  | none => return none
  | some q =>
    if lfMode q ≠ mStream then return none
    if base % 4096 ≠ 0 then L.trap 9 6 base
    L.declaredSlot j write base 64
    let c : Chan := ⟨BitVec.ofNat 52 base, 0, 0, 0, 0, 3, 1, true⟩
    let (v, sz, slots) ← match ← L.abroad c write with
      | some leaf => do
        let h ← L.remoteCall (base + 8) (if write then 1 else 0) leaf .ringRead
        pure (bits h 160 32, bits h 128 32, bits h 96 32)
      | none => do
        let (v, _) ← L.ringRd false write (base + 20)
        let (sz, _) ← L.ringRd false write (base + 16)
        let (slots, _) ← L.ringRd false write (base + 12)
        pure (v, sz, slots)
    if v % 2 = 0 ∨ sz ≠ size then L.trap 9 6 base
    return some { c with slots := BitVec.ofNat 12 slots, size := BitVec.ofNat 13 sz }

/-- The regions of a card cover every page of a stream buffer in another package (R246). -/
def L.declaredRing (j : Job) (write : Bool) (c : Chan) : L Unit :=
  (List.range ((64 + c.slots.toNat * c.size.toNat + 4095) / 4096)).forM (fun n => L.declaredSlot j write (c.base.toNat + 4096 * n) 1)

/-- The STREAM buffer of a CPY operand at element k: the command is one of a stream, or not, from its first element on; a page that is
no longer STREAM then raises MMX MODE (R245, R246). -/
def L.cpyOpnd (j : Job) (write sc : Bool) (base size k : Nat) : L (Option Chan) := do
  if k ≠ 0 ∧ !j.out.getLsbD (if write then 1 else 0) then return none
  if k ≠ 0 then discard (L.locate (if write then .push else .pop) base 4)
  L.streamOpnd j write sc base size

/-- Element k of a CPY's source: an element of memory, or the slot popped from a stream. -/
def L.cpyRead (j : Job) (sc : Bool) (a size k : Nat) (from' : Option Chan) : L (List (BitVec 8) × List Nat) := do
  match from' with
  | none => L.jobRd j sc (a + k * size) size
  | some c =>
    match ← L.abroad c false with
    | some leaf =>
      L.declaredRing j false c
      let v ← L.remoteCallP c.base.toNat 0 leaf (.ringPop c.slots.toNat size (size / 4) false) id .slot
      return (bytesOfNat size v.1, wordsThat size (fun _ => v.2))
    | none =>
      let r ← L.ring c false
      if r.filled = 0 then L.block .slot
      L.declaredSlot j false (r.base + r.head * r.size) size
      let (v, bad) ← L.ringRds false false (r.base + r.head * r.size) .slot (size / 4)
      L.slotTaken c r
      L.ringSet 0 c false { r with head := (r.head + 1) % r.slots, filled := r.filled - 1 }
      return (bytesOfNat size v, bad)

/-- Element k of a CPY's destination: an element of memory, or a slot pushed into a stream; a push is a release at the page's scope
(R245, R254). -/
def L.cpyWrite (j : Job) (sc : Bool) (d size k : Nat) (into : Option Chan) (v : List (BitVec 8) × List Nat) : L Unit := do
  match into with
  | none => L.jobWr j sc (d + k * size) v.1 v.2
  | some c =>
    match ← L.abroad c true with
    | some leaf =>
      L.declaredRing j true c
      if (← L.asked (c.base.toNat + 4)).isNone then L.awaitWrites (lfScope leaf)
      let x ← get
      let p ← L.part
      discard (L.remoteCallP (c.base.toNat + 4) 1 leaf (.ringPush c.slots.toNat size (size / 4) (natOfBytes v.1) v.2)
        (fun s => s.release p.id (coreOf x.agent) (lfScope leaf)) .slot)
    | none =>
    let r ← L.ring c true
    if r.slots ≤ r.filled then L.block .slot
    L.declaredSlot j true (r.base + r.tail * r.size) size
    let (_, leaf) ← L.locate .push c.base.toNat 4
    L.release (lfScope leaf)
    L.ringWrs false true (r.base + r.tail * r.size) (natOfBytes v.1) v.2 (size / 4)
    L.ringSet 0 c true { r with tail := (r.tail + 1) % r.slots, filled := r.filled + 1 }

/-- Index k of a GTHR's or SCTR's list. -/
def L.listIndex (j : Job) (c : CmdArgs) (k : Nat) : L Nat := L.jobNum j true (c.b + 4 * k) 4

/-- Teams an MCAST names (R198). -/
def mcastTeams (core : BitVec 11) (b : Nat) : List AgentId :=
  ((List.range 16).filter (fun k => b.testBit k)).map (fun k => agentOf (BitVec.ofNat 11 (core.toNat / 16 * 16 + k)) (bits b 16 5))

/-- Whether a destination can take the range: a core that is removed takes none (R422). -/
def State.mcastOk (s : State) (c : CmdArgs) (size : Nat) (a : AgentId) : Bool :=
  match s.team? a with
  | some t => (s.physCore (coreOf a)).isSome && c.d + c.b2 * size ≤ t.scr
  | none => false

/-- The elements of element k's 4 KiB chunk that are still to be done, of `n` in all (R343). -/
def chunkLeft (size k n : Nat) : Nat := min n ((k * size / 4096 + 1) * 4096 / size) - k

/-- Reads of consecutive elements, up to the first that cannot be made now. -/
def L.readRun {α : Type} (f : Nat → L α) : Nat → Nat → L (List α)
  | 0, _ => return []
  | n + 1, k => fun x => match f k x with
    | .ok (v, y) => (do return v :: (← L.readRun f n (k + 1))) y
    | .error _ => .ok ([], x)

/-- Elements of a chunk of MCAST from element k on: each is read once, then they are written to each destination that can take
them, by increasing core (R343). It answers how many. -/
def L.mcastUnit (j : Job) (c : CmdArgs) (size k : Nat) : L Nat := do
  let x ← get
  let dests := mcastTeams (coreOf x.agent) c.b
  if k < c.b2 then
    let rd (n : Nat) : L (List (BitVec 8) × List Nat) := L.jobRd j false (c.a + n * size) size
    let v ← rd k
    let l ← L.readRun rd (chunkLeft size k c.b2 - 1) (k + 1)
    let put (t : Team) (e : (List (BitVec 8) × List Nat) × Nat) : Team :=
      (t.wrScrBytes (c.d + (k + e.2) * size) e.1.1).poisonScr (e.1.2.map (c.d + (k + e.2) * size + ·))
    L.modSt (fun s => (dests.filter (s.mcastOk c size)).foldl (fun s a => s.updTeam a (fun t => (v :: l).zipIdx.foldl put t)) s)
    return l.length + 1
  else
    if !dests.all (x.st.mcastOk c size) then L.trap 9 9
    return 1

/-! ### Messages and collectives (R199, R200) -/

/-- MSND: the message is read, coded and sent (R199, R259). -/
def L.msndUnit (j : Job) (c : CmdArgs) : L Unit := do
  let v ← L.jobRd j c.asc c.a (bits c.b2 0 12)
  let x ← get
  let p ← L.part
  L.modSt (·.sendMessage x.agent p.id (BitVec.ofNat 12 (bits c.b 16 12)) (BitVec.ofNat 16 (bits c.b 0 16)) (bits c.b2 18 5)
    (bits c.b2 23 4) (BitVec.ofNat 6 (bits c.b2 12 6)) v.1 v.2 none)

/-- Whether a member lies in this package. -/
def State.isLocal (s : State) (pkg : Nat) : Bool := pkg = 0xFFF || pkg = s.pkg.toNat

/-- The member table of a collective as the package's memory holds it: package and agent of each rank; none where a page of it
cannot be read here. -/
def tableOf (s : State) (p : Partition) (table n : Nat) : Option (List (Nat × Nat)) :=
  (List.range n).mapM (fun i =>
    let va := table + 4 * i
    match leafAt s p (va / 4096) with
    | some (q, _) =>
      if lfPkg q ≠ 0xFFF then none
      else
        let w := s.readP (lfFrame q * 4096 + va % 4096) 4
        some (bits w 16 12, bits w 0 16)
    | none => none)

/-- Bytes of a block that travel as one message: k × 224, with k of the CRATE under which the COLL began (R383). -/
def collBytes (crate : Word) : Nat := 224 * max 1 (bits crate.toNat 0 5)

/-- The messages in which one member's block goes to another. -/
def collPieces (g : Group) (crate : Word) : Nat := (4 * g.cnt + collBytes crate - 1) / collBytes crate

/-- One fragment set of COLL (R345): piece k mod P of this member's block goes to member k div P (only rank 0 sends for bcast); in
this package it comes at once, in another as a message with k and m of CRATE (R383). -/
def L.collSend (j : Job) (c : CmdArgs) (g : Group) (op : BitVec 4) (k : Nat) : L Unit := do
  let n := collPieces g j.out
  let size := collBytes j.out
  let r := k / n
  let off := k % n * size
  if r = g.rank ∨ (op = 3 ∧ g.rank ≠ 0) then return
  let m ← L.jobNum j false (g.table + 4 * r) 4
  let v ← L.jobRd j false (c.a + off) (min size (4 * g.cnt - off))
  let x ← get
  let p ← L.part
  let a : AgentId := BitVec.ofNat 16 (bits m 0 16)
  let t : Addr := BitVec.ofNat 52 g.table
  if x.st.isLocal (bits m 16 12) then L.modSt (fun s => { s with mail := s.mail ++ [⟨p.id, a, t, g.rank, off, v.1, v.2, false⟩] })
  else L.modSt (·.sendMessage x.agent p.id (BitVec.ofNat 12 (bits m 16 12)) a (bits j.out.toNat 0 5) (bits j.out.toNat 8 4)
      (BitVec.ofNat 6 g.rch) v.1 v.2 (some (.block t g.rank off)))

/-- The pieces that make up a block of `size` bytes from place `off` on, among those that have come; none while one is still
to come. -/
def takePieces (size : Nat) : Nat → Nat → List Mail → Option (List Mail)
  | 0, _, _ => none
  | f + 1, off, l =>
    if size ≤ off then some []
    else match l.find? (·.off == off) with
      | none => none
      | some m => (takePieces size f (off + m.data.length) (l.erase m)).map (m :: ·)

/-- A member's block, and its poisoned words: this one's own, or the pieces that have come from that member. A poisoned piece sets REM
where it came from another package, else ENG, for the engine holds it (R414; DEDUCED, log 93). -/
def L.block? (j : Job) (c : CmdArgs) (g : Group) (r : Nat) : L (List (BitVec 8) × List Nat) := do
  let x ← get
  let p ← L.part
  if r = g.rank then L.jobRd j false c.a (4 * g.cnt)
  else
    let mine (m : Mail) : Bool := m.part == p.id && m.agent == x.agent && m.table.toNat == g.table && m.rank == r
    match takePieces (4 * g.cnt) (x.st.mail.length + 1) 0 (x.st.mail.filter mine) with
    | none => L.block .ewait
    | some l =>
      if l.any (fun m => m.abroad && !m.bad.isEmpty) then L.chki 0x40
      if l.any (fun m => !m.abroad && !m.bad.isEmpty) then L.chki 0x20
      L.modSt (fun s => { s with mail := l.foldl List.erase s.mail })
      return (l.flatMap (·.data), l.flatMap (fun m => m.bad.map (m.off + ·)))

/-- The blocks of a list of ranks, in order. -/
def L.blocks (j : Job) (c : CmdArgs) (g : Group) : List Nat → L (List (List (BitVec 8) × List Nat))
  | [] => return []
  | r :: l => do
    let b ← L.block? j c g r
    let t ← L.blocks j c g l
    return b :: t

/-- Words of a block. -/
def wordsOf (n : Nat) (b : List (BitVec 8)) : List Word :=
  (List.range n).map (fun k => BitVec.ofNat 32 (natOfBytes ((b.drop (4 * k)).take 4)))

/-- Combines two elements of a collective. -/
def collOp (ty op : BitVec 4) (x y : Word) : Word :=
  if op = 1 then
    if ty = 0 then x + y
    else BitVec.ofNat 32 (roundTo fmtF32 .rne false (addX .rne (fmtF32.value x.toNat) (fmtF32.value y.toNat)).v).code
  else if ty = 0 then (if x.toInt ≤ y.toInt then y else x)
  else BitVec.ofNat 32 (roundTo fmtF32 .rne false (maxNum (fmtF32.value x.toNat) (fmtF32.value y.toNat))).code

/-- Last unit of COLL: the destination is completed. -/
def L.collEnd (j : Job) (c : CmdArgs) (g : Group) (ty op : BitVec 4) : L Unit := do
  let bs ← L.blocks j c g (if op = 3 then [0] else List.range g.n)
  let out := match op.toNat with
    | 0 | 3 => bs.flatMap (·.1)
    | _ => match bs.map (fun b => wordsOf g.cnt b.1) with
      | [] => []
      | b :: l => (l.foldl (fun acc y => (acc.zip y).map (fun p => collOp ty op p.1 p.2)) b).flatMap (fun w => bytesOfNat 4 w.toNat)
  let bad := if op = 0 ∨ op = 3 then bs.zipIdx.flatMap (fun b => b.1.2.map (b.2 * (4 * g.cnt) + ·)) else []
  L.jobWr j false c.d out bad

/-! ### Units -/

/-- Row w of a tile as MSTZ stores it (R190). -/
def L.mstzUnit (j : Job) (c : CmdArgs) (z w : Nat) : L Unit := do
  let t := vget (← L.team).z z
  if t.bad.any (fun e => e / 96 = w) then L.chki 0x20
  L.jobWr j c.asc (c.a + w * c.b) ((List.range 96).flatMap (fun n => bytesOfNat 4 (t.get w n).toNat)) []

/-- How many units a command of a job has; MFAC's are the columns left. -/
def unitCount (t : Team) (j : Job) (i : Instr) (c : CmdArgs) : Nat :=
  let m := t.mat.getD MatState.zero
  match i with
  | .cpy .. => c.b
  | .gthr .. | .sctr .. => c.b2
  | .mcast .. => c.b2 + 1
  | .mstz .. => 16
  | .qenq _ _ _ _ kind => if kind = 5 then 1 else c.a2
  | .coll .. => (groupAt t c.b).n * collPieces (groupAt t c.b) j.out + 1
  | .mma .. => shapeK m.arr.toNat / 32
  | .mfac _ n => n.toNat - m.factor.counter
  | _ => 1

/-- Element k of a CPY; it answers which operands are streams. -/
def L.cpyUnit (j : Job) (c : CmdArgs) (size k : Nat) : L Word := do
  let rd ← L.cpyOpnd j false c.asc c.a size k
  let wr ← L.cpyOpnd j true c.dsc c.d size k
  L.cpyWrite j c.dsc c.d size k wr (← L.cpyRead j c.asc c.a size k rd)
  return (if rd.isSome then 1 else 0) + (if wr.isSome then 2 else 0)

/-- Unit `k` of a command, and what its job keeps of it: what MPIV gives for D, which operands of CPY are streams. -/
def L.unit (j : Job) (i : Instr) (c : CmdArgs) (k : Nat) : L Word := do
  match i with
  | .mcfg _ arr wf af fac => L.setMat (·.config arr wf af fac)
  | .mldb _ _ _ mask =>
    let wf := (← L.mat).wf.toNat
    let l ← L.readBanks (L.readBank j wf c) (maskMacros mask) 0
    L.setMat (·.load l)
  | .mvqb _ _ _ mask =>
    let m ← L.mat
    let l ← L.readBanks (L.readVq j m.leaders m.badLead c) (maskMacros mask) 0
    L.setMat (·.load l)
  | .mldt .. =>
    let l ← L.readLeaders j c.asc c.a
    L.setMat (fun m => { m with leaders := l, badLead := [] })
  | .mswb _ mask => L.setMat (·.swapBanks mask)
  | .mma _ _ _ _ t rows _ => L.mmaGroup j c t.toNat (rows.toNat + 1) k
  | .mzro _ t i32 => L.modTeam (fun x => { x with z := vset x.z t.toNat ⟨i32, [], []⟩ })
  | .mstz _ _ _ t => L.mstzUnit j c t.toNat k
  | .mfst .. =>
    let rows ← L.facLoad j c (List.range 64)
    let t ← L.team
    let (z, f) := facInit t.z rows
    L.modTeam (fun t => { t with z := z })
    L.setMat (fun m => { m with factor := f })
  | .mfac .. => L.facStep
  | .qenq _ _ _ _ kind => L.quantUnit j kind c k
  | .gthr _ _ _ _ w _ _ =>
    let ix ← L.listIndex j c k
    let v ← L.jobRd j c.asc (c.a + ix * elemSize w) (elemSize w)
    L.jobWr j c.dsc (c.d + k * elemSize w) v.1 v.2
  | .sctr _ _ _ _ w _ _ =>
    let ix ← L.listIndex j c k
    let v ← L.jobRd j c.asc (c.a + k * elemSize w) (elemSize w)
    L.jobWr j c.dsc (c.d + ix * elemSize w) v.1 v.2
  | .msnd .. => L.msndUnit j c
  | .coll _ _ _ _ ty op =>
    let g := groupAt (← L.team) c.b
    if k < g.n * collPieces g j.out then L.collSend j c g op k else L.collEnd j c g ty op
  | _ => pure ()
  match i with
  | .mpiv _ _ _ _ kk => L.mpiv kk.toNat (BitVec.ofNat 32 c.a) (BitVec.ofNat 32 c.b)
  | .cpy _ _ _ _ w _ _ => L.cpyUnit j c (elemSize w) k
  | _ => return 0

/-- A unit of a command, or for MCAST the elements of a chunk: how many it did, and what the job keeps of it. -/
def L.units (j : Job) (i : Instr) (c : CmdArgs) (k : Nat) : L (Nat × Word) := do
  match i with
  | .mcast _ _ _ _ w => return (← L.mcastUnit j c (elemSize w) k, 0)
  | _ => return (1, ← L.unit j i c k)

end Sys2Proof.Machine
end

