-- ==== Sys2Proof/Machine/Jobs.lean ====
section
/-! DEFINITION. The engine task scheduler (R346 to R348), the sequencers of job cards (R202, R203), the matrix engine's
holder (R182), stops and cancels (R205, R349), and the meanings of the engines' events. -/

namespace Sys2Proof.Machine

/-! ### The job table (R346, R347) -/

/-- Jobs that hold an entry of a core's table. -/
def State.jobsOn (s : State) (c : BitVec 11) : List Job := s.jobs.filter (fun j => j.core == c && !(j.st == .done && j.observed))

/-- Room for `n` more jobs. -/
def State.jobRoom (s : State) (c : BitVec 11) (n : Nat) : Bool := (s.jobsOn c).length + n ≤ 256

/-- A job enters the table with its edges (R347). -/
def State.submit (s : State) (a : AgentId) (level : BitVec 2) (eng : Eng) (card : Option Card) (cmd : Option (Instr × CmdArgs))
    (reads writes : List Range) (q ent : Option Nat) : State :=
  let before := s.jobs.filter (fun j => j.agent == a && j.st != .done &&
    (overlap j.writes reads || overlap j.reads writes || overlap j.writes writes))
  { s with jobs := s.jobs ++ [⟨s.nextJob, a, coreOf a, level, eng, .wait, card, cmd, reads, writes, before.map (·.id), 0, 0,
             none, false, false, q, ent, false, false, none, none, 0⟩],
           nextJob := s.nextJob + 1 }

/-- Whether a job is over, or gone. -/
def State.jobOver (s : State) (n : Nat) : Bool := match s.job? n with | some j => j.st == .done | none => true

/-- Jobs that a fibre or a fork entry of the team still lists. -/
def Team.listed (t : Team) : List Nat :=
  t.fibres.flatMap (fun (x : Nat × Fibre) => x.2.jobs) ++ t.forks.flatMap (fun (e : ForkEntry) => e.jobs)

/-- Drops observed jobs that no fibre still lists. -/
def State.sweepJobs (s : State) (a : AgentId) : State :=
  let listed := ((s.team? a).map Team.listed).getD []
  { s with jobs := s.jobs.filter (fun j => !(j.agent == a && j.st == .done && j.observed && !listed.contains j.id)) }

/-! ### A job's end (R93, R180, R348) -/

/-- The convergence register of an MMA takes a state while its job stops or goes on (R93). -/
def State.qState (s : State) (j : Job) (st : BitVec 2) : State :=
  match j.q with
  | none => s
  | some k => s.updTeam j.agent (fun t => { t with q := vset t.q k { vget t.q k with st := st } })

/-- The register opens again when its instruction has completed, TARGET kept (R93). -/
def State.qReopen (s : State) (j : Job) : State :=
  match j.q with
  | none => s
  | some k => s.updTeam j.agent (fun t =>
      { t with q := vset t.q k { ConvReg.zero with target := (vget t.q k).target, st := 1 } })

/-- Frees a job's replay-buffer entry. -/
def State.unparkJob (s : State) (n : Nat) : State :=
  { s with cores := s.cores.map (fun k => { k with replay := k.replay.filter (fun p => p.job != some n) }) }

/-- A job becomes DONE; a pivot that it has presented is presented no more. -/
def State.finishJob (s : State) (n : Nat) (err can : Bool) : State :=
  match s.job? n with
  | none => s
  | some j =>
    let s : State := { s with pivs := s.pivs.filter (fun o => !(o.agent == j.agent && o.wave == 1000 + n)) }
    ((s.updJob n (fun j => { j with st := .done, err := err, can := can })).unparkJob n).qReopen j

/-- A command that a batch waits for completes with the trap that is taken at its word (R193, R194). -/
def State.endWait (s : State) (n : Nat) (cls : BitVec 4) (sub : BitVec 8) (aux : Word) : State :=
  (s.finishJob n false false).updJob n (fun j => { j with trap := some (cls, sub, aux) })

/-- A job ends with error status: its record of KIND 2 (R180, R294). -/
def State.failJob (s : State) (n : Nat) (cls : BitVec 4) (sub : BitVec 8) (va : Nat) : State :=
  match s.job? n with
  | none => s
  | some j =>
    let part := ((s.team? j.agent).map (·.part)).getD 0
    let acc : BitVec 8 := if covered j.writes false va 1 then 6 else 5
    ((s.finishJob n true false).dropOutst part j.agent (1000 + j.id) [0] 0).record part
      (errRecord (cls.setWidth 8) sub j.agent (BitVec.ofNat 32 j.idx) va acc)

/-- A job parks at its stopping unit: a replay-buffer entry and a record of KIND 1; none when no entry is free (R291). -/
def State.parkJob (s : State) (n : Nat) (f : Flt) : Option State :=
  match s.job? n with
  | none => none
  | some j =>
    let part := ((s.team? j.agent).map (·.part)).getD 0
    match s.takeEnt j.core (fun e q => ⟨e, q, part, j.agent, 0, [], 0, none, some n, none⟩) with
    | none => none
    | some (s, e, q) =>
      let r : FRec := ⟨BitVec.ofNat 52 f.va, ticketOf j.core e q, 8, f.sub, j.agent, 1, BitVec.ofNat 8 f.acc,
        BitVec.ofNat 8 f.lvl, f.gen, BitVec.ofNat 32 j.idx, 0⟩
      some ((((s.updJob n (fun j => { j with st := .parked })).qState j 3).dropOutst part j.agent (1000 + n) [0] 0).record part r)

/-! ### Running (R202, R203) -/

/-- A register of the forking lane as it stood at the FORK. -/
def Card.reg (c : Card) : Opnd → Word
  | .g n => vget c.g n.toNat
  | .s n => vget c.s n.toNat
  | .a n => (vget c.a n.toNat).1 + (vget c.a n.toNat).2 * BitVec.ofNat 32 c.lane
  | .lid => BitVec.ofNat 32 c.lane
  | _ => 0

/-- Whether a register of the forking lane was poisoned at the FORK (R414). -/
def Card.poisoned (c : Card) : Opnd → Bool
  | .g n => c.bad.contains n.toNat
  | _ => false

/-- Whether a card of an engine may hold a word (R179, R202). -/
def cardLegal (t : Team) (e : Eng) (i : Instr) : Bool :=
  let h := i.fields.h
  let mine := match i with
    | .nop | .eloop .. | .ewait .. => true
    | _ => engOf i == some e
  let dest := match i with
    | .mpiv _ d _ _ _ | .ewait _ d => d == .zr
    | .mma _ _ _ _ _ _ q => q == 0
    | _ => true
  let inWin := (cmdRegs i).all (fun o => match o with | .g n => decide (n.toNat < t.gWin) | _ => true)
  h.guard.isNone && h.la == 0 && mine && dest && inWin

/-- The command word at the job's index (R202). -/
def L.cardWord (c : Card) (e : Eng) (idx : Nat) : L Instr := do
  let va := c.cptr.toNat + 8 * idx
  if 2 ^ 52 ≤ va then L.trap 8 1 va
  let (pa, leaf) ← L.locate .load va 8
  let w ← match pa with
    | some pa => do
      let x ← get
      if x.st.poisoned pa 8 then L.chki (chkiOf pa)
      pure (x.st.readP pa 8)
    | none => do
      L.remoteCall va 0 leaf (.load 8)
  match decode (BitVec.ofNat 64 w) with
  | .error _ => L.trap 9 3 va
  | .ok i => if cardLegal (← L.team) e i then return i else L.trap 9 3 va

/-- MSND's k and m: CRATE's when it names k = 0 (R199). -/
def msndRate (crate : Word) (i : Instr) (c : CmdArgs) : CmdArgs :=
  match i with
  | .msnd .. =>
    if bits c.b2 18 5 = 0 && bits c.b2 23 4 = 0 then
      { c with b2 := setBits (setBits c.b2 18 5 (bits crate.toNat 0 5)) 23 4 (bits crate.toNat 8 4) }
    else c
  | _ => c

/-- Sign-extends a word's number. -/
def sx (n : Nat) : Int := sextN n 32

/-- The next index of a card after a command, through its loop (R203). -/
def Job.advance (j : Job) : Job :=
  match j.loop with
  | some (st, len, cnt, it, dg, ds) =>
    if j.idx + 1 = st + len then
      if it + 1 < cnt then { j with idx := st, elem := 0, loop := some (st, len, cnt, it + 1, dg, ds) }
      else { j with idx := j.idx + 1, elem := 0, loop := none }
    else { j with idx := j.idx + 1, elem := 0 }
  | none => { j with idx := j.idx + 1, elem := 0 }

/-- Whether every word of the job is done. -/
def Job.over (j : Job) : Bool := match j.card with | some c => c.cnt ≤ j.idx | none => 1 ≤ j.idx

/-- The command at hand with its operands, and whether it is a card's first touch of it. -/
def L.current (j : Job) : L (Instr × CmdArgs) := do
  match j.card with
  | none => return j.cmd.getD (.nop, CmdArgs.none)
  | some k =>
    let i ← L.cardWord k j.eng j.idx
    if (cmdRegs i).any k.poisoned then L.chki 8
    let c := cmdArgs k.reg i
    let c := match j.loop with | some (_, _, _, it, dg, ds) => loopArgs i c dg ds it | none => c
    return (i, msndRate (← L.part).crate i c)

/-- One step of a job: a unit, or a control word. It answers the job as it goes on. -/
def L.jobStep (j : Job) : L Job := do
  let (i, c) ← L.current j
  match i with
  | .eloop _ l _ _ cnt =>
    let cards := match j.card with | some k => k.cnt | none => 0
    if j.loop.isSome ∨ l = 0 ∨ cards < j.idx + 1 + l.toNat then L.trap 9 5
    return { j with idx := j.idx + 1, elem := 0, loop := some (j.idx + 1, l.toNat, cnt.toNat + 1, 0, sx c.a, sx c.b) }
  | _ =>
    if j.card.isSome ∧ j.elem = 0 then
      let t ← L.team
      match cmdCheck t (viewNow t) i c with
      | some (cls, sub, a) => L.trap cls sub a
      | none => pure ()
    let p ← L.part
    let j := if j.elem = 0 then { j with out := p.crate } else j
    let left := unitCount (← L.team) j i c
    let (k, isFac) := match i with | .mfac .. => (0, true) | _ => (j.elem, false)
    if left ≤ k then return j.advance
    let (n, v) ← L.units j i c k
    let j := match i with | .mpiv .. | .cpy .. => { j with out := v } | _ => j
    let left' := unitCount (← L.team) j i c
    return if isFac then (if left' = 0 then j.advance else j)
      else if left' ≤ k + n then j.advance else { j with elem := k + n }

/-- The lane state of a job: it acts under its team's agent id. -/
def State.jobLS (s : State) (j : Job) : LS where
  st := s
  st0 := s
  clean := s
  base := s
  agent := j.agent
  wave := 1000 + j.id
  lane := 0
  lvl := j.level.toNat
  job := some j.id
  batch := []
  execs := []
  pc := 0
  npc := 0
  closes := false
  hold := none
  unis := []
  effs := []
  recs := []

/-- How a step of a job left it: going on, over, or held (parked, waiting, or over with an error). -/
inductive Went where
  | on | over | held
  deriving DecidableEq, Repr

/-- One step of a running job (R180, R348). -/
def State.stepJob (s : State) (n : Nat) : State × Went :=
  match s.job? n with
  | none => (s, .held)
  | some j =>
    if j.st != .run then (s, .held)
    else if j.over then (s, .over)
    else match (L.jobStep j) (s.jobLS j) with
      | .ok (j', x) => (x.st.updJob n (fun _ => j'), if j'.over then .over else .on)
      | .error (.trap cls sub addr aux x) =>
        let s := s.keepReads x j.agent
        (if j.wait.isSome then s.endWait n cls sub aux else s.failJob n cls sub addr.toNat, .held)
      | .error (.trapKeep cls sub aux s') =>
        (if j.wait.isSome then s'.endWait n cls sub aux else s'.failJob n cls sub 0, .held)
      | .error (.park f) => match s.parkJob n f with
        | some s' => (s', .held)
        | none => (s, .held)
      | .error (.block _ s' _ _) => (s', .held)
      | .error .interlock => (s, .held)
      | .error .lost => (s, .held)

/-- Steps of a job until it is over or held. -/
def State.runJob (s : State) (n : Nat) : Nat → State × Went
  | 0 => (s, .held)
  | f + 1 =>
    match s.stepJob n with
    | (s, .on) => s.runJob n f
    | r => r

/-- More steps than any job takes: 4,095 words, 8,192 iterations, 2²⁴ + 1 elements. -/
def jobFuel : Nat := 2 ^ 52

/-! ### Starting (R182, R348) -/

/-- Job contexts of an engine (R343 to R345). -/
def contexts : Eng → Nat
  | .copy => 4
  | .fabric => 8
  | _ => 1

/-- Jobs that use an engine of a core: running or parked; of the matrix engine only its holder's (R182). -/
def State.using (s : State) (c : BitVec 11) (e : Eng) : Nat :=
  (s.jobs.filter (fun j => j.core == c && j.eng == e && (j.st == .run || j.st == .parked) &&
    (e != .matrix || (s.core c).holder == some j.agent))).length

/-- The command at which a job stands, where it can be seen. -/
def State.command (s : State) (j : Job) : Option Instr :=
  match j.cmd, j.card with
  | some (i, _), _ => some i
  | none, some c => ((s.team? j.agent).bind (fun t => s.part? t.part)).bind (fun p => peekCard s p c j.idx)
  | none, none => none

/-- Whether the current command of a job is an MMA. -/
def State.runsMma (s : State) (j : Job) : Bool := match s.command j with | some (.mma ..) => true | _ => false

/-- Whether a direct bank load may go on beside the one earlier command of its team that is unfinished, an MMA under way: neither
touches the other's bank (R182, R206). -/
def State.besideMma (s : State) (j : Job) : Bool :=
  let load : Bool := match j.cmd with | some (.mldb .., _) | some (.mvqb .., _) => true | _ => false
  load && (match s.jobs.filter (fun k => k.agent == j.agent && k.eng == .matrix && k.id < j.id && k.st != .done) with
    | [k] => (k.st == .run || k.st == .parked) && s.runsMma k
    | _ => false)

/-- The matrix and quantisation engines run commands in received order (R182, R196): no earlier one is unfinished. -/
def State.inTurn (s : State) (j : Job) : Bool :=
  match j.eng with
  | .matrix => !s.jobs.any (fun k => k.agent == j.agent && k.eng == .matrix && k.id < j.id && k.st != .done)
  | .quant => !s.jobs.any (fun k => k.core == j.core && k.eng == .quant && k.id < j.id && k.st != .done && k.st != .stopped)
  | _ => true

/-- The matrix engine is the team's, or free (R182). -/
def State.mayHold (s : State) (a : AgentId) : Bool :=
  match (s.core (coreOf a)).holder with
  | none => true
  | some b => a == b

/-- The claim: cleared state for a team that has none saved (R182). -/
def State.claim (s : State) (a : AgentId) : State :=
  (s.updCore (coreOf a) (fun k => { k with holder := some a })).updTeam a
    (fun t => { t with mat := some (t.mat.getD MatState.zero) })

/-- Whether a team runs (its jobs may start, resume and go on): it is not swapped by SWPO, and its partition's context is not
being ended (R360). -/
def State.runs (s : State) (a : AgentId) : Bool :=
  match s.team? a with
  | some t => t.resid != .swappedBySwpo && !t.doomed
  | none => false

/-- Whether a job may start now (R348). -/
def State.canStart (s : State) (j : Job) : Bool :=
  j.st == .ready && s.runs j.agent && !(s.core j.core).switching &&
  ((s.using j.core j.eng < contexts j.eng && s.inTurn j) || s.besideMma j) &&
  (j.eng != .matrix || (s.mayHold j.agent && ((s.team? j.agent).map (·.resid == .resident)).getD false))

/-! ### Stopping and cancelling (R205, R343, R349) -/

/-- Element size of a job's current copy command, for the chunk at which it stops; 0 for other commands. -/
def State.chunkSize (s : State) (j : Job) : Nat :=
  match s.command j with
  | some (.cpy _ _ _ _ w _ _) | some (.gthr _ _ _ _ w _ _) | some (.sctr _ _ _ _ w _ _) | some (.mcast _ _ _ _ w) => elemSize w
  | _ => 0

/-- A job stands at its engine's stopping unit: for copies, a 4 KiB chunk boundary (R343). -/
def State.atStop (s : State) (j : Job) : Bool :=
  let n := s.chunkSize j
  n = 0 || j.elem = 0 || j.elem * n / 4096 ≠ (j.elem - 1) * n / 4096

/-- Runs a job on to its stopping unit. -/
def State.runToStop (s : State) (n : Nat) : Nat → State
  | 0 => s
  | f + 1 =>
    match s.job? n with
    | none => s
    | some j =>
      if j.st != .run || s.atStop j then s
      else match s.stepJob n with
        | (s, .on) => s.runToStop n f
        | (s, .over) => s.finishJob n false false
        | (s, .held) => s

/-- Whether a job waits at a stream buffer that is empty or full: there it may be stopped amid a chunk (R246). -/
def State.atStream (s : State) (j : Job) : Bool :=
  match (L.jobStep j) (s.jobLS j) with
  | .error (.block .slot _ _ _) => true
  | _ => false

/-- Whether a job comes to its stopping unit now: no access amid its chunk has to wait (R343, R349). -/
def State.stopsNow (s : State) (n : Nat) : Bool :=
  let t := s.runToStop n 4096
  match t.job? n with
  | none => true
  | some j => j.st != .run || t.atStop j || t.atStream j

/-- Whether every job of a team does. -/
def State.teamStops (s : State) (a : AgentId) : Bool := (s.jobs.filter (·.agent == a)).all (fun j => s.stopsNow j.id)

/-- Pre-emption or swap stops a job (R348). -/
def State.stopJob (s : State) (n : Nat) : State :=
  let s := s.runToStop n 4096
  match s.job? n with
  | none => s
  | some j =>
    if j.st == .run || j.st == .parked then s.updJob n (fun j => { j with st := .stopped, wasParked := j.st == .parked })
    else s

/-- The team runs again: its stopped jobs resume where they stopped once their engine has a context for them, a matrix one once the
team holds the engine again; one that was parked is so again then, until RSUM releases it (R182, R343 to R345, R348). -/
def State.resumeJobs (s : State) (a : AgentId) : State :=
  { s with jobs := s.jobs.map (fun j => if j.agent == a && j.st == .stopped then { j with st := .ready } else j) }

/-- The words that a job has still to run from where it stands, as far as they can be seen, with their operands: a loop's body as often as
it runs again (R203). None stands for a word that cannot be seen. -/
def ahead (s : State) (p : Partition) (k : Card) (j : Job) : Nat → List (Option (Instr × CmdArgs × Job))
  | 0 => []
  | f + 1 =>
    if j.over then []
    else match peekAt s p k j.idx with
      | .bad => []
      | .unseen => [none]
      | .word i =>
        let c := cmdArgs k.reg i
        let c := match j.loop with | some (_, _, _, it, dg, ds) => loopArgs i c dg ds it | none => c
        match i with
        | .eloop _ l _ _ cnt => if j.loop.isSome then []
          else ahead s p k { j with idx := j.idx + 1, elem := 0, loop := some (j.idx + 1, l.toNat, cnt.toNat + 1, 0, sx c.a, sx c.b) } f
        | i => some (i, c, j) :: ahead s p k j.advance f

/-- The commands that a job has still to run or to finish. -/
def State.aheadOf (s : State) (j : Job) : List (Option (Instr × CmdArgs × Job)) :=
  match j.cmd, j.card, (s.team? j.agent).bind (fun t => s.part? t.part) with
  | some (i, c), _, _ => [some (i, c, j)]
  | none, some k, some p => ahead s p k j jobFuel
  | _, _, _ => []

/-- The groups of a job's COLLs that are not complete (R398). -/
def State.collGroups (s : State) (j : Job) : List Group :=
  match s.team? j.agent with
  | none => []
  | some t => ((s.aheadOf j).filterMap (fun x => match x with
      | some (.coll .., c, _) => some (groupAt t c.b)
      | _ => none)).dedup

/-- Whether a job runs a COLL now, begun and not complete. -/
def State.inColl (s : State) (j : Job) : Bool :=
  j.st != .wait && (j.st != .ready || j.elem ≠ 0) && (match s.command j with | some (.coll ..) => true | _ => false)

/-- The write footprint of a cancelled COLL holds unspecified values (R200): free bytes. -/
def State.collScramble (s : State) (j : Job) : State :=
  j.writes.foldl (fun s r =>
    match (L.jobWr j r.scratch r.lo ((List.range r.len).map (fun n => Config.cancelledByte (s.tick + n))) []) (s.jobLS j) with
    | .ok (_, x) => x.st
    | .error _ => s) s

/-- A cancel of the job's level (R205, R348); a job that has not started completes without any effect. -/
def State.cancelJob (s : State) (n : Nat) : State :=
  let s := s.runToStop n 4096
  match s.job? n with
  | none => s
  | some j =>
    if j.st == .done then s
    else
      let s := if s.inColl j then s.collScramble j else s
      s.finishJob n false true

/-- MSTAT of a team (R340). -/
def State.mstatOf (s : State) (a : AgentId) : Word :=
  match s.team? a with
  | none => 0
  | some t =>
    if (s.core (coreOf a)).holder ≠ some a then 0
    else
      let m := t.mat.getD MatState.zero
      let fcol := if m.fac then m.factor.counter else 0
      let held := s.jobs.find? (fun j => j.agent == a && j.eng == .matrix && (j.st == .parked || j.st == .stopped))
      let cur : Option (Instr × Nat) := held.bind (fun j => (s.command j).map (fun i => (i, j.elem)))
      match cur with
      | some (.mma _ _ _ _ z rows q, next) =>
        BitVec.ofNat 32 (2 ^ 31 + z.toNat * 2 ^ 28 + rows.toNat * 2 ^ 24 + q.toNat * 2 ^ 21 + next * 2 ^ 8 + fcol)
      | _ => BitVec.ofNat 32 fcol

/-! ### The events -/

/-- JOB_READY (R348): every job it has an edge from is DONE. -/
def execJobReady (n : Nat) (s : State) : Out :=
  .next (match s.job? n with
    | some j => if j.st == .wait && j.edges.all s.jobOver then s.updJob n (fun j => { j with st := .ready }) else s
    | none => s)

/-- JOB_START (R348): a context is free; the job starts at its first command, or comes back to it parked. -/
def execJobStart (n : Nat) (s : State) : Out :=
  .next (match s.job? n with
    | some j =>
      if s.canStart j then
        let s := if j.eng == .matrix then s.claim j.agent else s
        s.updJob n (fun j => { j with st := if j.wasParked then .parked else .run, wasParked := false })
      else s
    | none => s)

/-- A copy job's chunk has had its turn (R343). -/
def State.tookTurn (s : State) (n : Nat) : State :=
  match s.job? n with
  | some j => if j.eng == .copy then s.updCore j.core (fun k => { k with turn := n }) else s
  | none => s

/-- One unit of a running job. -/
def State.unitEvent (s : State) (n : Nat) : State :=
  match s.stepJob n with
  | (s, .over) => (s.finishJob n false false).tookTurn n
  | (s, _) => s.tookTurn n

/-- JOB_COMPLETION (R348): the rest of the job's commands are done, and its completion is recorded; a job that parks, waits
or fails on the way stays at that point. -/
def execJobCompletion (n : Nat) (s : State) : Out :=
  .next (match s.runJob n jobFuel with
    | (s, .over) => s.finishJob n false false
    | (s, _) => s)

/-- MMA_GROUP_COMMIT (R339): one K group of the running MMA into every row. -/
def execMmaGroupCommit (n : Nat) (s : State) : Out := .next (s.unitEvent n)

/-- The jobs of one engine of a core that have yet to stop. -/
def State.toStop (s : State) (c : BitVec 11) (e : Eng) : List Nat :=
  (s.jobs.filter (fun j => j.core == c && j.eng == e && (j.st == .run || j.st == .parked))).map (·.id)

/-- ENGINE_STOP_ACK (R364): the engine's jobs stop at their units, and it reports so. -/
def execEngineStopAck (c : BitVec 11) (e : Eng) (s : State) : Out :=
  .next (if (s.core c).awaiting.contains e then
      ((s.toStop c e).foldl (fun s n => s.stopJob n) s).updCore c (fun k => { k with awaiting := k.awaiting.erase e })
    else s)

end Sys2Proof.Machine
end

