-- ==== Sys2Proof/Machine/EngineWords.lean ====
section
/-! DEFINITION. FORK and RDV (R94, R95) and the meanings of group 6 as fibres execute them (R177 to R204). -/

namespace Sys2Proof.Machine

/-! ### Issue (R179, R180) -/

/-- D of an MMA is not read for an unscaled activation format (R189). -/
def readOnly (s : State) (t : Team) (i : Instr) (c : CmdArgs) : CmdArgs :=
  match i with
  | .mma .. => if scaledFmt (viewAt s t s.nextJob).af then c else { c with dsc := false, d := 0 }
  | _ => c

/-- The registers that a command reads: those it names, but D of an MMA for an unscaled format (R189). -/
def cmdReads (s : State) (t : Team) (i : Instr) : List Opnd :=
  match i with
  | .mma _ _ a b _ _ _ => if scaledFmt (viewAt s t s.nextJob).af then cmdRegs i else adrRegs a ++ [b]
  | i => cmdRegs i

/-- A matrix command waits while an earlier one of the team stands in a card where it cannot be seen (log 34). -/
def L.known (i : Instr) : L Unit := do
  let x ← get
  if engOf i == some .matrix && (pendingCmds x.st (← L.team) x.st.nextJob).any Option.isNone then L.block .engine

/-- Reads a command's operands. -/
def L.cmdRead (i : Instr) : L CmdArgs := do
  L.checkRegs (cmdRegs i)
  L.known i
  (cmdReads (← get).st (← L.team) i).forM (fun o => discard (L.rdW o))
  let x ← get
  let rd (o : Opnd) : Word := match L.rdW o x with | .ok (v, _) => v | .error _ => 0
  return readOnly x.st (← L.team) i (msndRate (← L.part).crate i (cmdArgs rd i))

/-- Raises a refusal. -/
def L.refuse (b : Bad) : L Unit :=
  match b with
  | some (cls, sub, a) => L.trap cls sub a
  | none => pure ()

/-- Claims the matrix engine, or blocks while another team holds it (R182). -/
def L.engine : L Unit := do
  let x ← get
  if !x.st.mayHold x.agent then L.block .engine
  L.modSt (·.claim x.agent)

/-- The command becomes a job of one command; the issue is a release (R180). -/
def L.issue (i : Instr) (c : CmdArgs) (q : Option Nat) : L Unit := do
  let x ← get
  if !x.st.jobRoom (coreOf x.agent) 1 then L.block .jobTable
  L.release 0
  let t ← L.team
  let (r, w) := footprint t (viewAt x.st t x.st.nextJob) i c
  L.modSt (·.submit x.agent (BitVec.ofNat 2 x.lvl) ((engOf i).getD .matrix) none (some (i, c)) r w q none)

/-- The fibre has issued a job. -/
def L.owe (n : Nat) : L Unit := L.modFibre (fun f => { f with jobs := f.jobs ++ [n] })

/-- The checks that every executing lane of a batch command makes (R179, R180). -/
def L.batchCheck (i : Instr) : L CmdArgs := do
  let c ← L.cmdRead i
  (cmdRegs i).forM (fun o => do L.sameInAll (← L.rdW o) (L.rdW o))
  L.engine
  let x ← get
  let t0 := (x.st0.team? x.agent).getD (← L.team)
  L.refuse (cmdCheck t0 (viewAt x.st0 t0 x.st0.nextJob) i c)
  return c

/-- Whether the lane is the batch's first executing one. -/
def L.isHead : L Bool := do
  let x ← get
  return x.execs.head? == some x.lane

/-- A batch command that does not wait: one job for the batch, owed by each of its fibres. -/
def batchWord (i : Instr) (h : Hdr) (s : State) : Out :=
  runWord i h.guard .once (fun _ => id) (fun _ => do
    let c ← L.batchCheck i
    if ← L.isHead then L.issue i c none
    L.owe ((← get).st.nextJob - 1)) s

/-- Waits until every earlier matrix command of the team has completed. -/
def L.afterMatrix : L Unit := do
  let x ← get
  if x.st.jobs.any (fun j => j.agent == x.agent && j.eng == .matrix && j.st != .done) then L.block .engine

/-- A lane command: one job for each executing lane, in order. -/
def laneCmd (i : Instr) (h : Hdr) (s : State) : Out :=
  laneWord i h .order (do
    let c ← L.cmdRead i
    let t ← L.team
    L.refuse (cmdCheck t (viewNow t) i c)
    L.issue i c none
    L.owe ((← get).st.nextJob - 1)) s

/-! ### FORK and RDV -/

/-- The eight doublewords of a header, as one number (R94). -/
def L.header (base : Nat) : Nat → L Nat
  | 0 => return 0
  | n + 1 => do
    if 2 ^ 52 ≤ base then L.pageTrap 1 base 0
    let v ← L.load .load base 8
    let r ← L.header (base + 8) n
    return v + 2 ^ 64 * r

/-- Headers of consecutive cards. -/
def L.headers (base : Nat) : Nat → L (List Nat)
  | 0 => return []
  | n + 1 => do
    let v ← L.header base 8
    let r ← L.headers (base + 64) n
    return v :: r

/-- A region of a header: first page and pages (R201). -/
def cardRegion (hd byte : Nat) : Nat × Nat := (bits hd 24 40 + bits hd (8 * byte + 8) 16, bits hd (8 * byte) 8 + 1)

/-- The engine of a class number. -/
def engOfNum : Nat → Eng
  | 0 => .matrix | 1 => .copy | 2 => .quant | _ => .fabric

/-- A header refused (R201). -/
def headerBad (pos hd : Nat) : Bool :=
  let nr := bits hd 4 4
  let nw := bits hd 8 4
  let slot (first n : Nat) : Bool := (List.range 8).any (fun k =>
    if k < n then (let (p, c) := cardRegion hd (first + 3 * k); 2 ^ 40 < p + c) else bits hd (8 * (first + 3 * k)) 24 ≠ 0)
  bits hd 0 2 ≠ pos || bits hd 2 2 ≠ 0 || bits hd 12 12 = 0 || 8 < nr || 8 < nw || slot 16 nr || slot 40 nw ||
  bits hd 64 3 ≠ 0 || bits hd 116 12 ≠ 0

/-- Byte ranges of a header's regions. -/
def headerRanges (hd first n : Nat) : List Range :=
  (List.range n).map (fun k => let (p, c) := cardRegion hd (first + 3 * k); ⟨false, p * 4096, c * 4096⟩)

/-- FORK (R94). -/
def execFork (h : Hdr) (d a : Opnd) (set : BitVec 4) (s : State) : Out :=
  laneWord (.fork h d a set) h .order (do
    L.checkPage a [d]
    let base ← L.pageAddr 0 a
    if base % 8 ≠ 0 then L.pageTrap 2 base 0
    let engs := maskMacros set
    let hds ← L.headers base engs.length
    if (engs.zip hds).any (fun x => headerBad x.1 x.2) ∨ base % 64 ≠ 0 then L.trap 9 1 base
    let t ← L.team
    let x ← get
    match (List.range 64).find? (fun e => !t.forks.any (·.ent == e)) with
    | none => L.trap 9 2 base
    | some e =>
      if !x.st.jobRoom (coreOf x.agent) engs.length then L.block .jobTable
      L.release 0
      L.landedAll
      let f ← L.fibre
      let w ← L.wave
      let first := x.st.nextJob
      (engs.zip hds).forM (fun y => do
        L.effect ⟨true, base, y.2⟩
        let card : Card := ⟨BitVec.ofNat 52 (y.2 / 2 ^ 64), bits y.2 12 12, f.regs.g, w.s, w.a, x.lane,
          (f.regs.bad.filter (!·.1)).map (·.2)⟩
        L.modSt (·.submit x.agent (BitVec.ofNat 2 x.lvl) (engOfNum y.1) (some card) none (headerRanges y.2 16 (bits y.2 4 4))
          (headerRanges y.2 40 (bits y.2 8 4)) none (some e)))
      let entry : ForkEntry := ⟨e, t.forkSeq, (List.range engs.length).map (first + ·)⟩
      L.modTeam (fun t => { t with
        forks := t.forks ++ [entry], forkSeq := if t.forkSeq = 0x3FF_FFFF then 1 else t.forkSeq + 1 })
      L.wrW d (t.forkSeq ++ BitVec.ofNat 6 e)) s

/-- The bit of a job's engine in a status word (R95). -/
def engBit : Eng → Word
  | .matrix => 1 | .copy => 2 | .quant => 4 | .fabric => 8

/-- ERR and CAN bits of finished jobs. -/
def statusOf (l : List Job) : Word :=
  l.foldl (fun (w : Word) j => w ||| (if j.err then engBit j.eng else 0) ||| (if j.can then engBit j.eng <<< 4 else 0)) 0

/-- Jobs of a list of numbers. -/
def State.jobsOf (s : State) (l : List Nat) : List Job := s.jobs.filter (fun j => l.contains j.id)

/-- Marks jobs observed. -/
def State.observe (s : State) (a : AgentId) (l : List Nat) : State :=
  ({ s with jobs := s.jobs.map (fun j => if l.contains j.id then { j with observed := true } else j) } : State).sweepJobs a

/-- The fibre that observes jobs has their writes to other packages behind it: a release at FABRIC awaits them too (R254, R255). -/
def L.meetJobs (l : List Nat) : L Unit := do
  let x ← get
  let mids := (x.st.sent.filter (fun m => (m.job.map l.contains).getD false && !m.heard)).map (·.mid)
  L.modFibre (fun f => { f with remoteWrites := f.remoteWrites ++ mids })
  L.modSt (·.observe x.agent l)

/-- RDV (R95). -/
def execRdv (h : Hdr) (d a : Opnd) (s : State) : Out :=
  runWord (.rdv h d a) h.guard .own (fun _ => id) (fun _ => do
    L.checkRegs [a, d]
    let hd ← L.rdW a
    let t ← L.team
    modify (fun x => { x with closes := true })
    match t.forks.find? (fun e => e.ent = bits hd.toNat 0 6 ∧ e.seq = hd.extractLsb' 6 26) with
    | none => L.wrW d 0x100
    | some e =>
      let x ← get
      if !e.jobs.all x.st.jobOver then L.block .rdv
      L.wrW d (statusOf (x.st.jobsOf e.jobs))
      L.modTeam (fun t => { t with forks := t.forks.filter (·.ent != e.ent) })
      L.meetJobs e.jobs) s

/-! ### The matrix engine -/

/-- MCFG (R183). -/
def execMcfg (h : Hdr) (arr : BitVec 2) (wf af : BitVec 3) (fac : Bool) (s : State) : Out :=
  batchWord (.mcfg h arr wf af fac) h s
/-- MLDB (R185). -/
def execMldb (h : Hdr) (a b : Opnd) (mask : BitVec 4) (s : State) : Out := batchWord (.mldb h a b mask) h s
/-- MVQB (R186). -/
def execMvqb (h : Hdr) (a b : Opnd) (mask : BitVec 4) (s : State) : Out := batchWord (.mvqb h a b mask) h s
/-- MLDT (R187). -/
def execMldt (h : Hdr) (a : Opnd) (s : State) : Out := batchWord (.mldt h a) h s
/-- MSWB (R188). -/
def execMswb (h : Hdr) (mask : BitVec 4) (s : State) : Out := batchWord (.mswb h mask) h s
/-- MZRO (R190). -/
def execMzro (h : Hdr) (t : BitVec 3) (i32 : Bool) (s : State) : Out := batchWord (.mzro h t i32) h s
/-- MSTZ (R190). -/
def execMstz (h : Hdr) (a b : Opnd) (t : BitVec 3) (s : State) : Out := batchWord (.mstz h a b t) h s
/-- MFST (R192). -/
def execMfst (h : Hdr) (a b : Opnd) (s : State) : Out := batchWord (.mfst h a b) h s

/-- MMA is presented through qK; the last presentation issues it (R93, R189). -/
def execMma (h : Hdr) (d a b : Opnd) (t : BitVec 3) (rows : BitVec 4) (q : BitVec 3) (s : State) : Out :=
  let i : Instr := .mma h d a b t rows q
  laneWord i h .order (do
    if !(vget (← L.fibre).sig q.toNat) then L.trap 0 0x0F
    L.modFibre (fun f => { f with sig := vset f.sig q.toNat false })
    let c ← L.cmdRead i
    L.engine
    let x ← get
    let tm ← L.team
    L.refuse (cmdCheck tm (viewAt x.st tm x.st.nextJob) i c)
    let r := vget tm.q q.toNat
    if r.presented ≠ 0 ∧ (r.opw ≠ encode i ∨ r.caps ≠ some c) then L.trap 0 0x0F
    let r := { r with presented := r.presented + 1, opw := encode i, caps := some c }
    L.owe (presentMark + q.toNat)
    if r.presented = r.need then
      L.issue i c (some q.toNat)
      let n := (← get).st.nextJob - 1
      let real (f : Fibre) : Fibre := { f with jobs := f.jobs.map (fun k => if k = presentMark + q.toNat then n else k) }
      L.modTeam (fun t => { t with q := vset t.q q.toNat { r with st := 2, job := some n },
                                   fibres := t.fibres.map (fun y => (y.1, real y.2)) })
    else L.modTeam (fun t => { t with q := vset t.q q.toNat r })) s

/-- The element that MRDZ captures (R191). -/
def L.capMrdz (d a : Opnd) (t : BitVec 3) : L Cap := do
  L.checkRegs [a, d]
  if (← L.team).tiles ≤ t.toNat then L.trap 1 1
  let e := (← L.rdW a).toNat
  if 1536 ≤ e then L.trap 9 7
  return { Cap.zero with av := BitVec.ofNat 128 e, bv := BitVec.ofNat 128 (← get).st.nextJob }

/-- MRDZ performed: once every command issued before it that writes the tile has completed (R191). -/
def perfMrdz (t : BitVec 3) (c : Cap) : L (QWord × BitVec 4) := do
  let tm ← L.team
  let x ← get
  if anyWrites t.toNat (viewNow tm) (pendingCmds x.st tm c.bv.toNat) then L.block .tile
  let z := vget tm.z t.toNat
  let e := c.av.toNat
  if z.bad.contains e then L.chki 0x20
  return ((spGet 0 z.e e).setWidth 128, 0)

/-- MRDZ (R191). -/
def execMrdz (h : Hdr) (d a : Opnd) (t : BitVec 3) (s : State) : Out :=
  longWord (.mrdz h d a t) h .each (L.capMrdz d a t) (perfMrdz t) s

/-- The command that the batch has issued and waits for, if it has. -/
def L.waited : L (Option Job) := do
  let x ← get
  let key : Option (Nat × Nat × Addr) := x.execs.head?.map (fun l => (x.wave, l, x.pc))
  return x.st0.jobs.find? (fun j => j.agent == x.agent && j.wait.isSome && j.wait == key)

/-- A direct command whose fibres wait for it (R193, R194): it is issued for the batch as a job of the matrix engine, and its
outcome is met at the word: a refusal in every lane, any other trap in the first (log 30), or the end, which `take` gives each
lane. Each fibre that executes it has issued it: the job keeps its entry until EWAIT observes it (R204, R346). -/
def waitWord (i : Instr) (h : Hdr) (why : Wait) (d : List Opnd) (take : Job → L Unit) (s : State) : Out :=
  runWord i h.guard .once (fun _ => id) (fun _ => do
    match ← L.waited with
    | none =>
      let c ← L.batchCheck i
      L.checkRegs d
      if ← L.isHead then
        L.issue i c none
        let x ← get
        let n := x.st.nextJob - 1
        L.modSt (·.updJob n (fun j => { j with wait := some (x.wave, x.lane, x.pc) }))
        L.modSt (fun s => x.execs.foldl (fun s l => s.updFibre x.agent x.wave l (fun f => { f with jobs := f.jobs ++ [n] })) s)
        L.blockHere why
    | some j =>
      if j.st != .done then L.block why
      match j.trap with
      | some (cls, sub, aux) => if (cls = 9 && sub = 7) || (← L.isHead) then L.trap cls sub 0 aux
      | none => take j
      if (← get).execs.getLast? == some (← get).lane then
        L.modSt (·.updJob j.id (fun j => { j with wait := none }))) s

/-- MFAC (R193): the fibres wait; the trap of a column is taken at the word, after the columns done. -/
def execMfac (h : Hdr) (n : BitVec 7) (s : State) : Out := waitWord (.mfac h n) h .more [] (fun _ => pure ()) s

/-- MPIV (R194). -/
def execMpiv (h : Hdr) (d a b : Opnd) (k : BitVec 6) (s : State) : Out :=
  waitWord (.mpiv h d a b k) h .mpiv [d] (fun j => L.wrW d j.out) s

/-- The checks of MRNM and MGRW: they take their place behind the team's earlier commands (log 13). -/
def L.facRead (i : Instr) : L Factor := do
  L.known i
  L.engine
  let x ← get
  let t ← L.team
  L.refuse (cmdCheck t (viewAt x.st t x.st.nextJob) i CmdArgs.none)
  L.afterMatrix
  return (← L.mat).factor

/-- The factor record of column n (R195). -/
def Factor.record (f : Factor) (n : Nat) : Word :=
  match f.map.find? (·.1 == n) with
  | some (_, ext, core, hist, row) => BitVec.ofNat 32 (2 ^ 31 + (if ext then 2 ^ 30 else 0) + core * 2 ^ 16 + hist * 2 ^ 8 + row)
  | none => 0

/-- MRNM (R195). -/
def execMrnm (h : Hdr) (d a : Opnd) (s : State) : Out :=
  laneWord (.mrnm h d a) h .order (do
    L.checkRegs [a, d]
    let n := bits (← L.rdW a).toNat 0 6
    L.wrW d ((← L.facRead (.mrnm h d a)).record n)) s

/-- MGRW (R195). -/
def execMgrw (h : Hdr) (d : Opnd) (s : State) : Out :=
  laneWord (.mgrw h d) h .order (do
    L.checkReg d
    L.wrD d ((← L.facRead (.mgrw h d)).growth.setWidth 64) 2) s

/-! ### Quantisation, copies, messages -/

/-- QENQ (R196). -/
def execQenq (h : Hdr) (d a b : Opnd) (kind : BitVec 4) (s : State) : Out :=
  laneWord (.qenq h d a b kind) h .order (do
    let i : Instr := .qenq h d a b kind
    let c ← L.cmdRead i
    let t ← L.team
    L.refuse (cmdCheck t (viewNow t) i c)
    if c.a2 ≠ 0 then
      let x ← get
      if 16 ≤ ((x.st.jobsOn (coreOf x.agent)).filter (fun j => j.eng == .quant && j.cmd.isSome && j.st != .done)).length then
        L.block .queue
      L.issue i c none
      L.owe ((← get).st.nextJob - 1)) s

/-- CPY (R197). -/
def execCpy (h : Hdr) (d a b : Opnd) (c : BitVec 4) (dsc ssc : Bool) (s : State) : Out := laneCmd (.cpy h d a b c dsc ssc) h s
/-- GTHR (R197). -/
def execGthr (h : Hdr) (d a b : Opnd) (c : BitVec 4) (dsc ssc : Bool) (s : State) : Out := laneCmd (.gthr h d a b c dsc ssc) h s
/-- SCTR (R197). -/
def execSctr (h : Hdr) (d a b : Opnd) (c : BitVec 4) (dsc ssc : Bool) (s : State) : Out := laneCmd (.sctr h d a b c dsc ssc) h s
/-- MCAST (R198). -/
def execMcast (h : Hdr) (d a b : Opnd) (c : BitVec 4) (s : State) : Out := laneCmd (.mcast h d a b c) h s
/-- MSND (R199). -/
def execMsnd (h : Hdr) (a b : Opnd) (ssc : Bool) (s : State) : Out := laneCmd (.msnd h a b ssc) h s
/-- COLL (R200). -/
def execColl (h : Hdr) (d a b : Opnd) (ty op : BitVec 4) (s : State) : Out := laneCmd (.coll h d a b ty op) h s

/-! ### PROBE (R172) -/

/-- Whether a message of a collective has still to go to a package that PROBE of a package number names: to a member of it, by a unit that
is still to be done. A member table that cannot be read here may name any (log 94). -/
def State.collToward (s : State) (t : Team) (j : Job) (c : CmdArgs) (op : BitVec 4) (k : Nat) : Bool :=
  let g := groupAt t c.b
  let goes (r : Nat) : Bool := j.elem < (r + 1) * collPieces g j.out && r ≠ g.rank && !(op = 3 && g.rank ≠ 0)
  match (s.part? t.part).bind (fun p => tableOf s p g.table g.n) with
  | some l => l.zipIdx.any (fun m => goes m.2 && !s.isLocal m.1.1 && (k = 0xFFF || m.1.1 = k))
  | none => (List.range g.n).any goes

/-- Whether an unfinished job has still to send a message that PROBE of a package number awaits; a word of a card that cannot be seen may
send one. -/
def State.toSend (s : State) (t : Team) (k : Nat) (j : Job) : Bool :=
  j.agent == t.agent && j.eng == .fabric && j.st != .done && (s.aheadOf j).any (fun x => match x with
    | some (.msnd .., c, _) => !s.isLocal (bits c.b 16 12) && (k = 0xFFF || bits c.b 16 12 = k)
    | some (.coll _ _ _ _ _ op, c, j) => s.collToward t j c op k
    | some _ => false
    | none => true)

/-- Whether a fragment that PROBE of a package number awaits is on its way, or still to be sent by a job (R172). -/
def State.probeWaits (s : State) (t : Team) (k : Nat) : Bool :=
  k ≠ s.pkg.toNat && (t.onPath.any (fun x => x.2.2 ≠ 0 && (k = 0xFFF || x.1.toNat = k)) || s.jobs.any (s.toSend t k))

/-- PROBE (R172). -/
def execProbe (h : Hdr) (a : Opnd) (s : State) : Out :=
  laneWord (.probe h a) h .own (do
    L.checkReg a
    let k := bits (← L.rdW a).toNat 0 12
    let t ← L.team
    if (← get).st.probeWaits t k then L.block .probe) s

/-- ELOOP executed by a fibre: ENGINE DIRECT (R203). -/
def execEloop (h : Hdr) (l : BitVec 8) (a b : Opnd) (count : BitVec 13) (s : State) : Out :=
  laneWord (.eloop h l a b count) h .each (do
    L.checkRegs [a, b]
    L.trap 9 4) s

/-- EWAIT executed by a fibre (R204): an MMA that it has presented is waited for from its presentation on. -/
def execEwait (h : Hdr) (d : Opnd) (s : State) : Out :=
  laneWord (.ewait h d) h .own (do
    L.checkReg d
    let f ← L.fibre
    let x ← get
    if f.jobs.any (presentMark ≤ ·) || !f.jobs.all x.st.jobOver then L.block .ewait
    L.wrW d (statusOf (x.st.jobsOf f.jobs))
    L.modFibre (fun f => { f with jobs := [] })
    L.meetJobs f.jobs) s

end Sys2Proof.Machine
end

