-- ==== Sys2Proof/Machine/Interval.lean ====
section
/-! DEFINITION. The meanings of group 3: intervals (R67 to R70, R136 to R144). -/

namespace Sys2Proof.Machine

/-- An interval's bounds, exact (R67). -/
abbrev Iv := FV × FV

/-- A zero bound is +0. -/
def plusZero (v : FV) : FV := if v.isZero then .fin false 0 0 else v

/-- An interval as its bits hold it: lo in the low half (R67). `x64` chooses the format. -/
def rawIv (x64 : Bool) (q : QWord) : Iv :=
  let w := if x64 then 64 else 32
  let f := fmtOf x64
  (plusZero (f.value (elemBits q.toNat w 0)), plusZero (f.value (elemBits q.toNat w 1)))

/-- What an interval breaks of R67, if anything. -/
def ivBad (v : Iv) : Option (BitVec 8) :=
  if v.1.isNan || v.2.isNan then some 2
  else if v.2.lt v.1 || v.1 == .inf false || v.2 == .inf true then some 1
  else none

/-- A bound's code rounded outward (R68); zero is +0. -/
def boundCode (x64 : Bool) (rm : Rm) (v : FV) : Nat :=
  let f := fmtOf x64
  let c := (roundTo f rm false v).code
  if c = f.signBit then 0 else c

/-- The bits of an interval from the codes of its bounds. -/
def packIv (x64 : Bool) (lo hi : Nat) : QWord := BitVec.ofNat 128 (lo + hi * 2 ^ (if x64 then 64 else 32))

/-- The bits of an interval with exact bounds, rounded outward. -/
def ivBits (x64 : Bool) (v : Iv) : QWord := packIv x64 (boundCode x64 .rdn v.1) (boundCode x64 .rup v.2)

/-- The tag of an interval format. -/
def ivTag (x64 : Bool) : BitVec 4 := if x64 then 4 else 3

/-- The registers of an interval operand. -/
def ivRegs (x64 : Bool) (o : Opnd) : List Opnd := regRun o (if x64 then 2 else 1)

namespace L

/-- Windows and tags of an interval operand (R59). -/
def checkIv (x64 : Bool) (o : Opnd) : L Unit := do
  checkRegs (ivRegs x64 o)
  (ivRegs x64 o).forM (tagIn [ivTag x64])

/-- The bits of an interval operand. -/
def rdIvBits (x64 : Bool) (o : Opnd) : L QWord := do return BitVec.ofNat 128 (← rdFRun (ivRegs x64 o))

/-- An interval under R67, negated if asked (R137). -/
def ivOf (x64 neg : Bool) (q : QWord) : L Iv := do
  let v := rawIv x64 q
  match ivBad v with
  | some sub => trap 4 sub
  | none => return if neg then (plusZero v.2.negate, plusZero v.1.negate) else v

/-- Reads an interval operand. -/
def rdIv (x64 neg : Bool) (o : Opnd) : L Iv := do ivOf x64 neg (← rdIvBits x64 o)

/-- Writes an interval's bits: one register, or a pair with both tags. -/
def wrIvBits (x64 : Bool) (d : Opnd) (q : QWord) : L Unit := do
  match d with
  | .f n =>
    if x64 then
      wrF n.toNat (q.extractLsb' 0 64) 4
      wrF (n.toNat + 1) (q.extractLsb' 64 64) 4
    else wrF n.toNat (q.extractLsb' 0 64) 3
  | _ => pure ()

/-- A word of two intervals: A's window and tags, then B's (DESIGN CHOICE, log 97). -/
def iv2 (x : XOpt) (f : Iv → Iv → L Iv) (d a b : Opnd) : L Unit := do
  checkRegs (ivRegs x.x64 d)
  checkIv x.x64 a
  checkIv x.x64 b
  let u ← rdIv x.x64 x.negA a
  let v ← rdIv x.x64 x.negB b
  wrIvBits x.x64 d (ivBits x.x64 (← f u v))

/-- A word of one interval. -/
def iv1 (x : XOpt) (f : Iv → L Iv) (d a : Opnd) : L Unit := do
  checkRegs (ivRegs x.x64 d)
  checkIv x.x64 a
  wrIvBits x.x64 d (ivBits x.x64 (← f (← rdIv x.x64 x.negA a)))

/-- A point operand (R137). -/
def rdPoint (x64 neg : Bool) (o : Opnd) : L FV := do
  let v ← rdD o
  return modSign false neg ((fmtOf x64).value v.1.toNat)

/-- A word of an interval that writes a point; the code is given. -/
def ivPoint (x : XOpt) (f : Iv → Nat) (d a : Opnd) : L Unit := do
  checkReg d
  checkIv x.x64 a
  let v ← rdIv x.x64 x.negA a
  wrD d (BitVec.ofNat 64 (f v)) (tagOf x.x64)

end L

/-! ### Bounds (R69, R138) -/

def minV (a b : FV) : FV := if b.lt a then b else a
def maxV (a b : FV) : FV := if a.lt b then b else a

/-- A candidate product: 0 × ∞ = 0. -/
def candMul (a b : FV) : FV := if a.isZero || b.isZero then .fin false 0 0 else (mulX a b).v

/-- A candidate quotient by a nonzero divisor; ∞ ÷ ∞ is dropped. -/
def candDiv (a b : FV) : Option FV := if a.isInf && b.isInf then none else some (divX a b).v

def addIv (a b : Iv) : Iv := ((addX .rne a.1 b.1).v, (addX .rne a.2 b.2).v)
def negIv (a : Iv) : Iv := (plusZero a.2.negate, plusZero a.1.negate)

/-- The hull of candidates. -/
def hullOf : List FV → Iv
  | [] => (.inf true, .inf false)
  | x :: l => (l.foldl minV x, l.foldl maxV x)

def mulIv (a b : Iv) : Iv := hullOf [candMul a.1 b.1, candMul a.1 b.2, candMul a.2 b.1, candMul a.2 b.2]

/-- Whether an interval contains 0. -/
def hasZero (a : Iv) : Bool := a.1.le (.fin false 0 0) && (FV.fin false 0 0).le a.2

/-- The entire line. -/
def entire : Iv := (.inf true, .inf false)

/-- XDIV (R69): none for division by [0, 0]. -/
def divIv (a b : Iv) : Option Iv :=
  if b.1.isZero && b.2.isZero then none
  else if hasZero b then some entire
  else some (hullOf ([candDiv a.1 b.1, candDiv a.1 b.2, candDiv a.2 b.1, candDiv a.2 b.2].filterMap id))

def sqV (a : FV) : FV := (mulX a a).v

def sqrIv (a : Iv) : Iv :=
  if (FV.fin false 0 0).le a.1 then (sqV a.1, sqV a.2)
  else if a.2.le (.fin false 0 0) then (sqV a.2, sqV a.1)
  else (.fin false 0 0, maxV (sqV a.1) (sqV a.2))

def absIv (a : Iv) : Iv :=
  if (FV.fin false 0 0).le a.1 then a
  else if a.2.le (.fin false 0 0) then negIv a
  else (.fin false 0 0, maxV a.1.negate a.2)

/-- XSQRT (R138): none when the operand lies below 0. -/
def sqrtIv (a : Iv) : Option Iv :=
  if a.2.lt (.fin false 0 0) then none else some ((sqrtX (maxV a.1 (.fin false 0 0))).v, (sqrtX a.2).v)

/-- The midpoint's code (R139). -/
def midCode (x64 : Bool) (a : Iv) : Nat :=
  let f := fmtOf x64
  match a.1.isInf, a.2.isInf with
  | true, true => 0
  | true, false => f.withSign true f.maxCode
  | false, true => f.maxCode
  | false, false =>
    let s := (addX .rne a.1 a.2).v
    boundCode x64 .rne (sclX s (-1))

/-- The width's code (R139). -/
def widCode (x64 : Bool) (a : Iv) : Nat :=
  if a.1.isInf || a.2.isInf then (fmtOf x64).infCode false
  else boundCode x64 .rup (addX .rne a.2 a.1.negate).v

/-! ### Construction and selection (R139) -/

/-- Lets an interval of points be made, or raises EMPTY. -/
def L.make (v : Iv) : L Iv :=
  match ivBad v with
  | some sub => L.trap 4 sub
  | none => return (plusZero v.1, plusZero v.2)

/-- XMK. -/
def execXmk (h : Hdr) (d a b : Opnd) (x : XOpt) (s : State) : Out :=
  laneWord (.xmk h d a b x) h .each (do
    L.checkRegs (ivRegs x.x64 d)
    L.checkF3 x.x64 [a, b] []
    let u ← L.rdPoint x.x64 x.negA a
    let v ← L.rdPoint x.x64 x.negB b
    L.wrIvBits x.x64 d (ivBits x.x64 (← L.make (u, v)))) s

/-- XPT. -/
def execXpt (h : Hdr) (d a : Opnd) (x : XOpt) (s : State) : Out :=
  laneWord (.xpt h d a x) h .each (do
    L.checkRegs (ivRegs x.x64 d)
    L.checkF3 x.x64 [a] []
    let u ← L.rdPoint x.x64 x.negA a
    L.wrIvBits x.x64 d (ivBits x.x64 (← L.make (u, u)))) s

def execXlo (h : Hdr) (d a : Opnd) (x : XOpt) (s : State) : Out :=
  laneWord (.xlo h d a x) h .each (L.ivPoint x (fun v => boundCode x.x64 .rne v.1) d a) s
def execXhi (h : Hdr) (d a : Opnd) (x : XOpt) (s : State) : Out :=
  laneWord (.xhi h d a x) h .each (L.ivPoint x (fun v => boundCode x.x64 .rne v.2) d a) s
def execXmid (h : Hdr) (d a : Opnd) (x : XOpt) (s : State) : Out :=
  laneWord (.xmid h d a x) h .each (L.ivPoint x (midCode x.x64) d a) s
def execXwid (h : Hdr) (d a : Opnd) (x : XOpt) (s : State) : Out :=
  laneWord (.xwid h d a x) h .each (L.ivPoint x (widCode x.x64) d a) s

/-! ### Arithmetic (R137, R138) -/

def execXadd (h : Hdr) (d a b : Opnd) (x : XOpt) (s : State) : Out :=
  laneWord (.xadd h d a b x) h .each (L.iv2 x (fun u v => pure (addIv u v)) d a b) s
def execXsub (h : Hdr) (d a b : Opnd) (x : XOpt) (s : State) : Out :=
  laneWord (.xsub h d a b x) h .each (L.iv2 x (fun u v => pure (addIv u (negIv v))) d a b) s
def execXmul (h : Hdr) (d a b : Opnd) (x : XOpt) (s : State) : Out :=
  laneWord (.xmul h d a b x) h .each (L.iv2 x (fun u v => pure (mulIv u v)) d a b) s
def execXsqr (h : Hdr) (d a : Opnd) (x : XOpt) (s : State) : Out :=
  laneWord (.xsqr h d a x) h .each (L.iv1 x (fun u => pure (sqrIv u)) d a) s
def execXneg (h : Hdr) (d a : Opnd) (x : XOpt) (s : State) : Out :=
  laneWord (.xneg h d a x) h .each (L.iv1 x (fun u => pure (negIv u)) d a) s
def execXabs (h : Hdr) (d a : Opnd) (x : XOpt) (s : State) : Out :=
  laneWord (.xabs h d a x) h .each (L.iv1 x (fun u => pure (absIv u)) d a) s
def execXhull (h : Hdr) (d a b : Opnd) (x : XOpt) (s : State) : Out :=
  laneWord (.xhull h d a b x) h .each (L.iv2 x (fun u v => pure (minV u.1 v.1, maxV u.2 v.2)) d a b) s
def execXmeet (h : Hdr) (d a b : Opnd) (x : XOpt) (s : State) : Out :=
  laneWord (.xmeet h d a b x) h .each (L.iv2 x (fun u v =>
    if (minV u.2 v.2).lt (maxV u.1 v.1) then L.trap 4 4 else pure (maxV u.1 v.1, minV u.2 v.2)) d a b) s

/-- What a long-latency interval word captures. -/
def L.capIv (x64 : Bool) (d : Opnd) (srcs : List Opnd) : L Cap := do
  L.checkRegs (ivRegs x64 d)
  srcs.forM (L.checkIv x64)
  match srcs with
  | [a, b] =>
    let u ← L.rdIvBits x64 a
    let v ← L.rdIvBits x64 b
    return { Cap.zero with av := u, bv := v }
  | [a] =>
    let u ← L.rdIvBits x64 a
    return { Cap.zero with av := u }
  | _ => return Cap.zero

/-- What XDIV answers from its captured sources. -/
def perfXdiv (x : XOpt) (c : Cap) : L (QWord × BitVec 4) := do
  let u ← L.ivOf x.x64 x.negA c.av
  let v ← L.ivOf x.x64 x.negB c.bv
  match divIv u v with
  | none => L.trap 4 3
  | some r => return (ivBits x.x64 r, ivTag x.x64)

/-- XDIV. -/
def execXdiv (h : Hdr) (d a b : Opnd) (x : XOpt) (s : State) : Out :=
  longWord (.xdiv h d a b x) h .each (L.capIv x.x64 d [a, b]) (perfXdiv x) s

/-- What XSQRT answers. -/
def perfXsqrt (x : XOpt) (c : Cap) : L (QWord × BitVec 4) := do
  let u ← L.ivOf x.x64 x.negA c.av
  match sqrtIv u with
  | none => L.trap 4 5
  | some r => return (ivBits x.x64 r, ivTag x.x64)

/-- XSQRT. -/
def execXsqrt (h : Hdr) (d a : Opnd) (x : XOpt) (s : State) : Out :=
  longWord (.xsqrt h d a x) h .each (L.capIv x.x64 d [a]) (perfXsqrt x) s

/-- What XEXP answers. -/
def perfXexp (x : XOpt) (c : Cap) : L (QWord × BitVec 4) := do
  let u ← L.ivOf x.x64 x.negA c.av
  let f := fmtOf x.x64
  return (packIv x.x64 (expR f .rdn u.1).code (expR f .rup u.2).code, ivTag x.x64)

/-- XEXP. -/
def execXexp (h : Hdr) (d a : Opnd) (x : XOpt) (s : State) : Out :=
  longWord (.xexp h d a x) h .each (L.capIv x.x64 d [a]) (perfXexp x) s

/-! ### Comparisons (R140, R141) -/

/-- The relation of two intervals by the every/none rule (R140). -/
def ivRel (rel : Nat) (a b : Iv) : Option Bool :=
  let apart := a.2.lt b.1 || b.2.lt a.1
  let same := a.1.eq a.2 && b.1.eq b.2 && a.1.eq b.1
  let decide' (t f : Bool) : Option Bool := if t then some true else if f then some false else none
  match rel with
  | 0 => decide' same apart
  | 1 => decide' apart same
  | 2 => decide' (a.2.lt b.1) (b.2.le a.1)
  | 3 => decide' (a.2.le b.1) (b.2.lt a.1)
  | 4 => decide' (b.2.lt a.1) (a.2.le b.1)
  | _ => decide' (b.2.le a.1) (a.2.lt b.1)

/-- "A lies in B" (R141). -/
def ivIn (a b : Iv) : Option Bool :=
  if b.1.le a.1 && a.2.le b.2 then some true
  else if a.2.lt b.1 || b.2.lt a.1 then some false
  else none

/-- "A lies in the interior of B" (R141). -/
def ivInside (a b : Iv) : Option Bool :=
  if (b.1 == .inf true || b.1.lt a.1) && (b.2 == .inf false || a.2.lt b.2) then some true
  else if !(b.1.le a.1 && a.2.le b.2) then some false
  else none

/-- A test of two intervals into a pair of gD. -/
def L.ivTest (t : TOpt) (f : Iv → Iv → Option Bool) (d a b : Opnd) : L Unit := do
  L.checkReg d
  L.checkIv t.wide a
  L.checkIv t.wide b
  let u ← L.rdIv t.wide false a
  let v ← L.rdIv t.wide false b
  L.wrPairBits d t.pb (f u v)

def execXcmp (h : Hdr) (d a b : Opnd) (t : TOpt) (s : State) : Out :=
  laneWord (.xcmp h d a b t) h .each (L.ivTest t (ivRel t.rel.toNat) d a b) s
def execXin (h : Hdr) (d a b : Opnd) (t : TOpt) (s : State) : Out :=
  laneWord (.xin h d a b t) h .each (L.ivTest t ivIn d a b) s
def execXsubs (h : Hdr) (d a b : Opnd) (t : TOpt) (s : State) : Out :=
  laneWord (.xsubs h d a b t) h .each (L.ivTest t ivInside d a b) s

/-! ### Bisection (R142) -/

/-- Writes the interval and the status into a window: the child's registers. -/
def Regs.bisect (r : Regs) (x64 : Bool) (d b : Opnd) (q : QWord) (v : Word) : Regs :=
  (r.putAll (ivRegs x64 d) q (ivTag x64)).put b 0 (v.setWidth 128) 0

/-- XBIS: lanes in increasing order; a child takes a slot as SPAWN's does. -/
def execXbis (h : Hdr) (d a b : Opnd) (x : XOpt) (s : State) : Out :=
  laneWord (.xbis h d a b x) h .each (do
    L.checkRegs (b :: ivRegs x.x64 d)
    L.checkIv x.x64 a
    let v ← L.rdIv x.x64 false a
    let m := (fmtOf x.x64).value (midCode x.x64 v)
    let y ← get
    let t ← L.team
    if !(v.1.lt m && m.lt v.2) then
      L.wrIvBits x.x64 d (ivBits x.x64 v)
      L.wrW b 0xFFFF_FFFE
    else match t.childSlot y.wave with
      | none =>
        L.wrIvBits x.x64 d (ivBits x.x64 v)
        L.wrW b 0xFFFF_FFFF
      | some n =>
        L.landedAll
        let f ← L.fibre
        let own ← L.slot
        let set (r : Regs) : Regs := r.bisect x.x64 d b (ivBits x.x64 (m, v.2)) (0x8000_0000 + BitVec.ofNat 32 own)
        L.modTeam (·.addFibre n (t.newFibre n y.st.tick (y.pc + 8) (set f.regs) (f.shadow.map set) f.remoteWrites))
        L.wrIvBits x.x64 d (ivBits x.x64 (v.1, m))
        L.wrW b (BitVec.ofNat 32 n)) s

/-! ### Memory and conversion (R143, R144) -/

/-- Whether an interval access is of X64. -/
def widX64 (wid : Wid) : Bool := wid == .q

/-- What XLD answers: the loaded bounds are checked, and a zero bound is +0. -/
def perfXld (wid : Wid) (m : MemOpnd) (c : Cap) : L (QWord × BitVec 4) := do
  let a ← L.access 0 m (widSize wid) c.av.toNat c.bv.toNat
  let v ← L.readMem m .load a (widSize wid)
  let iv ← L.ivOf (widX64 wid) false (BitVec.ofNat 128 v)
  return (ivBits (widX64 wid) iv, ivTag (widX64 wid))

/-- XLD (R143). -/
def execXld (h : Hdr) (d : Opnd) (wid : Wid) (m : MemOpnd) (s : State) : Out :=
  longWord (.xld h d wid m) h .each (L.capMem (ivRegs (widX64 wid) d) m) (perfXld wid m) s

/-- XST (R143). -/
def execXst (h : Hdr) (d : Opnd) (wid : Wid) (m : MemOpnd) (s : State) : Out :=
  laneWord (.xst h d wid m) h .each (do
    L.checkRegs (ivRegs (widX64 wid) d)
    L.checkAddr m
    L.checkIv (widX64 wid) d
    let v ← L.rdIv (widX64 wid) false d
    L.writeMem m .store (← L.memAddr 1 m wid) (widSize wid) (ivBits (widX64 wid) v).toNat) s

/-- The source of XCVT: an interval or a point, by its tag (R144). -/
def L.cvtSource (a : Opnd) : L Iv := do
  match a with
  | .f n =>
    L.checkF n.toNat
    L.landed (.f n)
    let t := vget (← L.fibre).regs.tag n.toNat
    match t.toNat with
    | 1 => do
      let p ← L.rdPoint true false a
      L.make (p, p)
    | 2 => do
      let p ← L.rdPoint false false a
      L.make (p, p)
    | 3 => L.rdIv false false a
    | 4 => do
      if n.toNat % 2 = 1 then L.trap 2 1
      L.checkIv true a
      L.rdIv true false a
    | _ => L.trap 2 1
  | _ => return entire

/-- XCVT (R144). -/
def execXcvt (h : Hdr) (d a : Opnd) (v : VOpt) (s : State) : Out :=
  laneWord (.xcvt h d a v) h .each (do
    let x64 := v.ttag == 4
    L.checkRegs (ivRegs x64 d)
    let iv ← L.cvtSource a
    L.wrIvBits x64 d (ivBits x64 iv)) s

end Sys2Proof.Machine
end

