-- ==== Sys2Proof/Machine/Pairs.lean ====
section
/-! DEFINITION. The meanings of paired words (R44 to R47): both slots are read first, then slot X and slot Y write. -/

namespace Sys2Proof.Machine

/-- What a slot writes. -/
inductive SlotVal where
  | nothing
  | word (v : Word)
  | flt (v : DWord) (t : BitVec 4)
  | aff (base stride : Word)
  deriving DecidableEq, Repr

/-- Whether a slot's operation is a floating one that needs tag F32. -/
def floatOp : PairOp → Bool
  | .fadd | .fsub | .fmul | .fmin | .fmax => true
  | _ => false

/-- The registers a slot names. -/
def slotRegs (x : Slot) : List Opnd :=
  if x.op = .pnop then [] else if PairOp.isImm x.op then [x.d] else [x.d, x.s]

/-- The integer result of a slot (R47). -/
def slotInt (op : PairOp) (d v : Word) : Word :=
  match op with
  | .mov | .movi => v
  | .add | .addi => d + v
  | .sub => d - v
  | .and => d &&& v
  | .or => d ||| v
  | .xor => d ^^^ v
  | .shl | .shli => d <<< shAmt v
  | .shr | .shri => d >>> shAmt v
  | .sar => d.sshiftRight (shAmt v)
  | .min => minS d v
  | .max => maxS d v
  | .popc => d + popcW v
  | _ => d

/-- The floating result of a slot, binary32 in RNE (R47). -/
def slotFlt (op : PairOp) (d v : Nat) : Rnd :=
  let x := fmtF32.value d
  let y := fmtF32.value v
  exactRnd fmtF32 .rne (match op with
    | .fadd => addX .rne x y
    | .fsub => addX .rne x y.negate
    | .fmul => mulX x y
    | .fmin => .plain (minNum x y)
    | _ => .plain (maxNum x y))

/-- The value an I-form takes from imm8: sign-extended, or a shift amount. -/
def slotImm (x : Slot) : Word :=
  match x.op with
  | .shli | .shri => x.imm.setWidth 32
  | _ => x.imm.signExtend 32

/-- The f source of a slot: zr reads +0. -/
def L.slotF (o : Opnd) : L (DWord × BitVec 4) :=
  match o with
  | .zr => pure (0, 2)
  | o => L.rdD o

/-- Reads a slot's operands and computes what it writes, with its flags. -/
def L.slotRead (x : Slot) : L (SlotVal × Fl) := do
  match x.op, x.d with
  | .pnop, _ => return (.nothing, 0)
  | .fmov, _ => do
    let v ← L.rdD x.s
    return (.flt v.1 v.2, 0)
  | .aaddi, .a n => do
    let (base, stride) := vget (← L.wave).a n.toNat
    return (.aff (base + slotImm x) stride, 0)
  | op, d => do
    if floatOp op then
      let u ← L.rdD d
      let v ← L.slotF x.s
      let r := slotFlt op (u.1.toNat % 2 ^ 32) (v.1.toNat % 2 ^ 32)
      return (.flt (BitVec.ofNat 64 r.code) 2, r.fl)
    else
      let u ← if PairOp.readsD op then L.rdW d else pure 0
      let v ← if PairOp.isImm op then pure (slotImm x) else L.rdW x.s
      return (.word (slotInt op u v), 0)

/-- Writes a slot's result. -/
def L.slotWrite (d : Opnd) : SlotVal → L Unit
  | .nothing => pure ()
  | .word v => L.wrW d v
  | .flt v t => L.wrD d v t
  | .aff b st => L.writeA d b st

/-- A paired word. -/
def pairWord (i : Instr) (x y : Slot) (s : State) : Out :=
  let m : WMode := if (x.op != .pnop && L.uniform x.d) || (y.op != .pnop && L.uniform y.d) then .all else .each
  runWord i none m (fun _ => id) (fun _ => do
    L.checkRegs (slotRegs x ++ slotRegs y)
    if floatOp x.op then [x.d, x.s].forM (L.tagIn [2])
    if floatOp y.op then [y.d, y.s].forM (L.tagIn [2])
    let u ← L.slotRead x
    let v ← L.slotRead y
    L.raise (u.2 ||| v.2)
    L.slotWrite x.d u.1
    L.slotWrite y.d v.1) s

def execPnop (y : Slot) (s : State) : Out := pairWord (.pnop y) ⟨.pnop, .g 0, .g 0, 0⟩ y s
def execPairMov (d r : Opnd) (y : Slot) (s : State) : Out := pairWord (.pairMov d r y) ⟨.mov, d, r, 0⟩ y s
def execPairAdd (d r : Opnd) (y : Slot) (s : State) : Out := pairWord (.pairAdd d r y) ⟨.add, d, r, 0⟩ y s
def execPairSub (d r : Opnd) (y : Slot) (s : State) : Out := pairWord (.pairSub d r y) ⟨.sub, d, r, 0⟩ y s
def execPairAnd (d r : Opnd) (y : Slot) (s : State) : Out := pairWord (.pairAnd d r y) ⟨.and, d, r, 0⟩ y s
def execPairOr (d r : Opnd) (y : Slot) (s : State) : Out := pairWord (.pairOr d r y) ⟨.or, d, r, 0⟩ y s
def execPairXor (d r : Opnd) (y : Slot) (s : State) : Out := pairWord (.pairXor d r y) ⟨.xor, d, r, 0⟩ y s
def execPairShl (d r : Opnd) (y : Slot) (s : State) : Out := pairWord (.pairShl d r y) ⟨.shl, d, r, 0⟩ y s
def execPairShr (d r : Opnd) (y : Slot) (s : State) : Out := pairWord (.pairShr d r y) ⟨.shr, d, r, 0⟩ y s
def execPairSar (d r : Opnd) (y : Slot) (s : State) : Out := pairWord (.pairSar d r y) ⟨.sar, d, r, 0⟩ y s
def execPairMin (d r : Opnd) (y : Slot) (s : State) : Out := pairWord (.pairMin d r y) ⟨.min, d, r, 0⟩ y s
def execPairMax (d r : Opnd) (y : Slot) (s : State) : Out := pairWord (.pairMax d r y) ⟨.max, d, r, 0⟩ y s
def execPairFadd (d r : Opnd) (y : Slot) (s : State) : Out := pairWord (.pairFadd d r y) ⟨.fadd, d, r, 0⟩ y s
def execPairFsub (d r : Opnd) (y : Slot) (s : State) : Out := pairWord (.pairFsub d r y) ⟨.fsub, d, r, 0⟩ y s
def execPairFmul (d r : Opnd) (y : Slot) (s : State) : Out := pairWord (.pairFmul d r y) ⟨.fmul, d, r, 0⟩ y s
def execPairFmin (d r : Opnd) (y : Slot) (s : State) : Out := pairWord (.pairFmin d r y) ⟨.fmin, d, r, 0⟩ y s
def execPairFmax (d r : Opnd) (y : Slot) (s : State) : Out := pairWord (.pairFmax d r y) ⟨.fmax, d, r, 0⟩ y s
def execPairFmov (d r : Opnd) (y : Slot) (s : State) : Out := pairWord (.pairFmov d r y) ⟨.fmov, d, r, 0⟩ y s
def execPairPopc (d r : Opnd) (y : Slot) (s : State) : Out := pairWord (.pairPopc d r y) ⟨.popc, d, r, 0⟩ y s
def execAddi (d : Opnd) (imm : BitVec 8) (y : Slot) (s : State) : Out :=
  pairWord (.addi d imm y) ⟨.addi, d, .g 0, imm⟩ y s
def execMovi (d : Opnd) (imm : BitVec 8) (y : Slot) (s : State) : Out :=
  pairWord (.movi d imm y) ⟨.movi, d, .g 0, imm⟩ y s
def execShli (d : Opnd) (imm : BitVec 8) (y : Slot) (s : State) : Out :=
  pairWord (.shli d imm y) ⟨.shli, d, .g 0, imm⟩ y s
def execShri (d : Opnd) (imm : BitVec 8) (y : Slot) (s : State) : Out :=
  pairWord (.shri d imm y) ⟨.shri, d, .g 0, imm⟩ y s
def execAaddi (d : Opnd) (imm : BitVec 8) (y : Slot) (s : State) : Out :=
  pairWord (.aaddi d imm y) ⟨.aaddi, d, .g 0, imm⟩ y s

end Sys2Proof.Machine
end

