-- ==== Sys2Proof/Machine/Sha.lean ====
section
/-! DEFINITION. SHA-384, by which ATST extends a measurement slot (R230): FIPS 180-4. -/

namespace Sys2Proof.Machine

/-- The largest number whose `k`-th power is at most `n`, below 2^b: bit after bit from the highest. -/
def rootBits (k n : Nat) : Nat → Nat → Nat
  | 0, r => r
  | b + 1, r => rootBits k n b (if (r + 2 ^ b) ^ k ≤ n then r + 2 ^ b else r)

/-- 64 bits of the fraction of the `k`-th root of a number below 512. -/
def rootFraction (k n : Nat) : DWord := BitVec.ofNat 64 (rootBits k (n * 2 ^ (64 * k)) 73 0)

/-- The primes below 410: there are eighty. -/
def smallPrimes : List Nat :=
  (List.range 410).filter (fun n => 2 ≤ n && (List.range 21).all (fun d => d < 2 || n ≤ d || n % d ≠ 0))

/-- The round constants: the fractions of the cube roots of the first eighty primes. -/
def shaK : List DWord := smallPrimes.map (rootFraction 3)

/-- The initial hash value of SHA-384: the fractions of the square roots of the ninth to the sixteenth prime. -/
def shaInit : List DWord := ((smallPrimes.drop 8).take 8).map (rootFraction 2)

/-- A word turned right by each of some counts, one over the other. -/
def turns (counts : List Nat) (x : DWord) : DWord := counts.foldl (fun r n => r ^^^ x.rotateRight n) 0

/-- The message schedule: the last sixteen words give the next (the list holds the newest first). -/
def shaExpand : Nat → List DWord → List DWord
  | 0, w => w
  | n + 1, w =>
    let early := w.getD 14 0
    let late := w.getD 1 0
    shaExpand n ((w.getD 15 0 + (turns [1, 8] early ^^^ (early >>> 7)) + w.getD 6 0 + (turns [19, 61] late ^^^ (late >>> 6))) :: w)

/-- One round: the eight words move on by one place, the first and the fifth taking up what is new. -/
def shaRound (v : List DWord) (kw : DWord × DWord) : List DWord :=
  let at' (n : Nat) : DWord := v.getD n 0
  let picked := at' 6 ^^^ (at' 4 &&& (at' 5 ^^^ at' 6))
  let most := (at' 0 &&& at' 1) ||| (at' 2 &&& (at' 0 ||| at' 1))
  let fresh := kw.1 + kw.2 + at' 7 + turns [14, 18, 41] (at' 4) + picked
  (fresh + turns [28, 34, 39] (at' 0) + most) :: (v.take 3 ++ (at' 3 + fresh) :: (v.drop 4).take 3)

/-- A number from bytes, highest first. -/
def beNat (l : List (BitVec 8)) : Nat := l.foldl (fun n b => n * 256 + b.toNat) 0

/-- A number's bytes, highest first. -/
def beBytes (n x : Nat) : List (BitVec 8) := (bytesOfNat n x).reverse

/-- One 128-byte block. -/
def shaBlock (h : List DWord) (b : List (BitVec 8)) : List DWord :=
  let w := (List.range 16).map (fun i => BitVec.ofNat 64 (beNat ((b.drop (8 * i)).take 8)))
  let v := (shaK.zip (shaExpand 64 w.reverse).reverse).foldl shaRound h
  (h.zip v).map (fun x => x.1 + x.2)

/-- The padding: a one bit, zeros, and the length in bits. -/
def shaPad (n : Nat) : List (BitVec 8) :=
  0x80 :: List.replicate ((239 - n % 128) % 128) 0 ++ beBytes 16 (8 * n)

/-- The blocks of a padded message. -/
def shaBlocks : Nat → List DWord → List (BitVec 8) → List DWord
  | 0, h, _ => h
  | n + 1, h, m => shaBlocks n (shaBlock h (m.take 128)) (m.drop 128)

/-- SHA-384 of a message. -/
def sha384 (m : List (BitVec 8)) : List (BitVec 8) :=
  let p := m ++ shaPad m.length
  ((shaBlocks (p.length / 128) shaInit p).take 6).flatMap (fun x => beBytes 8 x.toNat)

end Sys2Proof.Machine
end

