-- ==== Sys2Proof/Machine/Sched.lean ====
section
/-! DEFINITION. The die distributors: contexts of partitions on cores, accesses of the device's own (R432), rings and
placement (R312 to R317), the start of a unit (R318), joins and continuations (R315, R324), the completion of a launch
(R326), discards (R325), and the hardware's swap and re-admission of teams (R320). -/

namespace Sys2Proof.Machine

/-! ### Contexts of partitions on cores (R225, R363) -/

/-- Puts a partition's context on a core aside. -/
def State.saveCtx (s : State) (c : BitVec 11) (part : Nat) : State :=
  let k := s.core c
  let mine (t : Team) : Bool := coreOf t.agent == c && t.part == part
  let x : SavedCtx := ⟨part, c, s.teams.filter mine, s.jobs.filter (·.core == c), k.holder, k.qlead, k.qbad,
    k.replay.filter (·.part == part), s.pivs.filter (fun v => coreOf v.agent == c)⟩
  let s := s.setCore { k with holder := none, qlead := [], qbad := [], replay := k.replay.filter (·.part != part) }
  { s with
    teams := s.teams.filter (fun t => !mine t)
    jobs := s.jobs.filter (·.core != c)
    pivs := s.pivs.filter (fun v => coreOf v.agent != c)
    saved := s.saved.filter (fun y => !(y.part == part && y.core == c)) ++ [x] }

/-- Brings a partition's context back to a core; a core on which it has never run starts empty. -/
def State.restoreCtx (s : State) (c : BitVec 11) (part : Nat) : State :=
  match s.saved.find? (fun y => y.part == part && y.core == c) with
  | none => s
  | some x =>
    let s := s.updCore c (fun k => { k with holder := x.holder, qlead := x.qlead, qbad := x.qbad, replay := k.replay ++ x.replay })
    { s with
      teams := s.teams ++ x.teams
      jobs := s.jobs ++ x.jobs
      pivs := s.pivs ++ x.pivs
      saved := s.saved.filter (fun y => !(y.part == part && y.core == c)) }

/-- Acts on a partition's context on a core, be it the one that runs there or one that is put aside. -/
def State.inCtx (s : State) (c : BitVec 11) (part : Nat) (f : State → State) : State :=
  if !s.saved.any (fun y => y.part == part && y.core == c) then f s
  else
    match (s.die (dieOf c)).part with
    | some cur => ((f ((s.saveCtx c cur).restoreCtx c part)).saveCtx c part).restoreCtx c cur
    | none => (f (s.restoreCtx c part)).saveCtx c part

/-! ### Accesses of the distributors and racking engines (R432) -/

/-- How an access of the device's own ends. -/
inductive Own where
  | ok (pa : Nat) (leaf : QWord)
  | refused (sub : BitVec 8) (gen : BitVec 16)
  | fault (sub : BitVec 8) (lvl : Nat) (gen : BitVec 16)
  | stall (s : State)
  /-- The page lies in another package, to which the access goes (R289). -/
  | far (leaf : QWord)

/-- An access at level 1, as the page's owner, from within its scope region (R432). -/
def ownAccess (s : State) (p : Partition) (kind : AK) (va size : Nat) : Own :=
  match walk s p (va / 4096) with
  | .fault sub lvl gen => .fault sub lvl gen
  | .stall => .stall s
  | .leaf q _ =>
    let r : Req := ⟨coreOf (lfOwner q), lfOwner q, p.id, 1, kind, va, size, false⟩
    match mmxSub s p q r with
    | some sub => .refused sub (lfGen q)
    | none =>
      if lfPkg q ≠ 0xFFF then .far q
      else if s.snapWait p r then
        .stall (if s.agenda.contains (.snapshot p.id (va / 4096)) then s else s.push (.snapshot p.id (va / 4096)))
      else .ok (lfFrame q * 4096 + va % 4096) q

/-! ### Those of them that go to another package (R289, R396) -/

/-- The place among outstanding accesses of one that an event makes for the device; none for other events. -/
def farKey (e : Event) : Option Nat :=
  match e with
  | .joinStep _ d a _ n f c _ => some (2 ^ 40 + 4 * (d + 8 * (a.toNat + 2 ^ 16 * (n + 2 ^ 33 * (f + 2 ^ 33 * c)))))
  | .enqueue _ d _ f c _ => some (2 ^ 40 + 1 + 4 * (d + 8 * (f + 2 ^ 33 * c)))
  | .racking _ _ => some (2 ^ 40 + 2)
  | .inbound r => some (2 ^ 40 + 3 + 4 * (r.port + 2 ^ 16 * r.rid.toNat))
  | _ => none

/-- What an event has asked of another package at an address. -/
def State.farOf (s : State) (part : Nat) (e : Event) (va : Nat) : Option Outst :=
  s.outst.find? (fun o => o.part == part && some o.wave == farKey e && o.va.toNat == va)

/-- Whether an event waits for the answer of another package. -/
def State.farWaits (s : State) (e : Event) : Bool := s.outst.any (fun o => some o.wave == farKey e && o.resp.isNone)

/-- An event's access goes to the package that a forwarding leaf names, as an agent's at a level. -/
def State.farAsk (s : State) (part : Nat) (e : Event) (a : AgentId) (lvl : Nat) (leaf : QWord) (va : Nat) (op : RemoteOp) : State :=
  let (mid, s) := s.newMid
  let s : State := { s with outst := s.outst ++ [⟨mid, part, a, (farKey e).getD 0, 0, 0, BitVec.ofNat 52 va, none⟩] }
  s.sendRequest (lfPkg leaf) ⟨s.pkg, mid, part, a, lvl, BitVec.ofNat 52 va, op⟩

/-- The answer to an event's access, which is then no longer outstanding; without one, the state in which it is asked for. -/
def State.farTake (s : State) (part : Nat) (e : Event) (a : AgentId) (lvl : Nat) (leaf : QWord) (va : Nat) (op : RemoteOp) :
    State ⊕ (State × RemoteResp) :=
  match s.farOf part e va with
  | none => .inl (s.farAsk part e a lvl leaf va op)
  | some o => match o.resp with
    | none => .inl s
    | some r => .inr ({ s with outst := s.outst.filter (·.mid != o.mid) }, r)

/-- What a read of the device's own comes to: its value; a wait; a walk fault; a refusal. -/
inductive Got where
  | val (v : Nat) (gen : BitVec 16) (s : State)
  | wait (s : State)
  | fault (sub : BitVec 8) (lvl : Nat) (gen : BitVec 16) (s : State)
  | refused (cls : BitVec 4) (sub : BitVec 8) (gen : BitVec 16) (s : State)

/-- A read of the device's own, made by an event (R432), in another package where the leaf says so (R289). -/
def State.ownRead (s : State) (p : Partition) (e : Event) (va size : Nat) : Got :=
  match ownAccess s p .load va size with
  | .ok pa q => .val (s.readP pa size) (lfGen q) s
  | .stall s => .wait s
  | .fault sub lvl gen => .fault sub lvl gen s
  | .refused sub gen => .refused 6 sub gen s
  | .far q => match s.farTake p.id e (lfOwner q) 1 q va (.load size) with
    | .inl s => .wait s
    | .inr (s, r) => match r.refused with
      | none => .val r.value (lfGen q) s
      | some (8, sub) => .fault sub 0 0 s
      | some (cls, sub) => .refused cls sub 0 s

/-- The die that holds a frame: HBM stack f mod 8 (R233). -/
def frameDie (f : Nat) : Nat :=
  match frameLoc f with
  | .hbm => f % 8
  | .die d => d
  | .cluster d _ => d
  | .near d _ _ => d
  | .hole => 0

/-- The ticket core of a die's distributor (R222). -/
def distCore (die : Nat) : BitVec 11 := BitVec.ofNat 11 (die * 256 + 240)

/-- A distributor's access parks (R315, R324): with FLTQ = 0 it is dropped; with no entry free it waits. -/
def State.parkDist (s : State) (p : Partition) (die : Nat) (ev : Event) (a : AgentId) (va : Nat) (acc : BitVec 8)
    (index : Word) (sub : BitVec 8) (lvl : Nat) (gen : BitVec 16) : State :=
  if p.fltq = 0 then s
  else
    let d := s.die die
    match freeEnt d.park with
    | none => s.push ev
    | some e =>
      let q := BitVec.ofNat 8 (nextSeq d.seqs e)
      let s := s.updDie die (fun d => { d with park := d.park ++ [⟨e, q, p.id, a, 0, [], 0, none, none, some ev⟩],
                                               seqs := spSet 0 d.seqs e q.toNat })
      s.record p.id ⟨BitVec.ofNat 52 va, ticketOf (distCore die) e q, 8, sub, a, 1, acc, BitVec.ofNat 8 lvl, gen, index, 0⟩

/-! ### Shapes (R312) -/

/-- A decoded shape. -/
structure Shape where
  waves : Nat
  g : Nat
  f : Nat
  scr : Nat
  tiles : Nat
  all : Bool
  deriving DecidableEq, Repr

/-- The fields of a shape entry. -/
def shapeOf (w : Nat) : Shape :=
  ⟨bits w 0 5 + 1, 4 * (bits w 5 4 + 1), 4 * bits w 9 4, bits w 13 9, bits w 22 4, bits w 26 1 = 1⟩

/-- Scratch steps of the partition on one physical core. -/
def Partition.scrSteps (p : Partition) (unit : Nat) : Nat :=
  ((p.shares.filter (fun h => h.kind == .scratch && (match h.unit with | none => true | some u => u == unit))).map (·.n)).sum

/-- The active dies: those that run the partition (R314). With none, as after a switch, all eight (DESIGN CHOICE,
log 21). -/
def State.activeDies (s : State) (part : Nat) : List Nat :=
  let l := (List.range 8).filter (fun d => (s.die d).part == some part)
  if l.isEmpty then List.range 8 else l

/-- Whether some core that runs the partition holds a number of scratch pages for it (R312). -/
def State.scrFits (s : State) (p : Partition) (pages : Nat) : Bool :=
  (s.activeDies p.id).any (fun d => (List.range 160).any (fun n =>
    match s.physCore (coreOfIndex (160 * d + n)) with
    | some pc => decide (pages ≤ 16 * p.scrSteps (coreIndex pc))
    | none => false))

/-- Whether an entry is valid: SCR may not exceed the scratch steps that the partition holds on every core that runs it
(R312). -/
def State.shapeValid (s : State) (p : Partition) (w : Nat) : Bool :=
  let h := shapeOf w
  bits w 63 1 = 1 && bits w 27 36 = 0 && h.tiles ≤ 8 && h.scr ≤ 256 && h.f ≤ 32 && s.scrFits p h.scr

/-! ### Rings and placement (R313, R314) -/

def State.ring (s : State) (part die prio : Nat) : Ring :=
  (s.rings.find? (fun r => r.part == part && r.die == die && r.prio == prio)).getD ⟨part, die, prio, [], [], false⟩

def State.setRing (s : State) (r : Ring) : State :=
  if s.rings.any (fun q => q.part == r.part && q.die == r.die && q.prio == r.prio) then
    { s with rings := updFirst (fun q => q.part == r.part && q.die == r.die && q.prio == r.prio) (fun _ => r) s.rings }
  else { s with rings := s.rings ++ [r] }

/-- A die's rings of one partition. -/
def State.ringsOf (s : State) (part die : Nat) : List Ring := s.rings.filter (fun r => r.part == part && r.die == die)

/-- Entries in a die's rings of a partition. -/
def State.ringLoad (s : State) (part die : Nat) : Nat := ((s.ringsOf part die).map (·.entries.length)).sum

/-- At most 2²⁰ entries of a die's rings belong to one partition (R313). -/
def ringCap : Nat := 2 ^ 20

/-- Places an entry; when the rings are full it is held. The partition's dies may ask for steals again (R317). -/
def State.placeEntry (s : State) (part die prio : Nat) (e : RingEntry) : State :=
  let s : State := { s with dies := s.dies.map (fun d => { d with quiet := d.quiet.filter (· != part) }) }
  let r := s.ring part die prio
  let behind := (s.ringsOf part die).flatMap (·.held)
  if s.ringLoad part die < ringCap && behind.isEmpty then s.setRing { r with entries := r.entries ++ [e] }
  else s.setRing { r with held := r.held ++ [(1 + (behind.map (·.1)).foldl max 0, e)] }

/-- Places a launch: one range entry in the PRIO ring of each die that receives a chunk (R314). -/
def State.placeLaunch (s : State) (l : Launch) : State :=
  let chunks := (l.count + 63) / 64
  let act := s.activeDies l.part
  act.zipIdx.foldl (fun s x =>
    if x.2 < chunks then
      s.placeEntry l.part x.1 l.prio (.range l.id x.2 act.length ((chunks - x.2 + act.length - 1) / act.length) 0)
    else s) s

/-- Units in chunk `c` of a launch. -/
def Launch.chunkSize (l : Launch) (c : Nat) : Nat := min 64 (l.count - 64 * c)

/-- Unstarted units of a range. -/
def Launch.unstarted (l : Launch) (first stride n pos : Nat) : Nat :=
  if n = 0 then 0
  else if n = 1 then l.chunkSize first - pos
  else (64 - pos) + 64 * (n - 2) + l.chunkSize (first + stride * (n - 1))

/-- Whether a launch yields no unit any more (R325). -/
def Launch.stopped (p : Partition) (l : Launch) : Bool := l.cancelled || p.cancels l.slots

/-- An entry under a cancel is counted and gone; none when it stays (R315, R325). -/
def State.yieldEntry (s : State) (p : Partition) (die : Nat) (e : RingEntry) : Option State :=
  match e with
  | .range l first stride n pos =>
    match s.launch? l with
    | none => some s
    | some k => if k.stopped p then
        let u := k.unstarted first stride n pos
        some (s.countUnits l die 0xFFFF u 0 u) else none
  | .cont r _ _ _ =>
    if p.cancels r.slots then
      some (if r.join = 0 then s else s.push (.joinStep p.id die 0xFFFF r.join 1 0 1 []))
    else none

/-- Takes the cancelled entries out of a list. -/
def yieldList (p : Partition) (die : Nat) : List RingEntry → State → State × List RingEntry
  | [], s => (s, [])
  | e :: l, s =>
    match s.yieldEntry p die e with
    | some s => yieldList p die l s
    | none => let (s, r) := yieldList p die l s; (s, e :: r)

/-- Takes the cancelled entries out of every ring of a partition. -/
def State.yieldCancelled (s : State) (part : Nat) : State :=
  match s.part? part with
  | none => s
  | some p =>
    (s.rings.filter (·.part == part)).foldl (fun s r =>
      let (s, es) := yieldList p r.die r.entries s
      let gone (e : Nat × RingEntry) : Bool := (s.yieldEntry p r.die e.2).isSome
      let s := (r.held.filter gone).foldl (fun s e => (s.yieldEntry p r.die e.2).getD s) s
      let head := es.head? != r.entries.head?
      s.setRing { r with entries := es, held := r.held.filter (fun e => !gone e), reserved := r.reserved && !head }) s

/-- RING_ENTRY_ADMIT (R313): the held entry first received enters its ring when room frees. -/
def execRingEntryAdmit (part die prio : Nat) (s : State) : Out :=
  let r := s.ring part die prio
  .next (match r.held with
    | [] => s
    | (n, e) :: rest =>
      if s.ringLoad part die < ringCap && ((s.ringsOf part die).flatMap (·.held)).all (fun x => n ≤ x.1) then
        (s.setRing { r with entries := r.entries ++ [e], held := rest }).yieldCancelled part
      else s)

/-! ### Room and start (R316, R318) -/

/-- Teams whose slots, registers and scratch are on a core. -/
def State.residents (s : State) (c : BitVec 11) : List Team :=
  s.teams.filter (fun t => coreOf t.agent == c && t.resid == .resident)

/-- The first run of `need` numbers that pass `ok`, from `pos`, where a run of `run` ends. -/
def firstRun (ok : Nat → Bool) (need : Nat) : Nat → Nat → Nat → Option Nat
  | 0, pos, run => if need ≤ run then some (pos - run) else none
  | n + 1, pos, run =>
    if need ≤ run then some (pos - run)
    else if ok pos then firstRun ok need n (pos + 1) (run + 1)
    else firstRun ok need n (pos + 1) 0

/-- What a team takes on a core: wave slots and first scratch page. -/
structure Room where
  waves : List Nat
  page : Nat
  deriving DecidableEq, Repr

/-- Room for a shape on a core beside its resident teams, a team slot aside (R316). -/
def State.room (s : State) (c : BitVec 11) (p : Partition) (h : Shape) : Option Room :=
  match s.physCore c with
  | none => none
  | some pc =>
    let res := s.residents c
    let busy := res.flatMap (fun t => (t.waves.toList.take t.nwaves).map (·.wslot))
    let free := (List.range 32).filter (fun w => !busy.contains w)
    let pool := (res.map (fun t => 32 * t.nwaves * windowBytes t.gWin t.fWin)).sum
    let tiles := (res.map (·.tiles)).sum
    let page (n : Nat) : Bool :=
      p.shares.any (fun x => shareCovers x .scratch (coreIndex pc) (n / 16)) &&
      !res.any (fun t => t.scrPage ≤ n && n < t.scrPage + t.scr / 4096)
    if free.length < h.waves || 524288 < pool + 32 * h.waves * windowBytes h.g h.f || 8 < tiles + h.tiles then none
    else (firstRun page h.scr 384 0 0).map (fun n => ⟨free.take h.waves, n⟩)

/-- The lowest free team slot of a core: a swapped team keeps its own. -/
def State.teamSlot (s : State) (c : BitVec 11) : Option Nat :=
  (List.range 32).find? (fun n => !s.teams.any (·.agent == agentOf c n))

/-- The waves of a team: those it has in its wave slots, with the start's s registers. -/
def startWaves (slots : List Nat) (level : BitVec 2) (s0 s1 s2 s3 : Word) : Vector Wave 32 :=
  let mk (w : Nat) : Wave :=
    { Wave.start (slots.getD w 0) level with
      s := vset (vset (vset (vset (Vector.replicate 16 0) 0 s0) 1 s1) 2 s2) 3 s3 }
  Vector.ofFn (fun (i : Fin 32) => mk i.val)

/-- A team as the start of its unit leaves it (R23, R318). -/
def Team.start (a : AgentId) (part : Nat) (r : UnitRec) (h : Shape) (m : Room) (faulted cancelled : Nat) : Team where
  agent := a
  part := part
  work := r
  gWin := h.g
  fWin := h.f
  scr := 4096 * h.scr
  scrPage := m.page
  tiles := h.tiles
  waves := startWaves m.waves (if r.lvl then 1 else 0) (r.frame.extractLsb' 0 32) (BitVec.ofNat 32 faulted)
    (BitVec.ofNat 32 cancelled) ((r.frame.extractLsb' 32 20).setWidth 32)
  nwaves := h.waves
  fibres := (List.range (if h.all then h.waves * (if r.yoke then 16 else 32) else 1)).map
    (fun n => (n, Fibre.start r.yoke r.code (n * windowBytes h.g h.f)))
  q := Vector.replicate 8 ConvReg.zero
  c := Vector.replicate 64 Chan.zero
  z := Vector.replicate 8 Tile.zero
  forks := []
  forkSeq := 1
  fenv := 0
  chki := 0
  glim := 0x4480_0000
  ftau := 0
  scratch := []
  scratchBad := []
  mat := none
  resid := .resident
  faulted := false
  axed := false
  doomed := false
  remoteWrites := []
  onPath := []
  since := none

/-- A channel entry as its declaration binds it: an empty scratch ring of role both (R22, R23). -/
def declaredChan (d : ChanDecl) : Chan := ⟨d.base, d.slots, d.size, 0, 0, 3, 0, true⟩

/-- Binds the channel entries that the kernel of a unit declares (R23). -/
def Team.declare (t : Team) (l : List ChanDecl) : Team :=
  { t with c := (l.filter (·.code == t.work.code)).foldl (fun c d => vset c d.ch.toNat (declaredChan d)) t.c }

/-- Starts a unit on a core; none without room (R316, R318). -/
def State.startUnit (s : State) (c : BitVec 11) (p : Partition) (r : UnitRec) (shape faulted cancelled : Nat) :
    Option State :=
  match s.teamSlot c, s.room c p (shapeOf shape) with
  | some n, some m =>
    let t := (Team.start (agentOf c n) p.id r (shapeOf shape) m faulted cancelled).declare p.declared
    some (({ s with teams := s.teams ++ [t] }).setCore (s.core c))
  | _, _ => none

/-- The record of a launch's unit (R310). -/
def Launch.unitRec (l : Launch) (u : Nat) : UnitRec :=
  ⟨l.code, l.frame + BitVec.ofNat 52 (u * l.stride.toNat), l.join, BitVec.ofNat 32 u, l.slots, l.shapeIdx, l.prio, l.lvl,
    l.yoke, l.rbk, some l.id⟩

/-! ### Popping (R316) -/

/-- The STEP of an entry of the schedule, where the racking engine can read it. -/
def schedStep (s : State) (p : Partition) (n : Nat) : Option Nat :=
  match s.ownRead p (.racking p.id 0) ((p.rackb.toNat + 16 * n) % 2 ^ 52) 16 with
  | .val v _ _ => some (bits v 0 16)
  | _ => none

/-- Whether a move that an entry of the schedule asked for, of a step up to `st`, is still on its way. -/
def State.rackMoving (s : State) (p : Partition) (st : Nat) : Bool :=
  s.moves.any (fun m => m.part == p.id && (match m.rack with
    | some n => (match schedStep s p n with | some k => decide (k ≤ st) | none => true)
    | none => false))

/-- Whether the racking step a launch awaits is complete (R217, R249): every entry of it is carried out, its moves made; with no
binding of the counter it counts so. -/
def Launch.racked (s : State) (p : Partition) (l : Launch) : Bool :=
  match l.rke, l.slots.phase with
  | some st, some c =>
    match p.bindings.find? (·.counter == c) with
    | none => true
    | some b => (st < b.top || (match schedStep s p b.next with | some n => decide (st < n) | none => false)) && !s.rackMoving p st
  | _, _ => true

/-- A core's take of the head of a ring: none when it has no room or the head waits. -/
def State.popHead (s : State) (c : BitVec 11) (p : Partition) (r : Ring) : Option State :=
  match r.entries with
  | [] => none
  | .range l first stride n pos :: rest =>
    match s.launch? l with
    | none => none
    | some k =>
      if !k.racked s p then none
      else match s.startUnit c p (k.unitRec (64 * first + pos)) k.shape.toNat 0 0 with
        | none => none
        | some s =>
          let left : List RingEntry :=
            if pos + 1 < k.chunkSize first then [.range l first stride n (pos + 1)]
            else if 1 < n then [.range l (first + stride) stride (n - 1) 0]
            else []
          some (s.setRing { r with entries := left ++ rest, reserved := false })
  | .cont u f x shape :: rest =>
    match s.startUnit c p u shape.toNat f x with
    | none => none
    | some s => some (s.setRing { r with entries := rest, reserved := false })

/-- Due teams that go ahead of a pop of priority `prio` on a core (R320). -/
def State.dueAhead (s : State) (c : BitVec 11) (prio : Nat) : Bool :=
  s.teams.any (fun t => coreOf t.agent == c && t.resid == .due && prio ≤ t.work.prio)

/-- The pop of a core from its die's rings of priority `n − 1` and below. -/
def State.popFrom (s : State) (c : BitVec 11) (p : Partition) : Nat → Option State
  | 0 => none
  | n + 1 =>
    let r := s.ring p.id (dieOf c) n
    if s.dueAhead c n then none
    else match s.popHead c p r with
      | some s => some s
      | none => if r.reserved && !r.entries.isEmpty then none else s.popFrom c p n

/-- Whether a core takes work of a partition (R226, R228, R364). -/
def State.pops (s : State) (c : BitVec 11) (part : Nat) : Bool :=
  let k := s.core c
  (s.die (dieOf c)).part == some part && !k.halted && (match k.candle with | some x => x.result.isSome | none => true) &&
  !k.switching && coreExists c

/-- The pop of a core, when it can make one. -/
def State.pop? (s : State) (c : BitVec 11) : Option State :=
  match (s.die (dieOf c)).part.bind s.part? with
  | none => none
  | some p => if s.pops c p.id then s.popFrom c p 8 else none

/-- UNIT_POP (R316, R318). -/
def execUnitPop (c : BitVec 11) (s : State) : Out := .next ((s.pop? c).getD s)

/-- HEAD_RESERVATION (R316): the ring's head has stood unpopped for 65,536 cycles. -/
def execHeadReservation (part die prio : Nat) (s : State) : Out :=
  let r := s.ring part die prio
  .next (if r.entries.isEmpty then s else s.setRing { r with reserved := true })

/-! ### Stealing (R317) -/

/-- Unstarted chunks of a range. -/
def RingEntry.fresh : RingEntry → Nat
  | .range _ _ _ n pos => if pos = 0 then n else n - 1
  | .cont _ _ _ _ => 0

/-- Takes half of the first range that has two unstarted chunks. -/
def stealFrom : List RingEntry → Option (List RingEntry × RingEntry)
  | [] => none
  | .range l first stride n pos :: rest =>
    let r := if pos = 0 then n else n - 1
    if 2 ≤ r then
      some (.range l first stride (n - r / 2) pos :: rest, .range l (first + stride * (n - r / 2)) stride (r / 2) 0)
    else (stealFrom rest).map (fun x => (.range l first stride n pos :: x.1, x.2))
  | .cont u f x shape :: rest => (stealFrom rest).map (fun y => (.cont u f x shape :: y.1, y.2))

/-- What a victim gives, from priority 7 down. -/
def State.stealPrio (s : State) (part victim : Nat) : Nat → State × Option (Nat × RingEntry)
  | 0 => (s, none)
  | n + 1 =>
    let r := s.ring part victim n
    match stealFrom r.entries with
    | some (es, g) => (s.setRing { r with entries := es }, some (n, g))
    | none => s.stealPrio part victim n

/-- The other dies, in the order of asking. -/
def diesAfter (thief : Nat) : List Nat := (List.range 7).map (fun k => (thief + k + 1) % 8)

/-- The dies a thief asks, in order (R317). -/
def State.victims (s : State) (part thief : Nat) : List Nat :=
  (diesAfter thief).filter (s.activeDies part).contains

/-- Whether a die has a steal of a partition on its way. -/
def State.stealing (s : State) (part thief : Nat) : Bool :=
  s.steals.any (fun x => x.part == part && x.thief == thief) ||
  s.agenda.any (fun e => match e with | .stealReq p t _ => p == part && t == thief | _ => false)

/-- Whether a die's distributor sends a steal message: no range of its rings has an unstarted chunk. -/
def State.mayAsk (s : State) (part thief : Nat) : Bool :=
  (s.die thief).part == some part && !(s.die thief).quiet.contains part && !s.stealing part thief &&
  (s.ringsOf part thief).all (fun r => r.entries.all (fun e => e.fresh == 0))

/-- STEAL_REQUEST (R317): the victim answers with half of its first range's unstarted chunks, or empty. -/
def execStealRequest (part thief victim : Nat) (s : State) : Out :=
  let (s, g) := s.stealPrio part victim 8
  let s : State := { s with steals := s.steals ++ [⟨part, thief, victim, g⟩] }
  .next (s.push (.stealAns part thief victim))

/-- STEAL_ANSWER (R317): what was given becomes a range entry of the thief; after an empty answer it asks the next die,
and after the last none until an entry is placed. -/
def execStealAnswer (part thief victim : Nat) (s : State) : Out :=
  .next (match s.steals.find? (fun x => x.part == part && x.thief == thief && x.victim == victim) with
    | none => s
    | some x =>
      let s : State := { s with steals := s.steals.erase x }
      match x.gift with
      | some (prio, e) => (s.placeEntry part thief prio e).yieldCancelled part
      | none =>
        match (((diesAfter thief).dropWhile (· != victim)).drop 1).filter (s.activeDies part).contains with
        | v :: _ => s.push (.stealReq part thief v)
        | [] => s.updDie thief (fun d => { d with quiet := part :: d.quiet.filter (· != part) }))

/-! ### Joins and continuations (R315, R324) -/

/-- Adds to a saturating 24-bit count. -/
def sat24 (x n : Nat) : Nat := min 0xFF_FFFF (x + n)

/-- A join step on the record at a place of a leaf (R324): with the last unit its continuation is enqueued by the distributor of the die
that holds the record (R315). -/
def State.joinAt (s : State) (part pa : Nat) (leaf : QWord) (n faulted cancelled : Nat) : State :=
  let w := s.readP pa 16
  let remain := (bits w 0 32 + (2 ^ 32 - n % 2 ^ 32)) % 2 ^ 32
  let f := sat24 (bits w 32 24) faulted
  let c := sat24 (bits w 56 24) cancelled
  let s := s.writeP pa 16 (setBits (setBits (setBits w 0 32 remain) 32 24 f) 56 24 c)
  let cont := bits w 80 47 * 32
  if remain = 0 && cont ≠ 0 then s.push (.enqueue part (frameDie (lfFrame leaf)) (BitVec.ofNat 52 cont) f c none) else s

/-- The release of a join step (R239): at the scope of the record's page, from the agent whose unit has ended, or from every cluster of
a list. -/
def State.joinRelease (s : State) (part : Nat) (a : AgentId) (clusters : List Nat) (scope : Nat) : State :=
  let cores := if a = 0xFFFF then clusters.map (fun cl => BitVec.ofNat 11 (cl * 16)) else [coreOf a]
  cores.foldl (fun s c => s.release part c scope) s

/-- One atomic step on a join record (R311, R324): `n` units less, with their faults and cancels. It releases at the scope of the
record's page (`joinRelease`). A record in another package is stepped there (R289). -/
def State.joinStep (s : State) (part die : Nat) (a : AgentId) (join : Addr) (n faulted cancelled : Nat)
    (clusters : List Nat) : State :=
  let ev : Event := .joinStep part die a join n faulted cancelled clusters
  match s.part? part with
  | none => s
  | some p =>
    match ownAccess s p .amo join.toNat 16 with
    | .stall s => s.push ev
    | .fault sub lvl gen => s.parkDist p die ev a join.toNat 2 0xFFFF_FFFF sub lvl gen
    | .refused sub gen => s.record part (errRecord 6 sub a 0xFFFF_FFFF join.toNat 2 0 gen)
    | .far leaf =>
      if lfMode leaf ≠ mAtomic then s.record part (errRecord 6 4 a 0xFFFF_FFFF join.toNat 2 0 (lfGen leaf))
      else
        let s := if (s.farOf part ev join.toNat).isNone then s.joinRelease part a clusters (lfScope leaf) else s
        match s.farTake part ev (lfOwner leaf) 1 leaf join.toNat (.join n faulted cancelled) with
        | .inl s => s.push ev
        | .inr (s, r) => match r.refused with
          | none => s
          | some (8, sub) => s.parkDist p die ev a join.toNat 2 0xFFFF_FFFF sub 0 0
          | some (cls, sub) => s.record part (errRecord (cls.setWidth 8) sub a 0xFFFF_FFFF join.toNat 2)
    | .ok pa leaf =>
      if lfMode leaf ≠ mAtomic then s.record part (errRecord 6 4 a 0xFFFF_FFFF join.toNat 2 0 (lfGen leaf))
      else (s.joinRelease part a clusters (lfScope leaf)).joinAt part pa leaf n faulted cancelled

/-- JOIN_STEP (R324). -/
def execJoinStep (part die : Nat) (a : AgentId) (join : Addr) (n faulted cancelled : Nat) (s : State) : Out :=
  .next (s.joinStep part die a join n faulted cancelled [])

/-- A level slot of a record: its counter when it is valid. -/
def slot13 (w lo : Nat) : Option Nat := if bits w (lo + 12) 1 = 1 then some (bits w lo 12) else none

/-- The fields of a continuation record (R310). -/
def contRec (w : Nat) : UnitRec :=
  ⟨BitVec.ofNat 52 (bits w 0 52), BitVec.ofNat 52 (bits w 52 52), BitVec.ofNat 52 (bits w 104 52),
    BitVec.ofNat 32 (bits w 156 32), ⟨slot13 w 188, slot13 w 201, slot13 w 214, slot13 w 227⟩, bits w 240 8, bits w 248 3,
    bits w 251 1 = 1, bits w 252 1 = 1, bits w 253 1 = 1, none⟩

/-- A continuation that is not enqueued: its record of KIND 2 (R315). -/
def State.contFail (s : State) (part : Nat) (cls sub : BitVec 8) (va : Nat) (wlvl : Nat := 7) (gen : BitVec 16 := 0) : State :=
  s.record part (errRecord cls sub 0xFFFF 0xFFFF_FFFE va 5 wlvl gen)

/-- A continuation whose record is read: its fields are checked, its shape read, and it enters its ring. -/
def State.enqueueRec (s : State) (p : Partition) (die : Nat) (addr : Addr) (faulted cancelled w : Nat) : State :=
  let ev : Event := .enqueue p.id die addr faulted cancelled (some w)
  let u := contRec w
  if bits w 254 2 ≠ 0 || u.code.toNat % 8 ≠ 0 || u.join.toNat % 16 ≠ 0 then s.contFail p.id 9 1 addr.toNat
  else
    let va := (p.tshape.toNat + 8 * u.shape) % 2 ^ 52
    match s.ownRead p ev va 8 with
    | .wait s => s.push ev
    | .fault sub lvl gen s => s.parkDist p die ev 0xFFFF va 5 0xFFFF_FFFE sub lvl gen
    | .refused cls sub gen s => s.contFail p.id (cls.setWidth 8) sub va 0 gen
    | .val shape _ s =>
      if !s.shapeValid p shape then s.contFail p.id 9 1 addr.toNat
      else if p.cancels u.slots then
        if u.join = 0 then s else s.push (.joinStep p.id die 0xFFFF u.join 1 0 1 [])
      else s.placeEntry p.id die u.prio (.cont u faulted cancelled (BitVec.ofNat 64 shape))

/-- The enqueue of a continuation (R315): its record is read once; after that its memory may be used again. -/
def State.enqueue (s : State) (part die : Nat) (addr : Addr) (faulted cancelled : Nat) (record : Option Nat) : State :=
  let ev : Event := .enqueue part die addr faulted cancelled none
  match s.part? part with
  | none => s
  | some p =>
    match record with
    | some w => s.enqueueRec p die addr faulted cancelled w
    | none =>
      match s.ownRead p ev addr.toNat 32 with
      | .wait s => s.push ev
      | .fault sub lvl gen s => s.parkDist p die ev 0xFFFF addr.toNat 5 0xFFFF_FFFE sub lvl gen
      | .refused cls sub gen s => s.contFail part (cls.setWidth 8) sub addr.toNat 0 gen
      | .val w _ s => s.enqueueRec p die addr faulted cancelled w

/-- CONTINUATION_ENQUEUE (R315). -/
def execContinuationEnqueue (part die : Nat) (addr : Addr) (faulted cancelled : Nat) (s : State) : Out :=
  .next (s.enqueue part die addr faulted cancelled none)

/-! ### The completion of a launch (R326) -/

/-- The counters that a unit's slots name, each once. -/
def Slots.counters (l : Slots) : List Nat := [l.launch, l.graph, l.phase, l.job].reduceOption.dedup

/-- A launch is over: each counter it names advances by one, as a releasing ARRIVE from every cluster on which a unit of it
ran (R239, R326). -/
def State.advance (s : State) (k : Launch) : State :=
  match s.part? k.part with
  | none => s
  | some p =>
    k.slots.counters.foldl (fun s c =>
      (k.clusters.foldl (fun s cl => s.release k.part (BitVec.ofNat 11 (cl * 16)) (p.counter c).scope) s).countUp k.part c 1) s

/-- Frees a launch's snapshots. -/
def State.freeSnaps (s : State) (k : Launch) : State :=
  { s with taken := k.snaps.foldl (fun l x => l.erase x.2) s.taken }

/-- LAUNCH_COMPLETION (R326); under rollback the held steps are applied with it and the snapshots freed (R324, R418). -/
def execLaunchCompletion (part l : Nat) (s : State) : Out :=
  .next (match s.launch? l with
    | none => s
    | some k =>
      if k.part ≠ part || !k.over || k.failing.isSome then s
      else
        let s := s.freeSnaps k
        let s := if k.rbk && k.join ≠ 0 then
            s.joinStep part ((k.clusters.head?.getD 0) / 16) 0xFFFF k.join k.heldEnds k.heldFaulted k.heldCancelled k.clusters
          else s
        let s := s.advance k
        { s with launches := s.launches.filter (·.id != l) })

/-! ### Discards (R325) -/

/-- CANCEL goes to a member, as a message with k and m of the sender's CRATE (R383, R398). -/
def State.sendCancel (s : State) (p : Partition) (table rank pkg agent : Nat) : State :=
  let (mid, s) := s.newMid
  let a : AgentId := BitVec.ofNat 16 agent
  let t : Addr := BitVec.ofNat 52 table
  if s.isLocal pkg then s.push (.cancelled p.id a t rank)
  else s.sendBody (BitVec.ofNat 12 pkg) 3 (some a) mid (bits p.crate.toNat 0 5) (bits p.crate.toNat 8 4) (.cancel t rank)

/-- CANCEL goes to the other members of a collective (R398); where the table cannot be read, once it can (log 47). -/
def State.cancelMembers (s : State) (p : Partition) (table rank n : Nat) (members : Option (List (Nat × Nat))) : State :=
  match members with
  | some l => (l.zipIdx.filter (fun m => m.2 ≠ rank)).foldl (fun s m => s.sendCancel p table rank m.1.1 m.1.2) s
  | none => s.push (.cancels p.id table rank n)

/-- The member table of a job's group, which may lie in another package: its members, or what reading it asks for. -/
def State.readTable (s : State) (j : Job) (g : Group) : State ⊕ Option (List (Nat × Nat)) :=
  match (s.team? j.agent).bind (fun t => s.part? t.part) with
  | none => .inr none
  | some p => match tableOf s p g.table g.n with
    | some l => .inr (some l)
    | none => match (L.jobNums j false g.table 4 g.n) (s.jobLS j) with
      | .ok (l, _) => .inr (some (l.map (fun w => (bits w 16 12, bits w 0 16))))
      | .error (.block .remote s' _ _) => .inl s'
      | .error _ => .inr none

/-- What a discard has still to ask of other packages before it can send its CANCELs. -/
def State.tableWait (s : State) (a : AgentId) : Option State :=
  (s.jobs.filter (fun j => j.agent == a && j.st != .done)).findSome? (fun j =>
    (s.collGroups j).findSome? (fun g => match s.readTable j g with | .inl s' => some s' | .inr _ => none))

/-- CANCEL for every COLL of a discarded job that is not complete (R398). -/
def State.sendCancels (s : State) (j : Job) : State :=
  match (s.team? j.agent).bind (fun t => s.part? t.part) with
  | none => s
  | some p => (s.collGroups j).foldl (fun s g => s.cancelMembers p g.table g.rank g.n
      (match s.readTable j g with | .inr l => l | .inl _ => none)) s

/-- A team is stopped and discarded (R325). -/
def State.discardTeam (s : State) (a : AgentId) : State :=
  let live := (s.jobs.filter (fun j => j.agent == a && j.st != .done))
  let s := live.foldl (fun s j => s.sendCancels j) s
  let s := live.foldl (fun s j => s.cancelJob j.id) s
  let part := ((s.team? a).map (·.part)).getD 0
  let s : State := { s with mail := s.mail.filter (fun m => !(m.part == part && m.agent == a)) }
  (s.freeParked a).unitEnd a true

/-- The discard of a team, unless one of its jobs has still to come to its stopping unit (R349), or a member table to come from another
package (R398): then it stays due. -/
def State.discardDue (s : State) (a : AgentId) : State :=
  if !s.teamStops a then s.push (.discard a)
  else match s.tableWait a with
    | some s' => s'.push (.discard a)
    | none => s.discardTeam a

/-- The launches of a partition whose context has ended go with its last team (R360). -/
def State.endLaunches (s : State) (part : Nat) : State :=
  if s.allTeams.any (fun t => t.part == part && t.doomed) then s
  else { s with launches := s.launches.filter (·.part != part) }

/-- TEAM_DISCARD (R325): the team that a cancel, a failed attempt or the end of its partition's context has reached. -/
def execTeamDiscard (a : AgentId) (s : State) : Out :=
  .next (match s.allTeams.find? (fun t => t.agent == a && (t.axed || t.doomed)) with
    | none => s
    | some t =>
      let s := s.inCtx (coreOf a) t.part (·.discardDue a)
      if t.doomed then s.endLaunches t.part else s)

/-! ### Swap and re-admission by the hardware (R320) -/

/-- Waits that are swap-eligible (R103, R175, R182, R191, R194, R196, R204, R231, R346). -/
def Wait.eligible : Wait → Bool
  | .rdv | .counter | .chan _ | .take | .probe | .engine | .tile | .mpiv | .queue | .ewait | .jobTable | .parkr => true
  | _ => false

/-- A batch that waits for the answer of another package to a word on a channel: its wait is one for that channel (R103, R245). -/
def Stuck.onStream (k : Stuck) : Bool :=
  (match k.why with | .remote | .chan _ => true | _ => false) && ((k.word.map (fun i => !(chansOf i).isEmpty && !accessWord i)).getD false)

/-- Whether a batch stands in a swap-eligible wait. -/
def Stuck.waits (k : Stuck) : Bool := k.why.eligible || k.onStream

/-- Whether a fibre stands in a swap-eligible wait. -/
def Team.fibreWaits (t : Team) (x : Nat × Fibre) : Bool :=
  match x.2.st with
  | .atMask _ => true
  | .atBar _ => true
  | .stuck =>
    let l := x.1 % t.width
    (t.wave (x.1 / t.width)).stuck.any (fun k => k.waits && k.ent.isNone && (k.todo.contains l || k.done.contains l))
  | _ => false

/-- Whether every live fibre stands so. -/
def Team.allWait (t : Team) : Bool := t.fibres.all t.fibreWaits

/-- Whether a team may be swapped by the hardware. An MPIV in which its fibres wait is no job that holds it back: the wait for the
pivot is swap-eligible (R194). -/
def State.swappable (s : State) (t : Team) : Bool :=
  t.resid == .resident && t.allWait &&
  !(s.core (coreOf t.agent)).replay.any (·.agent == t.agent) &&
  !(s.activeJobs t.agent).any (fun j => (j.eng == .matrix && j.wait.isNone) || j.eng == .quant || (j.reads ++ j.writes).any (·.scratch))

/-- A team leaves its core (R224, R320): its context goes to SWAPB, its slots, registers and scratch are free, and it holds the
matrix engine no longer; `stop` says which of its jobs stop. -/
def State.swapOut (s : State) (a : AgentId) (how : Resid) (stop : Job → Bool) : State :=
  let s := (s.jobs.filter (fun j => j.agent == a && j.st != .done && stop j)).foldl (fun s j => s.stopJob j.id) s
  let s := s.updCore (coreOf a) (fun k => { k with holder := if k.holder = some a then none else k.holder })
  let s := s.writeSwap (((s.team? a).map (·.part)).getD 0)
  s.updTeam a (fun t => { t with resid := how })

/-- Whether a core lacks room for a shape: a team slot or the rest (R316). -/
def State.lacksRoom (s : State) (c : BitVec 11) (p : Partition) (shape : Nat) : Bool :=
  (s.teamSlot c).isNone || (s.room c p (shapeOf shape)).isNone

/-- Whether a queued unit of equal or higher priority finds no room on the team's core. -/
def State.refusedFor (s : State) (t : Team) : Bool :=
  let c := coreOf t.agent
  match s.part? t.part with
  | none => false
  | some p =>
    s.pops c t.part && (s.ringsOf t.part (dieOf c)).any (fun r => decide (t.work.prio ≤ r.prio) &&
      (match r.entries with
       | .range l _ _ _ _ :: _ => match s.launch? l with
         | some k => k.racked s p && s.lacksRoom c p k.shape.toNat
         | none => false
       | .cont _ _ _ w :: _ => s.lacksRoom c p w.toNat
       | [] => false))

/-- Whether no other swappable team of the core has waited longer. -/
def State.swapFirst (s : State) (t : Team) : Bool :=
  s.teams.all (fun u => !(coreOf u.agent == coreOf t.agent && s.swappable u) ||
    (match t.since, u.since with | some m, some n => decide (m ≤ n) | some _, none => true | none, _ => u.agent == t.agent))

/-- HARDWARE_SWAP (R320): past WTHR, the swappable team that has waited longest makes room for a queued unit. -/
def execHardwareSwap (a : AgentId) (s : State) : Out :=
  .next (match s.team? a with
    | none => s
    | some t => if s.swappable t && s.refusedFor t && s.swapFirst t then s.swapOut a .swappedByHw (fun j => j.eng == .matrix) else s)

/-- A team comes back to its core and slot; none without room. -/
def State.swapIn (s : State) (a : AgentId) : Option State :=
  match s.team? a with
  | none => none
  | some t =>
    match s.part? t.part with
    | none => none
    | some p =>
      match s.room (coreOf a) p ⟨t.nwaves, t.gWin, t.fWin, t.scr / 4096, t.tiles, false⟩ with
      | none => none
      | some m =>
        let reslot (t : Team) : Team := { t with
          resid := .resident
          scrPage := m.page
          waves := Vector.ofFn (fun (i : Fin 32) => { vget t.waves i.val with wslot := m.waves.getD i.val 0 }) }
        some ((s.updTeam a reslot).resumeJobs a)

/-- TEAM_READMIT (R320): a due team, once its core has room. -/
def execTeamReadmit (a : AgentId) (s : State) : Out :=
  .next (match s.team? a with
    | none => s
    | some t => if t.resid == .due then (s.swapIn a).getD s else s)

end Sys2Proof.Machine
end

