-- ==== Sys2Proof/Machine/System.lean ====
section
/-! DEFINITION. The meanings of group 7, first part: entering and leaving handlers (R209, R210), the replay queue (R211,
R212), CSRs (R25, R213, R214) and level counters (R219). -/

namespace Sys2Proof.Machine

/-- ILL PRIV below a level (R14). -/
def L.needLevel (n : Nat) : L Unit := do if (← L.level) < n then L.trap 0 0x0C

/-! ### Traps and the return from them -/

/-- TRAP (R209): the code is the aux word of each executing lane. -/
def execTrap (h : Hdr) (code : BitVec 13) (s : State) : Out :=
  laneWord (.trap h code) h .each (L.trap 14 0 0 (code.setWidth 32)) s

/-- SYSC (R209). -/
def execSysc (h : Hdr) (code : BitVec 13) (s : State) : Out :=
  laneWord (.sysc h code) h .each (do
    if (← L.level) = 2 then L.trap 0 0x0C
    L.trap 13 0 0 (code.setWidth 32)) s

/-- Closes every lookahead window of a wave. -/
def Wave.closeWindows (w : Wave) : Wave :=
  { w with unfinished := w.unfinished.map (fun e => { e with lanes := e.lanes.map (fun r => { r with win := 0 }) }) }

/-- After RFT: unless the word waits, or no lane passed its guard in the state before it, the wave returns, and what waits for no
window word lands. -/
def afterRft (s0 : State) (g : Option Guard) (b : Issue) (s : State) : State :=
  match s0.team? b.agent, s.wave? b.agent b.wave with
  | some t, some w =>
    if b.lanes.any (fun l => guardPass g (t.regsAt b.wave l)) && !w.stuck.any (·.pc == b.pc)
    then (s.returnHandler b.agent b.wave).landReady b.agent b.wave else s
  | _, _ => s

/-- RFT (R210, R357): it waits for the handler's own words, then the wave continues where it was. -/
def execRft (h : Hdr) (s : State) : Out :=
  runWord (.rft h) h.guard .once (afterRft s h.guard) (fun _ => do
    L.needLevel 1
    let x ← get
    let w ← L.wave
    if w.h.isNone ∨ w.lost then L.trap 0 0x0C
    if !((← L.team).liveLanes x.wave).all x.execs.contains then L.trap 11 1
    if w.unfinished.any (fun e => e.lanes.any (fun r => !r.perf)) then L.block .rft
    L.modWave Wave.closeWindows) s

/-! ### The replay queue (R211, R212) -/

/-- Bytes of the image of a replay entry. -/
def imageLen : Nat := 2624

/-- The 80 bytes of one lane (R211). What MRDZ captured as B is the model's own job number and reads as zero. -/
def laneImage (mrdz : Bool) (r : Option LaneRec) : List (BitVec 8) :=
  match r with
  | none => List.replicate 80 0
  | some r =>
    let tags := r.cap.ta.toNat + r.cap.tb.toNat * 16 + r.cap.td.toNat * 256 + (if r.perf then r.rtag.toNat else 0) * 4096
    bytesOfNat 16 r.cap.av.toNat ++ bytesOfNat 16 (if mrdz then 0 else r.cap.bv.toNat) ++ bytesOfNat 16 r.cap.dv.toNat ++
      bytesOfNat 16 (if r.perf then r.res.toNat else 0) ++ bytesOfNat 4 tags ++ bytesOfNat 1 (if r.perf then 1 else 0) ++
      List.replicate 11 0

/-- MRDZ. -/
def Instr.isMrdz : Instr → Bool
  | .mrdz .. => true
  | _ => false

/-- The image of an entry (R211): its lanes are those whose result has still to land, and FLT says that they are bound for their late
traps (DEDUCED, log 95). -/
def entryImage (e : Entry) : List (BitVec 8) :=
  let win := (e.lanes.map (·.win)).foldl max 0
  let perf := e.lanes.all (·.perf)
  bytesOfNat 8 (encode e.ins).toNat ++ bytesOfNat 8 e.pc.toNat ++ bytesOfNat 4 (laneSet (e.lanes.map (·.lane))).toNat ++
    bytesOfNat 1 (win + (if perf then 16 else 0) + (if e.fate.isEmpty then 0 else 32)) ++ List.replicate 43 0 ++
    (List.range 32).flatMap (fun l => laneImage (Instr.isMrdz e.ins) (e.lanes.find? (·.lane == l)))

/-- Level at which a CSR may be read, and at which it may be written, where it may (R25). -/
def csrReadLevel (n : Nat) : Option Nat :=
  if n ≤ 8 ∨ n = 0x10A then some 0
  else if 0x100 ≤ n ∧ n ≤ 0x10F then some 1
  else if 0x300 ≤ n ∧ n ≤ 0x303 then some 2
  else none
def csrWriteLevel (n : Nat) : Option Nat :=
  if n = 0 ∨ n = 4 ∨ n = 5 then some 0
  else if n = 0x10C ∨ n = 0x10F ∨ (0x300 ≤ n ∧ n ≤ 0x302) then some 2
  else if n = 3 ∨ n = 6 ∨ n = 7 ∨ (0x100 ≤ n ∧ n ≤ 0x105) ∨ n = 0x108 ∨ n = 0x109 ∨ n = 0x10B ∨ n = 0x10D ∨ n = 0x10E then some 1
  else none

/-- Whether a level reaches one that a table gives. -/
def reaches (lvl : Nat) (o : Option Nat) : Bool := match o with | some n => decide (n ≤ lvl) | none => false

/-- Whether a decoded word raises ILL PRIV or ILL CSR at a level (R14, R25, R51). -/
def illAt (lvl : Nat) (i : Instr) : Bool :=
  match i with
  | .csrr _ _ n | .csrHighLatchRead _ _ n => !reaches lvl (csrReadLevel n.toNat)
  | .csrw _ _ n => !reaches lvl (csrWriteLevel n.toNat)
  | .csrx _ _ _ n => !reaches lvl (csrReadLevel n.toNat) || !reaches lvl (csrWriteLevel n.toNat)
  | .cntr _ _ _ _ op _ => 2 ≤ op.toNat && lvl = 0
  | .sysc .. => lvl = 2
  | .mstatWrite .. | .tepcWrite .. | .fltqWrite .. | .rft .. | .rplyGet .. | .rplyPut .. | .rplyDrop .. | .rplyIns ..
  | .lnch .. | .canc .. | .tinv .. | .rack .. | .parkr .. | .rsumRetry .. | .rsumFail .. | .swpo .. | .swpi .. | .prem ..
  | .halt .. | .haltEnable .. => lvl = 0
  | .keystWrite .. | .frz .. | .cndl .. | .cmap .. | .atst .. => lvl < 2
  | _ => false

/-- A slice of an image as a number. -/
def slice (b : List (BitVec 8)) (off n : Nat) : Nat := natOfBytes ((b.drop off).take n)

/-- The entry of an image at a level; none when it is refused (R212). `live` are the wave's live lanes, `job` what an
MRDZ put back captures. An image whose RES carries a tag that is never written (R19) is refused, and bits 2:0 of its PC are taken as
zero (R9, R15; DESIGN CHOICE, log 95). -/
def entryOf (b : List (BitVec 8)) (lvl : Nat) (live : List Nat) (id job : Nat) : Option Entry :=
  match decode (BitVec.ofNat 64 (slice b 0 8)) with
  | .error _ => none
  | .ok i =>
    let flg := slice b 20 1
    let set := slice b 16 4
    let named := (List.range 32).filter (fun l => set.testBit l)
    let win := flg % 16
    let la := i.fields.h.la.toNat
    let off (l : Nat) : Nat := 64 + 80 * l
    let tidy (l : Nat) : Bool :=
      slice b (off l + 69) 11 = 0 && slice b (off l + 68) 1 < 2 && slice b (off l + 66) 2 = 0 && slice b (off l + 65) 1 < 14 * 16
    let mk (l : Nat) : LaneRec :=
      let tags := slice b (off l + 64) 4
      let tag (k : Nat) : BitVec 4 := BitVec.ofNat 4 (tags / 16 ^ k)
      let c : Cap := ⟨BitVec.ofNat 128 (slice b (off l) 16),
        if Instr.isMrdz i then BitVec.ofNat 128 job else BitVec.ofNat 128 (slice b (off l + 16) 16),
        BitVec.ofNat 128 (slice b (off l + 32) 16), tag 0, tag 1, tag 2⟩
      let perf := bits flg 4 1 = 1 || slice b (off l + 68) 1 = 1
      let res := BitVec.ofNat 128 (slice b (off l + 48) 16)
      ⟨l, c, c, win, la - win, perf, res, tag 3, res⟩
    if illAt lvl i || la < win || !named.all live.contains || slice b 21 43 ≠ 0 || 64 ≤ flg || 2 ^ 52 ≤ slice b 8 8 ||
      !(List.range 32).all tidy then none
    else some ⟨id, i, BitVec.ofNat 52 (slice b 8 8 / 8 * 8), named.map mk, [], named, false, []⟩

/-- The operations of RPLY (R212) on a queue: what each answers, the queue after it, and what goes to scratch. -/
def rplyOp (q : List Entry) (op i : Nat) (img : Option Entry) : Nat × List Entry × List (BitVec 8) :=
  match op with
  | 0 => match q[i]? with
    | some e => (0, q, entryImage e)
    | none => (1, q, [])
  | 1 => if q.length ≤ i then (1, q, []) else match img with
    | some e => (0, q.set i e, [])
    | none => (2, q, [])
  | 2 => if q.length ≤ i then (1, q, []) else (0, q.eraseIdx i, [])
  | _ => if q.length < i then (1, q, []) else match img with
    | some e => if 16 ≤ q.length then (4, q, []) else (0, q.insertIdx i e, [])
    | none => (2, q, [])

/-- RPLY (R211, R212): the control word gives the operation. It acts once; every executing lane takes the status. -/
def rplyWord (ins : Instr) (h : Hdr) (d a b : Opnd) (s : State) : Out :=
  runWord ins h.guard .once (fun _ => id) (fun _ => do
    L.needLevel 1
    let x ← get
    match (← L.wave).h with
    | none => L.trap 0 0x0C
    | some _ =>
      L.check 1 [a, b] [d]
      let ctl ← L.rdW a
      L.sameInAll ctl (L.rdW a)
      let off ← L.rdW b
      L.sameInAll off (L.rdW b)
      let op := bits ctl.toNat 4 2
      L.checkScr off.toNat imageLen 16
      match (x.st0.team? x.agent) with
      | none => L.stop .lost
      | some t =>
        match (t.wave x.wave).h with
        | none => L.stop .lost
        | some hs =>
          let img := entryOf (t.scratch.bytes off.toNat imageLen) hs.level.toNat (t.liveLanes x.wave)
            (match op, hs.replay[bits ctl.toNat 0 4]? with | 1, some e => e.id | _, _ => x.st0.tick) x.st0.nextJob
          let (st, q, out) := rplyOp hs.replay op (bits ctl.toNat 0 4) img
          let st := if st ≠ 1 && st ≠ 2 && bits ctl.toNat 6 26 ≠ 0 then 3 else st
          if x.execs.head? == some x.lane then
            if op = 1 ∨ op = 3 then
              if t.scrBad off.toNat imageLen then L.chki 4
            if st = 0 then
              L.modWave (fun w => { w with h := some { hs with replay := q } })
              L.modTeam (fun t => t.wrScrBytes off.toNat out)
          L.wrW d (BitVec.ofNat 32 st)) s

def execRplyGet (h : Hdr) (d a b : Opnd) (s : State) : Out := rplyWord (.rplyGet h d a b) h d a b s
def execRplyPut (h : Hdr) (d a b : Opnd) (s : State) : Out := rplyWord (.rplyPut h d a b) h d a b s
def execRplyDrop (h : Hdr) (d a b : Opnd) (s : State) : Out := rplyWord (.rplyDrop h d a b) h d a b s
def execRplyIns (h : Hdr) (d a b : Opnd) (s : State) : Out := rplyWord (.rplyIns h d a b) h d a b s

/-! ### CSRs (R25, R213, R214) -/

/-- KEYST as it shows the selected port (R399). -/
def State.keyst (s : State) : Word :=
  match s.port? s.keyPort.toNat with
  | none => s.keyPort.setWidth 32
  | some p => BitVec.ofNat 32 (s.keyPort.toNat + p.tx0.st.toNat * 2 ^ 8 + p.tx1.st.toNat * 2 ^ 10 + p.rx0.st.toNat * 2 ^ 12 +
      p.rx1.st.toNat * 2 ^ 14 + (if p.up then 2 ^ 16 else 0) + (if p.rtr then 2 ^ 17 else 0) + p.swc.toNat * 2 ^ 24)

/-- ILL PRIV below the level, ILL CSR for a number that has no such access (R25). -/
def L.csrAllowed (n : Nat) (rd wr : Bool) : L Unit := do
  let lvl ← L.level
  let low (o : Option Nat) : Bool := match o with | some m => decide (lvl < m) | none => false
  if (rd && low (csrReadLevel n)) || (wr && (csrReadLevel n).isSome && low (csrWriteLevel n)) then L.trap 0 0x0C
  if (rd && (csrReadLevel n).isNone) || (wr && (csrWriteLevel n).isNone) then L.trap 0 0x0D

/-- Latches the high half of a 64-bit CSR for the fibre (R25). -/
def L.latch (n : Nat) (v : Word) : L Unit :=
  L.modFibre (fun f => { f with latch := (n, v) :: f.latch.filter (·.1 != n) })

/-- The 64-bit CSR that a high number belongs to. -/
def L.wideCsr (n : Nat) : L DWord := do
  if n = 2 then
    let x ← get
    return (x.st.core (coreOf x.agent)).cyc
  else return (← L.wave).tepc.setWidth 64

/-- The high half: the latched value once, else the half as it stands (R25). -/
def L.csrHigh (n : Nat) : L Word := do
  match (← L.fibre).latch.find? (·.1 == n) with
  | some (_, v) =>
    L.modFibre (fun f => { f with latch := f.latch.filter (·.1 != n) })
    return v
  | none => return (← L.wideCsr n).extractLsb' 32 32

/-- The fields of AGEM (R421): the margins, the supply offset, and whether it stands at its limit. -/
def agemWord (m : BitVec 16) (voff : Nat) : Word := BitVec.ofNat 32 (m.toNat * 2 ^ 16 + voff * 2 ^ 8 + (if voff = 24 then 1 else 0))

/-- AGEM of a physical core: what its last candling left, else the margins as reset step 4 read them (R421, R426). -/
def State.agemAt (s : State) (pc : Nat) : Word :=
  match s.agem.find? (·.1 == pc) with
  | some x => x.2
  | none => agemWord (Config.margins s.aged pc) 0

/-- AGEM as a logical core reads it: that of the physical core behind it. -/
def State.agemOf (s : State) (c : BitVec 11) : Word :=
  match s.physCore c with
  | some pc => s.agemAt (coreIndex pc)
  | none => 0

/-- A CSR's value as its number reads (R25). -/
def L.csrRead (n : Nat) : L Word := do
  let x ← get
  let t ← L.team
  let p ← L.part
  let w ← L.wave
  match n with
  | 0x000 => return t.fenv
  | 0x001 =>
    let v ← L.wideCsr 2
    L.latch 2 (v.extractLsb' 32 32)
    return v.extractLsb' 0 32
  | 0x003 => return t.chki
  | 0x004 => return t.glim
  | 0x005 => return t.ftau
  | 0x006 => return x.st.mstatOf x.agent
  | 0x007 => return p.crate
  | 0x008 => return BitVec.ofNat 32 p.id
  | 0x100 => return p.ptroot.extractLsb' 0 32
  | 0x101 => return p.tshape.extractLsb' 0 32
  | 0x102 => return p.rackb.extractLsb' 0 32
  | 0x103 => return p.wthr
  | 0x104 => return p.tvbk.extractLsb' 0 32
  | 0x105 => return p.tside.extractLsb' 0 32
  | 0x106 => return BitVec.ofNat 32 ((w.h.map (·.replay.length)).getD 0)
  | 0x107 => return w.tcause
  | 0x108 =>
    let v ← L.wideCsr 0x109
    L.latch 0x109 (v.extractLsb' 32 32)
    return v.extractLsb' 0 32
  | 0x10A => return w.level.setWidth 32
  | 0x10B => return p.fto
  | 0x10C => return x.st.rdl
  | 0x10D => return p.swapb.extractLsb' 0 32
  | 0x10E => return p.fltq.extractLsb' 0 32
  | 0x10F => return x.st.keyst
  | 0x300 => return x.st.tvbm.extractLsb' 0 32
  | 0x301 => return x.st.lcmap.extractLsb' 0 32
  | 0x302 => return x.st.frzcfg
  | 0x303 => return x.st.agemOf (coreOf x.agent)
  | n => L.csrHigh n

/-- ILL CSR for a value that the CSR's entry forbids (R25). -/
def L.csrRefuse (b : Bool) : L Unit := if b then L.trap 0 0x0D else pure ()

/-- FENV takes the value, reserved bits ignored (R10, R57, R58). -/
def L.writeFenv (v : Word) : L Unit := L.modTeam (fun t => { t with fenv := v &&& 0x1F1F })

/-- TEPC's low half is held for the fibre; its high half writes both (R213). TEPC holds the address of a word: bits 2:0 stay zero (R9, R15;
DEDUCED, log 101). -/
def L.writeTepc (hi : Bool) (v : Word) : L Unit := do
  if hi then
    let low := match (← L.fibre).held.find? (·.1 == 0x108) with
      | some (_, u) => u
      | none => (0 : Word)
    let keep := !(← L.fibre).held.any (·.1 == 0x108)
    let cur := (← L.wave).tepc
    let low := if keep then cur.extractLsb' 0 32 else low
    L.modFibre (fun f => { f with held := f.held.filter (·.1 != 0x108) })
    L.modWave (fun w => { w with tepc := v.extractLsb' 0 20 ++ (low &&& 0xFFFF_FFF8) })
  else L.modFibre (fun f => { f with held := (0x108, v) :: f.held.filter (·.1 != 0x108) })

/-- FLTQ: refused unaligned, or while records are queued or pending (R293). -/
def L.writeFltq (v : Word) : L Unit := do
  let p ← L.part
  L.csrRefuse (v.toNat % 4096 ≠ 0 || p.fltCount ≠ 0 || !p.pending.isEmpty)
  L.modPart (fun p => { p with fltq := v.setWidth 52 })

/-- MSTAT: only its own value is accepted, without effect (R340). -/
def L.writeMstat (v : Word) : L Unit := do
  let x ← get
  L.csrRefuse (v ≠ x.st.mstatOf x.agent)

/-- KEYST: PORT alone is written (R399). -/
def L.writeKeyst (v : Word) : L Unit := do
  L.csrRefuse (71 < bits v.toNat 0 7)
  L.modSt (fun s => { s with keyPort := v.extractLsb' 0 7 })

/-- A NaN of FP32. -/
def isNanW (v : Word) : Bool := 0x7F80_0000 < bits v.toNat 0 31

/-- CSRW's effect on a CSR (R25, R213). An address in a CSR of one number is the 32 bits written, with zeros above; CSRR shows its low 32
bits (DESIGN CHOICE, log 96). -/
def L.csrWrite (n : Nat) (v : Word) : L Unit :=
  match n with
  | 0x000 => L.writeFenv v
  | 0x003 => L.modTeam (fun t => { t with chki := v &&& 0x7F })
  | 0x004 => do
    L.csrRefuse (isNanW v || bitOf v 31 || v.toNat < 0x3F80_0000)
    L.modTeam (fun t => { t with glim := v })
  | 0x005 => do
    L.csrRefuse (isNanW v || (bitOf v 31 && bits v.toNat 0 31 ≠ 0))
    L.modTeam (fun t => { t with ftau := v })
  | 0x006 => L.writeMstat v
  | 0x007 => do
    L.csrRefuse (bits v.toNat 0 5 = 0 || 16 < bits v.toNat 0 5 + bits v.toNat 8 5)
    L.modPart (fun p => { p with crate := v &&& 0x1F1F })
  | 0x100 => do
    L.csrRefuse (v.toNat % 4096 ≠ 0)
    L.modPart (fun p => { p with ptroot := v.setWidth 52 })
  | 0x101 => do
    L.csrRefuse (v.toNat % 8 ≠ 0)
    L.modPart (fun p => { p with tshape := v.setWidth 52 })
  | 0x102 => L.modPart (fun p => { p with rackb := v.setWidth 52 })
  | 0x103 => L.modPart (fun p => { p with wthr := v })
  | 0x104 => do
    L.csrRefuse (v.toNat % 4096 ≠ 0)
    L.modPart (fun p => { p with tvbk := v.setWidth 52 })
  | 0x105 => L.modPart (fun p => { p with tside := v.setWidth 52 })
  | 0x108 => L.writeTepc false v
  | 0x109 => L.writeTepc true v
  | 0x10B => L.modPart (fun p => { p with fto := v })
  | 0x10C => L.modSt (fun s => { s with rdl := v })
  | 0x10D => L.modPart (fun p => { p with swapb := v.setWidth 52 })
  | 0x10E => L.writeFltq v
  | 0x10F => L.writeKeyst v
  | 0x300 => do
    L.csrRefuse (v.toNat % 4096 ≠ 0)
    L.modSt (fun s => { s with tvbm := v.setWidth 52 })
  | 0x301 => L.modSt (fun s => { s with lcmap := v.setWidth 52 })
  | 0x302 => L.modSt (fun s => { s with frzcfg := v &&& 0x3_FFFF })
  | _ => L.trap 0 0x0D

/-- What CSRR captures: its access is checked at issue. -/
def L.capCsr (d : Opnd) (n : Nat) : L Cap := do
  L.csrAllowed n true false
  L.checkRegs [d]
  return Cap.zero

/-- CSRR performed. -/
def perfCsr (n : Nat) (_ : Cap) : L (QWord × BitVec 4) := do return ((← L.csrRead n).setWidth 128, 0)

/-- CSRR (R213). -/
def execCsrr (h : Hdr) (d : Opnd) (n : BitVec 12) (s : State) : Out :=
  longWord (.csrr h d n) h (if L.uniform d then .all else .order) (L.capCsr d n.toNat) (perfCsr n.toNat) s

/-- CSRR of a high half (R25). -/
def execCsrHighLatchRead (h : Hdr) (d : Opnd) (n : BitVec 12) (s : State) : Out :=
  longWord (.csrHighLatchRead h d n) h (if L.uniform d then .all else .order) (L.capCsr d n.toNat) (perfCsr n.toNat) s

/-- A word that writes one CSR in each executing lane. -/
def csrWord (i : Instr) (h : Hdr) (n : Nat) (a : Opnd) (write : Word → L Unit) (s : State) : Out :=
  laneWord i h .order (do
    L.csrAllowed n false true
    L.checkRegs [a]
    write (← L.rdW a)) s

/-- CSRW (R213). -/
def execCsrw (h : Hdr) (a : Opnd) (n : BitVec 12) (s : State) : Out := csrWord (.csrw h a n) h n.toNat a (L.csrWrite n.toNat) s
/-- CSRW of FENV (R58). -/
def execFenvWrite (h : Hdr) (a : Opnd) (s : State) : Out := csrWord (.fenvWrite h a) h 0x000 a L.writeFenv s
/-- CSRW of TEPC (R213). -/
def execTepcWrite (h : Hdr) (a : Opnd) (hi : Bool) (s : State) : Out :=
  csrWord (.tepcWrite h a hi) h (if hi then 0x109 else 0x108) a (L.writeTepc hi) s
/-- CSRW of FLTQ (R293). -/
def execFltqWrite (h : Hdr) (a : Opnd) (s : State) : Out := csrWord (.fltqWrite h a) h 0x10E a L.writeFltq s
/-- CSRW of MSTAT (R340). -/
def execMstatWrite (h : Hdr) (a : Opnd) (s : State) : Out := csrWord (.mstatWrite h a) h 0x006 a L.writeMstat s
/-- CSRW of KEYST (R399). -/
def execKeystWrite (h : Hdr) (a : Opnd) (s : State) : Out := csrWord (.keystWrite h a) h 0x10F a L.writeKeyst s

/-- CSRX (R213): the old value to D, then the write, lane by lane. -/
def execCsrx (h : Hdr) (d a : Opnd) (n : BitVec 12) (s : State) : Out :=
  laneWord (.csrx h d a n) h (if L.uniform d then .all else .order) (do
    L.csrAllowed n.toNat true true
    L.checkRegs [d, a]
    let v ← L.rdW a
    let old ← L.csrRead n.toNat
    L.csrWrite n.toNat v
    L.wrW d old) s

/-! ### Level counters (R219) -/

/-- A counter after CNTR. -/
def cntrNew (op lvl : BitVec 2) (b : Word) (c : Counter) : Counter :=
  match op.toNat with
  | 0 => c
  | 1 => { c with count := c.count + b }
  | 2 => { c with count := b, marks := [] }
  | _ => ⟨0, min 4 (bits b.toNat 0 3), lvl, []⟩

/-- CNTR (R219): one atomic step per executing lane; the old count goes to D. -/
def execCntr (h : Hdr) (d a b : Opnd) (op lvl : BitVec 2) (s : State) : Out :=
  laneWord (.cntr h d a b op lvl) h .order (do
    if 2 ≤ op.toNat then L.needLevel 1
    L.check 1 [a, b] [d]
    let n := bits (← L.rdW a).toNat 0 12
    let v ← L.rdW b
    let c := (← L.part).counter n
    L.modPart (fun p => p.setCounter n (cntrNew op lvl v c))
    L.wrW d c.count) s

end Sys2Proof.Machine
end

