-- ==== Sys2Proof/Machine/Switch.lean ====
section
/-! DEFINITION. The meanings of group 7, second part: launching and cancelling work (R215 to R218), translation and
placement (R220, R221), fault service (R222, R223), swapping (R224, R225), cores and the monitor (R226 to R230). -/

namespace Sys2Proof.Machine

/-! ### LNCH (R215 to R217, R416) -/

/-- A level field of a descriptor: bit 15 valid. -/
def slot16 (w lo : Nat) : Option Nat := if bits w (lo + 15) 1 = 1 then some (bits w lo 12) else none

/-- Whether a reserved bit of a descriptor is set (R215). -/
def descReserved (w : Nat) : Bool :=
  [(52, 12), (116, 12), (244, 12), (268, 3), (284, 3), (300, 3), (316, 4), (323, 13), (368, 144)].any
    (fun x => bits w x.1 x.2 ≠ 0)

/-- The status of a launch (R217): the lowest cause that holds. -/
def lnchStatus (s : State) (p : Partition) (w b shape : Nat) (fp : List Nat) : Nat :=
  let page (e : Nat) : Nat := bits e 0 64
  let count (e : Nat) : Nat := bits e 64 64
  if descReserved w || bits b 12 19 ≠ 0 || fp.any (fun e => page e % 4096 ≠ 0) then 1
  else if bits w 0 52 % 8 ≠ 0 || bits w 192 52 % 16 ≠ 0 ||
      fp.any (fun e => count e = 0 || 2 ^ 20 < count e || 2 ^ 52 < page e + 4096 * count e) then 2
  else if !s.shapeValid p shape then 3
  else if (bits w 321 1 = 1 && bits w 352 16 = 0) || (bits w 322 1 = 1 && bits w 287 1 = 0) then 4
  else 0

/-- The launch that a descriptor describes. -/
def launchOf (id part w b shape : Nat) (fp : List Nat) : Launch where
  id := id
  part := part
  code := BitVec.ofNat 52 (bits w 0 52)
  frame := BitVec.ofNat 52 (bits w 64 52)
  stride := BitVec.ofNat 32 (bits w 128 32)
  count := bits w 160 32 + 1
  join := BitVec.ofNat 52 (bits w 192 52)
  slots := ⟨if bits b 31 1 = 1 then none else some (bits b 0 12), slot16 w 256, slot16 w 272, slot16 w 288⟩
  shapeIdx := bits w 304 8
  shape := BitVec.ofNat 64 shape
  prio := bits w 312 3
  lvl := bits w 315 1 = 1
  yoke := bits w 320 1 = 1
  rbk := bits w 321 1 = 1
  rke := if bits w 322 1 = 1 then some (bits w 336 16) else none
  footprint := fp.map (fun e => (bits e 0 64 / 4096, bits e 64 64))
  bare := []
  ended := 0
  heldEnds := 0
  heldFaulted := 0
  heldCancelled := 0
  clusters := []
  attempt := 1
  failing := none
  snaps := []
  cancelled := false

/-- Pages of a footprint list. -/
def footPages (fp : List (Nat × Nat)) : List Nat := fp.flatMap (fun e => (List.range e.2).map (e.1 + ·))

/-- Sets or clears C in the leaf of each listed page that has a valid local leaf (R416, R417). -/
def State.markC (s : State) (part : Nat) (c : Bool) (pages : List Nat) : State :=
  pages.foldl (fun s vpn => match s.part? part with
    | none => s
    | some p => match leafAt s p vpn with
      | some (q, addr) => if lfPkg q = 0xFFF then s.writeLeaf addr (lfSet q 11 1 (if c then 1 else 0)) else s
      | none => s) s

/-- Whether a page has a valid leaf in this package: a listed page without one is not protected (R416). -/
def State.localLeaf (s : State) (part vpn : Nat) : Bool :=
  match (s.part? part).bind (fun p => leafAt s p vpn) with
  | some (q, _) => lfPkg q == 0xFFF
  | none => false

/-- A launch is accepted (R217). -/
def State.acceptLaunch (s : State) (k : Launch) : State :=
  let k := if k.rbk then { k with bare := (footPages k.footprint).filter (fun v => !s.localLeaf k.part v) } else k
  let s : State := { s with launches := s.launches ++ [k], nextLaunch := s.nextLaunch + 1 }
  let s := if k.rbk then s.markC k.part true (footPages k.footprint) else s
  let abort (c : Core) : Core :=
    { c with candle := c.candle.map (fun (x : Candle) => if x.result.isNone then { x with result := some 2 } else x) }
  let s : State := if 6 ≤ k.prio then { s with cores := s.cores.map abort } else s
  (s.placeLaunch k).yieldCancelled k.part

/-- `n` 16-byte loads from an address, as one number. -/
def L.loadQuads (va : Nat) : Nat → L Nat
  | 0 => return 0
  | n + 1 => do
    if 2 ^ 52 ≤ va then L.pageTrap 1 va 0
    let v ← L.load .load va 16
    let w ← L.loadQuads (va + 16) n
    return v + w * 2 ^ 128

/-- LNCH (R217). -/
def execLnch (h : Hdr) (d a b : Opnd) (s : State) : Out :=
  laneWord (.lnch h d a b) h .order (do
    L.needLevel 1
    L.checkRegs [d, b]
    let va ← L.rdPair a
    let v := (← L.rdW b).toNat
    if 2 ^ 52 ≤ va then L.pageTrap 1 va 0
    if va % 64 ≠ 0 then L.pageTrap 2 va 0
    let (_, leaf) ← L.locate .load va 16
    let w ← L.loadQuads va 4
    let fp ← (List.range (bits w 352 16)).mapM (fun k => L.loadQuads (va + 64 + 16 * k) 1)
    let p ← L.part
    let sva := p.tshape.toNat + 8 * bits w 304 8
    if 2 ^ 52 ≤ sva then L.pageTrap 1 sva 0
    let shape ← L.load .load sva 8
    let st := lnchStatus (← get).st p w v shape fp
    if st = 0 then
      L.release (lfScope leaf)
      L.modSt (fun s => s.acceptLaunch (launchOf s.nextLaunch p.id w v shape fp))
    L.wrW d (BitVec.ofNat 32 st)) s

/-! ### CANC (R218, R325) -/

/-- The counter a unit names at a level. -/
def Slots.at (l : Slots) (lvl : Nat) : Option Nat :=
  match lvl with | 0 => l.launch | 1 => l.graph | 2 => l.phase | _ => l.job

/-- Marks a counter cancelled at a level: the distributors stop, and the running teams' discards are due. -/
def State.cancelCounter (s : State) (part n lvl : Nat) : State :=
  let s := s.updPart part (fun p =>
    let c := p.counter n
    p.setCounter n { c with marks := if c.marks.contains lvl then c.marks else insertBy id lvl c.marks })
  let hit (k : Launch) : Launch :=
    if k.part == part && k.slots.at lvl == some n then { k with cancelled := true } else k
  let s : State := { s with launches := s.launches.map hit }
  (s.yieldCancelled part).axeTeams (fun t => t.part == part && t.work.slots.at lvl == some n)

/-- CANC (R218). -/
def execCanc (h : Hdr) (a : Opnd) (lvl : BitVec 2) (s : State) : Out :=
  laneWord (.canc h a lvl) h .order (do
    L.needLevel 1
    L.checkRegs [a]
    let n := bits (← L.rdW a).toNat 0 12
    let p ← L.part
    L.modSt (·.cancelCounter p.id n lvl.toNat)) s

/-! ### TINV and RACK (R220, R221) -/

/-- Drops every entry of a partition in every core. -/
def State.dropPart (s : State) (part : Nat) : State :=
  let all := s.cores.flatMap (fun k => (k.tlb.filter (·.part == part)).map (fun e => (k.id, e.vpn)))
  all.foldl (fun s x => s.dropEntry x.1 part x.2) s

/-- TINV (R220). The access kind of its PAGE trap is open (DESIGN CHOICE, log 100). -/
def execTinv (h : Hdr) (a b : Opnd) (s : State) : Out :=
  laneWord (.tinv h a b) h .order (do
    L.needLevel 1
    L.checkRegs [b]
    let va ← L.pageAddr 8 a
    let v := (← L.rdW b).toNat
    let p ← L.part
    if bits v 31 1 = 1 then L.modSt (·.dropPart p.id)
    else L.modSt (fun s => (pageRun va (bits v 0 6 + 1)).foldl (fun s va => s.dropAll p.id (va / 4096)) s)) s

/-- A binding of a counter ends: every step of it counts as complete, so no launch awaits one any more (R249). -/
def State.bindingOver (s : State) (part c : Nat) : State :=
  { s with launches := s.launches.map (fun k => if k.part == part && k.slots.phase == some c then { k with rke := none } else k) }

/-- RACK (R221): the status. -/
def execRack (h : Hdr) (d a b : Opnd) (s : State) : Out :=
  laneWord (.rack h d a b) h .order (do
    L.needLevel 1
    L.check 1 [a, b] [d]
    let c := bits (← L.rdW a).toNat 0 12
    let v ← L.rdW b
    let p ← L.part
    let rest := p.bindings.filter (·.counter != c)
    let had := p.bindings.any (·.counter == c)
    if v = 0xFFFF_FFFF then
      L.modPart (fun p => { p with bindings := rest })
      if had then L.modSt (·.bindingOver p.id c)
      L.wrW d 0
    else if 16 ≤ rest.length then L.wrW d 1
    else
      L.modPart (fun p => { p with bindings := rest ++ [⟨c, v.toNat, 0, 0⟩] })
      if had then L.modSt (·.bindingOver p.id c)
      L.wrW d 0) s

/-! ### PARKR and RSUM (R222, R223) -/

/-- PARKR (R222): the oldest record goes to scratch, its ticket to D. -/
def execParkr (h : Hdr) (d a : Opnd) (s : State) : Out :=
  laneWord (.parkr h d a) h .order (do
    L.needLevel 1
    L.checkRegs [d, a]
    let off := (← L.rdW a).toNat
    L.checkScr off 32 16
    let p ← L.part
    if p.fltCount = 0 then L.block .parkr
    let x ← get
    let pa := p.fltq.toNat + 32 * p.fltHead
    if x.st.poisoned pa 32 then L.chki (chkiOf pa)
    let v := x.st.readP pa 32
    L.modTeam (fun t => t.wrScr off 32 v)
    L.modPart (fun p => { p with fltHead := (p.fltHead + 1) % 128, fltCount := p.fltCount - 1 })
    L.modSt (·.enterRecord p.id)
    L.wrW d (BitVec.ofNat 32 (bits v 64 32))) s

/-- The parked access that a ticket of a partition names. -/
def State.ticket? (s : State) (part : Nat) (w : Word) : Option Parked :=
  let c : BitVec 11 := w.extractLsb' 21 11
  let mine (k : Parked) : Bool := k.part == part && ticketOf c k.ent k.seq == w
  if bits c.toNat 0 8 = 240 then (s.die (dieOf c)).park.find? mine
  else (((s.saved.filter (·.core == c)).flatMap (·.replay)) ++ (s.core c).replay).find? mine

/-- Frees a core's replay-buffer entry; the batch that stood behind it may issue again. -/
def State.freeEntry (s : State) (c : BitVec 11) (k : Parked) : State :=
  let s := s.updCore c (fun x => { x with replay := x.replay.filter (· != k) })
  let go (u : Stuck) : Stuck := if u.ent == some k.ent then { u with ent := none } else u
  s.updWave k.agent k.wave (fun w => { w with stuck := w.stuck.map go })

/-- A parked job goes on where it stopped (R348): a matrix one once its team holds the engine. -/
def State.resumeJob (s : State) (n : Nat) : State :=
  match s.job? n with
  | none => s
  | some j =>
    let s := (s.updJob n (fun j =>
      if j.st == .stopped || j.st == .ready || j.wasParked then { j with wasParked := false }
      else if j.eng == .matrix && (s.core j.core).holder ≠ some j.agent then { j with st := .ready }
      else { j with st := .run })).unparkJob n
    s.qState j 2

/-- RETRY of a released access (R223). -/
def State.retryParked (s : State) (c : BitVec 11) (k : Parked) : State :=
  match k.again, k.job with
  | some ev, _ => (s.updDie (dieOf c) (fun d => { d with park := d.park.filter (· != k) })).push ev
  | none, some n => s.inCtx c k.part (fun s => (s.freeEntry c k).resumeJob n)
  | none, none => s.inCtx c k.part (·.freeEntry c k)

/-- The handler entry that a refusal of a parked access makes due (R223): the lanes that executed its word, and its batch, are those
of the unfinished word or of the blocked batch that parked. -/
def Wave.dueOf (w : Wave) (k : Parked) (sub : BitVec 8) : Due :=
  let traps := k.lanes.map (fun (x : Nat × Addr × Word) => (⟨x.1, 8, sub, x.2.1, x.2.2⟩ : TrapRec))
  let mine := k.lanes.map (·.1)
  match k.word with
  | some n =>
    let e := w.unfinished.find? (·.id == n)
    ⟨k.pc, traps, (e.map (·.execs)).getD mine, (e.map (fun e => e.lanes.map (·.lane))).getD mine, some n⟩
  | none => match w.stuck.find? (·.ent == some k.ent) with
    | some u => ⟨k.pc, traps, u.execs, u.todo, none⟩
    | none => ⟨k.pc, traps, mine, mine, none⟩

/-- FAIL of a released access (R223): the lanes' trap is due, the job ends with error status, the distributor's access is
dropped. -/
def State.failParked (s : State) (c : BitVec 11) (k : Parked) (sub : BitVec 8) : State :=
  match k.again, k.job with
  | some _, _ => s.updDie (dieOf c) (fun d => { d with park := d.park.filter (· != k) })
  | none, some n => s.inCtx c k.part (fun s => (s.freeEntry c k).finishJob n true false)
  | none, none => s.inCtx c k.part (fun s => (s.updWave k.agent k.wave (fun w =>
      { w with due := w.due ++ [w.dueOf k sub] })).freeEntry c k)

/-- RSUM (R223): the register B gives the action. -/
def rsumWord (ins : Instr) (h : Hdr) (d a b : Opnd) (s : State) : Out :=
  laneWord ins h .order (do
    L.needLevel 1
    L.check 1 [a, b] [d]
    let t ← L.rdW a
    let v := (← L.rdW b).toNat
    let p ← L.part
    let sub := bits v 8 8
    match (← get).st.ticket? p.id t with
    | none => L.wrW d 1
    | some k =>
      if 2 ≤ bits v 0 2 ∨ (bits v 0 2 = 1 ∧ sub < 0x10) ∨ bits v 16 16 ≠ 0 ∨ bits v 2 6 ≠ 0 then L.wrW d 2
      else
        let c : BitVec 11 := t.extractLsb' 21 11
        if bits v 0 2 = 0 then L.modSt (·.retryParked c k) else L.modSt (·.failParked c k (BitVec.ofNat 8 sub))
        L.wrW d 0) s

def execRsumRetry (h : Hdr) (d a b : Opnd) (s : State) : Out := rsumWord (.rsumRetry h d a b) h d a b s
def execRsumFail (h : Hdr) (d a b : Opnd) (s : State) : Out := rsumWord (.rsumFail h d a b) h d a b s

/-! ### SWPO and SWPI (R224) -/

/-- A team of a partition, whether or not the partition runs on its core. -/
def State.partTeam? (s : State) (part : Nat) (a : AgentId) : Option Team :=
  s.allTeams.find? (fun t => t.part == part && t.agent == a)

/-- Whether the jobs of a partition's team come to their stopping units now; those of a partition that does not run have stopped. -/
def State.stopsIn (s : State) (a : AgentId) (part : Nat) : Bool :=
  s.saved.any (fun y => y.part == part && y.core == coreOf a) || s.teamStops a

/-- SWPO (R224): it waits until the team's jobs come to their engines' stopping units (R349). -/
def execSwpo (h : Hdr) (d a : Opnd) (s : State) : Out :=
  laneWord (.swpo h d a) h .order (do
    L.needLevel 1
    L.check 1 [a] [d]
    let g : AgentId := (← L.rdW a).extractLsb' 0 16
    let p ← L.part
    match (← get).st.partTeam? p.id g with
    | none => L.wrW d 1
    | some t =>
      if t.resid ≠ .resident then L.wrW d 2
      else
        if !(← get).st.stopsIn g p.id then L.block .drain
        L.wrW d 0
        L.modSt (fun s => s.inCtx (coreOf g) p.id (fun s => s.swapOut g .swappedBySwpo (fun _ => true)))) s

/-- SWPI (R224). -/
def execSwpi (h : Hdr) (d a : Opnd) (s : State) : Out :=
  laneWord (.swpi h d a) h .order (do
    L.needLevel 1
    L.check 1 [a] [d]
    let g : AgentId := (← L.rdW a).extractLsb' 0 16
    let p ← L.part
    let x ← get
    match x.st.partTeam? p.id g with
    | none => L.wrW d 1
    | some t =>
      if t.resid ≠ .swappedBySwpo then L.wrW d 1
      else
        let s' := x.st.inCtx (coreOf g) p.id (fun s => (s.swapIn g).getD s)
        if ((s'.partTeam? p.id g).map (·.resid)) = some .resident then
          L.setSt s'
          L.wrW d 0
        else L.wrW d 2) s

/-! ### PREM (R225, R364) -/

/-- The cores of a set of dies that anything has used. -/
def State.coresOf (s : State) (mask : Nat) : List (BitVec 11) :=
  (s.cores.map (·.id)).filter (fun c => mask.testBit (dieOf c))

/-- Engines of a core that have a running job: those whose stop is awaited. -/
def State.busyEngines (s : State) (c : BitVec 11) : List Eng :=
  [Eng.matrix, .copy, .quant, .fabric].filter (fun e => s.jobs.any (fun j => j.core == c && j.eng == e && j.st == .run))

/-- The cores of a switch halt (R364 step 2). -/
def State.haltFor (s : State) (mask : Nat) : State :=
  (s.coresOf mask).foldl (fun s c => s.updCore c (fun k => { k with switching := true, awaiting := s.busyEngines c })) s

/-- One die runs another partition: contexts change places, stopped jobs resume, and the contention predictor starts over
(R225, R247, R364). -/
def State.switchDie (s : State) (new d : Nat) : State :=
  let old := (s.die d).part
  let s := match old with | some p => s.writeSwap p | none => s
  let cores := ((s.cores.map (·.id)).filter (fun c => dieOf c = d))
  let s := cores.foldl (fun s c =>
    let s := match old with | some p => s.saveCtx c p | none => s
    (s.restoreCtx c new).updCore c (fun k => { k with switching := false, awaiting := [] })) s
  let back := (s.teams.filter (fun t => dieOf (coreOf t.agent) = d && t.resid != .swappedBySwpo)).map (·.agent)
  let s := back.foldl (fun s a => s.resumeJobs a) s
  s.updDie d (fun k => { k with part := some new, pred := [], prevHome := [] })

/-- The switch of every die of a mask. -/
def State.switchDies (s : State) (new mask : Nat) : State :=
  ((List.range 8).filter (fun d => mask.testBit d)).foldl (fun s d => s.switchDie new d) s

/-- The wave of a PREM that has halted its cores carries the switch out itself; it is not due any more. -/
def State.switchTaken (s : State) (a : AgentId) (wv : Nat) : State :=
  { s with agenda := s.agenda.filter (fun e => match e with | .switchDue _ _ b w => !(b == a && w == wv) | _ => true) }

/-- Whether a switch is carried out without its PREM: every stop that it awaits has been counted, and no batch of the wave waits at it
any more, in a handler or discarded as it is (R225, R364). -/
def State.switchReady (s : State) (mask : Nat) (a : AgentId) (wv : Nat) : Bool :=
  ((s.coresOf mask).all (fun c => (s.core c).awaiting.isEmpty)) &&
  !((s.wave? a wv).map (fun w => w.stuck.any (·.why == .stop))).getD false

/-- Every lane has its status: the switch itself. -/
def afterPrem (_ : Issue) (s : State) : State :=
  let due := s.agenda.filterMap (fun e => match e with | .switchTo p m => some (p, m) | _ => none)
  let rest := s.agenda.filter (fun e => match e with | .switchTo _ _ => false | _ => true)
  due.foldl (fun s x => s.switchDies x.1 x.2) { s with agenda := rest }

/-- The status of PREM (R225). A has bits 31:4 set: the partition does not exist (DESIGN CHOICE, log 98). -/
def premStatus (s : State) (a b : Nat) : Nat :=
  if 16 ≤ a || (s.part? a).isNone then 1 else if b = 0 || 256 ≤ b then 2 else 0

/-- PREM (R225, R364): the cores halt, the engines' stops are counted, then the contexts change places. -/
def execPrem (h : Hdr) (d a b : Opnd) (s : State) : Out :=
  runWord (.prem h d a b) h.guard .once afterPrem (fun _ => do
    L.needLevel 1
    L.check 1 [a, b] [d]
    let pn ← L.rdW a
    L.sameInAll pn (L.rdW a)
    let mask ← L.rdW b
    L.sameInAll mask (L.rdW b)
    let x ← get
    let st := premStatus x.st pn.toNat mask.toNat
    if st = 0 && x.execs.head? == some x.lane then
      let begun := (← L.wave).stuck.any (fun k => k.pc == x.pc && k.why == .stop)
      let cores := (x.st.coresOf mask.toNat).map x.st.core
      if !begun then
        if cores.any (·.switching) then L.block .drain
        let s' := x.clean.haltFor mask.toNat
        if (s'.coresOf mask.toNat).any (fun c => !(s'.core c).awaiting.isEmpty) then
          L.blockWith .stop (fun s => (s.haltFor mask.toNat).push (.switchDue pn.toNat mask.toNat x.agent x.wave))
        L.modSt (·.haltFor mask.toNat)
      else if cores.any (fun k => !k.awaiting.isEmpty) then L.block .stop
      L.modSt (fun s => (s.switchTaken x.agent x.wave).push (.switchTo pn.toNat mask.toNat))
    L.wrW d (BitVec.ofNat 32 st)) s

/-! ### Freeze and halt (R226, R227) -/

/-- FRZ (R227): every clock stops; the word does not complete. -/
def execFrz (h : Hdr) (s : State) : Out :=
  runWord (.frz h) h.guard .once (fun _ => id) (fun _ => do
    L.needLevel 2
    L.blockWith .stop (fun s => { s with power := .frozen })) s

/-- Whether a logical core is present (R229). -/
def State.corePresent (s : State) (c : BitVec 11) : Bool := coreExists c && (s.physCore c).isSome

/-- HALT (R226): bit 31 of A enables popping again. -/
def haltWord (ins : Instr) (h : Hdr) (a : Opnd) (s : State) : Out :=
  laneWord ins h .order (do
    L.needLevel 1
    L.checkRegs [a]
    let v ← L.rdW a
    let c : BitVec 11 := v.extractLsb' 5 11
    if bits v.toNat 0 5 ≠ 0 ∨ bits v.toNat 16 15 ≠ 0 ∨ !(← get).st.corePresent c then L.trap 9 7
    L.modSt (·.updCore c (fun k => { k with halted := !bitOf v 31 }))) s

def execHalt (h : Hdr) (a : Opnd) (s : State) : Out := haltWord (.halt h a) h a s
def execHaltEnable (h : Hdr) (a : Opnd) (s : State) : Out := haltWord (.haltEnable h a) h a s

/-! ### Candling, the core map, measurement (R228 to R230) -/

/-- CNDL (R228): the scan is asked for, and its result awaited. -/
def execCndl (h : Hdr) (d a : Opnd) (s : State) : Out :=
  laneWord (.cndl h d a) h .order (do
    L.needLevel 2
    L.check 1 [a] [d]
    let c : BitVec 11 := (← L.rdW a).extractLsb' 5 11
    let x ← get
    let p ← L.part
    if c = coreOf x.agent ∨ !x.st.corePresent c then L.wrW d 3
    else
      let me : Candle := ⟨p.id, x.agent, x.wave, x.lane, none, false⟩
      match (x.st.core c).candle.filter (fun y => !y.left || y.result.isNone) with
      | none => L.blockWith .drain (·.updCore c (fun k => { k with candle := some me }))
      | some y =>
        match y.result with
        | some r =>
          if { y with result := none } = me then
            L.modSt (·.updCore c (fun k => { k with candle := none }))
            L.wrW d (BitVec.ofNat 32 r)
          else L.block .drain
        | none => L.block .drain) s

/-- Whether CMAP refuses an edit (R229). -/
def State.cmapBad (s : State) (a b : Word) : Bool :=
  let c : BitVec 11 := a.extractLsb' 5 11
  let pc : BitVec 11 := b.extractLsb' 5 11
  !coreExists c || bits a.toNat 0 5 ≠ 0 || bits a.toNat 16 16 ≠ 0 || bits b.toNat 0 5 ≠ 0 || bits b.toNat 16 15 ≠ 0 ||
  (!bitOf b 31 && (!coreExists pc || (List.range 1280).any (fun n =>
    n ≠ coreIndex c && (s.mapEntry n).getLsbD 0 && (s.mapEntry n).extractLsb' 5 11 == pc)))

/-- The physical core that an entry names stands still once the entry is removed, until a reset (R430). -/
def State.stopCore (s : State) (n : Nat) : State :=
  let e := s.mapEntry n
  let pc : BitVec 11 := e.extractLsb' 5 11
  if e.getLsbD 0 && !s.stopped.contains pc then { s with stopped := pc :: s.stopped } else s

/-- Writes an entry of the logical core map: a halfword at LCMAP (R229); while LCMAP is 0, in the map that reset step 4 has built
(R426). -/
def State.writeMap (s : State) (n : Nat) (v : BitVec 16) : State :=
  if s.lcmap ≠ 0 then s.writeP (s.lcmap.toNat + 2 * n) 2 v.toNat
  else
  let rest := s.coreMap.filter (·.1 != n)
  { s with coreMap := if v = mapIdentity n then rest else insertBy (·.1) (n, v) rest }

/-- CMAP (R229): it waits until no team is resident on the core and no access of it is parked; a team of a partition that does not
run now counts as resident. An entry removed is the halfword 0 (both DESIGN CHOICE, log 99). -/
def execCmap (h : Hdr) (d a b : Opnd) (s : State) : Out :=
  laneWord (.cmap h d a b) h .order (do
    L.needLevel 2
    L.check 1 [a, b] [d]
    let va ← L.rdW a
    let vb ← L.rdW b
    let s := (← get).st
    if s.cmapBad va vb then L.wrW d 1
    else
      let c : BitVec 11 := va.extractLsb' 5 11
      if s.allTeams.any (fun t => coreOf t.agent == c && t.resid == .resident) ∨ !(s.core c).replay.isEmpty ∨
          s.saved.any (fun y => y.core == c && !y.replay.isEmpty) then L.block .drain
      if bitOf vb 31 then L.modSt (·.stopCore (coreIndex c))
      L.modSt (·.writeMap (coreIndex c) (if bitOf vb 31 then 0 else BitVec.ofNat 16 (bits vb.toNat 5 11 * 32 + 1)))
      L.wrW d 0) s

/-- Bytes loaded one by one. -/
def L.loadBytes (va : Nat) : Nat → L (List (BitVec 8))
  | 0 => return []
  | n + 1 => do
    if 2 ^ 52 ≤ va then L.pageTrap 1 va 0
    let v ← L.load .load va 1
    let l ← L.loadBytes (va + 1) n
    return BitVec.ofNat 8 v :: l

/-- A slot's bytes, and a slot from bytes. -/
def slotBytes (v : BitVec 384) : List (BitVec 8) := beBytes 48 v.toNat
def slotOfBytes (l : List (BitVec 8)) : BitVec 384 := BitVec.ofNat 384 (beNat l)

/-- slot := SHA-384(slot ‖ SHA-384(bytes)) (R230). -/
def extendSlot (v : BitVec 384) (m : List (BitVec 8)) : BitVec 384 := slotOfBytes (sha384 (slotBytes v ++ sha384 m))

/-- ATST (R230). -/
def execAtst (h : Hdr) (d a b : Opnd) (s : State) : Out :=
  laneWord (.atst h d a b) h .order (do
    L.needLevel 2
    L.checkRegs [d, b]
    let i := (← L.rdW d).toNat
    let va ← L.rdPair a
    let n := (← L.rdW b).toNat
    if 16 ≤ i ∨ n % 64 ≠ 0 ∨ n = 0 ∨ 1048576 < n then L.trap 9 7
    if 2 ^ 52 ≤ va then L.pageTrap 1 va 0
    let m ← L.loadBytes va n
    L.modSt (fun s => { s with atst := vset s.atst i (extendSlot (vget s.atst i) m) })) s

end Sys2Proof.Machine
end

