-- ==== Sys2Proof/Machine/WaveEvents.lean ====
section
/-! DEFINITION. The events of a wave: an unfinished long-latency word is performed (R42, R43), its trap is late (R356),
a handler is entered (R352), the device freezes (R423). -/

namespace Sys2Proof.Machine

/-- What a long-latency word (R41) answers from its captured operands. An entry whose word is none of them holds no
result (DESIGN CHOICE, log 22). -/
def perfOf (i : Instr) : Cap → L (QWord × BitVec 4) :=
  match i with
  | .ld _ _ wid m | .lds _ _ wid m | .ldp _ _ wid m => perfLoad m wid .load (loadValue wid) 0
  | .ldf _ _ wid m => perfLoad m wid .load (BitVec.ofNat 128) (ldfTag wid)
  | .lda _ _ wid m => perfLoad m wid .lda (loadValue wid) 0
  | .xld _ _ wid m => perfXld wid m
  | .amo _ _ _ _ o => perfAtomic false false o
  | .cas _ _ _ _ o => perfAtomic false true o
  | .amof _ _ _ _ o => perfAtomic true false o
  | .div .. => perfInt divS
  | .divu .. => perfInt divU
  | .rem .. => perfInt remS
  | .remu .. => perfInt remU
  | .fdiv _ _ _ _ o => perfF o (fun rm x y => fRnd o rm (divX x y))
  | .fsqrt _ _ _ o => perfF o (fun rm x _ => fRnd o rm (sqrtX x))
  | .frcp _ _ _ o => perfF o (fun rm x _ => fRnd o rm (divX (.fin false 1 0) x))
  | .frsq _ _ _ o => perfF o (fun rm x _ => fRnd o rm (rsqrtX x))
  | .fex2 _ _ _ o => perfF o (fun rm x _ => ex2R (fmtOf o.fp64) rm x)
  | .flg2 _ _ _ o => perfF o (fun rm x _ => lg2R (fmtOf o.fp64) rm x)
  | .fsin _ _ _ o => perfF o (fun rm x _ => trigR false (fmtOf o.fp64) rm x)
  | .fcos _ _ _ o => perfF o (fun rm x _ => trigR true (fmtOf o.fp64) rm x)
  | .xdiv _ _ _ _ x => perfXdiv x
  | .xsqrt _ _ _ x => perfXsqrt x
  | .xexp _ _ _ x => perfXexp x
  | .mrdz _ _ _ t => perfMrdz t
  | .csrr _ _ n | .csrHighLatchRead _ _ n => perfCsr n.toNat
  | .shfl .. => perfCaptured
  | _ => fun _ => return (0, 0)

/-- One lane of an unfinished word is performed, for each member of a pair from its own captured operands; poison among them is consumed
(R414). -/
def L.perfLane (e : Entry) (sh : Bool) : L Unit := do
  let x ← get
  match e.lanes.find? (·.lane == x.lane) with
  | none => pure ()
  | some r =>
    if e.bad.contains x.lane then L.chki 8
    let (v, t) ← perfOf e.ins (if sh then r.scap else r.cap)
    modify (fun x => { x with recs := x.recs ++ [{ r with cap := if sh then r.scap else r.cap, perf := true, res := v, rtag := t }] })

/-- A word whose one access serves every lane (R154): a lane's result is all lanes'. -/
def sharedWord (i : Instr) : Bool := match i with | .lds .. => true | _ => false

/-- Of the lanes of a word that accesses global memory, those that only pass their checks now: their accesses come later, as other
accesses may come between any two lanes' (R304, R305, R307, R309). -/
def laterLanes (i : Instr) (tick : Nat) (lanes : List Nat) : List Nat :=
  if accessWord i && !sharedWord i && !scratchWord i then lanes.drop (1 + Config.lanesNow tick) else []

/-- The lanes of an unfinished word that are still to be performed are performed: all of them, or some now and the others later. -/
def State.perfEntry (s : State) (a : AgentId) (wv : Nat) (e : Entry) (all : Bool := false) : Run :=
  let lanes := e.lanes.map (·.lane)
  let todo := (e.lanes.filter (!·.perf)).map (·.lane)
  let todo := if sharedWord e.ins then todo.take 1 else todo
  let x0 : LS := { st := s, st0 := s, clean := s, base := s, agent := a, wave := wv, lane := 0, lvl := 0, job := none,
                   batch := lanes, execs := lanes, pc := e.pc, npc := e.pc, closes := false, hold := none, unis := [],
                   effs := [], recs := [] }
  runLanes (L.perfLane e) false (if all then [] else laterLanes e.ins s.tick todo) x0 todo (Run.start s [] [])

/-- The unfinished word of a wave with an id. -/
def State.entry? (s : State) (a : AgentId) (wv ent : Nat) : Option Entry :=
  (s.wave? a wv).bind (fun w => w.unfinished.find? (·.id == ent))

/-- A late trap is taken (R356): neither the word nor a later one stays in the queue, and it issues again after RFT. When no
window word has issued yet, the trap is precise: only the word itself leaves the queue. -/
def State.lateEnter (s : State) (a : AgentId) (wv : Nat) (e : Entry) (traps : List TrapRec) : State :=
  let lanes := e.lanes.map (·.lane)
  if e.lanes.all (·.iss == 0) then
    (s.updWave a wv (fun w => { w with unfinished := w.unfinished.filter (·.id != e.id) })).enterHandler a wv e.pc traps e.execs
      lanes none
  else s.enterHandler a wv e.pc traps e.execs lanes (some e)

/-- An unfinished word with the results of the lanes just performed. -/
def Entry.perform (e : Entry) (recs : List LaneRec) : Entry :=
  let keep (q : LaneRec) : LaneRec := match recs.find? (·.lane == q.lane), recs.head? with
    | some r, _ => r
    | none, some r => if sharedWord e.ins then { r with lane := q.lane, win := q.win, iss := q.iss } else q
    | none, none => q
  { e with lanes := e.lanes.map keep, bad := e.bad.filter (fun l => !recs.any (·.lane == l)) }

/-- What follows the performing of a word: its results are kept and land (R42), lanes that found no translation park
(R291), or its trap is late. While a lane waits, no lane of the word has an effect (R12). -/
def State.perfDone (s : State) (a : AgentId) (wv : Nat) (e : Entry) (r : Run) : State :=
  if !r.traps.isEmpty then (r.noted.keepReads r.st a).lateEnter a wv e r.traps
  else
    let part := ((s.team? a).map (·.part)).getD 0
    let k := r.kept .each
    let st : State := if k.parks.isEmpty then k.st
      else match k.st.parkLanes a wv part e.pc (some e.id) k.parks with
        | some (s, _) => s.dropOutst part a wv (k.parks.map (·.1)) e.pc
        | none => k.st
    let upd (x : Entry) : Entry :=
      if x.id == e.id then { x.perform k.recs with begun := x.begun || (!r.later.isEmpty && !k.recs.isEmpty) } else x
    (st.updWave a wv (fun w => { w with unfinished := w.unfinished.map upd })).landReady a wv

/-- Whether all that is left of an unfinished word would be performed now, with no lane that traps, parks or waits. -/
def State.entryFinishes (s : State) (a : AgentId) (wv ent : Nat) : Bool :=
  match s.entry? a wv ent with
  | none => true
  | some e =>
    let r := s.perfEntry a wv e true
    r.traps.isEmpty && r.held.isEmpty && r.parks.isEmpty

/-- An unfinished word is performed: some of its lanes where the others could follow, else all that are left (R12, R304). -/
def State.perform (s : State) (a : AgentId) (wv : Nat) (e : Entry) : State :=
  let r := s.perfEntry a wv e
  let t := s.perfDone a wv e r
  if r.later.isEmpty || (r.parks.isEmpty && t.entryFinishes a wv e.id) then t else s.perfDone a wv e (s.perfEntry a wv e true)

/-- LONG_LATENCY_COMPLETION (R42); a word bound for its late trap takes it (R356). -/
def execLongLatencyCompletion (a : AgentId) (wv ent : Nat) (s : State) : Out :=
  .next (match s.entry? a wv ent with
    | none => s
    | some e => if !e.fate.isEmpty then s.lateEnter a wv e e.fate else s.perform a wv e)

/-- LATE_TRAP (R356). -/
def execLateTrap (a : AgentId) (wv ent : Nat) (s : State) : Out :=
  .next (match s.entry? a wv ent with
    | none => s
    | some e =>
      let r := s.perfEntry a wv e
      if !e.fate.isEmpty then s.lateEnter a wv e e.fate
      else if r.traps.isEmpty then s
      else (r.noted.keepReads r.st a).lateEnter a wv e r.traps)

/-- HANDLER_ENTRY (R352) for the traps of a word. -/
def execHandlerEntry (a : AgentId) (wv : Nat) (pc : Addr) (traps : List TrapRec) (s : State) : Out :=
  .next (if traps.isEmpty then s
    else s.enterHandler a wv pc traps (traps.map (·.lane)) (traps.map (·.lane)) none)

/-- A handler entry that has been due (R100, R223): late when the word had issued before (R356). -/
def State.enterDue (s : State) (a : AgentId) (wv : Nat) (d : Due) : State :=
  let s := s.updWave a wv (fun w => { w with due := w.due.erase d })
  match d.late.bind (s.entry? a wv) with
  | some e => s.lateEnter a wv e d.traps
  | none => s.enterHandler a wv d.pc d.traps d.execs d.batch none

/-- FREEZE (R423). -/
def execFreeze (s : State) : Out := .next { s with power := .frozen }

end Sys2Proof.Machine
end

