-- ==== Sys2Proof/Machine/Translation.lean ====
section
/-! DEFINITION. The events of translation and placement: walks (R278, R280), rollback snapshots (R416, R417), the racking
schedule (R248, R249, R303), owned moves (R285) and Bellwether (R286, R287). -/

namespace Sys2Proof.Machine

/-! ### Walks -/

/-- The access kind that a walk serves; none for those that install no entry. -/
def walkKind : Acc → Option AK
  | .load | .fence | .jobRead => some .load
  | .store | .jobWrite => some .store
  | .atomic => some .amo
  | .fetch => some .fetch
  | .racking | .mode => none

/-- WALK (R278): it installs an entry when the access passes its mode checks, stalls on M, or faults; the fault is met by
the access that asked (R291). -/
def execWalk (r : WalkReq) (s : State) : Out :=
  .next (match s.part? r.part with
    | none => s
    | some p =>
      let vpn := r.va.toNat / 4096
      match walk s p vpn with
      | .fault _ _ _ => s
      | .stall => s.push (.walk r)
      | .leaf q _ =>
        let s := s.dropStale r.core p.id vpn q
        match walkKind r.acc with
        | none => s
        | some k =>
          match resolve s p ⟨r.core, r.agent, p.id, r.level, k, r.va.toNat, 1, false⟩ with
          | .ok _ _ s => s
          | .remote _ s => s
          | _ => s)

/-! ### Snapshots (R416, R417) -/

/-- Whether a launch's footprint lists a page. -/
def Launch.lists (k : Launch) (vpn : Nat) : Bool := k.footprint.any (fun e => e.1 ≤ vpn && vpn < e.1 + e.2)

/-- A launch lapses (R417): it runs on as if RBK were 0, so the join steps held so far are made now. -/
def State.lapse (s : State) (k : Launch) : State :=
  let s := (s.freeSnaps k).markC k.part false (footPages k.footprint)
  let s := s.updLaunch k.id (fun k => { k with rbk := false, snaps := [], heldEnds := 0, heldFaulted := 0, heldCancelled := 0 })
  let s := s.record k.part (errRecord 12 7 0xFFFF 0 0 0)
  if k.join ≠ 0 && k.heldEnds ≠ 0 then
    s.push (.joinStep k.part ((k.clusters.head?.getD 0) / 16) 0xFFFF k.join k.heldEnds k.heldFaulted k.heldCancelled k.clusters)
  else s

/-- One launch's snapshot of a page, when the page is protected for it and has none. -/
def State.snapFor (s : State) (p : Partition) (vpn : Nat) (q : QWord) (k : Launch) : State :=
  if !k.rbk || k.part != p.id || !k.lists vpn || k.bare.contains vpn || k.snaps.any (·.1 == vpn) then s
  else match s.freeFrame p .hbm 0 with
    | none => s.lapse k
    | some f =>
      ({ s.copyPage (lfFrame q * 4096) (f * 4096) with taken := f :: s.taken }).updLaunch k.id
        (fun k => { k with snaps := k.snaps ++ [(vpn, f)] })

/-- SNAPSHOT (R416): the page is copied for each launch that protects it, then C clears. While M is set it waits. -/
def execSnapshot (part vpn : Nat) (s : State) : Out :=
  .next (match s.part? part with
    | none => s
    | some p => match leafAt s p vpn with
      | none => s
      | some (q, _) =>
        if !lfC q then s
        else if lfM q then s.push (.snapshot part vpn)
        else
          let s := s.launches.foldl (fun s k => s.snapFor p vpn q k) s
          match leafAt s p vpn with
          | some (q, addr) => s.writeLeaf addr (lfSet q 11 1 0)
          | none => s)

/-! ### The racking schedule (R248, R249, R303) -/

/-- A binding moves on. -/
def State.updBinding (s : State) (part c : Nat) (f : Binding → Binding) : State :=
  s.updPart part (fun p => { p with bindings := p.bindings.map (fun b => if b.counter == c then f b else b) })

/-- A binding ends (R249). -/
def State.endBinding (s : State) (part c : Nat) : State :=
  (s.updPart part (fun p => { p with bindings := p.bindings.filter (·.counter != c) })).bindingOver part c

/-- A racking record of a page. -/
def State.rackFail (s : State) (part idx vpn : Nat) (cls sub : BitVec 8) (lvl : Nat) (gen : BitVec 16) : State :=
  s.record part (rackRecord cls sub (vpn * 4096) idx lvl gen)

/-- The level that an action moves a page to. -/
def actLevel (act : Nat) : Nat := match act with | 1 => 3 | 2 => 2 | 3 => 1 | _ => 0

/-- A page's move by an entry with ACT 1 to 4 (R249, R303). -/
def State.rackMove (s : State) (p : Partition) (idx vpn : Nat) (q : QWord) (act : Nat) (a : AgentId) : State :=
  let lvl := actLevel act
  if !(lfMode q == mOwned || lfMode q == mHalo) then s.rackFail p.id idx vpn 6 4 0 (lfGen q)
  else if (if lvl = 0 then lfLevel q = 0 else s.frameAt (lfFrame q) lvl (coreOf a)) then s
  else if lfOwner q ≠ a then s.rackFail p.id idx vpn 6 5 0 (lfGen q)
  else match (if lvl = 0 then s.homeFrame p vpn else s.freeFrameFor p lvl (coreOf a)) with
    | none => s.rackFail p.id idx vpn 8 0x15 0 (lfGen q)
    | some f => s.requestMove p.id vpn (lfMode q == mOwned) (coreOf a) (some (BitVec.ofNat 2 lvl, f)) none (some idx) none

/-- Replication of a sealed or code page for an agent (R249). -/
def State.rackReplicate (s : State) (p : Partition) (idx vpn : Nat) (q : QWord) (src lvl : Nat) (a : AgentId) : State :=
  if !(lfMode q == mSealed || lfMode q == mCode) then s.rackFail p.id idx vpn 6 4 0 (lfGen q)
  else match s.replicate p (coreOf a) vpn q src lvl with
    | some s => s
    | none => s.rackFail p.id idx vpn 8 0x15 0 (lfGen q)

/-- Replicas are dropped by a broadcast (R249, R286). -/
def State.rackDrop (s : State) (p : Partition) (idx vpn : Nat) (q : QWord) (lvl : Nat) (a : AgentId) : State :=
  if !(lfMode q == mSealed || lfMode q == mCode) then s.rackFail p.id idx vpn 6 4 0 (lfGen q)
  else
    let n := s.nextMove
    (s.requestMove p.id vpn false 0 none none (some idx) none).updMove n (fun m => { m with only := some (lvl, a) })

/-- One page of an entry; none while the walk stalls on M, or a move of the page is on its way. -/
def State.rackPage (s : State) (p : Partition) (idx w vpn : Nat) : Option State :=
  let a : AgentId := BitVec.ofNat 16 (bits w 52 16)
  let act := bits w 48 4
  let lvl := bits w 46 2
  if s.moves.any (fun m => m.part == p.id && m.vpn == vpn && m.st != .commit) then none
  else match walk s p vpn with
    | .stall => none
    | .fault sub l gen => some (s.rackFail p.id idx vpn 8 sub l gen)
    | .leaf q src =>
      some (if lfPkg q ≠ 0xFFF then s.rackFail p.id idx vpn 8 0x14 0 (lfGen q)
        else if act ≤ 4 then s.rackMove p idx vpn q act a
        else if act = 5 then s.rackReplicate p idx vpn q src lvl a
        else s.rackDrop p idx vpn q lvl a)

/-- Whether a schedule entry has refused or nonzero reserved fields (R248). -/
def rackBad (w : Nat) : Bool :=
  let act := bits w 48 4
  let lvl := bits w 46 2
  bits w 16 30 ≠ 0 || 7 ≤ act || ((act = 5 || act = 6) && lvl = 0) || (act < 5 && lvl ≠ 0)

/-- One step of a binding: an entry whose STEP the count has reached ends it, is skipped, or acts on its next page; none
where it has to wait. -/
def State.rackStep (s : State) (part c : Nat) : Option State :=
  match s.part? part with
  | none => none
  | some p =>
    match p.bindings.find? (·.counter == c) with
    | none => none
    | some b =>
      let va := (p.rackb.toNat + 16 * b.next) % 2 ^ 52
      match s.ownRead p (.racking part c) va 16 with
      | .wait s' => if s'.outst.length = s.outst.length then none else some s'
      | .fault sub lvl gen s => some ((s.record part (rackRecord 8 sub va b.next lvl gen)).endBinding part c)
      | .refused cls sub gen s => some ((s.record part (rackRecord (cls.setWidth 8) sub va b.next 0 gen)).endBinding part c)
      | .val w gen s =>
        let pass (s : State) : State :=
          s.updBinding part c (fun b => { b with next := b.next + 1, page := 0, top := max b.top (bits w 0 16) })
        if !reached (p.counter c).count (BitVec.ofNat 32 (bits w 0 16)) then none
        else if rackBad w then some (pass (s.record part (rackRecord 9 7 va b.next 0 gen)))
        else if bits w 48 4 = 0 then some (s.endBinding part c)
        else match s.rackPage p b.next w ((bits w 88 40 + b.page) % 2 ^ 40) with
          | none => none
          | some s =>
            some (if bits w 68 20 ≤ b.page then pass s else s.updBinding part c (fun b => { b with page := b.page + 1 }))

/-- RACKING_ENTRY (R249). -/
def execRackingEntry (part c : Nat) (s : State) : Out := .next ((s.rackStep part c).getD s)

/-! ### Owned moves (R285) -/

/-- OWNED_MOVE_COPY_COMPLETE (R285): the copy is made and the leaf commits; a move that has not begun begins first. -/
def execOwnedMoveCopyComplete (n : Nat) (s : State) : Out :=
  .next (match s.move? n with
    | none => s
    | some m =>
      match m.st with
      | .copy => if m.owned then s.copyMove n else s
      | .idle =>
        let s := s.startOwned n
        if (s.move? n).isSome then s.push (.ownedCopy n) else s
      | _ => s)

/-! ### Bellwether (R286, R287) -/

/-- BELLWETHER_MARK (R287): M is set, the leaf recorded, and the broadcast sent to the cores of the scope region. A
request that finds M set, no valid leaf, or an earlier move of the page waits. -/
def execBellwetherMark (n : Nat) (s : State) : Out :=
  .next (match s.move? n with
    | none => s
    | some m =>
      match (s.part? m.part).bind (fun p => leafAt s p m.vpn) with
      | none => if m.newOwner.isSome then s.push (.mark n) else s.abandon m 0
      | some (q, addr) =>
        if m.st != .idle || m.owned then s
        else if lfM q || !s.firstMove m then s.push (.mark n)
        else
          let q := lfSet q 9 1 1
          let cores := (s.cores.map (·.id)).filter (fun c => inRegion s.pkg q (agentOf c 0))
          let s := (s.writeLeaf addr q).updMove n (fun m => { m with st := .drain, seen := q, acks := cores })
          if cores.isEmpty then s.push (.lastAck n) else cores.foldl (fun s c => s.push (.signal n c)) s)

/-- Whether a signalled core drops its entry (R287): for drop-replicas, replicas other than those named stay (R249). -/
def State.dropsFor (s : State) (m : Move) (c : BitVec 11) : Bool :=
  match m.only with
  | none => true
  | some (lvl, a) => match s.replicaOf c m.part m.vpn with
    | some (f, _) => (a == 0xFFFF || coreOf a == c) && (frameLoc f).level == some lvl
    | none => true

/-- BELLWETHER_SIGNAL (R287): a core drops its entry and replica, then acknowledges. -/
def execBellwetherSignal (n : Nat) (c : BitVec 11) (s : State) : Out :=
  .next (match s.move? n with
    | none => s
    | some m =>
      if m.st == .drain && m.acks.contains c then
        let s := if s.dropsFor m c then s.dropEntry c m.part m.vpn else s
        let s := s.updMove n (fun m => { m with acks := m.acks.erase c })
        if (m.acks.erase c).isEmpty then s.push (.lastAck n) else s
      else s)

/-- The seal refcount of a page (R237). -/
def Partition.refCount (p : Partition) (vpn : Nat) : Nat := ((p.refs.find? (·.2.1 == vpn)).map (·.2.2)).getD 0

/-- BELLWETHER_LAST_ACK (R287): the copy begins, or with no new frame the move commits; UNSEAL first waits for the
refcount (R167). -/
def execBellwetherLastAck (n : Nat) (s : State) : Out :=
  .next (match s.move? n with
    | none => s
    | some m =>
      if m.st != .drain || !m.acks.isEmpty then s
      else match m.dest with
        | some _ => (s.updMove n (fun m => { m with st := .copy })).push (.copyDone n)
        | none =>
          if m.newOwner.isSome && ((s.part? m.part).map (·.refCount m.vpn)).getD 0 ≠ 0 then s.push (.lastAck n)
          else s.commitMove n)

/-- BELLWETHER_COPY_COMPLETE (R287). -/
def execBellwetherCopyComplete (n : Nat) (s : State) : Out :=
  .next (match s.move? n with
    | none => s
    | some m => if m.st == .copy && !m.owned then s.copyMove n else s)

end Sys2Proof.Machine
end

