-- ==== Sys2Proof/Machine/Fabric.lean ====
section
/-! DEFINITION. The events of the fabric: remote accesses at their home and their answers (R289, R396, R397, R405), the
flits of a port (R391 to R394), the receive vats (R385 to R387), reports and losses (R388, R389), the fence's timeout
(R395), the collective cancel (R398), and the PCI Express side (R402). -/

namespace Sys2Proof.Machine

/-! ### Remote accesses at their home (R289, R396, R397, R405) -/

/-- The access kind and size of a remote operation. -/
def opKind : RemoteOp → AK × Nat
  | .load n => (.load, n)
  | .store n _ => (.store, n)
  | .amo n _ _ _ _ _ => (.amo, n)
  | .lda n => (.lda, n)
  | .stl n _ => (.stl, n)
  | .red _ => (.red, 4)
  | .ringRead => (.pop, 4)
  | .ringPop .. => (.pop, 4)
  | .ringPush .. => (.push, 4)
  | .put n _ _ => (.store, n)
  | .slotGet => (.pop, 4)
  | .slotPut _ _ => (.push, 4)
  | .join .. => (.amo, 16)
  | .bytes l => (.store, l.length)
  | .inward n => (.load, n)

/-- Whether an operation is answered by a response, not by a delivery report (R405): so is a push to a stream, which waits for room. -/
def opAnswers : RemoteOp → Bool
  | .load _ | .lda _ | .amo .. | .ringRead | .ringPop .. | .ringPush .. | .slotGet | .join .. | .inward _ => true
  | _ => false

/-- The home's check of R149: an agent of another package lies in the region of scope FABRIC alone (R146). -/
def homeSub (s : State) (p : Partition) (q : QWord) (r : Req) : Option (BitVec 8) :=
  if (lfK q || lfMode q == mPtab) && r.lvl == 0 then some 1
  else if lfScope q ≠ 4 then some 2
  else mmxSub s p q r

/-- Whether a move of a page holds the accesses that come from outside. -/
def State.moving (s : State) (part vpn : Nat) : Bool :=
  s.moves.any (fun m => m.part == part && m.vpn == vpn && m.st != .idle && m.st != .commit)

/-- The place at home of an access from another package (R149, R289, R405): a walk fault there is REMOTE, a page in motion holds it. -/
def State.homePlace (s : State) (p : Partition) (r : RemoteReq) (kind : AK) (va n : Nat) : Own :=
  match walk s p (va / 4096) with
  | .fault _ lvl gen => .fault 0x14 lvl gen
  | .stall => .stall s
  | .leaf q _ =>
    let x : Req := ⟨coreOf r.agent, r.agent, p.id, r.level, kind, va, n, false⟩
    if lfPkg q ≠ 0xFFF then .fault 0x14 0 (lfGen q)
    else if s.moving p.id (va / 4096) then .stall s
    else match homeSub s p q x with
      | some sub => .refused sub (lfGen q)
      | none =>
        if s.snapWait p x then
          .stall (if s.agenda.contains (.snapshot p.id (va / 4096)) then s else s.push (.snapshot p.id (va / 4096)))
        else .ok (lfFrame q * 4096 + va % 4096) q

/-- The access kind under which home checks a request: an inbound one of a STREAM page is a push or a pop (R402). -/
def State.remoteKind (s : State) (p : Partition) (r : RemoteReq) : AK :=
  let stream : Bool := ((leafAt s p (r.va.toNat / 4096)).map (fun x => lfMode x.1 == mStream)).getD false
  match r.op with
  | .bytes _ => if stream then .push else .store
  | .inward _ => if stream then .pop else .load
  | o => (opKind o).1

/-- The parts of a range that lie in one page each. -/
def pagePieces (va : Nat) : Nat → Nat → List (Nat × Nat)
  | 0, _ => []
  | f + 1, n =>
    let k := min n (4096 - va % 4096)
    if n = 0 then [] else (va, k) :: pagePieces (va + k) f (n - k)

/-- What a range meets, over its pieces: their places, or the first stop. -/
def placesOf (place : Nat → Nat → Own) : List (Nat × Nat) → List (Nat × Nat) → Own ⊕ List (Nat × Nat)
  | [], got => .inr got
  | (va, n) :: l, got =>
    match place va n with
    | .ok pa _ => placesOf place l (got ++ [(pa, n)])
    | o => .inl o

/-- Writes bytes to places. -/
def State.writePlaces (s : State) : List (Nat × Nat) → List (BitVec 8) → State
  | [], _ => s
  | (pa, n) :: l, d => (s.writePBytes pa (d.take n)).writePlaces l (d.drop n)

/-- The place of a byte of a range. -/
def placeAt : List (Nat × Nat) → Nat → Nat
  | [], _ => 0
  | (pa, n) :: l, o => if o < n then pa + o else placeAt l (o - n)

/-- Poisons what lies at some offsets of a range (R413). -/
def State.poisonPlaces (s : State) (l : List (Nat × Nat)) (bad : List Nat) : State := bad.foldl (fun s o => s.poison (placeAt l o)) s

/-- The bytes at places. -/
def State.readPlaces (s : State) (l : List (Nat × Nat)) : List (BitVec 8) := l.flatMap (fun x => s.mem.bytes x.1 x.2)

/-- What a home answers to an access it has performed: the value, whether it was poisoned, whether a stream buffer was empty or full so
that nothing was popped or pushed. -/
structure Served where
  st : State
  value : Nat
  poison : Bool
  again : Bool

/-- A pop, peek or push of `n` words, poisoned ones with it, at a stream buffer whose header lies at `hd` (R245, R413); the slot may cross
pages. -/
def State.ringServe (s : State) (p : Partition) (r : RemoteReq) (hd base slots size n : Nat) (push : Option (Nat × List Nat)) (peek : Bool) :
    Own ⊕ Served :=
  let head := s.readP hd 4
  let tail := s.readP (hd + 4) 4
  let filled := s.readP (hd + 8) 4
  let slot (k : Nat) (kind : AK) : Own ⊕ List (Nat × Nat) :=
    placesOf (s.homePlace p r kind) (pagePieces (base + 64 + k * size) 3 (4 * n)) []
  match push with
  | some (v, bad) =>
    if slots ≤ filled then .inr ⟨s, 0, false, true⟩
    else match slot tail .push with
      | .inl o => .inl o
      | .inr l =>
        let s := (s.writePlaces l (bytesOfNat (4 * n) v)).poisonPlaces l bad
        .inr ⟨(s.writeP (hd + 4) 4 ((tail + 1) % slots)).writeP (hd + 8) 4 (filled + 1), 0, false, false⟩
  | none =>
    if filled = 0 then .inr ⟨s, 0, false, true⟩
    else match slot head .pop with
      | .inl o => .inl o
      | .inr l =>
        let bad := s.poisoned hd 12 || l.any (fun x => s.poisoned x.1 x.2)
        let s' := if peek then s else (s.writeP hd 4 ((head + 1) % slots)).writeP (hd + 8) 4 (filled - 1)
        .inr ⟨s', natOfBytes (s.readPlaces l), bad, false⟩

/-- Performs an operation at its place `pa` in the page of leaf `q`. -/
def State.performRemote (s : State) (p : Partition) (r : RemoteReq) (q : QWord) (pa : Nat) : Own ⊕ Served :=
  match r.op with
  | .load n | .lda n => .inr ⟨s, s.readP pa n, s.poisoned pa n, false⟩
  | .store n v | .stl n v => .inr ⟨s.writeP pa n v.toNat, 0, false, false⟩
  | .put n v bad => .inr ⟨bad.foldl (fun s o => s.poison (pa + o)) (s.writeP pa n v.toNat), 0, false, false⟩
  | .amo n fp aop b d cas =>
    .inr ⟨s.atomicStep pa n fp cas aop.toNat b.toNat d.toNat, s.readP pa n, s.poisoned pa n, false⟩
  | .red v => .inr ⟨s.redHomeAdd q (r.va.toNat % 4096) v, 0, false, false⟩
  | .ringRead => .inr ⟨s, s.readP (lfFrame q * 4096) 24, s.poisoned (lfFrame q * 4096) 24, false⟩
  | .ringPop slots size n peek => s.ringServe p r pa r.va.toNat slots size n none peek
  | .ringPush slots size n v bad => s.ringServe p r (pa - 4) (r.va.toNat - 4) slots size n (some (v, bad)) false
  | .slotGet => .inr ⟨s, s.readP pa 4, s.poisoned pa 4, false⟩
  | .slotPut v bad => .inr ⟨if bad then (s.writeP pa 4 v.toNat).poison pa else s.writeP pa 4 v.toNat, 0, false, false⟩
  | .join n f c => if lfMode q ≠ mAtomic then .inl (.refused 4 (lfGen q)) else .inr ⟨s.joinAt p.id pa q n f c, 0, false, false⟩
  | .bytes l => .inr ⟨s.writePBytes pa l, 0, false, false⟩
  | .inward n => .inr ⟨s, s.readP pa n, s.poisoned pa n, false⟩

/-- The requester takes the first response to an outstanding access (R397). -/
def State.takeResponse (s : State) (r : RemoteResp) : State :=
  { s with outst := updFirst (fun o => o.mid == r.mid && o.resp.isNone) (fun o => { o with resp := some r }) s.outst }

/-- The home's answer to a request (R405): its response, or its delivery report. -/
def State.answer (s : State) (r : RemoteReq) (v : Nat) (poison again : Bool) (refused : Option (BitVec 4 × BitVec 8)) : State :=
  if opAnswers r.op then
    let x : RemoteResp := ⟨r.mid, v, poison, again, refused⟩
    let (mid, s) := s.newMid
    if r.spkg = s.pkg then s.takeResponse x else s.sendBody r.spkg 1 none mid 1 (s.crateM r.part) (.response x)
  else
    match refused with
    | none => s.sendReport r.part r.spkg ⟨r.mid, true, 10, 0⟩
    | some (cls, sub) => s.sendReport r.part r.spkg ⟨r.mid, false, cls, sub⟩

/-- A request has been performed or refused (R397): its id is recorded. -/
def State.served (s : State) (r : RemoteReq) : State := { s with performed := s.performed ++ [(r.spkg, r.mid)] }

/-- A request that meets a stop at home: refused, or held, ahead of later ones, while a page is in motion or waits for its snapshot. -/
def State.refuseRemote (s : State) (r : RemoteReq) : Own → State
  | .stall s => { s with agenda := .request r :: s.agenda }
  | .refused sub _ => (s.answer r 0 false false (some (6, sub))).served r
  | _ => (s.answer r 0 false false (some (8, 0x14))).served r

/-- An atomic, STL or LDA from another package goes where the contention predictor places it (R247). -/
def State.placeFar (s : State) (p : Partition) (r : RemoteReq) (q : QWord) : State :=
  match r.op with
  | .amo .. | .stl .. | .lda _ => if lfMode q = mAtomic then s.atomicPlace p (coreOf r.agent) (r.va.toNat / 4096) (some r.spkg) else s
  | _ => s

/-- The home performs a request once (R397): walk, check, access, answer. -/
def State.serve (s : State) (r : RemoteReq) : State :=
  if s.performed.contains (r.spkg, r.mid) then s
  else
    match s.part? r.part with
    | none => s.refuseRemote r (.fault 0x14 0 0)
    | some p =>
      let place (s : State) : Own := s.homePlace p r (s.remoteKind p r) r.va.toNat (opKind r.op).2
      match place s with
      | .ok _ q =>
        let s := s.placeFar p r q
        match place s with
        | .ok pa q =>
          match s.performRemote p r q pa with
          | .inl o => s.refuseRemote r o
          | .inr x => (x.st.answer r x.value x.poison x.again none).served r
        | o => s.refuseRemote r o
      | o => s.refuseRemote r o

/-- REMOTE_REQUEST (R289, R397). -/
def execRemoteRequest (r : RemoteReq) (s : State) : Out := .next (s.serve r)

/-- PERFORMED_MID_EXPIRY (R397): 2 × FTO after it was recorded. -/
def execPerformedMidExpiry (spkg : BitVec 12) (mid : BitVec 24) (s : State) : Out :=
  .next { s with
    performed := s.performed.filter (fun x => !(x.1 == spkg && x.2 == mid))
    control := s.control.filter (fun x => !(x.1 == spkg && x.2.1 == mid)) }

/-- REMOTE_RESPONSE (R397): later copies are disposed. -/
def execRemoteResponse (r : RemoteResp) (s : State) : Out := .next (s.takeResponse r)

/-- REMOTE_ACCESS_TIMEOUT (R396): the lane will trap FABRIC LOSS at its word. -/
def execRemoteAccessTimeout (mid : BitVec 24) (s : State) : Out := .next (s.takeResponse ⟨mid, 0, false, false, some (10, 1)⟩)

/-! ### The sending side of a port (R391 to R394) -/

/-- KEY_SWITCH_MARKER (R392, R406): the flit at counter T − 1 names the other slot, which every later flit uses; the slot
that sent it is empty. -/
def State.switchKey (s : State) (pn : Nat) : State :=
  match s.port? pn with
  | none => s
  | some p =>
    if !p.markerDue then s
    else
      let other : BitVec 8 := if p.tx then 0 else 1
      let s := s.putFlit pn ⟨0, 0, s.pkg, 0, 0, 0, 0, 0, 0, 3, 1, p.tx, 0, 0, other :: List.replicate 223 0, [], none⟩
      let used (l : LinkKeys) : LinkKeys := if l.port = pn && l.txKey == p.active.key then { l with txCtr := p.active.thr } else l
      let s : State := { s with keys := s.keys.map used }
      s.updPort pn (fun p =>
        let p := p.setActive KeySlot.empty
        let p := { p with tx := !p.tx, swc := p.swc + 1 }
        if p.active.st = 1 then p.setActive { p.active with st := 2 } else p)

def execKeySwitchMarker (pn : Nat) (s : State) : Out :=
  .next (if ((s.port? pn).map Port.markerDue).getD false then
      (s.switchKey pn).flushPort pn ((((s.port? pn).map (·.queue.length)).getD 0)) else s)

/-- A flit is sent again under the slot active now, with its next counter; a marker names that slot (R393). -/
def State.resendFlit (s : State) (pn : Nat) (fl : Flit) : State :=
  match s.port? pn with
  | none => s
  | some p =>
    let k := p.active
    let named : BitVec 8 := if p.tx then 1 else 0
    let fl := { fl with ks := p.tx, payload := if fl.type = 1 then named :: fl.payload.drop 1 else fl.payload }
    (s.updPort pn (fun p => p.setActive { k with ctr := k.ctr + 1 })).emit (.flit pn fl k)

/-- The first flit of the retry buffer with a sequence number or a later one: an expired flit is passed over (R388). -/
def Port.kept (p : Port) (lseq : BitVec 20) : Option Flit := p.retry.find? (fun f => decide ((f.lseq - lseq).toNat < 2 ^ 19))

/-- Sends flits of the retry buffer again, in order from a sequence number; where the port can send no more, the rest waits. A marker
that has to leave on the way takes its place at the buffer's end, and is sent again in its turn. -/
def State.resendRun (s : State) (pn : Nat) : Nat → BitVec 20 → State
  | 0, cur => s.updPort pn (fun p => { p with resend := some cur })
  | n + 1, cur =>
    match (s.port? pn).bind (·.kept cur) with
    | none => s.updPort pn (fun p => { p with resend := none })
    | some fl =>
      let s := s.switchKey pn
      if ((s.port? pn).map Port.canSend).getD false then (s.resendFlit pn fl).resendRun pn n (fl.lseq + 1)
      else s.updPort pn (fun p => { p with resend := some fl.lseq })

/-- Resends from a sequence number on. -/
def State.resendFrom (s : State) (pn : Nat) (lseq : BitVec 20) : State :=
  match s.port? pn with
  | none => s
  | some p => if (p.kept lseq).isSome then s.resendRun pn 1024 lseq else s

/-- A port goes on with what waits: first a resending that had to stop, then its queue. -/
def State.resumePort (s : State) (pn : Nat) : State :=
  match s.port? pn with
  | none => s
  | some p =>
    let s := match p.resend with
      | some n => s.resendFrom pn n
      | none => s
    if ((s.port? pn).map (·.resend.isSome)).getD true then s else s.flushPort pn p.queue.length

/-- NAK_RECEIVE (R393). -/
def execNakReceive (pn : Nat) (lseq : BitVec 20) (s : State) : Out := .next (s.resendFrom pn lseq)

/-- RETRAINING (R394): sixteen failures of one LSEQ; the retry buffer and the LSEQ stay. -/
def execRetraining (pn : Nat) (s : State) : Out :=
  .next (s.updPort pn (fun p => if p.up then { p with rtr := true, fails := 0 } else p))

/-- Whether a flit is part of a message, not one of the link's own. -/
def ofMessage (f : Flit) : Bool := f.type != 1 && (match f.body with | some (.nak _) => false | _ => true)

/-- Flits of a port: those kept for resending and those that wait. -/
def Port.flits (p : Port) : List Flit := p.retry ++ p.queue

/-- Fragments that no port holds any more have been disposed (R388, R394): a PROBE awaits them no longer. -/
def State.disposed (s : State) (mids : List (BitVec 24)) : State :=
  let gone := mids.filter (fun m => !s.ports.any (fun p => p.flits.any (fun f => f.mid == m && ofMessage f && f.spkg == s.pkg)))
  s.mapTeams (fun t => { t with onPath := t.onPath.filter (fun x => !gone.contains x.2.1) })

/-- The message ids of this package's own fragments among flits. -/
def State.ownMids (s : State) (l : List Flit) : List (BitVec 24) :=
  (l.filter (fun f => ofMessage f && f.spkg == s.pkg)).map (·.mid)

/-- A message's fragments have reached their vat (R172): those of it that no port holds back any more. -/
def State.vatReached (s : State) (a : AgentId) (mid : BitVec 24) : State :=
  s.mapTeams (fun t => if t.agent == a then { t with onPath := t.onPath.filter (·.2.1 != mid) } else t)

/-- LINK_DOWN (R394): the retry buffer is discarded, and its fragments count as disposed. -/
def execLinkDown (pn : Nat) (s : State) : Out :=
  .next (match s.port? pn with
    | none => s
    | some p =>
      let down (p : Port) : Port := { p with up := false, rtr := false, retry := [], queue := [], resend := none, fails := 0 }
      (s.updPort pn down).disposed (s.ownMids p.flits))

/-- RETRY_BUFFER_EXPIRY (R388): flits of a message older than FTO are discarded. -/
def execRetryBufferExpiry (pn : Nat) (mid : BitVec 24) (s : State) : Out :=
  let old (f : Flit) : Bool := f.mid == mid && ofMessage f && f.spkg == s.pkg
  let cut (p : Port) : Port := { p with retry := p.retry.filter (fun f => !old f), queue := p.queue.filter (fun f => !old f) }
  .next ((s.updPort pn cut).disposed [mid])

/-- LINK_RETRAINED (R394): the link works and resumes by resending its retry buffer. -/
def execLinkRetrained (pn : Nat) (s : State) : Out :=
  .next (match s.port? pn with
    | none => s
    | some p =>
      if !p.rtr then s
      else
        let s := s.updPort pn (fun p => { p with rtr := false, resend := (p.retry.head?.map (·.lseq)) })
        s.resumePort pn)

/-! ### The receiving side of a port (R392, R393) -/

def Port.rx (p : Port) (ks : Bool) : KeySlot := if ks then p.rx1 else p.rx0
def Port.setRx (p : Port) (ks : Bool) (k : KeySlot) : Port := if ks then { p with rx1 := k } else { p with rx0 := k }

/-- Whether 256 LSEQ have passed since the first marker (R392). -/
def Port.pastWindow (p : Port) (lseq : BitVec 20) : Bool :=
  match p.drainFrom with
  | some n => 256 ≤ (lseq - n).toNat
  | none => false

/-- A flit fails: its tag or FEC, a slot that holds no key, or a drained slot after its window (R392, R393). -/
def Port.failsFlit (p : Port) (fl : Flit) (ok : Bool) : Bool :=
  !ok || (p.rx fl.ks).st == 0 || ((p.rx fl.ks).st == 3 && p.pastWindow fl.lseq)

/-- A marker makes the slot it names current; the other drains from the first marker on (R392). -/
def Port.takeMarker (p : Port) (fl : Flit) : Port :=
  let ks := (fl.payload.headD 0) == 1
  if (p.rx ks).st = 2 then p
  else
    let p := if (p.rx ks).st = 0 then p else p.setRx ks { p.rx ks with st := 2 }
    if (p.rx (!ks)).st = 2 then { p.setRx (!ks) { p.rx (!ks) with st := 3 } with drainFrom := some fl.lseq } else p

/-- The old slot is empty once its window has passed. -/
def Port.endWindow (p : Port) : Port :=
  if p.pastWindow p.lseqRx then
    let cut (p : Port) (ks : Bool) : Port := if (p.rx ks).st = 3 then p.setRx ks KeySlot.empty else p
    { cut (cut p false) true with drainFrom := none }
  else p

/-- KEY_SLOT_WINDOW_END (R392). -/
def execKeySlotWindowEnd (pn : Nat) (s : State) : Out := .next (s.updPort pn Port.endWindow)

/-- The team that an agent id names as a destination: one that runs, else one whose partition does not run now. -/
def State.fragTeam (s : State) (a : AgentId) : Option Team :=
  match s.team? a with
  | some t => some t
  | none => s.allTeams.find? (·.agent == a)

/-- A fragment of a cancel: the k-th distinct one delivers it to the member (R387, R398). -/
def State.takeCancel (s : State) (fl : Flit) (table : Addr) (rank : Nat) : State :=
  let mine (x : BitVec 12 × BitVec 24 × List (BitVec 4)) : Bool := x.1 == fl.spkg && x.2.1 == fl.mid
  let old := ((s.control.find? mine).map (·.2.2)).getD []
  if old.contains fl.fidx then s
  else
    let s : State := { s with control := s.control.filter (fun x => !mine x) ++ [(fl.spkg, fl.mid, old ++ [fl.fidx])] }
    if old.length + 1 = fl.k.toNat then
      match s.fragTeam fl.dagt with
      | some t => s.push (.cancelled t.part fl.dagt table rank)
      | none => s
    else s

/-- A fragment for this package: a request to be performed, a response, a report or a cancel to be taken, or a message for a
vat; a control flit (TYPE 2) that brings none of these holds nothing of a message. -/
def State.takeFragment (s : State) (fl : Flit) : State :=
  match fl.body with
  | some (.request r) => s.push (.request r)
  | some (.response r) => s.push (.response r)
  | some (.report r) => s.push (.reported r)
  | some (.cancel table rank) => s.takeCancel fl table rank
  | _ =>
    if fl.type = 2 then s
    else s.push (.arrive ⟨fl.spkg, fl.dagt, fl.mid, fl.fidx, fl.k, fl.m, fl.rch, fl.len, fl.payload, fl.bad, fl.body⟩)

/-- A fragment that this port has accepted: into this package, or on by its PATH (R380); at a link that is down it is
discarded. -/
def State.passFragment (s : State) (fl : Flit) : State :=
  if fl.dpkg = s.pkg then s.takeFragment fl
  else match (s.pathList fl.dpkg).ports[fl.path.toNat]? with
    | some pn => if ((s.port? pn).map (·.up)).getD false then s.sendFlit pn fl else s
    | none => s

/-- A NAK leaves as a control flit, encrypted like any other (R379, R393). The header fields that the spec gives no value for here are
free values. -/
def State.sendNak (s : State) (pn : Nat) (lseq : BitVec 20) : State :=
  let free (n : Nat) : Nat := Config.headerField s.tick lseq.toNat n
  s.sendFlit pn ⟨0, BitVec.ofNat 12 (free 3), s.pkg, BitVec.ofNat 16 (free 0), BitVec.ofNat 24 (free 4), 0, BitVec.ofNat 5 (free 5),
    BitVec.ofNat 4 (free 6), BitVec.ofNat 7 (free 7), 3, 2, false, BitVec.ofNat 6 (free 1), BitVec.ofNat 13 (free 2), [], [],
    some (.nak lseq)⟩

/-- What an accepted flit brings: a NAK is this link's own, a marker has been taken; every other is a fragment. -/
def State.acceptFlit (s : State) (pn : Nat) (fl : Flit) : State :=
  match fl.body with
  | some (.nak n) => s.resendFrom pn n
  | _ => if fl.type = 1 then s else s.passFragment fl

/-- FLIT_RECEIVE (R393): flits are accepted in LSEQ order; a failed one is discarded and NAKed. -/
def execFlitReceive (pn : Nat) (fl : Flit) (ok : Bool) (s : State) : Out :=
  .next (match s.port? pn with
    | none => s
    | some p =>
      if !p.up || fl.lseq ≠ p.lseqRx then s
      else if p.failsFlit fl ok then
        let s := (s.updPort pn (fun p => { p with fails := p.fails + 1 })).sendNak pn fl.lseq
        if p.fails + 1 = 16 then s.push (.retrain pn) else s
      else
        let p := { p with lseqRx := p.lseqRx + 1, fails := 0 }
        let p := if fl.type = 1 then p.takeMarker fl else p
        let s := s.updPort pn (fun _ => p)
        let s := if p.pastWindow p.lseqRx && !s.agenda.contains (.windowEnd pn) then s.push (.windowEnd pn) else s
        s.acceptFlit pn fl)

/-! ### Decoding (R387) -/

/-- Gauss–Jordan over GF(2⁸): `done` are the rows solved for the columns before `c`. -/
def gfSolve (c : Nat) : Nat → List (List Nat) → List (List Nat) → List (List Nat)
  | 0, done, _ => done
  | n + 1, done, rest =>
    match rest.find? (fun r => r.getD c 0 ≠ 0) with
    | none => done
    | some p =>
      let p1 := p.map (gfMul (gfInv (p.getD c 0)))
      let cut (r : List Nat) : List Nat :=
        if r.getD c 0 = 0 then r else (r.zip p1).map (fun x => x.1 ^^^ gfMul (r.getD c 0) x.2)
      gfSolve (c + 1) n (done.map cut ++ [p1]) ((rest.erase p).map cut)

/-- The message of k fragments, cut to its length. -/
def decodeFrags (k len : Nat) (frs : List (Nat × List Nat)) : List (BitVec 8) :=
  let miss := (List.range k).filter (fun i => !frs.any (·.1 == i))
  let have_ := frs.filter (fun f => f.1 < k)
  let row (f : Nat × List Nat) : List Nat :=
    miss.map (parityC (f.1 - k)) ++ have_.foldl (fun acc d => gfAxpy (parityC (f.1 - k) d.1) d.2 acc) f.2
  let solved := (gfSolve 0 miss.length [] ((frs.filter (fun f => k ≤ f.1)).map row)).map (·.drop miss.length)
  let data := (List.range k).flatMap (fun i => match frs.find? (·.1 == i) with
    | some f => f.2
    | none => ((miss.zip solved).find? (·.1 == i)).map (·.2) |>.getD [])
  (data.take len).map (BitVec.ofNat 8)

/-- The k fragments with the lowest index decode a vat (R387). -/
def Vat.decode (v : Vat) : Vat :=
  let frs := (v.frags.foldr (fun f l => insertBy (·.1) f l) []).take v.k.toNat
  { v with
    decoded := true
    msg := decodeFrags v.k.toNat v.len.toNat (frs.map (fun f => (f.1, f.2.map (·.toNat))))
    rebuilt := frs.any (fun f => v.k.toNat ≤ f.1) }

/-! ### Vats (R386) -/

/-- Changes a team of a partition wherever its context is. -/
def State.updPartTeam (s : State) (part : Nat) (a : AgentId) (f : Team → Team) : State :=
  s.mapTeams (fun t => if t.part == part && t.agent == a then f t else t)

def Core.vat? (k : Core) (spkg : BitVec 12) (mid : BitVec 24) : Option Vat :=
  k.vats.find? (fun v => v.spkg == spkg && v.mid == mid)

/-- Adds to a field of a vat's channel header. -/
def State.bumpVat (s : State) (v : Vat) (off : Nat) (up : Bool) : State :=
  s.updPartTeam v.part v.agent (·.bumpHdr v.rch.toNat off up)

/-- A core's record of a vat is replaced. -/
def State.setVat (s : State) (c : BitVec 11) (v : Vat) : State :=
  s.updCore c (fun k => { k with vats := updFirst (fun w => w.spkg == v.spkg && w.mid == v.mid) (fun _ => v) k.vats })

/-- A vat closes: its key is kept apart for 2 × FTO; VATS counts it no longer. -/
def State.closeVat (s : State) (c : BitVec 11) (v : Vat) : State :=
  (s.bumpVat v 40 false).updCore c (fun k => { k with
    vats := k.vats.filter (fun w => !(w.spkg == v.spkg && w.mid == v.mid))
    closed := k.closed ++ [(v.spkg, v.mid, v.part, v.agent, v.rch)] })

/-- Stores a fragment; the k-th distinct one decodes the vat, whose delivery is then due. -/
def State.fillVat (s : State) (c : BitVec 11) (v : Vat) (fr : Fragment) : State :=
  if v.frags.any (·.1 == fr.fidx.toNat) then s
  else
    let v := { v with frags := v.frags ++ [(fr.fidx.toNat, fr.payload)], bad := v.bad ++ fr.bad.filter (fun o => !v.bad.contains o) }
    if v.k.toNat ≤ v.frags.length then (s.setVat c v.decode).push (.deliver c v.spkg v.mid) else s.setVat c v

/-- Whether a fragment's index lies outside its code (R387). -/
def fragOutside (fr : Fragment) : Bool := fr.k.toNat + fr.m.toNat ≤ fr.fidx.toNat || fr.k = 0

/-- Whether the first fragment of a message has to wait: all 32 vats of the core are in use (R386). -/
def State.vatsFull (s : State) (fr : Fragment) : Bool :=
  let k := s.core (coreOf fr.dagt)
  32 ≤ k.vats.length && (k.vat? fr.spkg fr.mid).isNone && !k.closed.any (fun x => x.1 == fr.spkg && x.2.1 == fr.mid)

/-- A fragment reaches the core of its destination agent (R386, R387). -/
def State.fragment (s : State) (fr : Fragment) : State :=
  let c := coreOf fr.dagt
  let k := s.core c
  match k.closed.find? (fun x => x.1 == fr.spkg && x.2.1 == fr.mid) with
  | some x => s.updPartTeam x.2.2.1 x.2.2.2.1 (·.bumpHdr x.2.2.2.2.toNat 32 true)
  | none =>
    match k.vat? fr.spkg fr.mid with
    | some v =>
      if v.decoded || fragOutside fr || fr.k ≠ v.k || fr.m ≠ v.m || fr.len ≠ v.len then s.bumpVat v 32 true
      else s.fillVat c v fr
    | none =>
      match s.fragTeam fr.dagt with
      | none => s.report 0 fr.spkg fr.mid (some 4)
      | some t =>
        let ch := vget t.c fr.rch.toNat
        if !ch.v || ch.kind ≠ 2 then s.report t.part fr.spkg fr.mid (some 3)
        else
          let v : Vat := ⟨fr.spkg, fr.mid, t.part, fr.dagt, fr.rch, false, fr.k, fr.m, fr.len, [], [], [], false, fr.body⟩
          if fragOutside fr then s.bumpVat v 32 true
          else if s.vatsFull fr then s.push (.arrive fr)
          else
            let s := (s.updCore c (fun k => { k with vats := k.vats ++ [v] })).bumpVat v 40 true
            s.fillVat c v fr

/-- FRAGMENT_ARRIVAL (R386). -/
def execFragmentArrival (fr : Fragment) (s : State) : Out := .next (s.fragment fr)

/-- The bytes of a delivered slot (R385). -/
def slotImage (v : Vat) (size : Nat) : List (BitVec 8) :=
  let w := v.len.toNat + v.spkg.toNat * 2 ^ 16 + v.mid.toNat * 2 ^ 32
  (bytesOfNat 8 w ++ v.msg ++ List.replicate (size - 8 - v.msg.length) 0).take size

/-- Whether a message is too long for the channel's slots (R385). -/
def Vat.tooLong (v : Vat) (ch : Chan) : Bool := ch.size.toNat < v.len.toNat + 8

/-- The 8-byte units that hold eight bytes at an offset. -/
def unitsOf (off : Nat) : List Nat := if off % 8 = 0 then [off] else [off / 8 * 8, off / 8 * 8 + 8]

/-- Writes a message into the slot at TAIL; poisoned units of it stay poisoned (R385, R386, R413). -/
def Team.deliver (t : Team) (v : Vat) : Team :=
  let ch := vget t.c v.rch.toNat
  let b := ch.base.toNat
  let tail := t.rdScr (b + 4) 4
  let off := b + 64 + tail * ch.size.toNat
  let t := t.wrScrBytes off (slotImage v ch.size.toNat)
  let t : Team := { t with scratchBad := t.scratchBad ++ v.bad.flatMap (fun o => unitsOf (off + 8 + o)) }
  let t := t.wrScr (b + 4) 4 ((tail + 1) % ch.slots.toNat)
  let t := (t.bumpHdr v.rch.toNat 8 true).bumpHdr v.rch.toNat 24 true
  if v.rebuilt then t.bumpHdr v.rch.toNat 28 true else t

/-- Whether a decoded vat may be delivered: its channel has a free slot, or the message is too long for any. -/
def State.mayDeliver (s : State) (c : BitVec 11) (spkg : BitVec 12) (mid : BitVec 24) : Bool :=
  match (s.core c).vat? spkg mid with
  | none => true
  | some v => v.decoded && (match s.allTeams.find? (fun t => t.part == v.part && t.agent == v.agent) with
    | none => true
    | some t =>
      let ch := vget t.c v.rch.toNat
      v.body.isSome || v.tooLong ch || t.rdScr (ch.base.toNat + 8) 4 < ch.slots.toNat)

/-- The delivery of a decoded message (R385): into the slot at TAIL; a piece of a collective's block goes to the collective,
which needs no slot, and counts as delivered. -/
def State.deliver (s : State) (v : Vat) : State :=
  match v.body with
  | some (.block table rank off) =>
    let s := s.bumpVat v 24 true
    let s := if v.rebuilt then s.bumpVat v 28 true else s
    { s with mail := s.mail ++ [⟨v.part, v.agent, table, rank, off, v.msg, v.bad, true⟩] }
  | _ => s.updPartTeam v.part v.agent (·.deliver v)

/-- DELIVERY (R385, R386): slot, header and report are one step. -/
def execDelivery (c : BitVec 11) (spkg : BitVec 12) (mid : BitVec 24) (s : State) : Out :=
  .next (match (s.core c).vat? spkg mid with
    | none => s
    | some v =>
      if !v.decoded then s
      else if !s.mayDeliver c spkg mid then s.push (.deliver c spkg mid)
      else match s.allTeams.find? (fun t => t.part == v.part && t.agent == v.agent) with
        | none => s
        | some t =>
          if v.tooLong (vget t.c v.rch.toNat) then ((s.bumpVat v 36 true).closeVat c v).report v.part spkg mid (some 3)
          else ((s.deliver v).closeVat c v).report v.part spkg mid none)

/-- VAT_TIMEOUT (R386, R389): LOSS at the receiving partition and in the report. -/
def execVatTimeout (c : BitVec 11) (spkg : BitVec 12) (mid : BitVec 24) (s : State) : Out :=
  .next (match (s.core c).vat? spkg mid with
    | none => s
    | some v =>
      if v.decoded then s
      else
        let s := (s.bumpVat v 36 true).closeVat c v
        (s.record v.part (errRecord 10 1 v.agent (mid.setWidth 32) 0 6)).report v.part spkg mid (some 1))

/-- KEY_FORGET (R386). -/
def execKeyForget (c : BitVec 11) (spkg : BitVec 12) (mid : BitVec 24) (s : State) : Out :=
  .next (s.updCore c (fun k => { k with closed := k.closed.filter (fun x => !(x.1 == spkg && x.2.1 == mid)) }))

/-! ### Reports (R388, R389) -/

/-- DELIVERY_REPORT (R389). -/
def execDeliveryReport (r : Report) (s : State) : Out := .next (s.takeReport r)

/-- SENDER_LOSS_TIMEOUT (R389): 2 × FTO after a message; without any report the sender queues LOSS. -/
def execSenderLossTimeout (mid : BitVec 24) (s : State) : Out :=
  let s' := match s.sent.find? (·.mid == mid) with
    | some m => if m.heard then s else s.takeReport ⟨mid, false, 10, 1⟩
    | none => s
  .next { s' with sent := s'.sent.filter (·.mid != mid) }

/-! ### The fence's timeout (R395) -/

/-- The word at an address of a partition, as its leaf's frame holds it. -/
def State.peekWord (s : State) (p : Partition) (pc : Addr) : Option Instr :=
  match leafAt s p (pc.toNat / 4096) with
  | some (q, _) =>
    if lfPkg q ≠ 0xFFF then none
    else match decode (BitVec.ofNat 64 (s.readP (lfFrame q * 4096 + pc.toNat % 4096) 8)) with
      | .ok i => some i
      | .error _ => none
  | none => none

/-- A lane outside the run of a word. -/
def State.laneLS (s : State) (a : AgentId) (wv lane : Nat) (pc : Addr) : LS :=
  { st := s, st0 := s, clean := s, base := s, agent := a, wave := wv, lane := lane,
    lvl := ((s.team? a).map (·.levelAt wv lane)).getD 0, job := none, batch := [], execs := [], pc := pc, npc := pc,
    closes := false, hold := none, unis := [], effs := [], recs := [] }

/-- The value of an operand read, when the reading does not trap. -/
def State.peekNat (s : State) (a : AgentId) (wv lane : Nat) (pc : Addr) (rd : L Nat) : Nat :=
  match rd (s.laneLS a wv lane pc) with
  | .ok (v, _) => v
  | .error _ => 0

/-- The package toward which a fibre's oldest undelivered write goes. -/
def State.fencePkg (s : State) (a : AgentId) (wv lane : Nat) : BitVec 12 :=
  match (s.fibre? a wv lane).bind (fun f => f.remoteWrites.head?) with
  | some mid => ((s.sent.find? (·.mid == mid)).map (·.dest)).getD 0
  | none => 0

/-- The package a PROBE awaits: the one it names, or the lowest toward which fragments remain. -/
def Team.probePkg (t : Team) (k : Nat) : Nat :=
  if k ≠ 0xFFF then k
  else (((t.onPath.filter (fun x => x.2.2 ≠ 0)).map (fun x => x.1.toNat)).foldl min 0xFFF)

/-- The trap of a lane whose FENCE or PROBE has waited for FTO and whose condition still fails; none for another word. -/
def State.fenceTrap (s : State) (t : Team) (wv : Nat) (k : Stuck) (lane : Nat) : Option TrapRec :=
  match k.word with
  | some (.fence _ a _) =>
    if ((s.fibre? t.agent wv lane).map (·.remoteWrites.isEmpty)).getD true then none
    else some ⟨lane, 10, 2, BitVec.ofNat 52 (s.peekNat t.agent wv lane k.pc (L.pageAddr 4 a)),
      (s.fencePkg t.agent wv lane).setWidth 32⟩
  | some (.probe _ a) =>
    let n := s.peekNat t.agent wv lane k.pc (do return (← L.rdW a).toNat % 4096)
    if s.probeWaits t n then some ⟨lane, 10, 2, 0, BitVec.ofNat 32 (t.probePkg n)⟩ else none
  | _ => none

/-- FABRIC_FENCE_TIMEOUT (R395): the waiting lanes trap at the word. A wave with a parked access takes no trap (R369). -/
def execFabricFenceTimeout (a : AgentId) (wv : Nat) (s : State) : Out :=
  .next (match s.team? a with
    | none => s
    | some t =>
      let late (k : Stuck) : Bool := (k.why == .fence || k.why == .probe) && !(k.todo.filterMap (s.fenceTrap t wv k)).isEmpty
      match (t.wave wv).stuck.find? late with
      | some k =>
        if t.resid != .resident || s.waveParked a wv then s
        else s.enterHandler a wv k.pc (k.todo.filterMap (s.fenceTrap t wv k)) k.execs k.todo none
      | none => s)

/-! ### Collective cancels (R398) -/

/-- COLL jobs of a team on a table, among those that are not complete. -/
def State.collJobs (s : State) (part : Nat) (a : AgentId) (table : Nat) : List Nat :=
  (s.jobs.filter (fun j => j.st != .done && j.agent == a && ((s.team? a).map (·.part)) == some part &&
    (s.collGroups j).any (fun g => g.table == table))).map (·.id)

/-- A member's jobs on the table complete with CAN set (R398, R400); what has come for them is dropped. -/
def State.cancelColl (s : State) (part : Nat) (a : AgentId) (table : Nat) : State :=
  let here (s : State) : State := (s.collJobs part a table).foldl (fun s n => s.cancelJob n) s
  let s := s.inCtx (coreOf a) part here
  { s with mail := s.mail.filter (fun m => !(m.part == part && m.agent == a && m.table.toNat == table)) }

/-- CANCELs that wait for the member table (R398, log 47). -/
def execCancels (part table rank n : Nat) (s : State) : Out :=
  .next (match s.part? part with
    | none => s
    | some p => s.cancelMembers p table rank n (tableOf s p table n))

/-- CANCEL (R398): the member, the table and the discarded member's rank. -/
def execCancel (part : Nat) (a : AgentId) (table : Addr) (_rank : Nat) (s : State) : Out := .next (s.cancelColl part a table.toNat)

/-! ### PCI Express (R402) -/

/-- A piece of an inbound request, checked as an access of the I/O agent, STREAM pages in its own way; a page of another package is
reached by a request there (R289). -/
def State.ioPlace (s : State) (p : Partition) (a : AgentId) (write : Bool) (va n : Nat) : Own :=
  match walk s p (va / 4096) with
  | .fault sub lvl gen => .fault sub lvl gen
  | .stall => .stall s
  | .leaf q _ =>
    let kind : AK := if lfMode q == mStream then (if write then .push else .pop) else if write then .store else .load
    let r : Req := ⟨coreOf a, a, p.id, 0, kind, va, n, false⟩
    if s.moving p.id (va / 4096) then .stall s
    else match mmxSub s p q r with
      | some sub => .refused sub (lfGen q)
      | none =>
        if lfPkg q ≠ 0xFFF then .far q
        else if s.snapWait p r then
          .stall (if s.agenda.contains (.snapshot p.id (va / 4096)) then s else s.push (.snapshot p.id (va / 4096)))
        else .ok (lfFrame q * 4096 + va % 4096) q

/-- An inbound request that is refused: Completer Abort for a read, nothing for a write; one record (R402). -/
def State.ioRefuse (s : State) (r : Inbound) (part : Nat) (a : AgentId) (cls sub : BitVec 8) (wlvl : Nat) (gen : BitVec 16) : State :=
  let s := s.record part (errRecord cls sub a 0 r.va.toNat (if r.write then 1 else 0) wlvl gen)
  if r.write then s else s.emit (.completion r.port false [])

/-- The bytes of an inbound write go to their places, be they in this package or in another. -/
def State.ioWrite (s : State) (p : Partition) (a : AgentId) : List (Nat × Nat × Own) → List (BitVec 8) → State
  | [], _ => s
  | (va, n, o) :: l, d =>
    let s := match o with
      | .ok pa _ => s.writePBytes pa (d.take n)
      | .far q =>
        let (mid, s) := s.newMid
        let s : State := s.sendRequest (lfPkg q) ⟨s.pkg, mid, p.id, a, 0, BitVec.ofNat 52 va, .bytes (d.take n)⟩
        let m : SentMsg := ⟨mid, lfPkg q, p.id, a, 1, BitVec.ofNat 52 va, false, false, none, none⟩
        { s with sent := s.sent ++ [m] }
      | _ => s
    s.ioWrite p a l (d.drop n)

/-- What an inbound read finds: its bytes, what it has still to ask of another package, or a refusal there. -/
def State.ioRead (s : State) (p : Partition) (a : AgentId) (ev : Event) : List (Nat × Nat × Own) → Bool → List (BitVec 8) →
    Option (BitVec 4 × BitVec 8) → State × Bool × List (BitVec 8) × Option (BitVec 4 × BitVec 8)
  | [], all, got, bad => (s, all, got, bad)
  | (va, n, o) :: l, all, got, bad =>
    match o with
    | .ok pa _ => s.ioRead p a ev l all (got ++ s.mem.bytes pa n) bad
    | .far q =>
      match s.farOf p.id ev va with
      | none => (s.farAsk p.id ev a 0 q va (.inward n)).ioRead p a ev l false got bad
      | some x => match x.resp with
        | none => s.ioRead p a ev l false got bad
        | some r => s.ioRead p a ev l all (got ++ bytesOfNat n r.value) (bad.orElse (fun _ => r.refused))
    | _ => s.ioRead p a ev l all got bad

/-- An inbound memory request. -/
def State.ioRequest (s : State) (r : Inbound) : State :=
  match (Config.ioAgent r.port r.rid.toNat).bind (fun x => (s.part? x.1).map (fun p => (p, x.2))) with
  | none => s.emit (.unsupported r.port)
  | some (p, a) =>
    let ev : Event := .inbound r
    let l := (pagePieces r.va.toNat 3 r.size).map (fun x => (x.1, x.2, s.ioPlace p a r.write x.1 x.2))
    let stops : Own → Bool := fun o => match o with | .ok _ _ | .far _ => false | _ => true
    match (l.map (·.2.2)).find? stops with
    | some (.stall s) => s.push ev
    | some (.fault sub lvl gen) => s.ioRefuse r p.id a 8 sub lvl gen
    | some (.refused sub gen) => s.ioRefuse r p.id a 6 sub 0 gen
    | _ =>
      if r.write then s.ioWrite p a l r.data
      else
        let (t, all, got, bad) := s.ioRead p a ev l true [] none
        if !all then t.push ev
        else
          let t : State := { t with outst := t.outst.filter (fun o => !(some o.wave == farKey ev && l.any (fun x => x.1 == o.va.toNat))) }
          match bad with
          | some (cls, sub) => t.ioRefuse r p.id a (cls.setWidth 8) sub 0 0
          | none => t.emit (.completion r.port true got)

/-- INBOUND_MEMORY_REQUEST (R402). -/
def execInboundMemoryRequest (r : Inbound) (s : State) : Out := .next (s.ioRequest r)

/-- MSI_X (R402): a releasing ARRIVE on the counter that the data names, at that counter's scope. -/
def execMsiX (port : Nat) (rid : BitVec 16) (data : Word) (s : State) : Out :=
  .next (match (Config.ioAgent port rid.toNat).bind (fun x => (s.part? x.1).map (fun p => (p, x.2))) with
    | none => s.emit (.unsupported port)
    | some (p, a) =>
      let n := bits data.toNat 0 12
      (s.release p.id (coreOf a) (p.counter n).scope).countUp p.id n 1)

end Sys2Proof.Machine
end

