-- ==== Sys2Proof/Machine/Reset.lean ====
section
/-! DEFINITION. Reset (R425 to R427), power (R429), key loads (R391), poison from uncorrected errors (R412, R423), the end
of a candling scan (R228, R421, R422), and the restore of a launch with rollback (R418 to R420). -/

namespace Sys2Proof.Machine

/-! ### Reset -/

/-- A partition as reset step 7 creates it, before its registers are written (R25, R427). -/
def Partition.fresh (n : Nat) : Partition where
  id := n
  shares := []
  crate := 0x0408
  ptroot := 0
  tshape := 0
  rackb := 0
  wthr := 20000
  tvbk := 0
  tside := 0
  fto := 2000
  swapb := 0
  fltq := 0
  fltHead := 0
  fltCount := 0
  pending := []
  counters := []
  bindings := []
  refs := []
  declared := []

/-- LCMAP as step 4 builds it: the identity, removed cores left out (R422, R426). -/
def bootMap (removed : List (BitVec 11)) : List (Nat × BitVec 16) :=
  ((removed.map coreIndex).dedup.foldr (fun n l => insertBy id n l) []).map (fun n => (n, 0))

/-- The link keys of the store: the counter of a key that is in a slot is that slot's, so that no (key, IV) pair is used again (R391). -/
def State.storedKeys (s : State) : List LinkKeys :=
  s.keys.map (fun l => match s.port? l.port with
    | none => l
    | some p =>
      match [p.tx0, p.tx1].find? (fun k => k.st != 0 && k.key == l.txKey) with
      | some k => { l with txCtr := k.ctr }
      | none => l)

/-- AGEM as step 4 leaves it: the margins are read anew, the supply offset is restored (R421, R426). -/
def State.agedAt (s : State) (tick : Nat) : List (Nat × Word) :=
  s.agem.map (fun x => (x.1, agemWord (Config.margins tick x.1) (bits x.2.toNat 8 8)))

/-- What comes from outside to end the reset steps: no reset discards it. -/
def endsReset (e : Event) : Bool := match e with | .ext (.packageReset _) => true | _ => false

/-- The package as its reset steps begin (R425, R426): all device state is discarded but the monitor's nonvolatile store, which holds the
keys, the certificates (`Config.certificate`) and the removed cores, and the supply offsets, which step 4 restores. What has left the
package has left it; the model's own counter goes on. -/
def State.resetFrom (s : State) : State :=
  { State.reset with removed := s.removed, stopped := s.removed, agem := s.agem, keys := s.storedKeys,
                     agenda := s.agenda.filter endsReset, out := s.out, aged := s.aged, tick := s.tick }

/-- POWER_ON (R425). -/
def execPowerOn (s : State) : Out := .next s.resetFrom

/-- Keys that the store receives beside those that it holds; a key that it holds already keeps its counter. -/
def mergeKeys (old new : List LinkKeys) : List LinkKeys :=
  let keep (l : LinkKeys) : LinkKeys := match old.find? (fun o => o.port == l.port && o.txKey == l.txKey) with
    | some o => { l with txCtr := o.txCtr }
    | none => l
  new.map keep ++ old.filter (fun o => !new.any (·.port == o.port))

/-- Step 5: a link that has trained is up, any other is down; key slot 0 of both directions is loaded from the store and in use
(R426). -/
def Port.train (trained : List Nat) (keys : List LinkKeys) (p : Port) : Port :=
  let p := { p with up := trained.contains p.id }
  match keys.find? (·.port == p.id) with
  | none => p
  | some l => { p with tx0 := ⟨2, l.txKey, l.txSalt, l.txCtr, l.txThr⟩, rx0 := ⟨2, l.rxKey, l.rxSalt, l.rxCtr, l.rxThr⟩ }

/-- Extends a measurement slot by a digest (R230). -/
def extendDigest (v d : BitVec 384) : BitVec 384 := slotOfBytes (sha384 (slotBytes v ++ slotBytes d))

/-- Step 2: the monitor's firmware is measured. -/
def State.measured (s : State) (fw : BitVec 384) : State := { s with atst := vset s.atst 0 (extendDigest 0 fw) }

/-- Step 4: the core map is built without the removed cores, the margins are read. -/
def State.mapped (s : State) : State := { s with coreMap := bootMap s.removed, agem := s.agedAt s.tick, aged := s.tick }

/-- Steps 4 and 5. -/
def State.linked (s : State) (trained : List Nat) (links : List LinkKeys) : State :=
  let s := s.mapped
  { s with ports := s.ports.map (Port.train trained (mergeKeys s.keys links)), keys := mergeKeys s.keys links }

/-- An address of the image, at a multiple of a size: an image that names another is cut so (DESIGN CHOICE, log 103). -/
def pageOf (size : Nat) (a : Addr) : Addr := BitVec.ofNat 52 (a.toNat / size * size)

/-- The launch of step 8: one unit of the image's entry, LVL 1, PRIO 7 (R426). -/
def bootLaunch (i : BootImage) : Launch where
  id := 1
  part := 0
  code := pageOf 8 i.code
  frame := i.info
  stride := 0
  count := 1
  join := 0
  slots := ⟨none, none, none, none⟩
  shapeIdx := 0
  shape := setBits i.shape.toNat 26 1 0
  prio := 7
  lvl := true
  yoke := false
  rbk := false
  rke := none
  footprint := []
  bare := []
  ended := 0
  heldEnds := 0
  heldFaulted := 0
  heldCancelled := 0
  clusters := []
  attempt := 1
  failing := none
  snaps := []
  cancelled := false

/-- The boot information page lists what steps 5 and 6 have found (R427): its bytes are laid out nowhere and come from outside (log 103). -/
def State.writeInfo (s : State) (p : Partition) (i : BootImage) : State :=
  match leafAt s p (i.info.toNat / 4096) with
  | some (q, _) => s.writePBytes (lfFrame q * 4096) (i.infoBytes.take 4096)
  | none => s

/-- The boot information page is OWNED by the boot team (R427). -/
def State.ownInfo (s : State) (p : Partition) (info : Addr) (a : AgentId) : State :=
  match leafAt s p (info.toNat / 4096) with
  | some (q, addr) => s.writeLeaf addr (lfSet (lfSet q 1 3 mOwned) 16 16 a.toNat)
  | none => s

/-- Step 8: the unit starts on the first present core of die 0 that has room (DESIGN CHOICE, log 3); where none has, its
launch stays placed. -/
def State.bootUnit (s : State) (i : BootImage) : State :=
  let k := bootLaunch i
  let s : State := { s with launches := [k], nextLaunch := 2 }
  match s.part? 0 with
  | none => s
  | some p =>
    match ((List.range 160).map coreOfIndex).findSome? (fun c =>
        (s.startUnit c p (k.unitRec 0) k.shape.toNat 0 0).map (fun s => (s, c))) with
    | some (s, c) => s.ownInfo p i.info (agentOf c 0)
    | none => s.placeLaunch k

/-- Steps 6 to 8 (R426), and those that the image's event brings with it. -/
def State.boot (s : State) (i : BootImage) : State :=
  let p : Partition := { Partition.fresh 0 with
    shares := i.shares
    ptroot := pageOf 4096 i.ptroot
    tvbk := pageOf 4096 i.tvbk
    tside := i.tside
    swapb := i.swapb
    fltq := i.fltq
    declared := i.channels }
  let s := (s.measured i.fwMeasure).linked i.trained i.links
  let s : State := { s with
    power := .running
    mem := i.bytes.foldl (fun m b => m.setByte b.1 b.2) s.mem
    atst := vset s.atst 1 (extendDigest 0 i.measure)
    parts := [p]
    dies := s.dies.map (fun d => { d with part := some 0 }) }
  (s.writeInfo p i).bootUnit i

/-- The end of the reset steps: held at the one that fails, with what those before it have done, or in service (R426). -/
def State.endReset (s : State) (r : BootResult) : State :=
  match r with
  | .failed2 => { s with power := .held 2 }
  | .failed3 fw => { s.measured fw with power := .held 3 }
  | .failed6 fw trained links => { (s.measured fw).linked trained links with power := .held 6 }
  | .image i => s.boot i

/-- PACKAGE_RESET (R425, R426): the reset steps, begun before or now, come to their end. -/
def execPackageReset (r : BootResult) (s : State) : Out :=
  .next ((if s.power == .resetting then s else s.resetFrom).endReset r)

/-! ### Power and keys -/

/-- POWER_WINDOW (R429): throttling changes time alone. -/
def execPowerWindow (above : Bool) (s : State) : Out := .next { s with throttled := above }

/-- KEY_SLOT_LOAD (R391, R399): only an empty slot is loaded; it is in use where the direction has named it. -/
def execKeySlotLoad (pn : Nat) (tx slot : Bool) (key : BitVec 256) (salt : Word) (ctr thr : DWord) (s : State) : Out :=
  .next (match s.port? pn with
    | none => s
    | some p =>
      let k (st : BitVec 2) : KeySlot := ⟨st, key, salt, ctr, thr⟩
      if tx then
        if (if slot then p.tx1 else p.tx0).st ≠ 0 then s
        else
          let k := k (if p.tx = slot then 2 else 1)
          (s.updPort pn (fun p => if slot then { p with tx1 := k } else { p with tx0 := k })).resumePort pn
      else if (p.rx slot).st ≠ 0 then s
      else s.updPort pn (fun p => p.setRx slot (k (if (p.rx (!slot)).st = 2 then 1 else 2))))

/-! ### Uncorrected errors (R412, R423) -/

/-- Bytes as read after an uncorrected error: free. -/
def State.errBytes (s : State) (n : Nat) : List (BitVec 8) :=
  (List.range n).map (fun i => (Config.erroredBits (s.tick + i)).extractLsb' 0 8)

/-- A word as read after an uncorrected error. -/
def State.errWord (s : State) (n : Nat) : Nat := (Config.erroredBits s.tick).toNat % 2 ^ n

/-- Adds to a list what it does not hold. -/
def addNew {α : Type} [BEq α] (x : α) (l : List α) : List α := if l.contains x then l else x :: l

/-- A 32-bit unit of the register pool after an uncorrected error: gN, or a half of fN. -/
def Regs.err (r : Regs) (f : Bool) (n v : Nat) : Regs :=
  if f then { r with f := vset r.f (n / 2) (BitVec.ofNat 64 (setBits (vget r.f (n / 2)).toNat (32 * (n % 2)) 32 v)), bad := addNew (f, n) r.bad }
  else { r with g := vset r.g n (BitVec.ofNat 32 v), bad := addNew (f, n) r.bad }

/-- `k` f tags from number `n` up after an uncorrected error: a read of such a register meets poison. -/
def Regs.errTags (r : Regs) (n k v : Nat) : Regs :=
  (List.range k).foldl (fun r i =>
    { r with tag := vset r.tag (n + i) (BitVec.ofNat 4 (v / 16 ^ i)), bad := addNew (true, 2 * (n + i)) r.bad }) r

/-- The matrix state of a team that has one. -/
def Team.updMat (t : Team) (f : MatState → MatState) : Team := { t with mat := t.mat.map f }

/-- A bank with 32 bits of a column replaced: eight cells, or (unit 16) its four scale codes. -/
def Bank.setUnit (b : Bank) (c u v : Nat) : Bank :=
  if u < 16 then { b with cells := spSet 0 b.cells c (BitVec.ofNat 512 (setBits (spGet 0 b.cells c).toNat (32 * u) 32 v)) }
  else { b with scales := (List.range 4).foldl (fun l i => spSet 0x7F l (4 * c + i) (BitVec.ofNat 8 (bits v (8 * i) 8))) b.scales }

/-- 32 bits of a macro's bank after an uncorrected error. -/
def MatState.errUnit (m : MatState) (loading : Bool) (mac col u v : Nat) : MatState :=
  let m := { m with badMac := addNew ⟨loading, mac, col, u⟩ m.badMac }
  if loading then { m with loading := vset m.loading mac ((vget m.loading mac).setUnit col u v) }
  else { m with active := vset m.active mac ((vget m.active mac).setUnit col u v) }

/-- An element of a tile after an uncorrected error. -/
def Tile.err (x : Tile) (e v : Nat) : Tile := { x with e := spSet 0 x.e e (BitVec.ofNat 32 v), bad := addNew e x.bad }

/-- An entry of a leader table after an uncorrected error. -/
def MatState.errLeader (m : MatState) (n v : Nat) : MatState :=
  { m with badLead := addNew n m.badLead, leaders := spSet 0 m.leaders n (BitVec.ofNat 32 v) }

/-- Two registers of a fibre after an uncorrected error in the eight bytes that hold them. -/
def Fibre.errPair (v n : Nat) (f : Fibre) : Fibre :=
  { f with regs := (f.regs.err false (2 * n) (v % 2 ^ 32)).err false (2 * n + 1) (v / 2 ^ 32) }

/-- A captured operand or result, sixteen bytes, with eight of them replaced. -/
def errHalf (x : QWord) (n v : Nat) : QWord := BitVec.ofNat 128 (setBits x.toNat (64 * (n % 2)) 64 v)

/-- Eight bytes of a lane's captured operands, or of its result, after an uncorrected error, numbered as R211 lays them out. -/
def LaneRec.err (r : LaneRec) (n v : Nat) : LaneRec :=
  match n / 2 with
  | 0 => { r with cap := { r.cap with av := errHalf r.cap.av n v } }
  | 1 => { r with cap := { r.cap with bv := errHalf r.cap.bv n v } }
  | 2 => { r with cap := { r.cap with dv := errHalf r.cap.dv n v } }
  | _ => { r with res := errHalf r.res n v }

/-- An entry of a replay area after one. -/
def Entry.err (e : Entry) (lane n v : Nat) : Entry :=
  if e.lanes.any (·.lane == lane) then
    { e with lanes := e.lanes.map (fun r => if r.lane == lane then r.err n v else r), bad := addNew lane e.bad }
  else e

/-- Two of s0–s3 as an entry has saved them, after one. -/
def HSave.errS (h : HSave) (n v : Nat) : HSave :=
  { h with ss := (h.ss.set (2 * n) (BitVec.ofNat 32 v)).set (2 * n + 1) (BitVec.ofNat 32 (v / 2 ^ 32)), sBad := true }

/-- The queues of a wave that lie in its replay area (R363): what its handlers' entries have saved, and, where its partition does not run
or it is swapped, its own. -/
def Wave.errReplay (w : Wave) (own : Bool) (f : Entry → Entry) : Wave :=
  let g (h : HSave) : HSave := { h with replay := h.replay.map f }
  { w with h := w.h.map g, d1 := w.d1.map g, mc := w.mc.map g, unfinished := if own then w.unfinished.map f else w.unfinished }

/-- Two words of an instance of a REDUCE page after one. -/
def RedInst.err (i : RedInst) (off v : Nat) : RedInst :=
  let rest := i.words.filter (fun w => w.1 != off && w.1 != off + 4)
  { i with words := insertBy (·.1) (off, BitVec.ofNat 32 v) (insertBy (·.1) (off + 4, BitVec.ofNat 32 (v / 2 ^ 32)) rest),
           bad := addNew off (addNew (off + 4) i.bad) }
/-- Two of g0–g3 of a lane's entry save, likewise. -/
def Low4.errPair (v n : Nat) (x : Low4) : Low4 :=
  { x with g := (x.g.set (2 * n) (BitVec.ofNat 32 v)).set (2 * n + 1) (BitVec.ofNat 32 (v / 2 ^ 32)),
           bad := addNew (2 * n) (addNew (2 * n + 1) x.bad) }

/-- Changes a team's context where it lies in shadow storage: its partition runs elsewhere, or it is swapped. -/
def State.updImage (s : State) (part : Nat) (a : AgentId) (f : Team → Team) : State :=
  let g (swapped : Bool) (t : Team) : Team := if t.part == part && t.agent == a && (swapped || t.resid != .resident) then f t else t
  { s with teams := s.teams.map (g false), saved := s.saved.map (fun x => { x with teams := x.teams.map (g true) }) }

/-- Whether a team's context lies in shadow storage whole. -/
def State.imaged (s : State) (part : Nat) (a : AgentId) : Bool :=
  match s.teams.find? (fun t => t.part == part && t.agent == a) with
  | some t => t.resid != .resident
  | none => true

/-- The unit of memory hit is poisoned, its bits free; the words of an instance of a REDUCE page lie in its frame (R238, R412). -/
def State.errorMem (s : State) (pa : Nat) : State :=
  let n := unitLen pa
  let u := pa / n * n
  let hit (i : RedInst) : RedInst := if i.frame = pa / 4096 then i.err (u % 4096) (s.errWord 64) else i
  if frameLoc (pa / 4096) = .hole then s
  else if s.redInsts.any (·.frame == pa / 4096) then { s with redInsts := s.redInsts.map hit }
  else ({ s with mem := s.mem.writeBytes u (s.errBytes n) }).poison u

/-- The unit hit is poisoned, its bits free (R412). -/
def State.errorAt (s : State) (t : ErrTarget) : State :=
  let v := s.errWord 64
  match t with
  | .mem pa => s.errorMem pa.toNat
  | .scratch a off =>
    let u := off / 8 * 8
    s.updTeam a (fun t => if t.scr ≤ u then t else { t with
      scratch := t.scratch.writeBytes u (s.errBytes 8)
      scratchBad := addNew u t.scratchBad })
  | .reg a slot f n => s.updTeam a (·.updFibre slot (fun b => { b with regs := b.regs.err f n (v % 2 ^ 32) }))
  | .tags a slot n => s.updTeam a (·.updFibre slot (fun b => { b with regs := b.regs.errTags (8 * n) 8 v }))
  | .tile a z e => s.updTeam a (fun t => { t with z := vset t.z z ((vget t.z z).err e v) })
  | .bank a loading mac col u => s.updTeam a (·.updMat (·.errUnit loading mac col u (v % 2 ^ 32)))
  | .leader a n => s.updTeam a (·.updMat (·.errLeader n v))
  | .qleader c n => s.updCore c (fun k => { k with qbad := addNew n k.qbad, qlead := spSet 0 k.qlead n (BitVec.ofNat 32 v) })
  | .image part a slot n => s.updImage part a (·.updFibre slot (Fibre.errPair v n))
  | .imageF part a slot n => s.updImage part a (·.updFibre slot (fun b =>
      { b with regs := (b.regs.err true (2 * n) (v % 2 ^ 32)).err true (2 * n + 1) (v / 2 ^ 32) }))
  | .imageTags part a slot n => s.updImage part a (·.updFibre slot (fun b => { b with regs := b.regs.errTags (16 * n) 16 v }))
  | .imageTile part a z n => s.updImage part a (fun t =>
      { t with z := vset t.z z (((vget t.z z).err (2 * n) v).err (2 * n + 1) (v / 2 ^ 32)) })
  | .imageBank part a loading mac col n => s.updImage part a (·.updMat (fun m =>
      if n < 8 then (m.errUnit loading mac col (2 * n) (v % 2 ^ 32)).errUnit loading mac col (2 * n + 1) (v / 2 ^ 32)
      else (m.errUnit loading mac col 16 (v % 2 ^ 32)).errUnit loading mac (col + 1) 16 (v / 2 ^ 32)))
  | .imageLeader part a n => s.updImage part a (·.updMat (fun m => (m.errLeader (2 * n) v).errLeader (2 * n + 1) (v / 2 ^ 32)))
  | .imageQleader part c n =>
    let hit (x : SavedCtx) : SavedCtx := if x.part == part && x.core == c then
        { x with qbad := addNew (2 * n) (addNew (2 * n + 1) x.qbad),
                 qlead := spSet 0 (spSet 0 x.qlead (2 * n) (BitVec.ofNat 32 v)) (2 * n + 1) (BitVec.ofNat 32 (v / 2 ^ 32)) }
      else x
    { s with saved := s.saved.map hit }
  | .entrySave part a wv lane n =>
    let hit (h : HSave) : HSave := { h with gs := h.gs.map (fun x => if x.lane == lane then x.errPair v n else x) }
    s.updPartTeam part a (·.updWave wv (fun w => { w with h := w.h.map hit }))
  | .entryS part a wv n => s.updPartTeam part a (·.updWave wv (fun w => { w with h := w.h.map (·.errS n v) }))
  | .replayArea part a wv ent lane n =>
    s.updPartTeam part a (·.updWave wv (·.errReplay (s.imaged part a) (fun e => if e.id == ent then e.err lane n v else e)))

/-- UNCORRECTED_ERROR (R412); with FRZCFG bit 16 it freezes the device (R423). -/
def execUncorrectedError (t : ErrTarget) (s : State) : Out :=
  .next (let s' := s.errorAt t
    if bitOf s.frzcfg 16 then { s' with power := .frozen } else s')

/-! ### Candling (R228, R421, R422) -/

/-- AGEM after a reading: the margins, and VOFF one step higher when one is short (R421). -/
def agemRead (old : Word) (replan : Bool) (pdm vmm : BitVec 8) : Word :=
  let short := pdm.toNat < 20 || vmm.toNat < 30
  let v := bits old.toNat 8 8
  agemWord (pdm ++ vmm) (if replan && short && v < 24 then v + 1 else v)

/-- CANDLING_SCAN_END (R228): AGEM is refreshed, the core goes on, and the waiting CNDL finds its result; a core that fails,
or whose margin is short at the limit, is recorded as removed (R422). -/
def execCandlingScanEnd (core : BitVec 11) (pass : Bool) (pdm vmm : BitVec 8) (s : State) : Out :=
  let k := s.core core
  .next (match k.candle with
    | none => s
    | some x =>
      if x.result.isSome then s
      else
        let short := pdm.toNat < 20 || vmm.toNat < 30
        let s := s.setCore { k with candle := some { x with result := some (if pass then 0 else 1) } }
        match s.physCore core with
        | some pc =>
          let n := coreIndex pc
          let old := s.agemAt n
          let s : State := { s with agem := insertBy (·.1) (n, agemRead old pass pdm vmm) (s.agem.filter (·.1 != n)) }
          if (!pass || (short && bitOf old 0)) && !s.removed.contains pc then { s with removed := pc :: s.removed } else s
        | none => s)

/-! ### Rollback (R418 to R420) -/

/-- Whether a page of a launch's snapshots is in motion, so that its restore waits. -/
def State.restoreWaits (s : State) (k : Launch) : Bool := k.snaps.any (fun x => s.moving k.part x.1)

/-- Step 2: each snapshot is copied back through the page's current leaf, poison included. -/
def State.copyBack (s : State) (p : Partition) (k : Launch) : State :=
  k.snaps.foldl (fun s x => match leafAt s p x.1 with
    | some (q, _) => if lfPkg q = 0xFFF then s.copyPage (x.2 * 4096) (lfFrame q * 4096) else s
    | none => s) s

/-- The launch fails for good: one join step, the counters, a record, and a freeze where FRZCFG bit 17 asks for it. -/
def State.failLaunch (s : State) (k : Launch) (a : AgentId) (yoke : Bool) : State :=
  let s := s.freeSnaps k
  let s := if k.join = 0 then s else s.joinStep k.part ((k.clusters.head?.getD 0) / 16) 0xFFFF k.join k.count k.count 0 k.clusters
  let s := s.advance k
  let s := s.record k.part (errRecord 12 5 a (BitVec.ofNat 32 (k.attempt % 16 + (if yoke then 16 else 0))) 0 0)
  let s : State := { s with launches := s.launches.filter (·.id != k.id) }
  if bitOf s.frzcfg 17 then { s with power := .frozen } else s

/-- A cancel has won: every unit counts cancelled, and the launch completes (R325, R420). -/
def State.cancelRestored (s : State) (k : Launch) : State :=
  let s := s.updLaunch k.id (fun k => { k with rbk := false, failing := none, ended := k.count })
  let s := if k.join = 0 then s else s.push (.joinStep k.part ((k.clusters.head?.getD 0) / 16) 0xFFFF k.join k.count 0 k.count k.clusters)
  s.push (.launchDone k.part k.id)

/-- ROLLBACK_RESTORE (R418, R420). -/
def execRollbackRestore (part l : Nat) (s : State) : Out :=
  .next (match s.launch? l, s.part? part with
    | some k, some p =>
      match k.failing with
      | none => s
      | some (a, yoke) =>
        if k.part ≠ part || s.allTeams.any (·.work.launch == some l) then s
        else if s.restoreWaits k then s.push (.restore part l)
        else
          let s := s.copyBack p k
          if k.stopped p then s.cancelRestored k
          else if 3 ≤ k.attempt then s.failLaunch k a yoke
          else
            let k' : Launch := { k with
              attempt := k.attempt + 1
              failing := none
              ended := 0
              heldEnds := 0
              heldFaulted := 0
              heldCancelled := 0
              clusters := [] }
            (s.updLaunch l (fun _ => k')).placeLaunch k'
    | _, _ => s)

end Sys2Proof.Machine
end

