-- ==== Sys2Proof/Machine/Sideband.lean ====
section
/-! DEFINITION. The sideband port: SPDM requests (R403), other MCTP messages (R7), and the reset request with its deadline
(R404, R431). -/

namespace Sys2Proof.Machine

/-- Whether the sideband answers attestation: in service. A package held by a failed reset step answers GET_VERSION alone
(R426); in a frozen one the clocks stand (R423). -/
def State.answers (s : State) : Bool := s.power == .running

/-- An answer whose bytes the manual does not give (R403). -/
def State.spdm (s : State) (ok : Bool) : State := if ok then s.emit (.spdm (Config.spdmBytes s.tick)) else s

/-- GET_VERSION: answered in service, and by a held package. -/
def execGetVersion (s : State) : Out := .next (s.spdm (s.power != .frozen))
def execGetCapabilities (s : State) : Out := .next (s.spdm s.answers)

/-- NEGOTIATE_ALGORITHMS: ECDSA P-384 and SHA-384 only. -/
def execNegotiateAlgorithms (s : State) : Out :=
  .next (if s.answers then s.emit (.algorithms [.ecdsaP384, .sha384] (Config.spdmBytes s.tick)) else s)

/-- GET_DIGESTS: the SHA-384 digest of the certificate chain that the monitor's store holds. -/
def execGetDigests (s : State) : Out := .next (if s.answers then s.emit (.spdm (sha384 Config.certificate)) else s)

/-- GET_CERTIFICATE: the certificate chain. -/
def execGetCertificate (s : State) : Out := .next (if s.answers then s.emit (.spdm Config.certificate) else s)

/-- CHALLENGE. -/
def execChallenge (_nonce : BitVec 256) (s : State) : Out := .next (s.spdm s.answers)

/-- Measurement blocks 1 to 16: the index of each and its slot's 48 bytes (R230, R403). -/
def measurementBlocks (atst : Vector (BitVec 384) 16) : List (BitVec 8) :=
  atst.toList.zipIdx.flatMap (fun x => BitVec.ofNat 8 (x.2 + 1) :: slotBytes x.1)

/-- GET_MEASUREMENTS (R403). -/
def execGetMeasurements (s : State) : Out :=
  .next (if s.answers then s.emit (.spdm (measurementBlocks s.atst)) else s)

/-- Any other SPDM request: ERROR UnsupportedRequest (R403). -/
def execUnsupportedRequest (_code : BitVec 8) (s : State) : Out := .next (if s.answers then s.emit .spdmError else s)

/-- An MCTP message of any other type is discarded (R403). -/
def execOtherMctpMessage (_type : BitVec 8) (s : State) : Out := .next s

/-- RESET_REQUEST (R404, R431): in service the records are queued and the deadline runs; frozen, or held at a failed step,
the package resets at once; a second request does nothing, nor does one during the reset steps. -/
def execResetRequest (s : State) : Out :=
  .next (match s.power with
    | .running =>
      if s.deadline then s
      else
        let s := s.parts.foldl (fun s p => s.record p.id (errRecord 10 5 0xFFFF s.rdl 0 0)) s
        { s with deadline := true }
    | .frozen => s.resetFrom
    | .held _ => s.resetFrom
    | .resetting => s)

/-- RESET_DEADLINE (R404): RDL microseconds after the request the package resets. -/
def execResetDeadline (s : State) : Out := .next (if s.deadline then s.resetFrom else s)

end Sys2Proof.Machine
end

