-- ==== Sys2Proof/Machine/Dispatch.lean ====
section
/-! DEFINITION. The meaning of every instruction and event: one arm for each row of the opcode table. -/

namespace Sys2Proof.Machine

def exec (i : Instr) (s : State) : Host.Outcome State Fault Refusal :=
  match i with
  | .nop => Sys2Proof.Machine.execNop s
  | .br h off => Sys2Proof.Machine.execBr h off s
  | .bru reg bit off => Sys2Proof.Machine.execBru reg bit off s
  | .brx h a => Sys2Proof.Machine.execBrx h a s
  | .call h d off => Sys2Proof.Machine.execCall h d off s
  | .callx h d a => Sys2Proof.Machine.execCallx h d a s
  | .ret h a => Sys2Proof.Machine.execRet h a s
  | .spawn h d off => Sys2Proof.Machine.execSpawn h d off s
  | .endf h => Sys2Proof.Machine.execEndf h s
  | .yield h => Sys2Proof.Machine.execYield h s
  | .join h k => Sys2Proof.Machine.execJoin h k s
  | .leave h k => Sys2Proof.Machine.execLeave h k s
  | .waitm h k => Sys2Proof.Machine.execWaitm h k s
  | .mmov h d k arr => Sys2Proof.Machine.execMmov h d k arr s
  | .mop h a k op => Sys2Proof.Machine.execMop h a k op s
  | .ballot h d a => Sys2Proof.Machine.execBallot h d a s
  | .tbar h regroup => Sys2Proof.Machine.execTbar h regroup s
  | .qset h a q => Sys2Proof.Machine.execQset h a q s
  | .sign h q => Sys2Proof.Machine.execSign h q s
  | .fork h d a set => Sys2Proof.Machine.execFork h d a set s
  | .rdv h d a => Sys2Proof.Machine.execRdv h d a s
  | .arrive h a rlx => Sys2Proof.Machine.execArrive h a rlx s
  | .wait h a b => Sys2Proof.Machine.execWait h a b s
  | .ctst h d c => Sys2Proof.Machine.execCtst h d c s
  | .cbind h a b c => Sys2Proof.Machine.execCbind h a b c s
  | .cunb h c => Sys2Proof.Machine.execCunb h c s
  | .cprod h a c => Sys2Proof.Machine.execCprod h a c s
  | .ccons h a c => Sys2Proof.Machine.execCcons h a c s
  | .add h d a b => Sys2Proof.Machine.execAdd h d a b s
  | .sub h d a b => Sys2Proof.Machine.execSub h d a b s
  | .mul h d a b => Sys2Proof.Machine.execMul h d a b s
  | .mulh h d a b => Sys2Proof.Machine.execMulh h d a b s
  | .mulhu h d a b => Sys2Proof.Machine.execMulhu h d a b s
  | .mad h d a b => Sys2Proof.Machine.execMad h d a b s
  | .div h d a b => Sys2Proof.Machine.execDiv h d a b s
  | .divu h d a b => Sys2Proof.Machine.execDivu h d a b s
  | .rem h d a b => Sys2Proof.Machine.execRem h d a b s
  | .remu h d a b => Sys2Proof.Machine.execRemu h d a b s
  | .and h d a b => Sys2Proof.Machine.execAnd h d a b s
  | .or h d a b => Sys2Proof.Machine.execOr h d a b s
  | .xor h d a b => Sys2Proof.Machine.execXor h d a b s
  | .andn h d a b => Sys2Proof.Machine.execAndn h d a b s
  | .shl h d a b => Sys2Proof.Machine.execShl h d a b s
  | .shr h d a b => Sys2Proof.Machine.execShr h d a b s
  | .sar h d a b => Sys2Proof.Machine.execSar h d a b s
  | .rol h d a b => Sys2Proof.Machine.execRol h d a b s
  | .clz h d a => Sys2Proof.Machine.execClz h d a s
  | .ctz h d a => Sys2Proof.Machine.execCtz h d a s
  | .popc h d a b => Sys2Proof.Machine.execPopc h d a b s
  | .brev h d a => Sys2Proof.Machine.execBrev h d a s
  | .bfx h d a pos len => Sys2Proof.Machine.execBfx h d a pos len s
  | .bfxs h d a pos len => Sys2Proof.Machine.execBfxs h d a pos len s
  | .bfi h d a pos len => Sys2Proof.Machine.execBfi h d a pos len s
  | .min h d a b => Sys2Proof.Machine.execMin h d a b s
  | .max h d a b => Sys2Proof.Machine.execMax h d a b s
  | .minu h d a b => Sys2Proof.Machine.execMinu h d a b s
  | .maxu h d a b => Sys2Proof.Machine.execMaxu h d a b s
  | .abs h d a => Sys2Proof.Machine.execAbs h d a s
  | .cmp h d a b t => Sys2Proof.Machine.execCmp h d a b t s
  | .sel h d a b cr cb => Sys2Proof.Machine.execSel h d a b cr cb s
  | .mov h d a => Sys2Proof.Machine.execMov h d a s
  | .li h d imm => Sys2Proof.Machine.execLi h d imm s
  | .lih h d imm => Sys2Proof.Machine.execLih h d imm s
  | .shfl h d a b mode => Sys2Proof.Machine.execShfl h d a b mode s
  | .rdid h d sel => Sys2Proof.Machine.execRdid h d sel s
  | .amk h d a b => Sys2Proof.Machine.execAmk h d a b s
  | .aadd h d a b => Sys2Proof.Machine.execAadd h d a b s
  | .ascl h d a b => Sys2Proof.Machine.execAscl h d a b s
  | .amat h d a => Sys2Proof.Machine.execAmat h d a s
  | .setix h d a b => Sys2Proof.Machine.execSetix h d a b s
  | .getix h d a b => Sys2Proof.Machine.execGetix h d a b s
  | .lea h d wid m => Sys2Proof.Machine.execLea h d wid m s
  | .fadd h d a b o => Sys2Proof.Machine.execFadd h d a b o s
  | .fsub h d a b o => Sys2Proof.Machine.execFsub h d a b o s
  | .fmul h d a b o => Sys2Proof.Machine.execFmul h d a b o s
  | .ffma h d a b o => Sys2Proof.Machine.execFfma h d a b o s
  | .fmin h d a b o => Sys2Proof.Machine.execFmin h d a b o s
  | .fmax h d a b o => Sys2Proof.Machine.execFmax h d a b o s
  | .fdiv h d a b o => Sys2Proof.Machine.execFdiv h d a b o s
  | .fsqrt h d a o => Sys2Proof.Machine.execFsqrt h d a o s
  | .frcp h d a o => Sys2Proof.Machine.execFrcp h d a o s
  | .frsq h d a o => Sys2Proof.Machine.execFrsq h d a o s
  | .fex2 h d a o => Sys2Proof.Machine.execFex2 h d a o s
  | .flg2 h d a o => Sys2Proof.Machine.execFlg2 h d a o s
  | .fsin h d a o => Sys2Proof.Machine.execFsin h d a o s
  | .fcos h d a o => Sys2Proof.Machine.execFcos h d a o s
  | .fcmp h d a b t => Sys2Proof.Machine.execFcmp h d a b t s
  | .fcls h d a o => Sys2Proof.Machine.execFcls h d a o s
  | .fcvt h d a b v => Sys2Proof.Machine.execFcvt h d a b v s
  | .ftoi h d a v => Sys2Proof.Machine.execFtoi h d a v s
  | .itof h d a v => Sys2Proof.Machine.execItof h d a v s
  | .frnd h d a o => Sys2Proof.Machine.execFrnd h d a o s
  | .fscl h d a b o => Sys2Proof.Machine.execFscl h d a b o s
  | .fdot h d a b => Sys2Proof.Machine.execFdot h d a b s
  | .fmov h d a => Sys2Proof.Machine.execFmov h d a s
  | .ftag h d a tag => Sys2Proof.Machine.execFtag h d a tag s
  | .fraw h d a b => Sys2Proof.Machine.execFraw h d a b s
  | .fsel h d a b cr cb => Sys2Proof.Machine.execFsel h d a b cr cb s
  | .xmk h d a b x => Sys2Proof.Machine.execXmk h d a b x s
  | .xpt h d a x => Sys2Proof.Machine.execXpt h d a x s
  | .xlo h d a x => Sys2Proof.Machine.execXlo h d a x s
  | .xhi h d a x => Sys2Proof.Machine.execXhi h d a x s
  | .xadd h d a b x => Sys2Proof.Machine.execXadd h d a b x s
  | .xsub h d a b x => Sys2Proof.Machine.execXsub h d a b x s
  | .xmul h d a b x => Sys2Proof.Machine.execXmul h d a b x s
  | .xdiv h d a b x => Sys2Proof.Machine.execXdiv h d a b x s
  | .xsqr h d a x => Sys2Proof.Machine.execXsqr h d a x s
  | .xsqrt h d a x => Sys2Proof.Machine.execXsqrt h d a x s
  | .xneg h d a x => Sys2Proof.Machine.execXneg h d a x s
  | .xabs h d a x => Sys2Proof.Machine.execXabs h d a x s
  | .xhull h d a b x => Sys2Proof.Machine.execXhull h d a b x s
  | .xmeet h d a b x => Sys2Proof.Machine.execXmeet h d a b x s
  | .xmid h d a x => Sys2Proof.Machine.execXmid h d a x s
  | .xwid h d a x => Sys2Proof.Machine.execXwid h d a x s
  | .xcmp h d a b t => Sys2Proof.Machine.execXcmp h d a b t s
  | .xin h d a b t => Sys2Proof.Machine.execXin h d a b t s
  | .xsubs h d a b t => Sys2Proof.Machine.execXsubs h d a b t s
  | .xbis h d a b x => Sys2Proof.Machine.execXbis h d a b x s
  | .xld h d wid m => Sys2Proof.Machine.execXld h d wid m s
  | .xst h d wid m => Sys2Proof.Machine.execXst h d wid m s
  | .xcvt h d a v => Sys2Proof.Machine.execXcvt h d a v s
  | .xexp h d a x => Sys2Proof.Machine.execXexp h d a x s
  | .ld h d wid m => Sys2Proof.Machine.execLd h d wid m s
  | .st h d wid m => Sys2Proof.Machine.execSt h d wid m s
  | .ldf h d wid m => Sys2Proof.Machine.execLdf h d wid m s
  | .stf h d wid m => Sys2Proof.Machine.execStf h d wid m s
  | .ldp h d wid m => Sys2Proof.Machine.execLdp h d wid m s
  | .stp h d wid m => Sys2Proof.Machine.execStp h d wid m s
  | .place h d a b lvl => Sys2Proof.Machine.execPlace h d a b lvl s
  | .evict h d a b => Sys2Proof.Machine.execEvict h d a b s
  | .lds h d wid m => Sys2Proof.Machine.execLds h d wid m s
  | .zfill h a b scratch => Sys2Proof.Machine.execZfill h a b scratch s
  | .amo h d a b o => Sys2Proof.Machine.execAmo h d a b o s
  | .cas h d a b o => Sys2Proof.Machine.execCas h d a b o s
  | .amof h d a b o => Sys2Proof.Machine.execAmof h d a b o s
  | .lda h d wid m => Sys2Proof.Machine.execLda h d wid m s
  | .stl h d wid m => Sys2Proof.Machine.execStl h d wid m s
  | .fence h a kind => Sys2Proof.Machine.execFence h a kind s
  | .tfence h a => Sys2Proof.Machine.execTfence h a s
  | .seal h a b code => Sys2Proof.Machine.execSeal h a b code s
  | .unseal h a b => Sys2Proof.Machine.execUnseal h a b s
  | .hand h a b => Sys2Proof.Machine.execHand h a b s
  | .take h a => Sys2Proof.Machine.execTake h a s
  | .pub h a => Sys2Proof.Machine.execPub h a s
  | .red h d m => Sys2Proof.Machine.execRed h d m s
  | .probe h a => Sys2Proof.Machine.execProbe h a s
  | .chkerr h d => Sys2Proof.Machine.execChkerr h d s
  | .mcfg h arr wf af fac => Sys2Proof.Machine.execMcfg h arr wf af fac s
  | .mldb h a b mask => Sys2Proof.Machine.execMldb h a b mask s
  | .mvqb h a b mask => Sys2Proof.Machine.execMvqb h a b mask s
  | .mldt h a => Sys2Proof.Machine.execMldt h a s
  | .mswb h mask => Sys2Proof.Machine.execMswb h mask s
  | .mma h d a b t rows q => Sys2Proof.Machine.execMma h d a b t rows q s
  | .mzro h t i32 => Sys2Proof.Machine.execMzro h t i32 s
  | .mstz h a b t => Sys2Proof.Machine.execMstz h a b t s
  | .mrdz h d a t => Sys2Proof.Machine.execMrdz h d a t s
  | .mfac h n => Sys2Proof.Machine.execMfac h n s
  | .mpiv h d a b k => Sys2Proof.Machine.execMpiv h d a b k s
  | .mrnm h d a => Sys2Proof.Machine.execMrnm h d a s
  | .mgrw h d => Sys2Proof.Machine.execMgrw h d s
  | .mfst h a b => Sys2Proof.Machine.execMfst h a b s
  | .qenq h d a b kind => Sys2Proof.Machine.execQenq h d a b kind s
  | .cpy h d a b c dsc ssc => Sys2Proof.Machine.execCpy h d a b c dsc ssc s
  | .gthr h d a b c dsc ssc => Sys2Proof.Machine.execGthr h d a b c dsc ssc s
  | .sctr h d a b c dsc ssc => Sys2Proof.Machine.execSctr h d a b c dsc ssc s
  | .mcast h d a b c => Sys2Proof.Machine.execMcast h d a b c s
  | .msnd h a b ssc => Sys2Proof.Machine.execMsnd h a b ssc s
  | .coll h d a b ty op => Sys2Proof.Machine.execColl h d a b ty op s
  | .eloop h l a b count => Sys2Proof.Machine.execEloop h l a b count s
  | .ewait h d => Sys2Proof.Machine.execEwait h d s
  | .trap h code => Sys2Proof.Machine.execTrap h code s
  | .sysc h code => Sys2Proof.Machine.execSysc h code s
  | .rft h => Sys2Proof.Machine.execRft h s
  | .rplyGet h d a b => Sys2Proof.Machine.execRplyGet h d a b s
  | .rplyPut h d a b => Sys2Proof.Machine.execRplyPut h d a b s
  | .rplyDrop h d a b => Sys2Proof.Machine.execRplyDrop h d a b s
  | .rplyIns h d a b => Sys2Proof.Machine.execRplyIns h d a b s
  | .csrr h d n => Sys2Proof.Machine.execCsrr h d n s
  | .csrw h a n => Sys2Proof.Machine.execCsrw h a n s
  | .csrx h d a n => Sys2Proof.Machine.execCsrx h d a n s
  | .csrHighLatchRead h d n => Sys2Proof.Machine.execCsrHighLatchRead h d n s
  | .fenvWrite h a => Sys2Proof.Machine.execFenvWrite h a s
  | .tepcWrite h a hi => Sys2Proof.Machine.execTepcWrite h a hi s
  | .fltqWrite h a => Sys2Proof.Machine.execFltqWrite h a s
  | .mstatWrite h a => Sys2Proof.Machine.execMstatWrite h a s
  | .keystWrite h a => Sys2Proof.Machine.execKeystWrite h a s
  | .lnch h d a b => Sys2Proof.Machine.execLnch h d a b s
  | .canc h a lvl => Sys2Proof.Machine.execCanc h a lvl s
  | .cntr h d a b op lvl => Sys2Proof.Machine.execCntr h d a b op lvl s
  | .tinv h a b => Sys2Proof.Machine.execTinv h a b s
  | .rack h d a b => Sys2Proof.Machine.execRack h d a b s
  | .parkr h d a => Sys2Proof.Machine.execParkr h d a s
  | .rsumRetry h d a b => Sys2Proof.Machine.execRsumRetry h d a b s
  | .rsumFail h d a b => Sys2Proof.Machine.execRsumFail h d a b s
  | .swpo h d a => Sys2Proof.Machine.execSwpo h d a s
  | .swpi h d a => Sys2Proof.Machine.execSwpi h d a s
  | .prem h d a b => Sys2Proof.Machine.execPrem h d a b s
  | .frz h => Sys2Proof.Machine.execFrz h s
  | .cndl h d a => Sys2Proof.Machine.execCndl h d a s
  | .cmap h d a b => Sys2Proof.Machine.execCmap h d a b s
  | .halt h a => Sys2Proof.Machine.execHalt h a s
  | .haltEnable h a => Sys2Proof.Machine.execHaltEnable h a s
  | .atst h d a b => Sys2Proof.Machine.execAtst h d a b s
  | .pnop y => Sys2Proof.Machine.execPnop y s
  | .pairMov d s_ y => Sys2Proof.Machine.execPairMov d s_ y s
  | .pairAdd d s_ y => Sys2Proof.Machine.execPairAdd d s_ y s
  | .pairSub d s_ y => Sys2Proof.Machine.execPairSub d s_ y s
  | .pairAnd d s_ y => Sys2Proof.Machine.execPairAnd d s_ y s
  | .pairOr d s_ y => Sys2Proof.Machine.execPairOr d s_ y s
  | .pairXor d s_ y => Sys2Proof.Machine.execPairXor d s_ y s
  | .pairShl d s_ y => Sys2Proof.Machine.execPairShl d s_ y s
  | .pairShr d s_ y => Sys2Proof.Machine.execPairShr d s_ y s
  | .pairSar d s_ y => Sys2Proof.Machine.execPairSar d s_ y s
  | .pairMin d s_ y => Sys2Proof.Machine.execPairMin d s_ y s
  | .pairMax d s_ y => Sys2Proof.Machine.execPairMax d s_ y s
  | .addi d imm y => Sys2Proof.Machine.execAddi d imm y s
  | .movi d imm y => Sys2Proof.Machine.execMovi d imm y s
  | .shli d imm y => Sys2Proof.Machine.execShli d imm y s
  | .shri d imm y => Sys2Proof.Machine.execShri d imm y s
  | .pairFadd d s_ y => Sys2Proof.Machine.execPairFadd d s_ y s
  | .pairFsub d s_ y => Sys2Proof.Machine.execPairFsub d s_ y s
  | .pairFmul d s_ y => Sys2Proof.Machine.execPairFmul d s_ y s
  | .pairFmin d s_ y => Sys2Proof.Machine.execPairFmin d s_ y s
  | .pairFmax d s_ y => Sys2Proof.Machine.execPairFmax d s_ y s
  | .pairFmov d s_ y => Sys2Proof.Machine.execPairFmov d s_ y s
  | .aaddi d imm y => Sys2Proof.Machine.execAaddi d imm y s
  | .pairPopc d s_ y => Sys2Proof.Machine.execPairPopc d s_ y s
  | .longLatencyCompletion agent wave ent => Sys2Proof.Machine.execLongLatencyCompletion agent wave ent s
  | .lateTrap agent wave ent => Sys2Proof.Machine.execLateTrap agent wave ent s
  | .handlerEntry agent wave pc traps => Sys2Proof.Machine.execHandlerEntry agent wave pc traps s
  | .freeze => Sys2Proof.Machine.execFreeze s
  | .walk r => Sys2Proof.Machine.execWalk r s
  | .snapshot part vpn => Sys2Proof.Machine.execSnapshot part vpn s
  | .rackingEntry part counter => Sys2Proof.Machine.execRackingEntry part counter s
  | .ownedMoveCopyComplete mv => Sys2Proof.Machine.execOwnedMoveCopyComplete mv s
  | .bellwetherMark mv => Sys2Proof.Machine.execBellwetherMark mv s
  | .bellwetherSignal mv core => Sys2Proof.Machine.execBellwetherSignal mv core s
  | .bellwetherLastAck mv => Sys2Proof.Machine.execBellwetherLastAck mv s
  | .bellwetherCopyComplete mv => Sys2Proof.Machine.execBellwetherCopyComplete mv s
  | .ringEntryAdmit part die prio => Sys2Proof.Machine.execRingEntryAdmit part die prio s
  | .unitPop core => Sys2Proof.Machine.execUnitPop core s
  | .headReservation part die prio => Sys2Proof.Machine.execHeadReservation part die prio s
  | .stealRequest part thief victim => Sys2Proof.Machine.execStealRequest part thief victim s
  | .stealAnswer part thief victim => Sys2Proof.Machine.execStealAnswer part thief victim s
  | .joinStep part die agent join n faulted cancelled => Sys2Proof.Machine.execJoinStep part die agent join n faulted cancelled s
  | .continuationEnqueue part die addr faulted cancelled => Sys2Proof.Machine.execContinuationEnqueue part die addr faulted cancelled s
  | .launchCompletion part launch => Sys2Proof.Machine.execLaunchCompletion part launch s
  | .teamDiscard agent => Sys2Proof.Machine.execTeamDiscard agent s
  | .hardwareSwap agent => Sys2Proof.Machine.execHardwareSwap agent s
  | .teamReadmit agent => Sys2Proof.Machine.execTeamReadmit agent s
  | .jobReady job => Sys2Proof.Machine.execJobReady job s
  | .jobStart job => Sys2Proof.Machine.execJobStart job s
  | .jobCompletion job => Sys2Proof.Machine.execJobCompletion job s
  | .mmaGroupCommit job => Sys2Proof.Machine.execMmaGroupCommit job s
  | .engineStopAck core eng => Sys2Proof.Machine.execEngineStopAck core eng s
  | .remoteRequest r => Sys2Proof.Machine.execRemoteRequest r s
  | .remoteResponse r => Sys2Proof.Machine.execRemoteResponse r s
  | .remoteAccessTimeout mid => Sys2Proof.Machine.execRemoteAccessTimeout mid s
  | .flitReceive port fl ok => Sys2Proof.Machine.execFlitReceive port fl ok s
  | .nakReceive port lseq => Sys2Proof.Machine.execNakReceive port lseq s
  | .keySwitchMarker port => Sys2Proof.Machine.execKeySwitchMarker port s
  | .keySlotWindowEnd port => Sys2Proof.Machine.execKeySlotWindowEnd port s
  | .retraining port => Sys2Proof.Machine.execRetraining port s
  | .linkDown port => Sys2Proof.Machine.execLinkDown port s
  | .retryBufferExpiry port mid => Sys2Proof.Machine.execRetryBufferExpiry port mid s
  | .fragmentArrival fr => Sys2Proof.Machine.execFragmentArrival fr s
  | .delivery core spkg mid => Sys2Proof.Machine.execDelivery core spkg mid s
  | .vatTimeout core spkg mid => Sys2Proof.Machine.execVatTimeout core spkg mid s
  | .keyForget core spkg mid => Sys2Proof.Machine.execKeyForget core spkg mid s
  | .deliveryReport r => Sys2Proof.Machine.execDeliveryReport r s
  | .senderLossTimeout mid => Sys2Proof.Machine.execSenderLossTimeout mid s
  | .fabricFenceTimeout agent wave => Sys2Proof.Machine.execFabricFenceTimeout agent wave s
  | .cancel part agent table rank => Sys2Proof.Machine.execCancel part agent table rank s
  | .inboundMemoryRequest r => Sys2Proof.Machine.execInboundMemoryRequest r s
  | .msiX port rid data => Sys2Proof.Machine.execMsiX port rid data s
  | .getVersion => Sys2Proof.Machine.execGetVersion s
  | .getCapabilities => Sys2Proof.Machine.execGetCapabilities s
  | .negotiateAlgorithms => Sys2Proof.Machine.execNegotiateAlgorithms s
  | .getDigests => Sys2Proof.Machine.execGetDigests s
  | .getCertificate => Sys2Proof.Machine.execGetCertificate s
  | .challenge nonce => Sys2Proof.Machine.execChallenge nonce s
  | .getMeasurements => Sys2Proof.Machine.execGetMeasurements s
  | .unsupportedRequest code => Sys2Proof.Machine.execUnsupportedRequest code s
  | .otherMctpMessage type => Sys2Proof.Machine.execOtherMctpMessage type s
  | .resetRequest => Sys2Proof.Machine.execResetRequest s
  | .resetDeadline => Sys2Proof.Machine.execResetDeadline s
  | .powerOn => Sys2Proof.Machine.execPowerOn s
  | .packageReset image => Sys2Proof.Machine.execPackageReset image s
  | .powerWindow above => Sys2Proof.Machine.execPowerWindow above s
  | .rollbackRestore part launch => Sys2Proof.Machine.execRollbackRestore part launch s
  | .keySlotLoad port tx slot key salt ctr thr => Sys2Proof.Machine.execKeySlotLoad port tx slot key salt ctr thr s
  | .linkRetrained port => Sys2Proof.Machine.execLinkRetrained port s
  | .uncorrectedError t => Sys2Proof.Machine.execUncorrectedError t s
  | .candlingScanEnd core pass pdm vmm => Sys2Proof.Machine.execCandlingScanEnd core pass pdm vmm s
  | .performedMidExpiry spkg mid => Sys2Proof.Machine.execPerformedMidExpiry spkg mid s

end Sys2Proof.Machine
end

