-- ==== Sys2Proof/Machine/Events.lean ====
section
/-! DEFINITION. What comes next: the meaning of an event, the fetch of a word (R149, R290 to R292), the batches that may issue
(R42, R43, R78, R98), and what the machine itself may do next. The manual orders none of these among one another beyond
the rules followed here (R6, R78, R205, R250). -/

namespace Sys2Proof.Machine

/-! ### Events -/

/-- The meaning of an event: that of its row. -/
def Event.run (e : Event) (s : State) : Out :=
  match e with
  | .ext i => exec i s
  | .completion a w n => execLongLatencyCompletion a w n s
  | .enter a w d => .next (s.enterDue a w d)
  | .walk r => execWalk r s
  | .snapshot p v => execSnapshot p v s
  | .racking p c => execRackingEntry p c s
  | .ownedCopy m => execOwnedMoveCopyComplete m s
  | .mark m => execBellwetherMark m s
  | .signal m c => execBellwetherSignal m c s
  | .lastAck m => execBellwetherLastAck m s
  | .copyDone m => execBellwetherCopyComplete m s
  | .ringIn p d n => execRingEntryAdmit p d n s
  | .pop c => execUnitPop c s
  | .stealReq p t v => execStealRequest p t v s
  | .stealAns p t v => execStealAnswer p t v s
  | .joinStep p d a j n f c l => .next (s.joinStep p d a j n f c l)
  | .enqueue p d a f c w => .next (s.enqueue p d a f c w)
  | .launchDone p l => execLaunchCompletion p l s
  | .discard a => execTeamDiscard a s
  | .readmit a => execTeamReadmit a s
  | .swap a => execHardwareSwap a s
  | .cancelled p a t r => execCancel p a t r s
  | .cancels p t r n => execCancels p t r n s
  | .jobReady j => execJobReady j s
  | .jobStart j => execJobStart j s
  | .jobUnit j => .next (s.unitEvent j)
  | .jobDone j => execJobCompletion j s
  | .mmaGroup j => execMmaGroupCommit j s
  | .stopAck c e => execEngineStopAck c e s
  | .keySwitch p => execKeySwitchMarker p s
  | .retrain p => execRetraining p s
  | .arrive f => execFragmentArrival f s
  | .deliver c k m => execDelivery c k m s
  | .restore p l => execRollbackRestore p l s
  | .switchTo p m | .switchDue p m _ _ => .next (s.switchDies p m)
  | .fill c p v r => .next (s.fillOn c p v r)
  | .request r => execRemoteRequest r s
  | .response r => execRemoteResponse r s
  | .reported r => execDeliveryReport r s
  | .inbound r => execInboundMemoryRequest r s
  | .windowEnd p => execKeySlotWindowEnd p s
  | .reserve p d n => execHeadReservation p d n s
  | .remoteTimeout m => execRemoteAccessTimeout m s
  | .midExpiry k m => execPerformedMidExpiry k m s
  | .linkDown p => execLinkDown p s
  | .retryExpiry p m => execRetryBufferExpiry p m s
  | .vatTimeout c k m => execVatTimeout c k m s
  | .keyForget c k m => execKeyForget c k m s
  | .senderLoss m => execSenderLossTimeout m s
  | .reached a m => .next (s.vatReached a m)
  | .fenceTimeout a w => execFabricFenceTimeout a w s
  | .deadline => execResetDeadline s
  | .endPart p => .next (s.endContext p)

/-! ### Fetch and issue -/

/-- The word at a batch's PC, fetched by its first lane for all of them. -/
def State.fetch (s : State) (b : Issue) : Except Stop (Nat × LS) :=
  (L.load .fetch b.pc.toNat 8) { s.laneLS b.agent b.wave (b.lanes.headD 0) b.pc with batch := b.lanes, execs := b.lanes }

/-- The lanes of a batch park at their fetch (R292); with no entry free they wait. -/
def State.parkFetch (s : State) (b : Issue) (f : Flt) : State :=
  let part := ((s.team? b.agent).map (·.part)).getD 0
  let unis := ((s.wave? b.agent b.wave).map (fun w => (w.stuck.filter (·.isOf b)).flatMap (·.unis))).getD []
  match s.parkLanes b.agent b.wave part b.pc none (b.todo.map (fun l => (l, f))) with
  | none => s
  | some (s, e) =>
    (s.updWave b.agent b.wave (fun w => { w with stuck := w.stuck.filter (fun k => !k.isOf b) })).standBlocked b b.todo .drain
      (some e) b.todo unis

/-- The unfinished accesses that a scratch word of their window goes before are bound for their late traps (R260, R356). -/
def State.sealFates (s : State) (b : Issue) : State :=
  let fated (e : Entry) : Entry :=
    if e.fate.isEmpty && accessWord e.ins && e.lanes.any (fun r => b.lanes.contains r.lane && !r.perf) then
      { e with fate := (s.perfEntry b.agent b.wave e).traps }
    else e
  s.updWave b.agent b.wave (fun w => { w with unfinished := w.unfinished.map fated })

/-- The batch as its word issues: the lanes whose access comes later are only checked (R304); a word with lookahead is in parts when it is
performed. -/
def Issue.split (b : Issue) (i : Instr) (tick : Nat) : Issue :=
  { b with later := if i.fields.h.la = 0 then laterLanes i tick b.todo else [] }

/-- A blocked batch, as it issues again. -/
def Stuck.batch (k : Stuck) (a : AgentId) (wv : Nat) : Issue :=
  ⟨a, wv, k.pc, (k.todo ++ k.done).foldr (fun n l => insertBy id n l) [], k.todo, []⟩

/-- Whether the lanes that a word has left behind would all follow now: none of them traps, parks or waits (R12). -/
def State.lanesFinish (s : State) (a : AgentId) (wv : Nat) (i : Instr) (k : Stuck) : Bool :=
  match exec i { s with cur := some (k.batch a wv) } with
  | .next t =>
    let w (x : State) : Option (Option HSave × Bool) := (x.wave? a wv).map (fun w => (w.h, w.stuck.any (fun y => y.isOf (k.batch a wv))))
    w t == (w s).map (fun x => (x.1, false))
  | _ => false

/-- A core issues words: it is not being candled and has not halted for a switch (R228, R364). -/
def State.coreIssues (s : State) (c : BitVec 11) : Bool :=
  let k := s.core c
  !k.switching && (match k.candle with | some x => x.result.isSome | none => true)

/-- Whether a wave issues at all: no access of it is parked (R156), no handler entry is due, fewer than 16 words are
unfinished (R43), and its partition's context is not being ended (R360). -/
def State.waveIssues (s : State) (t : Team) (wv : Nat) : Bool :=
  !s.waveParked t.agent wv && (t.wave wv).due.isEmpty && (t.wave wv).unfinished.length < 16 && !t.doomed

/-- Whether a batch's wave and core issue words. -/
def State.issuesOn (s : State) (b : Issue) : Bool :=
  ((s.team? b.agent).map (fun t => s.waveIssues t b.wave)).getD false && s.coreIssues (coreOf b.agent)

/-- A word runs over its batch: some lanes perform their access and the others follow, where they could; else all at once (R12, R304). -/
def State.runWord (s : State) (b : Issue) (i : Instr) : Out :=
  let s := if scratchWord i then s.sealFates b else s
  let whole := exec i { s with cur := some b }
  let b' := b.split i s.tick
  if b'.later.isEmpty then whole
  else match exec i { s with cur := some b' } with
    | .next t => match ((t.wave? b.agent b.wave).bind (fun w => w.stuck.find? (fun k => k.isOf b && k.why == .lanes))) with
      | none => .next t
      | some k => if t.issuesOn b && t.lanesFinish b.agent b.wave i k then .next t else whole
    | o => o

/-- The word in which a batch stands blocked: it is kept, and not fetched again (R36, R292; DEDUCED, log 63). -/
def State.keptWord (s : State) (b : Issue) : Option Instr :=
  (s.wave? b.agent b.wave).bind (fun w => (w.stuck.find? (·.isOf b)).bind (·.word))

/-- A batch issues: its word is fetched, decoded and run; a word that does not decode raises ILL in every lane (R51). -/
def State.issue (s : State) (b : Issue) : Out :=
  match s.keptWord b with
  | some i => s.runWord b i
  | none =>
    match s.fetch b with
    | .ok (w, x) =>
      match decode (BitVec.ofNat 64 w) with
      | .ok i => x.st.runWord b i
      | .error sub => .next (x.st.enterHandler b.agent b.wave b.pc (trapAll b.todo 0 (BitVec.ofNat 8 sub)) b.todo b.todo none)
    | .error (.trap cls sub addr aux x) =>
      .next ((s.keepReads x b.agent).enterHandler b.agent b.wave b.pc (b.todo.map (fun l => ⟨l, cls, sub, addr, aux⟩)) b.todo b.todo none)
    | .error (.trapKeep _ _ _ s') => .next s'
    | .error (.park f) => .next (s.parkFetch b f)
    | .error (.block _ s' _ _) => .next s'
    | .error .interlock => .next s
    | .error .lost => .next s

/-- Whether a batch's word cannot be fetched yet: its page is in motion, or lies in another package (R278, R319). -/
def State.fetchWaits (s : State) (b : Issue) : Bool :=
  (s.keptWord b).isNone && (match s.fetch b with | .error (.block _ _ _ _) => true | _ => false)

/-- Whether its fetch would ask for something: it competes with no other batch, but is tried. -/
def State.fetchAsks (s : State) (b : Issue) : Bool :=
  (s.keptWord b).isNone && (match s.fetch b with | .error (.block _ s' _ _) => s' != s | _ => false)

/-! ### Batches that may issue -/

/-- Whether an operand is a channel. -/
def isChan (o : Opnd) : Bool := match o with | .chan _ _ => true | _ => false

/-- Words that neither access memory nor act on anything but the lane: they issue whatever the lane has still to perform. -/
def plainWord (i : Instr) : Bool :=
  let no (l : List Opnd) : Bool := !l.any isChan
  match i with
  | .nop | .br .. | .bru .. | .call .. | .li .. | .lih .. | .rdid .. => true
  | .brx _ a | .ret _ a => no [a]
  | .callx _ d a => no [d, a]
  | .add _ d a b | .sub _ d a b | .mul _ d a b | .mulh _ d a b | .mulhu _ d a b | .mad _ d a b | .and _ d a b | .or _ d a b
  | .xor _ d a b | .andn _ d a b | .shl _ d a b | .shr _ d a b | .sar _ d a b | .rol _ d a b | .popc _ d a b
  | .min _ d a b | .max _ d a b | .minu _ d a b | .maxu _ d a b | .amk _ d a b | .aadd _ d a b | .ascl _ d a b
  | .setix _ d a b | .getix _ d a b => no [d, a, b]
  | .clz _ d a | .ctz _ d a | .brev _ d a | .abs _ d a | .mov _ d a | .amat _ d a => no [d, a]
  | .bfx _ d a _ _ | .bfxs _ d a _ _ | .bfi _ d a _ _ => no [d, a]
  | .cmp _ d a b _ | .sel _ d a b _ _ => no [d, a, b]
  | .fadd _ d a b _ | .fsub _ d a b _ | .fmul _ d a b _ | .ffma _ d a b _ | .fmin _ d a b _ | .fmax _ d a b _
  | .fcmp _ d a b _ | .fcvt _ d a b _ | .fscl _ d a b _ => no [d, a, b]
  | .fcls _ d a _ | .ftoi _ d a _ | .itof _ d a _ | .frnd _ d a _ | .fmov _ d a | .ftag _ d a _ => no [d, a]
  | .fdot _ d a b | .fraw _ d a b | .fsel _ d a b _ _ => no [d, a, b]
  | .xmk _ d a b _ | .xadd _ d a b _ | .xsub _ d a b _ | .xmul _ d a b _ | .xhull _ d a b _ | .xmeet _ d a b _ => no [d, a, b]
  | .xpt _ d a _ | .xlo _ d a _ | .xhi _ d a _ | .xsqr _ d a _ | .xneg _ d a _ | .xabs _ d a _ | .xmid _ d a _
  | .xwid _ d a _ => no [d, a]
  | i => i.slotX.isSome

/-- Long-latency words that access no memory (R41). -/
def longInner (i : Instr) : Bool :=
  match i with
  | .div .. | .divu .. | .rem .. | .remu .. | .fdiv .. | .fsqrt .. | .frcp .. | .frsq .. | .fex2 .. | .flg2 .. | .fsin .. | .fcos ..
  | .xdiv .. | .xsqrt .. | .xexp .. | .mrdz .. => true
  | _ => false

/-- The words that lanes of a batch have still to perform and that access memory. -/
def Wave.accesses (w : Wave) (b : Issue) : List Entry :=
  w.unfinished.filter (fun e => !longInner e.ins && e.lanes.any (fun r => b.lanes.contains r.lane && !r.perf))

/-- Whether every access that lanes of a batch have still to perform would call trap: none of them is performed before its late
trap, so a scratch word of its window need not wait for it (R356 and its worked example). -/
def State.onlyTraps (s : State) (b : Issue) (w : Wave) : Bool :=
  (w.accesses b).all (fun e => !(s.perfEntry b.agent b.wave e).traps.isEmpty)

/-- Words that access global memory: a channel's too where its buffer is a STREAM one. -/
def memoryWord (t : Team) (i : Instr) : Bool :=
  let stream (c : BitVec 6) : Bool := (vget t.c c.toNat).v && (vget t.c c.toNat).kind == 1
  (accessWord i && !scratchWord i) || (match i with
    | .fence .. | .seal .. | .unseal .. | .hand .. | .take .. | .pub .. | .place .. | .evict .. | .lnch .. | .cbind .. | .fork ..
    | .atst .. => true
    | .ctst _ _ c => stream c
    | i => (chansOf i).any stream)

/-- A word that accesses memory does not issue while every replay-buffer entry of its core is in use (R292, R296). -/
def State.memoryStalls (s : State) (t : Team) (i : Instr) : Bool :=
  memoryWord t i && (freeEnt (s.core (coreOf t.agent)).replay).isNone

/-- A batch's next word, where it can be seen: the one it stands in, or the one at its PC. -/
def State.wordOf (s : State) (t : Team) (b : Issue) : Option Instr :=
  (s.keptWord b).orElse (fun _ => (s.part? t.part).bind (fun p => s.peekWord p b.pc))

/-- Whether a batch's word may issue now: a word that accesses memory waits for the accesses of earlier words (a scratch word
not for those that can only trap), any other that is not plain for everything that its lanes have still to perform. -/
def State.batchReady (s : State) (t : Team) (b : Issue) : Bool :=
  let w := t.wave b.wave
  match s.wordOf t b with
  | some i => !s.memoryStalls t i && (!b.lanes.any w.pendingLane || plainWord i || longInner i ||
      (accessWord i && (w.accesses b).isEmpty) || (scratchWord i && s.onlyTraps b w))
  | none => true

/-- The PCs of a wave's running fibres, each once. -/
def Team.pcs (t : Team) (wv : Nat) : List Addr :=
  ((t.fibres.filter (fun x => x.1 / t.width == wv && x.2.st == .run)).map (·.2.pc)).dedup

/-- A batch of a wave with its lanes. -/
def Team.batchOf (t : Team) (wv : Nat) (pc : Addr) (lanes : List Nat) : Issue := ⟨t.agent, wv, pc, lanes, lanes, []⟩

/-- The batches of a wave's running fibres at one PC: those that have issued together, at one level (R78, R82). -/
def Team.groupsAt (t : Team) (wv : Nat) (pc : Addr) : List Issue :=
  let l := (t.fibres.filter (fun x => x.1 / t.width == wv && x.2.st == .run && x.2.pc == pc)).map
    (fun x => (x.1 % t.width, x.2.grp, t.levelAt wv (x.1 % t.width)))
  ((l.map (·.2)).dedup).map (fun k => t.batchOf wv pc ((l.filter (fun x => x.2 == k)).map (·.1)))

/-- Whether a word of a batch would not issue: its wave stays as it is, a register of it waiting for a result (R42). -/
def State.interlocked (s : State) (b : Issue) : Bool :=
  match s.wave? b.agent b.wave with
  | none => false
  | some w =>
    w.unfinished.any (fun e => e.lanes.any (fun r => b.lanes.contains r.lane && r.win == 0)) &&
    (match s.issue b with
      | .next t => t.wave? b.agent b.wave == some w &&
          b.lanes.all (fun l => (t.fibre? b.agent b.wave l).map (·.pc) == some b.pc)
      | _ => false)

/-- The batches of a wave that stand at a PC and may issue their word, but for an interlock. -/
def State.standing? (s : State) (t : Team) (wv : Nat) : List Issue :=
  if s.waveIssues t wv && s.coreIssues (coreOf t.agent) then ((t.pcs wv).flatMap (t.groupsAt wv)).filter (s.batchReady t) else []

/-- Batches of a wave at one PC, level and word that are ready at once are merged (R78). -/
def State.mergeBatches (s : State) (t : Team) (l : List Issue) : List Issue :=
  let key (b : Issue) : Addr × Nat × Nat × Option Instr := (b.pc, b.wave, t.levelAt b.wave (b.lanes.headD 0), s.wordOf t b)
  ((l.map key).dedup).map (fun k =>
    t.batchOf k.2.1 k.1 (((l.filter (fun b => key b == k)).flatMap (·.lanes)).foldr (fun n l => insertBy id n l) []))

/-- The resident teams. -/
def State.allResident (s : State) : List Team := s.teams.filter (fun t => t.resid == .resident)

/-- The batches of a wave that are ready to issue a word anew. -/
def State.fresh (s : State) (t : Team) (wv : Nat) : List Issue :=
  (s.standing? t wv).filter (fun b => !s.fetchWaits b && !s.interlocked b)

/-- The batches whose word meets an interlock or has to be asked for elsewhere: they are not ready, and find so. -/
def State.locked (s : State) : List Issue := s.allResident.flatMap (fun t => t.liveWaves.flatMap (fun wv =>
  (s.standing? t wv).filter (fun b => if s.fetchWaits b then s.fetchAsks b else s.interlocked b)))

/-- Whether a blocked batch's word would come further: the block, or a part of it, has ended. -/
def State.unblocked (s : State) (t : Team) (wv : Nat) (k : Stuck) : Bool :=
  match s.issue (k.batch t.agent wv) with
  | .next s' =>
    let l := (t.wave wv).stuck
    let l' := ((s'.wave? t.agent wv).map (·.stuck)).getD []
    !(l'.length == l.length && l.all l'.contains) ||
      s'.updWave t.agent wv (fun w => { w with stuck := l }) != { s with cur := none }
  | _ => false

/-- Blocked batches of a wave that are ready again: their block has ended (R319). -/
def State.again (s : State) (t : Team) (wv : Nat) : List Stuck :=
  if !s.waveIssues t wv then []
  else (t.wave wv).stuck.filter (fun k => k.ent.isNone && (s.coreIssues (coreOf t.agent) || k.why == .stop) &&
    s.batchReady t (k.batch t.agent wv) && s.unblocked t wv k)

/-- Whether nothing of a blocked batch's word has had an effect. -/
def Stuck.whole (k : Stuck) : Bool := k.done.isEmpty && k.unis.isEmpty && k.why != .lanes && k.why != .stop

/-- Every ready batch; those that begin their word, or begin it again, are merged (R78). -/
def State.ready (s : State) : List Issue := s.allResident.flatMap (fun t => t.liveWaves.flatMap (fun wv =>
  let again := s.again t wv
  s.mergeBatches t (s.fresh t wv ++ (again.filter Stuck.whole).map (·.batch t.agent wv)) ++
    (again.filter (fun k => !k.whole)).map (·.batch t.agent wv)))

/-- What blocked batches of swapped teams watch for in another package, they ask for there (R320). -/
def State.watches (s : State) : List Issue := (s.teams.filter (fun t => t.resid == .swappedByHw)).flatMap (fun t =>
  t.liveWaves.flatMap (fun wv => ((t.wave wv).stuck.filter (fun k => k.ent.isNone && k.onStream && s.unblocked t wv k)).map (·.batch t.agent wv)))

/-! ### Which ready batch issues (R319, R84) -/

/-- The datapath a batch issues on: its core, and its wave slot mod 2 (R318). -/
def State.datapath (s : State) (b : Issue) : BitVec 11 × Nat :=
  (coreOf b.agent, ((s.wave? b.agent b.wave).map (·.wslot)).getD 0 % 2)

/-- How a batch stands ready; one that does not stand yet begins now. -/
def State.standingOf (s : State) (b : Issue) : Standing :=
  (s.standing.find? (fun x => x.agent == b.agent && x.wave == b.wave && x.pc == b.pc)).getD
    ⟨b.agent, b.wave, b.pc, (s.core (coreOf b.agent)).cyc, false⟩

/-- PRIO of a batch's team. -/
def State.prioOf (s : State) (b : Issue) : Nat := ((s.team? b.agent).map (·.work.prio)).getD 0

/-- The batches of a list with the greatest measure. -/
def mostOf (f : Issue → Nat) (l : List Issue) : List Issue := l.filter (fun b => l.all (fun c => f c ≤ f b))

/-- The cycles that a batch has stood ready and unissued. -/
def State.age (s : State) (b : Issue) : Nat := ((s.core (coreOf b.agent)).cyc - (s.standingOf b).since).toNat

/-- The batches of one datapath that R319 chooses from: the oldest of those that have stood 256 cycles; otherwise, of the highest
PRIO, those ready longest. -/
def State.pick (s : State) (l : List Issue) : List Issue :=
  let old := l.filter (fun b => 256 ≤ s.age b)
  if old.isEmpty then mostOf s.age (mostOf s.prioOf l) else mostOf s.age old

/-- As `pick`, but a batch whose YIELD gives way stands back for another (R84). -/
def State.pickYield (s : State) (l : List Issue) : List Issue :=
  let p := s.pick l
  let q := p.filter (fun b => !(s.standingOf b).gives)
  let others := l.filter (fun b => !(s.standingOf b).gives)
  if !q.isEmpty then q else if others.isEmpty then p else s.pick others

/-- The other ready batches of a batch's datapath, and itself. -/
def State.rivals (s : State) (all : List Issue) (b : Issue) : List Issue := all.filter (fun c => s.datapath c == s.datapath b)

/-- Whether a ready batch may issue next on its datapath; alone on it, it may. -/
def State.mayIssue (s : State) (all : List Issue) (b : Issue) : Bool :=
  match s.rivals all b with
  | [_] => true
  | l => (s.pickYield l).contains b

/-- Every batch that may issue: on each datapath the one R319 chooses; those with an interlock, which are not ready, and find
so; and those of swapped teams that only watch. -/
def State.batches (s : State) : List Issue :=
  let all := s.ready
  all.filter (s.mayIssue all) ++ s.locked ++ s.watches

/-! ### What the machine itself may do -/

/-- Handler entries that are due, and unfinished words still to be performed; a wave with a parked access takes no trap (R369). -/
def State.waveEvents (s : State) : List Event :=
  (s.teams.filter (fun t => t.resid == .resident && s.coreIssues (coreOf t.agent))).flatMap (fun t =>
    t.liveWaves.flatMap (fun wv =>
      let w := t.wave wv
      if s.waveParked t.agent wv || t.doomed then []
      else match w.due with
        | d :: _ => [.enter t.agent wv d]
        | [] => (w.unfinished.filter (fun e => e.lanes.any (!·.perf))).map (fun e => .completion t.agent wv e.id)))

/-- Whether a running job would come further now. -/
def State.jobMoves (s : State) (j : Job) : Bool :=
  match s.stepJob j.id with
  | (s', .held) => s' != s
  | _ => true

/-- The running copy jobs of a core in the order of their turns: one amid a chunk keeps its own (R343). -/
def State.copyOrder (s : State) (c : BitVec 11) : List Job :=
  let l := (s.jobs.filter (fun j => j.core == c && j.eng == .copy && j.st == .run && s.runs j.agent)).foldr (insertBy (·.id)) []
  let k := (s.core c).turn
  l.filter (fun j => j.id == k && !s.atStop j) ++ l.filter (fun j => decide (k < j.id)) ++ l.filter (fun j => decide (j.id ≤ k))

/-- The copy job whose chunk comes next: the first in turn that is not blocked. -/
def State.copyTurn (s : State) (c : BitVec 11) : Option Nat := ((s.copyOrder c).find? s.jobMoves).map (·.id)

/-- A job that accesses memory stalls while every replay-buffer entry of its core is in use (R292, R296). -/
def State.jobStalls (s : State) (j : Job) : Bool :=
  (freeEnt (s.core j.core).replay).isNone && (j.card.isSome || (j.reads ++ j.writes).any (!·.scratch))

/-- What a running job may do next: a unit, or all the rest. Copy jobs interleave their chunks in turn (R343). -/
def State.runEvents (s : State) (j : Job) : List Event :=
  if !s.runs j.agent || s.jobStalls j then []
  else if j.eng == .copy then
    if s.copyTurn j.core = some j.id then
      .jobUnit j.id :: (if (s.copyOrder j.core).all (·.id == j.id) then [.jobDone j.id] else [])
    else []
  else [if s.runsMma j then .mmaGroup j.id else .jobUnit j.id, .jobDone j.id]

/-- Events of the jobs: ready, start, a unit or the rest of a running one (R348). -/
def State.jobEvents (s : State) : List Event :=
  s.jobs.flatMap (fun j =>
    if !s.coreIssues j.core then []
    else match j.st with
      | .wait => if j.edges.all s.jobOver then [.jobReady j.id] else []
      | .ready => if s.canStart j then [.jobStart j.id] else []
      | .run => s.runEvents j
      | _ => [])

/-- Cores of the dies that run a partition with a ring entry: those that may pop. -/
def State.popCores (s : State) : List (BitVec 11) :=
  (s.dies.filter (fun d => match d.part with
    | some p => (s.ringsOf p d.id).any (fun r => !r.entries.isEmpty)
    | none => false)).flatMap (fun d => (List.range 160).map (fun n => coreOfIndex (d.id * 160 + n)))

/-- Events of the distributors: pops, held entries, heads that have stood long, steals (R313, R316, R317). -/
def State.ringEvents (s : State) : List Event :=
  (s.popCores.filter (fun c => (s.pop? c).isSome)).map .pop ++
  (s.rings.filter (fun r => !r.held.isEmpty && s.ringLoad r.part r.die < ringCap)).map (fun r => .ringIn r.part r.die r.prio) ++
  (s.rings.filter (fun r => !r.entries.isEmpty && !r.reserved && (s.die r.die).part == some r.part)).map
    (fun r => .reserve r.part r.die r.prio) ++
  s.dies.filterMap (fun d => match d.part with
    | some p => if s.mayAsk p d.id then (s.victims p d.id).head?.map (.stealReq p d.id) else none
    | none => none)

/-- Swaps by the hardware, re-admissions (R320), racking (R249), and stops of engines in a switch (R364). -/
def State.coreEvents (s : State) : List Event :=
  (s.teams.filter (fun t => t.since.isSome && s.swappable t && s.refusedFor t && s.swapFirst t)).map (fun t => .swap t.agent) ++
  (s.teams.filter (fun t => t.resid == .due && (s.swapIn t.agent).isSome)).map (fun t => .readmit t.agent) ++
  s.parts.flatMap (fun p => (p.bindings.filter (fun b => (s.rackStep p.id b.counter).isSome)).map (fun b => .racking p.id b.counter)) ++
  s.cores.flatMap (fun k => (k.awaiting.filter (fun e => (s.toStop k.id e).all s.stopsNow)).map (.stopAck k.id))

/-- Whether a flit of a message is still to be received. -/
def flitComing (spkg : BitVec 12) (mid : BitVec 24) (e : Event) : Bool :=
  match e with | .ext (.flitReceive _ fl _) => fl.spkg == spkg && fl.mid == mid | _ => false

/-- The request that an event brings. -/
def requestOf (e : Event) : Option RemoteReq :=
  match e with | .request r | .ext (.remoteRequest r) => some r | _ => none

/-- Whether a copy of a request is still to be taken: none comes later than the memory of it (R388, R397). -/
def State.copyComing (s : State) (spkg : BitVec 12) (mid : BitVec 24) : Bool :=
  s.agenda.any (fun e => flitComing spkg mid e || (match requestOf e with | some r => r.spkg == spkg && r.mid == mid | none => false))

/-- Whether a fragment of a message is still to be taken (R388). -/
def State.fragmentComing (s : State) (spkg : BitVec 12) (mid : BitVec 24) : Bool :=
  s.agenda.any (fun e => flitComing spkg mid e || (match e with
    | .arrive f | .ext (.fragmentArrival f) => f.spkg == spkg && f.mid == mid
    | _ => false))

/-- Whether a port holds a message's fragment back: it waits to leave, or has to be sent again (R393, R394). -/
def Port.holds (p : Port) (pkg : BitVec 12) (mid : BitVec 24) : Bool :=
  let own (f : Flit) : Bool := ofMessage f && f.mid == mid && f.spkg == pkg
  p.queue.any own || ((p.rtr || p.resend.isSome) && p.retry.any own)

/-- Messages of this package's teams whose fragments no port holds back: they may have reached their vats (R172). -/
def State.reachedEvents (s : State) : List Event :=
  s.allTeams.flatMap (fun t => ((t.onPath.map (·.2.1)).filter (fun m => !s.ports.any (·.holds s.pkg m))).map (.reached t.agent))

/-- Timers that may run out (R388, R389, R394 to R397, R386, R404): time is no part of the model, so each may run out at any
step. -/
def State.timerEvents (s : State) : List Event :=
  (s.outst.filter (·.resp.isNone)).map (fun o => .remoteTimeout o.mid) ++
  (s.performed.filter (fun x => !s.copyComing x.1 x.2)).map (fun x => .midExpiry x.1 x.2) ++ 
  (s.control.filter (fun x => !s.copyComing x.1 x.2.1)).map (fun x => .midExpiry x.1 x.2.1) ++
  (s.ports.filter (·.rtr)).map (fun p => .linkDown p.id) ++
  s.ports.flatMap (fun p => (s.ownMids p.flits).dedup.map (.retryExpiry p.id)) ++
  s.cores.flatMap (fun k => (k.vats.filter (!·.decoded)).map (fun v => .vatTimeout k.id v.spkg v.mid) ++
    (k.closed.filter (fun x => !s.fragmentComing x.1 x.2.1)).map (fun x => .keyForget k.id x.1 x.2.1)) ++
  s.reachedEvents ++
  s.sent.map (fun m => .senderLoss m.mid) ++
  s.teams.flatMap (fun t => (t.liveWaves.filter (fun wv => t.resid == .resident && !s.waveParked t.agent wv &&
    (t.wave wv).stuck.any (fun k => k.why == .fence || k.why == .probe))).map (.fenceTimeout t.agent))

/-- Whether two requests are one agent's for one page: they are performed in the order in which they came (R253). -/
def follows (r q : RemoteReq) : Bool :=
  r.spkg == q.spkg && r.part == q.part && r.agent == q.agent && r.va.toNat / 4096 == q.va.toNat / 4096

/-- Whether a request is the first of its agent for its page. -/
def State.firstRequest (s : State) (r : RemoteReq) : Bool := (s.agenda.filterMap requestOf).find? (follows r) == some r

/-- The scope of a page's leaf. -/
def State.scopeAt (s : State) (part va : Nat) : Nat := ((s.leafNow part (va / 4096)).map lfScope).getD 0

/-- Whether writes to other packages that meet a condition are undelivered. -/
def State.writesOut (s : State) (part : Nat) (p : SentMsg → Bool) : Bool :=
  s.sent.any (fun m => m.part == part && m.acc != 6 && !m.heard && p m)

/-- A join step at FABRIC comes after the delivery of what its units have written to other packages (R254, R324). -/
def State.joinWaits (s : State) (part : Nat) (a : AgentId) (join : Addr) (clusters : List Nat) : Bool :=
  s.scopeAt part join.toNat = 4 &&
  s.writesOut part (fun m => if a = 0xFFFF then !clusters.isEmpty && m.launch.isSome else m.agent == a)

/-- So do the steps that the completion of a launch makes (R254, R326). -/
def State.launchWaits (s : State) (part l : Nat) : Bool :=
  match s.launch? l, s.part? part with
  | some k, some p => (k.slots.counters.any (fun c => (p.counter c).scope = 4) || s.scopeAt part k.join.toNat = 4) &&
      s.writesOut part (fun m => m.launch == some l)
  | _, _ => false

/-- Whether a discard that is due brings anything about: the team goes, or asks for what it needs first. -/
def State.discards (s : State) (a : AgentId) : Bool :=
  match execTeamDiscard a (s.unpush (.discard a)) with
  | .next t => !t.agenda.contains (.discard a) || { t with agenda := [] } != { s with agenda := [] }
  | _ => true

/-- Whether an event of the agenda can come about now. -/
def State.enabled (s : State) (e : Event) : Bool :=
  !s.farWaits e &&
  match e with
  | .arrive f => !s.vatsFull f
  | .deliver c k m => s.mayDeliver c k m
  | .cancels p t _ n => ((s.part? p).bind (fun p => tableOf s p t n)).isSome
  | .request r | .ext (.remoteRequest r) => s.firstRequest r
  | .joinStep p _ a j _ _ _ l => !s.joinWaits p a j l
  | .launchDone p l => !s.launchWaits p l
  | .discard a => s.discards a
  | .switchDue _ m a w => s.switchReady m a w
  | _ => true

/-- What reaches a package whose clocks stand or which reset holds: the sideband and reset (R404, R425, R426). -/
def fromOutside (e : Event) : Bool :=
  match e with
  | .ext i => match i with
    | .getVersion | .getCapabilities | .negotiateAlgorithms | .getDigests | .getCertificate | .challenge _ | .getMeasurements
    | .unsupportedRequest _ | .otherMctpMessage _ | .resetRequest | .resetDeadline | .powerOn | .packageReset _ => true
    | _ => false
  | _ => false

/-- What may come next: an event, of the agenda or the machine's own, or the issue of a batch. -/
inductive Choice where
  | event (e : Event)
  | batch (b : Issue)
  deriving DecidableEq, Repr

/-- A choice comes about: an event leaves the agenda. -/
def State.take (s : State) (c : Choice) : Out :=
  match c with
  | .event e => e.run (s.unpush e)
  | .batch b => s.issue b

/-- A word of which some lanes have acted while the others follow: a batch that stands so, or an unfinished word (R12, R304). -/
inductive Split where
  | word (part : Nat) (a : AgentId) (wave : Nat) (h : Option HSave) (k : Stuck)
  | entry (part : Nat) (a : AgentId) (wave : Nat) (h : Option HSave) (id : Nat)

/-- Whether lanes of an unfinished word are still to follow others. -/
def Entry.split (e : Entry) : Bool := e.begun && e.lanes.any (!·.perf)

/-- The words that are in parts now. -/
def State.splits (s : State) : List Split :=
  s.allTeams.flatMap (fun t => t.liveWaves.flatMap (fun wv =>
    let w := t.wave wv
    (w.stuck.filter (·.why == .lanes)).map (.word t.part t.agent wv w.h) ++
    (w.unfinished.filter Entry.split).map (fun e => .entry t.part t.agent wv w.h e.id)))

/-- The team of a split word. -/
def Split.agent : Split → AgentId
  | .word _ a _ _ _ | .entry _ a _ _ _ => a

/-- Whether a split word is whole again, its wave in no other handler, or its team gone (R325). -/
def State.splitOver (s : State) (x : Split) : Bool :=
  match x with
  | .word p a wv h k => match s.partTeam? p a with
    | none => true
    | some t => (t.wave wv).h == h && !(t.wave wv).stuck.any (fun y => y.why == .lanes && y.isOf (k.batch a wv))
  | .entry p a wv h id => match s.partTeam? p a with
    | none => true
    | some t => (t.wave wv).h == h && !(t.wave wv).unfinished.any (fun e => e.id == id && e.split)

/-- Whether all that is left of a split word could be performed now. -/
def State.splitFinishes (s : State) (x : Split) : Bool :=
  match x with
  | .word _ a wv _ k => match s.team? a with
    | none => false
    | some t =>
      let b := k.batch a wv
      t.resid == .resident && s.coreIssues (coreOf a) && s.waveIssues t wv && s.batchReady t b &&
      (match s.keptWord b with | some i => s.lanesFinish a wv i k | none => false)
  | .entry _ a wv _ id => match s.team? a with
    | none => false
    | some t => t.resid == .resident && s.coreIssues (coreOf a) && !s.waveParked a wv && (t.wave wv).due.isEmpty && !t.doomed &&
        s.entryFinishes a wv id

/-- Whether a choice goes on with a split word. -/
def Choice.goesOn (c : Choice) (x : Split) : Bool :=
  match c, x with
  | .batch b, .word _ a wv _ k => b.agent == a && b.wave == wv && k.isOf b
  | .event (.completion a wv n), .entry _ b w _ id => a == b && wv == w && n == id
  | _, _ => false

/-- Whether a choice issues a word of a team that accesses memory. -/
def State.accesses (s : State) (c : Choice) (a : AgentId) : Bool :=
  match c with
  | .batch b => b.agent == a && (match s.team? a with
    | some t => ((s.wordOf t b).map (fun i => memoryWord t i || accessWord i)).getD true
    | none => false)
  | .event _ => false

/-- Whether a choice may come between the lanes of the words that are in parts: after it each of them can still be performed whole (R12),
and no later access of the team goes before it (R253). -/
def State.keeps (s : State) (l : List Split) (c : Choice) : Bool :=
  l.all (fun x => c.goesOn x || !s.accesses c x.agent) &&
  (match s.take c with
    | .next t => l.all (fun x => t.splitOver x || t.splitFinishes x)
    | _ => true)

/-- Everything that may come next, the words in parts aside. -/
def State.allChoices (s : State) : List Choice :=
  let last : List Event := if s.deadline then [.deadline] else []
  match s.power with
  | .running =>
    ((s.agenda.filter s.enabled) ++ s.waveEvents ++ s.jobEvents ++ s.ringEvents ++ s.coreEvents ++ s.timerEvents ++ last).map .event ++
    s.batches.map .batch
  | _ => ((s.agenda.filter fromOutside) ++ last).map .event

/-- Every choice. -/
def State.choices (s : State) : List Choice :=
  match s.splits with
  | [] => s.allChoices
  | l => match s.allChoices.filter (s.keeps l) with
    | [] => s.allChoices.filter (fun c => l.any c.goesOn)
    | ok => ok

/-- The choice taken: the only one, or one of several, freely. -/
def State.choice (s : State) : Option Choice :=
  match s.choices with
  | [] => none
  | [c] => some c
  | c :: l => some ((c :: l).getD (Config.choose s.tick (l.length + 1) % (l.length + 1)) c)

/-! ### After a step -/

/-- Whether a pivot that a team has presented is settled, or waits for this team alone to come back (R206). -/
def State.pivotOver (s : State) (a : AgentId) : Bool :=
  s.pivs.any (fun o => o.agent == a && (o.result.isSome ||
    allIn (s.pivs.filter (fun p => p.cluster == o.cluster && p.tag == o.tag && p.result.isNone)) o))

/-- Whether a wait of a blocked batch of a swapped team has ended: a lane of it would go on. -/
def State.waitOver (s : State) (t : Team) (wv : Nat) (k : Stuck) : Bool :=
  k.why == .mpiv && s.pivotOver t.agent ||
  match s.issue (k.batch t.agent wv) with
  | .next s' => !((s'.wave? t.agent wv).map (fun w => w.stuck.any (fun y => y.pc == k.pc && y.todo == k.todo && y.waits))).getD false
  | _ => false

/-- Marks the teams that the hardware swapped and whose wait has ended (R320). -/
def State.markDue (s : State) : State :=
  let due (t : Team) : Bool := t.resid == .swappedByHw &&
    t.liveWaves.any (fun wv => (t.wave wv).stuck.any (fun k => k.ent.isNone && s.waitOver t wv k))
  { s with teams := s.teams.map (fun t => if due t then { t with resid := .due } else t) }

/-- Notes since when all fibres of a team wait (R320). -/
def State.markWaits (s : State) : State :=
  let note (t : Team) : Team :=
    if !t.allWait || t.fibres.isEmpty then { t with since := none }
    else if t.since.isNone then { t with since := some s.tick } else t
  { s with teams := s.teams.map note }

/-- Whether a batch's word is a YIELD that a lane executes. -/
def State.yields (s : State) (b : Issue) : Bool :=
  match (s.team? b.agent).bind (fun t => (s.wordOf t b).map (fun i => (t, i))) with
  | some (t, .yield h) => b.lanes.any (fun l => guardPass h.guard (t.regsAt b.wave l))
  | _ => false

/-- What the issue of a batch leaves of the standing batches, `t` being the state after its word: it stands no longer; one
that stood back for it has done so; after YIELD it gives way next (R84). -/
def State.issued (s : State) (c : Choice) (t : State) : State :=
  match c with
  | .event _ => t
  | .batch b =>
    let l := s.rivals s.ready b
    let p := s.pick l
    let stood (x : Standing) : Bool := x.gives && p.any (fun c => c != b && x.agent == c.agent && x.wave == c.wave && x.pc == c.pc)
    let rest := (t.standing.filter (fun x => !(x.agent == b.agent && x.wave == b.wave && x.pc == b.pc))).map
      (fun x => if stood x then { x with gives := false } else x)
    if s.yields b then { t with standing := { s.standingOf { b with pc := b.pc + 8 } with gives := true } :: rest }
    else { t with standing := rest }

/-- Notes which batches stand ready, and since when (R319). -/
def State.markStanding (s : State) : State :=
  { s with standing := s.ready.map s.standingOf }

/-- Whether a core's clock stands: it has halted and nothing of it remains, or it is removed (R430). -/
def State.gated (s : State) (k : Core) : Bool :=
  (s.physCore k.id).isNone ||
  (k.halted && k.replay.isEmpty && !s.allTeams.any (fun t => coreOf t.agent == k.id) && !s.jobs.any (·.core == k.id) &&
    !s.saved.any (fun x => x.core == k.id && !(x.replay.isEmpty && x.jobs.isEmpty)))

/-- Time passes, for each core by its own count (R25 CYC, R322). -/
def State.pass (s : State) : State :=
  match s.power with
  | .running => { s with cores := s.cores.map (fun k => if s.gated k then k else { k with cyc := k.cyc + BitVec.ofNat 64 (Config.stepCycles s.tick k.id.toNat) }) }
  | _ => s

/-- What follows every step: pivots settle, what rewritten entries leave behind goes, waits are noted, and time passes. -/
def State.settle (s : State) : State := (s.pivsSettle.prunePages.markDue.markWaits.pass.markStanding).tock

/-! ### A program as the boot drive gives it -/

/-- A page table entry: mode, scope, frame (R275). -/
def entryWord (mode scope frame pkg auxIdx : Nat) : Nat :=
  1 + mode * 2 + scope * 16 + frame * 2 ^ 48 + auxIdx * 2 ^ 88 + pkg * 2 ^ 100

/-- Bytes at an address. -/
def placed (a n v : Nat) : List (Nat × BitVec 8) := (bytesOfNat n v).zipIdx.map (fun x => (a + x.2, x.1))

/-- The boot image of one word: tables in HBM frames 1 to 5, the word at virtual address 0x1000 in frame 6, the boot
information page at 0x2000 in frame 7; one wave with every register and 16 scratch pages (log 3). -/
def wordImage (w : Nat) : BootImage where
  shares := [⟨.scratch, none, 0, 1⟩, ⟨.near, none, 1, 1⟩, ⟨.cluster, none, 0, 1⟩, ⟨.die, none, 0, 1⟩, ⟨.hbm, none, 0, 64⟩]
  ptroot := 0x1000
  tvbk := 0
  tside := 0x100_0000
  swapb := 0
  fltq := 0
  code := 0x1000
  shape := BitVec.ofNat 64 (15 * 2 ^ 5 + 8 * 2 ^ 9 + 16 * 2 ^ 13 + 8 * 2 ^ 22 + 2 ^ 63)
  info := 0x2000
  bytes :=
    placed 0x1000 16 (entryWord mPtab 0 2 0 0) ++ placed 0x2000 16 (entryWord mPtab 0 3 0 0) ++
    placed 0x3000 16 (entryWord mPtab 0 4 0 0) ++ placed 0x4000 16 (entryWord mPtab 0 5 0 0) ++
    placed 0x5010 16 (entryWord mCode 3 6 0xFFF 0xFFF) ++ placed 0x5020 16 (entryWord mOwned 3 7 0xFFF 0) ++
    placed 0x6000 8 w
  measure := 0
  fwMeasure := 0
  trained := []
  links := []
  channels := []
  infoBytes := []

/-- The package booted with one word (R426); its dies have asked one another for work in vain. -/
def State.bootWord (s : State) (w : Nat) : State :=
  let s := s.resetFrom.boot (wordImage w)
  { s with dies := s.dies.map (fun d => { d with quiet := [0] }) }

/-- Where the next step fetches, when the issue of one batch is all that may come next. -/
def State.nextFetch (s : State) : Option Nat :=
  match s.choices with
  | [.batch b] =>
    match s.team? b.agent with
    | none => none
    | some t => match s.part? t.part with
      | none => none
      | some p =>
        match resolve s p ⟨coreOf b.agent, b.agent, p.id, t.levelAt b.wave (b.lanes.headD 0), .fetch, b.pc.toNat, 8, false⟩ with
        | .ok pa _ _ => some pa
        | _ => none
  | _ => none

end Sys2Proof.Machine
end

