-- ==== Sys2Proof/Machine/Step.lean ====
section
/-! DEFINITION. One step of the machine, and the state in which it runs a given word next. -/

namespace Sys2Proof.Machine

/-- One step: what is chosen comes about, and time passes; with nothing to do, time passes alone. -/
def step (s : State) : Host.Outcome State Fault Refusal :=
  match s.choice with
  | none => .next s.settle
  | some c =>
    match s.take c with
    | .next t => .next (s.issued c t).settle
    | .fault f => .fault f
    | .refused r => .refused r

/-- The state with a word where the next step fetches; a machine that does not stand before the issue of one batch is booted
with it, as reset step 6 to 8 would (R426, log 3). -/
def State.withFetchWord (s : State) (nbits w : Nat) : State :=
  match s.nextFetch with
  | some pa => s.writeP pa 8 (w % 2 ^ nbits)
  | none => s.bootWord (w % 2 ^ nbits)

end Sys2Proof.Machine
end

