-- ==== Sys2Proof/Safety.lean ====
section
/-! DEFINITION. The terms of the claims: a word that one lane issues alone, what completing it leaves, the invariant of the
stores, and what a safe run is. -/

namespace Sys2Proof.Machine

/-! ### One lane issuing alone -/

/-- A lane passes the guard of its word, from an unpoisoned register inside the window that waits for no result (R28, R33,
R42). -/
def passes (g : Option Guard) (t : Team) (wv l : Nat) : Bool :=
  !guardOut g t && !guardOwed g (t.wave wv) [l] && guardPass g (t.regsAt wv l) &&
  (match g with | none => true | some k => !(t.regsAt wv l).bad.contains (false, k.reg.toNat))

/-- The batch that issues is one lane, the only live one of its wave, outside yoke mode, and it passes the word's guard; its part
comes now, and no uniform write is held for it (R18). -/
structure Solo (s : State) (b : Issue) (t : Team) (l : Nat) (g : Option Guard) : Prop where
  cur : s.cur = some b
  team : s.team? b.agent = some t
  lanes : b.lanes = [l]
  todo : b.todo = [l]
  live : t.liveLanes b.wave = [l]
  plain : t.work.yoke = false
  guard : passes g t b.wave l = true
  now : b.later = []
  clear : ((t.wave b.wave).stuck.filter (·.isOf b)).flatMap (·.unis) = []

/-- The batch that issues is one lane, whatever other fibres of its wave are live, outside yoke mode, and it passes the
word's guard; its part comes now, and no uniform write is held for it (R18). -/
structure Lone (s : State) (b : Issue) (t : Team) (l : Nat) (g : Option Guard) : Prop where
  cur : s.cur = some b
  team : s.team? b.agent = some t
  lanes : b.lanes = [l]
  todo : b.todo = [l]
  plain : t.work.yoke = false
  guard : passes g t b.wave l = true
  now : b.later = []
  clear : ((t.wave b.wave).stuck.filter (·.isOf b)).flatMap (·.unis) = []

/-- What the lane's part of the word starts from. -/
def Issue.start (b : Issue) (s : State) (t : Team) (l : Nat) : LS :=
  { b.lanes0 s t [l] with lane := l, lvl := t.levelAt b.wave l }

/-- What the lane's part leaves, as the run of the word over its batch. -/
def LS.run (y : LS) : Run :=
  { Run.start y.st [⟨y.lane, y.npc, y.closes, y.hold⟩] y.unis with recs := y.recs }

/-- The word has completed: the lane's part stands, its PC has moved on, results that may land have landed. -/
def Issue.complete (b : Issue) (i : Instr) (s : State) (after : State → State) (y : LS) : State :=
  { after (((y.st.retire i b s.tick y.run).unstick b).landReady b.agent b.wave) with cur := none }

/-- No two writes of a uniform register differ. -/
def unisAgree (u : List Uni) : Bool := !u.any (fun x => u.any (uniClash x))

/-! ### Parts of a lane's word -/

/-- A part of a lane's word succeeds: from `x`, with value `v`, leaving `y`; it traps, parks or blocks nowhere. -/
def Does {α : Type} (p : L α) (x : LS) (v : α) (y : LS) : Prop := p x = .ok (v, y)

/-- A part of a lane's word only reads, or changes nothing but the state of the package and the lane's compared effects:
the lane itself, its PC, its uniform writes and its unfinished results are as before. -/
def Keeps {α : Type} (p : L α) : Prop := ∀ x v y, Does p x v y → y = { x with st := y.st, effs := y.effs }

/-! ### Safe runs -/

/-- The stores of a package are in canonical form: physical memory and every team's scratch. -/
def State.storesWf (s : State) : Prop := Memory.wf s.mem = true ∧ ∀ t ∈ s.allTeams, Memory.wf t.scratch = true

/-- A run from a state never stops: the machine stops by its freeze alone, which is a state (R423). -/
def safeFrom (s : State) : Prop := ∀ n, ∃ t, Host.Core.run ⟨State, Fault, Refusal, step, State.reset⟩ n s = .next t

end Sys2Proof.Machine
end

