-- ==== Sys2Proof/Certificates/Slice0/Obligations.lean ====
section
/-! DEFINITION. The statements for the provers. A word's statement says when exec answers a next state, and which: `Does p x v y`
says that part `p` of the lane's word succeeds from `x` with value `v` and leaves `y`; `b.complete i s after y` is the state in
which what the lane left stands and the word has completed. -/
namespace Sys2Proof.Machine

/-! ### Tables of words -/

/-- Integer words of two sources (R107, R108, R111) with their results. -/
def twoSources : List ((Hdr → Opnd → Opnd → Opnd → Instr) × (Word → Word → Word)) := [
  (.add, fun x y => x + y), (.sub, fun x y => x - y), (.mul, fun x y => x * y),
  (.mulh, fun x y => BitVec.ofInt 32 (x.toInt * y.toInt / 2 ^ 32)),
  (.mulhu, fun x y => BitVec.ofNat 32 (x.toNat * y.toNat / 2 ^ 32)),
  (.and, fun x y => x &&& y), (.or, fun x y => x ||| y), (.xor, fun x y => x ^^^ y), (.andn, fun x y => x &&& ~~~ y),
  (.shl, fun x y => x <<< (y.toNat % 32)), (.shr, fun x y => x >>> (y.toNat % 32)),
  (.sar, fun x y => x.sshiftRight (y.toNat % 32)), (.rol, fun x y => x.rotateLeft (y.toNat % 32)),
  (.popc, fun x y => x.cpop + y),
  (.min, fun x y => if x.toInt ≤ y.toInt then x else y), (.max, fun x y => if x.toInt ≤ y.toInt then y else x),
  (.minu, fun x y => if x.toNat ≤ y.toNat then x else y), (.maxu, fun x y => if x.toNat ≤ y.toNat then y else x)]

/-- Integer words of one source (R111, R112, R115) with their results; the last two take a field of `len + 1` bits at
`pos`. -/
def oneSources (pos len : BitVec 5) : List ((Hdr → Opnd → Opnd → Instr) × (Word → Word)) := [
  (.clz, fun x => x.clz), (.ctz, fun x => x.ctz), (.brev, fun x => x.reverse),
  (.abs, fun x => if x.toInt < 0 then - x else x), (.mov, fun x => x),
  (fun h d a => .bfx h d a pos len, fun x => BitVec.ofNat 32 (x.toNat / 2 ^ pos.toNat % 2 ^ (len.toNat + 1))),
  (fun h d a => .bfxs h d a pos len, fun x => BitVec.ofInt 32
    (if x.toNat / 2 ^ pos.toNat % 2 ^ (len.toNat + 1) < 2 ^ len.toNat
     then (x.toNat / 2 ^ pos.toNat % 2 ^ (len.toNat + 1) : Nat)
     else (x.toNat / 2 ^ pos.toNat % 2 ^ (len.toNat + 1) : Nat) - 2 ^ (len.toNat + 1)))]

/-- Divisions and remainders (R109). -/
def divisions : List ((Hdr → Opnd → Opnd → Opnd → Instr) × (Word → Word → Word)) := [
  (.div, fun x y => if y = 0 then 0xFFFF_FFFF else BitVec.ofInt 32 (x.toInt.tdiv y.toInt)),
  (.divu, fun x y => if y = 0 then 0xFFFF_FFFF else BitVec.ofNat 32 (x.toNat / y.toNat)),
  (.rem, fun x y => if y = 0 then x else BitVec.ofInt 32 (x.toInt.tmod y.toInt)),
  (.remu, fun x y => if y = 0 then x else BitVec.ofNat 32 (x.toNat % y.toNat))]

/-- What a long-latency integer word captures (R43): its two sources and the index register of an indexed destination. -/
def capOf (u v : Word) (ix : QWord) : Cap := ⟨u.setWidth 128, v.setWidth 128, ix, 0, 0, 0⟩

/-- CMP's relations (R48, R113). -/
def intRels : List (BitVec 4 × (Word → Word → Bool)) := [
  (0, fun x y => x == y), (1, fun x y => x != y), (2, fun x y => x.slt y), (3, fun x y => x.sle y),
  (4, fun x y => y.slt x), (5, fun x y => y.sle x), (6, fun x y => x.ult y), (7, fun x y => x.ule y),
  (8, fun x y => y.ult x), (9, fun x y => y.ule x)]

/-- RDID's values (R117) for a lane that issues alone. -/
def identityOf (s : State) (b : Issue) (t : Team) (l : Nat) : List (BitVec 4 × Word) := [
  (0, BitVec.ofNat 32 l), (1, BitVec.ofNat 32 (t.slot b.wave l)), (2, BitVec.ofNat 32 b.wave), (3, b.agent.setWidth 32),
  (4, t.work.unit), (5, BitVec.ofNat 32 t.work.shape), (6, BitVec.ofNat 32 t.part), (7, BitVec.ofNat 32 t.nwaves),
  (8, BitVec.ofNat 32 (t.liveLanes b.wave).length), (9, s.pkg.setWidth 32)]

/-- The target of a PC-relative branch (R38). -/
def branchTo (b : Issue) (off : BitVec 29) : Addr := b.pc + off.signExtend 52 * 8

/-- A part that leaves the lane at a target, its lookahead windows closed (R42, R81). -/
def LS.goes (y : LS) (pc : Addr) : LS := { y with npc := pc, closes := true }

/-- The lane's part with mask k of its wave set to a member and an arrival set. -/
def LS.withMask (y : LS) (k : Nat) (m a : Word) : LS :=
  { y with st := y.st.updWave y.agent y.wave (fun w => { w with m := vset w.m k (m, a) }) }

/-- The writes of jobs to other packages that are not delivered (R255). -/
def State.jobWrites (s : State) (l : List Nat) : List (BitVec 24) :=
  (s.sent.filter (fun m => (m.job.map l.contains).getD false && !m.heard)).map (·.mid)

/-- CNTR's new counter (R219): READ, ADD, SET and CFG, `lvl` the level tag that CFG writes. -/
def cntrOps (lvl : BitVec 2) : List (BitVec 2 × (Word → Counter → Counter)) := [
  (0, fun _ c => c), (1, fun v c => { c with count := c.count + v }), (2, fun v c => { c with count := v, marks := [] }),
  (3, fun v _ => ⟨0, min 4 (v.toNat % 8), lvl, []⟩)]

/-! ### Words whose result may come late (R41 to R43) -/

/-- Without lookahead and with no earlier result of the lane pending for its destinations, the word of captured sources `c`
is performed at once and its result lands: in its registers, its channel, or the uniform registers. -/
def Landed (i : Instr) (h : Hdr) (c : Cap) (perform : L (QWord × BitVec 4)) (x z : LS) : Prop :=
  h.la = 0 ∧ ∃ y v t w, Does (L.behind (destsOf i c)) x false y ∧ Does perform y (v, t) w ∧ Does (L.landNow i c v t) w () z

/-! ### Floating words (R126, R127) -/

/-- The values of two f registers under a floating word's modifiers (R125). -/
def fVals (o : FOpt) (x y : DWord × BitVec 4) : FV × FV := (fA o x.1, fB o y.1)

/-- Words of two f sources and the exact result that is rounded once. -/
def float2s : List ((Hdr → Opnd → Opnd → Opnd → FOpt → Instr) × (Rm → FV → FV → Ex)) := [
  (.fadd, fun rm u v => addX rm u v), (.fsub, fun rm u v => addX rm u v.negate), (.fmul, fun _ u v => mulX u v),
  (.fmin, fun _ u v => .plain (if u.isNan then v else if v.isNan then u else if v.below u then v else u)),
  (.fmax, fun _ u v => .plain (if u.isNan then v else if v.isNan then u else if u.below v then v else u))]

/-- Long-latency words of one f source and the rounded result: the algebraic ones round the exact result once, the
transcendental ones the rounded value of R126 (log 57 where no rounding is decided). -/
def float1Longs (o : FOpt) : List ((Hdr → Opnd → Opnd → FOpt → Instr) × (Rm → FV → Rnd)) := [
  (.fsqrt, fun rm u => exactRnd (fmtOf o.fp64) rm (sqrtX u)),
  (.frcp, fun rm u => exactRnd (fmtOf o.fp64) rm (divX (.fin false 1 0) u)),
  (.frsq, fun rm u => exactRnd (fmtOf o.fp64) rm (rsqrtX u)),
  (.fex2, ex2R (fmtOf o.fp64)), (.flg2, lg2R (fmtOf o.fp64)), (.fsin, trigR false (fmtOf o.fp64)),
  (.fcos, trigR true (fmtOf o.fp64))]

/-! ### Interval words (R137 to R141) -/

/-- Words of two intervals, their results before the outward rounding, and when they have one. -/
def iv2s : List ((Hdr → Opnd → Opnd → Opnd → XOpt → Instr) × (Iv → Iv → Iv) × (Iv → Iv → Bool)) := [
  (.xadd, addIv, fun _ _ => true), (.xsub, fun u v => addIv u (negIv v), fun _ _ => true), (.xmul, mulIv, fun _ _ => true),
  (.xhull, fun u v => (minV u.1 v.1, maxV u.2 v.2), fun _ _ => true),
  (.xmeet, fun u v => (maxV u.1 v.1, minV u.2 v.2), fun u v => !(minV u.2 v.2).lt (maxV u.1 v.1))]

/-- Words of one interval. -/
def iv1s : List ((Hdr → Opnd → Opnd → XOpt → Instr) × (Iv → Iv)) := [(.xsqr, sqrIv), (.xneg, negIv), (.xabs, absIv)]

/-- Words that write a point from an interval, with its code. -/
def ivPoints (x : XOpt) : List ((Hdr → Opnd → Opnd → XOpt → Instr) × (Iv → Nat)) := [
  (.xlo, fun v => boundCode x.x64 .rne v.1), (.xhi, fun v => boundCode x.x64 .rne v.2), (.xmid, midCode x.x64),
  (.xwid, widCode x.x64)]

/-- Tests of two intervals. -/
def ivTests (rel : Nat) : List ((Hdr → Opnd → Opnd → Opnd → TOpt → Instr) × (Iv → Iv → Option Bool)) := [
  (.xcmp, ivRel rel), (.xin, ivIn), (.xsubs, ivInside)]

/-! ### Memory words (R151 to R175) -/

/-- What a load of a width writes: bytes and halfwords sign-extended for .b and .h, zero-extended for .bu and .hu; wider
values as they are, lowest register first (R151). -/
def loaded (wid : Wid) (v : Nat) : QWord :=
  match wid with
  | .b => ((BitVec.ofNat 8 v).signExtend 32).setWidth 128
  | .h => ((BitVec.ofNat 16 v).signExtend 32).setWidth 128
  | _ => BitVec.ofNat 128 v

/-- Bytes of a width. -/
def bytesOf : Wid → Nat
  | .b | .bu => 1 | .h | .hu => 2 | .w => 4 | .d => 8 | .q => 16

/-- The access of a load: the address is formed and checked from its captured operands, then the bytes are read from
scratch or from the global space. -/
def loadFrom (m : MemOpnd) (wid : Wid) (kind : AK) (f : Nat → QWord) (tag : BitVec 4) (c : Cap) :
    L (QWord × BitVec 4) := do
  let a ← L.access 0 m (bytesOf wid) c.av.toNat c.bv.toNat
  let v ← if m.scratch then L.loadScr a (bytesOf wid) else L.load kind a (bytesOf wid)
  return (f v, tag)

/-- Captured address operands, with an index register where one names the destination. -/
def addrCap (av bv : Nat) (d : Word) : Cap :=
  { Cap.zero with av := BitVec.ofNat 128 av, bv := BitVec.ofNat 128 bv, dv := d.setWidth 128 }

/-- One atomic step of a width (R159): the table of AMO's operations over the old value and B. -/
def amoTable (w : Nat) : List (BitVec 4 × (BitVec w → BitVec w → BitVec w)) := [
  (0, fun x y => x + y), (1, fun x y => x &&& y), (2, fun x y => x ||| y), (3, fun x y => x ^^^ y),
  (4, fun x y => if x.sle y then x else y), (5, fun x y => if y.sle x then x else y),
  (6, fun x y => if x ≤ y then x else y), (7, fun x y => if x ≤ y then y else x), (8, fun _ y => y),
  (9, fun x y => if y ≤ x then 0 else x + 1), (10, fun x y => if x = 0 ∨ y < x then y else x - 1)]

/-- AMOF's operations (R161): the sum and the number-minimum and number-maximum of the old value and B, before the rounding. -/
def amofTable : List (Nat × (FV → FV → FV)) := [
  (0, fun x y => (addX .rne x y).v),
  (1, fun x y => if x.isNan then y else if y.isNan then x else if y.below x then y else x),
  (2, fun x y => if x.isNan then y else if y.isNan then x else if x.below y then y else x)]

/-- What a NaN among the old bits of AMOF is written as: the canonical one of the width (R55). -/
def canonical (dbl : Bool) (old : Nat) : Nat := if ((fmtOf dbl).value old).isNan then (fmtOf dbl).nanCode else old

/-- One lane of a batch stands blocked at its word, with what it has done so far (R78). -/
def Issue.blocked (b : Issue) (i : Instr) (s : State) (l : Nat) (why : Wait) (y : LS) : State :=
  { ((y.st.retire i b s.tick (Run.start y.st [] [])).standBlocked b [l] why none [l] [] (some i)).landReady b.agent b.wave with
    cur := none }

/-! ### Engine words (R179 to R204) -/

/-- The batch commands of the matrix engine that do not wait (R179). -/
def batchCommands (h : Hdr) (a c : Opnd) (arr : BitVec 2) (wf af n : BitVec 3) (mask : BitVec 4) (f : Bool) : List Instr := [
  .mcfg h arr wf af f, .mldb h a c mask, .mvqb h a c mask, .mldt h a, .mswb h mask, .mzro h n f, .mstz h a c n, .mfst h a c]

/-- The lane commands of the copy engine and the fabric (R179). -/
def laneCommands (h : Hdr) (d a c : Opnd) (w w2 : BitVec 4) (ds ss : Bool) : List Instr := [
  .cpy h d a c w ds ss, .gthr h d a c w ds ss, .sctr h d a c w ds ss, .mcast h d a c w, .msnd h a c ss, .coll h d a c w w2]

/-- The engine of a command. -/
def engineOf : Instr → Eng
  | .cpy .. | .gthr .. | .sctr .. | .mcast .. => .copy
  | .qenq .. => .quant
  | .msnd .. | .coll .. => .fabric
  | _ => .matrix

/-- The job of one command that the state takes: its footprint as the engine stands at its issue, before the release, and its
edges to the team's earlier jobs (R180, R347). -/
def LS.issued (y : LS) (at' : State) (i : Instr) (c : CmdArgs) (q : Option Nat) (t : Team) : LS :=
  { y with
    st := y.st.submit y.agent (BitVec.ofNat 2 y.lvl) (engineOf i) none (some (i, c))
      (footprint t (viewAt at' t at'.nextJob) i c).1 (footprint t (viewAt at' t at'.nextJob) i c).2 q none }

/-- The fibre owes the newest job. -/
def LS.owes (y : LS) : LS :=
  { y with st := y.st.updFibre y.agent y.wave y.lane (fun f => { f with jobs := f.jobs ++ [y.st.nextJob - 1] }) }

/-- The batch waits at its word for the job that it has just issued (R193, R194). -/
def LS.waiting (y : LS) : LS :=
  { y with st := y.st.updJob (y.st.nextJob - 1) (fun j => { j with wait := some (y.wave, y.lane, y.pc) }) }

/-! ### System words (R205 to R230) -/

/-- A lane's trap at its word, alone: the wave enters the handler from the state before the word (R12, R352). -/
def trapAlone (s : State) (b : Issue) (l : Nat) (cls : BitVec 4) (sub : BitVec 8) (aux : Word) : State :=
  s.enterHandler b.agent b.wave b.pc [⟨l, cls, sub, 0, aux⟩] [l] [l] none

/-- The words of RPLY. -/
def rplyWords : List (Hdr → Opnd → Opnd → Opnd → Instr) := [.rplyGet, .rplyPut, .rplyDrop, .rplyIns]

/-- The paired words: each slot X of two registers with its operation (R44, R47). -/
def pairs2 : List ((Opnd → Opnd → Slot → Instr) × PairOp) := [
  (.pairMov, .mov), (.pairAdd, .add), (.pairSub, .sub), (.pairAnd, .and), (.pairOr, .or), (.pairXor, .xor), (.pairShl, .shl),
  (.pairShr, .shr), (.pairSar, .sar), (.pairMin, .min), (.pairMax, .max), (.pairFadd, .fadd), (.pairFsub, .fsub),
  (.pairFmul, .fmul), (.pairFmin, .fmin), (.pairFmax, .fmax), (.pairFmov, .fmov), (.pairPopc, .popc)]

/-- Those of an immediate. -/
def pairsImm : List ((Opnd → BitVec 8 → Slot → Instr) × PairOp) := [
  (.addi, .addi), (.movi, .movi), (.shli, .shli), (.shri, .shri), (.aaddi, .aaddi)]

/-- What a paired word reads, both slots before either writes. -/
def readBoth (x y : Slot) : L ((SlotVal × Fl) × (SlotVal × Fl)) := do
  L.checkRegs (slotRegs x ++ slotRegs y)
  if floatOp x.op then [x.d, x.s].forM (L.tagIn [2])
  if floatOp y.op then [y.d, y.s].forM (L.tagIn [2])
  return (← L.slotRead x, ← L.slotRead y)

/-- What it writes: the flags of both, then X, then Y. -/
def writeBoth (x y : Slot) (u v : SlotVal × Fl) : L Unit := do
  L.raise (u.2 ||| v.2)
  L.slotWrite x.d u.1
  L.slotWrite y.d v.1

/-- The integer operations of a slot (R47). -/
def slotTable : List (PairOp × (Word → Word → Word)) := [
  (.mov, fun _ v => v), (.movi, fun _ v => v), (.add, fun d v => d + v), (.addi, fun d v => d + v), (.sub, fun d v => d - v),
  (.and, fun d v => d &&& v), (.or, fun d v => d ||| v), (.xor, fun d v => d ^^^ v),
  (.shl, fun d v => d <<< (v.toNat % 32)), (.shli, fun d v => d <<< (v.toNat % 32)), (.shr, fun d v => d >>> (v.toNat % 32)),
  (.shri, fun d v => d >>> (v.toNat % 32)), (.sar, fun d v => d.sshiftRight (v.toNat % 32)),
  (.min, fun d v => if d.toInt ≤ v.toInt then d else v), (.max, fun d v => if d.toInt ≤ v.toInt then v else d),
  (.popc, fun d v => d + v.cpop)]

/-- The floating operations of a slot (R47): their exact values, which one rounding to FP32 in RNE makes the result. -/
def slotFloats : List (PairOp × (FV → FV → Ex)) := [
  (.fadd, addX .rne), (.fsub, fun x y => addX .rne x y.negate), (.fmul, mulX),
  (.fmin, fun x y => .plain (if x.isNan then y else if y.isNan then x else if y.below x then y else x)),
  (.fmax, fun x y => .plain (if x.isNan then y else if y.isNan then x else if x.below y then y else x))]

/-- The value of a floating slot on the low words of two f registers, rounded once. -/
def slotRound (f : FV → FV → Ex) (u v : DWord) : Rnd :=
  exactRnd fmtF32 .rne (f (fmtF32.value (u.toNat % 2 ^ 32)) (fmtF32.value (v.toNat % 2 ^ 32)))

/-- The values of the CSRs of a lane (R25) that no read changes: team, partition, wave, core and package registers. -/
def csrValues (s : State) (t : Team) (p : Partition) (w : Wave) (a : AgentId) : List (Nat × Word) := [
  (0x000, t.fenv), (0x003, t.chki), (0x004, t.glim), (0x005, t.ftau), (0x006, s.mstatOf a), (0x007, p.crate),
  (0x008, BitVec.ofNat 32 p.id), (0x100, p.ptroot.extractLsb' 0 32), (0x101, p.tshape.extractLsb' 0 32),
  (0x102, p.rackb.extractLsb' 0 32), (0x103, p.wthr), (0x104, p.tvbk.extractLsb' 0 32), (0x105, p.tside.extractLsb' 0 32),
  (0x106, match w.h with | some h => BitVec.ofNat 32 h.replay.length | none => 0), (0x107, w.tcause),
  (0x10A, w.level.setWidth 32), (0x10B, p.fto), (0x10C, s.rdl), (0x10D, p.swapb.extractLsb' 0 32),
  (0x10E, p.fltq.extractLsb' 0 32), (0x10F, s.keyst), (0x300, s.tvbm.extractLsb' 0 32), (0x301, s.lcmap.extractLsb' 0 32),
  (0x302, s.frzcfg), (0x303, s.agemOf (coreOf a))]

/-- CSRs that level 0, level 1 and level 2 may read (R25). -/
def csrReadable : List (Nat × Nat) :=
  [0x000, 0x001, 0x002, 0x003, 0x004, 0x005, 0x006, 0x007, 0x008, 0x10A].map (0, ·) ++
  [0x100, 0x101, 0x102, 0x103, 0x104, 0x105, 0x106, 0x107, 0x108, 0x109, 0x10B, 0x10C, 0x10D, 0x10E, 0x10F].map (1, ·) ++
  [0x300, 0x301, 0x302, 0x303].map (2, ·)

/-- The level a number may be read at. -/
def readableAt (n : BitVec 12) : Option Nat := (csrReadable.find? (·.2 == n.toNat)).map (·.1)

/-! ### Events -/

/-- What an unfinished word of a lane is performed from. -/
def perfStart (s : State) (a : AgentId) (wv : Nat) (e : Entry) (l : Nat) : LS :=
  { st := s, st0 := s, clean := s, base := s, agent := a, wave := wv, lane := l,
    lvl := ((s.team? a).map (·.levelAt wv l)).getD 0,
    job := none, batch := e.lanes.map (·.lane), execs := e.lanes.map (·.lane), pc := e.pc, npc := e.pc, closes := false,
    hold := none, unis := [], effs := [], recs := [] }

/-- A binding passes on from an entry whose STEP is `top` (R249). -/
def State.passEntry (s : State) (part c top : Nat) : State :=
  s.updBinding part c (fun b => { b with next := b.next + 1, page := 0, top := max b.top top })

/-- The places in this package among the pieces of an inbound request (R402). -/
def placesIn (l : List (Nat × Nat × Own)) : List (Nat × Nat) :=
  l.map (fun x => (match x.2.2 with | .ok pa _ => pa | _ => 0, x.2.1))

/-! ### The frame of the statements -/

/-- Words written out from the encodings of R32 to R49, with the instructions they stand for. -/
def decodeWords : List (DWord × Instr) := [
  (0x7040_0000_0000_0007, .sysc Hdr.plain 7),
  (0x7100_0020_6000_0000, .csrr ⟨none, 1⟩ (.g 3) 0x000),
  (0x71C0_0000_C040_8000, .lnch Hdr.plain (.g 6) (.g 2) (.g 4)),
  (0x4000_0041_0040_B004, .ld ⟨none, 2⟩ (.g 8) .w ⟨false, .g 2, some (.g 5), 4⟩),
  (0x00A2_0800_1FFF_FFFD, .bru 4 2 (-3)),
  (0x0280_0000_0000_0002, .join Hdr.plain 2),
  (0x04C0_0000_A040_0003, .fork Hdr.plain (.g 5) (.g 2) 3),
  (0x1780_0000_E020_4044, .cmp Hdr.plain (.g 7) (.g 1) (.g 2) ⟨false, 2, 4⟩),
  (0x1840_0000_A000_03E8, .li Hdr.plain (.g 5) 1000),
  (0x1A40_000F_2F8F_C010, .setix Hdr.plain (.i 1) .zr (.imm 16)),
  (0, .nop)]

/-- Instructions whose word another row shares, the value of a register choosing the row (R211, R223, R229): the decoder
gives the first row of each word. -/
def sharesItsWord : Instr → Bool
  | .rplyPut .. | .rplyDrop .. | .rplyIns .. | .rsumFail .. | .haltEnable .. => true
  | _ => false

/-- The step is exec of an instruction over a batch, or over it in parts where it has several lanes, from a state that its fetch has
left; a scratch word has bound the accesses that it goes before for their late traps (R260, R356). -/
def StepRuns (s : State) (b : Issue) (x : State) (i : Instr) : Prop :=
  ∃ c, (c = b ∨ c = b.split i x.tick) ∧ ((b.split i x.tick).later = [] → c = b) ∧
    step s = match exec i { (if scratchWord i then x.sealFates b else x) with cur := some c } with
      | .next t => .next (s.issued (.batch b) t).settle
      | .fault f => .fault f
      | .refused r => .refused r

/-- Several lanes of a wave issue together: no guard, no lane poisoned, no result of the wave outstanding, none blocked in the word. -/
def Together (s : State) (b : Issue) (t : Team) (fib : Nat → Fibre) : Prop :=
  s.cur = some b ∧ s.team? b.agent = some t ∧ t.work.yoke = false ∧ b.todo = b.lanes ∧ b.lanes.Nodup ∧ b.lanes ≠ [] ∧
  b.wave < 32 ∧ (t.wave b.wave).unfinished = [] ∧ ((t.wave b.wave).stuck.filter (·.isOf b)).flatMap (·.unis) = [] ∧
  ∀ l ∈ b.lanes, t.fibre? (t.slot b.wave l) = some (fib l) ∧ (fib l).regs.bad = []

/-- The lanes of a batch whose g[index + k] lies outside the window or the bound (R17). -/
def idxOuts (b : Issue) (t : Team) (fib : Nat → Fibre) (r : BitVec 2) (k : BitVec 6) : List Nat :=
  b.lanes.filter (fun l => let x := (vget (fib l).regs.ix r.toNat).toNat
    t.gWin ≤ x % 2 ^ 16 + k.toNat || x / 2 ^ 16 ≤ x % 2 ^ 16)

/-- Every team notes since when all its fibres wait exactly while they do (R320). -/
def State.waitsMarked (s : State) : Prop := ∀ t ∈ s.teams, t.since.isSome = (t.allWait && !t.fibres.isEmpty)

/-- The table of R149 for one access of an agent in the region, to a page without K: the MMX subcode, or none. -/
def modeTable (m : Nat) (k : AK) (owner : Bool) (lvl : Nat) : Option (BitVec 8) :=
  if m = mPtab ∧ lvl = 0 then some 1
  else match k with
    | .fetch => if m = mCode then none else some 3
    | .load => if m = mAtomic ∨ m = mStream then some 4 else if m = mOwned ∧ !owner then some 5 else none
    | .lda => if m = mStream then some 4 else if m = mOwned ∧ !owner then some 5 else none
    | .store =>
      if m = mOwned then (if owner then none else some 5) else if m = mHalo ∨ m = mPtab then none else some 4
    | .stl =>
      if m = mOwned then (if owner then none else some 5)
      else if m = mHalo ∨ m = mPtab ∨ m = mAtomic then none else some 4
    | .amo => if m = mOwned then (if owner then none else some 5) else if m = mPtab ∨ m = mAtomic then none else some 4
    | .red => if m = mReduce then none else some 4
    | .pop | .push => if m = mStream then none else some 4

end Sys2Proof.Machine

open Sys2Proof Sys2Proof.Machine

/-- Two-source integer words write f(A, B) to D; One-source integer words write f(A) to D; BFI reads D before it writes
it. ADD, SUB, MUL, MULH, MULHU, AND, OR, XOR, ANDN, SHL, SHR, SAR, ROL, POPC, MIN, MAX, MINU and MAXU of a lane that
issues alone: when A and B read as u and v and D takes the result of the table, exec answers the completed word; the
PC moves on by 8. CLZ, CTZ, BREV, ABS, MOV, BFX and BFXS of a lane that issues alone: when A reads as u and D takes
the result of the table (ABS of the most negative number is itself), exec answers the completed word. BFI replaces
the len + 1 bits of D at pos by the low bits of A; D is read after A, and exec answers the completed word.
(05_isa_integer R107, 05_isa_integer R108, 05_isa_integer R111, 05_isa_integer R112, 05_isa_integer R115.) -/
def Obligations.IntegerTwoSources : Prop :=
  (∀ p ∈ twoSources, ∀ (h : Hdr) (d a c : Opnd) (s : State) (b : Issue) (t : Team) (l : Nat) (u v : Word) (y z : LS),
    Solo s b t l h.guard →
    Does (do L.check 1 [a, c] [d]; return (← L.rdW a, ← L.rdW c)) (b.start s t l) (u, v) y →
    Does (L.wrW d (p.2 u v)) y () z →
    exec (p.1 h d a c) s = .next (b.complete (p.1 h d a c) s id z)) ∧
  (∀ (pos len : BitVec 5), ∀ p ∈ oneSources pos len, ∀ (h : Hdr) (d a : Opnd) (s : State) (b : Issue) (t : Team) (l : Nat) (u : Word) (y z : LS),
    Solo s b t l h.guard →
    Does (do L.check 1 [a] [d]; L.rdW a) (b.start s t l) u y →
    Does (L.wrW d (p.2 u)) y () z →
    exec (p.1 h d a) s = .next (b.complete (p.1 h d a) s id z)) ∧
  ((∀ (h : Hdr) (d a : Opnd) (pos len : BitVec 5) (s : State) (b : Issue) (t : Team) (l : Nat) (u w : Word) (y z : LS),
    Solo s b t l h.guard →
    Does (do L.check 1 [a] [d]; return (← L.rdW a, ← L.rdW d)) (b.start s t l) (u, w) y →
    Does (L.wrW d (BitVec.ofNat 32 (setBits w.toNat pos.toNat (len.toNat + 1) u.toNat))) y () z →
    exec (.bfi h d a pos len) s = .next (b.complete (.bfi h d a pos len) s id z)))

/-- MAD writes A × B + D to D, a g or an s register. When A, B and D read as u, v and w, in that order, MAD of a lane
that issues alone writes the low 32 bits of u × v + w to D, and exec answers the completed word; a well-formed MAD
names a g or an s register as D, and for every g or s destination with g sources MAD is well formed. (05_isa_integer
R110.) -/
def Obligations.MultiplyAdd : Prop :=
  (∀ (h : Hdr) (d a c : Opnd) (s : State) (b : Issue) (t : Team) (l : Nat) (u v w : Word) (y z : LS),
    Solo s b t l h.guard →
    Does (do L.check 1 [a, c] [d]; return (← L.rdW a, ← L.rdW c, ← L.rdW d)) (b.start s t l) (u, v, w) y →
    Does (L.wrW d (BitVec.ofNat 32 (u.toNat * v.toNat + w.toNat))) y () z →
    exec (.mad h d a c) s = .next (b.complete (.mad h d a c) s id z)) ∧
  (∀ (h : Hdr) (d a c : Opnd), (Instr.mad h d a c).wf = true → (∃ n, d = .g n) ∨ ∃ n, d = .s n) ∧
  (∀ (n k m : BitVec 6) (q : BitVec 4), (Instr.mad Hdr.plain (.g n) (.g k) (.g m)).wf = true ∧
    (Instr.mad Hdr.plain (.s q) (.g k) (.g m)).wf = true)

/-- CMP writes a decided pair, SEL chooses by one bit; SETIX, GETIX and LEA; LI, LIH and RDID write what they name. CMP
writes 01 (true) or 10 (false) into the pair of D that its options name, by the relation of the table, and leaves
the other bits of D; SEL reads both sources and writes A where bit cb of g cr is 1, else B. SETIX writes index A and
bound B, both below 65,536 and the bound at most the window; GETIX writes the index plus B; LEA writes the address
it forms: 32 bits for scratch, a g pair for the global space. LI writes its sign-extended field, LIH its 16 bits
above the low half of D, and RDID the value that its selector names, for a lane that issues alone. (05_isa_integer
R113, 05_isa_integer R114, 03_numbers R72, 05_isa_integer R120, 05_isa_integer R121, 02_encoding R40, 05_isa_integer
R115, 05_isa_integer R117.) -/
def Obligations.CompareAndSelect : Prop :=
  (∀ p ∈ intRels, ∀ (h : Hdr) (d a c : Opnd) (wide : Bool) (pb : BitVec 5) (s : State) (b : Issue) (t : Team) (l : Nat) (u v w : Word) (y z : LS),
    Solo s b t l h.guard →
    Does (do L.check 1 [a, c] [d]; return (← L.rdW a, ← L.rdW c, ← L.rdW d)) (b.start s t l) (u, v, w) y →
    Does (L.wrW d (BitVec.ofNat 32 (setBits w.toNat pb.toNat 2 (if p.2 u v then 1 else 2)))) y () z →
    exec (.cmp h d a c ⟨wide, p.1, pb⟩) s = .next (b.complete (.cmp h d a c ⟨wide, p.1, pb⟩) s id z)) ∧
  (∀ (h : Hdr) (d a c : Opnd) (cr : BitVec 6) (cb : BitVec 5) (s : State) (b : Issue) (t : Team) (l : Nat) (w u v : Word) (y z : LS),
    Solo s b t l h.guard →
    Does (do L.checkG cr.toNat; L.check 1 [a, c] [d]; return (← L.rdG cr.toNat, ← L.rdW a, ← L.rdW c)) (b.start s t l)
      (w, u, v) y →
    Does (L.wrW d (if w.getLsbD cb.toNat then u else v)) y () z →
    exec (.sel h d a c cr cb) s = .next (b.complete (.sel h d a c cr cb) s id z)) ∧
  (∀ (h : Hdr) (d a c : Opnd) (s : State) (b : Issue) (t : Team) (l : Nat) (u v : Word) (g : Nat) (y z : LS),
    Solo s b t l h.guard →
    Does (do L.check 1 [a, c] [d]; return (← L.rdW a, ← L.rdW c, (← L.team).gWin)) (b.start s t l) (u, v, g) y →
    u.toNat < 2 ^ 16 → v.toNat < 2 ^ 16 → v.toNat ≤ g →
    Does (L.wrW d (v.extractLsb' 0 16 ++ u.extractLsb' 0 16)) y () z →
    exec (.setix h d a c) s = .next (b.complete (.setix h d a c) s id z)) ∧
  (∀ (h : Hdr) (d a c : Opnd) (s : State) (b : Issue) (t : Team) (l : Nat) (u v : Word) (y z : LS),
    Solo s b t l h.guard →
    Does (do L.check 1 [a, c] [d]; return (← L.rdW a, ← L.rdW c)) (b.start s t l) (u, v) y →
    Does (L.wrW d ((u.extractLsb' 0 16).setWidth 32 + v)) y () z →
    exec (.getix h d a c) s = .next (b.complete (.getix h d a c) s id z)) ∧
  (∀ (h : Hdr) (d : Opnd) (wid : Wid) (m : MemOpnd) (s : State) (b : Issue) (t : Team) (l : Nat) (av bv : Nat) (y z : LS),
    Solo s b t l h.guard → m.scratch = true →
    Does (do L.checkAddr m; L.checkReg d; L.addrOps m) (b.start s t l) (av, bv) y →
    Does (L.wrW d (BitVec.ofInt 32 (av + m.off.toInt * widSize wid + (BitVec.ofNat 32 bv).toInt))) y () z →
    exec (.lea h d wid m) s = .next (b.complete (.lea h d wid m) s id z)) ∧
  (∀ (h : Hdr) (d : Opnd) (wid : Wid) (m : MemOpnd) (s : State) (b : Issue) (t : Team) (l : Nat) (av bv : Nat) (y z : LS),
    Solo s b t l h.guard → m.scratch = false →
    Does (do L.checkAddr m; L.checkReg d; L.addrOps m) (b.start s t l) (av, bv) y →
    ((av + m.off.toInt * widSize wid + (BitVec.ofNat 32 bv).toInt) % 2 ^ 64).toNat < 2 ^ 52 →
    Does (L.wrPair d ((av + m.off.toInt * widSize wid + (BitVec.ofNat 32 bv).toInt) % 2 ^ 64).toNat) y () z →
    exec (.lea h d wid m) s = .next (b.complete (.lea h d wid m) s id z)) ∧
  (∀ (h : Hdr) (d : Opnd) (imm : BitVec 29) (s : State) (b : Issue) (t : Team) (l : Nat) (z : LS),
    Solo s b t l h.guard → Does (L.wrW d (imm.signExtend 32)) (b.start s t l) () z →
    exec (.li h d imm) s = .next (b.complete (.li h d imm) s id z)) ∧
  (∀ (h : Hdr) (d : Opnd) (imm : BitVec 16) (s : State) (b : Issue) (t : Team) (l : Nat) (w : Word) (y z : LS),
    Solo s b t l h.guard → Does (L.rdW d) (b.start s t l) w y → Does (L.wrW d (imm ++ w.extractLsb' 0 16)) y () z →
    exec (.lih h d imm) s = .next (b.complete (.lih h d imm) s id z)) ∧
  (∀ (h : Hdr) (d : Opnd) (s : State) (b : Issue) (t : Team) (l : Nat) (y z : LS), ∀ p ∈ identityOf s b t l,
    Solo s b t l h.guard → Does (L.checkReg d) (b.start s t l) () y → Does (L.wrW d p.2) y () z →
    exec (.rdid h d p.1) s = .next (b.complete (.rdid h d p.1) s id z))

/-- DIV, DIVU, REM and REMU: quotient and remainder, never a trap, at once without lookahead. Performing one of the four
on any captured sources gives the quotient or remainder of R109 (toward zero, the sign of the dividend; by 0 all
ones, or the dividend) and raises no trap; with LA = 0 and no earlier result of the lane pending for D it lands at
once (the model's choice, log 14) and exec answers the completed word. (05_isa_integer R109.) -/
def Obligations.Divisions : Prop :=
  (∀ p ∈ divisions, ∀ (h : Hdr) (d a c : Opnd) (u v : Word) (ix : QWord) (x : LS),
    Does (perfOf (p.1 h d a c) (capOf u v ix)) x ((p.2 u v).setWidth 128, 0) x) ∧
  (∀ p ∈ divisions, ∀ (h : Hdr) (d a c : Opnd) (s : State) (b : Issue) (t : Team) (l : Nat) (u v : Word) (ix : QWord) (y y' z : LS),
    Solo s b t l h.guard → h.la = 0 →
    Does (do L.check 1 [a, c] [d]; return (← L.rdW a, ← L.rdW c, ← L.destIndex d)) (b.start s t l) (u, v, ix) y →
    Does (L.behind (destsOf (p.1 h d a c) (capOf u v ix))) y false y' →
    Does (L.landNow (p.1 h d a c) (capOf u v ix) ((p.2 u v).setWidth 128) 0) y' () z →
    exec (p.1 h d a c) s = .next (b.complete (p.1 h d a c) s id z))

/-- AMK, AADD and ASCL write a base and a stride; AMAT takes base and stride from lanes 0 and 1. In a wave whose only
live fibre executes the word, AMK writes (A, B), AADD (base + B, stride) and ASCL (base × B, stride × B) into the a
register D, and exec answers the completed word. When every live lane of a wave, lanes 0 and 1 among them, executes
AMAT and lane k reads base + stride × k in the g register A, exec answers a next state in which the a register D of
the wave holds (base, stride), and memory is as before. (05_isa_integer R118, 05_isa_integer R119.) -/
def Obligations.AffineUnit : Prop :=
  (∀ (h : Hdr) (n : BitVec 3) (a c : Opnd) (s : State) (b : Issue) (t : Team) (l : Nat) (u v : Word) (y : LS),
    Solo s b t l h.guard →
    Does (do L.checkRegs [a, c]; L.wholeWave; return (← L.uniformW a, ← L.uniformW c)) (b.start s t l) (u, v) y →
    exec (.amk h (.a n) a c) s =
      .next (b.complete (.amk h (.a n) a c) s id { y with unis := y.unis ++ [.a n u v] })) ∧
  (∀ (h : Hdr) (n k : BitVec 3) (c : Opnd) (s : State) (b : Issue) (t : Team) (l : Nat) (base stride v : Word) (y : LS),
    Solo s b t l h.guard → vget (t.wave b.wave).a k.toNat = (base, stride) →
    Does (do L.checkReg c; L.wholeWave; L.uniformW c) (b.start s t l) v y →
    exec (.aadd h (.a n) (.a k) c) s =
      .next (b.complete (.aadd h (.a n) (.a k) c) s id { y with unis := y.unis ++ [.a n (base + v) stride] })) ∧
  (∀ (h : Hdr) (n k : BitVec 3) (c : Opnd) (s : State) (b : Issue) (t : Team) (l : Nat) (base stride v : Word) (y : LS),
    Solo s b t l h.guard → vget (t.wave b.wave).a k.toNat = (base, stride) →
    Does (do L.checkReg c; L.wholeWave; L.uniformW c) (b.start s t l) v y →
    exec (.ascl h (.a n) (.a k) c) s =
      .next (b.complete (.ascl h (.a n) (.a k) c) s id { y with unis := y.unis ++ [.a n (base * v) (stride * v)] })) ∧
  (∀ (h : Hdr) (n : BitVec 3) (r : BitVec 6) (s : State) (b : Issue) (t : Team) (base stride : Word),
    s.cur = some b → s.team? b.agent = some t → b.todo = b.lanes → t.liveLanes b.wave = b.lanes → t.work.yoke = false →
    b.wave < 32 → h.guard = none → ((t.wave b.wave).stuck.filter (·.isOf b)).flatMap (·.unis) = [] →
    (∀ k ∈ b.lanes, (t.wave b.wave).owes k (.g r) = false) → 0 ∈ b.lanes → 1 ∈ b.lanes → b.lanes.Nodup → r.toNat < t.gWin →
    (∀ k ∈ b.lanes, ∃ f, t.fibre? (t.slot b.wave k) = some f ∧ f.regs.bad = [] ∧
      vget f.regs.g r.toNat = base + stride * BitVec.ofNat 32 k) →
    ∃ s', exec (.amat h (.a n) (.g r)) s = .next s' ∧
      (s'.wave? b.agent b.wave).map (fun w => vget w.a n.toNat) = some (base, stride) ∧ s'.mem = s.mem)

/-- Branches, calls, NOP and YIELD move the PC. NOP and YIELD change nothing but the PC; BR and CALL go to PC + offset ×
8, BRU does so when its pair is undecided and falls through otherwise, BRX, RET and CALLX to an aligned 52-bit
target in a pair, read before the link; CALL and CALLX put PC + 8 into the pair D. A taken branch closes the lane's
windows. (04_isa_control R80, 04_isa_control R81, 04_isa_control R84, 02_encoding R38, 02_encoding R39.) -/
def Obligations.Branches : Prop :=
  (∀ (s : State) (b : Issue) (t : Team) (l : Nat), Solo s b t l none → exec .nop s = .next (b.complete .nop s id (b.start s t l))) ∧
  (∀ (h : Hdr) (s : State) (b : Issue) (t : Team) (l : Nat), Solo s b t l h.guard →
    exec (.yield h) s = .next (b.complete (.yield h) s id (b.start s t l))) ∧
  (∀ (h : Hdr) (off : BitVec 29) (s : State) (b : Issue) (t : Team) (l : Nat), Solo s b t l h.guard →
    exec (.br h off) s = .next (b.complete (.br h off) s id ((b.start s t l).goes (branchTo b off)))) ∧
  (∀ (r : BitVec 6) (bit : BitVec 5) (off : BitVec 29) (s : State) (b : Issue) (t : Team) (l : Nat) (v : Word) (y : LS), Solo s b t l none →
    Does (L.rdG r.toNat) (b.start s t l) v y →
    exec (.bru r bit off) s = .next (b.complete (.bru r bit off) s id
      (if v.toNat / 2 ^ bit.toNat % 4 = 0 then y.goes (branchTo b off) else y))) ∧
  (∀ p ∈ [Instr.brx, Instr.ret], ∀ (h : Hdr) (a : Opnd) (s : State) (b : Issue) (t : Team) (l : Nat) (v : Nat) (y : LS), Solo s b t l h.guard →
    Does (L.rdPair a) (b.start s t l) v y → v < 2 ^ 52 → v % 8 = 0 →
    exec (p h a) s = .next (b.complete (p h a) s id (y.goes (BitVec.ofNat 52 v)))) ∧
  (∀ (h : Hdr) (d : Opnd) (off : BitVec 29) (s : State) (b : Issue) (t : Team) (l : Nat) (y : LS), Solo s b t l h.guard →
    Does (L.wrPair d (b.pc + 8).toNat) (b.start s t l) () y →
    exec (.call h d off) s = .next (b.complete (.call h d off) s id (y.goes (branchTo b off)))) ∧
  (∀ (h : Hdr) (d a : Opnd) (s : State) (b : Issue) (t : Team) (l : Nat) (v : Nat) (y z : LS), Solo s b t l h.guard →
    Does (L.rdPair a) (b.start s t l) v y → v < 2 ^ 52 → v % 8 = 0 → Does (L.wrPair d (b.pc + 8).toNat) y () z →
    exec (.callx h d a) s = .next (b.complete (.callx h d a) s id (z.goes (BitVec.ofNat 52 v))))

/-- SPAWN makes one child, END gives up the slot. SPAWN with a free slot n (the lowest of the wave, else of the team)
adds a fibre at the target with the parent's registers, 0x8000_0000 + the parent's slot in the child's D, and writes
n to the parent's D; with none it writes 0xFFFF_FFFF. END of a fibre with nothing unfinished removes it; with the
last fibre of a team that has no active job the unit ends. The child's window base (log 5), its group (log 52) and
its own level inside a handler (log 88) are the model's choices. (04_isa_control R82, 04_isa_control R83.) -/
def Obligations.SpawnAndEnd : Prop :=
  (∀ (h : Hdr) (k : BitVec 6) (off : BitVec 29) (s : State) (b : Issue) (t : Team) (l : Nat) (f : Fibre) (n : Nat) (z : LS), Solo s b t l h.guard →
    k.toNat < t.gWin → t.fibre? (t.slot b.wave l) = some f → f.shadow = none → t.childSlot b.wave = some n →
    Does L.landedAll (b.start s t l) () (b.start s t l) →
    Does (L.wrW (.g k) (BitVec.ofNat 32 n)) { b.start s t l with
      st := s.updTeam b.agent (·.addFibre n { Fibre.start false (branchTo b off) (n * (4 * t.gWin + 8 * t.fWin)) with
        regs := { f.regs with
          g := vset f.regs.g k.toNat (0x8000_0000 + BitVec.ofNat 32 (t.slot b.wave l))
          bad := f.regs.bad.erase (false, k.toNat) }
        grp := s.tick * 2048 + 2
        remoteWrites := f.remoteWrites
        own := if (t.wave (n / t.width)).h.isSome then some (if t.work.lvl then 1 else 0) else none }) } () z →
    exec (.spawn h (.g k) off) s = .next (b.complete (.spawn h (.g k) off) s id z)) ∧
  (∀ (h : Hdr) (k : BitVec 6) (off : BitVec 29) (s : State) (b : Issue) (t : Team) (l : Nat) (z : LS), Lone s b t l h.guard →
    k.toNat < t.gWin → t.childSlot b.wave = none → Does (L.wrW (.g k) 0xFFFF_FFFF) (b.start s t l) () z →
    exec (.spawn h (.g k) off) s = .next (b.complete (.spawn h (.g k) off) s id z)) ∧
  (∀ (h : Hdr) (s : State) (b : Issue) (t : Team) (l : Nat), Solo s b t l h.guard → (t.wave b.wave).pendingLane l = false → t.fibres.length ≠ 1 →
    (t.wave b.wave).fromUser = false →
    exec (.endf h) s = .next (b.complete (.endf h) s id
      { b.start s t l with st := s.fibreEnd b.agent b.wave l })) ∧
  (∀ (h : Hdr) (s : State) (b : Issue) (t : Team) (l : Nat), Solo s b t l h.guard → (t.wave b.wave).pendingLane l = false → t.fibres.length = 1 → s.endAwaits t = false →
    s.activeJobs b.agent = [] → (t.wave b.wave).fromUser = false →
    exec (.endf h) s = .next (b.complete (.endf h) s id
      { b.start s t l with st := (s.fibreEnd b.agent b.wave l).unitEnd b.agent false }))

/-- JOIN, LEAVE, WAITM, MMOV, MOP, BALLOT and TBAR. JOIN adds the lane to the member set of the mask, LEAVE takes it out
of both sets, WAITM adds a member to the arrivals and holds it at its word, and lets a non-member pass; the check of
the mask follows each of them and MOP, which sets, adds to or cuts the member set by A. MMOV reads one of the sets,
BALLOT the bit of the executing lane whose predicate is not 0; TBAR holds the lane at its word and the barrier check
follows. (04_isa_control R85, 04_isa_control R86, 04_isa_control R87, 04_isa_control R88, 04_isa_control R89.) -/
def Obligations.MaskWords : Prop :=
  (∀ (h : Hdr) (k : BitVec 4) (s : State) (b : Issue) (t : Team) (l : Nat) (m a : Word), Solo s b t l h.guard → vget (t.wave b.wave).m k.toNat = (m, a) →
    exec (.join h k) s = .next (b.complete (.join h k) s (fun s => s.maskCheck b.agent b.wave k.toNat)
      ((b.start s t l).withMask k.toNat (m ||| laneBit l) a))) ∧
  (∀ (h : Hdr) (k : BitVec 4) (s : State) (b : Issue) (t : Team) (l : Nat) (m a : Word), Solo s b t l h.guard → vget (t.wave b.wave).m k.toNat = (m, a) →
    exec (.leave h k) s = .next (b.complete (.leave h k) s (fun s => s.maskCheck b.agent b.wave k.toNat)
      ((b.start s t l).withMask k.toNat (m &&& ~~~ laneBit l) (a &&& ~~~ laneBit l)))) ∧
  (∀ (h : Hdr) (k : BitVec 4) (s : State) (b : Issue) (t : Team) (l : Nat) (m a : Word), Solo s b t l h.guard → vget (t.wave b.wave).m k.toNat = (m, a) →
    m.getLsbD l = true →
    exec (.waitm h k) s = .next (b.complete (.waitm h k) s (fun s => s.maskCheck b.agent b.wave k.toNat)
      { (b.start s t l).withMask k.toNat m (a ||| laneBit l) with npc := b.pc, closes := true, hold := some (.atMask k) })) ∧
  (∀ (h : Hdr) (k : BitVec 4) (s : State) (b : Issue) (t : Team) (l : Nat) (m a : Word), Solo s b t l h.guard → vget (t.wave b.wave).m k.toNat = (m, a) →
    m.getLsbD l = false →
    exec (.waitm h k) s = .next (b.complete (.waitm h k) s (fun s => s.maskCheck b.agent b.wave k.toNat)
      { b.start s t l with closes := true })) ∧
  (∀ (h : Hdr) (d : Opnd) (k : BitVec 4) (arr : Bool) (s : State) (b : Issue) (t : Team) (l : Nat) (m a : Word) (z : LS), Solo s b t l h.guard →
    vget (t.wave b.wave).m k.toNat = (m, a) → Does (L.wrW d (if arr then a else m)) (b.start s t l) () z →
    exec (.mmov h d k arr) s = .next (b.complete (.mmov h d k arr) s id z)) ∧
  (∀ p ∈ ([(0, fun v _ r => (v, r &&& v)), (1, fun v m r => (m ||| v, r)),
      (2, fun v m r => (m &&& ~~~ v, r &&& (m &&& ~~~ v)))] : List (BitVec 4 × (Word → Word → Word → Word × Word))),
    ∀ (h : Hdr) (a : Opnd) (k : BitVec 4) (s : State) (b : Issue) (t : Team) (l : Nat) (v m r : Word) (y : LS), Solo s b t l h.guard →
    Does (L.rdW a) (b.start s t l) v y → (y.st.wave? b.agent b.wave).map (fun w => vget w.m k.toNat) = some (m, r) →
    exec (.mop h a k p.1) s = .next (b.complete (.mop h a k p.1) s (fun s => s.maskCheck b.agent b.wave k.toNat)
      { y.withMask k.toNat (p.2 v m r).1 (p.2 v m r).2 with effs := [] })) ∧
  (∀ (h : Hdr) (d a : Opnd) (s : State) (b : Issue) (t : Team) (l : Nat) (v w : Word) (y y' z : LS), Solo s b t l h.guard →
    Does (do L.checkRegs [a, d]; L.rdW a) (b.start s t l) v y → Does (L.rdW a) { y with st := y.st0 } w y' →
    Does (L.wrW d (if w ≠ 0 then laneBit l else 0)) y () z →
    exec (.ballot h d a) s = .next (b.complete (.ballot h d a) s id z)) ∧
  (∀ (h : Hdr) (again : Bool) (s : State) (b : Issue) (t : Team) (l : Nat), Solo s b t l h.guard →
    exec (.tbar h again) s = .next (b.complete (.tbar h again) s (fun s => s.barrierCheck b.agent)
      { b.start s t l with npc := b.pc, closes := true, hold := some (.atBar again) }))

/-- QSET, SIGN, FORK and RDV. QSET of a register that is not issuing opens it with TARGET from A and clears the
signatures; SIGN of an open register with room sets the fibre's bit and counts it, and does nothing when the bit is
set; FORK reads one header per engine, takes the lowest free table entry e, submits the jobs and writes seq ‖ e; RDV
of an unknown handle writes 0x100 and of a handle whose jobs are over their status, frees the entry, and has the
jobs' undelivered writes to other packages behind the fibre. (04_isa_control R91, 04_isa_control R92, 04_isa_control
R94, 04_isa_control R95.) -/
def Obligations.ConvergenceRegisters : Prop :=
  (∀ (h : Hdr) (a : Opnd) (q : BitVec 3) (s : State) (b : Issue) (t : Team) (l : Nat) (v : Word) (y : LS) (t' : Team), Solo s b t l h.guard →
    Does (L.rdW a) (b.start s t l) v y → y.st.team? b.agent = some t' → (vget t'.q q.toNat).st.toNat < 2 →
    exec (.qset h a q) s = .next (b.complete (.qset h a q) s id { y with
      st := y.st.updTeam b.agent (fun t => { t.clearSigs q.toNat with
        q := vset t.q q.toNat { ConvReg.zero with target := v.extractLsb' 0 10, st := 1 } }), effs := [] })) ∧
  (∀ (h : Hdr) (q : BitVec 3) (s : State) (b : Issue) (t : Team) (l : Nat) (f : Fibre) (r : ConvReg), Solo s b t l h.guard → vget t.q q.toNat = r → r.st ≠ 0 →
    t.fibre? (t.slot b.wave l) = some f → vget f.sig q.toNat = true →
    exec (.sign h q) s = .next (b.complete (.sign h q) s id (b.start s t l))) ∧
  (∀ (h : Hdr) (q : BitVec 3) (s : State) (b : Issue) (t : Team) (l : Nat) (f : Fibre) (r : ConvReg), Solo s b t l h.guard → vget t.q q.toNat = r → r.st ≠ 0 →
    t.fibre? (t.slot b.wave l) = some f → vget f.sig q.toNat = false →
    r.signed < (if r.target = 0 then 1024 else r.target.toNat) →
    exec (.sign h q) s = .next (b.complete (.sign h q) s id { b.start s t l with
      st := (s.updFibre b.agent b.wave l (fun f => { f with sig := vset f.sig q.toNat true })).updTeam b.agent
        (fun t => { t with q := vset t.q q.toNat { r with signed := r.signed + 1 } }) })) ∧
  (∀ (h : Hdr) (d a : Opnd) (set : BitVec 4) (s : State) (b : Issue) (t : Team) (l : Nat) (base e : Nat) (hds : List Nat) (y y1 y2 y3 z : LS) (t' : Team)
    (f : Fibre), Solo s b t l h.guard →
    Does (do L.checkPage a [d]; L.pageAddr 0 a) (b.start s t l) base y → base % 64 = 0 →
    Does (L.headers base (maskMacros set).length) y hds y1 →
    ((maskMacros set).zip hds).any (fun x => headerBad x.1 x.2) = false →
    y1.st.team? b.agent = some t' →
    (List.range 64).find? (fun e => !t'.forks.any (fun (k : ForkEntry) => k.ent == e)) = some e →
    y1.st.jobRoom (coreOf b.agent) (maskMacros set).length = true →
    Does (L.release 0) y1 () y2 → Does L.landedAll y2 () y2 → y2.st.fibre? b.agent b.wave l = some f →
    Does (((maskMacros set).zip hds).forM (fun x => do
      L.effect ⟨true, base, x.2⟩
      L.modSt (·.submit b.agent (BitVec.ofNat 2 y1.lvl) (engOfNum x.1)
        (some ⟨BitVec.ofNat 52 (x.2 / 2 ^ 64), x.2 / 2 ^ 12 % 2 ^ 12, f.regs.g,
          ((y2.st.wave? b.agent b.wave).getD (t.wave b.wave)).s, ((y2.st.wave? b.agent b.wave).getD (t.wave b.wave)).a, l,
          (f.regs.bad.filter (!·.1)).map (·.2)⟩)
        none (headerRanges x.2 16 (x.2 / 2 ^ 4 % 2 ^ 4)) (headerRanges x.2 40 (x.2 / 2 ^ 8 % 2 ^ 4)) none (some e)))) y2 () y3 →
    Does (L.wrW d (t'.forkSeq ++ BitVec.ofNat 6 e)) { y3 with st := y3.st.updTeam b.agent (fun t => { t with
      forks := t.forks ++ [⟨e, t'.forkSeq, (List.range (maskMacros set).length).map (y1.st.nextJob + ·)⟩],
      forkSeq := if t.forkSeq = 0x3FF_FFFF then 1 else t.forkSeq + 1 }) } () z →
    exec (.fork h d a set) s = .next (b.complete (.fork h d a set) s id z)) ∧
  (∀ (h : Hdr) (d a : Opnd) (s : State) (b : Issue) (t : Team) (l : Nat) (v : Word) (y z : LS) (t' : Team), Solo s b t l h.guard →
    Does (do L.checkRegs [a, d]; L.rdW a) (b.start s t l) v y → y.st.team? b.agent = some t' →
    t'.forks.find? (fun e => e.ent = v.toNat % 64 ∧ e.seq = v.extractLsb' 6 26) = none →
    Does (L.wrW d 0x100) { y with closes := true } () z →
    exec (.rdv h d a) s = .next (b.complete (.rdv h d a) s id z)) ∧
  (∀ (h : Hdr) (d a : Opnd) (s : State) (b : Issue) (t : Team) (l : Nat) (v : Word) (y z : LS) (t' : Team) (e : ForkEntry), Solo s b t l h.guard →
    Does (do L.checkRegs [a, d]; L.rdW a) (b.start s t l) v y → y.st.team? b.agent = some t' →
    t'.forks.find? (fun e => e.ent = v.toNat % 64 ∧ e.seq = v.extractLsb' 6 26) = some e → e.jobs.all y.st.jobOver = true →
    Does (L.wrW d (statusOf (y.st.jobsOf e.jobs))) { y with closes := true } () z →
    exec (.rdv h d a) s = .next (b.complete (.rdv h d a) s id { z with
      st := ((z.st.updTeam b.agent (fun t => { t with forks := t.forks.filter (·.ent != e.ent) })).updFibre b.agent b.wave l
        (fun f => { f with remoteWrites := f.remoteWrites ++ z.st.jobWrites e.jobs })).observe b.agent e.jobs }))

/-- ARRIVE, WAIT and CNTR. ARRIVE releases at the counter's scope (not with .rlx) and adds 1 to the level counter A;
WAIT goes on once the count has reached B, that is count − B is below 2³¹ modulo 2³²; CNTR reads, adds, sets
(clearing cancel marks) or configures the counter and writes the old count to D. (04_isa_control R96, 04_isa_control
R97, 09_isa_system R219.) -/
def Obligations.CounterWords : Prop :=
  (∀ (h : Hdr) (a : Opnd) (rlx : Bool) (s : State) (b : Issue) (t : Team) (l : Nat) (v : Word) (p q : Partition) (y z z' : LS), Solo s b t l h.guard →
    Does (do L.checkReg a; return (← L.rdW a, ← L.part)) (b.start s t l) (v, p) y →
    Does (if rlx then pure () else L.release (p.counter (v.toNat % 2 ^ 12)).scope) y () z → Does L.part z q z' →
    exec (.arrive h a rlx) s = .next (b.complete (.arrive h a rlx) s id { z with
      st := z.st.countUp q.id (v.toNat % 2 ^ 12) 1 })) ∧
  (∀ (h : Hdr) (a c : Opnd) (s : State) (b : Issue) (t : Team) (l : Nat) (u v : Word) (p : Partition) (y : LS), Solo s b t l h.guard →
    Does (do L.checkRegs [a, c]; return (← L.rdW a, ← L.part, ← L.rdW c)) (b.start s t l) (u, p, v) y →
    ((p.counter (u.toNat % 2 ^ 12)).count - v).toNat < 2 ^ 31 →
    exec (.wait h a c) s = .next (b.complete (.wait h a c) s id y)) ∧
  (∀ (lvl : BitVec 2), ∀ op ∈ cntrOps lvl, ∀ (h : Hdr) (d a c : Opnd) (s : State) (b : Issue) (t : Team) (l : Nat) (u v : Word) (p : Partition) (y z : LS),
    Solo s b t l h.guard →
    Does (do (if 2 ≤ op.1.toNat then L.needLevel 1 else pure ()); L.check 1 [a, c] [d]; return (← L.rdW a, ← L.rdW c, ← L.part))
      (b.start s t l) (u, v, p) y →
    Does (L.wrW d (p.counter (u.toNat % 2 ^ 12)).count) { y with
      st := y.st.updPart p.id (fun r => r.setCounter (u.toNat % 2 ^ 12) (op.2 v (p.counter (u.toNat % 2 ^ 12)))) } () z →
    exec (.cntr h d a c op.1 lvl) s = .next (b.complete (.cntr h d a c op.1 lvl) s id z))

/-- CTST, CBIND, CUNB, CPROD and CCONS. CTST writes 0 for an unbound entry, else 2³¹ + free slots × 2¹² + filled slots;
CBIND of a scratch ring (KIND 0) or of a receive buffer (KIND 2, CONS) within scratch fills the entry, of a STREAM
buffer (KIND 1) once its header and pages agree; CUNB clears a bound entry, makes ILL CHAN due for the fibres
blocked on it (due, and taken in a step of its own: log 59) and disposes a receive channel's vats; CPROD pushes a
slot from scratch, CCONS pops one into scratch. (04_isa_control R99, 04_isa_control R100, 04_isa_control R101,
04_isa_control R102, 10_memory R244, 10_memory R245, 20_fabric R384.) -/
def Obligations.ChannelWords : Prop :=
  (∀ (h : Hdr) (d : Opnd) (c : BitVec 6) (s : State) (b : Issue) (t : Team) (l : Nat) (y z : LS), Solo s b t l h.guard → (vget t.c c.toNat).v = false →
    Does (L.checkReg d) (b.start s t l) () y → Does (L.wrW d 0) y () z →
    exec (.ctst h d c) s = .next (b.complete (.ctst h d c) s id z)) ∧
  (∀ (h : Hdr) (d : Opnd) (c : BitVec 6) (s : State) (b : Issue) (t : Team) (l : Nat) (r : L.Ring) (y z : LS), Solo s b t l h.guard →
    (vget t.c c.toNat).v = true → Does (do L.checkReg d; L.ring (vget t.c c.toNat) false) (b.start s t l) r y →
    Does (L.wrW d (BitVec.ofNat 32 (2 ^ 31 + (r.slots - r.filled) % 2 ^ 12 * 2 ^ 12 + r.filled % 2 ^ 12))) y () z →
    exec (.ctst h d c) s = .next (b.complete (.ctst h d c) s id z)) ∧
  (∀ (h : Hdr) (a e : Opnd) (c : BitVec 6) (s : State) (b : Issue) (t : Team) (l : Nat) (base : Nat) (v : Word) (t' : Team) (y y' : LS) (slots size role kind : Nat),
    Solo s b t l h.guard →
    Does (do return (← L.rdPair a, ← L.rdW e, ← L.team)) (b.start s t l) (base, v, t') y →
    v.toNat = slots + size * 2 ^ 12 + kind * 2 ^ 25 + role * 2 ^ 27 →
    slots < 2 ^ 12 → size < 2 ^ 13 → kind < 3 → role < 4 → (vget t'.c c.toNat).v = false → role ≠ 0 → slots ≠ 0 →
    size % 4 = 0 → 4 ≤ size → size ≤ 4096 → base < 2 ^ 52 →
    (kind = 0 → base + slots * size ≤ t'.scr ∧ y' = y) →
    (kind = 1 → Does (L.bindStream base slots size) y () y') →
    (kind = 2 → role = 1 ∧ base % 64 = 0 ∧ 16 ≤ size ∧ base + 64 + slots * size ≤ t'.scr ∧
      y' = { y with st := y.st.updTeam b.agent (·.wrScr base 64 (slots * 2 ^ 96 + size * 2 ^ 128 + 2 ^ 160)) }) →
    exec (.cbind h a e c) s = .next (b.complete (.cbind h a e c) s id { y' with
      st := y'.st.updTeam b.agent (fun t => { t with c := vset t.c c.toNat ⟨BitVec.ofNat 52 base, BitVec.ofNat 12 slots,
        BitVec.ofNat 13 size, 0, 0, BitVec.ofNat 2 role, BitVec.ofNat 2 kind, true⟩ }) })) ∧
  (∀ (h : Hdr) (c : BitVec 6) (s : State) (b : Issue) (t : Team) (l : Nat), Solo s b t l h.guard → (vget t.c c.toNat).v = true →
    exec (.cunb h c) s = .next (b.complete (.cunb h c) s id { b.start s t l with
      st := (if (vget t.c c.toNat).kind = 2 then s.disposeVats b.agent (some c) else s).updTeam b.agent
        (fun u => { u with
          c := vset u.c c.toNat { vget u.c c.toNat with v := false, head := 0, filled := 0 },
          waves := u.waves.map (·.failOn c) }) })) ∧
  (∀ (h : Hdr) (a : Opnd) (c : BitVec 6) (s : State) (b : Issue) (t : Team) (l : Nat) (off v : Nat) (e : Chan) (y z : LS), Solo s b t l h.guard →
    Does (do
      L.checkReg a
      let e ← L.chan c.toNat true
      let off := (← L.rdW a).toNat
      L.checkScr off e.size.toNat 4
      return (off, e, ← L.loadScr off e.size.toNat)) (b.start s t l) (off, e, v) y →
    Does (L.chanPush c.toNat v (e.size.toNat / 4)) y () z →
    exec (.cprod h a c) s = .next (b.complete (.cprod h a c) s id z)) ∧
  (∀ (h : Hdr) (a : Opnd) (c : BitVec 6) (s : State) (b : Issue) (t : Team) (l : Nat) (off v : Nat) (e : Chan) (y z : LS), Solo s b t l h.guard →
    Does (do
      L.checkReg a
      let e ← L.chan c.toNat false
      let off := (← L.rdW a).toNat
      L.checkScr off e.size.toNat 4
      return (off, e, ← L.chanPop c.toNat false (e.size.toNat / 4))) (b.start s t l) (off, e, v) y →
    Does (L.storeScr off e.size.toNat v) y () z →
    exec (.ccons h a c) s = .next (b.complete (.ccons h a c) s id z))

/-- SHFL. SHFL of a lane alone with LA = 0 writes its own A, whatever B says, at once (log 14); in a batch of several
lanes the value captured is A as the source lane (absolute, − d, + d, XOR d, d = B modulo 32) held it before the
word when that lane executes the word inside the wave, and the lane's own A otherwise. (05_isa_integer R116,
02_encoding R43.) -/
def Obligations.ShuffleTakesTheSourceLane : Prop :=
  (∀ (h : Hdr) (d a c : Opnd) (mode : BitVec 2) (s : State) (b : Issue) (t : Team) (l : Nat) (u v : Word) (y z : LS), Solo s b t l h.guard →
    Does (do L.checkRegs [a, c, d]; return (← L.rdW a, ← L.rdW c)) (b.start s t l) (u, v) y →
    Does (L.peer l (L.rdW a)) y (some u) y →
    Landed (.shfl h d a c mode) h { Cap.zero with av := u.setWidth 128 } (pure (u.setWidth 128, 0)) y z →
    exec (.shfl h d a c mode) s = .next (b.complete (.shfl h d a c mode) s id z)) ∧
  (∀ (d a c : Opnd) (x y : LS) (t : Team) (u v w : Word) (k : Nat),
    ∀ m ∈ ([(0, fun _ n => (n : Int)), (1, fun l n => (l : Int) - n), (2, fun l n => (l : Int) + n),
      (3, fun l n => ((l ^^^ n : Nat) : Int))] : List (BitVec 2 × (Nat → Nat → Int))),
    Does (do L.checkRegs [a, c, d]; return (← L.rdW a, ← L.rdW c)) x (u, v) y → Does L.team y t y →
    m.2 x.lane (v.toNat % 32) = k →
    (k < t.width → k ∈ x.execs → Does (L.peer k (L.rdW a)) y (some w) y →
      Does (L.capShfl d a c m.1) x { Cap.zero with av := w.setWidth 128 } y) ∧
    (k ∉ x.execs → Does (L.capShfl d a c m.1) x { Cap.zero with av := u.setWidth 128 } y))

/-- FADD, FSUB, FMUL, FMIN and FMAX round once; FFMA, FSCL and FRND. FADD, FSUB, FMUL, FMIN and FMAX round the exact
result of A and B, under NEG and ABS, once in the word's mode and format, raise its flags, and write it with the
format's tag; exec answers the completed word of a lane that issues alone. FFMA rounds A × B + D once; FSCL rounds A
× 2^B once, B a signed word; FRND writes A rounded to an integer in the word's mode and raises no flag.
(06_isa_float R125, 06_isa_float R126, 06_isa_float R127, 03_numbers R58, 03_numbers R59.) -/
def Obligations.FloatTwoSources : Prop :=
  (∀ p ∈ float2s, ∀ (h : Hdr) (d a c : Opnd) (o : FOpt) (s : State) (b : Issue) (t : Team) (l : Nat) (x1 x2 : DWord × BitVec 4) (v : DWord) (y y' z : LS),
    Solo s b t l h.guard →
    Does (do L.checkF3 o.fp64 [a, c] [d]; return (← L.rdD a, ← L.rdD c)) (b.start s t l) (x1, x2) y →
    Does (L.settle (exactRnd (fmtOf o.fp64) (Rm.ofBits o.rm)
      (p.2 (Rm.ofBits o.rm) (fVals o x1 x2).1 (fVals o x1 x2).2))) y v y' →
    Does (L.wrD d v (if o.fp64 then 1 else 2)) y' () z →
    exec (p.1 h d a c o) s = .next (b.complete (p.1 h d a c o) s id z)) ∧
  (∀ (h : Hdr) (d a c : Opnd) (o : FOpt) (s : State) (b : Issue) (t : Team) (l : Nat) (x1 x2 x3 : DWord × BitVec 4) (v : DWord) (y y' z : LS),
    Solo s b t l h.guard →
    Does (do L.checkF3 o.fp64 [a, c, d] [d]; return (← L.rdD a, ← L.rdD c, ← L.rdD d)) (b.start s t l) (x1, x2, x3) y →
    Does (L.settle (exactRnd (fmtOf o.fp64) (Rm.ofBits o.rm) (fmaX (Rm.ofBits o.rm) (fVals o x1 x2).1 (fVals o x1 x2).2
      ((fmtOf o.fp64).value x3.1.toNat)))) y v y' →
    Does (L.wrD d v (if o.fp64 then 1 else 2)) y' () z →
    exec (.ffma h d a c o) s = .next (b.complete (.ffma h d a c o) s id z)) ∧
  (∀ (h : Hdr) (d a c : Opnd) (o : FOpt) (s : State) (b : Issue) (t : Team) (l : Nat) (x1 : DWord × BitVec 4) (n : Word) (v : DWord) (y y' z : LS),
    Solo s b t l h.guard →
    Does (do L.checkReg c; L.checkF3 o.fp64 [a] [d]; return (← L.rdD a, ← L.rdW c)) (b.start s t l) (x1, n) y →
    Does (L.settle (exactRnd (fmtOf o.fp64) (Rm.ofBits o.rm) (.plain (sclX (fA o x1.1) n.toInt)))) y v y' →
    Does (L.wrD d v (if o.fp64 then 1 else 2)) y' () z →
    exec (.fscl h d a c o) s = .next (b.complete (.fscl h d a c o) s id z)) ∧
  (∀ (h : Hdr) (d a : Opnd) (o : FOpt) (s : State) (b : Issue) (t : Team) (l : Nat) (x1 : DWord × BitVec 4) (v : DWord) (y y' z : LS), Solo s b t l h.guard →
    Does (do L.checkF3 o.fp64 [a] [d]; L.rdD a) (b.start s t l) x1 y →
    Does (L.settle ⟨(exactRnd (fmtOf o.fp64) (Rm.ofBits o.rm) (.plain (rndX (Rm.ofBits o.rm) (fA o x1.1)))).code, 0⟩)
      y v y' →
    Does (L.wrD d v (if o.fp64 then 1 else 2)) y' () z →
    exec (.frnd h d a o) s = .next (b.complete (.frnd h d a o) s id z))

/-- FDIV and the floating words of one source that may come late. FDIV, FSQRT, FRCP, FRSQ, FEX2, FLG2, FSIN and FCOS
with LA = 0 and no result of the lane pending for D compute from the captured sources, raise the flags of the one
rounding (where the enclosure of a transcendental value decides no rounding it is free: log 57), and land at once
(log 14) with the format's tag. (06_isa_float R126, 02_encoding R43.) -/
def Obligations.FloatLong : Prop :=
  (∀ (h : Hdr) (d a c : Opnd) (o : FOpt) (s : State) (b : Issue) (t : Team) (l : Nat) (k : Cap) (y z : LS), Solo s b t l h.guard →
    Does (L.capF o.fp64 d a c) (b.start s t l) k y →
    Landed (.fdiv h d a c o) h k (do
      let v ← L.settle (exactRnd (fmtOf o.fp64) (Rm.ofBits o.rm)
        (divX (fA o (k.av.setWidth 64)) (fB o (k.bv.setWidth 64))))
      return (v.setWidth 128, if o.fp64 then 1 else 2)) y z →
    exec (.fdiv h d a c o) s = .next (b.complete (.fdiv h d a c o) s id z)) ∧
  (∀ (o : FOpt), ∀ p ∈ float1Longs o, ∀ (h : Hdr) (d a : Opnd) (s : State) (b : Issue) (t : Team) (l : Nat) (k : Cap) (y z : LS), Solo s b t l h.guard →
    Does (L.capF o.fp64 d a a) (b.start s t l) k y →
    Landed (p.1 h d a o) h k (do
      let v ← L.settle (p.2 (Rm.ofBits o.rm) (fA o (k.av.setWidth 64)))
      return (v.setWidth 128, if o.fp64 then 1 else 2)) y z →
    exec (p.1 h d a o) s = .next (b.complete (p.1 h d a o) s id z))

/-- FCMP, FCLS, FSEL, FMOV, FTAG and FRAW. FCMP writes the relation as a decided pair, or 00 when an operand is a NaN;
FCLS writes the class bit; FSEL reads both sources and writes the chosen one with its tag; FMOV copies bits and tag,
FTAG bits with the tag named, FRAW packs two words as RAW or splits an f register into a g pair. (06_isa_float R128,
06_isa_float R129, 06_isa_float R130, 06_isa_float R131, 03_numbers R72.) -/
def Obligations.FloatTestsAndMoves : Prop :=
  (∀ (h : Hdr) (d a c : Opnd) (o : TOpt) (s : State) (b : Issue) (t : Team) (l : Nat) (x1 x2 : DWord × BitVec 4) (v : Word) (y z : LS), Solo s b t l h.guard →
    Does (do L.checkF3 o.wide [a, c] [d]; return (← L.rdD a, ← L.rdD c, ← L.rdW d)) (b.start s t l) (x1, x2, v) y →
    Does (L.wrW d (BitVec.ofNat 32 (setBits v.toNat o.pb.toNat 2
      (match fRel o.rel.toNat ((fmtOf o.wide).value x1.1.toNat) ((fmtOf o.wide).value x2.1.toNat) with
        | some true => 1 | some false => 2 | none => 0)))) y () z →
    exec (.fcmp h d a c o) s = .next (b.complete (.fcmp h d a c o) s id z)) ∧
  (∀ (h : Hdr) (d a : Opnd) (o : FOpt) (s : State) (b : Issue) (t : Team) (l : Nat) (x1 : DWord × BitVec 4) (y z : LS), Solo s b t l h.guard →
    Does (do L.checkF3 o.fp64 [a] [d]; L.rdD a) (b.start s t l) x1 y →
    Does (L.wrW d (BitVec.ofNat 32 (classOf (fmtOf o.fp64) o.absA o.negA x1.1.toNat))) y () z →
    exec (.fcls h d a o) s = .next (b.complete (.fcls h d a o) s id z)) ∧
  (∀ (h : Hdr) (d a c : Opnd) (cr : BitVec 6) (cb : BitVec 5) (s : State) (b : Issue) (t : Team) (l : Nat) (w : Word) (x1 x2 : DWord × BitVec 4) (y z : LS),
    Solo s b t l h.guard →
    Does (do L.checkG cr.toNat; L.checkRegs [a, c, d]; return (← L.rdG cr.toNat, ← L.rdD a, ← L.rdD c)) (b.start s t l)
      (w, x1, x2) y →
    Does (if w.getLsbD cb.toNat then L.wrD d x1.1 x1.2 else L.wrD d x2.1 x2.2) y () z →
    exec (.fsel h d a c cr cb) s = .next (b.complete (.fsel h d a c cr cb) s id z)) ∧
  (∀ (h : Hdr) (d a : Opnd) (s : State) (b : Issue) (t : Team) (l : Nat) (x1 : DWord × BitVec 4) (y z : LS), Solo s b t l h.guard →
    Does (do L.check 2 [a] [d]; L.rdD a) (b.start s t l) x1 y → Does (L.wrD d x1.1 x1.2) y () z →
    exec (.fmov h d a) s = .next (b.complete (.fmov h d a) s id z)) ∧
  (∀ (h : Hdr) (d a : Opnd) (tag : BitVec 4) (s : State) (b : Issue) (t : Team) (l : Nat) (x1 : DWord × BitVec 4) (y z : LS), Solo s b t l h.guard →
    Does (do L.check 2 [a] [d]; L.rdD a) (b.start s t l) x1 y → Does (L.wrD d x1.1 tag) y () z →
    exec (.ftag h d a tag) s = .next (b.complete (.ftag h d a tag) s id z)) ∧
  (∀ (h : Hdr) (n : BitVec 5) (a c : Opnd) (s : State) (b : Issue) (t : Team) (l : Nat) (u v : Word) (y z : LS), Solo s b t l h.guard →
    Does (do L.checkRegs [a, c, .f n]; return (← L.rdW a, ← L.rdW c)) (b.start s t l) (u, v) y →
    Does (L.wrD (.f n) (v ++ u) 13) y () z →
    exec (.fraw h (.f n) a c) s = .next (b.complete (.fraw h (.f n) a c) s id z)) ∧
  (∀ (h : Hdr) (n : BitVec 6) (a c : Opnd) (s : State) (b : Issue) (t : Team) (l : Nat) (x1 : DWord × BitVec 4) (y z : LS), Solo s b t l h.guard →
    Does (do L.checkRegs [a, .g n]; L.rdD a) (b.start s t l) x1 y → Does (L.wrPair (.g n) x1.1.toNat) y () z →
    exec (.fraw h (.g n) a c) s = .next (b.complete (.fraw h (.g n) a c) s id z))

/-- FCVT, FTOI, ITOF and FDOT. FCVT converts as many elements as fit: a group of the source picked by B into the target,
or every source element into the group of D that B picks, keeping the rest of D when it already has the target tag;
FTOI rounds to an integer and saturates to its range, ITOF rounds an integer (FTOI with UNS = 1 converts to an
unsigned word as R134 says; that R124 refuses the form is set aside by the model's choice, log 72); FDOT rounds the
sum of the products of equal-format elements to FP32, then rounds its addition to D. (06_isa_float R132,
06_isa_float R133, 06_isa_float R134, 06_isa_float R135.) -/
def Obligations.FloatConversions : Prop :=
  (∀ (h : Hdr) (d a c : Opnd) (o : VOpt) (s : State) (b : Issue) (t : Team) (l : Nat) (x1 : DWord × BitVec 4) (w : Word) (old ns ws nt wt : Nat)
    (fs ft : Option Fmt) (v : DWord) (y y' z : LS), Solo s b t l h.guard →
    Does (do
      L.checkRegs [a, c, d]
      L.tagIn [1, 2, 5, 6, 7, 8, 9, 10, 11] a
      return (← L.rdD a, ← L.rdW c, ← L.rdTagged d o.ttag)) (b.start s t l) (x1, w, old) y →
    tagElems x1.2 = some (ns, ws, fs) → tagElems o.ttag = some (nt, wt, ft) →
    (nt ≤ ns → (w.toNat + 1) * nt ≤ ns ∧ Does (L.settle (convertRun (Rm.ofBits o.rm) o.sat wt ft
      (fun k => elemValue x1.1.toNat ws fs (w.toNat * nt + k)) 0 nt 0)) y v y') →
    (ns < nt → (w.toNat + 1) * ns ≤ nt ∧ Does (L.settle (convertRun (Rm.ofBits o.rm) o.sat wt ft
      (fun k => elemValue x1.1.toNat ws fs k) (w.toNat * ns) ns old)) y v y') →
    Does (L.wrD d v o.ttag) y' () z →
    exec (.fcvt h d a c o) s = .next (b.complete (.fcvt h d a c o) s id z)) ∧
  (∀ (h : Hdr) (d a : Opnd) (o : VOpt) (s : State) (b : Issue) (t : Team) (l : Nat) (x1 : DWord × BitVec 4) (r : Int × Fl) (y y' z : LS), Solo s b t l h.guard →
    Does (do L.checkRegs [a, d]; L.tagIn [1, 2] a; L.rdD a) (b.start s t l) x1 y →
    r = toIntX (Rm.ofBits o.rm) (if o.uns then 0 else -(2 ^ 31)) (if o.uns then 2 ^ 32 - 1 else 2 ^ 31 - 1)
      ((fmtOf (x1.2 == 1)).value x1.1.toNat) →
    Does (L.raise r.2) y () y' → Does (L.wrW d (BitVec.ofInt 32 r.1)) y' () z →
    exec (.ftoi h d a o) s = .next (b.complete (.ftoi h d a o) s id z)) ∧
  (∀ (h : Hdr) (d a : Opnd) (o : VOpt) (s : State) (b : Issue) (t : Team) (l : Nat) (u : Word) (v : DWord) (y y' z : LS), Solo s b t l h.guard →
    Does (do L.checkRegs [a, d]; L.rdW a) (b.start s t l) u y →
    Does (L.settle (exactRnd (fmtOf (o.ttag == 1)) (Rm.ofBits o.rm)
      (.plain (FV.ofInt (if o.uns then (u.toNat : Int) else u.toInt))))) y v y' →
    Does (L.wrD d v o.ttag) y' () z →
    exec (.itof h d a o) s = .next (b.complete (.itof h d a o) s id z)) ∧
  (∀ (h : Hdr) (d a c : Opnd) (s : State) (b : Issue) (t : Team) (l : Nat) (x1 x2 x3 : DWord × BitVec 4) (v : DWord) (y y' z : LS), Solo s b t l h.guard →
    Does (do
      L.checkRegs [a, c, d]
      L.tagIn [5, 6, 7, 8, 9, 10] a
      L.tagIn [5, 6, 7, 8, 9, 10] c
      L.tagIn [2] d
      return (← L.rdD a, ← L.rdD c, ← L.rdD d)) (b.start s t l) (x1, x2, x3) y → x1.2 = x2.2 →
    Does (L.settle (accumulate (x3.1.toNat % 2 ^ 32)
      (groupSum ((elemsOf x1.1.toNat x1.2).zip (elemsOf x2.1.toNat x2.2)) (some 0)))) y v y' →
    Does (L.wrD d v 2) y' () z →
    exec (.fdot h d a c) s = .next (b.complete (.fdot h d a c) s id z))

/-- XADD, XSUB, XMUL, XHULL, XMEET, XSQR, XNEG, XABS, XLO, XHI, XMID, XWID, XMK and XPT; XDIV, XSQRT, XEXP and XLD. The
interval words of a lane that issues alone write the exact bounds of the table rounded outward (XMEET when the two
meet), the point words the code of a bound, midpoint or width with the point tag, XMK and XPT the interval of two
points or of one when it is one. With LA = 0 and nothing pending for D, XDIV, XSQRT and XEXP compute from their
captured intervals, the bounds rounded outward (XEXP each bound in its own direction; a bound whose rounding no
enclosure decides is free, log 57), and XLD loads and checks an interval; the result lands at once (log 14).
(06_isa_float R137, 06_isa_float R138, 06_isa_float R139, 03_numbers R68, 03_numbers R69, 06_isa_float R143,
02_encoding R43.) -/
def Obligations.IntervalWords : Prop :=
  (∀ p ∈ iv2s, ∀ (h : Hdr) (d a c : Opnd) (x : XOpt) (s : State) (b : Issue) (t : Team) (l : Nat) (u v : Iv) (y z : LS), Solo s b t l h.guard →
    Does (do
      L.checkRegs (ivRegs x.x64 d)
      L.checkIv x.x64 a
      L.checkIv x.x64 c
      return (← L.rdIv x.x64 x.negA a, ← L.rdIv x.x64 x.negB c)) (b.start s t l) (u, v) y → p.2.2 u v = true →
    Does (L.wrIvBits x.x64 d (ivBits x.x64 (p.2.1 u v))) y () z →
    exec (p.1 h d a c x) s = .next (b.complete (p.1 h d a c x) s id z)) ∧
  (∀ p ∈ iv1s, ∀ (h : Hdr) (d a : Opnd) (x : XOpt) (s : State) (b : Issue) (t : Team) (l : Nat) (u : Iv) (y z : LS), Solo s b t l h.guard →
    Does (do
      L.checkRegs (ivRegs x.x64 d)
      L.checkIv x.x64 a
      L.rdIv x.x64 x.negA a) (b.start s t l) u y →
    Does (L.wrIvBits x.x64 d (ivBits x.x64 (p.2 u))) y () z →
    exec (p.1 h d a x) s = .next (b.complete (p.1 h d a x) s id z)) ∧
  (∀ (x : XOpt), ∀ p ∈ ivPoints x, ∀ (h : Hdr) (d a : Opnd) (s : State) (b : Issue) (t : Team) (l : Nat) (u : Iv) (y z : LS), Solo s b t l h.guard →
    Does (do L.checkReg d; L.checkIv x.x64 a; L.rdIv x.x64 x.negA a) (b.start s t l) u y →
    Does (L.wrD d (BitVec.ofNat 64 (p.2 u)) (if x.x64 then 1 else 2)) y () z →
    exec (p.1 h d a x) s = .next (b.complete (p.1 h d a x) s id z)) ∧
  (∀ (h : Hdr) (d a c : Opnd) (x : XOpt) (s : State) (b : Issue) (t : Team) (l : Nat) (u v : FV) (y z : LS), Solo s b t l h.guard →
    Does (do
      L.checkRegs (ivRegs x.x64 d)
      L.checkF3 x.x64 [a, c] []
      return (← L.rdPoint x.x64 x.negA a, ← L.rdPoint x.x64 x.negB c)) (b.start s t l) (u, v) y → ivBad (u, v) = none →
    Does (L.wrIvBits x.x64 d (ivBits x.x64 (plusZero u, plusZero v))) y () z →
    exec (.xmk h d a c x) s = .next (b.complete (.xmk h d a c x) s id z)) ∧
  (∀ (h : Hdr) (d a : Opnd) (x : XOpt) (s : State) (b : Issue) (t : Team) (l : Nat) (u : FV) (y z : LS), Solo s b t l h.guard →
    Does (do
      L.checkRegs (ivRegs x.x64 d)
      L.checkF3 x.x64 [a] []
      L.rdPoint x.x64 x.negA a) (b.start s t l) u y → ivBad (u, u) = none →
    Does (L.wrIvBits x.x64 d (ivBits x.x64 (plusZero u, plusZero u))) y () z →
    exec (.xpt h d a x) s = .next (b.complete (.xpt h d a x) s id z)) ∧
  (∀ (h : Hdr) (d a c : Opnd) (x : XOpt) (s : State) (b : Issue) (t : Team) (l : Nat) (k : Cap) (u v r : Iv) (y z : LS), Solo s b t l h.guard →
    Does (L.capIv x.x64 d [a, c]) (b.start s t l) k y →
    Does (do return (← L.ivOf x.x64 x.negA k.av, ← L.ivOf x.x64 x.negB k.bv)) y (u, v) y → divIv u v = some r →
    Landed (.xdiv h d a c x) h k (pure (ivBits x.x64 r, if x.x64 then 4 else 3)) y z →
    exec (.xdiv h d a c x) s = .next (b.complete (.xdiv h d a c x) s id z)) ∧
  (∀ (h : Hdr) (d a : Opnd) (x : XOpt) (s : State) (b : Issue) (t : Team) (l : Nat) (k : Cap) (u r : Iv) (y z : LS), Solo s b t l h.guard →
    Does (L.capIv x.x64 d [a]) (b.start s t l) k y → Does (L.ivOf x.x64 x.negA k.av) y u y → sqrtIv u = some r →
    Landed (.xsqrt h d a x) h k (pure (ivBits x.x64 r, if x.x64 then 4 else 3)) y z →
    exec (.xsqrt h d a x) s = .next (b.complete (.xsqrt h d a x) s id z)) ∧
  (∀ (h : Hdr) (d a : Opnd) (x : XOpt) (s : State) (b : Issue) (t : Team) (l : Nat) (k : Cap) (u : Iv) (y z : LS), Solo s b t l h.guard →
    Does (L.capIv x.x64 d [a]) (b.start s t l) k y → Does (L.ivOf x.x64 x.negA k.av) y u y →
    Landed (.xexp h d a x) h k (pure (packIv x.x64 (expR (fmtOf x.x64) .rdn u.1).code (expR (fmtOf x.x64) .rup u.2).code,
      if x.x64 then 4 else 3)) y z →
    exec (.xexp h d a x) s = .next (b.complete (.xexp h d a x) s id z)) ∧
  (∀ (h : Hdr) (d : Opnd) (wid : Wid) (m : MemOpnd) (s : State) (b : Issue) (t : Team) (l : Nat) (k : Cap) (y z : LS), Solo s b t l h.guard →
    Does (L.capMem (ivRegs (wid == .q) d) m) (b.start s t l) k y →
    Landed (.xld h d wid m) h k (do
      let a ← L.access 0 m (widSize wid) k.av.toNat k.bv.toNat
      let v ← L.readMem m .load a (widSize wid)
      let iv ← L.ivOf (wid == .q) false (BitVec.ofNat 128 v)
      return (ivBits (wid == .q) iv, if wid == .q then 4 else 3)) y z →
    exec (.xld h d wid m) s = .next (b.complete (.xld h d wid m) s id z))

/-- XCMP, XIN, XSUBS, XBIS, XST and XCVT. XCMP, XIN and XSUBS write 01 where every pair of points agrees, 10 where none
does and 00 otherwise into the pair of D; XBIS halves an interval at its midpoint, the child taking the upper half,
or writes 0xFFFF_FFFE where it cannot be halved and 0xFFFF_FFFF where no slot is free (the child's window base,
group and own level inside a handler are the model's choices, logs 5, 52 and 88); XST stores a checked interval,
XCVT converts an interval or a point outward. (06_isa_float R140, 06_isa_float R141, 06_isa_float R142, 06_isa_float
R143, 06_isa_float R144.) -/
def Obligations.IntervalTestsAndBisection : Prop :=
  (∀ (o : TOpt), ∀ p ∈ ivTests o.rel.toNat, ∀ (h : Hdr) (d a c : Opnd) (s : State) (b : Issue) (t : Team) (l : Nat) (u v : Iv) (w : Word) (y z : LS),
    Solo s b t l h.guard →
    Does (do
      L.checkReg d
      L.checkIv o.wide a
      L.checkIv o.wide c
      return (← L.rdIv o.wide false a, ← L.rdIv o.wide false c, ← L.rdW d)) (b.start s t l) (u, v, w) y →
    Does (L.wrW d (BitVec.ofNat 32 (setBits w.toNat o.pb.toNat 2
      (match p.2 u v with | some true => 1 | some false => 2 | none => 0)))) y () z →
    exec (p.1 h d a c o) s = .next (b.complete (p.1 h d a c o) s id z)) ∧
  (∀ (h : Hdr) (d a e : Opnd) (x : XOpt) (s : State) (b : Issue) (t : Team) (l : Nat) (v : Iv) (y z : LS), Solo s b t l h.guard →
    Does (do L.checkRegs (e :: ivRegs x.x64 d); L.checkIv x.x64 a; L.rdIv x.x64 false a) (b.start s t l) v y →
    (v.1.lt ((fmtOf x.x64).value (midCode x.x64 v)) && ((fmtOf x.x64).value (midCode x.x64 v)).lt v.2) = false →
    Does L.team y t y →
    Does (do L.wrIvBits x.x64 d (ivBits x.x64 v); L.wrW e 0xFFFF_FFFE) y () z →
    exec (.xbis h d a e x) s = .next (b.complete (.xbis h d a e x) s id z)) ∧
  (∀ (h : Hdr) (d a : Opnd) (k : BitVec 6) (x : XOpt) (s : State) (b : Issue) (t : Team) (l : Nat) (v : Iv) (t' : Team) (y z : LS), Lone s b t l h.guard →
    Does (do L.checkRegs (.g k :: ivRegs x.x64 d); L.checkIv x.x64 a; L.rdIv x.x64 false a) (b.start s t l) v y →
    (v.1.lt ((fmtOf x.x64).value (midCode x.x64 v)) && ((fmtOf x.x64).value (midCode x.x64 v)).lt v.2) = true →
    Does L.team y t' y → t'.childSlot b.wave = none →
    Does (do L.wrIvBits x.x64 d (ivBits x.x64 v); L.wrW (.g k) 0xFFFF_FFFF) y () z →
    exec (.xbis h d a (.g k) x) s = .next (b.complete (.xbis h d a (.g k) x) s id z)) ∧
  (∀ (h : Hdr) (d a e : Opnd) (x : XOpt) (s : State) (b : Issue) (t : Team) (l : Nat) (v : Iv) (t' : Team) (f : Fibre) (n : Nat) (y z : LS), Solo s b t l h.guard →
    Does (do L.checkRegs (e :: ivRegs x.x64 d); L.checkIv x.x64 a; L.rdIv x.x64 false a) (b.start s t l) v y →
    (v.1.lt ((fmtOf x.x64).value (midCode x.x64 v)) && ((fmtOf x.x64).value (midCode x.x64 v)).lt v.2) = true →
    Does L.team y t' y → t'.childSlot b.wave = some n → y.st.fibre? b.agent b.wave l = some f → f.shadow = none →
    Does L.landedAll y () y →
    Does (do
      L.wrIvBits x.x64 d (ivBits x.x64 (v.1, (fmtOf x.x64).value (midCode x.x64 v)))
      L.wrW e (BitVec.ofNat 32 n)) { y with
        st := y.st.updTeam b.agent (·.addFibre n { Fibre.start false (b.pc + 8) (n * (4 * t'.gWin + 8 * t'.fWin)) with
          regs := f.regs.bisect x.x64 d e (ivBits x.x64 ((fmtOf x.x64).value (midCode x.x64 v), v.2))
            (0x8000_0000 + BitVec.ofNat 32 (t'.slot b.wave l))
          grp := y.st.tick * 2048 + 2
          remoteWrites := f.remoteWrites
          own := if (t'.wave (n / t'.width)).h.isSome then some (if t'.work.lvl then 1 else 0) else none }) } () z →
    exec (.xbis h d a e x) s = .next (b.complete (.xbis h d a e x) s id z)) ∧
  (∀ (h : Hdr) (d : Opnd) (wid : Wid) (m : MemOpnd) (s : State) (b : Issue) (t : Team) (l : Nat) (v : Iv) (ea : Nat) (y z : LS), Solo s b t l h.guard →
    Does (do
      L.checkRegs (ivRegs (wid == .q) d)
      L.checkAddr m
      L.checkIv (wid == .q) d
      return (← L.rdIv (wid == .q) false d, ← L.memAddr 1 m wid)) (b.start s t l) (v, ea) y →
    Does (L.writeMem m .store ea (widSize wid) (ivBits (wid == .q) v).toNat) y () z →
    exec (.xst h d wid m) s = .next (b.complete (.xst h d wid m) s id z)) ∧
  (∀ (h : Hdr) (d a : Opnd) (o : VOpt) (s : State) (b : Issue) (t : Team) (l : Nat) (v : Iv) (y z : LS), Solo s b t l h.guard →
    Does (do L.checkRegs (ivRegs (o.ttag == 4) d); L.cvtSource a) (b.start s t l) v y →
    Does (L.wrIvBits (o.ttag == 4) d (ivBits (o.ttag == 4) v)) y () z →
    exec (.xcvt h d a o) s = .next (b.complete (.xcvt h d a o) s id z))

/-- LD, LDA, LDF, LDP and LDS. A load with LA = 0 and nothing pending for its destination forms its address from A, B
and the scaled offset, checks it, reads its bytes, and lands them at once (log 14): LD and LDA extended by their
width, LDF tagged F32 for .w and F64 otherwise, LDP in the register that index register D names, LDS once for a
whole wave in its s registers (one access, log 15). (07_isa_memory R151, 07_isa_memory R152, 07_isa_memory R153,
07_isa_memory R154, 07_isa_memory R163, 02_encoding R40, 02_encoding R43.) -/
def Obligations.LoadWords : Prop :=
  (∀ (h : Hdr) (d : Opnd) (wid : Wid) (m : MemOpnd) (s : State) (b : Issue) (t : Team) (l : Nat) (av bv : Nat) (y z : LS), Solo s b t l h.guard →
    Does (do L.checkRegs (regRun d (widRegs wid)); L.checkAddr m; L.addrOps m) (b.start s t l) (av, bv) y →
    Landed (.ld h d wid m) h (addrCap av bv 0) (loadFrom m wid .load (loaded wid) 0 (addrCap av bv 0)) y z →
    exec (.ld h d wid m) s = .next (b.complete (.ld h d wid m) s id z)) ∧
  (∀ (h : Hdr) (d : Opnd) (wid : Wid) (m : MemOpnd) (s : State) (b : Issue) (t : Team) (l : Nat) (av bv : Nat) (y z : LS), Solo s b t l h.guard →
    Does (do L.checkRegs (regRun d (widRegs wid)); L.checkAddr m; L.addrOps m) (b.start s t l) (av, bv) y →
    Landed (.lda h d wid m) h (addrCap av bv 0) (loadFrom m wid .lda (loaded wid) 0 (addrCap av bv 0)) y z →
    exec (.lda h d wid m) s = .next (b.complete (.lda h d wid m) s id z)) ∧
  (∀ (h : Hdr) (d : Opnd) (wid : Wid) (m : MemOpnd) (s : State) (b : Issue) (t : Team) (l : Nat) (av bv : Nat) (y z : LS), Solo s b t l h.guard →
    Does (do L.checkRegs (regRun d (if wid = .q then 2 else 1)); L.checkAddr m; L.addrOps m) (b.start s t l) (av, bv) y →
    Landed (.ldf h d wid m) h (addrCap av bv 0) (loadFrom m wid .load (BitVec.ofNat 128) (if wid = .w then 2 else 1) (addrCap av bv 0))
      y z →
    exec (.ldf h d wid m) s = .next (b.complete (.ldf h d wid m) s id z)) ∧
  (∀ (h : Hdr) (n : BitVec 2) (wid : Wid) (m : MemOpnd) (s : State) (b : Issue) (t : Team) (l : Nat) (r : Nat) (v : Word) (av bv : Nat) (y z : LS),
    Solo s b t l h.guard →
    Does (do
      let r ← L.arrayReg (.i n) wid
      L.checkAddr m
      let x ← L.addrOps m
      return (r, x, ← L.rdI n.toNat)) (b.start s t l) (r, (av, bv), v) y →
    Landed (.ldp h (.i n) wid m) h (addrCap av bv v) (loadFrom m wid .load (loaded wid) 0 (addrCap av bv v)) y z →
    exec (.ldp h (.i n) wid m) s = .next (b.complete (.ldp h (.i n) wid m) s id z)) ∧
  (∀ (h : Hdr) (d : Opnd) (wid : Wid) (m : MemOpnd) (s : State) (b : Issue) (t : Team) (l : Nat) (av bv : Nat) (y z : LS), Solo s b t l h.guard →
    Does (do L.wholeWave; L.checkAddr m; L.addrOps m) (b.start s t l) (av, bv) y →
    Landed (.lds h d wid m) h (addrCap av bv 0) (loadFrom m wid .load (loaded wid) 0 (addrCap av bv 0)) y z → unisAgree z.unis = true →
    exec (.lds h d wid m) s = .next (b.complete (.lds h d wid m) s id z))

/-- ST, STF, STP, STL and ZFILL. A store reads its registers, forms and checks its address, and writes as many bytes as
its width to scratch or the global space: ST the registers from D on, STF f registers, STP the g registers that
index register D names, STL after a release at the page's scope; ZFILL writes B zero bytes, a multiple of 4 up to
4096 inside one page. (07_isa_memory R151, 07_isa_memory R152, 07_isa_memory R153, 07_isa_memory R157, 07_isa_memory
R163.) -/
def Obligations.StoreWords : Prop :=
  (∀ (h : Hdr) (d : Opnd) (wid : Wid) (m : MemOpnd) (s : State) (b : Issue) (t : Team) (l : Nat) (v ea : Nat) (y z : LS), Solo s b t l h.guard →
    Does (do
      L.checkRegs (regRun d (widRegs wid))
      L.checkAddr m
      let v ← L.rdRun (match wid with | .d => regRun d 2 | .q => regRun d 4 | _ => [d])
      let (av, bv) ← L.addrOps m
      return (v, ← L.access 1 m (bytesOf wid) av bv)) (b.start s t l) (v, ea) y →
    Does (if m.scratch then L.storeScr ea (bytesOf wid) (v % 2 ^ (8 * bytesOf wid))
      else L.store .store ea (bytesOf wid) (v % 2 ^ (8 * bytesOf wid))) y () z →
    exec (.st h d wid m) s = .next (b.complete (.st h d wid m) s id z)) ∧
  (∀ (h : Hdr) (d : Opnd) (wid : Wid) (m : MemOpnd) (s : State) (b : Issue) (t : Team) (l : Nat) (v ea : Nat) (y z : LS), Solo s b t l h.guard →
    Does (do
      L.checkRegs (regRun d (if wid = .q then 2 else 1))
      L.checkAddr m
      let v ← L.rdFRun (regRun d (if wid = .q then 2 else 1))
      let (av, bv) ← L.addrOps m
      return (v, ← L.access 1 m (bytesOf wid) av bv)) (b.start s t l) (v, ea) y →
    Does (if m.scratch then L.storeScr ea (bytesOf wid) (v % 2 ^ (8 * bytesOf wid))
      else L.store .store ea (bytesOf wid) (v % 2 ^ (8 * bytesOf wid))) y () z →
    exec (.stf h d wid m) s = .next (b.complete (.stf h d wid m) s id z)) ∧
  (∀ (h : Hdr) (d : Opnd) (wid : Wid) (m : MemOpnd) (s : State) (b : Issue) (t : Team) (l : Nat) (lo hi : Word) (ea : Nat) (y z : LS), Solo s b t l h.guard →
    Does (do
      let r ← L.arrayReg d wid
      L.checkAddr m
      let lo ← L.rdG r
      let hi ← if wid = .d then L.rdG (r + 1) else pure 0
      let (av, bv) ← L.addrOps m
      return (lo, hi, ← L.access 1 m (bytesOf wid) av bv)) (b.start s t l) (lo, hi, ea) y →
    Does (if m.scratch then L.storeScr ea (bytesOf wid) ((lo.toNat + 2 ^ 32 * hi.toNat) % 2 ^ (8 * bytesOf wid))
      else L.store .store ea (bytesOf wid) ((lo.toNat + 2 ^ 32 * hi.toNat) % 2 ^ (8 * bytesOf wid))) y () z →
    exec (.stp h d wid m) s = .next (b.complete (.stp h d wid m) s id z)) ∧
  (∀ (h : Hdr) (d : Opnd) (wid : Wid) (m : MemOpnd) (s : State) (b : Issue) (t : Team) (l : Nat) (v ea : Nat) (pa : Option Nat) (leaf : QWord) (y y' z : LS),
    Solo s b t l h.guard →
    Does (do
      L.checkRegs (regRun d (widRegs wid))
      L.checkAddr m
      let v ← L.rdRun (match wid with | .d => regRun d 2 | .q => regRun d 4 | _ => [d])
      let (av, bv) ← L.addrOps m
      let a ← L.access 1 m (bytesOf wid) av bv
      return (v, a, ← L.locate .stl a (bytesOf wid))) (b.start s t l) (v, ea, pa, leaf) y →
    Does (L.release (lfScope leaf)) y () y' →
    Does (L.store .stl ea (bytesOf wid) (v % 2 ^ (8 * bytesOf wid))) y' () z →
    exec (.stl h d wid m) s = .next (b.complete (.stl h d wid m) s id z)) ∧
  (∀ (h : Hdr) (a e : Opnd) (s : State) (b : Issue) (t : Team) (l : Nat) (n : Word) (ea : Nat) (y z : LS), Solo s b t l h.guard →
    Does (do L.checkPage a [a, e]; return (← L.rdW e, ← L.rdPair a)) (b.start s t l) (n, ea) y →
    ea < 2 ^ 52 → n.toNat % 4 = 0 → n ≠ 0 → ea % 4096 + n.toNat ≤ 4096 →
    Does (do L.zfillCheck false ea (n.toNat / 4); L.store .store ea n.toNat 0) y () z →
    exec (.zfill h a e false) s = .next (b.complete (.zfill h a e false) s id z)) ∧
  (∀ (h : Hdr) (a e : Opnd) (s : State) (b : Issue) (t : Team) (l : Nat) (n ea : Word) (y z : LS), Solo s b t l h.guard →
    Does (do L.checkRegs [a, e]; return (← L.rdW e, ← L.rdW a)) (b.start s t l) (n, ea) y →
    n.toNat % 4 = 0 → n ≠ 0 → ea.toNat % 4096 + n.toNat ≤ 4096 →
    Does (L.zfillCheck true ea.toNat (n.toNat / 4)) y () z →
    exec (.zfill h a e true) s = .next (b.complete (.zfill h a e true) s id { z with
      st := z.st.updTeam b.agent (·.wrScr ea.toNat n.toNat 0) }))

/-- A global access reads and writes the bytes of its page's frame; Each mode admits the accesses of its row and refuses
the others by their subcode. Where the page of an access resolves to a physical address in this package, a load
answers the bytes there, lowest first, and a store changes those bytes and no others of physical memory; scratch
accesses stay inside the team. For an access of an agent inside the scope region to a page without K, outside any
running engine footprint and not of a HALO page of another owner: the subcode is that of the table, and none exactly
where the table admits the access; with K at level 0 it is LEVEL, outside the region SCOPE. (07_isa_memory R149,
07_isa_memory R148, 12_translation R280, 07_isa_memory R150.) -/
def Obligations.AccessReachesTheFrame : Prop :=
  (∀ (kind : AK) (ea size pa : Nat) (leaf : QWord) (x y : LS), kind ≠ .lda →
    Does (L.locate kind ea size) x (some pa, leaf) y → y.st.poisoned pa size = false →
    Does (L.load kind ea size) x (y.st.readP pa size) y) ∧
  (∀ (kind : AK) (ea size v pa : Nat) (leaf : QWord) (x y : LS), kind ≠ .stl →
    Does (L.locate kind ea size) { x with effs := x.effs ++ [⟨false, ea, v⟩] } (some pa, leaf) y →
    Does (L.store kind ea size v) x () { y with st := y.st.writeP pa size v }) ∧
  (∀ (s : State) (pa size v a : Nat), (a < pa ∨ pa + size ≤ a) → (s.writeP pa size v).readP a 1 = s.readP a 1) ∧
  (∀ (s : State) (pa size v : Nat), Memory.wf s.mem = true → (s.writeP pa size v).readP pa size = v % 2 ^ (8 * size)) ∧
  (∀ (off size v : Nat) (x : LS),
    Does (L.storeScr off size v) x ()
      { x with effs := x.effs ++ [⟨false, off, v⟩], st := x.st.updTeam x.agent (·.wrScr off size v) } ∧
    (x.st.updTeam x.agent (·.wrScr off size v)).mem = x.st.mem) ∧
  (∀ (s : State) (p : Partition) (q : QWord) (r : Req), lfMode q < 8 → lfK q = false → inRegion s.pkg q r.agent = true →
    (r.fp && s.footprintHit r) = false → (lfMode q ≠ mHalo ∨ r.agent = lfOwner q) →
    mmxSub s p q r = modeTable (lfMode q) r.kind (r.agent == lfOwner q) r.lvl) ∧
  (∀ (s : State) (p : Partition) (q : QWord) (r : Req), lfK q = true → r.lvl = 0 → mmxSub s p q r = some 1) ∧
  (∀ (s : State) (p : Partition) (q : QWord) (r : Req), r.lvl ≠ 0 → inRegion s.pkg q r.agent = false →
    mmxSub s p q r = some 2)

/-- AMO, CAS, AMOF and RED; the operations of AMO and AMOF. AMO, CAS and AMOF with LA = 0 and nothing pending for D
check the address (52 bits, aligned to the width), release first where the order asks for it, perform one atomic
step in the page's frame and land the old value at once (log 14), for AMOF tagged and with a NaN made canonical; RED
adds the word D into its page without reading it. ADD, AND, OR, XOR, signed and unsigned MIN and MAX, SWAP, INC and
DEC of R159 give the new value of the table for 32 and for 64 bits; CAS writes B exactly where the old value equals
D; the sum, minimum and maximum of AMOF are rounded once to the width in RNE. (07_isa_memory R159, 07_isa_memory
R160, 07_isa_memory R161, 07_isa_memory R162, 07_isa_memory R171.) -/
def Obligations.AtomicWords : Prop :=
  (∀ (h : Hdr) (d a c : Opnd) (o : AOpt) (s : State) (b : Issue) (t : Team) (l : Nat) (av v : Nat) (y z : LS), Solo s b t l h.guard →
    Does (do
      L.checkPage a (regRun c (if o.dbl then 2 else 1) ++ regRun d (if o.dbl then 2 else 1))
      return (← L.rdPair a, ← L.rdRun (regRun c (if o.dbl then 2 else 1)))) (b.start s t l) (av, v) y →
    Landed (.amo h d a c o) h { Cap.zero with av := BitVec.ofNat 128 av, bv := BitVec.ofNat 128 v } (do
      let old ← L.atomic (if o.dbl then 8 else 4) false false o
        { Cap.zero with av := BitVec.ofNat 128 av, bv := BitVec.ofNat 128 v }
      return (BitVec.ofNat 128 old, 0)) y z →
    exec (.amo h d a c o) s = .next (b.complete (.amo h d a c o) s id z)) ∧
  (∀ (h : Hdr) (d a c : Opnd) (o : AOpt) (s : State) (b : Issue) (t : Team) (l : Nat) (av v w : Nat) (y z : LS), Solo s b t l h.guard →
    Does (do
      L.checkPage a (regRun c (if o.dbl then 2 else 1) ++ regRun d (if o.dbl then 2 else 1))
      return (← L.rdPair a, ← L.rdRun (regRun c (if o.dbl then 2 else 1)), ← L.rdRun (regRun d (if o.dbl then 2 else 1))))
      (b.start s t l) (av, v, w) y →
    Landed (.cas h d a c o) h
      { Cap.zero with av := BitVec.ofNat 128 av, bv := BitVec.ofNat 128 v, dv := BitVec.ofNat 128 w } (do
      let old ← L.atomic (if o.dbl then 8 else 4) false true o
        { Cap.zero with av := BitVec.ofNat 128 av, bv := BitVec.ofNat 128 v, dv := BitVec.ofNat 128 w }
      return (BitVec.ofNat 128 old, 0)) y z →
    exec (.cas h d a c o) s = .next (b.complete (.cas h d a c o) s id z)) ∧
  (∀ (h : Hdr) (d a c : Opnd) (o : AOpt) (s : State) (b : Issue) (t : Team) (l : Nat) (av : Nat) (x1 : DWord × BitVec 4) (k : Cap) (y z : LS),
    Solo s b t l h.guard →
    Does (do
      L.checkPage a [c, d]
      L.tagIn [if o.dbl then 1 else 2] c
      return (← L.rdPair a, ← L.rdD c)) (b.start s t l) (av, x1) y →
    k = { Cap.zero with av := BitVec.ofNat 128 av, bv := BitVec.ofNat 128 (x1.1.toNat % 2 ^ (if o.dbl then 64 else 32)) } →
    Landed (.amof h d a c o) h k (do
      let old ← L.atomic (if o.dbl then 8 else 4) true false o k
      return (BitVec.ofNat 128 (canonical o.dbl old), if o.dbl then 1 else 2)) y z →
    exec (.amof h d a c o) s = .next (b.complete (.amof h d a c o) s id z)) ∧
  (∀ (size : Nat) (fp cas : Bool) (o : AOpt) (c : Cap) (pa pa0 : Nat) (leaf leaf' : QWord) (p : Partition)
    (x y y' z : LS), c.av.toNat < 2 ^ 52 → c.av.toNat % size = 0 →
    Does (L.locate .amo c.av.toNat size) x (some pa0, leaf) y → Does L.part y p y → Does (L.asked c.av.toNat) y none y →
    Does (if 2 ≤ o.ord.toNat then L.release (lfScope leaf) else pure ()) y () y' →
    Does (L.locateAtomic .amo c.av.toNat size)
      { y' with effs := y'.effs ++ [⟨false, c.av.toNat, c.bv.toNat + c.dv.toNat * 2 ^ 64⟩] } (some pa, leaf') z →
    z.st.poisoned pa size = false →
    Does (L.atomic size fp cas o c) x (z.st.readP pa size) { z with
      st := if cas = true ∧ z.st.readP pa size ≠ c.dv.toNat then z.st
        else z.st.writeP pa size (stepNew size fp cas o.aop.toNat (z.st.readP pa size) c.bv.toNat c.dv.toNat) }) ∧
  (∀ (h : Hdr) (d : Opnd) (m : MemOpnd) (s : State) (b : Issue) (t : Team) (l : Nat) (v : Word) (ea pa : Nat) (leaf : QWord) (p : Partition) (y z : LS),
    Solo s b t l h.guard →
    Does (do
      L.checkReg d
      L.checkAddr m
      let v ← L.rdW d
      let (av, bv) ← L.addrOps m
      return (v, ← L.access 2 m 4 av bv)) (b.start s t l) (v, ea) y →
    Does (L.locate .red ea 4) { y with effs := y.effs ++ [⟨false, ea, v.toNat⟩] } (some pa, leaf) z → Does L.part z p z →
    exec (.red h d m) s = .next (b.complete (.red h d m) s id
      { z with st := z.st.redAdd p (ea / 4096) leaf (coreOf b.agent) (ea % 4096) v 4 0 })) ∧
  (∀ p ∈ amoTable 32, ∀ (x y : Word), amoNew p.1.toNat 4 x.toNat y.toNat = (p.2 x y).toNat) ∧
  (∀ p ∈ amoTable 64, ∀ (x y : DWord), amoNew p.1.toNat 8 x.toNat y.toNat = (p.2 x y).toNat) ∧
  (∀ (size aop old b d : Nat), stepNew size false true aop old b d = if old = d then b else old) ∧
  (∀ p ∈ amofTable, ∀ (dbl : Bool) (old b d : Nat), stepNew (if dbl then 8 else 4) true false p.1 old b d =
    (roundTo (fmtOf dbl) .rne false (p.2 ((fmtOf dbl).value old) ((fmtOf dbl).value b))).code)

/-- FENCE, TFENCE, PROBE and CHKERR. FENCE of a page takes the leaf's scope: an acquire only checks the page, the other
kinds wait for the fibre's writes to other packages and release at the scope; TFENCE goes on where the page is a
page table that the wave may see; PROBE goes on when it names this package, or nothing that the team sends on the
path is outstanding or still to be sent by a job; CHKERR of a lane with no pending word writes the team's CHKI.
(07_isa_memory R164, 07_isa_memory R165, 07_isa_memory R172, 07_isa_memory R173.) -/
def Obligations.OrderingWords : Prop :=
  (∀ (h : Hdr) (a : Opnd) (kind : BitVec 2) (s : State) (b : Issue) (t : Team) (l : Nat) (va : Nat) (q : QWord) (f : Fibre) (y z : LS), Solo s b t l h.guard →
    Does (do
      L.checkPage a []
      let va ← L.pageAddr 4 a
      return (va, ← L.fenceLeaf va)) (b.start s t l) (va, q) y →
    (kind = 1 → z = y) →
    (kind ≠ 1 → y.st.fibre? b.agent b.wave l = some f ∧ f.remoteWrites = [] ∧ Does (L.release (lfScope q)) y () z) →
    exec (.fence h a kind) s = .next (b.complete (.fence h a kind) s id z)) ∧
  (∀ (h : Hdr) (a : Opnd) (s : State) (b : Issue) (t : Team) (l : Nat) (va addr : Nat) (q : QWord) (y : LS), Solo s b t l h.guard →
    Does (do
      L.checkPage a []
      let va ← L.pageAddr 4 a
      return (va, ← L.pageLeaf va 4)) (b.start s t l) (va, q, addr) y →
    y.lvl ≠ 0 → inRegion y.st.pkg q b.agent = true → lfMode q = mPtab →
    exec (.tfence h a) s = .next (b.complete (.tfence h a) s id y)) ∧
  (∀ (h : Hdr) (a : Opnd) (s : State) (b : Issue) (t : Team) (l : Nat) (v : Word) (t' : Team) (y : LS), Solo s b t l h.guard →
    Does (do L.checkReg a; return (← L.rdW a, ← L.team)) (b.start s t l) (v, t') y →
    (v.extractLsb' 0 12 = y.st.pkg ∨
      (∀ x ∈ t'.onPath, x.2.2 ≠ 0 → v.extractLsb' 0 12 ≠ 0xFFF ∧ x.1 ≠ v.extractLsb' 0 12) ∧
      ∀ j ∈ y.st.jobs, y.st.toSend t' (v.extractLsb' 0 12).toNat j = false) →
    exec (.probe h a) s = .next (b.complete (.probe h a) s id y)) ∧
  (∀ (h : Hdr) (d : Opnd) (s : State) (b : Issue) (t : Team) (l : Nat) (y z : LS), Solo s b t l h.guard → (t.wave b.wave).pendingLane l = false →
    Does (L.checkReg d) (b.start s t l) () y → Does (L.wrW d t.chki) y () z →
    exec (.chkerr h d) s = .next (b.complete (.chkerr h d) s id z))

/-- SEAL, UNSEAL, HAND, TAKE, PUB, PLACE and EVICT. SEAL of checked pages releases at each page's scope and makes it
SEALED or CODE; UNSEAL asks for one Bellwether per page and waits, and once all have committed goes on; HAND
releases, moves a page that lies where only the issuing core reaches it, and that is not another package's (a
forwarding leaf stays, log 26), to its home frame, bumps GEN and names the new owner; TAKE goes on once the page is
the agent's; PUB releases and, where no neighbour has a replica or its first part is done, pushes what is left of
the strips and completes, and otherwise pushes a first part and stands for the rest (Config.partsNow, log 10); PLACE
and EVICT count the pages accepted. (07_isa_memory R158, 07_isa_memory R166, 07_isa_memory R167, 07_isa_memory R168,
07_isa_memory R169, 07_isa_memory R170.) -/
def Obligations.OwnershipWords : Prop :=
  (∀ (h : Hdr) (a e : Opnd) (code : Bool) (s : State) (b : Issue) (t : Team) (l : Nat) (n va : Nat) (y z : LS), Solo s b t l h.guard →
    (code = true → t.levelAt b.wave l ≠ 0) →
    Does (do
      L.checkPage a [e]
      let n ← L.pageCount e
      return (n, ← L.pageAddr 8 a)) (b.start s t l) (n, va) y →
    Does (do
      L.modePages (fun _ => [mOwned]) (fun _ => true) true (pageRun va n)
      (pageRun va n).forM (fun va => do
        let (q, _) ← L.pageLeaf va 8
        L.release (lfScope q)
        let p ← L.part
        L.modSt (·.sealPage p (coreOf b.agent) (va / 4096) code))) y () z →
    exec (.seal h a e code) s = .next (b.complete (.seal h a e code) s id z)) ∧
  (∀ (h : Hdr) (a e : Opnd) (s : State) (b : Issue) (t : Team) (l : Nat) (n va : Nat) (mine : List Move) (y : LS), Solo s b t l h.guard →
    Does (do
      L.checkPage a [e]
      let n ← L.pageCount e
      return (n, ← L.pageAddr 8 a)) (b.start s t l) (n, va) y →
    mine = y.st.moves.filter (fun m => m.waiter == some (b.agent, b.wave, l)) → mine ≠ [] →
    (∀ m ∈ mine, m.st = .commit) →
    exec (.unseal h a e) s = .next (b.complete (.unseal h a e) s id { y with
      st := { y.st with moves := y.st.moves.filter (fun m => !mine.any (·.id == m.id)) } })) ∧
  (∀ (h : Hdr) (a e : Opnd) (s : State) (b : Issue) (t : Team) (l : Nat) (v : Word) (va addr : Nat) (q0 q : QWord) (p : Partition) (y z : LS),
    Solo s b t l h.guard →
    Does (do
      L.checkPage a [e]
      let v ← L.rdW e
      let va ← L.pageAddr 8 a
      let q ← L.modePage va (fun _ => [mOwned]) (fun _ => true) true (some (v.extractLsb' 0 16))
      L.release (lfScope q)
      return (v, va, q, ← L.part)) (b.start s t l) (v, va, q0, p) y →
    leafAt y.st p (va / 4096) = some (q, addr) →
    (coreOf (v.extractLsb' 0 16) = coreOf b.agent ∨ lfPkg q0 ≠ 0xFFF ∨
      y.st.frameAt (lfFrame q0) 3 (coreOf b.agent) = false) →
    z = { y with
      st := (y.st.writeLeaf addr (lfSet (lfBump q) 16 16 (v.toNat % 2 ^ 16))).dropEntry (coreOf b.agent) p.id (va / 4096) } →
    exec (.hand h a e) s = .next (b.complete (.hand h a e) s id z)) ∧
  (∀ (h : Hdr) (a e : Opnd) (s : State) (b : Issue) (t : Team) (l : Nat) (v : Word) (va addr addr1 f : Nat) (q0 q q1 : QWord) (p : Partition) (s1 : State) (y z : LS),
    Solo s b t l h.guard →
    Does (do
      L.checkPage a [e]
      let v ← L.rdW e
      let va ← L.pageAddr 8 a
      let q ← L.modePage va (fun _ => [mOwned]) (fun _ => true) true (some (v.extractLsb' 0 16))
      L.release (lfScope q)
      return (v, va, q, ← L.part)) (b.start s t l) (v, va, q0, p) y →
    leafAt y.st p (va / 4096) = some (q, addr) → coreOf (v.extractLsb' 0 16) ≠ coreOf b.agent → lfPkg q0 = 0xFFF →
    y.st.frameAt (lfFrame q0) 3 (coreOf b.agent) = true → y.st.homeFrame p (va / 4096) = some f →
    s1 = (y.st.copyPage (lfFrame q * 4096) (f * 4096)).commitFrame p.id (va / 4096) q addr 0 f →
    leafAt s1 p (va / 4096) = some (q1, addr1) →
    z = { y with
      st := (s1.writeLeaf addr (lfSet (lfBump q1) 16 16 (v.toNat % 2 ^ 16))).dropEntry (coreOf b.agent) p.id (va / 4096) } →
    exec (.hand h a e) s = .next (b.complete (.hand h a e) s id z)) ∧
  (∀ (h : Hdr) (a e : Opnd) (s : State) (b : Issue) (t : Team) (l : Nat) (n va : Nat) (p : Partition) (y y' : LS), Solo s b t l h.guard →
    Does (do
      L.checkPage a [e]
      let n ← L.pageCount e
      return (n, ← L.pageAddr 8 a)) (b.start s t l) (n, va) y →
    (∀ m ∈ y.st.moves, m.waiter ≠ some (b.agent, b.wave, l)) →
    Does (do
      L.modePages (fun _ => [mSealed, mCode]) (fun _ => decide (t.levelAt b.wave l = 0)) true (pageRun va n)
      L.part) y p y' →
    exec (.unseal h a e) s = .next (b.blocked (.unseal h a e) s l .unseal { b.start s t l with
      st := (pageRun va n).foldl (fun c va => c.requestMove p.id (va / 4096) false (coreOf b.agent) none (some b.agent) none
        (some (b.agent, b.wave, l))) s })) ∧
  (∀ (s : State) (part vpn : Nat) (c : BitVec 11) (a : Option AgentId) (w : Option (AgentId × Nat × Nat)),
    (s.requestMove part vpn false c none a none w).moves =
      s.moves ++ [⟨s.nextMove, part, vpn, false, c, .idle, 0, none, a, [], none, w, none⟩] ∧
    (s.requestMove part vpn false c none a none w).agenda = s.agenda ++ [.mark s.nextMove] ∧
    (s.requestMove part vpn false c none a none w).mem = s.mem) ∧
  (∀ (h : Hdr) (a : Opnd) (s : State) (b : Issue) (t : Team) (l : Nat) (va : Nat) (q : QWord) (y : LS), Solo s b t l h.guard →
    Does (do
      L.checkPage a []
      let va ← L.pageAddr 8 a
      return (va, ← L.modePage va (fun _ => [mOwned]) (fun _ => false) false none)) (b.start s t l) (va, q) y →
    lfOwner q = b.agent →
    exec (.take h a) s = .next (b.complete (.take h a) s id y)) ∧
  (∀ (h : Hdr) (a : Opnd) (s : State) (b : Issue) (t : Team) (l : Nat) (va : Nat) (q : QWord) (p : Partition) (y : LS), Solo s b t l h.guard →
    Does (do
      L.checkPage a []
      let va ← L.pageAddr 8 a
      let q ← L.modePage va (fun _ => [mHalo]) (fun _ => true) false none
      L.release (lfScope q)
      return (va, q, ← L.part)) (b.start s t l) (va, q, p) y →
    ((y.st.stripFrames p (va / 4096) q).2 = [] ∨ ∃ w, y.st.wave? b.agent b.wave = some w ∧
      ∃ k ∈ w.stuck, k.pc = b.pc ∧ k.why = .lanes ∧ l ∈ k.todo) →
    exec (.pub h a) s = .next (b.complete (.pub h a) s id { y with
      st := y.st.pushStrips p (va / 4096) q (fun _ => true) })) ∧
  (∀ (h : Hdr) (a : Opnd) (s : State) (b : Issue) (t : Team) (l : Nat) (va : Nat) (q : QWord) (p : Partition) (w : Wave) (y : LS), Solo s b t l h.guard →
    Does (do
      L.checkPage a []
      let va ← L.pageAddr 8 a
      let q ← L.modePage va (fun _ => [mHalo]) (fun _ => true) false none
      L.release (lfScope q)
      return (va, q, ← L.part)) (b.start s t l) (va, q, p) y →
    (y.st.stripFrames p (va / 4096) q).2 ≠ [] → y.st.wave? b.agent b.wave = some w → (∀ k ∈ w.stuck, k.pc ≠ b.pc) →
    exec (.pub h a) s = .next (b.blocked (.pub h a) s l .lanes { b.start s t l with
      st := (s.release p.id (coreOf b.agent) (lfScope q)).pushStrips p (va / 4096) q (Config.partsNow s.tick) })) ∧
  (∀ (h : Hdr) (d a e : Opnd) (lvl : BitVec 2) (s : State) (b : Issue) (t : Team) (l : Nat) (n va k : Nat) (y y' z : LS), Solo s b t l h.guard →
    Does (do
      L.checkPage a [e, d]
      let n ← L.pageCount e
      return (n, ← L.pageAddr 8 a)) (b.start s t l) (n, va) y →
    Does (do
      L.modePages (fun _ => [mOwned, mSealed, mCode]) (fun q => lfMode q == mOwned) false (pageRun va n)
      L.acceptRun (L.placePage lvl.toNat) (pageRun va n)) y k y' →
    Does (L.wrW d (BitVec.ofNat 32 k)) y' () z →
    exec (.place h d a e lvl) s = .next (b.complete (.place h d a e lvl) s id z)) ∧
  (∀ (h : Hdr) (d a e : Opnd) (s : State) (b : Issue) (t : Team) (l : Nat) (n va k : Nat) (y y' z : LS), Solo s b t l h.guard →
    Does (do
      L.checkPage a [e, d]
      let n ← L.pageCount e
      return (n, ← L.pageAddr 8 a)) (b.start s t l) (n, va) y →
    Does (do
      L.modePages (fun _ => [mOwned, mSealed, mCode]) (fun q => lfMode q == mOwned) false (pageRun va n)
      L.acceptRun L.evictPage (pageRun va n)) y k y' →
    Does (L.wrW d (BitVec.ofNat 32 k)) y' () z →
    exec (.evict h d a e) s = .next (b.complete (.evict h d a e) s id z))

/-- The batch commands of the matrix engine become one job. MCFG, MLDB, MVQB, MLDT, MSWB, MZRO, MSTZ and MFST of a wave
whose one lane executes the word: with the operands and the engine checked, the engine free or the team's own, and
room in the job table, the issue releases at scope 0, and the command becomes one waiting job with its footprint,
which the fibre owes. (08_isa_matrix R179, 08_isa_matrix R180, 08_isa_matrix R183, 08_isa_matrix R185, 08_isa_matrix
R186, 08_isa_matrix R187, 08_isa_matrix R188, 08_isa_matrix R190, 08_isa_matrix R192, 17_engines R347.) -/
def Obligations.BatchCommands : Prop :=
  ∀ (h : Hdr) (a c : Opnd) (arr : BitVec 2) (wf af n : BitVec 3) (mask : BitVec 4) (f : Bool),
    ∀ i ∈ batchCommands h a c arr wf af n mask f, ∀ (s : State) (b : Issue) (t : Team) (l : Nat) (k : CmdArgs) (t' : Team) (y y' : LS), Solo s b t l h.guard →
    Does (L.batchCheck i) (b.start s t l) k y → y.st.jobRoom (coreOf b.agent) 1 = true →
    Does (L.release 0) y () y' → y'.st.team? b.agent = some t' →
    exec i s = .next (b.complete i s id (y'.issued y.st i k none t').owes)

/-- CPY, GTHR, SCTR, MCAST, MSND, COLL and QENQ become one job per lane. A lane command with checked operands and room
in the job table releases, and becomes one waiting job of its engine, which the fibre owes; QENQ of 0 blocks does
nothing, and waits while its engine's queue of 16 is full. (08_isa_matrix R179, 08_isa_matrix R180, 08_isa_matrix
R196, 08_isa_matrix R197, 08_isa_matrix R198, 08_isa_matrix R199, 08_isa_matrix R200.) -/
def Obligations.LaneCommands : Prop :=
  (∀ (h : Hdr) (d a c : Opnd) (w w2 : BitVec 4) (ds ss : Bool), ∀ i ∈ laneCommands h d a c w w2 ds ss,
    ∀ (s : State) (b : Issue) (t : Team) (l : Nat) (k : CmdArgs) (t1 t2 : Team) (y y' : LS), Solo s b t l h.guard →
    Does (do return (← L.cmdRead i, ← L.team)) (b.start s t l) (k, t1) y → cmdCheck t1 (viewNow t1) i k = none →
    y.st.jobRoom (coreOf b.agent) 1 = true → Does (L.release 0) y () y' → y'.st.team? b.agent = some t2 →
    exec i s = .next (b.complete i s id (y'.issued y.st i k none t2).owes)) ∧
  (∀ (h : Hdr) (d a c : Opnd) (kind : BitVec 4) (s : State) (b : Issue) (t : Team) (l : Nat) (k : CmdArgs) (t1 : Team) (y : LS), Solo s b t l h.guard →
    Does (do return (← L.cmdRead (.qenq h d a c kind), ← L.team)) (b.start s t l) (k, t1) y →
    cmdCheck t1 (viewNow t1) (.qenq h d a c kind) k = none → k.a2 = 0 →
    exec (.qenq h d a c kind) s = .next (b.complete (.qenq h d a c kind) s id y)) ∧
  (∀ (h : Hdr) (d a c : Opnd) (kind : BitVec 4) (s : State) (b : Issue) (t : Team) (l : Nat) (k : CmdArgs) (t1 t2 : Team) (y y' : LS), Solo s b t l h.guard →
    Does (do return (← L.cmdRead (.qenq h d a c kind), ← L.team)) (b.start s t l) (k, t1) y →
    cmdCheck t1 (viewNow t1) (.qenq h d a c kind) k = none → k.a2 ≠ 0 →
    ((y.st.jobsOn (coreOf b.agent)).filter (fun j => j.eng == .quant && j.cmd.isSome && j.st != .done)).length < 16 →
    y.st.jobRoom (coreOf b.agent) 1 = true → Does (L.release 0) y () y' → y'.st.team? b.agent = some t2 →
    exec (.qenq h d a c kind) s =
      .next (b.complete (.qenq h d a c kind) s id (y'.issued y.st (.qenq h d a c kind) k none t2).owes)) ∧
  (∀ (h : Hdr) (d a c : Opnd) (kind : BitVec 4) (s : State) (b : Issue) (t : Team) (l : Nat) (k : CmdArgs) (t1 : Team) (y : LS), Solo s b t l h.guard →
    Does (do return (← L.cmdRead (.qenq h d a c kind), ← L.team)) (b.start s t l) (k, t1) y →
    cmdCheck t1 (viewNow t1) (.qenq h d a c kind) k = none → k.a2 ≠ 0 →
    16 ≤ ((y.st.jobsOn (coreOf b.agent)).filter (fun j => j.eng == .quant && j.cmd.isSome && j.st != .done)).length →
    exec (.qenq h d a c kind) s = .next (b.blocked (.qenq h d a c kind) s l .queue (b.start s t l)))

/-- MMA is presented, and the last presentation issues it. A fibre that has signed qK presents MMA: its signature
clears, and a first presentation, or one with the same word and operands as the others, counts; when it is not the
last, the register holds the count and the fibre owes the job to come; the last one makes the job and the register
goes to ISSUED with it. (04_isa_control R93, 08_isa_matrix R189.) -/
def Obligations.PresentedMma : Prop :=
  (∀ (h : Hdr) (d a c : Opnd) (z0 q : BitVec 3) (rows : BitVec 4) (s : State) (b : Issue) (t : Team) (l : Nat) (k : CmdArgs) (f : Fibre) (t' : Team) (r : ConvReg)
    (y : LS), Solo s b t l h.guard → t.fibre? (t.slot b.wave l) = some f → vget f.sig q.toNat = true →
    Does (do
      L.modFibre (fun f => { f with sig := vset f.sig q.toNat false })
      let k ← L.cmdRead (.mma h d a c z0 rows q)
      L.engine
      return (k, ← L.team)) (b.start s t l) (k, t') y →
    cmdCheck t' (viewAt y.st t' y.st.nextJob) (.mma h d a c z0 rows q) k = none →
    vget t'.q q.toNat = r → (r.presented = 0 ∨ r.opw = encode (.mma h d a c z0 rows q) ∧ r.caps = some k) →
    r.presented + 1 ≠ r.need →
    exec (.mma h d a c z0 rows q) s = .next (b.complete (.mma h d a c z0 rows q) s id { y with
      st := (y.st.updFibre b.agent b.wave l (fun f => { f with jobs := f.jobs ++ [presentMark + q.toNat] })).updTeam b.agent
        (fun t => { t with q := vset t.q q.toNat { r with
          presented := r.presented + 1, opw := encode (.mma h d a c z0 rows q), caps := some k } }) })) ∧
  (∀ (h : Hdr) (d a c : Opnd) (z0 q : BitVec 3) (rows : BitVec 4) (s : State) (b : Issue) (t : Team) (l : Nat) (k : CmdArgs) (f : Fibre) (t1 t2 : Team) (r : ConvReg)
    (y y1 y' : LS), Solo s b t l h.guard → t.fibre? (t.slot b.wave l) = some f → vget f.sig q.toNat = true →
    Does (do
      L.modFibre (fun f => { f with sig := vset f.sig q.toNat false })
      let k ← L.cmdRead (.mma h d a c z0 rows q)
      L.engine
      return (k, ← L.team)) (b.start s t l) (k, t1) y →
    cmdCheck t1 (viewAt y.st t1 y.st.nextJob) (.mma h d a c z0 rows q) k = none →
    vget t1.q q.toNat = r → (r.presented = 0 ∨ r.opw = encode (.mma h d a c z0 rows q) ∧ r.caps = some k) →
    r.presented + 1 = r.need → y.st.jobRoom (coreOf b.agent) 1 = true →
    Does (L.modFibre (fun f => { f with jobs := f.jobs ++ [presentMark + q.toNat] })) y () y1 →
    Does (L.release 0) y1 () y' → y'.st.team? b.agent = some t2 →
    exec (.mma h d a c z0 rows q) s = .next (b.complete (.mma h d a c z0 rows q) s id { y'.issued y1.st
        (.mma h d a c z0 rows q) k (some q.toNat) t2 with
      st := (y'.issued y1.st (.mma h d a c z0 rows q) k (some q.toNat) t2).st.updTeam b.agent (fun t => { t with
        q := vset t.q q.toNat { r with presented := r.presented + 1, opw := encode (.mma h d a c z0 rows q), caps := some k,
                                       st := 2, job := some y'.st.nextJob }
        fibres := t.fibres.map (fun x => (x.1, { x.2 with
          jobs := x.2.jobs.map (fun n => if n = presentMark + q.toNat then y'.st.nextJob else n) })) }) }))

/-- MRDZ, MFAC, MPIV, MRNM and MGRW. MRDZ with LA = 0 reads element A of the tile at once (log 14) when no earlier
command of the team that writes it is incomplete; MFAC and MPIV with checked operands, the engine free or the team's
own, become one job that their batch waits for and the fibre owes: a unit of MFAC's job eliminates the next column
until its number is reached, MPIV's negotiates one pivot; once that job is done without a trap the word completes,
MPIV with the job's outcome in D, and the job keeps its entry until EWAIT observes it. MRNM writes the record of a
column and MGRW the growth, in FAC mode, once the team's earlier matrix commands are done (log 13). (08_isa_matrix
R191, 08_isa_matrix R193, 08_isa_matrix R194, 08_isa_matrix R195.) -/
def Obligations.WaitingMatrixWords : Prop :=
  (∀ (h : Hdr) (d a : Opnd) (n : BitVec 3) (s : State) (b : Issue) (t : Team) (l : Nat) (e : Word) (t1 t' : Team) (y z : LS), Solo s b t l h.guard →
    Does (do
      L.checkRegs [a, d]
      let t ← L.team
      return (← L.rdW a, t)) (b.start s t l) (e, t1) y → n.toNat < t1.tiles → e.toNat < 1536 →
    anyWrites n.toNat (viewNow t') (pendingCmds y.st t' y.st.nextJob) = false → y.st.team? b.agent = some t' →
    (vget t'.z n.toNat).bad.contains e.toNat = false →
    Landed (.mrdz h d a n) h
      { Cap.zero with av := BitVec.ofNat 128 e.toNat, bv := BitVec.ofNat 128 y.st.nextJob }
      (pure ((spGet 0 (vget t'.z n.toNat).e e.toNat).setWidth 128, 0)) y z → y.st.nextJob < 2 ^ 128 →
    exec (.mrdz h d a n) s = .next (b.complete (.mrdz h d a n) s id z)) ∧
  (∀ (w : Instr × Opnd × Wait) (h : Hdr) (n : BitVec 7) (d a c : Opnd) (n' : BitVec 6),
    w ∈ [(.mfac h n, .zr, .more), (.mpiv h d a c n', d, .mpiv)] → ∀ (s : State) (b : Issue) (t : Team) (l : Nat) (k : CmdArgs) (t' : Team) (y y1 : LS),
    Solo s b t l h.guard → (∀ j ∈ s.jobs, j.agent = b.agent → j.wait ≠ some (b.wave, l, b.pc)) →
    Does (L.batchCheck w.1) (b.start s t l) k y → Does (L.checkReg w.2.1) y () y →
    y.st.jobRoom (coreOf b.agent) 1 = true → Does (L.release 0) y () y1 → y1.st.team? b.agent = some t' →
    exec w.1 s = .next (b.blocked w.1 s l w.2.2 (y1.issued y.st w.1 k none t').waiting.owes)) ∧
  (∀ (h : Hdr) (n : BitVec 7) (s : State) (b : Issue) (t : Team) (l : Nat) (j : Job), Solo s b t l h.guard →
    s.jobs.find? (fun j => j.agent == b.agent && j.wait == some (b.wave, l, b.pc)) = some j → j.st = .done → j.trap = none →
    exec (.mfac h n) s = .next (b.complete (.mfac h n) s id { b.start s t l with
      st := s.updJob j.id (fun j => { j with wait := none }) })) ∧
  (∀ (h : Hdr) (d a c : Opnd) (n : BitVec 6) (s : State) (b : Issue) (t : Team) (l : Nat) (j : Job) (z : LS), Solo s b t l h.guard →
    s.jobs.find? (fun j => j.agent == b.agent && j.wait == some (b.wave, l, b.pc)) = some j → j.st = .done → j.trap = none →
    Does (L.wrW d j.out) (b.start s t l) () z → unisAgree z.unis = true →
    exec (.mpiv h d a c n) s = .next (b.complete (.mpiv h d a c n) s id { z with
      st := z.st.updJob j.id (fun j => { j with wait := none }) })) ∧
  (∀ (j : Job) (h : Hdr) (n : BitVec 7) (c : CmdArgs) (p : Partition) (m m' : MatState) (x y : LS), j.card = none →
    j.cmd = some (.mfac h n, c) → j.idx = 0 → j.loop = none → Does L.part x p x → Does L.mat x m x →
    m.factor.counter < n.toNat → Does L.facStep x () y → Does L.mat y m' y →
    ∃ j', Does (L.jobStep j) x j' y ∧ (j'.over = true ↔ n.toNat ≤ m'.factor.counter)) ∧
  (∀ (j : Job) (h : Hdr) (d a e : Opnd) (n : BitVec 6) (c : CmdArgs) (p : Partition) (t' : Team) (v : Word) (x y : LS),
    j.card = none → j.cmd = some (.mpiv h d a e n, c) → j.idx = 0 → j.elem = 0 → j.loop = none → Does L.part x p x →
    Does L.team x t' x → Does (L.mpiv n.toNat (BitVec.ofNat 32 c.a) (BitVec.ofNat 32 c.b)) x v y →
    (∃ t2, Does L.team y t2 y) → Does (L.jobStep j) x { j with idx := 1, out := v } y) ∧
  (∀ (h : Hdr) (d a : Opnd) (s : State) (b : Issue) (t : Team) (l : Nat) (v : Word) (r : Factor) (y y' z : LS), Solo s b t l h.guard →
    Does (do L.checkRegs [a, d]; L.rdW a) (b.start s t l) v y → Does (L.facRead (.mrnm h d a)) y r y' →
    Does (L.wrW d (r.record (v.toNat % 64))) y' () z →
    exec (.mrnm h d a) s = .next (b.complete (.mrnm h d a) s id z)) ∧
  (∀ (h : Hdr) (d : Opnd) (s : State) (b : Issue) (t : Team) (l : Nat) (r : Factor) (y z : LS), Solo s b t l h.guard →
    Does (do L.checkReg d; L.facRead (.mgrw h d)) (b.start s t l) r y → Does (L.wrD d (r.growth.setWidth 64) 2) y () z →
    exec (.mgrw h d) s = .next (b.complete (.mgrw h d) s id z))

/-- EWAIT and ELOOP as fibres execute them. EWAIT of a lane that has no presented MMA still to issue and whose own jobs
are all over writes their error and cancel bits, drops them from the fibre, marks them observed and has their
undelivered writes to other packages behind the fibre; ELOOP belongs to cards: a fibre that executes it traps ENGINE
DIRECT with nothing done, and a card's ELOOP sets its sequencer's loop and goes on with the next word.
(08_isa_matrix R203, 08_isa_matrix R204, 17_engines R350.) -/
def Obligations.EwaitAndEloop : Prop :=
  (∀ (h : Hdr) (d : Opnd) (s : State) (b : Issue) (t : Team) (l : Nat) (f : Fibre) (y z : LS), Solo s b t l h.guard →
    Does (do L.checkReg d; L.fibre) (b.start s t l) f y →
    (∀ n ∈ f.jobs, n < presentMark ∧ y.st.jobOver n = true) →
    Does (L.wrW d (statusOf (y.st.jobsOf f.jobs))) y () z →
    exec (.ewait h d) s = .next (b.complete (.ewait h d) s id { z with
      st := ((z.st.updFibre b.agent b.wave l (fun f => { f with jobs := [] })).updFibre b.agent b.wave l
        (fun g => { g with remoteWrites := g.remoteWrites ++ z.st.jobWrites f.jobs })).observe b.agent f.jobs })) ∧
  (∀ (h : Hdr) (n : BitVec 8) (a c : Opnd) (count : BitVec 13) (s : State) (b : Issue) (t : Team) (l : Nat) (y : LS), Solo s b t l h.guard →
    Does (L.checkRegs [a, c]) (b.start s t l) () y →
    exec (.eloop h n a c count) s = .next (s.enterHandler b.agent b.wave b.pc [⟨l, 9, 4, 0, 0⟩] [l] [l] none)) ∧
  (∀ (j : Job) (h : Hdr) (n : BitVec 8) (a c : Opnd) (count : BitVec 13) (k : Card) (v : CmdArgs) (x y : LS),
    Does (L.current j) x (.eloop h n a c count, v) y → j.loop = none → n ≠ 0 → j.card = some k → j.idx + 1 + n.toNat ≤ k.cnt →
    Does (L.jobStep j) x { j with idx := j.idx + 1, elem := 0, loop := some (j.idx + 1, n.toNat, count.toNat + 1, 0,
      (BitVec.ofNat 32 v.a).toInt, (BitVec.ofNat 32 v.b).toInt) } y)

/-- Both slots of a paired word read before either writes. All 24 paired words of a lane that issues alone: windows,
then tags of floating slots, are checked; both slots are read; the flags of both are raised, and slot X then slot Y
writes, each the value of the table (floating slots FP32 in RNE). exec answers the completed word. (02_encoding R44,
02_encoding R45, 02_encoding R46, 02_encoding R47.) -/
def Obligations.PairedWords : Prop :=
  (∀ p ∈ pairs2, ∀ (d r : Opnd) (sl : Slot) (s : State) (b : Issue) (t : Team) (l : Nat) (u v : SlotVal × Fl) (y z : LS), Solo s b t l none →
    Does (readBoth ⟨p.2, d, r, 0⟩ sl) (b.start s t l) (u, v) y → Does (writeBoth ⟨p.2, d, r, 0⟩ sl u v) y () z →
    unisAgree z.unis = true →
    exec (p.1 d r sl) s = .next (b.complete (p.1 d r sl) s id z)) ∧
  (∀ p ∈ pairsImm, ∀ (d : Opnd) (imm : BitVec 8) (sl : Slot) (s : State) (b : Issue) (t : Team) (l : Nat) (u v : SlotVal × Fl) (y z : LS), Solo s b t l none →
    Does (readBoth ⟨p.2, d, .g 0, imm⟩ sl) (b.start s t l) (u, v) y → Does (writeBoth ⟨p.2, d, .g 0, imm⟩ sl u v) y () z →
    unisAgree z.unis = true →
    exec (p.1 d imm sl) s = .next (b.complete (p.1 d imm sl) s id z)) ∧
  (∀ (sl : Slot) (s : State) (b : Issue) (t : Team) (l : Nat) (u v : SlotVal × Fl) (y z : LS), Solo s b t l none →
    Does (readBoth ⟨.pnop, .g 0, .g 0, 0⟩ sl) (b.start s t l) (u, v) y → Does (writeBoth ⟨.pnop, .g 0, .g 0, 0⟩ sl u v) y () z →
    unisAgree z.unis = true →
    exec (.pnop sl) s = .next (b.complete (.pnop sl) s id z)) ∧
  (∀ p ∈ slotTable, ∀ (d v : Word), slotInt p.1 d v = p.2 d v) ∧
  (∀ p ∈ slotFloats, ∀ (d r : Opnd) (x y : LS) (u v : DWord × BitVec 4),
    Does (do return (← L.rdD d, ← (if r = .zr then pure (0, 2) else L.rdD r))) x (u, v) y →
    Does (L.slotRead ⟨p.1, d, r, 0⟩) x (.flt (BitVec.ofNat 64 (slotRound p.2 u.1 v.1).code) 2, (slotRound p.2 u.1 v.1).fl) y)

/-- TRAP, SYSC and a misplaced word enter a handler at once. TRAP of a lane alone enters the handler of class TRAP with
its code as the aux word, SYSC below level 2 that of class SYSC, SYSC at level 2 that of ILL PRIV; the word has no
other effect and its PC does not move on. (09_isa_system R209, 18_traps R352, 01_conventions R12.) -/
def Obligations.TrapsEnterTheHandler : Prop :=
  (∀ (h : Hdr) (code : BitVec 13) (s : State) (b : Issue) (t : Team) (l : Nat), Solo s b t l h.guard →
    exec (.trap h code) s = .next (trapAlone s b l 14 0 (code.setWidth 32))) ∧
  (∀ (h : Hdr) (code : BitVec 13) (s : State) (b : Issue) (t : Team) (l : Nat), Solo s b t l h.guard → t.levelAt b.wave l ≠ 2 →
    exec (.sysc h code) s = .next (trapAlone s b l 13 0 (code.setWidth 32))) ∧
  (∀ (h : Hdr) (code : BitVec 13) (s : State) (b : Issue) (t : Team) (l : Nat), Solo s b t l h.guard → t.levelAt b.wave l = 2 →
    exec (.sysc h code) s = .next (trapAlone s b l 0 0x0C 0))

/-- What a plain handler entry saves and sets. A wave at level 0 whose lanes call trap, with no freeze bit and no
rollback in the way: it goes to level 1 at KERNEL_TRAP_VECTOR + 0x100 × the lowest class; TCAUSE is that class and
the subcode of its first lane, TEPC the word's PC; the PCs and g0–g3 of every fibre, s0–s3, the level and the
unfinished words are saved; s0 takes the wave number, each fibre's g0 and g1 the low word and the aux word of its
side entry; nothing of memory changes outside the 512 bytes of the wave in the side buffer; no other wave changes.
(18_traps R351, 18_traps R352, 18_traps R353, 18_traps R354, 18_traps R355.) -/
def Obligations.HandlerEntry : Prop :=
  ∀ (s : State) (a : AgentId) (wv : Nat) (tepc : Addr) (traps : List TrapRec) (execs batch : List Nat) (t : Team)
    (p : Partition), s.team? a = some t → s.part? t.part = some p → wv < 32 → (t.wave wv).level = 0 →
    (∀ r ∈ traps, s.frzcfg.getLsbD r.cls.toNat = false) → ((∀ r ∈ traps, r.cls ≠ 12) ∨ s.rollsBack t = none) →
    ∃ t' h, (s.enterHandler a wv tepc traps execs batch none).team? a = some t' ∧ t'.fibres.length = t.fibres.length ∧
      (t'.wave wv).level = 1 ∧ (t'.wave wv).tepc = tepc ∧ (t'.wave wv).h = some h ∧ (t'.wave wv).unfinished = [] ∧
      (t'.wave wv).stuck = [] ∧
      (t'.wave wv).tcause = BitVec.ofNat 32 ((lowestClass traps).toNat +
        (((traps.find? (fun (r : TrapRec) => r.cls == lowestClass traps)).map (fun (r : TrapRec) => r.sub)).getD 0).toNat * 2 ^ 8) ∧
      vget (t'.wave wv).s 0 = BitVec.ofNat 32 (waveNumber a (t.wave wv)) ∧
      h.level = (t.wave wv).level ∧ h.depth = 0 ∧ h.batch = batch ∧ h.dues = (t.wave wv).due ∧ (t'.wave wv).due = [] ∧ h.replay = (if lowestClass traps = 13 ∨ lowestClass traps = 14 then
        (batch.foldl (fun w l => w.passWindows l false) (t.wave wv)).unfinished else (t.wave wv).unfinished) ∧
      h.ss = [vget (t.wave wv).s 0, vget (t.wave wv).s 1, vget (t.wave wv).s 2, vget (t.wave wv).s 3] ∧
      (∀ x ∈ t.fibres, x.1 / t.width = wv →
        ⟨x.1 % t.width, x.2.pc, x.2.grp, x.2.own⟩ ∈ h.resume ∧ x.2.low4 (x.1 % t.width) ∈ h.gs ∧
        ∃ f, (x.1, f) ∈ t'.fibres ∧ f.pc = BitVec.ofNat 52 (p.tvbk.toNat + (lowestClass traps).toNat * 256) ∧ f.st = .run ∧
          vget f.regs.g 1 = ((traps.find? (fun (r : TrapRec) => r.lane == x.1 % t.width)).map (fun (r : TrapRec) => r.aux)).getD 0 ∧
          (∀ k, 2 ≤ k → k < 64 → vget f.regs.g k = vget x.2.regs.g k) ∧ f.regs.f = x.2.regs.f ∧ f.regs.ix = x.2.regs.ix) ∧
      (∀ x ∈ t.fibres, x.1 / t.width ≠ wv → x ∈ t'.fibres) ∧ (∀ w, w ≠ wv → t'.wave w = t.wave w) ∧
      (∀ n, n < p.tside.toNat + waveNumber a (t.wave wv) * 512 ∨ p.tside.toNat + waveNumber a (t.wave wv) * 512 + 512 ≤ n →
        (s.enterHandler a wv tepc traps execs batch none).readP n 1 = s.readP n 1) ∧
      (s.enterHandler a wv tepc traps execs batch none).parts = s.parts ∧
      (s.enterHandler a wv tepc traps execs batch none).cores = s.cores ∧
      (s.enterHandler a wv tepc traps execs batch none).cur = none

/-- RFT restores what the entry saved; RPLY in a handler. RFT at level 1 or 2 in a handler, by every live lane and with
no word of the handler unperformed, completes and the wave returns: it has the saved level, s0–s3 and unfinished
words again; the lanes of the word resume at TEPC, or one word after it for SYSC and TRAP, the others at their saved
PCs; g2 and g3 are restored, and g0 and g1 too unless the class was SYSC or TRAP. RPLY, in its four forms, of a wave
in a handler: the operation and index come from A (equal in every lane), the offset from B, with 2,624 aligned bytes
of scratch; status 1 for an index outside the queue, 2 for an image refused, 4 for a full queue, 3 for a reserved
bit of A, else 0 and the queue (and scratch, for GET) changes; D takes the status. That every form checks its 2,624
bytes, and what an image's window means, are log 42; what FLT and a lane whose result has landed read as, and the
images refused, are log 95. (09_isa_system R210, 18_traps R357, 09_isa_system R211, 09_isa_system R212.) -/
def Obligations.ReturnFromHandler : Prop :=
  (∀ (h : Hdr) (s : State) (b : Issue) (t : Team) (l : Nat) (hs : HSave), Solo s b t l h.guard → t.levelAt b.wave l ≠ 0 → (t.wave b.wave).h = some hs →
    (t.wave b.wave).lost = false → (t.wave b.wave).unfinished.any (fun e => e.lanes.any (fun r => !r.perf)) = false →
    (∀ k ∈ (t.wave b.wave).stuck, k.pc = b.pc → l ∈ k.todo ∨ l ∈ k.done) →
    exec (.rft h) s = .next (b.complete (.rft h) s (fun s => (s.returnHandler b.agent b.wave).landReady b.agent b.wave)
      { b.start s t l with st := s.updWave b.agent b.wave Wave.closeWindows })) ∧
  (∀ (s : State) (a : AgentId) (wv : Nat) (t : Team) (h : HSave), s.team? a = some t → wv < 32 → (t.wave wv).h = some h →
    h.ss.length = 4 →
    ∃ t', (s.returnHandler a wv).team? a = some t' ∧ (t'.wave wv).level = h.level ∧ (t'.wave wv).unfinished = h.replay ∧
      [vget (t'.wave wv).s 0, vget (t'.wave wv).s 1, vget (t'.wave wv).s 2, vget (t'.wave wv).s 3] = h.ss ∧
      (∀ k, 4 ≤ k → vget (t'.wave wv).s k = vget (t.wave wv).s k) ∧ (t'.wave wv).a = (t.wave wv).a ∧
      (s.returnHandler a wv).mem = s.mem ∧ (s.returnHandler a wv).parts = s.parts ∧
      (∀ x ∈ t.fibres, x.1 / t.width = wv → ∃ f, (x.1, f) ∈ t'.fibres ∧ f.st = .run ∧ f.regs.f = x.2.regs.f ∧
        (x.1 % t.width ∈ h.batch → f.pc = (t.wave wv).tepc +
          (if (t.wave wv).tcause.toNat % 16 = 13 ∨ (t.wave wv).tcause.toNat % 16 = 14 then 8 else 0)) ∧
        (x.1 % t.width ∉ h.batch → ∀ q, h.resume.find? (·.lane == x.1 % t.width) = some q → f.pc = q.pc) ∧
        (∀ k x0 x1 x2 x3, h.gs.find? (·.lane == x.1 % t.width) = some k → k.g = [x0, x1, x2, x3] →
          vget f.regs.g 2 = x2 ∧ vget f.regs.g 3 = x3 ∧
          ((t.wave wv).tcause.toNat % 16 ≠ 13 → (t.wave wv).tcause.toNat % 16 ≠ 14 →
            vget f.regs.g 0 = x0 ∧ vget f.regs.g 1 = x1)))) ∧
  (∀ w ∈ rplyWords, ∀ (h : Hdr) (d a c : Opnd) (s : State) (b : Issue) (t : Team) (l : Nat) (ctl off : Word) (hs : HSave) (op i st : Nat) (q : List Entry)
    (out : List (BitVec 8)) (img : Option Entry) (y y' z : LS), Solo s b t l h.guard →
    t.levelAt b.wave l ≠ 0 → (t.wave b.wave).h = some hs →
    Does (do
      L.check 1 [a, c] [d]
      let ctl ← L.rdW a
      L.sameInAll ctl (L.rdW a)
      let off ← L.rdW c
      L.sameInAll off (L.rdW c)
      L.checkScr off.toNat 2624 16
      return (ctl, off)) (b.start s t l) (ctl, off) y →
    op = ctl.toNat / 16 % 4 → i = ctl.toNat % 16 →
    img = entryOf (t.scratch.bytes off.toNat 2624) hs.level.toNat (t.liveLanes b.wave)
      (match op, hs.replay[i]? with | 1, some e => e.id | _, _ => s.tick) s.nextJob →
    rplyOp hs.replay op i img = (st, q, out) →
    Does (do
      if (op = 1 ∨ op = 3) ∧ t.scrBad off.toNat 2624 then L.chki 4
      if st = 0 ∧ ctl.toNat < 64 then
        L.modWave (fun w => { w with h := some { hs with replay := q } })
        L.modTeam (fun t => t.wrScrBytes off.toNat out)) y () y' →
    Does (L.wrW d (BitVec.ofNat 32 (if (st = 0 ∨ st = 4) ∧ 64 ≤ ctl.toNat then 3 else st))) y' () z →
    exec (w h d a c) s = .next (b.complete (w h d a c) s id z))

/-- CSRR: who may read which CSR, and what it reads. CSRR of a number that a level may read, with LA = 0 and nothing
pending for D, lands the CSR's value at once (log 14); below its level it traps ILL PRIV and for any other number
ILL CSR. Each CSR reads the register of the table; CYC and TEPC latch their high half for the fibre, which the next
read of the high number takes, once. (01_conventions R25, 09_isa_system R213, 09_isa_system R214.) -/
def Obligations.CsrReads : Prop :=
  (∀ (f : Hdr → Opnd → BitVec 12 → Instr), f = .csrr ∨ f = .csrHighLatchRead → ∀ (h : Hdr) (d : Opnd) (n : BitVec 12) (s : State) (b : Issue) (t : Team) (l : Nat)
    (lv : Nat) (y z : LS), Solo s b t l h.guard → readableAt n = some lv → lv ≤ t.levelAt b.wave l →
    Does (L.checkRegs [d]) (b.start s t l) () y →
    Landed (f h d n) h Cap.zero (do return ((← L.csrRead n.toNat).setWidth 128, 0)) y z →
    exec (f h d n) s = .next (b.complete (f h d n) s id z)) ∧
  (∀ (h : Hdr) (d : Opnd) (n : BitVec 12) (s : State) (b : Issue) (t : Team) (l : Nat) (lv : Nat), Solo s b t l h.guard → readableAt n = some lv →
    t.levelAt b.wave l < lv → exec (.csrr h d n) s = .next (trapAlone s b l 0 0x0C 0)) ∧
  (∀ (h : Hdr) (d : Opnd) (n : BitVec 12) (s : State) (b : Issue) (t : Team) (l : Nat), Solo s b t l h.guard → readableAt n = none →
    exec (.csrr h d n) s = .next (trapAlone s b l 0 0x0D 0)) ∧
  (∀ (x : LS) (t : Team) (p : Partition), Does L.team x t x → Does L.part x p x →
    ∀ c ∈ csrValues x.st t p (t.wave x.wave) x.agent, Does (L.csrRead c.1) x c.2 x) ∧
  (∀ (x : LS) (t : Team) (p : Partition), Does L.team x t x → Does L.part x p x →
    Does (L.csrRead 0x001) x ((x.st.core (coreOf x.agent)).cyc.extractLsb' 0 32) { x with
      st := x.st.updFibre x.agent x.wave x.lane (fun f => { f with
        latch := (2, (x.st.core (coreOf x.agent)).cyc.extractLsb' 32 32) :: f.latch.filter (·.1 != 2) }) } ∧
    Does (L.csrRead 0x108) x ((t.wave x.wave).tepc.extractLsb' 0 32) { x with
      st := x.st.updFibre x.agent x.wave x.lane (fun f => { f with
        latch := (0x109, ((t.wave x.wave).tepc.setWidth 64).extractLsb' 32 32) :: f.latch.filter (·.1 != 0x109) }) }) ∧
  (∀ n ∈ [0x002, 0x109], ∀ (x : LS) (t : Team) (p : Partition) (f : Fibre) (v : Word), Does L.team x t x → Does L.part x p x →
    Does L.fibre x f x → f.latch.find? (·.1 == n) = some (n, v) →
    Does (L.csrRead n) x v { x with
      st := x.st.updFibre x.agent x.wave x.lane (fun f => { f with latch := f.latch.filter (·.1 != n) }) })

/-- CSRW, CSRX and the words that write one CSR. CSRW and CSRX of a CSR that the level may write read A and write it;
CSRX also writes the old value to D. FENV takes A under its writable bits; TEPC's low half is held for the fibre and
its high half writes both, bits 2:0 zero (log 101); FLTQ takes a page address while no record is queued or pending;
MSTAT accepts only its own value; KEYST takes a port below 72. (01_conventions R25, 09_isa_system R213,
12_translation R293, 17_engines R340, 20_fabric R399, 03_numbers R58.) -/
def Obligations.CsrWrites : Prop :=
  (∀ (h : Hdr) (a : Opnd) (n : BitVec 12) (s : State) (b : Issue) (t : Team) (l : Nat) (v : Word) (y z : LS), Solo s b t l h.guard →
    Does (do L.csrAllowed n.toNat false true; L.checkRegs [a]; L.rdW a) (b.start s t l) v y →
    Does (L.csrWrite n.toNat v) y () z →
    exec (.csrw h a n) s = .next (b.complete (.csrw h a n) s id z)) ∧
  (∀ (h : Hdr) (d a : Opnd) (n : BitVec 12) (s : State) (b : Issue) (t : Team) (l : Nat) (v old : Word) (y z : LS), Solo s b t l h.guard →
    Does (do L.csrAllowed n.toNat true true; L.checkRegs [d, a]; return (← L.rdW a, ← L.csrRead n.toNat)) (b.start s t l)
      (v, old) y →
    Does (do L.csrWrite n.toNat v; L.wrW d old) y () z →
    exec (.csrx h d a n) s = .next (b.complete (.csrx h d a n) s id z)) ∧
  (∀ (h : Hdr) (a : Opnd) (s : State) (b : Issue) (t : Team) (l : Nat) (v : Word) (y : LS), Solo s b t l h.guard →
    Does (do L.checkRegs [a]; L.rdW a) (b.start s t l) v y →
    exec (.fenvWrite h a) s = .next (b.complete (.fenvWrite h a) s id { y with
      st := y.st.updTeam b.agent (fun t => { t with fenv := v &&& 0x1F1F }) })) ∧
  (∀ (h : Hdr) (a : Opnd) (s : State) (b : Issue) (t : Team) (l : Nat) (v : Word) (y : LS), Solo s b t l h.guard → t.levelAt b.wave l ≠ 0 →
    Does (do L.checkRegs [a]; L.rdW a) (b.start s t l) v y →
    exec (.tepcWrite h a false) s = .next (b.complete (.tepcWrite h a false) s id { y with
      st := y.st.updFibre b.agent b.wave l (fun f => { f with
        held := (0x108, v) :: f.held.filter (·.1 != 0x108) }) })) ∧
  (∀ (h : Hdr) (a : Opnd) (s : State) (b : Issue) (t : Team) (l : Nat) (v u : Word) (f : Fibre) (y : LS), Solo s b t l h.guard → t.levelAt b.wave l ≠ 0 →
    Does (do L.checkRegs [a]; let v ← L.rdW a; return (v, ← L.fibre)) (b.start s t l) (v, f) y →
    f.held.find? (·.1 == 0x108) = some (0x108, u) →
    exec (.tepcWrite h a true) s = .next (b.complete (.tepcWrite h a true) s id { y with
      st := (y.st.updFibre b.agent b.wave l (fun f => { f with held := f.held.filter (·.1 != 0x108) })).updWave b.agent b.wave
        (fun w => { w with tepc := v.extractLsb' 0 20 ++ (u &&& 0xFFFF_FFF8) }) })) ∧
  (∀ (h : Hdr) (a : Opnd) (s : State) (b : Issue) (t : Team) (l : Nat) (v : Word) (p : Partition) (y : LS), Solo s b t l h.guard → t.levelAt b.wave l ≠ 0 →
    Does (do L.checkRegs [a]; let v ← L.rdW a; return (v, ← L.part)) (b.start s t l) (v, p) y →
    v.toNat % 4096 = 0 → p.fltCount = 0 → p.pending = [] →
    exec (.fltqWrite h a) s = .next (b.complete (.fltqWrite h a) s id { y with
      st := y.st.updPart p.id (fun p => { p with fltq := v.setWidth 52 }) })) ∧
  (∀ (h : Hdr) (a : Opnd) (s : State) (b : Issue) (t : Team) (l : Nat) (v : Word) (y : LS), Solo s b t l h.guard → t.levelAt b.wave l ≠ 0 →
    Does (do L.checkRegs [a]; L.rdW a) (b.start s t l) v y → v = y.st.mstatOf b.agent →
    exec (.mstatWrite h a) s = .next (b.complete (.mstatWrite h a) s id y)) ∧
  (∀ (h : Hdr) (a : Opnd) (s : State) (b : Issue) (t : Team) (l : Nat) (v : Word) (y : LS), Solo s b t l h.guard → t.levelAt b.wave l = 2 →
    Does (do L.checkRegs [a]; L.rdW a) (b.start s t l) v y → v.toNat % 128 < 72 →
    exec (.keystWrite h a) s = .next (b.complete (.keystWrite h a) s id { y with
      st := { y.st with keyPort := v.extractLsb' 0 7 } }))

/-- LNCH and CANC. LNCH at level 1 or 2 reads the descriptor, its footprint list and the team shape, and writes the
status of the checks; with status 0 it releases at the page's scope and the launch is accepted. CANC marks its
counter cancelled at a level: every launch that names it there is marked, the partition's rings keep no entry of
such a launch, so that no pop starts a unit of it, and every team that names it is marked and its discard is due.
(09_isa_system R215, 09_isa_system R216, 09_isa_system R217, 09_isa_system R218.) -/
def Obligations.LaunchAndCancel : Prop :=
  (∀ (h : Hdr) (d a c : Opnd) (s : State) (b : Issue) (t : Team) (l : Nat) (va v w shape : Nat) (fp : List Nat) (pa : Option Nat) (leaf : QWord) (p : Partition)
    (y z z1 : LS), Solo s b t l h.guard → t.levelAt b.wave l ≠ 0 →
    Does (do L.checkRegs [d, c]; let va ← L.rdPair a; return (va, (← L.rdW c).toNat)) (b.start s t l) (va, v) y →
    va < 2 ^ 52 → va % 64 = 0 →
    Does (do
      let x ← L.locate .load va 16
      let w ← L.loadQuads va 4
      let fp ← (List.range (bits w 352 16)).mapM (fun k => L.loadQuads (va + 64 + 16 * k) 1)
      let p ← L.part
      if 2 ^ 52 ≤ p.tshape.toNat + 8 * bits w 304 8 then L.pageTrap 1 (p.tshape.toNat + 8 * bits w 304 8) 0
      return (x, w, fp, p, ← L.load .load (p.tshape.toNat + 8 * bits w 304 8) 8)) y ((pa, leaf), w, fp, p, shape) z →
    (∀ z', lnchStatus z.st p w v shape fp ≠ 0 → Does (L.wrW d (BitVec.ofNat 32 (lnchStatus z.st p w v shape fp))) z () z' →
      exec (.lnch h d a c) s = .next (b.complete (.lnch h d a c) s id z')) ∧
    (∀ z', lnchStatus z.st p w v shape fp = 0 → Does (L.release (lfScope leaf)) z () z1 → Does (L.wrW d 0) { z1 with
        st := z1.st.acceptLaunch (launchOf z1.st.nextLaunch p.id w v shape fp) } () z' →
      exec (.lnch h d a c) s = .next (b.complete (.lnch h d a c) s id z'))) ∧
  (∀ (h : Hdr) (a : Opnd) (lvl : BitVec 2) (s : State) (b : Issue) (t : Team) (l : Nat) (v : Word) (p : Partition) (y : LS), Solo s b t l h.guard →
    t.levelAt b.wave l ≠ 0 →
    Does (do L.checkRegs [a]; return (← L.rdW a, ← L.part)) (b.start s t l) (v, p) y →
    exec (.canc h a lvl) s = .next (b.complete (.canc h a lvl) s id { y with
      st := y.st.cancelCounter p.id (v.toNat % 2 ^ 12) lvl.toNat })) ∧
  (∀ (s s' : State) (part n lvl : Nat), s' = s.cancelCounter part n lvl →
    (∀ p, s.part? part = some p → ∃ p', s'.part? part = some p' ∧ lvl ∈ (p'.counter n).marks) ∧
    (∀ k ∈ s'.launches, k.part = part → k.slots.at lvl = some n → k.cancelled = true) ∧
    ((s.rings.map (fun r => (r.part, r.die, r.prio))).Nodup → s.part? part ≠ none →
      ∀ r ∈ s'.rings, r.part = part → ∀ l first stride m pos,
        .range l first stride m pos ∈ r.entries ++ r.held.map (·.2) →
        ∀ k, s'.launch? l = some k → k.part = part → k.slots.at lvl ≠ some n) ∧
    (∀ t ∈ s'.allTeams, t.part = part → t.work.slots.at lvl = some n → t.axed = true) ∧
    (∀ t ∈ s.allTeams, t.part = part → t.work.slots.at lvl = some n → t.axed = false → .discard t.agent ∈ s'.agenda))

/-- TINV, RACK, PARKR and RSUM. TINV drops the named pages' entries from every core, or the partition's with bit 31;
RACK binds a counter to a schedule, replaces or (all ones) ends the binding, and writes 1 when 16 others exist;
PARKR moves the oldest fault record to scratch and writes its ticket; RSUM writes 1 for a ticket that is not held, 2
for a bad action word, else 0 and the access is retried, or fails with the subcode. (09_isa_system R220,
09_isa_system R221, 09_isa_system R222, 09_isa_system R223.) -/
def Obligations.TranslationAndFaultWords : Prop :=
  (∀ (h : Hdr) (a c : Opnd) (s : State) (b : Issue) (t : Team) (l : Nat) (va : Nat) (v : Word) (p : Partition) (y : LS), Solo s b t l h.guard →
    t.levelAt b.wave l ≠ 0 →
    Does (do L.checkRegs [c]; return (← L.pageAddr 8 a, ← L.rdW c, ← L.part)) (b.start s t l) (va, v, p) y →
    exec (.tinv h a c) s = .next (b.complete (.tinv h a c) s id { y with
      st := if v.getLsbD 31 then y.st.dropPart p.id
        else (pageRun va (v.toNat % 64 + 1)).foldl (fun s va => s.dropAll p.id (va / 4096)) y.st })) ∧
  (∀ (h : Hdr) (d a c : Opnd) (s : State) (b : Issue) (t : Team) (l : Nat) (u v : Word) (p : Partition) (y z : LS), Solo s b t l h.guard →
    t.levelAt b.wave l ≠ 0 →
    Does (do L.check 1 [a, c] [d]; return (← L.rdW a, ← L.rdW c, ← L.part)) (b.start s t l) (u, v, p) y →
    v ≠ 0xFFFF_FFFF → 16 ≤ (p.bindings.filter (·.counter != u.toNat % 2 ^ 12)).length →
    Does (L.wrW d 1) y () z →
    exec (.rack h d a c) s = .next (b.complete (.rack h d a c) s id z)) ∧
  (∀ (h : Hdr) (d a c : Opnd) (s : State) (b : Issue) (t : Team) (l : Nat) (u v : Word) (p : Partition) (y z : LS), Solo s b t l h.guard →
    t.levelAt b.wave l ≠ 0 →
    Does (do L.check 1 [a, c] [d]; return (← L.rdW a, ← L.rdW c, ← L.part)) (b.start s t l) (u, v, p) y →
    (v = 0xFFFF_FFFF ∨ (p.bindings.filter (·.counter != u.toNat % 2 ^ 12)).length < 16) →
    Does (L.wrW d 0) { y with st := (y.st.updPart p.id (fun q => { q with
      bindings := p.bindings.filter (·.counter != u.toNat % 2 ^ 12) ++
        (if v = 0xFFFF_FFFF then [] else [⟨u.toNat % 2 ^ 12, v.toNat, 0, 0⟩]) })) |>
          (fun s => if p.bindings.any (·.counter == u.toNat % 2 ^ 12) then s.bindingOver p.id (u.toNat % 2 ^ 12) else s) } () z →
    exec (.rack h d a c) s = .next (b.complete (.rack h d a c) s id z)) ∧
  (∀ (h : Hdr) (d a : Opnd) (s : State) (b : Issue) (t : Team) (l : Nat) (off : Word) (p : Partition) (y z : LS), Solo s b t l h.guard →
    t.levelAt b.wave l ≠ 0 →
    Does (do
      L.checkRegs [d, a]
      let off ← L.rdW a
      L.checkScr off.toNat 32 16
      return (off, ← L.part)) (b.start s t l) (off, p) y → p.fltCount ≠ 0 →
    y.st.poisoned (p.fltq.toNat + 32 * p.fltHead) 32 = false →
    Does (L.wrW d (BitVec.ofNat 32 (y.st.readP (p.fltq.toNat + 32 * p.fltHead) 32 / 2 ^ 64))) { y with
      st := ((y.st.updTeam b.agent (·.wrScr off.toNat 32 (y.st.readP (p.fltq.toNat + 32 * p.fltHead) 32))).updPart p.id
        (fun p => { p with fltHead := (p.fltHead + 1) % 128, fltCount := p.fltCount - 1 })).enterRecord p.id } () z →
    exec (.parkr h d a) s = .next (b.complete (.parkr h d a) s id z)) ∧
  (∀ (f : Hdr → Opnd → Opnd → Opnd → Instr), f = .rsumRetry ∨ f = .rsumFail → ∀ (h : Hdr) (d a c : Opnd) (s : State) (b : Issue) (t : Team) (l : Nat) (u v : Word)
    (p : Partition) (y : LS), Solo s b t l h.guard → t.levelAt b.wave l ≠ 0 →
    Does (do L.check 1 [a, c] [d]; return (← L.rdW a, ← L.rdW c, ← L.part)) (b.start s t l) (u, v, p) y →
    (∀ z, y.st.ticket? p.id u = none → Does (L.wrW d 1) y () z → exec (f h d a c) s = .next (b.complete (f h d a c) s id z)) ∧
    (∀ k z, y.st.ticket? p.id u = some k →
      (2 ≤ v.toNat % 4 ∨ v.toNat % 4 = 1 ∧ v.toNat / 256 % 256 < 16 ∨ 2 ^ 16 ≤ v.toNat ∨ v.toNat / 4 % 64 ≠ 0) →
      Does (L.wrW d 2) y () z → exec (f h d a c) s = .next (b.complete (f h d a c) s id z)) ∧
    (∀ k z, y.st.ticket? p.id u = some k → v.toNat / 4 % 64 = 0 → v.toNat < 2 ^ 16 →
      (v.toNat % 4 = 0 ∨ v.toNat % 4 = 1 ∧ 16 ≤ v.toNat / 256) →
      Does (L.wrW d 0) { y with
        st := if v.toNat % 4 = 0 then y.st.retryParked (u.extractLsb' 21 11) k
          else y.st.failParked (u.extractLsb' 21 11) k (BitVec.ofNat 8 (v.toNat / 256)) } () z →
      exec (f h d a c) s = .next (b.complete (f h d a c) s id z)))

/-- SWPO, SWPI and PREM. SWPO writes 1 for a team that the partition does not have, 2 for one not resident, else 0 and
the team is swapped out, once its jobs stand at their engines' stopping units, for which it waits; SWPI writes 1 for
a team that SWPO has not swapped, 2 where no room is found, else 0 and the team is resident again; PREM writes 1 for
a partition that does not exist, 2 for an empty or impossible mask, and with status 0 halts the cores of the mask;
no engine being busy, or once every engine has reported its stop, for which it waits, the dies switch. That it halts
in one step and switches in a later one is the model's choice (log 46), and so is 1 for a number above 15 (log 98).
(09_isa_system R224, 09_isa_system R225, 18_traps R364.) -/
def Obligations.SwapAndSwitchWords : Prop :=
  (∀ (h : Hdr) (d a : Opnd) (s : State) (b : Issue) (t : Team) (l : Nat) (v : Word) (p : Partition) (y : LS), Solo s b t l h.guard → t.levelAt b.wave l ≠ 0 →
    Does (do L.check 1 [a] [d]; return (← L.rdW a, ← L.part)) (b.start s t l) (v, p) y →
    (∀ z, y.st.partTeam? p.id (v.extractLsb' 0 16) = none → Does (L.wrW d 1) y () z →
      exec (.swpo h d a) s = .next (b.complete (.swpo h d a) s id z)) ∧
    (∀ g z, y.st.partTeam? p.id (v.extractLsb' 0 16) = some g → g.resid ≠ .resident → Does (L.wrW d 2) y () z →
      exec (.swpo h d a) s = .next (b.complete (.swpo h d a) s id z)) ∧
    (∀ g z, y.st.partTeam? p.id (v.extractLsb' 0 16) = some g → g.resid = .resident →
      y.st.stopsIn (v.extractLsb' 0 16) p.id = true → Does (L.wrW d 0) y () z →
      exec (.swpo h d a) s = .next (b.complete (.swpo h d a) s id { z with
        st := z.st.inCtx (coreOf (v.extractLsb' 0 16)) p.id
          (fun s => s.swapOut (v.extractLsb' 0 16) .swappedBySwpo (fun _ => true)) })) ∧
    (∀ g, y.st.partTeam? p.id (v.extractLsb' 0 16) = some g → g.resid = .resident →
      y.st.stopsIn (v.extractLsb' 0 16) p.id = false →
      exec (.swpo h d a) s = .next (b.blocked (.swpo h d a) s l .drain (b.start s t l)))) ∧
  (∀ (h : Hdr) (d a : Opnd) (s : State) (b : Issue) (t : Team) (l : Nat) (v : Word) (p : Partition) (y : LS), Solo s b t l h.guard → t.levelAt b.wave l ≠ 0 →
    Does (do L.check 1 [a] [d]; return (← L.rdW a, ← L.part)) (b.start s t l) (v, p) y →
    (∀ z, (∀ g, y.st.partTeam? p.id (v.extractLsb' 0 16) = some g → g.resid ≠ .swappedBySwpo) → Does (L.wrW d 1) y () z →
      exec (.swpi h d a) s = .next (b.complete (.swpi h d a) s id z)) ∧
    (∀ g s' z, y.st.partTeam? p.id (v.extractLsb' 0 16) = some g → g.resid = .swappedBySwpo →
      s' = y.st.inCtx (coreOf (v.extractLsb' 0 16)) p.id (fun s => (s.swapIn (v.extractLsb' 0 16)).getD s) →
      (s'.partTeam? p.id (v.extractLsb' 0 16)).map (·.resid) = some .resident → Does (L.wrW d 0) { y with st := s' } () z →
      exec (.swpi h d a) s = .next (b.complete (.swpi h d a) s id z)) ∧
    (∀ g s' z, y.st.partTeam? p.id (v.extractLsb' 0 16) = some g → g.resid = .swappedBySwpo →
      s' = y.st.inCtx (coreOf (v.extractLsb' 0 16)) p.id (fun s => (s.swapIn (v.extractLsb' 0 16)).getD s) →
      (s'.partTeam? p.id (v.extractLsb' 0 16)).map (·.resid) ≠ some .resident → Does (L.wrW d 2) y () z →
      exec (.swpi h d a) s = .next (b.complete (.swpi h d a) s id z))) ∧
  (∀ (h : Hdr) (d a c : Opnd) (s : State) (b : Issue) (t : Team) (l : Nat) (u v : Word) (y : LS), Solo s b t l h.guard → t.levelAt b.wave l ≠ 0 →
    Does (do
      L.check 1 [a, c] [d]
      let u ← L.rdW a
      L.sameInAll u (L.rdW a)
      let v ← L.rdW c
      L.sameInAll v (L.rdW c)
      return (u, v)) (b.start s t l) (u, v) y →
    (∀ k z, k = (if 16 ≤ u.toNat ∨ y.st.part? u.toNat = none then 1 else if v = 0 ∨ 256 ≤ v.toNat then 2 else 0) →
      k ≠ 0 → (∀ e ∈ s.agenda, ∀ p m, e ≠ .switchTo p m) → Does (L.wrW d k) y () z →
      exec (.prem h d a c) s = .next (b.complete (.prem h d a c) s id z)) ∧
    (∀ z, u.toNat < 16 → y.st.part? u.toNat ≠ none → v ≠ 0 → v.toNat < 256 →
      (∀ k ∈ (t.wave b.wave).stuck, k.pc ≠ b.pc) →
      (∀ k ∈ y.st.coresOf v.toNat, (y.st.core k).switching = false) →
      (∀ k ∈ (s.haltFor v.toNat).coresOf v.toNat, ((s.haltFor v.toNat).core k).awaiting = []) →
      Does (L.wrW d 0) { y with
        st := ((y.st.haltFor v.toNat).switchTaken b.agent b.wave).push (.switchTo u.toNat v.toNat) } () z →
      exec (.prem h d a c) s = .next (b.complete (.prem h d a c) s (afterPrem b) z)) ∧
    (u.toNat < 16 → y.st.part? u.toNat ≠ none → v ≠ 0 → v.toNat < 256 →
      (∀ k ∈ (t.wave b.wave).stuck, k.pc ≠ b.pc) → (∀ e ∈ s.agenda, ∀ p m, e ≠ .switchTo p m) →
      (∀ k ∈ y.st.coresOf v.toNat, (y.st.core k).switching = false) →
      (∃ k ∈ (s.haltFor v.toNat).coresOf v.toNat, ((s.haltFor v.toNat).core k).awaiting ≠ []) →
      exec (.prem h d a c) s = .next (b.blocked (.prem h d a c) s l .stop { b.start s t l with
        st := (s.haltFor v.toNat).push (.switchDue u.toNat v.toNat b.agent b.wave) })) ∧
    (∀ z, u.toNat < 16 → y.st.part? u.toNat ≠ none → v ≠ 0 → v.toNat < 256 →
      (∃ w, y.st.wave? b.agent b.wave = some w ∧ ∃ k ∈ w.stuck, k.pc = b.pc ∧ k.why = .stop) →
      (∀ k ∈ y.st.coresOf v.toNat, (y.st.core k).awaiting = []) →
      Does (L.wrW d 0) { y with st := (y.st.switchTaken b.agent b.wave).push (.switchTo u.toNat v.toNat) } () z →
      exec (.prem h d a c) s = .next (b.complete (.prem h d a c) s (afterPrem b) z)))

/-- FRZ, HALT, CNDL, CMAP and ATST. FRZ at level 2 stops every clock with nothing completed; HALT of a present core
stops or lets go its popping by bit 31; CNDL writes 3 for its own or an absent core and the scan's result once there
is one; CMAP writes 1 for an edit it refuses and else, with no team resident on the core, one of a partition that
does not run now included, and no access parked, writes the entry, a removed one as 0 (both log 99), whose physical
core stands still; ATST extends a slot by the digest of the bytes. (09_isa_system R226, 09_isa_system R227,
09_isa_system R228, 09_isa_system R229, 09_isa_system R230.) -/
def Obligations.MonitorWords : Prop :=
  (∀ (h : Hdr) (s : State) (b : Issue) (t : Team) (l : Nat), Solo s b t l h.guard → t.levelAt b.wave l = 2 →
    ∃ s', exec (.frz h) s = .next s' ∧ s'.power = .frozen ∧ s'.mem = s.mem ∧ s'.parts = s.parts) ∧
  (∀ (f : Hdr → Opnd → Instr), f = .halt ∨ f = .haltEnable → ∀ (h : Hdr) (a : Opnd) (s : State) (b : Issue) (t : Team) (l : Nat) (v : Word) (y : LS),
    Solo s b t l h.guard → t.levelAt b.wave l ≠ 0 →
    Does (do L.checkRegs [a]; L.rdW a) (b.start s t l) v y → v.toNat % 32 = 0 → v.toNat / 2 ^ 16 % 2 ^ 15 = 0 →
    y.st.corePresent (v.extractLsb' 5 11) = true →
    exec (f h a) s = .next (b.complete (f h a) s id { y with
      st := y.st.updCore (v.extractLsb' 5 11) (fun k => { k with halted := !v.getLsbD 31 }) })) ∧
  (∀ (h : Hdr) (d a : Opnd) (s : State) (b : Issue) (t : Team) (l : Nat) (v : Word) (p : Partition) (y : LS), Solo s b t l h.guard → t.levelAt b.wave l = 2 →
    Does (do L.check 1 [a] [d]; return (← L.rdW a, ← L.part)) (b.start s t l) (v, p) y →
    (∀ z, (v.extractLsb' 5 11 = coreOf b.agent ∨ y.st.corePresent (v.extractLsb' 5 11) = false) → Does (L.wrW d 3) y () z →
      exec (.cndl h d a) s = .next (b.complete (.cndl h d a) s id z)) ∧
    (∀ r z, v.extractLsb' 5 11 ≠ coreOf b.agent → y.st.corePresent (v.extractLsb' 5 11) = true →
      (y.st.core (v.extractLsb' 5 11)).candle = some ⟨p.id, b.agent, b.wave, l, some r, false⟩ →
      Does (L.wrW d (BitVec.ofNat 32 r)) { y with
        st := y.st.updCore (v.extractLsb' 5 11) (fun k => { k with candle := none }) } () z →
      exec (.cndl h d a) s = .next (b.complete (.cndl h d a) s id z))) ∧
  (∀ (h : Hdr) (d a c : Opnd) (s : State) (b : Issue) (t : Team) (l : Nat) (u v : Word) (y : LS), Solo s b t l h.guard → t.levelAt b.wave l = 2 →
    Does (do L.check 1 [a, c] [d]; return (← L.rdW a, ← L.rdW c)) (b.start s t l) (u, v) y →
    (∀ z, y.st.cmapBad u v = true → Does (L.wrW d 1) y () z →
      exec (.cmap h d a c) s = .next (b.complete (.cmap h d a c) s id z)) ∧
    (∀ z, y.st.cmapBad u v = false →
      (∀ k ∈ y.st.allTeams, coreOf k.agent = u.extractLsb' 5 11 → k.resid ≠ .resident) →
      (y.st.core (u.extractLsb' 5 11)).replay = [] →
      (∀ k ∈ y.st.saved, k.core = u.extractLsb' 5 11 → k.replay = []) →
      Does (L.wrW d 0) { y with
        st := (if v.getLsbD 31 then y.st.stopCore (coreIndex (u.extractLsb' 5 11)) else y.st).writeMap
          (coreIndex (u.extractLsb' 5 11)) (if v.getLsbD 31 then 0 else BitVec.ofNat 16 (v.toNat / 32 % 2 ^ 11 * 32 + 1)) } () z →
      exec (.cmap h d a c) s = .next (b.complete (.cmap h d a c) s id z))) ∧
  (∀ (h : Hdr) (d a c : Opnd) (s : State) (b : Issue) (t : Team) (l : Nat) (i n : Word) (va : Nat) (m : List (BitVec 8)) (y z : LS), Solo s b t l h.guard →
    t.levelAt b.wave l = 2 →
    Does (do L.checkRegs [d, c]; return (← L.rdW d, ← L.rdPair a, ← L.rdW c)) (b.start s t l) (i, va, n) y →
    i.toNat < 16 → n.toNat % 64 = 0 → n ≠ 0 → n.toNat ≤ 1048576 → va < 2 ^ 52 → Does (L.loadBytes va n.toNat) y m z →
    exec (.atst h d a c) s = .next (b.complete (.atst h d a c) s id { z with
      st := { z.st with atst := vset z.st.atst i.toNat (extendSlot (vget z.st.atst i.toNat) m) } }))

/-- A long-latency word is performed, a trap is late, a handler is entered, the device freezes; With lookahead the
result of a division is held, not written. LONG_LATENCY_COMPLETION of a word with one lane still to be performed
performs it from its captured sources, keeps the result in its record, and lands what may land; LATE_TRAP of a word
whose performing traps, or either event of a word that a later scratch word has bound for its trap, enters the
handler at that word, neither it nor a later one in the queue, or precisely, only the word itself gone from the
queue, when none of its window words has issued; HANDLER_ENTRY enters for the traps named; FREEZE stops the clocks.
When a word with lookahead is performed, and how its result is held, are log 14. With LA > 0 and a destination that
is no uniform register, the word leaves an unfinished record of the lane with its captured sources and LA window
words to go; the result is in the record when the word is performed at once; whether it is, is free
(Config.performsLate; both are the model's choices, log 14). No register is written. (02_encoding R42, 02_encoding
R43, 18_traps R352, 18_traps R356, 22_reliability R423, 02_encoding R41.) -/
def Obligations.WaveEvents : Prop :=
  (∀ (s : State) (a : AgentId) (wv n : Nat) (t : Team) (e : Entry) (r : LaneRec) (v : QWord) (tg : BitVec 4) (y : LS),
    s.team? a = some t → t.work.yoke = false → (t.wave wv).unfinished.find? (·.id == n) = some e → e.id = n → e.lanes = [r] →
    e.fate = [] → e.bad = [] → r.perf = false → Does (perfOf e.ins r.cap) (perfStart s a wv e r.lane) (v, tg) y → y.recs = [] →
    (∀ w, y.st.wave? a wv = some w → ∀ x ∈ w.unfinished, x.id = n → x = e) →
    exec (.longLatencyCompletion a wv n) s = .next ((y.st.updWave a wv (fun w => { w with
      unfinished := w.unfinished.map (fun x => if x.id == n then
        { e with lanes := [{ r with perf := true, res := v, rtag := tg }] } else x) })).landReady a wv)) ∧
  (∀ (s : State) (a : AgentId) (wv n : Nat) (t : Team) (e : Entry) (r : LaneRec) (cls : BitVec 4) (sub : BitVec 8)
    (va : Addr) (aux : Word) (x z : State), s.team? a = some t → t.work.yoke = false →
    (t.wave wv).unfinished.find? (·.id == n) = some e → e.lanes = [r] → e.fate = [] → e.bad = [] → r.perf = false →
    perfOf e.ins r.cap (perfStart s a wv e r.lane) = .error (.trap cls sub va aux x) →
    z = (s.keepReads x a).keepReads s a →
    exec (.lateTrap a wv n) s = .next (if r.iss = 0 then
      (z.updWave a wv (fun w => { w with unfinished := w.unfinished.filter (·.id != e.id) })).enterHandler a wv e.pc
        [⟨r.lane, cls, sub, va, aux⟩] e.execs [r.lane] none
      else z.enterHandler a wv e.pc [⟨r.lane, cls, sub, va, aux⟩] e.execs [r.lane] (some e))) ∧
  (∀ (s : State) (a : AgentId) (wv n : Nat) (t : Team) (e : Entry), s.team? a = some t →
    (t.wave wv).unfinished.find? (·.id == n) = some e → e.fate ≠ [] →
    ∀ i ∈ [Instr.longLatencyCompletion a wv n, Instr.lateTrap a wv n],
    exec i s = .next (if e.lanes.all (·.iss == 0) then
      (s.updWave a wv (fun w => { w with unfinished := w.unfinished.filter (·.id != e.id) })).enterHandler a wv e.pc
        e.fate e.execs (e.lanes.map (·.lane)) none
      else s.enterHandler a wv e.pc e.fate e.execs (e.lanes.map (·.lane)) (some e))) ∧
  (∀ (s : State) (a : AgentId) (wv : Nat) (pc : Addr) (traps : List TrapRec), traps ≠ [] →
    exec (.handlerEntry a wv pc traps) s =
      .next (s.enterHandler a wv pc traps (traps.map (·.lane)) (traps.map (·.lane)) none)) ∧
  (∀ (s : State), exec .freeze s = .next { s with power := .frozen }) ∧
  (∀ p ∈ divisions, ∀ (h : Hdr) (d a c : Opnd) (s : State) (b : Issue) (t : Team) (l : Nat) (u v : Word) (ix : QWord) (y : LS),
    Solo s b t l h.guard → h.la ≠ 0 → L.uniform d = false →
    Does (do L.check 1 [a, c] [d]; return (← L.rdW a, ← L.rdW c, ← L.destIndex d)) (b.start s t l) (u, v, ix) y →
    exec (p.1 h d a c) s = .next (b.complete (p.1 h d a c) s id { y with recs := y.recs ++
      [if Config.performsLate y.st.tick then ⟨l, capOf u v ix, Cap.zero, h.la.toNat, 0, false, 0, 0, 0⟩
       else ⟨l, capOf u v ix, Cap.zero, h.la.toNat, 0, true, (p.2 u v).setWidth 128, 0, 0⟩] }))

/-- Walks, snapshots, the racking schedule, moves and Bellwether. WALK of a checked access installs what the walk finds;
SNAPSHOT of a page with C copies it into a free HBM frame for every launch that protects it and has no copy, and
clears C; RACKING_ENTRY reads the binding's entry: with its STEP not reached it does nothing, a refused one is
recorded and passed over, ACT 0 ends the binding, and any other acts on its next page, which ACT 1 to 3 request the
move of to a free frame of the agent's core, cluster or die, and goes on to the next page or entry (log 27);
OWNED_MOVE_COPY_COMPLETE copies and commits an owned move; MARK sets M, records the leaf and signals the region's
cores; SIGNAL drops the core's entry and acknowledges; the LAST_ACK starts the copy, or commits when there is none
to make; COPY_COMPLETE copies and commits. That MARK signals only the cores in use is log 29, that SNAPSHOT clears C
of a page that no launch lists is log 39. (12_translation R278, 12_translation R280, 12_translation R285,
12_translation R286, 12_translation R287, 10_memory R249, 22_reliability R416.) -/
def Obligations.TranslationEvents : Prop :=
  (∀ (s : State) (r : WalkReq) (p : Partition) (q : QWord) (addr pa : Nat) (k : AK) (leaf : QWord) (s' : State),
    s.part? r.part = some p → walk s p (r.va.toNat / 4096) = .leaf q addr → walkKind r.acc = some k →
    resolve (s.dropStale r.core p.id (r.va.toNat / 4096) q) p ⟨r.core, r.agent, p.id, r.level, k, r.va.toNat, 1, false⟩ =
      .ok pa leaf s' → exec (.walk r) s = .next s') ∧
  (∀ (s : State) (part vpn : Nat) (p : Partition) (q : QWord) (addr : Nat), s.part? part = some p →
    leafAt s p vpn = some (q, addr) → lfC q = true → lfM q = false →
    (∀ k ∈ s.launches, k.rbk = false ∨ k.part ≠ p.id ∨ k.lists vpn = false) →
    exec (.snapshot part vpn) s = .next (s.writeLeaf addr (lfSet q 11 1 0))) ∧
  (∀ (s s1 : State) (part vpn : Nat) (p : Partition) (q q' : QWord) (addr addr' : Nat), s.part? part = some p →
    leafAt s p vpn = some (q, addr) → lfC q = true → lfM q = false →
    s1 = s.launches.foldl (fun s k => s.snapFor p vpn q k) s → leafAt s1 p vpn = some (q', addr') →
    exec (.snapshot part vpn) s = .next (s1.writeLeaf addr' (lfSet q' 11 1 0))) ∧
  (∀ (s : State) (p : Partition) (vpn f : Nat) (q : QWord) (k : Launch), k.rbk = true → k.part = p.id → k.lists vpn = true →
    vpn ∉ k.bare → (∀ x ∈ k.snaps, x.1 ≠ vpn) → s.freeFrame p .hbm 0 = some f →
    s.snapFor p vpn q k = (State.updLaunch { s.copyPage (lfFrame q * 4096) (f * 4096) with
      taken := f :: s.taken } k.id
        (fun k => { k with snaps := k.snaps ++ [(vpn, f)] }))) ∧
  (∀ (s : State) (part c pa w : Nat) (p : Partition) (b : Binding) (q : QWord), s.part? part = some p →
    p.bindings.find? (·.counter == c) = some b →
    ownAccess s p .load ((p.rackb.toNat + 16 * b.next) % 2 ^ 52) 16 = .ok pa q → w = s.readP pa 16 →
    (reached (p.counter c).count (BitVec.ofNat 32 (bits w 0 16)) = false → exec (.rackingEntry part c) s = .next s) ∧
    (reached (p.counter c).count (BitVec.ofNat 32 (bits w 0 16)) = true →
      (rackBad w = true → exec (.rackingEntry part c) s = .next ((s.record part
        (rackRecord 9 7 ((p.rackb.toNat + 16 * b.next) % 2 ^ 52) b.next 0 (lfGen q))).passEntry part c (bits w 0 16))) ∧
      (rackBad w = false → bits w 48 4 = 0 → exec (.rackingEntry part c) s = .next (s.endBinding part c)) ∧
      (rackBad w = false → bits w 48 4 ≠ 0 →
        (s.rackPage p b.next w ((bits w 88 40 + b.page) % 2 ^ 40) = none → exec (.rackingEntry part c) s = .next s) ∧
        (∀ s', s.rackPage p b.next w ((bits w 88 40 + b.page) % 2 ^ 40) = some s' →
          exec (.rackingEntry part c) s = .next (if bits w 68 20 ≤ b.page then s'.passEntry part c (bits w 0 16)
            else s'.updBinding part c (fun b => { b with page := b.page + 1 })))))) ∧
  (∀ w : Nat, rackBad w = true ↔ bits w 16 30 ≠ 0 ∨ 7 ≤ bits w 48 4 ∨
    (if bits w 48 4 < 5 then bits w 46 2 ≠ 0 else bits w 46 2 = 0)) ∧
  (∀ (s : State) (p : Partition) (idx w vpn src f act : Nat) (q : QWord) (a : AgentId), act = bits w 48 4 → 1 ≤ act → act ≤ 3 →
    a = BitVec.ofNat 16 (bits w 52 16) → (∀ m ∈ s.moves, m.part = p.id → m.vpn = vpn → m.st = .commit) →
    walk s p vpn = .leaf q src → lfPkg q = 0xFFF → (lfMode q = mOwned ∨ lfMode q = mHalo) → lfOwner q = a →
    s.frameAt (lfFrame q) (4 - act) (coreOf a) = false → s.freeFrameFor p (4 - act) (coreOf a) = some f →
    s.rackPage p idx w vpn = some (s.requestMove p.id vpn (lfMode q == mOwned) (coreOf a)
      (some (BitVec.ofNat 2 (4 - act), f)) none (some idx) none)) ∧
  (∀ (s : State) (n f : Nat) (m : Move) (lvl : BitVec 2), s.move? n = some m → m.st = .copy → m.owned = true →
    m.dest = some (lvl, f) →
    exec (.ownedMoveCopyComplete n) s = .next ((s.copyPage (lfFrame m.seen * 4096) (f * 4096)).commitMove n)) ∧
  (∀ (s : State) (n addr : Nat) (m : Move) (p : Partition) (q : QWord) (c : BitVec 11) (l : List (BitVec 11)),
    s.move? n = some m → s.part? m.part = some p → leafAt s p m.vpn = some (q, addr) → m.st = .idle → m.owned = false →
    lfM q = false → s.firstMove m = true →
    (s.cores.map (·.id)).filter (fun c => inRegion s.pkg (lfSet q 9 1 1) (agentOf c 0)) = c :: l →
    exec (.bellwetherMark n) s = .next ((c :: l).foldl (fun s c => s.push (.signal n c))
      ((s.writeLeaf addr (lfSet q 9 1 1)).updMove n (fun m => { m with
        st := .drain, seen := lfSet q 9 1 1, acks := c :: l })))) ∧
  (∀ (s : State) (n : Nat) (c : BitVec 11) (m : Move), s.move? n = some m → m.st = .drain → c ∈ m.acks → m.only = none →
    exec (.bellwetherSignal n c) s = .next
      (if (m.acks.erase c).isEmpty then
        ((s.dropEntry c m.part m.vpn).updMove n (fun m => { m with acks := m.acks.erase c })).push (.lastAck n)
      else (s.dropEntry c m.part m.vpn).updMove n (fun m => { m with acks := m.acks.erase c }))) ∧
  (∀ (s : State) (n : Nat) (m : Move), s.move? n = some m → m.st = .drain → m.acks = [] →
    (m.dest ≠ none →
      exec (.bellwetherLastAck n) s = .next ((s.updMove n (fun m => { m with st := .copy })).push (.copyDone n))) ∧
    (m.dest = none → m.newOwner = none → exec (.bellwetherLastAck n) s = .next (s.commitMove n))) ∧
  (∀ (s : State) (n f : Nat) (m : Move) (lvl : BitVec 2), s.move? n = some m → m.st = .copy → m.owned = false →
    m.dest = some (lvl, f) →
    exec (.bellwetherCopyComplete n) s = .next ((s.copyPage (lfFrame m.seen * 4096) (f * 4096)).commitMove n))

/-- Rings, pops, reservations and steals, and which ready batch issues. Of the batches ready on one datapath a step
issues the oldest of those that have stood 256 cycles, otherwise one of the highest PRIO that has been ready
longest; a batch that has executed YIELD is not chosen while another is ready that has not (ages count in CYC, and
YIELD stands back once: log 63). RING_ENTRY_ADMIT moves the longest-held entry into its ring when there is room;
UNIT_POP of a core with nothing due ahead takes the head of the highest ring that it has room for, whose unit
starts; HEAD_RESERVATION marks the ring; STEAL_REQUEST takes half of the unstarted chunks of the first range that
has two, from priority 7 down, and STEAL_ANSWER places what was given, or asks the next die. (15_scheduling R313,
15_scheduling R316, 15_scheduling R317, 15_scheduling R319, 04_isa_control R84.) -/
def Obligations.DistributorEvents : Prop :=
  (∀ (s : State) (b c : Issue), s.choice = some (.batch b) → b ∉ s.locked → b ∉ s.watches → c ∈ s.ready → s.datapath c = s.datapath b →
    (∀ x ∈ s.standing, x.gives = false) →
    (256 ≤ s.age c → 256 ≤ s.age b ∧ s.age c ≤ s.age b) ∧
    (s.age b < 256 → s.prioOf c ≤ s.prioOf b ∧ (s.prioOf c = s.prioOf b → s.age c ≤ s.age b))) ∧
  (∀ (s : State) (b c : Issue), s.choice = some (.batch b) → b ∉ s.locked → b ∉ s.watches → c ∈ s.ready → s.datapath c = s.datapath b →
    (s.standingOf b).gives = true →
    (s.standingOf c).gives = true) ∧
  (∀ (s t : State) (b : Issue), s.yields b = true → ∃ x ∈ (s.issued (.batch b) t).standing,
    x.agent = b.agent ∧ x.wave = b.wave ∧ x.pc = b.pc + 8 ∧ x.gives = true) ∧
  (∀ (s : State) (part die prio n : Nat) (e : RingEntry) (rest : List (Nat × RingEntry)),
    (s.ring part die prio).held = (n, e) :: rest → s.ringLoad part die < 2 ^ 20 →
    (∀ x ∈ (s.ringsOf part die).flatMap (·.held), n ≤ x.1) →
    exec (.ringEntryAdmit part die prio) s = .next ((s.setRing { s.ring part die prio with
      entries := (s.ring part die prio).entries ++ [e], held := rest }).yieldCancelled part)) ∧
  (∀ (s : State) (c : BitVec 11) (p : Partition) (k l first stride n pos : Nat) (rest : List RingEntry) (j : Launch) (s' : State),
    (s.die (dieOf c)).part.bind s.part? = some p → (s.core c).halted = false → (s.core c).candle = none →
    (s.core c).switching = false → coreExists c = true → k < 8 →
    (∀ i, k < i → i < 8 → s.dueAhead c i = false ∧ (s.ring p.id (dieOf c) i).entries = []) → s.dueAhead c k = false →
    (s.ring p.id (dieOf c) k).entries = .range l first stride n pos :: rest → s.launch? l = some j → j.racked s p = true →
    s.startUnit c p (j.unitRec (64 * first + pos)) j.shape.toNat 0 0 = some s' →
    exec (.unitPop c) s = .next (s'.setRing { s.ring p.id (dieOf c) k with
      entries := (if pos + 1 < j.chunkSize first then [.range l first stride n (pos + 1)]
        else if 1 < n then [.range l (first + stride) stride (n - 1) 0] else []) ++ rest
      reserved := false })) ∧
  (∀ (s : State) (part die prio : Nat), (s.ring part die prio).entries ≠ [] →
    exec (.headReservation part die prio) s = .next (s.setRing { s.ring part die prio with reserved := true })) ∧
  (∀ (s : State) (part thief victim l first stride n : Nat) (rest : List RingEntry),
    (s.ring part victim 7).entries = .range l first stride n 0 :: rest → 2 ≤ n →
    exec (.stealRequest part thief victim) s = .next (State.push { s.setRing { s.ring part victim 7 with
        entries := .range l first stride (n - n / 2) 0 :: rest } with
      steals := (s.setRing { s.ring part victim 7 with
          entries := .range l first stride (n - n / 2) 0 :: rest }).steals ++
        [⟨part, thief, victim, some (7, .range l (first + stride * (n - n / 2)) stride (n / 2) 0)⟩] }
      (.stealAns part thief victim))) ∧
  (∀ (s : State) (part thief victim prio : Nat) (e : RingEntry) (x : Steal),
    s.steals.find? (fun x => x.part == part && x.thief == thief && x.victim == victim) = some x → x.gift = some (prio, e) →
    exec (.stealAnswer part thief victim) s =
      .next ((({ s with steals := s.steals.erase x } : State).placeEntry part thief prio e).yieldCancelled part))

/-- Joins, continuations, completions, discards, swaps and restores. JOIN_STEP of an atomic page releases at its scope
for the unit's agent, takes n off the record's count, adds its faults and cancels, and at 0 enqueues the
continuation; CONTINUATION_ENQUEUE places a valid record's unit; LAUNCH_COMPLETION of a launch that is over advances
its counters and removes it, one under rollback after the join step that was held for it; TEAM_DISCARD ends a team
that a cancel, a failed attempt or the end of its context has reached, once its jobs stand at their units and what
its CANCELs need has come, for which it stays due; HARDWARE_SWAP takes out the swappable team that waited longest,
TEAM_READMIT brings a due one back when it has room; ROLLBACK_RESTORE below the last attempt copies the snapshots
back and places the launch again. A held step's agent is 0xFFFF (log 39), no step uses the predictor (log 38), a
discard's parked accesses go with it (log 23), the order of swaps is log 44, and the restore in one step is log 55.
(15_scheduling R315, 15_scheduling R320, 15_scheduling R324, 15_scheduling R325, 15_scheduling R326, 22_reliability
R418.) -/
def Obligations.WorkEvents : Prop :=
  (∀ (s s1 s2 : State) (part die n f c pa w : Nat) (a : AgentId) (join : Addr) (p : Partition) (leaf : QWord),
    s.part? part = some p → ownAccess s p .amo join.toNat 16 = .ok pa leaf → lfMode leaf = mAtomic →
    s1 = (if a = 0xFFFF then s else s.release part (coreOf a) (lfScope leaf)) → w = s1.readP pa 16 → n ≤ bits w 0 32 →
    s2 = s1.writeP pa 16 (setBits (setBits (setBits w 0 32 (bits w 0 32 - n)) 32 24 (min 0xFF_FFFF (bits w 32 24 + f))) 56 24
      (min 0xFF_FFFF (bits w 56 24 + c))) →
    exec (.joinStep part die a join n f c) s = .next (if n = bits w 0 32 ∧ bits w 80 47 ≠ 0 then
      s2.push (.enqueue part (frameDie (lfFrame leaf)) (BitVec.ofNat 52 (bits w 80 47 * 32)) (min 0xFF_FFFF (bits w 32 24 + f))
        (min 0xFF_FFFF (bits w 56 24 + c)) none)
      else s2)) ∧
  (∀ (s : State) (part die f c pa pa' : Nat) (addr : Addr) (p : Partition) (leaf leaf' : QWord), s.part? part = some p →
    ownAccess s p .load addr.toNat 32 = .ok pa leaf → s.readP pa 32 / 2 ^ 254 = 0 →
    (contRec (s.readP pa 32)).code.toNat % 8 = 0 → (contRec (s.readP pa 32)).join.toNat % 16 = 0 →
    ownAccess s p .load ((p.tshape.toNat + 8 * (contRec (s.readP pa 32)).shape) % 2 ^ 52) 8 = .ok pa' leaf' →
    s.shapeValid p (s.readP pa' 8) = true → p.cancels (contRec (s.readP pa 32)).slots = false →
    exec (.continuationEnqueue part die addr f c) s = .next (s.placeEntry part die (contRec (s.readP pa 32)).prio
      (.cont (contRec (s.readP pa 32)) f c (BitVec.ofNat 64 (s.readP pa' 8))))) ∧
  (∀ (s : State) (part l : Nat) (k : Launch), s.launch? l = some k → k.part = part → k.over = true → k.failing = none →
    k.rbk = false ∨ k.join = 0 →
    exec (.launchCompletion part l) s = .next { (s.freeSnaps k).advance k with
      launches := ((s.freeSnaps k).advance k).launches.filter (·.id != l) }) ∧
  (∀ (s s1 : State) (part l : Nat) (k : Launch), s.launch? l = some k → k.part = part → k.over = true → k.failing = none →
    k.rbk = true → k.join ≠ 0 →
    s1 = ((s.freeSnaps k).joinStep part ((k.clusters.head?.getD 0) / 16) 0xFFFF k.join k.heldEnds k.heldFaulted k.heldCancelled
      k.clusters).advance k →
    exec (.launchCompletion part l) s = .next { s1 with launches := s1.launches.filter (·.id != l) }) ∧
  (∀ (s : State) (a : AgentId) (t : Team), s.allTeams.find? (fun t => t.agent == a && (t.axed || t.doomed)) = some t →
    exec (.teamDiscard a) s = .next (if t.doomed = true then (s.inCtx (coreOf a) t.part (·.discardDue a)).endLaunches t.part
      else s.inCtx (coreOf a) t.part (·.discardDue a))) ∧
  (∀ (s : State) (a : AgentId), (s.teamStops a = true → s.tableWait a = none → s.discardDue a = s.discardTeam a) ∧
    (s.teamStops a = false → s.discardDue a = s.push (.discard a)) ∧
    (∀ x, s.teamStops a = true → s.tableWait a = some x → s.discardDue a = x.push (.discard a))) ∧
  (∀ (s : State) (a : AgentId) (t : Team), s.team? a = some t → s.swappable t = true → s.refusedFor t = true →
    s.swapFirst t = true →
    exec (.hardwareSwap a) s = .next (s.swapOut a .swappedByHw (fun j => j.eng == .matrix))) ∧
  (∀ (s s' : State) (a : AgentId) (t : Team), s.team? a = some t → t.resid = .due → s.swapIn a = some s' →
    exec (.teamReadmit a) s = .next s') ∧
  (∀ (s : State) (part l : Nat) (k k' : Launch) (p : Partition) (x : AgentId × Bool), s.launch? l = some k →
    s.part? part = some p → k.failing = some x → k.part = part → (∀ t ∈ s.allTeams, t.work.launch ≠ some l) →
    s.restoreWaits k = false → k.stopped p = false → k.attempt < 3 →
    k' = { k with attempt := k.attempt + 1, failing := none, ended := 0, heldEnds := 0, heldFaulted := 0, heldCancelled := 0,
                  clusters := [] } →
    exec (.rollbackRestore part l) s = .next (((s.copyBack p k).updLaunch l (fun _ => k')).placeLaunch k'))

/-- Jobs become ready, start, run and complete. JOB_READY of a waiting job whose edges are done makes it READY;
JOB_START of one that may start runs it, or takes it back parked where it was so, claiming the matrix engine for a
matrix job; MMA_GROUP_COMMIT is one unit of the running job; JOB_COMPLETION runs the rest of its units and records
it DONE; ENGINE_STOP_ACK stops the engine's jobs at their units. Turns of copy jobs, and the rest of the units in
one event, are log 25. (17_engines R339, 17_engines R348, 18_traps R364.) -/
def Obligations.JobEvents : Prop :=
  (∀ (s : State) (n : Nat) (j : Job), s.job? n = some j → j.st = .wait → (∀ e ∈ j.edges, s.jobOver e = true) →
    exec (.jobReady n) s = .next (s.updJob n (fun j => { j with st := .ready }))) ∧
  (∀ (s : State) (n : Nat) (j : Job), s.job? n = some j → s.canStart j = true →
    exec (.jobStart n) s = .next ((if j.eng = .matrix then s.claim j.agent else s).updJob n
      (fun j => { j with st := if j.wasParked then .parked else .run, wasParked := false }))) ∧
  (∀ (s : State) (n : Nat) (j j' : Job) (y : LS), s.job? n = some j → j.st = .run → j.over = false →
    Does (L.jobStep j) (s.jobLS j) j' y →
    exec (.mmaGroupCommit n) s = .next (State.tookTurn (if j'.over then (y.st.updJob n (fun _ => j')).finishJob n false false
      else y.st.updJob n (fun _ => j')) n)) ∧
  (∀ (s : State) (n : Nat) (j j' : Job) (y : LS), s.job? n = some j → j.st = .run → j.over = false →
    Does (L.jobStep j) (s.jobLS j) j' y → j'.over = true →
    exec (.jobCompletion n) s = .next ((y.st.updJob n (fun _ => j')).finishJob n false false)) ∧
  (∀ (s : State) (c : BitVec 11) (e : Eng), e ∈ (s.core c).awaiting →
    exec (.engineStopAck c e) s = .next (((s.jobs.filter (fun j => j.core == c && j.eng == e &&
      (j.st == .run || j.st == .parked))).foldl (fun s j => s.stopJob j.id) s).updCore c
        (fun k => { k with awaiting := k.awaiting.erase e })))

/-- Requests, answers and reports of other packages, and the PCI Express side. REMOTE_REQUEST of a page here that passes
its checks is performed once, recorded and answered, one that the mode of the page refuses is answered so; one
already performed does nothing; REMOTE_RESPONSE is taken by the first outstanding access of its id, a timeout as
FABRIC LOSS; PERFORMED_MID_EXPIRY, DELIVERY_REPORT marks its message as heard of, lets no fibre await its write any
more, and queues one record for the first outcome other than DELIVERED; SENDER_LOSS_TIMEOUT takes a message without
any report as lost; a fence that waited for FTO traps; CANCEL ends the member's collectives on the table and drops
what has come for them; INBOUND_MEMORY_REQUEST of a requester that has an agent writes or answers bytes, one that is
refused is recorded and a read answered as aborted, MSI_X is a releasing ARRIVE. How answers travel is log 35, that
a request is refused whole log 54, what a forwarding leaf answers here log 20, which jobs a CANCEL reaches log 47,
and that a refused access is asked anew log 65. (20_fabric R389, 20_fabric R395, 20_fabric R396, 20_fabric R397,
20_fabric R398, 20_fabric R402, 21_program_link R405.) -/
def Obligations.RemoteEvents : Prop :=
  (∀ (s : State) (r : RemoteReq), (r.spkg, r.mid) ∈ s.performed → exec (.remoteRequest r) s = .next s) ∧
  (∀ (s : State) (p : Partition) (r : RemoteReq) (k : AK) (va n addr : Nat) (q : QWord),
    walk s p (va / 4096) = .leaf q addr → lfPkg q = 0xFFF → s.moving p.id (va / 4096) = false →
    homeSub s p q ⟨coreOf r.agent, r.agent, p.id, r.level, k, va, n, false⟩ = none →
    s.snapWait p ⟨coreOf r.agent, r.agent, p.id, r.level, k, va, n, false⟩ = false →
    s.homePlace p r k va n = .ok (lfFrame q * 4096 + va % 4096) q) ∧
  (∀ (s s1 : State) (r : RemoteReq) (p : Partition) (q0 q : QWord) (pa0 pa : Nat) (x : Served),
    (r.spkg, r.mid) ∉ s.performed → s.part? r.part = some p →
    s.homePlace p r (s.remoteKind p r) r.va.toNat (opKind r.op).2 = .ok pa0 q0 → s1 = s.placeFar p r q0 →
    s1.homePlace p r (s1.remoteKind p r) r.va.toNat (opKind r.op).2 = .ok pa q → s1.performRemote p r q pa = .inr x →
    exec (.remoteRequest r) s = .next { x.st.answer r x.value x.poison x.again none with
      performed := (x.st.answer r x.value x.poison x.again none).performed ++ [(r.spkg, r.mid)] }) ∧
  (∀ (s : State) (r : RemoteReq) (p : Partition) (sub : BitVec 8) (g : BitVec 16),
    (r.spkg, r.mid) ∉ s.performed → s.part? r.part = some p →
    s.homePlace p r (s.remoteKind p r) r.va.toNat (opKind r.op).2 = .refused sub g →
    exec (.remoteRequest r) s = .next { s.answer r 0 false false (some (6, sub)) with
      performed := (s.answer r 0 false false (some (6, sub))).performed ++ [(r.spkg, r.mid)] }) ∧
  (∀ (s : State) (r : RemoteResp), exec (.remoteResponse r) s = .next { s with
    outst := updFirst (fun o => o.mid == r.mid && o.resp.isNone) (fun o => { o with resp := some r }) s.outst }) ∧
  (∀ (s : State) (mid : BitVec 24), exec (.remoteAccessTimeout mid) s = .next { s with
    outst := updFirst (fun o => o.mid == mid && o.resp.isNone)
      (fun o => { o with resp := some ⟨mid, 0, false, false, some (10, 1)⟩ }) s.outst }) ∧
  (∀ (s : State) (spkg : BitVec 12) (mid : BitVec 24), exec (.performedMidExpiry spkg mid) s =
    .next { s with
      performed := s.performed.filter (fun x => !(x.1 == spkg && x.2 == mid))
      control := s.control.filter (fun x => !(x.1 == spkg && x.2.1 == mid)) }) ∧
  (∀ (s : State) (r : Report), s.sent.find? (·.mid == r.mid) = none → exec (.deliveryReport r) s = .next s) ∧
  (∀ (s s1 : State) (r : Report) (m : SentMsg), s.sent.find? (·.mid == r.mid) = some m →
    s1 = State.mapTeams { s with sent := (updFirst (·.mid == r.mid)
      (fun m => { m with heard := true, recorded := m.recorded || !r.ok }) s.sent) } (·.forgetWrite r.mid) →
    (r.ok = true ∨ m.recorded = true → exec (.deliveryReport r) s = .next s1) ∧
    (r.ok = false → m.recorded = false → exec (.deliveryReport r) s = .next (s1.record m.part
      (errRecord (r.cls.setWidth 8) r.sub m.agent (m.mid.setWidth 32) m.va.toNat m.acc)))) ∧
  (∀ (s : State) (mid : BitVec 24) (m : SentMsg), s.sent.find? (·.mid == mid) = some m → m.heard = true →
    exec (.senderLossTimeout mid) s = .next { s with sent := s.sent.filter (·.mid != mid) }) ∧
  (∀ (s : State) (mid : BitVec 24), exec (.senderLossTimeout mid) s = .next (
    if (s.sent.find? (·.mid == mid)).any (!·.heard) then
      { s.takeReport ⟨mid, false, 10, 1⟩ with sent := (s.takeReport ⟨mid, false, 10, 1⟩).sent.filter (·.mid != mid) }
    else { s with sent := s.sent.filter (·.mid != mid) })) ∧
  (∀ (s : State) (a : AgentId) (wv : Nat) (t : Team) (k : Stuck), s.team? a = some t →
    (t.wave wv).stuck.find? (fun k => (k.why == .fence || k.why == .probe) && !(k.todo.filterMap (s.fenceTrap t wv k)).isEmpty) =
      some k → t.resid = .resident → s.waveParked a wv = false →
    exec (.fabricFenceTimeout a wv) s =
      .next (s.enterHandler a wv k.pc (k.todo.filterMap (s.fenceTrap t wv k)) k.execs k.todo none)) ∧
  (∀ (s x : State) (part rank : Nat) (a : AgentId) (table : Addr),
    x = s.inCtx (coreOf a) part (fun s => (s.collJobs part a table.toNat).foldl (fun s n => s.cancelJob n) s) →
    exec (.cancel part a table rank) s = .next { x with
      mail := x.mail.filter (fun m => !(m.part == part && m.agent == a && m.table.toNat == table.toNat)) }) ∧
  (∀ (s : State) (r : Inbound), match (Config.ioAgent r.port r.rid.toNat).bind (fun x => (s.part? x.1).map (fun p => (p, x.2))) with
    | none => exec (.inboundMemoryRequest r) s = .next (s.emit (.unsupported r.port))
    | some (p, a) => ∀ l : List (Nat × Nat × Own), l = (pagePieces r.va.toNat 3 r.size).map (fun x => (x.1, x.2, s.ioPlace p a r.write x.1 x.2)) →
      match (l.map (·.2.2)).find? (fun (o : Own) => match o with | .ok _ _ | .far _ => false | _ => true) with
      | some (.stall s') => exec (.inboundMemoryRequest r) s = .next (s'.push (.inbound r))
      | some (.fault sub lvl gen) => exec (.inboundMemoryRequest r) s = .next (s.ioRefuse r p.id a 8 sub lvl gen)
      | some (.refused sub gen) => exec (.inboundMemoryRequest r) s = .next (s.ioRefuse r p.id a 6 sub 0 gen)
      | some _ => False
      | none => (∀ x ∈ l, ∃ pa q, x.2.2 = .ok pa q) →
        exec (.inboundMemoryRequest r) s = .next (if r.write then s.writePlaces (placesIn l) r.data
          else State.emit { s with outst := s.outst.filter (fun o =>
              !(some o.wave == farKey (.inbound r) && l.any (fun x => x.1 == o.va.toNat))) }
            (.completion r.port true (s.readPlaces (placesIn l))))) ∧
  (∀ (s : State) (port : Nat) (rid : BitVec 16) (data : Word),
    match (Config.ioAgent port rid.toNat).bind (fun x => (s.part? x.1).map (fun p => (p, x.2))) with
    | none => exec (.msiX port rid data) s = .next (s.emit (.unsupported port))
    | some (p, a) => exec (.msiX port rid data) s = .next ((s.release p.id (coreOf a)
        (p.counter (data.toNat % 2 ^ 12)).scope).countUp p.id (data.toNat % 2 ^ 12) 1))

/-- Flits, keys and the link of a port. FLIT_RECEIVE accepts a good flit that has the next LSEQ, counts it, and passes a
fragment on; any other LSEQ is discarded, a failed flit counted and NAKed by a control flit; a NAK's own flit and
NAK_RECEIVE resend from the LSEQ named; at the marker's counter KEY_SWITCH_MARKER switches; the window's end empties
the drained slot; RETRAINING, LINK_DOWN, RETRY_BUFFER_EXPIRY, LINK_RETRAINED and KEY_SLOT_LOAD change the port as
R391 to R394 say. A fragment for this package brings the request, the response or the delivery report it carries.
The flit's contents are log 35, the marker's LSEQ log 56, and that no credit is awaited log 83. With one path up,
CRATE m = 0 and nothing waiting at the port, a request to another package leaves as one flit of VC 0 and k = 1 with
its MID and the next LSEQ, under the active slot as it stands. (20_fabric R378, 20_fabric R381, 20_fabric R383,
20_fabric R388, 20_fabric R391, 20_fabric R392, 20_fabric R393, 20_fabric R394.) -/
def Obligations.PortEvents : Prop :=
  (∀ (s : State) (pn : Nat) (p : Port) (fl : Flit) (ok : Bool), s.port? pn = some p → (p.up = false ∨ fl.lseq ≠ p.lseqRx) →
    exec (.flitReceive pn fl ok) s = .next s) ∧
  (∀ (s : State) (pn : Nat) (p : Port) (fl : Flit), s.port? pn = some p → p.up = true → fl.lseq = p.lseqRx →
    p.failsFlit fl true = false → fl.type ≠ 1 → p.drainFrom = none → (∀ n, fl.body ≠ some (.nak n)) →
    exec (.flitReceive pn fl true) s =
      .next ((s.updPort pn (fun _ => { p with lseqRx := p.lseqRx + 1, fails := 0 })).passFragment fl)) ∧
  (∀ (s : State) (pn : Nat) (p : Port) (fl : Flit) (n : BitVec 20), s.port? pn = some p → p.up = true → fl.lseq = p.lseqRx →
    p.failsFlit fl true = false → fl.type ≠ 1 → p.drainFrom = none → fl.body = some (.nak n) →
    exec (.flitReceive pn fl true) s =
      .next ((s.updPort pn (fun _ => { p with lseqRx := p.lseqRx + 1, fails := 0 })).resendFrom pn n)) ∧
  (∀ (s : State) (pn : Nat) (p : Port) (fl : Flit), s.port? pn = some p → p.up = true → fl.lseq = p.lseqRx → p.fails + 1 ≠ 16 →
    exec (.flitReceive pn fl false) s =
      .next ((s.updPort pn (fun p => { p with fails := p.fails + 1 })).sendNak pn fl.lseq)) ∧
  (∀ (s : State) (pn : Nat) (p : Port) (lseq : BitVec 20), s.port? pn = some p → (p.kept lseq).isSome = true →
    exec (.nakReceive pn lseq) s = .next (s.resendRun pn 1024 lseq)) ∧
  (∀ (s : State) (pn : Nat) (p : Port), s.port? pn = some p → p.markerDue = true →
    exec (.keySwitchMarker pn) s = .next ((s.switchKey pn).flushPort pn p.queue.length)) ∧
  (∀ (s : State) (pn : Nat) (p : Port), s.port? pn = some p → p.markerDue = false → exec (.keySwitchMarker pn) s = .next s) ∧
  (∀ (s : State) (pn : Nat), exec (.keySlotWindowEnd pn) s = .next (s.updPort pn Port.endWindow)) ∧
  (∀ (s : State) (pn : Nat),
    exec (.retraining pn) s = .next (s.updPort pn (fun p => if p.up then { p with rtr := true, fails := 0 } else p))) ∧
  (∀ (s : State) (pn : Nat) (p : Port), s.port? pn = some p →
    exec (.linkDown pn) s = .next ((s.updPort pn (fun p => { p with
      up := false, rtr := false, retry := [], queue := [], resend := none, fails := 0 })).disposed (s.ownMids (p.retry ++ p.queue)))) ∧
  (∀ (s : State) (pn : Nat) (mid : BitVec 24),
    exec (.retryBufferExpiry pn mid) s = .next ((s.updPort pn (fun p => { p with
      retry := p.retry.filter (fun f => !(f.mid == mid && ofMessage f && f.spkg == s.pkg))
      queue := p.queue.filter (fun f => !(f.mid == mid && ofMessage f && f.spkg == s.pkg)) })).disposed [mid])) ∧
  (∀ (s : State) (pn : Nat) (p : Port), s.port? pn = some p → p.rtr = true →
    exec (.linkRetrained pn) s = .next ((s.updPort pn (fun p => { p with
      rtr := false, resend := (p.retry.head?.map (·.lseq)) })).resumePort pn)) ∧
  (∀ (s : State) (pn : Nat) (p : Port) (slot : Bool) (key : BitVec 256) (salt : Word) (ctr thr : DWord), s.port? pn = some p →
    (p.rx slot).st = 0 →
    exec (.keySlotLoad pn false slot key salt ctr thr) s = .next (s.updPort pn (fun p => p.setRx slot
      ⟨if (p.rx (!slot)).st = 2 then 1 else 2, key, salt, ctr, thr⟩))) ∧
  (∀ (s : State) (fl : Flit) (r : RemoteReq), fl.dpkg = s.pkg → fl.body = some (.request r) →
    s.passFragment fl = s.push (.request r)) ∧
  (∀ (s : State) (fl : Flit) (r : RemoteResp), fl.dpkg = s.pkg → fl.body = some (.response r) →
    s.passFragment fl = s.push (.response r)) ∧
  (∀ (s : State) (fl : Flit) (r : Report), fl.dpkg = s.pkg → fl.body = some (.report r) →
    s.passFragment fl = s.push (.reported r)) ∧
  (∀ (s : State) (dest : BitVec 12) (r : RemoteReq) (pn n : Nat) (p : Port), dest ≠ s.pkg → s.crateM r.part = 0 →
    s.pathList dest = ⟨dest, [pn], n⟩ → s.port? pn = some p → p.canSend = true → p.queue = [] →
    ∃ fl : Flit, (s.sendRequest dest r).out = s.out ++ [.flit pn fl p.active] ∧ fl.body = some (.request r) ∧
      fl.dpkg = dest ∧ fl.spkg = s.pkg ∧ fl.mid = r.mid ∧ fl.fidx = 0 ∧ fl.k = 1 ∧ fl.m = 0 ∧ fl.path = 0 ∧ fl.vc = 0 ∧
      fl.type = 0 ∧ fl.lseq = p.lseqTx ∧ fl.ks = p.tx)

/-- Fragments, deliveries and lost messages. FRAGMENT_ARRIVAL of a new fragment of an open vat stores it and, with the
k-th, decodes the vat and makes its delivery due; one that repeats its index changes nothing; DELIVERY into a
channel with a free slot writes slot and header, closes the vat and reports success; VAT_TIMEOUT closes an undecoded
vat, records LOSS and reports it; KEY_FORGET drops a closed key. A vat belongs to its partition wherever the team's
context is (log 45); the report's coding is log 58. (20_fabric R385, 20_fabric R386, 20_fabric R387, 20_fabric
R389.) -/
def Obligations.VatEvents : Prop :=
  (∀ (s : State) (fr : Fragment) (v : Vat), (s.core (coreOf fr.dagt)).closed.find? (fun x => x.1 == fr.spkg && x.2.1 == fr.mid) = none →
    (s.core (coreOf fr.dagt)).vat? fr.spkg fr.mid = some v → v.decoded = false → fragOutside fr = false → fr.k = v.k →
    fr.m = v.m → fr.len = v.len →
    (v.frags.any (·.1 == fr.fidx.toNat) = true → exec (.fragmentArrival fr) s = .next s) ∧
    (v.frags.any (·.1 == fr.fidx.toNat) = false → v.frags.length + 1 < v.k.toNat →
      exec (.fragmentArrival fr) s = .next (s.setVat (coreOf fr.dagt) { v with
        frags := v.frags ++ [(fr.fidx.toNat, fr.payload)], bad := v.bad ++ fr.bad.filter (fun o => !v.bad.contains o) })) ∧
    (v.frags.any (·.1 == fr.fidx.toNat) = false → v.k.toNat ≤ v.frags.length + 1 →
      exec (.fragmentArrival fr) s = .next ((s.setVat (coreOf fr.dagt) (Vat.decode { v with
        frags := v.frags ++ [(fr.fidx.toNat, fr.payload)],
        bad := v.bad ++ fr.bad.filter (fun o => !v.bad.contains o) })).push (.deliver (coreOf fr.dagt) v.spkg v.mid)))) ∧
  (∀ (s : State) (c : BitVec 11) (spkg : BitVec 12) (mid : BitVec 24) (v : Vat) (t : Team), (s.core c).vat? spkg mid = some v →
    v.decoded = true → s.allTeams.find? (fun t => t.part == v.part && t.agent == v.agent) = some t →
    v.tooLong (vget t.c v.rch.toNat) = false → v.body = none →
    t.rdScr ((vget t.c v.rch.toNat).base.toNat + 8) 4 < (vget t.c v.rch.toNat).slots.toNat →
    exec (.delivery c spkg mid) s =
      .next (((s.updPartTeam v.part v.agent (·.deliver v)).closeVat c v).report v.part spkg mid none)) ∧
  (∀ (s : State) (c : BitVec 11) (spkg : BitVec 12) (mid : BitVec 24) (v : Vat), (s.core c).vat? spkg mid = some v →
    v.decoded = false →
    exec (.vatTimeout c spkg mid) s = .next ((((s.bumpVat v 36 true).closeVat c v).record v.part
      (errRecord 10 1 v.agent (mid.setWidth 32) 0 6)).report v.part spkg mid (some 1))) ∧
  (∀ (s : State) (c : BitVec 11) (spkg : BitVec 12) (mid : BitVec 24), exec (.keyForget c spkg mid) s =
    .next (s.updCore c (fun k => { k with closed := k.closed.filter (fun x => !(x.1 == spkg && x.2.1 == mid)) })))

/-- The sideband answers, and resets the package. In service GET_VERSION, GET_CAPABILITIES and CHALLENGE are answered
with bytes that are free, NEGOTIATE_ALGORITHMS with ECDSA P-384 and SHA-384 only, GET_DIGESTS with the SHA-384 of
the certificate chain and GET_CERTIFICATE with the chain, GET_MEASUREMENTS with the 16 slots in order, any other
SPDM request with UnsupportedRequest, another MCTP message not at all; RESET_REQUEST in service queues a record for
every partition and sets the deadline once, in a frozen package or one that a failed reset step holds (log 49) it
resets, and during the reset steps it does nothing; at the deadline it resets. (20_fabric R403, 20_fabric R404,
23_bringup R431.) -/
def Obligations.SidebandEvents : Prop :=
  (∀ (nonce : BitVec 256), ∀ i ∈ ([.getVersion, .getCapabilities, .challenge nonce] : List Instr), ∀ (s : State),
    s.power = .running → exec i s = .next { s with out := s.out ++ [.spdm (Config.spdmBytes s.tick)] }) ∧
  (∀ (s : State), s.power = .running → exec .negotiateAlgorithms s = .next { s with
    out := s.out ++ [.algorithms [.ecdsaP384, .sha384] (Config.spdmBytes s.tick)] }) ∧
  (∀ (s : State), s.power = .running → exec .getDigests s = .next { s with out := s.out ++ [.spdm (sha384 Config.certificate)] }) ∧
  (∀ (s : State), s.power = .running → exec .getCertificate s = .next { s with out := s.out ++ [.spdm Config.certificate] }) ∧
  (∀ (s : State), s.power = .running → exec .getMeasurements s = .next { s with
    out := s.out ++ [.spdm ((List.range 16).flatMap (fun n => BitVec.ofNat 8 (n + 1) :: slotBytes (vget s.atst n)))] }) ∧
  (∀ (s : State) (code : BitVec 8), s.power = .running →
    exec (.unsupportedRequest code) s = .next { s with out := s.out ++ [.spdmError] }) ∧
  (∀ (s : State) (type : BitVec 8), exec (.otherMctpMessage type) s = .next s) ∧
  (∀ (s : State), s.power = .running → s.deadline = false → exec .resetRequest s = .next { s.parts.foldl (fun s p =>
    s.record p.id (errRecord 10 5 0xFFFF s.rdl 0 0)) s with deadline := true }) ∧
  (∀ (s : State), s.power = .running → s.deadline = true → exec .resetRequest s = .next s) ∧
  (∀ (s : State), (s.power = .frozen ∨ ∃ n, s.power = .held n) → exec .resetRequest s = .next s.resetFrom) ∧
  (∀ (s : State), s.power = .resetting → exec .resetRequest s = .next s) ∧
  (∀ (s : State), s.deadline = true → exec .resetDeadline s = .next s.resetFrom)

/-- Reset, power, uncorrected errors and candling. POWER_ON leaves the state after reset, but for the monitor's
nonvolatile store (removed cores, supply offsets, link keys), what has left the package, the end of the reset steps
that is to come and the model's counters; PACKAGE_RESET begins so and ends the reset steps (log 3): held at the step
that fails, with what those before it have done, or booted from the image, the ports trained and the keys loaded;
POWER_WINDOW only throttles; UNCORRECTED_ERROR of a scratch unit poisons it and leaves its bits free;
UNCORRECTED_ERROR freezes the device where FRZCFG asks for it; CANDLING_SCAN_END refreshes AGEM of the physical
core, raises VOFF one step when a margin of a scan that passes is short, records the core as removed when it fails
or is short at the limit, and gives the waiting CNDL its result. (22_reliability R412, 22_reliability R421,
23_bringup R425, 23_bringup R426, 23_bringup R429, 09_isa_system R228.) -/
def Obligations.PackageEvents : Prop :=
  (∀ (s : State), exec .powerOn s = .next { State.reset with
    removed := s.removed, stopped := s.removed, agem := s.agem, aged := s.aged, keys := s.storedKeys,
    agenda := s.agenda.filter endsReset, out := s.out, tick := s.tick }) ∧
  (∀ (s : State) (r : BootResult), s.power ≠ .resetting →
    exec (.packageReset r) s = exec (.packageReset r) s.resetFrom) ∧
  (∀ (s : State), s.power = .resetting → exec (.packageReset .failed2) s = .next { s with power := .held 2 }) ∧
  (∀ (s : State) (fw : BitVec 384), s.power = .resetting → exec (.packageReset (.failed3 fw)) s =
    .next { s with atst := vset s.atst 0 (extendDigest 0 fw), power := .held 3 }) ∧
  (∀ (s : State) (fw : BitVec 384) (trained : List Nat) (links : List LinkKeys), s.power = .resetting →
    exec (.packageReset (.failed6 fw trained links)) s = .next { s with
      atst := vset s.atst 0 (extendDigest 0 fw), coreMap := bootMap s.removed, agem := s.agedAt s.tick, aged := s.tick,
      ports := s.ports.map (Port.train trained (mergeKeys s.keys links)), keys := mergeKeys s.keys links, power := .held 6 }) ∧
  (∀ (s : State) (i : BootImage), s.power ≠ .resetting → ∃ s', exec (.packageReset (.image i)) s = .next s' ∧ s'.power = .running ∧
    s'.parts.map (·.id) = [0] ∧ s'.dies.map (·.part) = List.replicate 8 (some 0) ∧ s'.rdl = 100000 ∧ s'.jobs = [] ∧
    s'.removed = s.removed ∧ s'.out = s.out) ∧
  (∀ (s : State) (above : Bool), exec (.powerWindow above) s = .next { s with throttled := above }) ∧
  (∀ (s : State) (a : AgentId) (off : Nat) (t : Team), s.team? a = some t → off / 8 * 8 < t.scr →
    s.frzcfg.getLsbD 16 = false →
    ∃ s' t', exec (.uncorrectedError (.scratch a off)) s = .next s' ∧ s'.team? a = some t' ∧ t'.scrBad (off / 8 * 8) 8 = true ∧
      s'.mem = s.mem ∧ ∀ n, n < off / 8 * 8 ∨ off / 8 * 8 + 8 ≤ n → t'.rdScr n 1 = t.rdScr n 1) ∧
  (∀ (s : State) (t : ErrTarget), exec (.uncorrectedError t) s =
    .next (if s.frzcfg.getLsbD 16 then { s.errorAt t with power := .frozen } else s.errorAt t)) ∧
  (∀ (s : State) (c pc : BitVec 11) (pass : Bool) (pdm vmm : BitVec 8) (x : Candle) (v : Nat), (s.core c).candle = some x →
    x.result = none → s.physCore c = some pc → v = (s.agemAt (coreIndex pc)).toNat / 2 ^ 8 % 2 ^ 8 →
    ∃ s', exec (.candlingScanEnd c pass pdm vmm) s = .next s' ∧
      (s'.core c).candle = some { x with result := some (if pass then 0 else 1) } ∧
      (∀ w, w = (if pass = true ∧ (pdm.toNat < 20 ∨ vmm.toNat < 30) ∧ v < 24 then v + 1 else v) →
        s'.agemAt (coreIndex pc) =
          BitVec.ofNat 32 (pdm.toNat * 2 ^ 24 + vmm.toNat * 2 ^ 16 + w * 2 ^ 8 + if w = 24 then 1 else 0)) ∧
      (∀ k, k ≠ coreIndex pc → s'.agemAt k = s.agemAt k) ∧ s'.mem = s.mem ∧ s'.teams = s.teams ∧
      s'.removed = if pass = false ∨ (pdm.toNat < 20 ∨ vmm.toNat < 30) ∧ (s.agemAt (coreIndex pc)).getLsbD 0 = true then
        (if pc ∈ s.removed then s.removed else pc :: s.removed) else s.removed)

/-- Words written out from the encoding tables decode to their instructions. Eleven words of the groups control,
integer, memory and system, written out from the layouts, decode to the instructions they stand for, with every
operand. (02_encoding R32, 02_encoding R35, 02_encoding R40, 02_encoding R48, 02_encoding R49.) -/
def Obligations.DecodeWords : Prop :=
  ∀ p ∈ decodeWords, decode p.1 = .ok p.2

/-- Decoding the word of a well-formed instruction gives the instruction back. For every well-formed instruction, full-
form and paired, with every operand the encoding admits, decode of encode i is i; for the five rows that share their
word with another row the decoder gives that other row, with the same operands. (02_encoding R32, 02_encoding R33,
02_encoding R35, 02_encoding R37, 02_encoding R44, 02_encoding R45, 02_encoding R48, 02_encoding R49.) -/
def Obligations.EncodeDecode : Prop :=
  (∀ i : Instr, i.wf = true → sharesItsWord i = false → decode (encode i) = .ok i) ∧
  (∀ (h : Hdr) (d a c : Opnd), (Instr.rplyGet h d a c).wf = true →
    decode (encode (.rplyPut h d a c)) = .ok (.rplyGet h d a c) ∧
    decode (encode (.rplyDrop h d a c)) = .ok (.rplyGet h d a c) ∧
    decode (encode (.rplyIns h d a c)) = .ok (.rplyGet h d a c)) ∧
  (∀ (h : Hdr) (d a c : Opnd), (Instr.rsumRetry h d a c).wf = true →
    decode (encode (.rsumFail h d a c)) = .ok (.rsumRetry h d a c)) ∧
  (∀ (h : Hdr) (a : Opnd), (Instr.halt h a).wf = true → decode (encode (.haltEnable h a)) = .ok (.halt h a))

/-- A word that decodes is the word of the well-formed instruction it decodes to. Whatever the 64 bits: when the decoder
gives an instruction, the instruction is well formed and its word is the word decoded; no bit of a legal word is
ignored. (02_encoding R50, 02_encoding R51, 02_encoding R52, 02_encoding R35, 02_encoding R48.) -/
def Obligations.DecodeWellFormed : Prop :=
  ∀ (w : DWord) (i : Instr), decode w = .ok i → i.wf = true ∧ encode i = w

/-- A step runs the instruction that the bytes at the PC of the batch decode to. When the step chooses a batch that does
not stand in a word, the fetch through the CODE page gives a word and the word decodes, the step is exec of the
instruction with that batch issuing, then the note that the batch stands ready no longer (R319) and the passing of
time; a word that does not decode raises ILL with its subcode in every lane. A batch that stands blocked in a word
issues that word again (log 63). Of a word with several lanes some may perform their access in this step and the
others later (log 10); one lane alone is never so split. (04_isa_control R78, 02_encoding R51, 07_isa_memory R149.) -/
def Obligations.StepRunsDecodedInstruction : Prop :=
  ∀ (s : State) (b : Issue), s.choice = some (.batch b) →
    (∀ (w : Nat) (x : LS), s.keptWord b = none → s.fetch b = .ok (w, x) →
      (∀ i, decode (BitVec.ofNat 64 w) = .ok i → StepRuns s b x.st i) ∧
      (∀ e, decode (BitVec.ofNat 64 w) = .error e →
        step s = .next (s.issued (.batch b) (x.st.enterHandler b.agent b.wave b.pc
          (b.todo.map (fun l => ⟨l, 0, BitVec.ofNat 8 e, 0, 0⟩)) b.todo b.todo none)).settle)) ∧
    (∀ i, s.keptWord b = some i → StepRuns s b s i)

/-- What reset leaves. The package stands in its reset steps; the CSRs hold their reset values (RDL 100,000, the others
0); memory lists nothing and is in canonical form; no core, team, job or ring stands; every key slot is empty; waits
are marked. That memory reads as zero there, that the reset steps end by what comes from outside, and what a request
meets during them, are the model's choices (logs 2, 3 and 49). (01_conventions R25, 23_bringup R426, 23_bringup
R427.) -/
def Obligations.ResetState : Prop :=
  State.reset.power = .resetting ∧ State.reset.rdl = 100000 ∧ State.reset.tvbm = 0 ∧ State.reset.lcmap = 0 ∧
  State.reset.frzcfg = 0 ∧ State.reset.keyPort = 0 ∧ State.reset.mem = [] ∧ State.reset.storesWf ∧
  (∀ c, State.reset.core c = Core.reset c) ∧ State.reset.teams = [] ∧ State.reset.jobs = [] ∧ State.reset.rings = [] ∧
  State.reset.parts = [] ∧ State.reset.waitsMarked ∧
  (∀ p ∈ State.reset.ports, p.up = false ∧ p.tx0 = KeySlot.empty ∧ p.tx1 = KeySlot.empty ∧ p.rx0 = KeySlot.empty ∧
    p.rx1 = KeySlot.empty) ∧
  (∀ n : Nat, State.reset.mem.read n 16 = 0)

/-- Every step keeps the note of since when all fibres of a team wait. From every state, reachable or not: when a step
answers a next state, each of its teams carries the note exactly when it has fibres and all of them stand in a wait
that admits a swap, which is what the hardware swap reads; and the model's counter has moved on. (15_scheduling
R320.) -/
def Obligations.StepKeepsWaitsMarked : Prop :=
  ∀ s s' : State, step s = .next s' → s'.waitsMarked ∧ s'.tick ≠ 0

/-- Every step keeps the canonical form of memory and scratch. From every state, reachable or not, whose physical memory
and every team's scratch list their bytes at strictly rising addresses, none zero: when a step answers a next state,
whatever the step is, so do they there; equal memories are equal data. (10_memory R233, 01_conventions R9.) -/
def Obligations.StepKeepsStores : Prop :=
  ∀ s s' : State, s.storesWf → step s = .next s' → s'.storesWf

/-- A completed word leaves everything but its lane and its stores as they were. What a word of one lane leaves differs
from what the lane's part left only in its team: nothing outside the teams, no other team, no other field of the
team, no other wave. With no result of the wave outstanding and none begun, no other fibre changes, and the lane's
fibre only takes the next PC and its standing; the uniform registers change only by the word's own uniform writes;
handler registers and mask sets do not change. (01_conventions R12, 01_conventions R18, 02_encoding R42,
04_isa_control R78.) -/
def Obligations.WordFrame : Prop :=
  ∀ (i : Instr) (s : State) (b : Issue) (t : Team) (l : Nat) (g : Option Guard) (y : LS) (u : Team) (f : Fibre),
    Solo s b t l g → y.lane = l → y.st.team? b.agent = some u → u.fibre? (u.slot b.wave l) = some f → b.wave < 32 →
    { b.complete i s id y with teams := y.st.teams, cur := y.st.cur } = y.st ∧
    (b.complete i s id y).cur = none ∧
    (∀ a, a ≠ b.agent → (b.complete i s id y).team? a = y.st.team? a) ∧
    ∃ v, (b.complete i s id y).team? b.agent = some v ∧
      { v with fibres := u.fibres, waves := u.waves } = u ∧
      (∀ k, k < 32 → k ≠ b.wave → v.wave k = u.wave k) ∧
      ((u.wave b.wave).unfinished = [] → y.recs = [] → y.hold ≠ some .stuck →
        v.fibre? (v.slot b.wave l) = some { f with pc := y.npc, st := y.hold.getD .run, grp := y.st.tick * 2048 } ∧
        (∀ n, n ≠ u.slot b.wave l → v.fibre? n = u.fibre? n) ∧
        { v.wave b.wave with stuck := (u.wave b.wave).stuck } = y.unis.foldl Wave.applyUni (u.wave b.wave))

/-- What each operand form reads and writes. For a lane with its team and fibre: a register that a result whose window
has passed is still to land in (logs 14, 104) is neither read nor written, and a word of two sources that names one
leaves the state as it is, not issued; otherwise g reads its register below the window and traps REG WINDOW at or
above it; f reads its low word; a reads base + stride × lane; s, i, zr, lid and IMM read as stated; operand 127
reads g[index + k] inside the window while the index is below the bound, else traps REG INDEX. A write of g changes
that register alone, zr discards, s is held for the uniform check; a lane that fails its guard only moves on by 8.
(01_conventions R17, 01_conventions R15, 01_conventions R18, 02_encoding R33, 02_encoding R35, 02_encoding R37,
02_encoding R42.) -/
def Obligations.OperandForms : Prop :=
  (∀ (x : LS) (t : Team) (f : Fibre), x.st.team? x.agent = some t → t.fibre? (t.slot x.wave x.lane) = some f →
    (∀ n : BitVec 6, n.toNat < t.gWin → (t.wave x.wave).owes x.lane (.g n) = true →
      L.rdW (.g n) x = .error .interlock ∧ ∀ v, L.wrW (.g n) v x = .error .interlock) ∧
    ((∀ o, (t.wave x.wave).owes x.lane o = false) →
    (∀ n : BitVec 6, n.toNat < t.gWin → f.regs.bad.contains (false, n.toNat) = false →
      Does (L.rdW (.g n)) x (vget f.regs.g n.toNat) x) ∧
    (∀ n : BitVec 6, t.gWin ≤ n.toNat → L.rdW (.g n) x = .error (.trap 1 1 0 0 x.st) ∧
      ∀ v, L.wrW (.g n) v x = .error (.trap 1 1 0 0 x.st)) ∧
    (∀ n : BitVec 5, n.toNat < t.fWin → f.regs.fBad n.toNat = false →
      Does (L.rdW (.f n)) x ((vget f.regs.f n.toNat).extractLsb' 0 32) x) ∧
    (∀ n : BitVec 3, Does (L.rdW (.a n)) x
      ((vget (t.wave x.wave).a n.toNat).1 + (vget (t.wave x.wave).a n.toNat).2 * BitVec.ofNat 32 x.lane) x) ∧
    (∀ n : BitVec 4, Does (L.rdW (.s n)) x (vget (t.wave x.wave).s n.toNat) x) ∧
    (∀ n : BitVec 2, Does (L.rdW (.i n)) x (vget f.regs.ix n.toNat) x) ∧
    Does (L.rdW .zr) x 0 x ∧ Does (L.rdW .lid) x (BitVec.ofNat 32 x.lane) x ∧
    (∀ m : BitVec 13, Does (L.rdW (.imm m)) x (m.signExtend 32) x) ∧
    (∀ (r : BitVec 2) (k : BitVec 6) (n : Nat), n = (vget f.regs.ix r.toNat).toNat % 2 ^ 16 →
      (n + k.toNat < t.gWin → n < (vget f.regs.ix r.toNat).toNat / 2 ^ 16 →
        f.regs.bad.contains (false, n + k.toNat) = false →
        Does (L.rdW (.idx r k)) x (vget f.regs.g (n + k.toNat)) x) ∧
      (t.gWin ≤ n + k.toNat ∨ (vget f.regs.ix r.toNat).toNat / 2 ^ 16 ≤ n →
        L.rdW (.idx r k) x = .error (.trap 1 2 0 0 x.st))) ∧
    (∀ (n : BitVec 6) (v : Word), n.toNat < t.gWin →
      Does (L.wrW (.g n) v) x () { x with
        st := x.st.updFibre x.agent x.wave x.lane (fun f => { f with
          regs := { f.regs with g := vset f.regs.g n.toNat v, bad := f.regs.bad.erase (false, n.toNat) } }) }) ∧
    (∀ (n : BitVec 4) (v : Word), Does (L.wrW (.s n) v) x () { x with unis := x.unis ++ [.s n v] }) ∧
    (∀ v : Word, Does (L.wrW .zr v) x () x))) ∧
  (∀ p ∈ twoSources, ∀ (h : Hdr) (d a c : Opnd) (s : State) (b : Issue) (t : Team) (l : Nat),
    s.cur = some b → s.team? b.agent = some t → b.lanes = [l] → b.todo = [l] → guardOut h.guard t = false →
    ((t.wave b.wave).stuck.filter (·.isOf b)).flatMap (·.unis) = [] →
    guardOwed h.guard (t.wave b.wave) [l] = false →
    guardPass h.guard (t.regsAt b.wave l) = false →
    exec (p.1 h d a c) s = .next (b.complete (p.1 h d a c) s id (b.start (s.guardRead b t h.guard) t l))) ∧
  (∀ p ∈ twoSources, ∀ (h : Hdr) (d a c : Opnd) (s : State) (b : Issue) (t : Team) (l : Nat), Solo s b t l h.guard →
    (do L.check 1 [a, c] [d]; return (← L.rdW a, ← L.rdW c)) (b.start s t l) = .error .interlock →
    exec (p.1 h d a c) s = .next { s with cur := none })

/-- One lane that traps undoes the word in all; unequal uniform writes raise UNIFORM in all. For the integer words of
two sources issued by several lanes with A operand 127: while the index of any lane is out, the wave enters its
handler from the state before the word with REG INDEX in those lanes, and no lane has written; with none out and
none left for later (log 10) each lane writes its own result. With an s register as D: unless the batch is every
live lane of the wave all its lanes call UNIFORM PARTIAL, else where two lanes differ all call UNIFORM DIVERGE, and
equal values are written. (01_conventions R12, 01_conventions R18, 05_isa_integer R106, 01_conventions R17.) -/
def Obligations.LanesTogether : Prop :=
  ∀ p ∈ twoSources, ∀ (h : Hdr) (s : State) (b : Issue) (t : Team) (fib : Nat → Fibre), Together s b t fib → h.guard = none →
    (∀ (n m k : BitVec 6) (r : BitVec 2), n.toNat < t.gWin → m.toNat < t.gWin →
      (idxOuts b t fib r k ≠ [] → exec (p.1 h (.g n) (.idx r k) (.g m)) s = .next (s.enterHandler b.agent b.wave b.pc
        ((idxOuts b t fib r k).map (fun l => ⟨l, 1, 2, 0, 0⟩)) b.lanes b.lanes none)) ∧
      (idxOuts b t fib r k = [] → b.later = [] →
        ∃ u v, exec (p.1 h (.g n) (.idx r k) (.g m)) s = .next u ∧ u.team? b.agent = some v ∧
          ∀ l ∈ b.lanes, ∃ f, v.fibre? (v.slot b.wave l) = some f ∧ f.pc = b.pc + 8 ∧ vget f.regs.g n.toNat =
            p.2 (vget (fib l).regs.g ((vget (fib l).regs.ix r.toNat).toNat % 2 ^ 16 + k.toNat))
              (vget (fib l).regs.g m.toNat))) ∧
    (∀ (q : BitVec 4) (k m : BitVec 6), k.toNat < t.gWin → m.toNat < t.gWin →
      ((∃ l ∈ t.liveLanes b.wave, l ∉ b.lanes) → exec (p.1 h (.s q) (.g k) (.g m)) s = .next
        (s.enterHandler b.agent b.wave b.pc (b.lanes.map (fun l => ⟨l, 11, 1, 0, 0⟩)) b.lanes b.lanes none)) ∧
      ((∀ l ∈ t.liveLanes b.wave, l ∈ b.lanes) →
        ((∃ l ∈ b.lanes, ∃ j ∈ b.lanes, p.2 (vget (fib l).regs.g k.toNat) (vget (fib l).regs.g m.toNat) ≠
            p.2 (vget (fib j).regs.g k.toNat) (vget (fib j).regs.g m.toNat)) →
          exec (p.1 h (.s q) (.g k) (.g m)) s = .next
            (s.enterHandler b.agent b.wave b.pc (b.lanes.map (fun l => ⟨l, 11, 2, 0, 0⟩)) b.lanes b.lanes none)) ∧
        (∀ w, (∀ l ∈ b.lanes, p.2 (vget (fib l).regs.g k.toNat) (vget (fib l).regs.g m.toNat) = w) →
          ∃ u v, exec (p.1 h (.s q) (.g k) (.g m)) s = .next u ∧ u.team? b.agent = some v ∧
            vget (v.wave b.wave).s q.toNat = w ∧
            ∀ l ∈ b.lanes, ∃ f, v.fibre? (v.slot b.wave l) = some f ∧ f.pc = b.pc + 8 ∧ f.regs = (fib l).regs)))

/-- NOP is the all-zero word and has no effect. The all-zero word, and no other, decodes to NOP; a lane that issues it
only moves on by 8; any other word of OP 0 has no instruction, and issuing it raises ILL RSVD in every lane of the
batch. (04_isa_control R80.) -/
def Obligations.NopWord : Prop :=
  decode 0 = .ok .nop ∧ (∀ w : DWord, decode w = .ok .nop → w = 0) ∧
  (∀ (s : State) (b : Issue) (t : Team) (l : Nat), Solo s b t l none →
    exec .nop s = .next (b.complete .nop s id (b.start s t l))) ∧
  (∀ w : DWord, w.getLsbD 63 = false → w.extractLsb' 54 9 = 0 → w ≠ 0 → decode w = .error 4 ∧
    ∀ (s : State) (b : Issue) (x : LS), s.keptWord b = none → s.fetch b = .ok (w.toNat, x) →
      s.issue b = .next (x.st.enterHandler b.agent b.wave b.pc (b.todo.map (fun l => ⟨l, 0, 4, 0, 0⟩)) b.todo b.todo none))
end

