-- ==== Sys2Proof/Laws/Lanes.lean ====
section
/-! SUPPORT. The parts of a lane's word: how they compose, and that the shared operand operations keep the lane. -/

set_option linter.unusedTactic false
set_option linter.unreachableTactic false

namespace Sys2Proof.Machine

/-! ### Composition -/

@[simp] theorem does_pure {α : Type} {x y : LS} {u v : α} : Does (pure u) x v y ↔ v = u ∧ y = x := by
  simp only [Does, pure, StateT.pure, Except.pure, Except.ok.injEq, Prod.mk.injEq]
  exact ⟨fun h => ⟨h.1.symm, h.2.symm⟩, fun h => ⟨h.1.symm, h.2.symm⟩⟩

theorem does_bind {α β : Type} {p : L α} {f : α → L β} {x z : LS} {v : β} :
    Does (p >>= f) x v z ↔ ∃ u y, Does p x u y ∧ Does (f u) y v z := by
  simp only [Does, bind, StateT.bind, Except.bind]
  cases h : p x with
  | error e => simp
  | ok r =>
    obtain ⟨a, b⟩ := r
    simp

@[simp] theorem does_map {α β : Type} {p : L α} {f : α → β} {x y : LS} {v : β} :
    Does (f <$> p) x v y ↔ ∃ u, Does p x u y ∧ v = f u := by
  rw [map_eq_pure_bind, does_bind]
  simp only [does_pure]
  constructor
  · rintro ⟨u, _, h, rfl, rfl⟩
    exact ⟨u, h, rfl⟩
  · rintro ⟨u, h, rfl⟩
    exact ⟨u, _, h, rfl, rfl⟩

theorem not_does_stop {α : Type} {e : Stop} {x y : LS} {v : α} : ¬ Does (L.stop e) x v y := by simp [Does, L.stop]
theorem not_does_trap {α : Type} {c : BitVec 4} {sub : BitVec 8} {a : Nat} {w : Word} {x y : LS} {v : α} :
    ¬ Does (L.trap c sub a w) x v y := by simp [Does, L.trap]
theorem not_does_block {α : Type} {w : Wait} {x y : LS} {v : α} : ¬ Does (L.block w) x v y := by simp [Does, L.block]
theorem not_does_blockWith {α : Type} {w : Wait} {f : State → State} {x y : LS} {v : α} :
    ¬ Does (L.blockWith w f) x v y := by simp [Does, L.blockWith]

@[simp] theorem does_get {x y v : LS} : Does (get : L LS) x v y ↔ v = x ∧ y = x := by
  simp only [Does, get, getThe, MonadStateOf.get, StateT.get, pure, Except.pure, Except.ok.injEq, Prod.mk.injEq]
  exact ⟨fun h => ⟨h.1.symm, h.2.symm⟩, fun h => ⟨h.1.symm, h.2.symm⟩⟩

@[simp] theorem does_modify {f : LS → LS} {x y : LS} {u : Unit} : Does (modify f : L Unit) x u y ↔ y = f x := by
  simp only [Does, modify, modifyGet, MonadStateOf.modifyGet, StateT.modifyGet, pure, Except.pure, Except.ok.injEq,
    Prod.mk.injEq, true_and]
  exact eq_comm

@[simp] theorem does_modSt {f : State → State} {x y : LS} {u : Unit} :
    Does (L.modSt f) x u y ↔ y = { x with st := f x.st } := does_modify
@[simp] theorem does_setSt {s : State} {x y : LS} {u : Unit} : Does (L.setSt s) x u y ↔ y = { x with st := s } :=
  does_modify
@[simp] theorem does_modTeam {f : Team → Team} {x y : LS} {u : Unit} :
    Does (L.modTeam f) x u y ↔ y = { x with st := x.st.updTeam x.agent f } := does_modify
@[simp] theorem does_modWave {f : Wave → Wave} {x y : LS} {u : Unit} :
    Does (L.modWave f) x u y ↔ y = { x with st := x.st.updWave x.agent x.wave f } := does_modify
@[simp] theorem does_modFibre {f : Fibre → Fibre} {x y : LS} {u : Unit} :
    Does (L.modFibre f) x u y ↔ y = { x with st := x.st.updFibre x.agent x.wave x.lane f } := does_modify
@[simp] theorem does_effect {e : Eff} {x y : LS} {u : Unit} :
    Does (L.effect e) x u y ↔ y = { x with effs := x.effs ++ [e] } := does_modify
@[simp] theorem does_goTo {pc : Addr} {x y : LS} {u : Unit} :
    Does (L.goTo pc) x u y ↔ y = { x with npc := pc, closes := true } := does_modify

theorem does_team {x y : LS} {t : Team} : Does L.team x t y ↔ x.st.team? x.agent = some t ∧ y = x := by
  simp only [Does, L.team]
  cases h : x.st.team? x.agent with
  | none => simp
  | some t' =>
    simp only [Except.ok.injEq, Prod.mk.injEq, Option.some.injEq]
    exact ⟨fun h => ⟨h.1, h.2.symm⟩, fun h => ⟨h.1, h.2.symm⟩⟩

theorem does_fibre {x y : LS} {f : Fibre} :
    Does L.fibre x f y ↔ x.st.fibre? x.agent x.wave x.lane = some f ∧ y = x := by
  simp only [Does, L.fibre]
  cases h : x.st.fibre? x.agent x.wave x.lane with
  | none => simp
  | some t' =>
    simp only [Except.ok.injEq, Prod.mk.injEq, Option.some.injEq]
    exact ⟨fun h => ⟨h.1, h.2.symm⟩, fun h => ⟨h.1, h.2.symm⟩⟩

theorem does_part {x y : LS} {p : Partition} :
    Does L.part x p y ↔ (∃ t, x.st.team? x.agent = some t ∧ x.st.part? t.part = some p) ∧ y = x := by
  simp only [Does, L.part]
  cases h : x.st.team? x.agent with
  | none => simp
  | some t =>
    cases h' : x.st.part? t.part with
    | none => simp [h']
    | some q =>
      simp only [Except.ok.injEq, Prod.mk.injEq, Option.some.injEq, exists_eq_left', h']
      exact ⟨fun h => ⟨h.1, h.2.symm⟩, fun h => ⟨h.1, h.2.symm⟩⟩

theorem does_wave {x y : LS} {w : Wave} :
    Does L.wave x w y ↔ (∃ t, x.st.team? x.agent = some t ∧ w = t.wave x.wave) ∧ y = x := by
  simp only [L.wave, does_bind, does_team, does_get, does_pure]
  constructor
  · rintro ⟨t, z, ⟨h, rfl⟩, u, z', ⟨rfl, rfl⟩, rfl, rfl⟩
    exact ⟨⟨t, h, rfl⟩, rfl⟩
  · rintro ⟨⟨t, h, rfl⟩, rfl⟩
    exact ⟨t, y, ⟨h, rfl⟩, y, y, ⟨rfl, rfl⟩, rfl, rfl⟩

/-- A register may be read or written when no result of the lane is still to land in it (R42); nothing changes. -/
theorem does_landed {o : Opnd} {x y : LS} {u : Unit} :
    Does (L.landed o) x u y ↔ (∃ t, x.st.team? x.agent = some t ∧ (t.wave x.wave).owes x.lane o = false) ∧ y = x := by
  simp only [L.landed, does_bind, does_wave, does_get]
  constructor
  · rintro ⟨w, z, ⟨⟨t, h, hw⟩, hz⟩, v, z', ⟨hv, hz'⟩, h'⟩
    rw [hw, hz', hv, hz] at h'
    cases ho : (t.wave x.wave).owes x.lane o with
    | true => simp [ho, not_does_stop] at h'
    | false => simp [ho] at h'; exact ⟨⟨t, h, ho⟩, h'⟩
  · rintro ⟨⟨t, h, ho⟩, rfl⟩
    exact ⟨_, y, ⟨⟨t, h, rfl⟩, rfl⟩, y, y, ⟨rfl, rfl⟩, by simp [ho]⟩

/-- A uniform write is held until the word's last lane (R18). -/
theorem uni_holds {n : Uni} {x y : LS} {u : Unit} (h : Does (L.uni n) x u y) : y = { x with unis := x.unis ++ [n] } := by
  cases n with
  | s n v =>
    simp only [L.uni, does_bind, does_landed, does_modify] at h
    obtain ⟨_, z, ⟨-, rfl⟩, h⟩ := h
    exact h
  | a n b t => simpa [L.uni, does_bind] using h
  | later n v => simpa [L.uni, does_bind] using h

/-! ### Keeping the lane -/

@[simp] theorem keeps_pure {α : Type} {v : α} : Keeps (pure v : L α) := by
  intro x u y h
  obtain ⟨-, rfl⟩ := does_pure.1 h
  rfl

theorem keeps_bind {α β : Type} {p : L α} {f : α → L β} (hp : Keeps p) (hf : ∀ u, Keeps (f u)) : Keeps (p >>= f) := by
  intro x v z h
  obtain ⟨u, y, h1, h2⟩ := does_bind.1 h
  rw [hf u _ _ _ h2, hp _ _ _ h1]

@[simp] theorem keeps_map {α β : Type} {p : L α} {f : α → β} (hp : Keeps p) : Keeps (f <$> p) := by
  rw [map_eq_pure_bind]
  exact keeps_bind hp (fun _ => keeps_pure)

@[simp] theorem keeps_discard {α : Type} {p : L α} (hp : Keeps p) : Keeps (discard p) := keeps_map hp

@[simp] theorem keeps_stop {α : Type} {e : Stop} : Keeps (L.stop e : L α) := fun _ _ _ h => absurd h not_does_stop
@[simp] theorem keeps_trap {α : Type} {c : BitVec 4} {sub : BitVec 8} {a : Nat} {w : Word} : Keeps (L.trap c sub a w : L α) :=
  fun _ _ _ h => absurd h not_does_trap
@[simp] theorem keeps_pageTrap {α : Type} {sub : BitVec 8} {va acc : Nat} : Keeps (L.pageTrap sub va acc : L α) := keeps_trap
@[simp] theorem keeps_block {α : Type} {w : Wait} : Keeps (L.block w : L α) := fun _ _ _ h => absurd h not_does_block
@[simp] theorem keeps_blockWith {α : Type} {w : Wait} {f : State → State} : Keeps (L.blockWith w f : L α) :=
  fun _ _ _ h => absurd h not_does_blockWith

@[simp] theorem keeps_get : Keeps (get : L LS) := by
  intro x v y h
  obtain ⟨-, rfl⟩ := does_get.1 h
  rfl

@[simp] theorem keeps_modSt {f : State → State} : Keeps (L.modSt f) := by
  intro x v y h
  rw [does_modSt.1 h]
@[simp] theorem keeps_setSt {s : State} : Keeps (L.setSt s) := by
  intro x v y h
  rw [does_setSt.1 h]
@[simp] theorem keeps_modTeam {f : Team → Team} : Keeps (L.modTeam f) := by
  intro x v y h
  rw [does_modTeam.1 h]
@[simp] theorem keeps_modWave {f : Wave → Wave} : Keeps (L.modWave f) := by
  intro x v y h
  rw [does_modWave.1 h]
@[simp] theorem keeps_modFibre {f : Fibre → Fibre} : Keeps (L.modFibre f) := by
  intro x v y h
  rw [does_modFibre.1 h]
@[simp] theorem keeps_effect {e : Eff} : Keeps (L.effect e) := by
  intro x v y h
  rw [does_effect.1 h]
@[simp] theorem keeps_team : Keeps L.team := by
  intro x v y h
  rw [(does_team.1 h).2]
@[simp] theorem keeps_fibre : Keeps L.fibre := by
  intro x v y h
  rw [(does_fibre.1 h).2]
@[simp] theorem keeps_part : Keeps L.part := by
  intro x v y h
  rw [(does_part.1 h).2]

@[simp] theorem keeps_wave : Keeps L.wave := keeps_bind keeps_team fun _ => keeps_bind keeps_get fun _ => keeps_pure
@[simp] theorem keeps_core : Keeps L.core := keeps_bind keeps_get fun _ => keeps_pure
@[simp] theorem keeps_level : Keeps L.level := keeps_bind keeps_get fun _ => keeps_pure
@[simp] theorem keeps_modPart {f : Partition → Partition} : Keeps (L.modPart f) := keeps_bind keeps_part fun _ => keeps_modSt

@[simp] theorem keeps_slot : Keeps (L.slot) := by
  unfold L.slot
  repeat' first
    | with_reducible refine keeps_bind ?_ fun _ => ?_
    | split
    | simp

/-! ### Registers -/

@[simp] theorem keeps_landed {o : Opnd} : Keeps (L.landed o) := fun _ _ _ h => by rw [(does_landed.1 h).2]

@[simp] theorem keeps_chki {b : Word} : Keeps (L.chki b) := by
  unfold L.chki
  repeat' first
    | with_reducible refine keeps_bind ?_ fun _ => ?_
    | split
    | simp

@[simp] theorem keeps_checkG {n : Nat} : Keeps (L.checkG n) := by
  unfold L.checkG
  repeat' first
    | with_reducible refine keeps_bind ?_ fun _ => ?_
    | split
    | simp

@[simp] theorem keeps_checkF {n : Nat} : Keeps (L.checkF n) := by
  unfold L.checkF
  repeat' first
    | with_reducible refine keeps_bind ?_ fun _ => ?_
    | split
    | simp

@[simp] theorem keeps_rdG {n : Nat} : Keeps (L.rdG n) := by
  unfold L.rdG
  repeat' first
    | with_reducible refine keeps_bind ?_ fun _ => ?_
    | split
    | simp

@[simp] theorem keeps_wrG {n : Nat} {v : Word} : Keeps (L.wrG n v) := by
  unfold L.wrG
  repeat' first
    | with_reducible refine keeps_bind ?_ fun _ => ?_
    | split
    | simp

@[simp] theorem keeps_rdF {n : Nat} : Keeps (L.rdF n) := by
  unfold L.rdF
  repeat' first
    | with_reducible refine keeps_bind ?_ fun _ => ?_
    | split
    | simp

@[simp] theorem keeps_wrF {n : Nat} {v : DWord} {t : BitVec 4} : Keeps (L.wrF n v t) := by
  unfold L.wrF
  repeat' first
    | with_reducible refine keeps_bind ?_ fun _ => ?_
    | split
    | simp

@[simp] theorem keeps_rdI {n : Nat} : Keeps (L.rdI n) := by
  unfold L.rdI
  repeat' first
    | with_reducible refine keeps_bind ?_ fun _ => ?_
    | split
    | simp

@[simp] theorem keeps_wrI {n : Nat} {v : Word} : Keeps (L.wrI n v) := by
  unfold L.wrI
  repeat' first
    | with_reducible refine keeps_bind ?_ fun _ => ?_
    | split
    | simp

@[simp] theorem keeps_rdS {n : Nat} : Keeps (L.rdS n) := by
  unfold L.rdS
  repeat' first
    | with_reducible refine keeps_bind ?_ fun _ => ?_
    | split
    | simp

@[simp] theorem keeps_idxReg {r : BitVec 2} {k : BitVec 6} : Keeps (L.idxReg r k) := by
  unfold L.idxReg
  repeat' first
    | with_reducible refine keeps_bind ?_ fun _ => ?_
    | split
    | simp

/-! ### Memory and scratch -/

@[simp] theorem keeps_walkFault {α : Type} {va : Nat} {sub : BitVec 8} {lvl : Nat} {gen : BitVec 16} {acc : Nat} : Keeps (L.walkFault va sub lvl gen acc : L α) := by
  unfold L.walkFault
  repeat' first
    | with_reducible refine keeps_bind ?_ fun _ => ?_
    | split
    | simp

@[simp] theorem keeps_locate {k : AK} {ea n : Nat} : Keeps (L.locate k ea n) := by
  unfold L.locate
  repeat' first
    | with_reducible refine keeps_bind ?_ fun _ => ?_
    | split
    | simp

@[simp] theorem keeps_locateAtomic {k : AK} {ea n : Nat} : Keeps (L.locateAtomic k ea n) := by
  unfold L.locateAtomic
  repeat' first
    | with_reducible refine keeps_bind ?_ fun _ => ?_
    | split
    | simp

@[simp] theorem keeps_asked {ea : Nat} : Keeps (L.asked ea) := by
  unfold L.asked
  repeat' first
    | with_reducible refine keeps_bind ?_ fun _ => ?_
    | split
    | simp

@[simp] theorem keeps_undelivered : Keeps (L.undelivered) := by
  unfold L.undelivered
  repeat' first
    | with_reducible refine keeps_bind ?_ fun _ => ?_
    | split
    | simp

@[simp] theorem keeps_awaitWrites {sc : Nat} : Keeps (L.awaitWrites sc) := by
  unfold L.awaitWrites
  repeat' first
    | with_reducible refine keeps_bind ?_ fun _ => ?_
    | split
    | simp

@[simp] theorem keeps_remoteCallP {ea acc : Nat} {q : QWord} {op : RemoteOp} {f : State → State} {w : Wait} :
    Keeps (L.remoteCallP ea acc q op f w) := by
  unfold L.remoteCallP
  repeat' first
    | with_reducible refine keeps_bind ?_ fun _ => ?_
    | split
    | simp

@[simp] theorem keeps_remoteCall {ea acc : Nat} {q : QWord} {op : RemoteOp} : Keeps (L.remoteCall ea acc q op) := by
  unfold L.remoteCall
  repeat' first
    | with_reducible refine keeps_bind ?_ fun _ => ?_
    | split
    | simp

@[simp] theorem keeps_remoteStore {ea : Nat} {acc : BitVec 8} {q : QWord} {op : RemoteOp} : Keeps (L.remoteStore ea acc q op) := by
  unfold L.remoteStore
  repeat' first
    | with_reducible refine keeps_bind ?_ fun _ => ?_
    | split
    | simp

@[simp] theorem keeps_load {k : AK} {ea n : Nat} : Keeps (L.load k ea n) := by
  unfold L.load
  repeat' first
    | with_reducible refine keeps_bind ?_ fun _ => ?_
    | split
    | simp

@[simp] theorem keeps_noteStore {ea v : Nat} : Keeps (L.noteStore ea v) := by
  unfold L.noteStore
  repeat' first
    | with_reducible refine keeps_bind ?_ fun _ => ?_
    | split
    | simp

@[simp] theorem keeps_store {k : AK} {ea n v : Nat} : Keeps (L.store k ea n v) := by
  unfold L.store
  repeat' first
    | with_reducible refine keeps_bind ?_ fun _ => ?_
    | split
    | simp

@[simp] theorem keeps_release {sc : Nat} : Keeps (L.release sc) := by
  unfold L.release
  repeat' first
    | with_reducible refine keeps_bind ?_ fun _ => ?_
    | split
    | simp

@[simp] theorem keeps_checkScr {off n al : Nat} : Keeps (L.checkScr off n al) := by
  unfold L.checkScr
  repeat' first
    | with_reducible refine keeps_bind ?_ fun _ => ?_
    | split
    | simp

@[simp] theorem keeps_loadScr {off n : Nat} : Keeps (L.loadScr off n) := by
  unfold L.loadScr
  repeat' first
    | with_reducible refine keeps_bind ?_ fun _ => ?_
    | split
    | simp

@[simp] theorem keeps_storeScr {off n v : Nat} : Keeps (L.storeScr off n v) := by
  unfold L.storeScr
  repeat' first
    | with_reducible refine keeps_bind ?_ fun _ => ?_
    | split
    | simp

/-! ### Channels -/

@[simp] theorem keeps_chan {n : Nat} {b : Bool} : Keeps (L.chan n b) := by
  unfold L.chan
  repeat' first
    | with_reducible refine keeps_bind ?_ fun _ => ?_
    | split
    | simp

@[simp] theorem keeps_coming {va : Nat} : Keeps (L.coming va) := by
  unfold L.coming
  repeat' first
    | with_reducible refine keeps_bind ?_ fun _ => ?_
    | split
    | simp

@[simp] theorem keeps_streamWord {b : Bool} {va : Nat} : Keeps (L.streamWord b va) := by
  unfold L.streamWord
  repeat' first
    | with_reducible refine keeps_bind ?_ fun _ => ?_
    | split
    | simp

@[simp] theorem keeps_ringRd {b c : Bool} {w : Wait} {va : Nat} : Keeps (L.ringRd b c va w) := by
  unfold L.ringRd
  repeat' first
    | with_reducible refine keeps_bind ?_ fun _ => ?_
    | split
    | simp

@[simp] theorem keeps_ringWr {b c d : Bool} {va v : Nat} : Keeps (L.ringWr b c va v d) := by
  unfold L.ringWr
  repeat' first
    | with_reducible refine keeps_bind ?_ fun _ => ?_
    | split
    | simp

@[simp] theorem keeps_abroad {c : Chan} {b : Bool} : Keeps (L.abroad c b) := by
  unfold L.abroad
  repeat' first
    | with_reducible refine keeps_bind ?_ fun _ => ?_
    | split
    | simp

@[simp] theorem keeps_blockChan {α : Type} {n : Nat} {c : Chan} : Keeps (L.blockChan n c : L α) := by
  unfold L.blockChan
  repeat' first
    | with_reducible refine keeps_bind ?_ fun _ => ?_
    | split
    | simp

@[simp] theorem keeps_ring {c : Chan} {b : Bool} : Keeps (L.ring c b) := by
  unfold L.ring
  repeat' first
    | with_reducible refine keeps_bind ?_ fun _ => ?_
    | split
    | simp

@[simp] theorem keeps_slotTaken {c : Chan} {r : L.Ring} : Keeps (L.slotTaken c r) := by
  unfold L.slotTaken
  repeat' first
    | with_reducible refine keeps_bind ?_ fun _ => ?_
    | split
    | simp

@[simp] theorem keeps_ringSet {n : Nat} {c : Chan} {b : Bool} {r : L.Ring} : Keeps (L.ringSet n c b r) := by
  unfold L.ringSet
  repeat' first
    | with_reducible refine keeps_bind ?_ fun _ => ?_
    | split
    | simp

@[simp] theorem keeps_ringRds {b c : Bool} {w : Wait} {va n : Nat} : Keeps (L.ringRds b c va w n) := by
  induction n generalizing va with
  | zero => exact keeps_pure
  | succ n ih => exact keeps_bind keeps_ringRd fun _ => keeps_bind ih fun _ => keeps_pure

@[simp] theorem keeps_ringWrs {b c : Bool} {va v : Nat} {bad : List Nat} {n : Nat} : Keeps (L.ringWrs b c va v bad n) := by
  induction n generalizing va v bad with
  | zero => exact keeps_pure
  | succ n ih => exact keeps_bind keeps_ringWr fun _ => ih

@[simp] theorem keeps_chanPop {ch : Nat} {pk : Bool} {n : Nat} : Keeps (L.chanPop ch pk n) := by
  unfold L.chanPop
  repeat' first
    | with_reducible refine keeps_bind ?_ fun _ => ?_
    | split
    | simp

@[simp] theorem keeps_chanPush {ch v n : Nat} : Keeps (L.chanPush ch v n) := by
  unfold L.chanPush
  repeat' first
    | with_reducible refine keeps_bind ?_ fun _ => ?_
    | split
    | simp

/-! ### Operands -/

@[simp] theorem keeps_checkReg {o : Opnd} : Keeps (L.checkReg o) := by
  unfold L.checkReg
  repeat' first
    | with_reducible refine keeps_bind ?_ fun _ => ?_
    | split
    | simp

@[simp] theorem keeps_checkRegs {l : List Opnd} : Keeps (L.checkRegs l) := by
  induction l with
  | nil => exact keeps_pure
  | cons o l ih => exact keeps_bind keeps_checkReg fun _ => ih

@[simp] theorem keeps_checkChans {n : Nat} {all l : List Opnd} : Keeps (L.checkChans n all l) := by
  induction l with
  | nil => exact keeps_pure
  | cons o l ih =>
    cases o <;> unfold L.checkChans
    all_goals repeat' first
      | exact ih
      | with_reducible refine keeps_bind ?_ fun _ => ?_
      | split
      | simp

@[simp] theorem keeps_check {n : Nat} {a b : List Opnd} : Keeps (L.check n a b) := by
  unfold L.check
  repeat' first
    | with_reducible refine keeps_bind ?_ fun _ => ?_
    | split
    | simp

@[simp] theorem keeps_rdW {o : Opnd} : Keeps (L.rdW o) := by
  cases o with
  | g n => exact keeps_rdG
  | f n => exact keeps_bind keeps_rdF fun _ => keeps_pure
  | a n => exact keeps_bind keeps_wave fun _ => keeps_bind keeps_get fun _ => keeps_pure
  | s n => exact keeps_rdS
  | i n => exact keeps_rdI
  | zr => exact keeps_pure
  | lid => exact keeps_bind keeps_get fun _ => keeps_pure
  | imm v => exact keeps_pure
  | idx r k => exact keeps_bind keeps_idxReg fun _ => keeps_rdG
  | chan c pk => exact keeps_bind keeps_chanPop fun _ => keeps_pure

@[simp] theorem keeps_rdD {o : Opnd} : Keeps (L.rdD o) := by
  unfold L.rdD
  repeat' first
    | with_reducible refine keeps_bind ?_ fun _ => ?_
    | split
    | simp

@[simp] theorem keeps_wrD {o : Opnd} {v : DWord} {t : BitVec 4} : Keeps (L.wrD o v t) := by
  unfold L.wrD
  repeat' first
    | with_reducible refine keeps_bind ?_ fun _ => ?_
    | split
    | simp

@[simp] theorem keeps_rdPair {o : Opnd} : Keeps (L.rdPair o) := by
  unfold L.rdPair
  repeat' first
    | with_reducible refine keeps_bind ?_ fun _ => ?_
    | split
    | simp

@[simp] theorem keeps_wrPair {o : Opnd} {v : Nat} : Keeps (L.wrPair o v) := by
  unfold L.wrPair
  repeat' first
    | with_reducible refine keeps_bind ?_ fun _ => ?_
    | split
    | simp

@[simp] theorem keeps_sameInAll {v : Word} {p : L Word} : Keeps (L.sameInAll v p) := by
  unfold L.sameInAll
  repeat' first
    | with_reducible refine keeps_bind ?_ fun _ => ?_
    | split
    | simp

@[simp] theorem keeps_peer {α : Type} {l : Nat} {p : L α} : Keeps (L.peer l p) := by
  unfold L.peer
  repeat' first
    | with_reducible refine keeps_bind ?_ fun _ => ?_
    | split
    | simp

@[simp] theorem keeps_checkAddr {m : MemOpnd} : Keeps (L.checkAddr m) := by
  unfold L.checkAddr
  repeat' first
    | with_reducible refine keeps_bind ?_ fun _ => ?_
    | split
    | simp

@[simp] theorem keeps_rdNat {o : Opnd} : Keeps (L.rdNat o) := by
  unfold L.rdNat
  repeat' first
    | with_reducible refine keeps_bind ?_ fun _ => ?_
    | split
    | simp

@[simp] theorem keeps_rdIndex {o : Option Opnd} : Keeps (L.rdIndex o) := by
  unfold L.rdIndex
  repeat' first
    | with_reducible refine keeps_bind ?_ fun _ => ?_
    | split
    | simp

@[simp] theorem keeps_addrOps {m : MemOpnd} : Keeps (L.addrOps m) := by
  unfold L.addrOps
  repeat' first
    | with_reducible refine keeps_bind ?_ fun _ => ?_
    | split
    | simp

@[simp] theorem keeps_globalEa {acc : Nat} {ea : Int} : Keeps (L.globalEa acc ea) := by
  unfold L.globalEa
  repeat' first
    | with_reducible refine keeps_bind ?_ fun _ => ?_
    | split
    | simp

@[simp] theorem keeps_access {acc : Nat} {m : MemOpnd} {n av bv : Nat} : Keeps (L.access acc m n av bv) := by
  unfold L.access
  repeat' first
    | with_reducible refine keeps_bind ?_ fun _ => ?_
    | split
    | simp

@[simp] theorem keeps_pageAddr {acc : Nat} {o : Opnd} : Keeps (L.pageAddr acc o) := by
  unfold L.pageAddr
  repeat' first
    | with_reducible refine keeps_bind ?_ fun _ => ?_
    | split
    | simp

@[simp] theorem keeps_raise {fl : Fl} : Keeps (L.raise fl) := by
  unfold L.raise
  repeat' first
    | with_reducible refine keeps_bind ?_ fun _ => ?_
    | split
    | simp

@[simp] theorem keeps_settle {r : Rnd} : Keeps (L.settle r) := by
  unfold L.settle
  repeat' first
    | with_reducible refine keeps_bind ?_ fun _ => ?_
    | split
    | simp

@[simp] theorem keeps_tagIn {ts : List (BitVec 4)} {o : Opnd} : Keeps (L.tagIn ts o) := by
  unfold L.tagIn
  repeat' first
    | with_reducible refine keeps_bind ?_ fun _ => ?_
    | split
    | simp

theorem keeps_wrW {o : Opnd} {v : Word} (h : ∀ n, o ≠ .s n) : Keeps (L.wrW o v) := by
  unfold L.wrW
  repeat' first
    | exact absurd rfl (h _)
    | with_reducible refine keeps_bind ?_ fun _ => ?_
    | split
    | simp

/-- A 32-bit result is written: into a uniform register it is held for the uniform check (R18); anywhere else only the state
changes. -/
theorem wrW_keeps {o : Opnd} {v : Word} {x y : LS} {u : Unit} (h : Does (L.wrW o v) x u y) :
    y.lane = x.lane ∧ (y.unis = x.unis ∨ ∃ n, y.unis = x.unis ++ [Uni.s n v]) := by
  by_cases ho : ∃ n, o = .s n
  · obtain ⟨n, rfl⟩ := ho
    have h' := uni_holds (show Does (L.uni (.s n v)) x u y from h)
    subst h'
    exact ⟨rfl, .inr ⟨n, rfl⟩⟩
  · have h' := keeps_wrW (fun n hn => ho ⟨n, hn⟩) _ _ _ h
    rw [h']
    exact ⟨rfl, .inl rfl⟩

end Sys2Proof.Machine
end

