-- ==== Sys2Proof/Laws/Memory.lean ====
section
/-! SUPPORT. The laws of sparse stores and of memory: reads after writes, other places, and the canonical form that every
memory operation keeps. -/

namespace Sys2Proof.Machine

variable {α : Type}

theorem spAbove_trans {j k : Nat} {l : List (Nat × α)} (h : spAbove k l = true) (hj : j ≤ k) : spAbove j l = true := by
  induction l with
  | nil => rfl
  | cons x l ih =>
    simp only [spAbove, Bool.and_eq_true, decide_eq_true_eq] at h ⊢
    exact ⟨by omega, ih h.2⟩

/-- A key that no entry reaches reads as the default. -/
theorem spGet_above {d : α} {k j : Nat} {l : List (Nat × α)} (h : spAbove k l = true) (hj : j ≤ k) : spGet d l j = d := by
  induction l with
  | nil => rfl
  | cons x l ih =>
    simp only [spAbove, Bool.and_eq_true, decide_eq_true_eq] at h
    simp only [spGet, if_neg (show x.1 ≠ j by omega)]
    exact ih h.2

variable [DecidableEq α]

theorem spAbove_spSet {d v : α} {j k : Nat} {l : List (Nat × α)} (h : spAbove j l = true) (hk : j < k) :
    spAbove j (spSet d l k v) = true := by
  induction l with
  | nil => simp only [spSet]; split <;> simp [spAbove, hk]
  | cons x l ih =>
    simp only [spAbove, Bool.and_eq_true, decide_eq_true_eq] at h
    simp only [spSet]
    split
    · split <;> simp [spAbove, h.1, h.2, hk]
    · split
      · split <;> simp [spAbove, h.2, hk]
      · simp [spAbove, h.1, ih h.2]

/-- A write keeps the canonical form. -/
theorem spWf_spSet {d v : α} {k : Nat} {l : List (Nat × α)} (h : spWf d l = true) : spWf d (spSet d l k v) = true := by
  induction l with
  | nil => simp only [spSet]; split <;> simp_all [spWf, spAbove]
  | cons x l ih =>
    obtain ⟨k', v'⟩ := x
    simp only [spWf, Bool.and_eq_true, decide_eq_true_eq] at h
    obtain ⟨⟨h1, h2⟩, h3⟩ := h
    simp only [spSet]
    split
    · rename_i hk
      split
      · simp [spWf, h1, h2, h3]
      · rename_i hv
        simp [spWf, h1, h2, h3, hv, spAbove, hk, spAbove_trans h2 (Nat.le_of_lt hk)]
    · rename_i hk
      split
      · rename_i hkk
        split
        · exact h3
        · rename_i hv
          subst hkk
          simp [spWf, hv, h2, h3]
      · rename_i hkk
        simp [spWf, h1, ih h3, spAbove_spSet h2 (show k' < k by omega)]

/-- A read after a write to the same key. -/
theorem spGet_spSet_same {d v : α} {k : Nat} {l : List (Nat × α)} (h : spWf d l = true) : spGet d (spSet d l k v) k = v := by
  induction l with
  | nil => simp only [spSet]; split <;> simp_all [spGet]
  | cons x l ih =>
    obtain ⟨k', v'⟩ := x
    simp only [spWf, Bool.and_eq_true, decide_eq_true_eq] at h
    simp only [spSet]
    split
    · rename_i hk
      split
      · rename_i hv
        rw [hv]
        exact spGet_above (k := k) (by simp [spAbove, hk, spAbove_trans h.1.2 (Nat.le_of_lt hk)]) (Nat.le_refl k)
      · simp [spGet]
    · split
      · rename_i hkk
        subst hkk
        split
        · rename_i hv
          rw [hv]
          exact spGet_above h.1.2 (Nat.le_refl k)
        · simp [spGet]
      · rename_i hkk
        simp [spGet, Ne.symm hkk, ih h.2]

/-- A write leaves every other key. -/
theorem spGet_spSet_ne {d v : α} {j k : Nat} {l : List (Nat × α)} (hj : j ≠ k) : spGet d (spSet d l k v) j = spGet d l j := by
  induction l with
  | nil => simp only [spSet]; split <;> simp_all [spGet, Ne.symm hj]
  | cons x l ih =>
    simp only [spSet]
    split
    · split <;> simp_all [spGet, Ne.symm hj]
    · split
      · rename_i hk
        have : x.1 ≠ j := fun h => hj (h.symm.trans hk.symm)
        split <;> simp [spGet, this, Ne.symm hj]
      · simp only [spGet, ih]

omit [DecidableEq α] in
theorem spAbove_filter {k : Nat} {p : Nat × α → Bool} {l : List (Nat × α)} (h : spAbove k l = true) :
    spAbove k (l.filter p) = true := by
  induction l with
  | nil => rfl
  | cons x l ih =>
    simp only [spAbove, Bool.and_eq_true, decide_eq_true_eq] at h
    simp only [List.filter_cons]
    split
    · simp [spAbove, h.1, ih h.2]
    · exact ih h.2

theorem spWf_filter {d : α} {p : Nat × α → Bool} {l : List (Nat × α)} (h : spWf d l = true) : spWf d (l.filter p) = true := by
  induction l with
  | nil => rfl
  | cons x l ih =>
    simp only [spWf, Bool.and_eq_true, decide_eq_true_eq] at h
    simp only [List.filter_cons]
    split
    · simp [spWf, h.1.1, spAbove_filter h.1.2, ih h.2]
    · exact ih h.2

theorem spWf_foldl {β : Type} {d : α} {f : β → Nat} {g : β → α} {m : List (Nat × α)} {l : List β} (h : spWf d m = true) :
    spWf d (l.foldl (fun m b => spSet d m (f b) (g b)) m) = true := by
  induction l generalizing m with
  | nil => exact h
  | cons b l ih => exact ih (spWf_spSet h)

omit [DecidableEq α]

/-! ### Bytes -/

theorem byte_setByte_same {m : Memory} {a : Nat} {v : BitVec 8} (h : m.wf = true) : (m.setByte a v).byte a = v := spGet_spSet_same h

theorem byte_setByte_ne {m : Memory} {a j : Nat} {v : BitVec 8} (h : j ≠ a) : (m.setByte a v).byte j = m.byte j := spGet_spSet_ne h

theorem wf_setByte {m : Memory} {a : Nat} {v : BitVec 8} (h : m.wf = true) : (m.setByte a v).wf = true := spWf_spSet h

theorem wf_write {m : Memory} {a n v : Nat} (h : m.wf = true) : (m.write a n v).wf = true := by
  induction n generalizing m a v with
  | zero => exact h
  | succ n ih => exact ih (wf_setByte h)

theorem wf_writeBytes {m : Memory} {a : Nat} {l : List (BitVec 8)} (h : m.wf = true) : (m.writeBytes a l).wf = true := by
  induction l generalizing m a with
  | nil => exact h
  | cons b l ih => exact ih (wf_setByte h)

/-- A write of n bytes leaves every byte outside them. -/
theorem byte_write_ne {m : Memory} {a n v j : Nat} (h : j < a ∨ a + n ≤ j) : (m.write a n v).byte j = m.byte j := by
  induction n generalizing m a v with
  | zero => rfl
  | succ n ih =>
    rw [Memory.write, ih (by omega), byte_setByte_ne (by omega)]

theorem byte_writeBytes_ne {m : Memory} {a j : Nat} {l : List (BitVec 8)} (h : j < a ∨ a + l.length ≤ j) :
    (m.writeBytes a l).byte j = m.byte j := by
  induction l generalizing m a with
  | nil => rfl
  | cons b l ih =>
    simp only [List.length_cons] at h
    rw [Memory.writeBytes, ih (by omega), byte_setByte_ne (by omega)]

theorem read_congr {m m' : Memory} {a n : Nat} (h : ∀ j, a ≤ j → j < a + n → m.byte j = m'.byte j) : m.read a n = m'.read a n := by
  induction n generalizing a with
  | zero => rfl
  | succ n ih =>
    rw [Memory.read, Memory.read, h a (by omega) (by omega), ih (fun j h1 h2 => h j (by omega) (by omega))]

/-- A read of the bytes just written gives the value, to their width. -/
theorem read_write_same {m : Memory} {a n v : Nat} (h : m.wf = true) : (m.write a n v).read a n = v % 256 ^ n := by
  induction n generalizing m a v with
  | zero => simp [Memory.read, Nat.mod_one]
  | succ n ih =>
    rw [Memory.read, Memory.write, byte_write_ne (by omega), byte_setByte_same h, ih (wf_setByte h), Nat.pow_succ',
      Nat.mod_mul, BitVec.toNat_ofNat]

/-- A read of other bytes is what it was. -/
theorem read_write_ne {m : Memory} {a n v b k : Nat} (h : b + k ≤ a ∨ a + n ≤ b) : (m.write a n v).read b k = m.read b k :=
  read_congr (fun j h1 h2 => byte_write_ne (by omega))

/-! ### The writes of the state -/

theorem wf_writeP {s : State} {pa n v : Nat} (h : s.mem.wf = true) : (s.writeP pa n v).mem.wf = true := wf_write h

theorem readP_writeP_same {s : State} {pa n v : Nat} (h : s.mem.wf = true) : (s.writeP pa n v).readP pa n = v % 256 ^ n :=
  read_write_same h

theorem readP_writeP_ne {s : State} {pa n v b k : Nat} (h : b + k ≤ pa ∨ pa + n ≤ b) :
    (s.writeP pa n v).readP b k = s.readP b k := read_write_ne h

theorem wf_writeLeaf {s : State} {a : Nat} {q : QWord} (h : s.mem.wf = true) : (s.writeLeaf a q).mem.wf = true := wf_writeP h

theorem poison_mem {s : State} {pa : Nat} : (s.poison pa).mem = s.mem := by
  simp only [State.poison]
  split <;> rfl

theorem poisons_mem {s : State} {l : List Nat} {d : Nat} : (l.foldl (fun s o => s.poison (d + o)) s).mem = s.mem := by
  induction l generalizing s with
  | nil => rfl
  | cons o l ih => rw [List.foldl_cons, ih, poison_mem]

theorem wf_copyPage {s : State} {src dst : Nat} (h : s.mem.wf = true) : (s.copyPage src dst).mem.wf = true := by
  simp only [State.copyPage, poisons_mem]
  exact spWf_foldl (spWf_filter h)

theorem wf_reset : State.reset.mem.wf = true := rfl

end Sys2Proof.Machine
end

