-- ==== Sys2Proof/Laws/State.lean ====
section
/-! SUPPORT. What each update of the state leaves as it was, field by field, and what a look-up finds after an update. -/

namespace Sys2Proof.Machine

/-! ### Vectors and first matches -/

theorem vget_vset_same {α : Type} {n : Nat} [Inhabited α] {v : Vector α n} {k : Nat} {x : α} (h : k < n) :
    vget (vset v k x) k = x := by
  simp [vget, vset, h]

theorem vget_vset_ne {α : Type} {n : Nat} [Inhabited α] {v : Vector α n} {j k : Nat} {x : α} (h : j ≠ k) :
    vget (vset v k x) j = vget v j := by
  simp [vget, vset, h.symm]

theorem find?_updFirst_same {α : Type} {p : α → Bool} {f : α → α} {l : List α} (h : ∀ x, p x = true → p (f x) = true) :
    (updFirst p f l).find? p = (l.find? p).map f := by
  induction l with
  | nil => rfl
  | cons x l ih =>
    simp only [updFirst]
    split
    · simp_all
    · simp_all

theorem find?_updFirst_other {α : Type} {p q : α → Bool} {f : α → α} {l : List α} (h : ∀ x, p x = true → q x = false)
    (hf : ∀ x, p x = true → q (f x) = false) : (updFirst p f l).find? q = l.find? q := by
  induction l with
  | nil => rfl
  | cons x l ih =>
    simp only [updFirst]
    split
    · rename_i hp
      simp [h x hp, hf x hp]
    · simp [List.find?_cons, ih]

/-! ### Updates that write one field -/

@[simp] theorem updDie_power (s : State) (d : Nat) (f : Die → Die) : (s.updDie d f).power = s.power := rfl
@[simp] theorem updDie_mem (s : State) (d : Nat) (f : Die → Die) : (s.updDie d f).mem = s.mem := rfl
@[simp] theorem updDie_memBad (s : State) (d : Nat) (f : Die → Die) : (s.updDie d f).memBad = s.memBad := rfl
@[simp] theorem updDie_parts (s : State) (d : Nat) (f : Die → Die) : (s.updDie d f).parts = s.parts := rfl
@[simp] theorem updDie_cores (s : State) (d : Nat) (f : Die → Die) : (s.updDie d f).cores = s.cores := rfl
@[simp] theorem updDie_teams (s : State) (d : Nat) (f : Die → Die) : (s.updDie d f).teams = s.teams := rfl
@[simp] theorem updDie_jobs (s : State) (d : Nat) (f : Die → Die) : (s.updDie d f).jobs = s.jobs := rfl
@[simp] theorem updDie_nextJob (s : State) (d : Nat) (f : Die → Die) : (s.updDie d f).nextJob = s.nextJob := rfl
@[simp] theorem updDie_moves (s : State) (d : Nat) (f : Die → Die) : (s.updDie d f).moves = s.moves := rfl
@[simp] theorem updDie_nextMove (s : State) (d : Nat) (f : Die → Die) : (s.updDie d f).nextMove = s.nextMove := rfl
@[simp] theorem updDie_taken (s : State) (d : Nat) (f : Die → Die) : (s.updDie d f).taken = s.taken := rfl
@[simp] theorem updDie_homes (s : State) (d : Nat) (f : Die → Die) : (s.updDie d f).homes = s.homes := rfl
@[simp] theorem updDie_redInsts (s : State) (d : Nat) (f : Die → Die) : (s.updDie d f).redInsts = s.redInsts := rfl
@[simp] theorem updDie_fills (s : State) (d : Nat) (f : Die → Die) : (s.updDie d f).fills = s.fills := rfl
@[simp] theorem updDie_rings (s : State) (d : Nat) (f : Die → Die) : (s.updDie d f).rings = s.rings := rfl
@[simp] theorem updDie_launches (s : State) (d : Nat) (f : Die → Die) : (s.updDie d f).launches = s.launches := rfl
@[simp] theorem updDie_nextLaunch (s : State) (d : Nat) (f : Die → Die) : (s.updDie d f).nextLaunch = s.nextLaunch := rfl
@[simp] theorem updDie_pivs (s : State) (d : Nat) (f : Die → Die) : (s.updDie d f).pivs = s.pivs := rfl
@[simp] theorem updDie_saved (s : State) (d : Nat) (f : Die → Die) : (s.updDie d f).saved = s.saved := rfl
@[simp] theorem updDie_steals (s : State) (d : Nat) (f : Die → Die) : (s.updDie d f).steals = s.steals := rfl
@[simp] theorem updDie_ports (s : State) (d : Nat) (f : Die → Die) : (s.updDie d f).ports = s.ports := rfl
@[simp] theorem updDie_paths (s : State) (d : Nat) (f : Die → Die) : (s.updDie d f).paths = s.paths := rfl
@[simp] theorem updDie_pkg (s : State) (d : Nat) (f : Die → Die) : (s.updDie d f).pkg = s.pkg := rfl
@[simp] theorem updDie_mid (s : State) (d : Nat) (f : Die → Die) : (s.updDie d f).mid = s.mid := rfl
@[simp] theorem updDie_sent (s : State) (d : Nat) (f : Die → Die) : (s.updDie d f).sent = s.sent := rfl
@[simp] theorem updDie_outst (s : State) (d : Nat) (f : Die → Die) : (s.updDie d f).outst = s.outst := rfl
@[simp] theorem updDie_performed (s : State) (d : Nat) (f : Die → Die) : (s.updDie d f).performed = s.performed := rfl
@[simp] theorem updDie_rdl (s : State) (d : Nat) (f : Die → Die) : (s.updDie d f).rdl = s.rdl := rfl
@[simp] theorem updDie_keyPort (s : State) (d : Nat) (f : Die → Die) : (s.updDie d f).keyPort = s.keyPort := rfl
@[simp] theorem updDie_tvbm (s : State) (d : Nat) (f : Die → Die) : (s.updDie d f).tvbm = s.tvbm := rfl
@[simp] theorem updDie_lcmap (s : State) (d : Nat) (f : Die → Die) : (s.updDie d f).lcmap = s.lcmap := rfl
@[simp] theorem updDie_frzcfg (s : State) (d : Nat) (f : Die → Die) : (s.updDie d f).frzcfg = s.frzcfg := rfl
@[simp] theorem updDie_coreMap (s : State) (d : Nat) (f : Die → Die) : (s.updDie d f).coreMap = s.coreMap := rfl
@[simp] theorem updDie_atst (s : State) (d : Nat) (f : Die → Die) : (s.updDie d f).atst = s.atst := rfl
@[simp] theorem updDie_deadline (s : State) (d : Nat) (f : Die → Die) : (s.updDie d f).deadline = s.deadline := rfl
@[simp] theorem updDie_throttled (s : State) (d : Nat) (f : Die → Die) : (s.updDie d f).throttled = s.throttled := rfl
@[simp] theorem updDie_removed (s : State) (d : Nat) (f : Die → Die) : (s.updDie d f).removed = s.removed := rfl
@[simp] theorem updDie_stopped (s : State) (d : Nat) (f : Die → Die) : (s.updDie d f).stopped = s.stopped := rfl
@[simp] theorem updDie_agem (s : State) (d : Nat) (f : Die → Die) : (s.updDie d f).agem = s.agem := rfl
@[simp] theorem updDie_aged (s : State) (d : Nat) (f : Die → Die) : (s.updDie d f).aged = s.aged := rfl
@[simp] theorem updDie_keys (s : State) (d : Nat) (f : Die → Die) : (s.updDie d f).keys = s.keys := rfl
@[simp] theorem updDie_mail (s : State) (d : Nat) (f : Die → Die) : (s.updDie d f).mail = s.mail := rfl
@[simp] theorem updDie_control (s : State) (d : Nat) (f : Die → Die) : (s.updDie d f).control = s.control := rfl
@[simp] theorem updDie_standing (s : State) (d : Nat) (f : Die → Die) : (s.updDie d f).standing = s.standing := rfl
@[simp] theorem updDie_agenda (s : State) (d : Nat) (f : Die → Die) : (s.updDie d f).agenda = s.agenda := rfl
@[simp] theorem updDie_cur (s : State) (d : Nat) (f : Die → Die) : (s.updDie d f).cur = s.cur := rfl
@[simp] theorem updDie_out (s : State) (d : Nat) (f : Die → Die) : (s.updDie d f).out = s.out := rfl
@[simp] theorem updDie_tick (s : State) (d : Nat) (f : Die → Die) : (s.updDie d f).tick = s.tick := rfl

@[simp] theorem updPart_power (s : State) (p : Nat) (f : Partition → Partition) : (s.updPart p f).power = s.power := rfl
@[simp] theorem updPart_mem (s : State) (p : Nat) (f : Partition → Partition) : (s.updPart p f).mem = s.mem := rfl
@[simp] theorem updPart_memBad (s : State) (p : Nat) (f : Partition → Partition) : (s.updPart p f).memBad = s.memBad := rfl
@[simp] theorem updPart_dies (s : State) (p : Nat) (f : Partition → Partition) : (s.updPart p f).dies = s.dies := rfl
@[simp] theorem updPart_cores (s : State) (p : Nat) (f : Partition → Partition) : (s.updPart p f).cores = s.cores := rfl
@[simp] theorem updPart_teams (s : State) (p : Nat) (f : Partition → Partition) : (s.updPart p f).teams = s.teams := rfl
@[simp] theorem updPart_jobs (s : State) (p : Nat) (f : Partition → Partition) : (s.updPart p f).jobs = s.jobs := rfl
@[simp] theorem updPart_nextJob (s : State) (p : Nat) (f : Partition → Partition) : (s.updPart p f).nextJob = s.nextJob := rfl
@[simp] theorem updPart_moves (s : State) (p : Nat) (f : Partition → Partition) : (s.updPart p f).moves = s.moves := rfl
@[simp] theorem updPart_nextMove (s : State) (p : Nat) (f : Partition → Partition) : (s.updPart p f).nextMove = s.nextMove := rfl
@[simp] theorem updPart_taken (s : State) (p : Nat) (f : Partition → Partition) : (s.updPart p f).taken = s.taken := rfl
@[simp] theorem updPart_homes (s : State) (p : Nat) (f : Partition → Partition) : (s.updPart p f).homes = s.homes := rfl
@[simp] theorem updPart_redInsts (s : State) (p : Nat) (f : Partition → Partition) : (s.updPart p f).redInsts = s.redInsts := rfl
@[simp] theorem updPart_fills (s : State) (p : Nat) (f : Partition → Partition) : (s.updPart p f).fills = s.fills := rfl
@[simp] theorem updPart_rings (s : State) (p : Nat) (f : Partition → Partition) : (s.updPart p f).rings = s.rings := rfl
@[simp] theorem updPart_launches (s : State) (p : Nat) (f : Partition → Partition) : (s.updPart p f).launches = s.launches := rfl
@[simp] theorem updPart_nextLaunch (s : State) (p : Nat) (f : Partition → Partition) : (s.updPart p f).nextLaunch = s.nextLaunch := rfl
@[simp] theorem updPart_pivs (s : State) (p : Nat) (f : Partition → Partition) : (s.updPart p f).pivs = s.pivs := rfl
@[simp] theorem updPart_saved (s : State) (p : Nat) (f : Partition → Partition) : (s.updPart p f).saved = s.saved := rfl
@[simp] theorem updPart_steals (s : State) (p : Nat) (f : Partition → Partition) : (s.updPart p f).steals = s.steals := rfl
@[simp] theorem updPart_ports (s : State) (p : Nat) (f : Partition → Partition) : (s.updPart p f).ports = s.ports := rfl
@[simp] theorem updPart_paths (s : State) (p : Nat) (f : Partition → Partition) : (s.updPart p f).paths = s.paths := rfl
@[simp] theorem updPart_pkg (s : State) (p : Nat) (f : Partition → Partition) : (s.updPart p f).pkg = s.pkg := rfl
@[simp] theorem updPart_mid (s : State) (p : Nat) (f : Partition → Partition) : (s.updPart p f).mid = s.mid := rfl
@[simp] theorem updPart_sent (s : State) (p : Nat) (f : Partition → Partition) : (s.updPart p f).sent = s.sent := rfl
@[simp] theorem updPart_outst (s : State) (p : Nat) (f : Partition → Partition) : (s.updPart p f).outst = s.outst := rfl
@[simp] theorem updPart_performed (s : State) (p : Nat) (f : Partition → Partition) : (s.updPart p f).performed = s.performed := rfl
@[simp] theorem updPart_rdl (s : State) (p : Nat) (f : Partition → Partition) : (s.updPart p f).rdl = s.rdl := rfl
@[simp] theorem updPart_keyPort (s : State) (p : Nat) (f : Partition → Partition) : (s.updPart p f).keyPort = s.keyPort := rfl
@[simp] theorem updPart_tvbm (s : State) (p : Nat) (f : Partition → Partition) : (s.updPart p f).tvbm = s.tvbm := rfl
@[simp] theorem updPart_lcmap (s : State) (p : Nat) (f : Partition → Partition) : (s.updPart p f).lcmap = s.lcmap := rfl
@[simp] theorem updPart_frzcfg (s : State) (p : Nat) (f : Partition → Partition) : (s.updPart p f).frzcfg = s.frzcfg := rfl
@[simp] theorem updPart_coreMap (s : State) (p : Nat) (f : Partition → Partition) : (s.updPart p f).coreMap = s.coreMap := rfl
@[simp] theorem updPart_atst (s : State) (p : Nat) (f : Partition → Partition) : (s.updPart p f).atst = s.atst := rfl
@[simp] theorem updPart_deadline (s : State) (p : Nat) (f : Partition → Partition) : (s.updPart p f).deadline = s.deadline := rfl
@[simp] theorem updPart_throttled (s : State) (p : Nat) (f : Partition → Partition) : (s.updPart p f).throttled = s.throttled := rfl
@[simp] theorem updPart_removed (s : State) (p : Nat) (f : Partition → Partition) : (s.updPart p f).removed = s.removed := rfl
@[simp] theorem updPart_stopped (s : State) (p : Nat) (f : Partition → Partition) : (s.updPart p f).stopped = s.stopped := rfl
@[simp] theorem updPart_agem (s : State) (p : Nat) (f : Partition → Partition) : (s.updPart p f).agem = s.agem := rfl
@[simp] theorem updPart_aged (s : State) (p : Nat) (f : Partition → Partition) : (s.updPart p f).aged = s.aged := rfl
@[simp] theorem updPart_keys (s : State) (p : Nat) (f : Partition → Partition) : (s.updPart p f).keys = s.keys := rfl
@[simp] theorem updPart_mail (s : State) (p : Nat) (f : Partition → Partition) : (s.updPart p f).mail = s.mail := rfl
@[simp] theorem updPart_control (s : State) (p : Nat) (f : Partition → Partition) : (s.updPart p f).control = s.control := rfl
@[simp] theorem updPart_standing (s : State) (p : Nat) (f : Partition → Partition) : (s.updPart p f).standing = s.standing := rfl
@[simp] theorem updPart_agenda (s : State) (p : Nat) (f : Partition → Partition) : (s.updPart p f).agenda = s.agenda := rfl
@[simp] theorem updPart_cur (s : State) (p : Nat) (f : Partition → Partition) : (s.updPart p f).cur = s.cur := rfl
@[simp] theorem updPart_out (s : State) (p : Nat) (f : Partition → Partition) : (s.updPart p f).out = s.out := rfl
@[simp] theorem updPart_tick (s : State) (p : Nat) (f : Partition → Partition) : (s.updPart p f).tick = s.tick := rfl

@[simp] theorem updTeam_power (s : State) (a : AgentId) (f : Team → Team) : (s.updTeam a f).power = s.power := rfl
@[simp] theorem updTeam_mem (s : State) (a : AgentId) (f : Team → Team) : (s.updTeam a f).mem = s.mem := rfl
@[simp] theorem updTeam_memBad (s : State) (a : AgentId) (f : Team → Team) : (s.updTeam a f).memBad = s.memBad := rfl
@[simp] theorem updTeam_parts (s : State) (a : AgentId) (f : Team → Team) : (s.updTeam a f).parts = s.parts := rfl
@[simp] theorem updTeam_dies (s : State) (a : AgentId) (f : Team → Team) : (s.updTeam a f).dies = s.dies := rfl
@[simp] theorem updTeam_cores (s : State) (a : AgentId) (f : Team → Team) : (s.updTeam a f).cores = s.cores := rfl
@[simp] theorem updTeam_jobs (s : State) (a : AgentId) (f : Team → Team) : (s.updTeam a f).jobs = s.jobs := rfl
@[simp] theorem updTeam_nextJob (s : State) (a : AgentId) (f : Team → Team) : (s.updTeam a f).nextJob = s.nextJob := rfl
@[simp] theorem updTeam_moves (s : State) (a : AgentId) (f : Team → Team) : (s.updTeam a f).moves = s.moves := rfl
@[simp] theorem updTeam_nextMove (s : State) (a : AgentId) (f : Team → Team) : (s.updTeam a f).nextMove = s.nextMove := rfl
@[simp] theorem updTeam_taken (s : State) (a : AgentId) (f : Team → Team) : (s.updTeam a f).taken = s.taken := rfl
@[simp] theorem updTeam_homes (s : State) (a : AgentId) (f : Team → Team) : (s.updTeam a f).homes = s.homes := rfl
@[simp] theorem updTeam_redInsts (s : State) (a : AgentId) (f : Team → Team) : (s.updTeam a f).redInsts = s.redInsts := rfl
@[simp] theorem updTeam_fills (s : State) (a : AgentId) (f : Team → Team) : (s.updTeam a f).fills = s.fills := rfl
@[simp] theorem updTeam_rings (s : State) (a : AgentId) (f : Team → Team) : (s.updTeam a f).rings = s.rings := rfl
@[simp] theorem updTeam_launches (s : State) (a : AgentId) (f : Team → Team) : (s.updTeam a f).launches = s.launches := rfl
@[simp] theorem updTeam_nextLaunch (s : State) (a : AgentId) (f : Team → Team) : (s.updTeam a f).nextLaunch = s.nextLaunch := rfl
@[simp] theorem updTeam_pivs (s : State) (a : AgentId) (f : Team → Team) : (s.updTeam a f).pivs = s.pivs := rfl
@[simp] theorem updTeam_saved (s : State) (a : AgentId) (f : Team → Team) : (s.updTeam a f).saved = s.saved := rfl
@[simp] theorem updTeam_steals (s : State) (a : AgentId) (f : Team → Team) : (s.updTeam a f).steals = s.steals := rfl
@[simp] theorem updTeam_ports (s : State) (a : AgentId) (f : Team → Team) : (s.updTeam a f).ports = s.ports := rfl
@[simp] theorem updTeam_paths (s : State) (a : AgentId) (f : Team → Team) : (s.updTeam a f).paths = s.paths := rfl
@[simp] theorem updTeam_pkg (s : State) (a : AgentId) (f : Team → Team) : (s.updTeam a f).pkg = s.pkg := rfl
@[simp] theorem updTeam_mid (s : State) (a : AgentId) (f : Team → Team) : (s.updTeam a f).mid = s.mid := rfl
@[simp] theorem updTeam_sent (s : State) (a : AgentId) (f : Team → Team) : (s.updTeam a f).sent = s.sent := rfl
@[simp] theorem updTeam_outst (s : State) (a : AgentId) (f : Team → Team) : (s.updTeam a f).outst = s.outst := rfl
@[simp] theorem updTeam_performed (s : State) (a : AgentId) (f : Team → Team) : (s.updTeam a f).performed = s.performed := rfl
@[simp] theorem updTeam_rdl (s : State) (a : AgentId) (f : Team → Team) : (s.updTeam a f).rdl = s.rdl := rfl
@[simp] theorem updTeam_keyPort (s : State) (a : AgentId) (f : Team → Team) : (s.updTeam a f).keyPort = s.keyPort := rfl
@[simp] theorem updTeam_tvbm (s : State) (a : AgentId) (f : Team → Team) : (s.updTeam a f).tvbm = s.tvbm := rfl
@[simp] theorem updTeam_lcmap (s : State) (a : AgentId) (f : Team → Team) : (s.updTeam a f).lcmap = s.lcmap := rfl
@[simp] theorem updTeam_frzcfg (s : State) (a : AgentId) (f : Team → Team) : (s.updTeam a f).frzcfg = s.frzcfg := rfl
@[simp] theorem updTeam_coreMap (s : State) (a : AgentId) (f : Team → Team) : (s.updTeam a f).coreMap = s.coreMap := rfl
@[simp] theorem updTeam_atst (s : State) (a : AgentId) (f : Team → Team) : (s.updTeam a f).atst = s.atst := rfl
@[simp] theorem updTeam_deadline (s : State) (a : AgentId) (f : Team → Team) : (s.updTeam a f).deadline = s.deadline := rfl
@[simp] theorem updTeam_throttled (s : State) (a : AgentId) (f : Team → Team) : (s.updTeam a f).throttled = s.throttled := rfl
@[simp] theorem updTeam_removed (s : State) (a : AgentId) (f : Team → Team) : (s.updTeam a f).removed = s.removed := rfl
@[simp] theorem updTeam_stopped (s : State) (a : AgentId) (f : Team → Team) : (s.updTeam a f).stopped = s.stopped := rfl
@[simp] theorem updTeam_agem (s : State) (a : AgentId) (f : Team → Team) : (s.updTeam a f).agem = s.agem := rfl
@[simp] theorem updTeam_aged (s : State) (a : AgentId) (f : Team → Team) : (s.updTeam a f).aged = s.aged := rfl
@[simp] theorem updTeam_keys (s : State) (a : AgentId) (f : Team → Team) : (s.updTeam a f).keys = s.keys := rfl
@[simp] theorem updTeam_mail (s : State) (a : AgentId) (f : Team → Team) : (s.updTeam a f).mail = s.mail := rfl
@[simp] theorem updTeam_control (s : State) (a : AgentId) (f : Team → Team) : (s.updTeam a f).control = s.control := rfl
@[simp] theorem updTeam_standing (s : State) (a : AgentId) (f : Team → Team) : (s.updTeam a f).standing = s.standing := rfl
@[simp] theorem updTeam_agenda (s : State) (a : AgentId) (f : Team → Team) : (s.updTeam a f).agenda = s.agenda := rfl
@[simp] theorem updTeam_cur (s : State) (a : AgentId) (f : Team → Team) : (s.updTeam a f).cur = s.cur := rfl
@[simp] theorem updTeam_out (s : State) (a : AgentId) (f : Team → Team) : (s.updTeam a f).out = s.out := rfl
@[simp] theorem updTeam_tick (s : State) (a : AgentId) (f : Team → Team) : (s.updTeam a f).tick = s.tick := rfl

@[simp] theorem updJob_power (s : State) (j : Nat) (f : Job → Job) : (s.updJob j f).power = s.power := rfl
@[simp] theorem updJob_mem (s : State) (j : Nat) (f : Job → Job) : (s.updJob j f).mem = s.mem := rfl
@[simp] theorem updJob_memBad (s : State) (j : Nat) (f : Job → Job) : (s.updJob j f).memBad = s.memBad := rfl
@[simp] theorem updJob_parts (s : State) (j : Nat) (f : Job → Job) : (s.updJob j f).parts = s.parts := rfl
@[simp] theorem updJob_dies (s : State) (j : Nat) (f : Job → Job) : (s.updJob j f).dies = s.dies := rfl
@[simp] theorem updJob_cores (s : State) (j : Nat) (f : Job → Job) : (s.updJob j f).cores = s.cores := rfl
@[simp] theorem updJob_teams (s : State) (j : Nat) (f : Job → Job) : (s.updJob j f).teams = s.teams := rfl
@[simp] theorem updJob_nextJob (s : State) (j : Nat) (f : Job → Job) : (s.updJob j f).nextJob = s.nextJob := rfl
@[simp] theorem updJob_moves (s : State) (j : Nat) (f : Job → Job) : (s.updJob j f).moves = s.moves := rfl
@[simp] theorem updJob_nextMove (s : State) (j : Nat) (f : Job → Job) : (s.updJob j f).nextMove = s.nextMove := rfl
@[simp] theorem updJob_taken (s : State) (j : Nat) (f : Job → Job) : (s.updJob j f).taken = s.taken := rfl
@[simp] theorem updJob_homes (s : State) (j : Nat) (f : Job → Job) : (s.updJob j f).homes = s.homes := rfl
@[simp] theorem updJob_redInsts (s : State) (j : Nat) (f : Job → Job) : (s.updJob j f).redInsts = s.redInsts := rfl
@[simp] theorem updJob_fills (s : State) (j : Nat) (f : Job → Job) : (s.updJob j f).fills = s.fills := rfl
@[simp] theorem updJob_rings (s : State) (j : Nat) (f : Job → Job) : (s.updJob j f).rings = s.rings := rfl
@[simp] theorem updJob_launches (s : State) (j : Nat) (f : Job → Job) : (s.updJob j f).launches = s.launches := rfl
@[simp] theorem updJob_nextLaunch (s : State) (j : Nat) (f : Job → Job) : (s.updJob j f).nextLaunch = s.nextLaunch := rfl
@[simp] theorem updJob_pivs (s : State) (j : Nat) (f : Job → Job) : (s.updJob j f).pivs = s.pivs := rfl
@[simp] theorem updJob_saved (s : State) (j : Nat) (f : Job → Job) : (s.updJob j f).saved = s.saved := rfl
@[simp] theorem updJob_steals (s : State) (j : Nat) (f : Job → Job) : (s.updJob j f).steals = s.steals := rfl
@[simp] theorem updJob_ports (s : State) (j : Nat) (f : Job → Job) : (s.updJob j f).ports = s.ports := rfl
@[simp] theorem updJob_paths (s : State) (j : Nat) (f : Job → Job) : (s.updJob j f).paths = s.paths := rfl
@[simp] theorem updJob_pkg (s : State) (j : Nat) (f : Job → Job) : (s.updJob j f).pkg = s.pkg := rfl
@[simp] theorem updJob_mid (s : State) (j : Nat) (f : Job → Job) : (s.updJob j f).mid = s.mid := rfl
@[simp] theorem updJob_sent (s : State) (j : Nat) (f : Job → Job) : (s.updJob j f).sent = s.sent := rfl
@[simp] theorem updJob_outst (s : State) (j : Nat) (f : Job → Job) : (s.updJob j f).outst = s.outst := rfl
@[simp] theorem updJob_performed (s : State) (j : Nat) (f : Job → Job) : (s.updJob j f).performed = s.performed := rfl
@[simp] theorem updJob_rdl (s : State) (j : Nat) (f : Job → Job) : (s.updJob j f).rdl = s.rdl := rfl
@[simp] theorem updJob_keyPort (s : State) (j : Nat) (f : Job → Job) : (s.updJob j f).keyPort = s.keyPort := rfl
@[simp] theorem updJob_tvbm (s : State) (j : Nat) (f : Job → Job) : (s.updJob j f).tvbm = s.tvbm := rfl
@[simp] theorem updJob_lcmap (s : State) (j : Nat) (f : Job → Job) : (s.updJob j f).lcmap = s.lcmap := rfl
@[simp] theorem updJob_frzcfg (s : State) (j : Nat) (f : Job → Job) : (s.updJob j f).frzcfg = s.frzcfg := rfl
@[simp] theorem updJob_coreMap (s : State) (j : Nat) (f : Job → Job) : (s.updJob j f).coreMap = s.coreMap := rfl
@[simp] theorem updJob_atst (s : State) (j : Nat) (f : Job → Job) : (s.updJob j f).atst = s.atst := rfl
@[simp] theorem updJob_deadline (s : State) (j : Nat) (f : Job → Job) : (s.updJob j f).deadline = s.deadline := rfl
@[simp] theorem updJob_throttled (s : State) (j : Nat) (f : Job → Job) : (s.updJob j f).throttled = s.throttled := rfl
@[simp] theorem updJob_removed (s : State) (j : Nat) (f : Job → Job) : (s.updJob j f).removed = s.removed := rfl
@[simp] theorem updJob_stopped (s : State) (j : Nat) (f : Job → Job) : (s.updJob j f).stopped = s.stopped := rfl
@[simp] theorem updJob_agem (s : State) (j : Nat) (f : Job → Job) : (s.updJob j f).agem = s.agem := rfl
@[simp] theorem updJob_aged (s : State) (j : Nat) (f : Job → Job) : (s.updJob j f).aged = s.aged := rfl
@[simp] theorem updJob_keys (s : State) (j : Nat) (f : Job → Job) : (s.updJob j f).keys = s.keys := rfl
@[simp] theorem updJob_mail (s : State) (j : Nat) (f : Job → Job) : (s.updJob j f).mail = s.mail := rfl
@[simp] theorem updJob_control (s : State) (j : Nat) (f : Job → Job) : (s.updJob j f).control = s.control := rfl
@[simp] theorem updJob_standing (s : State) (j : Nat) (f : Job → Job) : (s.updJob j f).standing = s.standing := rfl
@[simp] theorem updJob_agenda (s : State) (j : Nat) (f : Job → Job) : (s.updJob j f).agenda = s.agenda := rfl
@[simp] theorem updJob_cur (s : State) (j : Nat) (f : Job → Job) : (s.updJob j f).cur = s.cur := rfl
@[simp] theorem updJob_out (s : State) (j : Nat) (f : Job → Job) : (s.updJob j f).out = s.out := rfl
@[simp] theorem updJob_tick (s : State) (j : Nat) (f : Job → Job) : (s.updJob j f).tick = s.tick := rfl

@[simp] theorem updLaunch_power (s : State) (l : Nat) (f : Launch → Launch) : (s.updLaunch l f).power = s.power := rfl
@[simp] theorem updLaunch_mem (s : State) (l : Nat) (f : Launch → Launch) : (s.updLaunch l f).mem = s.mem := rfl
@[simp] theorem updLaunch_memBad (s : State) (l : Nat) (f : Launch → Launch) : (s.updLaunch l f).memBad = s.memBad := rfl
@[simp] theorem updLaunch_parts (s : State) (l : Nat) (f : Launch → Launch) : (s.updLaunch l f).parts = s.parts := rfl
@[simp] theorem updLaunch_dies (s : State) (l : Nat) (f : Launch → Launch) : (s.updLaunch l f).dies = s.dies := rfl
@[simp] theorem updLaunch_cores (s : State) (l : Nat) (f : Launch → Launch) : (s.updLaunch l f).cores = s.cores := rfl
@[simp] theorem updLaunch_teams (s : State) (l : Nat) (f : Launch → Launch) : (s.updLaunch l f).teams = s.teams := rfl
@[simp] theorem updLaunch_jobs (s : State) (l : Nat) (f : Launch → Launch) : (s.updLaunch l f).jobs = s.jobs := rfl
@[simp] theorem updLaunch_nextJob (s : State) (l : Nat) (f : Launch → Launch) : (s.updLaunch l f).nextJob = s.nextJob := rfl
@[simp] theorem updLaunch_moves (s : State) (l : Nat) (f : Launch → Launch) : (s.updLaunch l f).moves = s.moves := rfl
@[simp] theorem updLaunch_nextMove (s : State) (l : Nat) (f : Launch → Launch) : (s.updLaunch l f).nextMove = s.nextMove := rfl
@[simp] theorem updLaunch_taken (s : State) (l : Nat) (f : Launch → Launch) : (s.updLaunch l f).taken = s.taken := rfl
@[simp] theorem updLaunch_homes (s : State) (l : Nat) (f : Launch → Launch) : (s.updLaunch l f).homes = s.homes := rfl
@[simp] theorem updLaunch_redInsts (s : State) (l : Nat) (f : Launch → Launch) : (s.updLaunch l f).redInsts = s.redInsts := rfl
@[simp] theorem updLaunch_fills (s : State) (l : Nat) (f : Launch → Launch) : (s.updLaunch l f).fills = s.fills := rfl
@[simp] theorem updLaunch_rings (s : State) (l : Nat) (f : Launch → Launch) : (s.updLaunch l f).rings = s.rings := rfl
@[simp] theorem updLaunch_nextLaunch (s : State) (l : Nat) (f : Launch → Launch) : (s.updLaunch l f).nextLaunch = s.nextLaunch := rfl
@[simp] theorem updLaunch_pivs (s : State) (l : Nat) (f : Launch → Launch) : (s.updLaunch l f).pivs = s.pivs := rfl
@[simp] theorem updLaunch_saved (s : State) (l : Nat) (f : Launch → Launch) : (s.updLaunch l f).saved = s.saved := rfl
@[simp] theorem updLaunch_steals (s : State) (l : Nat) (f : Launch → Launch) : (s.updLaunch l f).steals = s.steals := rfl
@[simp] theorem updLaunch_ports (s : State) (l : Nat) (f : Launch → Launch) : (s.updLaunch l f).ports = s.ports := rfl
@[simp] theorem updLaunch_paths (s : State) (l : Nat) (f : Launch → Launch) : (s.updLaunch l f).paths = s.paths := rfl
@[simp] theorem updLaunch_pkg (s : State) (l : Nat) (f : Launch → Launch) : (s.updLaunch l f).pkg = s.pkg := rfl
@[simp] theorem updLaunch_mid (s : State) (l : Nat) (f : Launch → Launch) : (s.updLaunch l f).mid = s.mid := rfl
@[simp] theorem updLaunch_sent (s : State) (l : Nat) (f : Launch → Launch) : (s.updLaunch l f).sent = s.sent := rfl
@[simp] theorem updLaunch_outst (s : State) (l : Nat) (f : Launch → Launch) : (s.updLaunch l f).outst = s.outst := rfl
@[simp] theorem updLaunch_performed (s : State) (l : Nat) (f : Launch → Launch) : (s.updLaunch l f).performed = s.performed := rfl
@[simp] theorem updLaunch_rdl (s : State) (l : Nat) (f : Launch → Launch) : (s.updLaunch l f).rdl = s.rdl := rfl
@[simp] theorem updLaunch_keyPort (s : State) (l : Nat) (f : Launch → Launch) : (s.updLaunch l f).keyPort = s.keyPort := rfl
@[simp] theorem updLaunch_tvbm (s : State) (l : Nat) (f : Launch → Launch) : (s.updLaunch l f).tvbm = s.tvbm := rfl
@[simp] theorem updLaunch_lcmap (s : State) (l : Nat) (f : Launch → Launch) : (s.updLaunch l f).lcmap = s.lcmap := rfl
@[simp] theorem updLaunch_frzcfg (s : State) (l : Nat) (f : Launch → Launch) : (s.updLaunch l f).frzcfg = s.frzcfg := rfl
@[simp] theorem updLaunch_coreMap (s : State) (l : Nat) (f : Launch → Launch) : (s.updLaunch l f).coreMap = s.coreMap := rfl
@[simp] theorem updLaunch_atst (s : State) (l : Nat) (f : Launch → Launch) : (s.updLaunch l f).atst = s.atst := rfl
@[simp] theorem updLaunch_deadline (s : State) (l : Nat) (f : Launch → Launch) : (s.updLaunch l f).deadline = s.deadline := rfl
@[simp] theorem updLaunch_throttled (s : State) (l : Nat) (f : Launch → Launch) : (s.updLaunch l f).throttled = s.throttled := rfl
@[simp] theorem updLaunch_removed (s : State) (l : Nat) (f : Launch → Launch) : (s.updLaunch l f).removed = s.removed := rfl
@[simp] theorem updLaunch_stopped (s : State) (l : Nat) (f : Launch → Launch) : (s.updLaunch l f).stopped = s.stopped := rfl
@[simp] theorem updLaunch_agem (s : State) (l : Nat) (f : Launch → Launch) : (s.updLaunch l f).agem = s.agem := rfl
@[simp] theorem updLaunch_aged (s : State) (l : Nat) (f : Launch → Launch) : (s.updLaunch l f).aged = s.aged := rfl
@[simp] theorem updLaunch_keys (s : State) (l : Nat) (f : Launch → Launch) : (s.updLaunch l f).keys = s.keys := rfl
@[simp] theorem updLaunch_mail (s : State) (l : Nat) (f : Launch → Launch) : (s.updLaunch l f).mail = s.mail := rfl
@[simp] theorem updLaunch_control (s : State) (l : Nat) (f : Launch → Launch) : (s.updLaunch l f).control = s.control := rfl
@[simp] theorem updLaunch_standing (s : State) (l : Nat) (f : Launch → Launch) : (s.updLaunch l f).standing = s.standing := rfl
@[simp] theorem updLaunch_agenda (s : State) (l : Nat) (f : Launch → Launch) : (s.updLaunch l f).agenda = s.agenda := rfl
@[simp] theorem updLaunch_cur (s : State) (l : Nat) (f : Launch → Launch) : (s.updLaunch l f).cur = s.cur := rfl
@[simp] theorem updLaunch_out (s : State) (l : Nat) (f : Launch → Launch) : (s.updLaunch l f).out = s.out := rfl
@[simp] theorem updLaunch_tick (s : State) (l : Nat) (f : Launch → Launch) : (s.updLaunch l f).tick = s.tick := rfl

@[simp] theorem updPort_power (s : State) (p : Nat) (f : Port → Port) : (s.updPort p f).power = s.power := rfl
@[simp] theorem updPort_mem (s : State) (p : Nat) (f : Port → Port) : (s.updPort p f).mem = s.mem := rfl
@[simp] theorem updPort_memBad (s : State) (p : Nat) (f : Port → Port) : (s.updPort p f).memBad = s.memBad := rfl
@[simp] theorem updPort_parts (s : State) (p : Nat) (f : Port → Port) : (s.updPort p f).parts = s.parts := rfl
@[simp] theorem updPort_dies (s : State) (p : Nat) (f : Port → Port) : (s.updPort p f).dies = s.dies := rfl
@[simp] theorem updPort_cores (s : State) (p : Nat) (f : Port → Port) : (s.updPort p f).cores = s.cores := rfl
@[simp] theorem updPort_teams (s : State) (p : Nat) (f : Port → Port) : (s.updPort p f).teams = s.teams := rfl
@[simp] theorem updPort_jobs (s : State) (p : Nat) (f : Port → Port) : (s.updPort p f).jobs = s.jobs := rfl
@[simp] theorem updPort_nextJob (s : State) (p : Nat) (f : Port → Port) : (s.updPort p f).nextJob = s.nextJob := rfl
@[simp] theorem updPort_moves (s : State) (p : Nat) (f : Port → Port) : (s.updPort p f).moves = s.moves := rfl
@[simp] theorem updPort_nextMove (s : State) (p : Nat) (f : Port → Port) : (s.updPort p f).nextMove = s.nextMove := rfl
@[simp] theorem updPort_taken (s : State) (p : Nat) (f : Port → Port) : (s.updPort p f).taken = s.taken := rfl
@[simp] theorem updPort_homes (s : State) (p : Nat) (f : Port → Port) : (s.updPort p f).homes = s.homes := rfl
@[simp] theorem updPort_redInsts (s : State) (p : Nat) (f : Port → Port) : (s.updPort p f).redInsts = s.redInsts := rfl
@[simp] theorem updPort_fills (s : State) (p : Nat) (f : Port → Port) : (s.updPort p f).fills = s.fills := rfl
@[simp] theorem updPort_rings (s : State) (p : Nat) (f : Port → Port) : (s.updPort p f).rings = s.rings := rfl
@[simp] theorem updPort_launches (s : State) (p : Nat) (f : Port → Port) : (s.updPort p f).launches = s.launches := rfl
@[simp] theorem updPort_nextLaunch (s : State) (p : Nat) (f : Port → Port) : (s.updPort p f).nextLaunch = s.nextLaunch := rfl
@[simp] theorem updPort_pivs (s : State) (p : Nat) (f : Port → Port) : (s.updPort p f).pivs = s.pivs := rfl
@[simp] theorem updPort_saved (s : State) (p : Nat) (f : Port → Port) : (s.updPort p f).saved = s.saved := rfl
@[simp] theorem updPort_steals (s : State) (p : Nat) (f : Port → Port) : (s.updPort p f).steals = s.steals := rfl
@[simp] theorem updPort_paths (s : State) (p : Nat) (f : Port → Port) : (s.updPort p f).paths = s.paths := rfl
@[simp] theorem updPort_pkg (s : State) (p : Nat) (f : Port → Port) : (s.updPort p f).pkg = s.pkg := rfl
@[simp] theorem updPort_mid (s : State) (p : Nat) (f : Port → Port) : (s.updPort p f).mid = s.mid := rfl
@[simp] theorem updPort_sent (s : State) (p : Nat) (f : Port → Port) : (s.updPort p f).sent = s.sent := rfl
@[simp] theorem updPort_outst (s : State) (p : Nat) (f : Port → Port) : (s.updPort p f).outst = s.outst := rfl
@[simp] theorem updPort_performed (s : State) (p : Nat) (f : Port → Port) : (s.updPort p f).performed = s.performed := rfl
@[simp] theorem updPort_rdl (s : State) (p : Nat) (f : Port → Port) : (s.updPort p f).rdl = s.rdl := rfl
@[simp] theorem updPort_keyPort (s : State) (p : Nat) (f : Port → Port) : (s.updPort p f).keyPort = s.keyPort := rfl
@[simp] theorem updPort_tvbm (s : State) (p : Nat) (f : Port → Port) : (s.updPort p f).tvbm = s.tvbm := rfl
@[simp] theorem updPort_lcmap (s : State) (p : Nat) (f : Port → Port) : (s.updPort p f).lcmap = s.lcmap := rfl
@[simp] theorem updPort_frzcfg (s : State) (p : Nat) (f : Port → Port) : (s.updPort p f).frzcfg = s.frzcfg := rfl
@[simp] theorem updPort_coreMap (s : State) (p : Nat) (f : Port → Port) : (s.updPort p f).coreMap = s.coreMap := rfl
@[simp] theorem updPort_atst (s : State) (p : Nat) (f : Port → Port) : (s.updPort p f).atst = s.atst := rfl
@[simp] theorem updPort_deadline (s : State) (p : Nat) (f : Port → Port) : (s.updPort p f).deadline = s.deadline := rfl
@[simp] theorem updPort_throttled (s : State) (p : Nat) (f : Port → Port) : (s.updPort p f).throttled = s.throttled := rfl
@[simp] theorem updPort_removed (s : State) (p : Nat) (f : Port → Port) : (s.updPort p f).removed = s.removed := rfl
@[simp] theorem updPort_stopped (s : State) (p : Nat) (f : Port → Port) : (s.updPort p f).stopped = s.stopped := rfl
@[simp] theorem updPort_agem (s : State) (p : Nat) (f : Port → Port) : (s.updPort p f).agem = s.agem := rfl
@[simp] theorem updPort_aged (s : State) (p : Nat) (f : Port → Port) : (s.updPort p f).aged = s.aged := rfl
@[simp] theorem updPort_keys (s : State) (p : Nat) (f : Port → Port) : (s.updPort p f).keys = s.keys := rfl
@[simp] theorem updPort_mail (s : State) (p : Nat) (f : Port → Port) : (s.updPort p f).mail = s.mail := rfl
@[simp] theorem updPort_control (s : State) (p : Nat) (f : Port → Port) : (s.updPort p f).control = s.control := rfl
@[simp] theorem updPort_standing (s : State) (p : Nat) (f : Port → Port) : (s.updPort p f).standing = s.standing := rfl
@[simp] theorem updPort_agenda (s : State) (p : Nat) (f : Port → Port) : (s.updPort p f).agenda = s.agenda := rfl
@[simp] theorem updPort_cur (s : State) (p : Nat) (f : Port → Port) : (s.updPort p f).cur = s.cur := rfl
@[simp] theorem updPort_out (s : State) (p : Nat) (f : Port → Port) : (s.updPort p f).out = s.out := rfl
@[simp] theorem updPort_tick (s : State) (p : Nat) (f : Port → Port) : (s.updPort p f).tick = s.tick := rfl

@[simp] theorem push_power (s : State) (e : Event) : (s.push e).power = s.power := rfl
@[simp] theorem push_mem (s : State) (e : Event) : (s.push e).mem = s.mem := rfl
@[simp] theorem push_memBad (s : State) (e : Event) : (s.push e).memBad = s.memBad := rfl
@[simp] theorem push_parts (s : State) (e : Event) : (s.push e).parts = s.parts := rfl
@[simp] theorem push_dies (s : State) (e : Event) : (s.push e).dies = s.dies := rfl
@[simp] theorem push_cores (s : State) (e : Event) : (s.push e).cores = s.cores := rfl
@[simp] theorem push_teams (s : State) (e : Event) : (s.push e).teams = s.teams := rfl
@[simp] theorem push_jobs (s : State) (e : Event) : (s.push e).jobs = s.jobs := rfl
@[simp] theorem push_nextJob (s : State) (e : Event) : (s.push e).nextJob = s.nextJob := rfl
@[simp] theorem push_moves (s : State) (e : Event) : (s.push e).moves = s.moves := rfl
@[simp] theorem push_nextMove (s : State) (e : Event) : (s.push e).nextMove = s.nextMove := rfl
@[simp] theorem push_taken (s : State) (e : Event) : (s.push e).taken = s.taken := rfl
@[simp] theorem push_homes (s : State) (e : Event) : (s.push e).homes = s.homes := rfl
@[simp] theorem push_redInsts (s : State) (e : Event) : (s.push e).redInsts = s.redInsts := rfl
@[simp] theorem push_fills (s : State) (e : Event) : (s.push e).fills = s.fills := rfl
@[simp] theorem push_rings (s : State) (e : Event) : (s.push e).rings = s.rings := rfl
@[simp] theorem push_launches (s : State) (e : Event) : (s.push e).launches = s.launches := rfl
@[simp] theorem push_nextLaunch (s : State) (e : Event) : (s.push e).nextLaunch = s.nextLaunch := rfl
@[simp] theorem push_pivs (s : State) (e : Event) : (s.push e).pivs = s.pivs := rfl
@[simp] theorem push_saved (s : State) (e : Event) : (s.push e).saved = s.saved := rfl
@[simp] theorem push_steals (s : State) (e : Event) : (s.push e).steals = s.steals := rfl
@[simp] theorem push_ports (s : State) (e : Event) : (s.push e).ports = s.ports := rfl
@[simp] theorem push_paths (s : State) (e : Event) : (s.push e).paths = s.paths := rfl
@[simp] theorem push_pkg (s : State) (e : Event) : (s.push e).pkg = s.pkg := rfl
@[simp] theorem push_mid (s : State) (e : Event) : (s.push e).mid = s.mid := rfl
@[simp] theorem push_sent (s : State) (e : Event) : (s.push e).sent = s.sent := rfl
@[simp] theorem push_outst (s : State) (e : Event) : (s.push e).outst = s.outst := rfl
@[simp] theorem push_performed (s : State) (e : Event) : (s.push e).performed = s.performed := rfl
@[simp] theorem push_rdl (s : State) (e : Event) : (s.push e).rdl = s.rdl := rfl
@[simp] theorem push_keyPort (s : State) (e : Event) : (s.push e).keyPort = s.keyPort := rfl
@[simp] theorem push_tvbm (s : State) (e : Event) : (s.push e).tvbm = s.tvbm := rfl
@[simp] theorem push_lcmap (s : State) (e : Event) : (s.push e).lcmap = s.lcmap := rfl
@[simp] theorem push_frzcfg (s : State) (e : Event) : (s.push e).frzcfg = s.frzcfg := rfl
@[simp] theorem push_coreMap (s : State) (e : Event) : (s.push e).coreMap = s.coreMap := rfl
@[simp] theorem push_atst (s : State) (e : Event) : (s.push e).atst = s.atst := rfl
@[simp] theorem push_deadline (s : State) (e : Event) : (s.push e).deadline = s.deadline := rfl
@[simp] theorem push_throttled (s : State) (e : Event) : (s.push e).throttled = s.throttled := rfl
@[simp] theorem push_removed (s : State) (e : Event) : (s.push e).removed = s.removed := rfl
@[simp] theorem push_stopped (s : State) (e : Event) : (s.push e).stopped = s.stopped := rfl
@[simp] theorem push_agem (s : State) (e : Event) : (s.push e).agem = s.agem := rfl
@[simp] theorem push_aged (s : State) (e : Event) : (s.push e).aged = s.aged := rfl
@[simp] theorem push_keys (s : State) (e : Event) : (s.push e).keys = s.keys := rfl
@[simp] theorem push_mail (s : State) (e : Event) : (s.push e).mail = s.mail := rfl
@[simp] theorem push_control (s : State) (e : Event) : (s.push e).control = s.control := rfl
@[simp] theorem push_standing (s : State) (e : Event) : (s.push e).standing = s.standing := rfl
@[simp] theorem push_cur (s : State) (e : Event) : (s.push e).cur = s.cur := rfl
@[simp] theorem push_out (s : State) (e : Event) : (s.push e).out = s.out := rfl
@[simp] theorem push_tick (s : State) (e : Event) : (s.push e).tick = s.tick := rfl

@[simp] theorem emit_power (s : State) (o : Output) : (s.emit o).power = s.power := rfl
@[simp] theorem emit_mem (s : State) (o : Output) : (s.emit o).mem = s.mem := rfl
@[simp] theorem emit_memBad (s : State) (o : Output) : (s.emit o).memBad = s.memBad := rfl
@[simp] theorem emit_parts (s : State) (o : Output) : (s.emit o).parts = s.parts := rfl
@[simp] theorem emit_dies (s : State) (o : Output) : (s.emit o).dies = s.dies := rfl
@[simp] theorem emit_cores (s : State) (o : Output) : (s.emit o).cores = s.cores := rfl
@[simp] theorem emit_teams (s : State) (o : Output) : (s.emit o).teams = s.teams := rfl
@[simp] theorem emit_jobs (s : State) (o : Output) : (s.emit o).jobs = s.jobs := rfl
@[simp] theorem emit_nextJob (s : State) (o : Output) : (s.emit o).nextJob = s.nextJob := rfl
@[simp] theorem emit_moves (s : State) (o : Output) : (s.emit o).moves = s.moves := rfl
@[simp] theorem emit_nextMove (s : State) (o : Output) : (s.emit o).nextMove = s.nextMove := rfl
@[simp] theorem emit_taken (s : State) (o : Output) : (s.emit o).taken = s.taken := rfl
@[simp] theorem emit_homes (s : State) (o : Output) : (s.emit o).homes = s.homes := rfl
@[simp] theorem emit_redInsts (s : State) (o : Output) : (s.emit o).redInsts = s.redInsts := rfl
@[simp] theorem emit_fills (s : State) (o : Output) : (s.emit o).fills = s.fills := rfl
@[simp] theorem emit_rings (s : State) (o : Output) : (s.emit o).rings = s.rings := rfl
@[simp] theorem emit_launches (s : State) (o : Output) : (s.emit o).launches = s.launches := rfl
@[simp] theorem emit_nextLaunch (s : State) (o : Output) : (s.emit o).nextLaunch = s.nextLaunch := rfl
@[simp] theorem emit_pivs (s : State) (o : Output) : (s.emit o).pivs = s.pivs := rfl
@[simp] theorem emit_saved (s : State) (o : Output) : (s.emit o).saved = s.saved := rfl
@[simp] theorem emit_steals (s : State) (o : Output) : (s.emit o).steals = s.steals := rfl
@[simp] theorem emit_ports (s : State) (o : Output) : (s.emit o).ports = s.ports := rfl
@[simp] theorem emit_paths (s : State) (o : Output) : (s.emit o).paths = s.paths := rfl
@[simp] theorem emit_pkg (s : State) (o : Output) : (s.emit o).pkg = s.pkg := rfl
@[simp] theorem emit_mid (s : State) (o : Output) : (s.emit o).mid = s.mid := rfl
@[simp] theorem emit_sent (s : State) (o : Output) : (s.emit o).sent = s.sent := rfl
@[simp] theorem emit_outst (s : State) (o : Output) : (s.emit o).outst = s.outst := rfl
@[simp] theorem emit_performed (s : State) (o : Output) : (s.emit o).performed = s.performed := rfl
@[simp] theorem emit_rdl (s : State) (o : Output) : (s.emit o).rdl = s.rdl := rfl
@[simp] theorem emit_keyPort (s : State) (o : Output) : (s.emit o).keyPort = s.keyPort := rfl
@[simp] theorem emit_tvbm (s : State) (o : Output) : (s.emit o).tvbm = s.tvbm := rfl
@[simp] theorem emit_lcmap (s : State) (o : Output) : (s.emit o).lcmap = s.lcmap := rfl
@[simp] theorem emit_frzcfg (s : State) (o : Output) : (s.emit o).frzcfg = s.frzcfg := rfl
@[simp] theorem emit_coreMap (s : State) (o : Output) : (s.emit o).coreMap = s.coreMap := rfl
@[simp] theorem emit_atst (s : State) (o : Output) : (s.emit o).atst = s.atst := rfl
@[simp] theorem emit_deadline (s : State) (o : Output) : (s.emit o).deadline = s.deadline := rfl
@[simp] theorem emit_throttled (s : State) (o : Output) : (s.emit o).throttled = s.throttled := rfl
@[simp] theorem emit_removed (s : State) (o : Output) : (s.emit o).removed = s.removed := rfl
@[simp] theorem emit_stopped (s : State) (o : Output) : (s.emit o).stopped = s.stopped := rfl
@[simp] theorem emit_agem (s : State) (o : Output) : (s.emit o).agem = s.agem := rfl
@[simp] theorem emit_aged (s : State) (o : Output) : (s.emit o).aged = s.aged := rfl
@[simp] theorem emit_keys (s : State) (o : Output) : (s.emit o).keys = s.keys := rfl
@[simp] theorem emit_mail (s : State) (o : Output) : (s.emit o).mail = s.mail := rfl
@[simp] theorem emit_control (s : State) (o : Output) : (s.emit o).control = s.control := rfl
@[simp] theorem emit_standing (s : State) (o : Output) : (s.emit o).standing = s.standing := rfl
@[simp] theorem emit_agenda (s : State) (o : Output) : (s.emit o).agenda = s.agenda := rfl
@[simp] theorem emit_cur (s : State) (o : Output) : (s.emit o).cur = s.cur := rfl
@[simp] theorem emit_tick (s : State) (o : Output) : (s.emit o).tick = s.tick := rfl

@[simp] theorem tock_power (s : State) : s.tock.power = s.power := rfl
@[simp] theorem tock_mem (s : State) : s.tock.mem = s.mem := rfl
@[simp] theorem tock_memBad (s : State) : s.tock.memBad = s.memBad := rfl
@[simp] theorem tock_parts (s : State) : s.tock.parts = s.parts := rfl
@[simp] theorem tock_dies (s : State) : s.tock.dies = s.dies := rfl
@[simp] theorem tock_cores (s : State) : s.tock.cores = s.cores := rfl
@[simp] theorem tock_teams (s : State) : s.tock.teams = s.teams := rfl
@[simp] theorem tock_jobs (s : State) : s.tock.jobs = s.jobs := rfl
@[simp] theorem tock_nextJob (s : State) : s.tock.nextJob = s.nextJob := rfl
@[simp] theorem tock_moves (s : State) : s.tock.moves = s.moves := rfl
@[simp] theorem tock_nextMove (s : State) : s.tock.nextMove = s.nextMove := rfl
@[simp] theorem tock_taken (s : State) : s.tock.taken = s.taken := rfl
@[simp] theorem tock_homes (s : State) : s.tock.homes = s.homes := rfl
@[simp] theorem tock_redInsts (s : State) : s.tock.redInsts = s.redInsts := rfl
@[simp] theorem tock_fills (s : State) : s.tock.fills = s.fills := rfl
@[simp] theorem tock_rings (s : State) : s.tock.rings = s.rings := rfl
@[simp] theorem tock_launches (s : State) : s.tock.launches = s.launches := rfl
@[simp] theorem tock_nextLaunch (s : State) : s.tock.nextLaunch = s.nextLaunch := rfl
@[simp] theorem tock_pivs (s : State) : s.tock.pivs = s.pivs := rfl
@[simp] theorem tock_saved (s : State) : s.tock.saved = s.saved := rfl
@[simp] theorem tock_steals (s : State) : s.tock.steals = s.steals := rfl
@[simp] theorem tock_ports (s : State) : s.tock.ports = s.ports := rfl
@[simp] theorem tock_paths (s : State) : s.tock.paths = s.paths := rfl
@[simp] theorem tock_pkg (s : State) : s.tock.pkg = s.pkg := rfl
@[simp] theorem tock_mid (s : State) : s.tock.mid = s.mid := rfl
@[simp] theorem tock_sent (s : State) : s.tock.sent = s.sent := rfl
@[simp] theorem tock_outst (s : State) : s.tock.outst = s.outst := rfl
@[simp] theorem tock_performed (s : State) : s.tock.performed = s.performed := rfl
@[simp] theorem tock_rdl (s : State) : s.tock.rdl = s.rdl := rfl
@[simp] theorem tock_keyPort (s : State) : s.tock.keyPort = s.keyPort := rfl
@[simp] theorem tock_tvbm (s : State) : s.tock.tvbm = s.tvbm := rfl
@[simp] theorem tock_lcmap (s : State) : s.tock.lcmap = s.lcmap := rfl
@[simp] theorem tock_frzcfg (s : State) : s.tock.frzcfg = s.frzcfg := rfl
@[simp] theorem tock_coreMap (s : State) : s.tock.coreMap = s.coreMap := rfl
@[simp] theorem tock_atst (s : State) : s.tock.atst = s.atst := rfl
@[simp] theorem tock_deadline (s : State) : s.tock.deadline = s.deadline := rfl
@[simp] theorem tock_throttled (s : State) : s.tock.throttled = s.throttled := rfl
@[simp] theorem tock_removed (s : State) : s.tock.removed = s.removed := rfl
@[simp] theorem tock_stopped (s : State) : s.tock.stopped = s.stopped := rfl
@[simp] theorem tock_agem (s : State) : s.tock.agem = s.agem := rfl
@[simp] theorem tock_aged (s : State) : s.tock.aged = s.aged := rfl
@[simp] theorem tock_keys (s : State) : s.tock.keys = s.keys := rfl
@[simp] theorem tock_mail (s : State) : s.tock.mail = s.mail := rfl
@[simp] theorem tock_control (s : State) : s.tock.control = s.control := rfl
@[simp] theorem tock_standing (s : State) : s.tock.standing = s.standing := rfl
@[simp] theorem tock_agenda (s : State) : s.tock.agenda = s.agenda := rfl
@[simp] theorem tock_cur (s : State) : s.tock.cur = s.cur := rfl
@[simp] theorem tock_out (s : State) : s.tock.out = s.out := rfl

@[simp] theorem unpush_power (s : State) (e : Event) : (s.unpush e).power = s.power := rfl
@[simp] theorem unpush_mem (s : State) (e : Event) : (s.unpush e).mem = s.mem := rfl
@[simp] theorem unpush_memBad (s : State) (e : Event) : (s.unpush e).memBad = s.memBad := rfl
@[simp] theorem unpush_parts (s : State) (e : Event) : (s.unpush e).parts = s.parts := rfl
@[simp] theorem unpush_dies (s : State) (e : Event) : (s.unpush e).dies = s.dies := rfl
@[simp] theorem unpush_cores (s : State) (e : Event) : (s.unpush e).cores = s.cores := rfl
@[simp] theorem unpush_teams (s : State) (e : Event) : (s.unpush e).teams = s.teams := rfl
@[simp] theorem unpush_jobs (s : State) (e : Event) : (s.unpush e).jobs = s.jobs := rfl
@[simp] theorem unpush_nextJob (s : State) (e : Event) : (s.unpush e).nextJob = s.nextJob := rfl
@[simp] theorem unpush_moves (s : State) (e : Event) : (s.unpush e).moves = s.moves := rfl
@[simp] theorem unpush_nextMove (s : State) (e : Event) : (s.unpush e).nextMove = s.nextMove := rfl
@[simp] theorem unpush_taken (s : State) (e : Event) : (s.unpush e).taken = s.taken := rfl
@[simp] theorem unpush_homes (s : State) (e : Event) : (s.unpush e).homes = s.homes := rfl
@[simp] theorem unpush_redInsts (s : State) (e : Event) : (s.unpush e).redInsts = s.redInsts := rfl
@[simp] theorem unpush_fills (s : State) (e : Event) : (s.unpush e).fills = s.fills := rfl
@[simp] theorem unpush_rings (s : State) (e : Event) : (s.unpush e).rings = s.rings := rfl
@[simp] theorem unpush_launches (s : State) (e : Event) : (s.unpush e).launches = s.launches := rfl
@[simp] theorem unpush_nextLaunch (s : State) (e : Event) : (s.unpush e).nextLaunch = s.nextLaunch := rfl
@[simp] theorem unpush_pivs (s : State) (e : Event) : (s.unpush e).pivs = s.pivs := rfl
@[simp] theorem unpush_saved (s : State) (e : Event) : (s.unpush e).saved = s.saved := rfl
@[simp] theorem unpush_steals (s : State) (e : Event) : (s.unpush e).steals = s.steals := rfl
@[simp] theorem unpush_ports (s : State) (e : Event) : (s.unpush e).ports = s.ports := rfl
@[simp] theorem unpush_paths (s : State) (e : Event) : (s.unpush e).paths = s.paths := rfl
@[simp] theorem unpush_pkg (s : State) (e : Event) : (s.unpush e).pkg = s.pkg := rfl
@[simp] theorem unpush_mid (s : State) (e : Event) : (s.unpush e).mid = s.mid := rfl
@[simp] theorem unpush_sent (s : State) (e : Event) : (s.unpush e).sent = s.sent := rfl
@[simp] theorem unpush_outst (s : State) (e : Event) : (s.unpush e).outst = s.outst := rfl
@[simp] theorem unpush_performed (s : State) (e : Event) : (s.unpush e).performed = s.performed := rfl
@[simp] theorem unpush_rdl (s : State) (e : Event) : (s.unpush e).rdl = s.rdl := rfl
@[simp] theorem unpush_keyPort (s : State) (e : Event) : (s.unpush e).keyPort = s.keyPort := rfl
@[simp] theorem unpush_tvbm (s : State) (e : Event) : (s.unpush e).tvbm = s.tvbm := rfl
@[simp] theorem unpush_lcmap (s : State) (e : Event) : (s.unpush e).lcmap = s.lcmap := rfl
@[simp] theorem unpush_frzcfg (s : State) (e : Event) : (s.unpush e).frzcfg = s.frzcfg := rfl
@[simp] theorem unpush_coreMap (s : State) (e : Event) : (s.unpush e).coreMap = s.coreMap := rfl
@[simp] theorem unpush_atst (s : State) (e : Event) : (s.unpush e).atst = s.atst := rfl
@[simp] theorem unpush_deadline (s : State) (e : Event) : (s.unpush e).deadline = s.deadline := rfl
@[simp] theorem unpush_throttled (s : State) (e : Event) : (s.unpush e).throttled = s.throttled := rfl
@[simp] theorem unpush_removed (s : State) (e : Event) : (s.unpush e).removed = s.removed := rfl
@[simp] theorem unpush_stopped (s : State) (e : Event) : (s.unpush e).stopped = s.stopped := rfl
@[simp] theorem unpush_agem (s : State) (e : Event) : (s.unpush e).agem = s.agem := rfl
@[simp] theorem unpush_aged (s : State) (e : Event) : (s.unpush e).aged = s.aged := rfl
@[simp] theorem unpush_keys (s : State) (e : Event) : (s.unpush e).keys = s.keys := rfl
@[simp] theorem unpush_mail (s : State) (e : Event) : (s.unpush e).mail = s.mail := rfl
@[simp] theorem unpush_control (s : State) (e : Event) : (s.unpush e).control = s.control := rfl
@[simp] theorem unpush_standing (s : State) (e : Event) : (s.unpush e).standing = s.standing := rfl
@[simp] theorem unpush_cur (s : State) (e : Event) : (s.unpush e).cur = s.cur := rfl
@[simp] theorem unpush_out (s : State) (e : Event) : (s.unpush e).out = s.out := rfl
@[simp] theorem unpush_tick (s : State) (e : Event) : (s.unpush e).tick = s.tick := rfl

@[simp] theorem updFibre_power (s : State) (a : AgentId) (w l : Nat) (f : Fibre → Fibre) : (s.updFibre a w l f).power = s.power := rfl
@[simp] theorem updFibre_mem (s : State) (a : AgentId) (w l : Nat) (f : Fibre → Fibre) : (s.updFibre a w l f).mem = s.mem := rfl
@[simp] theorem updFibre_memBad (s : State) (a : AgentId) (w l : Nat) (f : Fibre → Fibre) : (s.updFibre a w l f).memBad = s.memBad := rfl
@[simp] theorem updFibre_parts (s : State) (a : AgentId) (w l : Nat) (f : Fibre → Fibre) : (s.updFibre a w l f).parts = s.parts := rfl
@[simp] theorem updFibre_dies (s : State) (a : AgentId) (w l : Nat) (f : Fibre → Fibre) : (s.updFibre a w l f).dies = s.dies := rfl
@[simp] theorem updFibre_cores (s : State) (a : AgentId) (w l : Nat) (f : Fibre → Fibre) : (s.updFibre a w l f).cores = s.cores := rfl
@[simp] theorem updFibre_jobs (s : State) (a : AgentId) (w l : Nat) (f : Fibre → Fibre) : (s.updFibre a w l f).jobs = s.jobs := rfl
@[simp] theorem updFibre_nextJob (s : State) (a : AgentId) (w l : Nat) (f : Fibre → Fibre) : (s.updFibre a w l f).nextJob = s.nextJob := rfl
@[simp] theorem updFibre_moves (s : State) (a : AgentId) (w l : Nat) (f : Fibre → Fibre) : (s.updFibre a w l f).moves = s.moves := rfl
@[simp] theorem updFibre_nextMove (s : State) (a : AgentId) (w l : Nat) (f : Fibre → Fibre) : (s.updFibre a w l f).nextMove = s.nextMove := rfl
@[simp] theorem updFibre_taken (s : State) (a : AgentId) (w l : Nat) (f : Fibre → Fibre) : (s.updFibre a w l f).taken = s.taken := rfl
@[simp] theorem updFibre_homes (s : State) (a : AgentId) (w l : Nat) (f : Fibre → Fibre) : (s.updFibre a w l f).homes = s.homes := rfl
@[simp] theorem updFibre_redInsts (s : State) (a : AgentId) (w l : Nat) (f : Fibre → Fibre) : (s.updFibre a w l f).redInsts = s.redInsts := rfl
@[simp] theorem updFibre_fills (s : State) (a : AgentId) (w l : Nat) (f : Fibre → Fibre) : (s.updFibre a w l f).fills = s.fills := rfl
@[simp] theorem updFibre_rings (s : State) (a : AgentId) (w l : Nat) (f : Fibre → Fibre) : (s.updFibre a w l f).rings = s.rings := rfl
@[simp] theorem updFibre_launches (s : State) (a : AgentId) (w l : Nat) (f : Fibre → Fibre) : (s.updFibre a w l f).launches = s.launches := rfl
@[simp] theorem updFibre_nextLaunch (s : State) (a : AgentId) (w l : Nat) (f : Fibre → Fibre) : (s.updFibre a w l f).nextLaunch = s.nextLaunch := rfl
@[simp] theorem updFibre_pivs (s : State) (a : AgentId) (w l : Nat) (f : Fibre → Fibre) : (s.updFibre a w l f).pivs = s.pivs := rfl
@[simp] theorem updFibre_saved (s : State) (a : AgentId) (w l : Nat) (f : Fibre → Fibre) : (s.updFibre a w l f).saved = s.saved := rfl
@[simp] theorem updFibre_steals (s : State) (a : AgentId) (w l : Nat) (f : Fibre → Fibre) : (s.updFibre a w l f).steals = s.steals := rfl
@[simp] theorem updFibre_ports (s : State) (a : AgentId) (w l : Nat) (f : Fibre → Fibre) : (s.updFibre a w l f).ports = s.ports := rfl
@[simp] theorem updFibre_paths (s : State) (a : AgentId) (w l : Nat) (f : Fibre → Fibre) : (s.updFibre a w l f).paths = s.paths := rfl
@[simp] theorem updFibre_pkg (s : State) (a : AgentId) (w l : Nat) (f : Fibre → Fibre) : (s.updFibre a w l f).pkg = s.pkg := rfl
@[simp] theorem updFibre_mid (s : State) (a : AgentId) (w l : Nat) (f : Fibre → Fibre) : (s.updFibre a w l f).mid = s.mid := rfl
@[simp] theorem updFibre_sent (s : State) (a : AgentId) (w l : Nat) (f : Fibre → Fibre) : (s.updFibre a w l f).sent = s.sent := rfl
@[simp] theorem updFibre_outst (s : State) (a : AgentId) (w l : Nat) (f : Fibre → Fibre) : (s.updFibre a w l f).outst = s.outst := rfl
@[simp] theorem updFibre_performed (s : State) (a : AgentId) (w l : Nat) (f : Fibre → Fibre) : (s.updFibre a w l f).performed = s.performed := rfl
@[simp] theorem updFibre_rdl (s : State) (a : AgentId) (w l : Nat) (f : Fibre → Fibre) : (s.updFibre a w l f).rdl = s.rdl := rfl
@[simp] theorem updFibre_keyPort (s : State) (a : AgentId) (w l : Nat) (f : Fibre → Fibre) : (s.updFibre a w l f).keyPort = s.keyPort := rfl
@[simp] theorem updFibre_tvbm (s : State) (a : AgentId) (w l : Nat) (f : Fibre → Fibre) : (s.updFibre a w l f).tvbm = s.tvbm := rfl
@[simp] theorem updFibre_lcmap (s : State) (a : AgentId) (w l : Nat) (f : Fibre → Fibre) : (s.updFibre a w l f).lcmap = s.lcmap := rfl
@[simp] theorem updFibre_frzcfg (s : State) (a : AgentId) (w l : Nat) (f : Fibre → Fibre) : (s.updFibre a w l f).frzcfg = s.frzcfg := rfl
@[simp] theorem updFibre_coreMap (s : State) (a : AgentId) (w l : Nat) (f : Fibre → Fibre) : (s.updFibre a w l f).coreMap = s.coreMap := rfl
@[simp] theorem updFibre_atst (s : State) (a : AgentId) (w l : Nat) (f : Fibre → Fibre) : (s.updFibre a w l f).atst = s.atst := rfl
@[simp] theorem updFibre_deadline (s : State) (a : AgentId) (w l : Nat) (f : Fibre → Fibre) : (s.updFibre a w l f).deadline = s.deadline := rfl
@[simp] theorem updFibre_throttled (s : State) (a : AgentId) (w l : Nat) (f : Fibre → Fibre) : (s.updFibre a w l f).throttled = s.throttled := rfl
@[simp] theorem updFibre_removed (s : State) (a : AgentId) (w l : Nat) (f : Fibre → Fibre) : (s.updFibre a w l f).removed = s.removed := rfl
@[simp] theorem updFibre_stopped (s : State) (a : AgentId) (w l : Nat) (f : Fibre → Fibre) : (s.updFibre a w l f).stopped = s.stopped := rfl
@[simp] theorem updFibre_agem (s : State) (a : AgentId) (w l : Nat) (f : Fibre → Fibre) : (s.updFibre a w l f).agem = s.agem := rfl
@[simp] theorem updFibre_aged (s : State) (a : AgentId) (w l : Nat) (f : Fibre → Fibre) : (s.updFibre a w l f).aged = s.aged := rfl
@[simp] theorem updFibre_keys (s : State) (a : AgentId) (w l : Nat) (f : Fibre → Fibre) : (s.updFibre a w l f).keys = s.keys := rfl
@[simp] theorem updFibre_mail (s : State) (a : AgentId) (w l : Nat) (f : Fibre → Fibre) : (s.updFibre a w l f).mail = s.mail := rfl
@[simp] theorem updFibre_control (s : State) (a : AgentId) (w l : Nat) (f : Fibre → Fibre) : (s.updFibre a w l f).control = s.control := rfl
@[simp] theorem updFibre_standing (s : State) (a : AgentId) (w l : Nat) (f : Fibre → Fibre) : (s.updFibre a w l f).standing = s.standing := rfl
@[simp] theorem updFibre_agenda (s : State) (a : AgentId) (w l : Nat) (f : Fibre → Fibre) : (s.updFibre a w l f).agenda = s.agenda := rfl
@[simp] theorem updFibre_cur (s : State) (a : AgentId) (w l : Nat) (f : Fibre → Fibre) : (s.updFibre a w l f).cur = s.cur := rfl
@[simp] theorem updFibre_out (s : State) (a : AgentId) (w l : Nat) (f : Fibre → Fibre) : (s.updFibre a w l f).out = s.out := rfl
@[simp] theorem updFibre_tick (s : State) (a : AgentId) (w l : Nat) (f : Fibre → Fibre) : (s.updFibre a w l f).tick = s.tick := rfl

@[simp] theorem updWave_power (s : State) (a : AgentId) (w : Nat) (f : Wave → Wave) : (s.updWave a w f).power = s.power := rfl
@[simp] theorem updWave_mem (s : State) (a : AgentId) (w : Nat) (f : Wave → Wave) : (s.updWave a w f).mem = s.mem := rfl
@[simp] theorem updWave_memBad (s : State) (a : AgentId) (w : Nat) (f : Wave → Wave) : (s.updWave a w f).memBad = s.memBad := rfl
@[simp] theorem updWave_parts (s : State) (a : AgentId) (w : Nat) (f : Wave → Wave) : (s.updWave a w f).parts = s.parts := rfl
@[simp] theorem updWave_dies (s : State) (a : AgentId) (w : Nat) (f : Wave → Wave) : (s.updWave a w f).dies = s.dies := rfl
@[simp] theorem updWave_cores (s : State) (a : AgentId) (w : Nat) (f : Wave → Wave) : (s.updWave a w f).cores = s.cores := rfl
@[simp] theorem updWave_jobs (s : State) (a : AgentId) (w : Nat) (f : Wave → Wave) : (s.updWave a w f).jobs = s.jobs := rfl
@[simp] theorem updWave_nextJob (s : State) (a : AgentId) (w : Nat) (f : Wave → Wave) : (s.updWave a w f).nextJob = s.nextJob := rfl
@[simp] theorem updWave_moves (s : State) (a : AgentId) (w : Nat) (f : Wave → Wave) : (s.updWave a w f).moves = s.moves := rfl
@[simp] theorem updWave_nextMove (s : State) (a : AgentId) (w : Nat) (f : Wave → Wave) : (s.updWave a w f).nextMove = s.nextMove := rfl
@[simp] theorem updWave_taken (s : State) (a : AgentId) (w : Nat) (f : Wave → Wave) : (s.updWave a w f).taken = s.taken := rfl
@[simp] theorem updWave_homes (s : State) (a : AgentId) (w : Nat) (f : Wave → Wave) : (s.updWave a w f).homes = s.homes := rfl
@[simp] theorem updWave_redInsts (s : State) (a : AgentId) (w : Nat) (f : Wave → Wave) : (s.updWave a w f).redInsts = s.redInsts := rfl
@[simp] theorem updWave_fills (s : State) (a : AgentId) (w : Nat) (f : Wave → Wave) : (s.updWave a w f).fills = s.fills := rfl
@[simp] theorem updWave_rings (s : State) (a : AgentId) (w : Nat) (f : Wave → Wave) : (s.updWave a w f).rings = s.rings := rfl
@[simp] theorem updWave_launches (s : State) (a : AgentId) (w : Nat) (f : Wave → Wave) : (s.updWave a w f).launches = s.launches := rfl
@[simp] theorem updWave_nextLaunch (s : State) (a : AgentId) (w : Nat) (f : Wave → Wave) : (s.updWave a w f).nextLaunch = s.nextLaunch := rfl
@[simp] theorem updWave_pivs (s : State) (a : AgentId) (w : Nat) (f : Wave → Wave) : (s.updWave a w f).pivs = s.pivs := rfl
@[simp] theorem updWave_saved (s : State) (a : AgentId) (w : Nat) (f : Wave → Wave) : (s.updWave a w f).saved = s.saved := rfl
@[simp] theorem updWave_steals (s : State) (a : AgentId) (w : Nat) (f : Wave → Wave) : (s.updWave a w f).steals = s.steals := rfl
@[simp] theorem updWave_ports (s : State) (a : AgentId) (w : Nat) (f : Wave → Wave) : (s.updWave a w f).ports = s.ports := rfl
@[simp] theorem updWave_paths (s : State) (a : AgentId) (w : Nat) (f : Wave → Wave) : (s.updWave a w f).paths = s.paths := rfl
@[simp] theorem updWave_pkg (s : State) (a : AgentId) (w : Nat) (f : Wave → Wave) : (s.updWave a w f).pkg = s.pkg := rfl
@[simp] theorem updWave_mid (s : State) (a : AgentId) (w : Nat) (f : Wave → Wave) : (s.updWave a w f).mid = s.mid := rfl
@[simp] theorem updWave_sent (s : State) (a : AgentId) (w : Nat) (f : Wave → Wave) : (s.updWave a w f).sent = s.sent := rfl
@[simp] theorem updWave_outst (s : State) (a : AgentId) (w : Nat) (f : Wave → Wave) : (s.updWave a w f).outst = s.outst := rfl
@[simp] theorem updWave_performed (s : State) (a : AgentId) (w : Nat) (f : Wave → Wave) : (s.updWave a w f).performed = s.performed := rfl
@[simp] theorem updWave_rdl (s : State) (a : AgentId) (w : Nat) (f : Wave → Wave) : (s.updWave a w f).rdl = s.rdl := rfl
@[simp] theorem updWave_keyPort (s : State) (a : AgentId) (w : Nat) (f : Wave → Wave) : (s.updWave a w f).keyPort = s.keyPort := rfl
@[simp] theorem updWave_tvbm (s : State) (a : AgentId) (w : Nat) (f : Wave → Wave) : (s.updWave a w f).tvbm = s.tvbm := rfl
@[simp] theorem updWave_lcmap (s : State) (a : AgentId) (w : Nat) (f : Wave → Wave) : (s.updWave a w f).lcmap = s.lcmap := rfl
@[simp] theorem updWave_frzcfg (s : State) (a : AgentId) (w : Nat) (f : Wave → Wave) : (s.updWave a w f).frzcfg = s.frzcfg := rfl
@[simp] theorem updWave_coreMap (s : State) (a : AgentId) (w : Nat) (f : Wave → Wave) : (s.updWave a w f).coreMap = s.coreMap := rfl
@[simp] theorem updWave_atst (s : State) (a : AgentId) (w : Nat) (f : Wave → Wave) : (s.updWave a w f).atst = s.atst := rfl
@[simp] theorem updWave_deadline (s : State) (a : AgentId) (w : Nat) (f : Wave → Wave) : (s.updWave a w f).deadline = s.deadline := rfl
@[simp] theorem updWave_throttled (s : State) (a : AgentId) (w : Nat) (f : Wave → Wave) : (s.updWave a w f).throttled = s.throttled := rfl
@[simp] theorem updWave_removed (s : State) (a : AgentId) (w : Nat) (f : Wave → Wave) : (s.updWave a w f).removed = s.removed := rfl
@[simp] theorem updWave_stopped (s : State) (a : AgentId) (w : Nat) (f : Wave → Wave) : (s.updWave a w f).stopped = s.stopped := rfl
@[simp] theorem updWave_agem (s : State) (a : AgentId) (w : Nat) (f : Wave → Wave) : (s.updWave a w f).agem = s.agem := rfl
@[simp] theorem updWave_aged (s : State) (a : AgentId) (w : Nat) (f : Wave → Wave) : (s.updWave a w f).aged = s.aged := rfl
@[simp] theorem updWave_keys (s : State) (a : AgentId) (w : Nat) (f : Wave → Wave) : (s.updWave a w f).keys = s.keys := rfl
@[simp] theorem updWave_mail (s : State) (a : AgentId) (w : Nat) (f : Wave → Wave) : (s.updWave a w f).mail = s.mail := rfl
@[simp] theorem updWave_control (s : State) (a : AgentId) (w : Nat) (f : Wave → Wave) : (s.updWave a w f).control = s.control := rfl
@[simp] theorem updWave_standing (s : State) (a : AgentId) (w : Nat) (f : Wave → Wave) : (s.updWave a w f).standing = s.standing := rfl
@[simp] theorem updWave_agenda (s : State) (a : AgentId) (w : Nat) (f : Wave → Wave) : (s.updWave a w f).agenda = s.agenda := rfl
@[simp] theorem updWave_cur (s : State) (a : AgentId) (w : Nat) (f : Wave → Wave) : (s.updWave a w f).cur = s.cur := rfl
@[simp] theorem updWave_out (s : State) (a : AgentId) (w : Nat) (f : Wave → Wave) : (s.updWave a w f).out = s.out := rfl
@[simp] theorem updWave_tick (s : State) (a : AgentId) (w : Nat) (f : Wave → Wave) : (s.updWave a w f).tick = s.tick := rfl

@[simp] theorem setCore_power (s : State) (k : Core) : (s.setCore k).power = s.power := by unfold State.setCore; split <;> rfl
@[simp] theorem setCore_mem (s : State) (k : Core) : (s.setCore k).mem = s.mem := by unfold State.setCore; split <;> rfl
@[simp] theorem setCore_memBad (s : State) (k : Core) : (s.setCore k).memBad = s.memBad := by unfold State.setCore; split <;> rfl
@[simp] theorem setCore_parts (s : State) (k : Core) : (s.setCore k).parts = s.parts := by unfold State.setCore; split <;> rfl
@[simp] theorem setCore_dies (s : State) (k : Core) : (s.setCore k).dies = s.dies := by unfold State.setCore; split <;> rfl
@[simp] theorem setCore_teams (s : State) (k : Core) : (s.setCore k).teams = s.teams := by unfold State.setCore; split <;> rfl
@[simp] theorem setCore_jobs (s : State) (k : Core) : (s.setCore k).jobs = s.jobs := by unfold State.setCore; split <;> rfl
@[simp] theorem setCore_nextJob (s : State) (k : Core) : (s.setCore k).nextJob = s.nextJob := by unfold State.setCore; split <;> rfl
@[simp] theorem setCore_moves (s : State) (k : Core) : (s.setCore k).moves = s.moves := by unfold State.setCore; split <;> rfl
@[simp] theorem setCore_nextMove (s : State) (k : Core) : (s.setCore k).nextMove = s.nextMove := by unfold State.setCore; split <;> rfl
@[simp] theorem setCore_taken (s : State) (k : Core) : (s.setCore k).taken = s.taken := by unfold State.setCore; split <;> rfl
@[simp] theorem setCore_homes (s : State) (k : Core) : (s.setCore k).homes = s.homes := by unfold State.setCore; split <;> rfl
@[simp] theorem setCore_redInsts (s : State) (k : Core) : (s.setCore k).redInsts = s.redInsts := by unfold State.setCore; split <;> rfl
@[simp] theorem setCore_fills (s : State) (k : Core) : (s.setCore k).fills = s.fills := by unfold State.setCore; split <;> rfl
@[simp] theorem setCore_rings (s : State) (k : Core) : (s.setCore k).rings = s.rings := by unfold State.setCore; split <;> rfl
@[simp] theorem setCore_launches (s : State) (k : Core) : (s.setCore k).launches = s.launches := by unfold State.setCore; split <;> rfl
@[simp] theorem setCore_nextLaunch (s : State) (k : Core) : (s.setCore k).nextLaunch = s.nextLaunch := by unfold State.setCore; split <;> rfl
@[simp] theorem setCore_pivs (s : State) (k : Core) : (s.setCore k).pivs = s.pivs := by unfold State.setCore; split <;> rfl
@[simp] theorem setCore_saved (s : State) (k : Core) : (s.setCore k).saved = s.saved := by unfold State.setCore; split <;> rfl
@[simp] theorem setCore_steals (s : State) (k : Core) : (s.setCore k).steals = s.steals := by unfold State.setCore; split <;> rfl
@[simp] theorem setCore_ports (s : State) (k : Core) : (s.setCore k).ports = s.ports := by unfold State.setCore; split <;> rfl
@[simp] theorem setCore_paths (s : State) (k : Core) : (s.setCore k).paths = s.paths := by unfold State.setCore; split <;> rfl
@[simp] theorem setCore_pkg (s : State) (k : Core) : (s.setCore k).pkg = s.pkg := by unfold State.setCore; split <;> rfl
@[simp] theorem setCore_mid (s : State) (k : Core) : (s.setCore k).mid = s.mid := by unfold State.setCore; split <;> rfl
@[simp] theorem setCore_sent (s : State) (k : Core) : (s.setCore k).sent = s.sent := by unfold State.setCore; split <;> rfl
@[simp] theorem setCore_outst (s : State) (k : Core) : (s.setCore k).outst = s.outst := by unfold State.setCore; split <;> rfl
@[simp] theorem setCore_performed (s : State) (k : Core) : (s.setCore k).performed = s.performed := by unfold State.setCore; split <;> rfl
@[simp] theorem setCore_rdl (s : State) (k : Core) : (s.setCore k).rdl = s.rdl := by unfold State.setCore; split <;> rfl
@[simp] theorem setCore_keyPort (s : State) (k : Core) : (s.setCore k).keyPort = s.keyPort := by unfold State.setCore; split <;> rfl
@[simp] theorem setCore_tvbm (s : State) (k : Core) : (s.setCore k).tvbm = s.tvbm := by unfold State.setCore; split <;> rfl
@[simp] theorem setCore_lcmap (s : State) (k : Core) : (s.setCore k).lcmap = s.lcmap := by unfold State.setCore; split <;> rfl
@[simp] theorem setCore_frzcfg (s : State) (k : Core) : (s.setCore k).frzcfg = s.frzcfg := by unfold State.setCore; split <;> rfl
@[simp] theorem setCore_coreMap (s : State) (k : Core) : (s.setCore k).coreMap = s.coreMap := by unfold State.setCore; split <;> rfl
@[simp] theorem setCore_atst (s : State) (k : Core) : (s.setCore k).atst = s.atst := by unfold State.setCore; split <;> rfl
@[simp] theorem setCore_deadline (s : State) (k : Core) : (s.setCore k).deadline = s.deadline := by unfold State.setCore; split <;> rfl
@[simp] theorem setCore_throttled (s : State) (k : Core) : (s.setCore k).throttled = s.throttled := by unfold State.setCore; split <;> rfl
@[simp] theorem setCore_removed (s : State) (k : Core) : (s.setCore k).removed = s.removed := by unfold State.setCore; split <;> rfl
@[simp] theorem setCore_stopped (s : State) (k : Core) : (s.setCore k).stopped = s.stopped := by unfold State.setCore; split <;> rfl
@[simp] theorem setCore_agem (s : State) (k : Core) : (s.setCore k).agem = s.agem := by unfold State.setCore; split <;> rfl
@[simp] theorem setCore_aged (s : State) (k : Core) : (s.setCore k).aged = s.aged := by unfold State.setCore; split <;> rfl
@[simp] theorem setCore_keys (s : State) (k : Core) : (s.setCore k).keys = s.keys := by unfold State.setCore; split <;> rfl
@[simp] theorem setCore_mail (s : State) (k : Core) : (s.setCore k).mail = s.mail := by unfold State.setCore; split <;> rfl
@[simp] theorem setCore_control (s : State) (k : Core) : (s.setCore k).control = s.control := by unfold State.setCore; split <;> rfl
@[simp] theorem setCore_standing (s : State) (k : Core) : (s.setCore k).standing = s.standing := by unfold State.setCore; split <;> rfl
@[simp] theorem setCore_agenda (s : State) (k : Core) : (s.setCore k).agenda = s.agenda := by unfold State.setCore; split <;> rfl
@[simp] theorem setCore_cur (s : State) (k : Core) : (s.setCore k).cur = s.cur := by unfold State.setCore; split <;> rfl
@[simp] theorem setCore_out (s : State) (k : Core) : (s.setCore k).out = s.out := by unfold State.setCore; split <;> rfl
@[simp] theorem setCore_tick (s : State) (k : Core) : (s.setCore k).tick = s.tick := by unfold State.setCore; split <;> rfl

@[simp] theorem updCore_power (s : State) (c : BitVec 11) (f : Core → Core) : (s.updCore c f).power = s.power := setCore_power _ _
@[simp] theorem updCore_mem (s : State) (c : BitVec 11) (f : Core → Core) : (s.updCore c f).mem = s.mem := setCore_mem _ _
@[simp] theorem updCore_memBad (s : State) (c : BitVec 11) (f : Core → Core) : (s.updCore c f).memBad = s.memBad := setCore_memBad _ _
@[simp] theorem updCore_parts (s : State) (c : BitVec 11) (f : Core → Core) : (s.updCore c f).parts = s.parts := setCore_parts _ _
@[simp] theorem updCore_dies (s : State) (c : BitVec 11) (f : Core → Core) : (s.updCore c f).dies = s.dies := setCore_dies _ _
@[simp] theorem updCore_teams (s : State) (c : BitVec 11) (f : Core → Core) : (s.updCore c f).teams = s.teams := setCore_teams _ _
@[simp] theorem updCore_jobs (s : State) (c : BitVec 11) (f : Core → Core) : (s.updCore c f).jobs = s.jobs := setCore_jobs _ _
@[simp] theorem updCore_nextJob (s : State) (c : BitVec 11) (f : Core → Core) : (s.updCore c f).nextJob = s.nextJob := setCore_nextJob _ _
@[simp] theorem updCore_moves (s : State) (c : BitVec 11) (f : Core → Core) : (s.updCore c f).moves = s.moves := setCore_moves _ _
@[simp] theorem updCore_nextMove (s : State) (c : BitVec 11) (f : Core → Core) : (s.updCore c f).nextMove = s.nextMove := setCore_nextMove _ _
@[simp] theorem updCore_taken (s : State) (c : BitVec 11) (f : Core → Core) : (s.updCore c f).taken = s.taken := setCore_taken _ _
@[simp] theorem updCore_homes (s : State) (c : BitVec 11) (f : Core → Core) : (s.updCore c f).homes = s.homes := setCore_homes _ _
@[simp] theorem updCore_redInsts (s : State) (c : BitVec 11) (f : Core → Core) : (s.updCore c f).redInsts = s.redInsts := setCore_redInsts _ _
@[simp] theorem updCore_fills (s : State) (c : BitVec 11) (f : Core → Core) : (s.updCore c f).fills = s.fills := setCore_fills _ _
@[simp] theorem updCore_rings (s : State) (c : BitVec 11) (f : Core → Core) : (s.updCore c f).rings = s.rings := setCore_rings _ _
@[simp] theorem updCore_launches (s : State) (c : BitVec 11) (f : Core → Core) : (s.updCore c f).launches = s.launches := setCore_launches _ _
@[simp] theorem updCore_nextLaunch (s : State) (c : BitVec 11) (f : Core → Core) : (s.updCore c f).nextLaunch = s.nextLaunch := setCore_nextLaunch _ _
@[simp] theorem updCore_pivs (s : State) (c : BitVec 11) (f : Core → Core) : (s.updCore c f).pivs = s.pivs := setCore_pivs _ _
@[simp] theorem updCore_saved (s : State) (c : BitVec 11) (f : Core → Core) : (s.updCore c f).saved = s.saved := setCore_saved _ _
@[simp] theorem updCore_steals (s : State) (c : BitVec 11) (f : Core → Core) : (s.updCore c f).steals = s.steals := setCore_steals _ _
@[simp] theorem updCore_ports (s : State) (c : BitVec 11) (f : Core → Core) : (s.updCore c f).ports = s.ports := setCore_ports _ _
@[simp] theorem updCore_paths (s : State) (c : BitVec 11) (f : Core → Core) : (s.updCore c f).paths = s.paths := setCore_paths _ _
@[simp] theorem updCore_pkg (s : State) (c : BitVec 11) (f : Core → Core) : (s.updCore c f).pkg = s.pkg := setCore_pkg _ _
@[simp] theorem updCore_mid (s : State) (c : BitVec 11) (f : Core → Core) : (s.updCore c f).mid = s.mid := setCore_mid _ _
@[simp] theorem updCore_sent (s : State) (c : BitVec 11) (f : Core → Core) : (s.updCore c f).sent = s.sent := setCore_sent _ _
@[simp] theorem updCore_outst (s : State) (c : BitVec 11) (f : Core → Core) : (s.updCore c f).outst = s.outst := setCore_outst _ _
@[simp] theorem updCore_performed (s : State) (c : BitVec 11) (f : Core → Core) : (s.updCore c f).performed = s.performed := setCore_performed _ _
@[simp] theorem updCore_rdl (s : State) (c : BitVec 11) (f : Core → Core) : (s.updCore c f).rdl = s.rdl := setCore_rdl _ _
@[simp] theorem updCore_keyPort (s : State) (c : BitVec 11) (f : Core → Core) : (s.updCore c f).keyPort = s.keyPort := setCore_keyPort _ _
@[simp] theorem updCore_tvbm (s : State) (c : BitVec 11) (f : Core → Core) : (s.updCore c f).tvbm = s.tvbm := setCore_tvbm _ _
@[simp] theorem updCore_lcmap (s : State) (c : BitVec 11) (f : Core → Core) : (s.updCore c f).lcmap = s.lcmap := setCore_lcmap _ _
@[simp] theorem updCore_frzcfg (s : State) (c : BitVec 11) (f : Core → Core) : (s.updCore c f).frzcfg = s.frzcfg := setCore_frzcfg _ _
@[simp] theorem updCore_coreMap (s : State) (c : BitVec 11) (f : Core → Core) : (s.updCore c f).coreMap = s.coreMap := setCore_coreMap _ _
@[simp] theorem updCore_atst (s : State) (c : BitVec 11) (f : Core → Core) : (s.updCore c f).atst = s.atst := setCore_atst _ _
@[simp] theorem updCore_deadline (s : State) (c : BitVec 11) (f : Core → Core) : (s.updCore c f).deadline = s.deadline := setCore_deadline _ _
@[simp] theorem updCore_throttled (s : State) (c : BitVec 11) (f : Core → Core) : (s.updCore c f).throttled = s.throttled := setCore_throttled _ _
@[simp] theorem updCore_removed (s : State) (c : BitVec 11) (f : Core → Core) : (s.updCore c f).removed = s.removed := setCore_removed _ _
@[simp] theorem updCore_stopped (s : State) (c : BitVec 11) (f : Core → Core) : (s.updCore c f).stopped = s.stopped := setCore_stopped _ _
@[simp] theorem updCore_agem (s : State) (c : BitVec 11) (f : Core → Core) : (s.updCore c f).agem = s.agem := setCore_agem _ _
@[simp] theorem updCore_aged (s : State) (c : BitVec 11) (f : Core → Core) : (s.updCore c f).aged = s.aged := setCore_aged _ _
@[simp] theorem updCore_keys (s : State) (c : BitVec 11) (f : Core → Core) : (s.updCore c f).keys = s.keys := setCore_keys _ _
@[simp] theorem updCore_mail (s : State) (c : BitVec 11) (f : Core → Core) : (s.updCore c f).mail = s.mail := setCore_mail _ _
@[simp] theorem updCore_control (s : State) (c : BitVec 11) (f : Core → Core) : (s.updCore c f).control = s.control := setCore_control _ _
@[simp] theorem updCore_standing (s : State) (c : BitVec 11) (f : Core → Core) : (s.updCore c f).standing = s.standing := setCore_standing _ _
@[simp] theorem updCore_agenda (s : State) (c : BitVec 11) (f : Core → Core) : (s.updCore c f).agenda = s.agenda := setCore_agenda _ _
@[simp] theorem updCore_cur (s : State) (c : BitVec 11) (f : Core → Core) : (s.updCore c f).cur = s.cur := setCore_cur _ _
@[simp] theorem updCore_out (s : State) (c : BitVec 11) (f : Core → Core) : (s.updCore c f).out = s.out := setCore_out _ _
@[simp] theorem updCore_tick (s : State) (c : BitVec 11) (f : Core → Core) : (s.updCore c f).tick = s.tick := setCore_tick _ _

/-! ### A team -/

@[simp] theorem team_updFibre_agent (t : Team) (k : Nat) (f : Fibre → Fibre) : (t.updFibre k f).agent = t.agent := rfl
@[simp] theorem team_updFibre_part (t : Team) (k : Nat) (f : Fibre → Fibre) : (t.updFibre k f).part = t.part := rfl
@[simp] theorem team_updFibre_work (t : Team) (k : Nat) (f : Fibre → Fibre) : (t.updFibre k f).work = t.work := rfl
@[simp] theorem team_updFibre_gWin (t : Team) (k : Nat) (f : Fibre → Fibre) : (t.updFibre k f).gWin = t.gWin := rfl
@[simp] theorem team_updFibre_fWin (t : Team) (k : Nat) (f : Fibre → Fibre) : (t.updFibre k f).fWin = t.fWin := rfl
@[simp] theorem team_updFibre_scr (t : Team) (k : Nat) (f : Fibre → Fibre) : (t.updFibre k f).scr = t.scr := rfl
@[simp] theorem team_updFibre_scrPage (t : Team) (k : Nat) (f : Fibre → Fibre) : (t.updFibre k f).scrPage = t.scrPage := rfl
@[simp] theorem team_updFibre_tiles (t : Team) (k : Nat) (f : Fibre → Fibre) : (t.updFibre k f).tiles = t.tiles := rfl
@[simp] theorem team_updFibre_waves (t : Team) (k : Nat) (f : Fibre → Fibre) : (t.updFibre k f).waves = t.waves := rfl
@[simp] theorem team_updFibre_nwaves (t : Team) (k : Nat) (f : Fibre → Fibre) : (t.updFibre k f).nwaves = t.nwaves := rfl
@[simp] theorem team_updFibre_q (t : Team) (k : Nat) (f : Fibre → Fibre) : (t.updFibre k f).q = t.q := rfl
@[simp] theorem team_updFibre_c (t : Team) (k : Nat) (f : Fibre → Fibre) : (t.updFibre k f).c = t.c := rfl
@[simp] theorem team_updFibre_z (t : Team) (k : Nat) (f : Fibre → Fibre) : (t.updFibre k f).z = t.z := rfl
@[simp] theorem team_updFibre_forks (t : Team) (k : Nat) (f : Fibre → Fibre) : (t.updFibre k f).forks = t.forks := rfl
@[simp] theorem team_updFibre_forkSeq (t : Team) (k : Nat) (f : Fibre → Fibre) : (t.updFibre k f).forkSeq = t.forkSeq := rfl
@[simp] theorem team_updFibre_fenv (t : Team) (k : Nat) (f : Fibre → Fibre) : (t.updFibre k f).fenv = t.fenv := rfl
@[simp] theorem team_updFibre_chki (t : Team) (k : Nat) (f : Fibre → Fibre) : (t.updFibre k f).chki = t.chki := rfl
@[simp] theorem team_updFibre_glim (t : Team) (k : Nat) (f : Fibre → Fibre) : (t.updFibre k f).glim = t.glim := rfl
@[simp] theorem team_updFibre_ftau (t : Team) (k : Nat) (f : Fibre → Fibre) : (t.updFibre k f).ftau = t.ftau := rfl
@[simp] theorem team_updFibre_scratch (t : Team) (k : Nat) (f : Fibre → Fibre) : (t.updFibre k f).scratch = t.scratch := rfl
@[simp] theorem team_updFibre_scratchBad (t : Team) (k : Nat) (f : Fibre → Fibre) : (t.updFibre k f).scratchBad = t.scratchBad := rfl
@[simp] theorem team_updFibre_mat (t : Team) (k : Nat) (f : Fibre → Fibre) : (t.updFibre k f).mat = t.mat := rfl
@[simp] theorem team_updFibre_resid (t : Team) (k : Nat) (f : Fibre → Fibre) : (t.updFibre k f).resid = t.resid := rfl
@[simp] theorem team_updFibre_faulted (t : Team) (k : Nat) (f : Fibre → Fibre) : (t.updFibre k f).faulted = t.faulted := rfl
@[simp] theorem team_updFibre_axed (t : Team) (k : Nat) (f : Fibre → Fibre) : (t.updFibre k f).axed = t.axed := rfl
@[simp] theorem team_updFibre_doomed (t : Team) (k : Nat) (f : Fibre → Fibre) : (t.updFibre k f).doomed = t.doomed := rfl
@[simp] theorem team_updFibre_remoteWrites (t : Team) (k : Nat) (f : Fibre → Fibre) : (t.updFibre k f).remoteWrites = t.remoteWrites := rfl
@[simp] theorem team_updFibre_onPath (t : Team) (k : Nat) (f : Fibre → Fibre) : (t.updFibre k f).onPath = t.onPath := rfl
@[simp] theorem team_updFibre_since (t : Team) (k : Nat) (f : Fibre → Fibre) : (t.updFibre k f).since = t.since := rfl

@[simp] theorem team_addFibre_agent (t : Team) (k : Nat) (f : Fibre) : (t.addFibre k f).agent = t.agent := rfl
@[simp] theorem team_addFibre_part (t : Team) (k : Nat) (f : Fibre) : (t.addFibre k f).part = t.part := rfl
@[simp] theorem team_addFibre_work (t : Team) (k : Nat) (f : Fibre) : (t.addFibre k f).work = t.work := rfl
@[simp] theorem team_addFibre_gWin (t : Team) (k : Nat) (f : Fibre) : (t.addFibre k f).gWin = t.gWin := rfl
@[simp] theorem team_addFibre_fWin (t : Team) (k : Nat) (f : Fibre) : (t.addFibre k f).fWin = t.fWin := rfl
@[simp] theorem team_addFibre_scr (t : Team) (k : Nat) (f : Fibre) : (t.addFibre k f).scr = t.scr := rfl
@[simp] theorem team_addFibre_scrPage (t : Team) (k : Nat) (f : Fibre) : (t.addFibre k f).scrPage = t.scrPage := rfl
@[simp] theorem team_addFibre_tiles (t : Team) (k : Nat) (f : Fibre) : (t.addFibre k f).tiles = t.tiles := rfl
@[simp] theorem team_addFibre_waves (t : Team) (k : Nat) (f : Fibre) : (t.addFibre k f).waves = t.waves := rfl
@[simp] theorem team_addFibre_nwaves (t : Team) (k : Nat) (f : Fibre) : (t.addFibre k f).nwaves = t.nwaves := rfl
@[simp] theorem team_addFibre_q (t : Team) (k : Nat) (f : Fibre) : (t.addFibre k f).q = t.q := rfl
@[simp] theorem team_addFibre_c (t : Team) (k : Nat) (f : Fibre) : (t.addFibre k f).c = t.c := rfl
@[simp] theorem team_addFibre_z (t : Team) (k : Nat) (f : Fibre) : (t.addFibre k f).z = t.z := rfl
@[simp] theorem team_addFibre_forks (t : Team) (k : Nat) (f : Fibre) : (t.addFibre k f).forks = t.forks := rfl
@[simp] theorem team_addFibre_forkSeq (t : Team) (k : Nat) (f : Fibre) : (t.addFibre k f).forkSeq = t.forkSeq := rfl
@[simp] theorem team_addFibre_fenv (t : Team) (k : Nat) (f : Fibre) : (t.addFibre k f).fenv = t.fenv := rfl
@[simp] theorem team_addFibre_chki (t : Team) (k : Nat) (f : Fibre) : (t.addFibre k f).chki = t.chki := rfl
@[simp] theorem team_addFibre_glim (t : Team) (k : Nat) (f : Fibre) : (t.addFibre k f).glim = t.glim := rfl
@[simp] theorem team_addFibre_ftau (t : Team) (k : Nat) (f : Fibre) : (t.addFibre k f).ftau = t.ftau := rfl
@[simp] theorem team_addFibre_scratch (t : Team) (k : Nat) (f : Fibre) : (t.addFibre k f).scratch = t.scratch := rfl
@[simp] theorem team_addFibre_scratchBad (t : Team) (k : Nat) (f : Fibre) : (t.addFibre k f).scratchBad = t.scratchBad := rfl
@[simp] theorem team_addFibre_mat (t : Team) (k : Nat) (f : Fibre) : (t.addFibre k f).mat = t.mat := rfl
@[simp] theorem team_addFibre_resid (t : Team) (k : Nat) (f : Fibre) : (t.addFibre k f).resid = t.resid := rfl
@[simp] theorem team_addFibre_faulted (t : Team) (k : Nat) (f : Fibre) : (t.addFibre k f).faulted = t.faulted := rfl
@[simp] theorem team_addFibre_axed (t : Team) (k : Nat) (f : Fibre) : (t.addFibre k f).axed = t.axed := rfl
@[simp] theorem team_addFibre_doomed (t : Team) (k : Nat) (f : Fibre) : (t.addFibre k f).doomed = t.doomed := rfl
@[simp] theorem team_addFibre_remoteWrites (t : Team) (k : Nat) (f : Fibre) : (t.addFibre k f).remoteWrites = t.remoteWrites := rfl
@[simp] theorem team_addFibre_onPath (t : Team) (k : Nat) (f : Fibre) : (t.addFibre k f).onPath = t.onPath := rfl
@[simp] theorem team_addFibre_since (t : Team) (k : Nat) (f : Fibre) : (t.addFibre k f).since = t.since := rfl

@[simp] theorem team_updWave_agent (t : Team) (w : Nat) (f : Wave → Wave) : (t.updWave w f).agent = t.agent := rfl
@[simp] theorem team_updWave_part (t : Team) (w : Nat) (f : Wave → Wave) : (t.updWave w f).part = t.part := rfl
@[simp] theorem team_updWave_work (t : Team) (w : Nat) (f : Wave → Wave) : (t.updWave w f).work = t.work := rfl
@[simp] theorem team_updWave_gWin (t : Team) (w : Nat) (f : Wave → Wave) : (t.updWave w f).gWin = t.gWin := rfl
@[simp] theorem team_updWave_fWin (t : Team) (w : Nat) (f : Wave → Wave) : (t.updWave w f).fWin = t.fWin := rfl
@[simp] theorem team_updWave_scr (t : Team) (w : Nat) (f : Wave → Wave) : (t.updWave w f).scr = t.scr := rfl
@[simp] theorem team_updWave_scrPage (t : Team) (w : Nat) (f : Wave → Wave) : (t.updWave w f).scrPage = t.scrPage := rfl
@[simp] theorem team_updWave_tiles (t : Team) (w : Nat) (f : Wave → Wave) : (t.updWave w f).tiles = t.tiles := rfl
@[simp] theorem team_updWave_nwaves (t : Team) (w : Nat) (f : Wave → Wave) : (t.updWave w f).nwaves = t.nwaves := rfl
@[simp] theorem team_updWave_fibres (t : Team) (w : Nat) (f : Wave → Wave) : (t.updWave w f).fibres = t.fibres := rfl
@[simp] theorem team_updWave_q (t : Team) (w : Nat) (f : Wave → Wave) : (t.updWave w f).q = t.q := rfl
@[simp] theorem team_updWave_c (t : Team) (w : Nat) (f : Wave → Wave) : (t.updWave w f).c = t.c := rfl
@[simp] theorem team_updWave_z (t : Team) (w : Nat) (f : Wave → Wave) : (t.updWave w f).z = t.z := rfl
@[simp] theorem team_updWave_forks (t : Team) (w : Nat) (f : Wave → Wave) : (t.updWave w f).forks = t.forks := rfl
@[simp] theorem team_updWave_forkSeq (t : Team) (w : Nat) (f : Wave → Wave) : (t.updWave w f).forkSeq = t.forkSeq := rfl
@[simp] theorem team_updWave_fenv (t : Team) (w : Nat) (f : Wave → Wave) : (t.updWave w f).fenv = t.fenv := rfl
@[simp] theorem team_updWave_chki (t : Team) (w : Nat) (f : Wave → Wave) : (t.updWave w f).chki = t.chki := rfl
@[simp] theorem team_updWave_glim (t : Team) (w : Nat) (f : Wave → Wave) : (t.updWave w f).glim = t.glim := rfl
@[simp] theorem team_updWave_ftau (t : Team) (w : Nat) (f : Wave → Wave) : (t.updWave w f).ftau = t.ftau := rfl
@[simp] theorem team_updWave_scratch (t : Team) (w : Nat) (f : Wave → Wave) : (t.updWave w f).scratch = t.scratch := rfl
@[simp] theorem team_updWave_scratchBad (t : Team) (w : Nat) (f : Wave → Wave) : (t.updWave w f).scratchBad = t.scratchBad := rfl
@[simp] theorem team_updWave_mat (t : Team) (w : Nat) (f : Wave → Wave) : (t.updWave w f).mat = t.mat := rfl
@[simp] theorem team_updWave_resid (t : Team) (w : Nat) (f : Wave → Wave) : (t.updWave w f).resid = t.resid := rfl
@[simp] theorem team_updWave_faulted (t : Team) (w : Nat) (f : Wave → Wave) : (t.updWave w f).faulted = t.faulted := rfl
@[simp] theorem team_updWave_axed (t : Team) (w : Nat) (f : Wave → Wave) : (t.updWave w f).axed = t.axed := rfl
@[simp] theorem team_updWave_doomed (t : Team) (w : Nat) (f : Wave → Wave) : (t.updWave w f).doomed = t.doomed := rfl
@[simp] theorem team_updWave_remoteWrites (t : Team) (w : Nat) (f : Wave → Wave) : (t.updWave w f).remoteWrites = t.remoteWrites := rfl
@[simp] theorem team_updWave_onPath (t : Team) (w : Nat) (f : Wave → Wave) : (t.updWave w f).onPath = t.onPath := rfl
@[simp] theorem team_updWave_since (t : Team) (w : Nat) (f : Wave → Wave) : (t.updWave w f).since = t.since := rfl

/-! ### What a look-up finds -/

theorem team?_updTeam_same (s : State) (a : AgentId) (f : Team → Team) (h : ∀ t, (f t).agent = t.agent) :
    (s.updTeam a f).team? a = (s.team? a).map f :=
  find?_updFirst_same (fun x hx => by simpa [h] using hx)

theorem team?_updTeam_ne (s : State) (a b : AgentId) (f : Team → Team) (h : ∀ t, (f t).agent = t.agent) (hb : b ≠ a) :
    (s.updTeam a f).team? b = s.team? b :=
  find?_updFirst_other (fun x hx => by simp_all [Ne.symm]) (fun x hx => by simp_all [Ne.symm])

theorem part?_updPart_same (s : State) (p : Nat) (f : Partition → Partition) (h : ∀ t, (f t).id = t.id) :
    (s.updPart p f).part? p = (s.part? p).map f :=
  find?_updFirst_same (fun x hx => by simpa [h] using hx)

theorem part?_updPart_ne (s : State) (p q : Nat) (f : Partition → Partition) (h : ∀ t, (f t).id = t.id) (hq : q ≠ p) :
    (s.updPart p f).part? q = s.part? q :=
  find?_updFirst_other (fun x hx => by simp_all [Ne.symm]) (fun x hx => by simp_all [Ne.symm])

theorem job?_updJob_same (s : State) (n : Nat) (f : Job → Job) (h : ∀ t, (f t).id = t.id) :
    (s.updJob n f).job? n = (s.job? n).map f :=
  find?_updFirst_same (fun x hx => by simpa [h] using hx)

theorem fibre?_updFibre_same (t : Team) (k : Nat) (f : Fibre → Fibre) : (t.updFibre k f).fibre? k = (t.fibre? k).map f := by
  simp only [Team.fibre?, Team.updFibre]
  rw [find?_updFirst_same (fun x hx => by simpa using hx)]
  cases t.fibres.find? (·.1 == k) <;> rfl

theorem fibre?_updFibre_ne (t : Team) (j k : Nat) (f : Fibre → Fibre) (h : j ≠ k) : (t.updFibre k f).fibre? j = t.fibre? j := by
  simp only [Team.fibre?, Team.updFibre]
  rw [find?_updFirst_other (fun x hx => by simp_all [Ne.symm]) (fun x hx => by simp_all [Ne.symm])]

theorem wave_updWave_same (t : Team) (w : Nat) (f : Wave → Wave) (h : w < 32) : (t.updWave w f).wave w = f (t.wave w) :=
  vget_vset_same h

theorem wave_updWave_ne (t : Team) (v w : Nat) (f : Wave → Wave) (h : v ≠ w) : (t.updWave w f).wave v = t.wave v :=
  vget_vset_ne h

end Sys2Proof.Machine
end

