-- ==== Sys2Proof/Laws/Words.lean ====
section
/-! SUPPORT. How a word of one lane ends: what its lane's part leaves is what the machine goes on with. -/

namespace Sys2Proof.Machine

theorem runPair_plain {body : Bool → L Unit} {x y : LS} {t : Team} (ht : x.st.team? x.agent = some t)
    (hp : t.work.yoke = false) (hb : body false x = .ok ((), y)) : runPair body x = .ok y := by
  simp [runPair, ht, hp, hb, Except.map]

theorem runPair_stops {body : Bool → L Unit} {x : LS} {t : Team} {e : Stop} (ht : x.st.team? x.agent = some t)
    (hp : t.work.yoke = false) (hb : body false x = .error e) : runPair body x = .error e := by
  simp [runPair, ht, hp, hb, Except.map]

/-- A word whose reads consumed no poison and dropped no replica leaves nothing when it traps (R12, R284, R414). -/
theorem State.keepReads_same {s x : State} {a : AgentId} (hc : (x.team? a).map (·.chki) = (s.team? a).map (·.chki))
    (hl : (x.core (coreOf a)).tlb = (s.core (coreOf a)).tlb) : s.keepReads x a = s := by
  have hn : ∀ (f : TlbEntry → Bool) (l : List TlbEntry), l.filter (fun e => f e && !l.contains e) = [] := fun f l => by
    simp +contextual [List.filter_eq_nil_iff]
  simp only [State.keepReads, hl]
  cases hs : s.team? a with
  | none => simp only [hn, List.foldl_nil]
  | some u =>
    cases hx : x.team? a with
    | none => simp [hs, hx] at hc
    | some t =>
      have ht : t.chki = u.chki := by simpa [hs, hx] using hc
      simp only [ht, BitVec.or_self, if_true, hn, List.foldl_nil]

@[simp] theorem State.keepReads_self (s : State) (a : AgentId) : s.keepReads s a = s := State.keepReads_same rfl rfl

theorem runLanes_solo {body : Bool → L Unit} {o : Bool} {s : State} {b : Issue} {t : Team} {l : Nat} {y : LS}
    (ht : s.team? b.agent = some t) (hp : t.work.yoke = false) (hb : body false (b.start s t l) = .ok ((), y))
    (hl : y.lane = l) :
    runLanes body o [] (b.lanes0 s t [l]) [l] (Run.start s [] []) = { y.run with base := s, noted := s } := by
  have hr : runPair body (b.start s t l) = .ok y := runPair_plain (by simpa [Issue.start, Issue.lanes0] using ht) hp hb
  simp only [Issue.start, Issue.lanes0] at hr
  simp only [runLanes, List.foldl_cons, List.foldl_nil, runLane, Issue.lanes0, Run.start, ht, Option.map_some,
    Option.getD_some, hr]
  simp [LS.run, hl, Run.start]

/-- The one lane of a word neither traps nor waits: what it did stands. -/
theorem finishWord_solo {i : Instr} {b : Issue} {l : Nat} {s z : State} {m : WMode} {after : State → State} {y : LS}
    (hT : b.todo = [l]) (hu : unisAgree y.unis = true) :
    finishWord i b [l] [l] s m after { y.run with base := z, noted := z } = b.complete i s after y := by
  have hf : uniFault [l] [l] y.unis = none := by
    simp only [unisAgree, Bool.not_eq_true'] at hu
    simp only [uniFault]
    split
    · rfl
    · simp [hu]
  cases m <;> simp [finishWord, hf, Issue.complete, LS.run, hT, Run.allTraps, Run.waits, Run.kept, Run.start, State.retire]

/-- A word that one lane issues alone, and whose part completes, completes. -/
theorem runWord_solo {i : Instr} {g : Option Guard} {m : WMode} {after : Issue → State → State} {body : Bool → L Unit}
    {s : State} {b : Issue} {t : Team} {l : Nat} {y : LS} (h : Solo s b t l g)
    (hb : body false (b.start s t l) = .ok ((), y)) (hl : y.lane = l) (hu : unisAgree y.unis = true) :
    runWord i g m after body s = .next (b.complete i s (after b) y) := by
  obtain ⟨hc, ht, hL, hT, hv, hp, hg, hn, hk⟩ := h
  simp only [passes, Bool.and_eq_true, Bool.not_eq_true'] at hg
  obtain ⟨⟨⟨hw, ho⟩, hg1⟩, hg2⟩ := hg
  have he : b.lanes.filter (fun l => guardPass g (t.regsAt b.wave l)) = [l] := by simp [hL, hg1]
  have hs : s.guardRead b t g = s := by
    cases g with
    | none => rfl
    | some k => simp only [State.guardRead, hT]; simp_all
  have hd : guardedOut b [l] = [] := by simp [guardedOut, hT]
  have hb' : guarded g body false (b.start s t l) = .ok ((), y) := by simpa [guarded] using hb
  have hr := runLanes_solo (o := m.inOrder) ht hp hb' hl
  simp only [runWord, hc, ht, hT, hw, ho, Bool.false_eq_true, if_false, runBatch, he, hs, hv, hd, hk, hn, ite_self]
  have hf : [l].filter [l].contains = [l] := by simp
  rw [hf, hr, finishWord_solo hT hu]

end Sys2Proof.Machine
end

