-- ==== Sys2Proof/Machine/Gcm.lean ====
section
/-! DEFINITION. A flit as it crosses a link (R378, R391): 256 bytes, the header in the clear, the payload under AES-256-GCM. The
cipher is that of its public standard, which the spec names and does not repeat (PRESUMED, log 70). -/

namespace Sys2Proof.Machine

/-! ### The field of AES -/

/-- x times a byte, modulo x⁸ + x⁴ + x³ + x + 1. -/
def aesTwice (b : Nat) : Nat := if b < 0x80 then 2 * b else 2 * b % 0x100 ^^^ 0x1B

/-- A byte over x + 1. -/
def aesThird (b : Nat) : Nat :=
  let b := (b ^^^ 2 * b) % 0x100
  let b := (b ^^^ 4 * b) % 0x100
  let b := (b ^^^ 16 * b) % 0x100
  if b < 0x80 then b else b ^^^ 9

/-- A byte turned left. -/
def turnByte (b n : Nat) : Nat := b * 2 ^ n % 0x100 + b / 2 ^ (8 - n)

/-- The affine map that follows the inverse. -/
def aesAffine (b : Nat) : Nat := [1, 2, 3, 4].foldl (fun r n => r ^^^ turnByte b n) (b ^^^ 0x63)

/-- The substitution, for the powers of x + 1 in turn with their inverses. -/
def aesBox : Nat → Nat → Nat → List Nat → List Nat
  | 0, _, _, t => t
  | n + 1, p, q, t => aesBox n (p ^^^ aesTwice p) (aesThird q) (t.set p (aesAffine q))

/-- Every byte's substitute. -/
def aesSubs : List Nat := aesBox 255 1 1 (List.replicate 256 0x63)

def aesSub (b : Nat) : Nat := aesSubs.getD b 0

/-! ### AES-256: a block is 16 bytes -/

/-- A word of four bytes with another added. -/
def addBytes (x y : List Nat) : List Nat := x.zipWith (· ^^^ ·) y

/-- The words of the key schedule, newest first, eight of the key first: `c` is the round constant. -/
def aesSchedule : Nat → Nat → List (List Nat) → List (List Nat)
  | 0, _, w => w
  | n + 1, c, w =>
    let i := w.length
    let last := w.headD []
    let mixed := if i % 8 = 0 then (match (last.drop 1 ++ last.take 1).map aesSub with
        | b :: l => (b ^^^ c) :: l
        | [] => [])
      else if i % 8 = 4 then last.map aesSub
      else last
    aesSchedule n (if i % 8 = 0 then aesTwice c else c) (addBytes mixed (w.getD 7 []) :: w)

/-- The fifteen round keys of a 32-byte key. -/
def aesKeys (key : List Nat) : List (List Nat) :=
  let words := (List.range 8).map (fun i => (key.drop (4 * i)).take 4)
  let all := (aesSchedule 52 1 words.reverse).reverse
  (List.range 15).map (fun r => ((all.drop (4 * r)).take 4).flatten)

/-- Row r of the columns turns by r places. -/
def aesShift (b : List Nat) : List Nat := (List.range 16).map (fun i => b.getD ((i + 4 * (i % 4)) % 16) 0)

/-- One column mixed. -/
def aesMixCol (c : List Nat) : List Nat :=
  (List.range 4).map (fun i =>
    let at_ (k : Nat) : Nat := c.getD ((i + k) % 4) 0
    aesTwice (at_ 0 ^^^ at_ 1) ^^^ at_ 1 ^^^ at_ 2 ^^^ at_ 3)

def aesMix (b : List Nat) : List Nat := (List.range 4).flatMap (fun i => aesMixCol ((b.drop (4 * i)).take 4))

/-- The rounds of a block; the last mixes no column. -/
def aesRounds : List (List Nat) → List Nat → List Nat
  | [], b => b
  | [k], b => addBytes (aesShift (b.map aesSub)) k
  | k :: l, b => aesRounds l (addBytes (aesMix (aesShift (b.map aesSub))) k)

/-- A block under round keys. -/
def aesBlock (keys : List (List Nat)) (b : List Nat) : List Nat := aesRounds (keys.drop 1) (addBytes b (keys.headD []))

/-! ### GCM -/

/-- Bytes of a number, highest first. -/
def highFirst (n x : Nat) : List Nat := ((bytesOfNat n x).map (·.toNat)).reverse

/-- The number of bytes, highest first. -/
def ofHighFirst (l : List Nat) : Nat := l.foldl (fun n b => n * 256 + b) 0

/-- A product of 128-bit blocks: bit 127 of a number is the coefficient of x⁰. -/
def ghashMul (x y : Nat) : Nat :=
  ((List.range 128).foldl (fun (a : Nat × Nat) i =>
    (if x.testBit (127 - i) then a.1 ^^^ a.2 else a.1, if a.2 % 2 = 1 then a.2 / 2 ^^^ 0xE1 * 2 ^ 120 else a.2 / 2)) (0, y)).1

/-- The hash of whole blocks under a key. -/
def ghash (h : Nat) (blocks : List (List Nat)) : Nat := blocks.foldl (fun a b => ghashMul (a ^^^ ofHighFirst b) h) 0

/-- Blocks of 16 bytes, the last filled with zeros. -/
def blocks16 (l : List Nat) : List (List Nat) :=
  (List.range ((l.length + 15) / 16)).map (fun i =>
    let b := (l.drop (16 * i)).take 16
    b ++ List.replicate (16 - b.length) 0)

/-- The ciphertext and the tag of a plaintext, with additional authenticated data, under a 12-byte IV. -/
def gcmSeal (key iv aad plain : List Nat) : List Nat × List Nat :=
  let keys := aesKeys key
  let counted (n : Nat) : List Nat := aesBlock keys (iv ++ highFirst 4 n)
  let h := ofHighFirst (aesBlock keys (List.replicate 16 0))
  let cipher := (addBytes plain ((List.range ((plain.length + 15) / 16)).flatMap (fun i => counted (i + 2))))
  let sums := blocks16 aad ++ blocks16 cipher ++ [highFirst 8 (8 * aad.length) ++ highFirst 8 (8 * plain.length)]
  (cipher, addBytes (highFirst 16 (ghash h sums)) (counted 1))

/-! ### The flit -/

/-- The 128 bits of a header (R378). -/
def Flit.header (f : Flit) : BitVec 128 :=
  f.lseq ++ f.dpkg ++ f.spkg ++ f.dagt ++ f.mid ++ f.fidx ++ f.k ++ f.m ++ f.path ++ f.vc ++ f.type ++ BitVec.ofBool f.ks ++
    f.rch ++ f.len

/-- The 224 payload bytes: those of the flit, with zeros after them; free where the spec lays none out. -/
def flitPayload (f : Flit) : List (BitVec 8) :=
  match f.body with
  | none | some (.block ..) => (f.payload ++ List.replicate 224 0).take 224
  | some _ => (List.range 224).map (Config.bodyByte f.mid.toNat)

/-- The IV: the slot's salt above its counter (R391). -/
def KeySlot.iv (k : KeySlot) : List Nat := highFirst 12 (k.salt.toNat * 2 ^ 64 + k.ctr.toNat)

/-- The 256 bytes of a flit under a key slot (R378, R391): header, ciphertext, tag. -/
def wireFlit (f : Flit) (k : KeySlot) : List (BitVec 8) :=
  let header := bytesOfNat 16 (Flit.header f).toNat
  let (cipher, tag) := gcmSeal (highFirst 32 k.key.toNat) k.iv (header.map (·.toNat)) ((flitPayload f).map (·.toNat))
  header ++ (cipher ++ tag).map (BitVec.ofNat 8)

/-- The bytes on the link of what leaves at a port; none for what leaves elsewhere. -/
def Output.wire : Output → List (BitVec 8)
  | .flit _ f k => wireFlit f k
  | _ => []

end Sys2Proof.Machine
end

