-- ==== Sys2Proof/Tests/Witness.lean ====
section
/-! SUPPORT. Concrete states that meet the hypotheses of the statements: for each statement one theorem, with a state and
operands for each of its clauses. The states are small: one team of one fibre on core 0, and what a clause asks for. -/

namespace Sys2Proof.Machine.Wit
section

set_option linter.unusedVariables false
set_option maxRecDepth 4000
set_option Elab.async false

/-! ### The value and the outcome of a part that succeeds -/

/-- Whether a part succeeds. -/
def okL {α : Type} (p : L α) (x : LS) : Bool := match p x with | .ok _ => true | .error _ => false

/-- What a part that succeeds answers. -/
@[irreducible] def outL {α : Type} (p : L α) (x : LS) (h : okL p x = true) : α × LS :=
  match hp : p x with
  | .ok r => r
  | .error _ => absurd h (by simp [okL, hp])

theorem does_out {α : Type} {p : L α} {x : LS} (h : okL p x = true) : Does p x (outL p x h).1 (outL p x h).2 := by
  unfold outL
  simp only [Does]
  split
  · assumption
  · rename_i e he
    simp [okL, he] at h

/-- A part that only reads. -/
theorem does_same {α : Type} {p : L α} {x : LS} (h : okL p x = true) (h2 : (outL p x h).2 = x) : Does p x (outL p x h).1 x := by
  have := does_out h
  rwa [h2] at this

theorem does_is {α : Type} {p : L α} {x : LS} {v : α} (h : okL p x = true) (h2 : (outL p x h).1 = v) :
    Does p x v (outL p x h).2 := h2 ▸ does_out h

theorem does_some {β : Type} {p : L (Option Nat × β)} {x : LS} (h : okL p x = true) (h2 : (outL p x h).1.1.isSome = true) :
    Does p x (some ((outL p x h).1.1.get h2), (outL p x h).1.2) (outL p x h).2 := by
  have := does_out h
  simpa using this

theorem team_here {x : LS} (h : okL L.team x = true) : Does L.team x (outL L.team x h).1 x :=
  does_same h (does_team.1 (does_out h)).2

theorem part_here {x : LS} (h : okL L.part x = true) : Does L.part x (outL L.part x h).1 x :=
  does_same h (does_part.1 (does_out h)).2

theorem fibre_here {x : LS} (h : okL L.fibre x = true) : Does L.fibre x (outL L.fibre x h).1 x :=
  does_same h (does_fibre.1 (does_out h)).2

theorem does_val {α : Type} {p : L α} {x : LS} {v : α} (h : okL p x = true) (h1 : (outL p x h).1 = v)
    (h2 : (outL p x h).2 = x) : Does p x v x := by
  have := does_out h
  rwa [h1, h2] at this

theorem does_get {α : Type} {p : L (Option α)} {x : LS} (h : okL p x = true) (h1 : (outL p x h).1.isSome = true)
    (h2 : (outL p x h).2 = x) : Does p x (some ((outL p x h).1.get h1)) x := does_val h (by simp) h2

/-- A result that has come is what it is. -/
theorem some_out {α : Type} {o : Option α} (h : o.isSome = true) : o = some (o.get h) := by simp

/-- What a trap of a part says. -/
def trapOf {α : Type} (p : L α) (x : LS) : Option (BitVec 4 × BitVec 8 × Addr × Word × State) :=
  match p x with | .error (.trap a b c d s) => some (a, b, c, d, s) | _ => none

/-- The state that the trap keeps. -/
@[irreducible] def trapState {α : Type} (p : L α) (x : LS) : State := ((trapOf p x).map (·.2.2.2.2)).getD State.reset

theorem trap_out {α : Type} {p : L α} {x : LS} {a : BitVec 4} {b : BitVec 8} {c : Addr} {d : Word}
    (h : (trapOf p x).map (fun r => (r.1, r.2.1, r.2.2.1, r.2.2.2.1)) = some (a, b, c, d)) :
    p x = .error (.trap a b c d (trapState p x)) := by
  unfold trapState
  unfold trapOf at h ⊢
  split at h
  · rename_i e
    simp only [Option.map_some, Option.some.injEq, Prod.mk.injEq] at h
    obtain ⟨rfl, rfl, rfl, rfl⟩ := h
    simp [e]
  · cases h

/-- The place an access resolved to. -/
@[irreducible] def resOf (r : Res) : Option (Nat × QWord × State) := match r with | .ok a l s => some (a, l, s) | _ => none

theorem res_out {r : Res} (h : (resOf r).isSome = true) :
    r = .ok ((resOf r).get h).1 ((resOf r).get h).2.1 ((resOf r).get h).2.2 := by
  cases r <;> first | (simp [resOf] at h; done) | simp [resOf]

@[irreducible] def ownOf (r : Own) : Option (Nat × QWord) := match r with | .ok a l => some (a, l) | _ => none

theorem own_out {r : Own} (h : (ownOf r).isSome = true) : r = .ok ((ownOf r).get h).1 ((ownOf r).get h).2 := by
  cases r <;> first | (simp [ownOf] at h; done) | simp [ownOf]

@[irreducible] def refOf (r : Own) : Option (BitVec 8 × BitVec 16) := match r with | .refused a g => some (a, g) | _ => none

theorem ref_out {r : Own} (h : (refOf r).isSome = true) : r = .refused ((refOf r).get h).1 ((refOf r).get h).2 := by
  cases r <;> first | (simp [refOf] at h; done) | simp [refOf]

@[irreducible] def inrOf {α β : Type} (o : α ⊕ β) : Option β := match o with | .inr b => some b | _ => none

theorem inr_out {α β : Type} {o : α ⊕ β} (h : (inrOf o).isSome = true) : o = .inr ((inrOf o).get h) := by
  cases o <;> first | (simp [inrOf] at h; done) | simp [inrOf]

@[irreducible] def walkOf (r : WalkRes) : Option (QWord × Nat) := match r with | .leaf q a => some (q, a) | _ => none

theorem walk_out {r : WalkRes} (h : (walkOf r).isSome = true) : r = .leaf ((walkOf r).get h).1 ((walkOf r).get h).2 := by
  cases r <;> first | (simp [walkOf] at h; done) | simp [walkOf]

theorem cons_out {α : Type} {l : List α} (h : l.isEmpty = false) :
    l = l.head (by intro hn; simp [hn] at h) :: l.tail := by simp

@[irreducible] def outcomeOf (o : Out) : Option State := match o with | .next t => some t | _ => none

theorem next_out {o : Out} (h : (outcomeOf o).isSome = true) : o = .next ((outcomeOf o).get h) := by
  cases o <;> first | (simp [outcomeOf] at h; done) | simp [outcomeOf]

@[irreducible] def batchOf (o : Option Choice) : Option Issue := match o with | some (.batch b) => some b | _ => none

theorem batch_out {o : Option Choice} (h : (batchOf o).isSome = true) : o = some (.batch ((batchOf o).get h)) := by
  cases o with
  | none => simp [batchOf] at h
  | some c => cases c <;> first | (simp [batchOf] at h; done) | simp [batchOf]

@[irreducible] def okOf {ε α : Type} (o : Except ε α) : Option α := match o with | .ok a => some a | _ => none

theorem ok_out {ε α : Type} {o : Except ε α} (h : (okOf o).isSome = true) : o = .ok ((okOf o).get h) := by
  cases o <;> first | (simp [okOf] at h; done) | simp [okOf]

@[irreducible] def errOf {ε α : Type} (o : Except ε α) : Option ε := match o with | .error e => some e | _ => none

theorem err_out {ε α : Type} {o : Except ε α} (h : (errOf o).isSome = true) : o = .error ((errOf o).get h) := by
  cases o <;> first | (simp [errOf] at h; done) | simp [errOf]

theorem ok2_out {ε α β : Type} {o : Except ε (α × β)} (h : (okOf o).isSome = true) : o = .ok (((okOf o).get h).1, ((okOf o).get h).2) :=
  ok_out h

theorem triple_out {α β γ : Type} {x : α × β × γ} : x = (x.1, x.2.1, x.2.2) := rfl

/-- What is said of the one that is there, where none is. -/
theorem none_out {α : Type} {o : Option α} {P : α → Prop} (h : o = none) : ∀ g, o = some g → P g := by
  intro g hg
  rw [h] at hg
  cases hg

theorem pair_out {α β : Type} {x : α × β} : x = (x.1, x.2) := rfl

theorem landed_out {i : Instr} {h : Hdr} {c : Cap} {p : L (QWord × BitVec 4)} {x : LS} (hl : h.la = 0)
    (h1 : okL (L.behind (destsOf i c)) x = true) (h2 : (outL (L.behind (destsOf i c)) x h1).1 = false)
    (h3 : okL p (outL (L.behind (destsOf i c)) x h1).2 = true)
    (h4 : okL (L.landNow i c (outL p (outL (L.behind (destsOf i c)) x h1).2 h3).1.1
      (outL p (outL (L.behind (destsOf i c)) x h1).2 h3).1.2) (outL p (outL (L.behind (destsOf i c)) x h1).2 h3).2 = true) :
    Landed i h c p x (outL (L.landNow i c (outL p (outL (L.behind (destsOf i c)) x h1).2 h3).1.1
      (outL p (outL (L.behind (destsOf i c)) x h1).2 h3).1.2) (outL p (outL (L.behind (destsOf i c)) x h1).2 h3).2 h4).2 :=
  ⟨hl, _, _, _, _, h2 ▸ does_out h1, does_out h3, does_out h4⟩

theorem ivOf_keeps {x64 neg : Bool} {q : QWord} {x y : LS} {u : Iv} (h : Does (L.ivOf x64 neg q) x u y) : y = x := by
  unfold L.ivOf at h
  simp only at h
  split at h
  · simp [L.trap, Does] at h
  · exact (does_pure.1 h).2

theorem iv_here {x64 neg : Bool} {q : QWord} {x : LS} (h : okL (L.ivOf x64 neg q) x = true) :
    Does (L.ivOf x64 neg q) x (outL (L.ivOf x64 neg q) x h).1 x :=
  does_same h (ivOf_keeps (does_out h))

theorem ivs_here {w n m : Bool} {p q : QWord} {x : LS}
    (h : okL (do return (← L.ivOf w n p, ← L.ivOf w m q)) x = true) :
    Does (do return (← L.ivOf w n p, ← L.ivOf w m q)) x (outL (do return (← L.ivOf w n p, ← L.ivOf w m q)) x h).1 x := by
  refine does_same h ?_
  obtain ⟨u, y, h1, h2⟩ := does_bind.1 (does_out h)
  obtain ⟨v, z, h3, h4⟩ := does_bind.1 h2
  rw [(does_pure.1 h4).2, ivOf_keeps h3, ivOf_keeps h1]

theorem checkG_keeps {n : Nat} {x y : LS} {u : Unit} (h : Does (L.checkG n) x u y) : y = x := by
  unfold L.checkG at h
  obtain ⟨t, z, h1, h2⟩ := does_bind.1 h
  obtain ⟨-, rfl⟩ := does_team.1 h1
  split at h2
  · exact absurd h2 (by simp [L.trap, Does])
  · exact (does_pure.1 h2).2

theorem check_here {n : BitVec 6} {x : LS} (h : okL (L.checkReg (.g n)) x = true) :
    Does (L.checkReg (.g n)) x (outL (L.checkReg (.g n)) x h).1 x :=
  does_same h (checkG_keeps (does_out h))

theorem pick_some (used : List Nat) : ∀ (l : List (Nat × Nat)) (k : Nat), k < (l.map (rangeFree used)).sum →
    (pickFrame used k l).isSome = true
  | [], k, h => by simp at h
  | r :: l, k, h => by
    unfold pickFrame
    split
    · rfl
    · rename_i hk
      refine pick_some used l _ ?_
      simp only [List.map_cons, List.sum_cons] at h
      omega

/-- A frame is found where the share has a free one. -/
theorem frame_some {s : State} {p : Partition} {k : ShareKind} {u : Nat}
    (h : (p.shares.filter (fun h => h.kind == k && (match h.unit with | none => true | some w => w == u))).isEmpty = false)
    (hn : (((s.fixedRanges p).foldl (fun l x => l.flatMap (cutRange x))
      ((p.shares.filter (fun h => h.kind == k && (match h.unit with | none => true | some w => w == u))).map
      (fun h => (unitBase k u + h.lo * stepFrames k, h.n * stepFrames k)))).map (rangeFree (s.usedFrames p))).sum ≠ 0) :
    (s.freeFrame p k u).isSome = true := by
  unfold State.freeFrame
  simp only []
  split
  · rename_i hc
    exact absurd (h.symm.trans hc) (by decide)
  · exact pick_some _ _ _ (Nat.mod_lt _ (Nat.pos_of_ne_zero hn))

/-! ### A small package -/

/-- Registers: g1 = 7, g4 = 3, g5 = 5, g16 = 64, g22 to g24 = words of CBIND, g26 = 64, g27 = 1, g28 = 0x2400, g32 = 32, g34 = 2^31, g30 = 9 × 64 + 5; the pairs g2, g6, g8, g10, g12, g14 and g18 hold 0x2000, 0x3000, 0x4000,
0x5000, 0x1000, 0x6000 and 0x8000; f0 = 1.5 and f1 = 2 as FP32, f2 = 2 as FP64, f3 and f4 the interval [1, 2] in FP32, f7 and f8 elements of tag 5, f9 the point
interval [1, 1], i1 index 3 of 16. -/
def regs : Regs :=
  let g := [(1, 7), (2, 0x2000), (4, 3), (5, 5), (6, 0x3000), (8, 0x4000), (10, 0x5000), (12, 0x1000), (14, 0x6000),
    (18, 0x8000), (16, 64), (18, 0x8000), (30, 9 * 64 + 5), (22, 0x1800_4004), (23, 0x0C01_0004), (24, 0x0A01_0004), (26, 64), (27, 1), (28, 0x2400), (32, 32), (34, 0x8000_0000)]
  { Regs.zero with
    g := g.foldl (fun v x => vset v x.1 x.2) Regs.zero.g
    f := [(0, 0x3FC0_0000), (1, 0x4000_0000), (2, 0x4000_0000_0000_0000), (3, 0x4000_0000_3F80_0000),
      (4, 0x4000_0000_3F80_0000), (7, 0x3C00_3C00), (8, 0x3C00_3C00), (9, 0x3F80_0000_3F80_0000)].foldl (fun v x => vset v x.1 x.2) Regs.zero.f
    tag := [(0, 2), (1, 2), (2, 1), (3, 3), (4, 3), (7, 5), (8, 5), (9, 3)].foldl (fun v x => vset v x.1 x.2) Regs.zero.tag
    ix := vset Regs.zero.ix 1 0x0010_0003 }

/-- A unit of no launch. -/
def work : UnitRec := ⟨0x1000, 0, 0, 0, ⟨none, none, none, none⟩, 0, 0, false, false, false, none⟩

/-- One wave of one fibre with 64 g and 32 f registers, 64 KiB of scratch and 8 tiles, its wave at a level. -/
def team (lvl : BitVec 2) : Team :=
  let t := Team.start 0 0 work ⟨1, 64, 32, 16, 8, false⟩ ⟨[0], 0⟩ 0 0
  { t with fibres := [(0, { Fibre.start false 0x1000 0 with regs := regs, sig := vset (Fibre.start false 0 0).sig 3 true })],
           waves := vset t.waves 0 { t.wave 0 with level := lvl, m := vset (t.wave 0).m 1 (1, 0) },
           c := vset t.c 1 ⟨0x100, 4, 4, 0, 1, 3, 0, true⟩,
           q := [(1, { ConvReg.zero with st := 1, target := 2 }), (3, { ConvReg.zero with st := 1, signed := 1, target := 1 })].foldl
             (fun v x => vset v x.1 x.2) t.q,
           forks := [⟨5, 9, []⟩] }

/-- Tables in frames 1 to 5, at their entries; page 2 is OWNED by the team. -/
def mem : Memory :=
  [(0x1000, 13), (0x1006, 2), (0x2000, 13), (0x2006, 3), (0x3000, 13), (0x3006, 4), (0x4000, 13), (0x4006, 5), (0x5020, 49),
   (0x5026, 7), (0x502C, 240), (0x502D, 255), (0x7000, 1), (0x7001, 16)]

/-- The same and more: pages 1 to 6 are CODE, OWNED by the team, ATOMIC, HALO, REDUCE and STREAM,
pages 7 and 9 OWNED, the latter with C, page 8 PTAB, page 10 OWNED with scope 4; the word at virtual address 0x1100 is FENCE, that at
0x2800 ELOOP with one word in its loop; at 0x2900 stands a valid team shape, at 0x2400 a launch descriptor of zeros, in page
3 a join cell of count 5, at 0x600C of page 6 what a stream page holds. -/
def memAll : Memory :=
  [(0x1000, 13), (0x1006, 2), (0x2000, 13), (0x2006, 3), (0x2040, 3), (0x3000, 13), (0x3006, 4), (0x4000, 13),
   (0x4006, 5), (0x5010, 63), (0x5016, 6), (0x501B, 255), (0x501C, 255), (0x501D, 255), (0x5020, 49), (0x5026, 7),
   (0x502C, 240), (0x502D, 255), (0x5030, 53), (0x5036, 8), (0x503C, 240), (0x503D, 255), (0x5040, 57), (0x5046, 9),
   (0x504B, 1), (0x504C, 240), (0x504D, 255), (0x5050, 55), (0x5056, 10), (0x505C, 240), (0x505D, 255), (0x5060, 59),
   (0x5066, 11), (0x506C, 240), (0x506D, 255), (0x5070, 49), (0x5076, 12), (0x507C, 240), (0x507D, 255),
   (0x5080, 61), (0x5086, 5), (0x508C, 240), (0x508D, 255), (0x5090, 49), (0x5091, 8), (0x5096, 13), (0x509C, 240),
   (0x509D, 255), (0x50A0, 65), (0x50A6, 14), (0x50AC, 240), (0x50AD, 255), (0x6100, 2), (0x6102, 64), (0x6106, 64),
   (0x6107, 81), (0x7000, 1), (0x7001, 16), (0x7800, 2), (0x7801, 128), (0x7802, 143), (0x7803, 47), (0x7806, 64),
   (0x7807, 101), (0x7907, 128), (0x8000, 5), (0xB00C, 4), (0xB010, 16), (0xB014, 1)]

/-- The partition. -/
def part : Partition := { Partition.fresh 0 with
  shares := [⟨.scratch, none, 0, 1⟩, ⟨.near, none, 1, 1⟩, ⟨.cluster, none, 0, 1⟩, ⟨.die, none, 0, 1⟩, ⟨.hbm, none, 0, 64⟩]
  ptroot := 0x1000
  tshape := 0x2900
  tside := 0x100_0000 }

/-- The batch of the one fibre. -/
def batch : Issue := ⟨0, 0, 0x1000, [0], [0], []⟩

/-- The package with a team. -/
def pkg (t : Team) : State :=
  { State.reset with power := .running, mem := mem, parts := [part], teams := [t], cur := some batch,
                     dies := State.reset.dies.map (fun d => { d with part := some 0 }) }

/-- With all of that memory. -/
def wide (s : State) : State := { s with mem := memAll }

/-- With the team at a level. -/
def st (lvl : BitVec 2) : State := pkg (team lvl)

/-- A team of two fibres in lanes 0 and 1, g20 holding 10 + 4 × lane. -/
def duo : Team := { team 1 with
  fibres := [(0, { Fibre.start false 0x1000 0 with regs := { regs with g := vset regs.g 20 10 } }),
    (1, { Fibre.start false 0x1000 0 with regs := { regs with g := vset regs.g 20 14 } })] }

/-- A team whose slots are all taken. -/
def full : Team := { team 1 with
  fibres := (List.range 32).map (fun n => (n, { Fibre.start false (if n = 0 then 0x1000 else 0x2000) 0 with regs := regs })) }

/-- A team with one fibre more, in its second wave. -/
def two : Team := { team 1 with
  nwaves := 2
  fibres := (team 1).fibres ++ [(32, Fibre.start false 0x2000 0)] }

/-- What a handler's entry saved: the batch of lane 0, and one unfinished word. -/
def save : HSave := { (default : HSave) with
  ss := [0, 0, 0, 0], batch := [0], gs := [⟨0, [7, 0, 0x2000, 0], [], [0, 0, 0, 0], []⟩]
  resume := [⟨0, 0x1008, 0, none⟩]
  replay := [⟨0, .ld Hdr.plain (.g 3) .w ⟨false, .g 2, none, 0⟩, 0x1000, [], [], [], false, []⟩] }

/-- A team whose wave is in a handler. -/
def trapped (h : HSave) : Team := { team 1 with waves := vset (team 1).waves 0 { (team 1).wave 0 with h := some h } }

/-- A team whose fibre holds halves of CSRs. -/
def latched : Team := { team 1 with
  fibres := (team 1).fibres.map (fun x => (x.1, { x.2 with latch := [(2, 5)], held := [(0x108, 0x1000)] })) }

/-- A parked access of lane 0. -/
def parkedOne : Parked := ⟨0, 0, 0, 0, 0, [(0, 0x9000, 0)], 0x1000, none, none, none⟩

/-- An unfinished load of lane 0, at a good address or not, and the team with it. -/
def lateLane (va : Nat) : LaneRec := ⟨0, { Cap.zero with av := BitVec.ofNat 128 va }, Cap.zero, 1, 1, false, 0, 0, 0⟩
def late (va : Nat) : Entry := ⟨0, .ld ⟨none, 1⟩ (.g 3) .w ⟨false, .g 2, none, 0⟩, 0x1000, [lateLane va], [], [0], false, []⟩
def busy (va : Nat) : Team := { team 1 with waves := vset (team 1).waves 0 { (team 1).wave 0 with unfinished := [late va] } }

/-- A team whose lane 0 has a load of g3 performed no more than issued, its window spent. -/
def owing : Team := { team 1 with waves := vset (team 1).waves 0 { (team 1).wave 0 with
  unfinished := [{ late 0x2000 with lanes := [{ lateLane 0x2000 with win := 0 }] }] } }

theorem owes_none {w : Wave} {l : Nat} (h : w.unfinished = []) : ∀ o, w.owes l o = false := by simp [Wave.owes, h]

/-- Two teams of priorities `p` and `q` ready on one datapath, at a value of CYC, each since another; both give way or neither. -/
def contend (p q : Nat) (cyc since0 since1 : DWord) (gives : Bool) : State :=
  let s := State.reset.bootWord 0
  { s with
    cores := [{ s.core 0 with cyc := cyc }]
    standing := [⟨0, 0, 0x1000, since0, gives⟩, ⟨1, 0, 0x1000, since1, gives⟩]
    teams := s.teams.flatMap (fun t => [{ t with work := { t.work with prio := p } },
      { t with agent := t.agent + 1, work := { t.work with prio := q }, waves := t.waves.map (fun w => { w with wslot := 2 }) }]) }

/-- A move of page 2. -/
def move (st : MvSt) (owned : Bool) (dest : Option (BitVec 2 × Nat)) (acks : List (BitVec 11)) : Move :=
  { (default : Move) with vpn := 2, st := st, owned := owned, dest := dest, acks := acks }

/-- A ring of die 0 with one entry, and a launch of one unit. -/
def ring (prio n : Nat) : Ring := ⟨0, 0, prio, [.range 0 0 1 n 0], [], false⟩
def launch : Launch := { (default : Launch) with count := 1 }

/-- A flit and a port that is up. -/
def flit : Flit := ⟨0, 0, 0, 0, 0, 0, 0, 0, 0, 0, 0, false, 0, 0, [], [], none⟩
def port : Port := { (default : Port) with up := true, rx0 := ⟨2, 0, 0, 0, 0⟩, tx0 := ⟨2, 0, 0, 0, 1⟩, retry := [flit] }

/-- A fragment, a vat, and core 0 with it. -/
def frag : Fragment := ⟨1, 0, 2, 0, 2, 0, 0, 8, [], [], none⟩
def vat (frags : List (Nat × List (BitVec 8))) (decoded : Bool) (len : BitVec 13) : Vat :=
  ⟨1, 2, 0, 0, 0, decoded, 2, 0, len, frags, [], [], false, none⟩
def vats (v : Vat) : State := { st 1 with cores := [{ Core.reset 0 with vats := [v] }] }

/-- A job of a card whose first word is ELOOP. -/
def loopJob : Job :=
  ⟨0, 0, 0, 1, .copy, .run, some { (default : Card) with cptr := 0x2800, cnt := 4 }, none, [], [], [], 0, 0, none, false, false,
    none, none, false, false, none, none, 0⟩

/-- A copy of no elements. -/
def emptyJob : Job :=
  ⟨0, 0, 0, 1, .copy, .run, none, some (.cpy Hdr.plain (.g 2) (.g 6) .zr 2 false false, ⟨false, 0x2000, false, 0x3000, 0, false, 0, 0⟩),
    [], [], [], 0, 0, none, false, false, none, none, false, false, none, none, 0⟩

/-- A team all of whose fibres wait in a WAITC, and one that waits in a FENCE. -/
def waiting : Team := { team 1 with
  since := some 0
  fibres := (team 1).fibres.map (fun x => (x.1, { x.2 with st := .stuck }))
  waves := vset (team 1).waves 0 { (team 1).wave 0 with stuck := [⟨0x1000, [0], [], .counter, none, [0], [], none⟩] } }
def fencing : Team := { team 1 with 
  fibres := (team 1).fibres.map (fun x => (x.1, { x.2 with remoteWrites := [2] }))
  waves := vset (team 1).waves 0 { (team 1).wave 0 with stuck := [⟨0x1100, [0], [], .fence, none, [0], [], some (.fence Hdr.plain (.g 2) 0)⟩] } }

/-- A team whose engine is configured, in FAC mode or not; q2 takes two signatures and q3 one. -/
def eng (fac : Bool) : Team := { team 1 with
  mat := some { MatState.zero with configured := true, fac := fac }
  z := vset (team 1).z 0 ((vget (team 1).z 0).set 0 0 0x3F80_0000)
  fibres := [(0, { Fibre.start false 0x1000 0 with regs := regs, sig := vset (vset (Fibre.start false 0 0).sig 3 true) 2 true })]
  q := [(2, { ConvReg.zero with st := 1, signed := 2, target := 2 }), (3, { ConvReg.zero with st := 1, signed := 1, target := 1 })].foldl
    (fun v x => vset v x.1 x.2) (team 1).q }

theorem frame_for {s : State} {p : Partition} {l : Nat} {c k : BitVec 11} (hl : l ≠ 0) (hc : s.physCore c = some k)
    (h : (s.freeFrame p (levelKind l) (levelUnit l k)).isSome = true) : (s.freeFrameFor p l c).isSome = true := by
  simp only [State.freeFrameFor, hl, if_false, hc, h]

/-- A schedule entry of that word at 0x2040, bound to counter 0. -/
def racking (w : Nat) : State :=
  { wide (st 1) with parts := [{ part with rackb := 0x2040, bindings := [⟨0, 0, 0, 0⟩] }] }.writeP 0x7040 16 w

/-- A copy amid its first chunk, at a page in motion. -/
def midway : State := { st 1 with
  jobs := [{ emptyJob with elem := 1, reads := [⟨false, 0x2800, 16⟩], writes := [⟨false, 0x2000, 16⟩], cmd := some (.cpy Hdr.plain (.g 2) (.g 6) .zr 2 false false, ⟨false, 0x2000, false, 0x2800, 0, false, 4, 0⟩) }]
  moves := [move .drain true none []] }

/-- A launch of counter 5 at every level, and one of none, with a ring that holds both, and a team of that counter. -/
def cancelling : State := { st 1 with
  launches := [{ launch with slots := ⟨some 5, some 5, some 5, some 5⟩ }, { launch with id := 1 }]
  rings := [{ ring 0 1 with entries := [.range 0 0 1 1 0, .range 1 0 1 1 0] }]
  teams := [{ team 1 with work := { work with slots := ⟨some 5, some 5, some 5, some 5⟩ } }] }

/-- A page whose owner is in a neighbour's strip, and core 1's replica of it is being filled. -/
def haloed : State := { ((wide (st 1)).writeP 0x2040 8 19).writeP 0x2048 8 (1 + 7 * 64 + 32 * 2 ^ 48) with
  fills := [⟨1, 0, 4, 0, 0, 20, []⟩] }

/-- Page 2 in a near frame of core 0, with a home frame. -/
def nearPage : State := { (st 1).writeLeaf 0x5020 (BitVec.ofNat 128 (entryWord mOwned 3 (2 ^ 39 + 0x20010) 0xFFF 0 + 3 * 128)) with
  homes := [⟨0, 2, 9, 2 ^ 39 + 0x20010⟩] }

/-- A PREM has halted its cores, and no stop is awaited. -/
def stopping : Team := { team 1 with waves := vset (team 1).waves 0 { (team 1).wave 0 with stuck := [⟨0x1000, [0], [], .stop, none, [0], [], none⟩] } }

/-- A batch stands blocked in NOP, and its block has ended. -/
def again : State :=
  let s := State.reset.bootWord 0
  { s with teams := s.teams.map (fun t => { t with
    fibres := t.fibres.map (fun x => (x.1, { x.2 with st := .stuck }))
    waves := vset t.waves 0 { t.wave 0 with stuck := [⟨0x1000, [0], [], .drain, none, [0], [], some .nop⟩] } }) }

/-- Two fibres of one wave, of which the lanes of a list issue. -/
def pairOf (l : List Nat) : State := { pkg duo with cur := some { batch with lanes := l, todo := l } }
def duoFibre (l : Nat) : Fibre := (duo.fibres.getD l (0, Fibre.start false 0 0)).2
theorem together_duo : Together (pairOf [0, 1]) { batch with lanes := [0, 1], todo := [0, 1] } duo duoFibre :=
  ⟨rfl, by decide +kernel, rfl, rfl, by decide, by decide, by decide, by decide +kernel, by decide +kernel, by decide +kernel⟩
theorem together_one : Together (pairOf [0]) batch duo duoFibre :=
  ⟨rfl, by decide +kernel, rfl, rfl, by decide, by decide, by decide, by decide +kernel, by decide +kernel, by decide +kernel⟩

/-- A job of a card of COLL whose table stands in a page of another package. -/
def tabled : State :=
  { (pkg { team 1 with scratch := [(4, 1), (9, 0x20)] }).writeLeaf 0x5020 (BitVec.ofNat 128 (entryWord mOwned 4 0 5 0)) with
    jobs := [{ emptyJob with eng := .fabric, reads := [⟨false, 0x2000, 4⟩]
                             cmd := some (.coll Hdr.plain (.g 2) (.g 6) (.g 4) 0 0, ⟨false, 0x2000, false, 0x3000, 0, false, 0, 0⟩) }] }

/-- The fibre issues alone, whatever else the package holds. -/
theorem solo (s : State) (t : Team) (g : Option Guard) (h1 : s.cur = some batch) (h2 : s.teams.head? = some t)
    (h3 : t.agent = 0) (h4 : t.liveLanes 0 = [0]) (h5 : t.work.yoke = false) (h6 : passes g t 0 0 = true)
    (h7 : ((t.wave 0).stuck.filter (·.isOf batch)).flatMap (·.unis) = []) : Solo s batch t 0 g := by
  refine ⟨h1, ?_, rfl, rfl, h4, h5, h6, rfl, h7⟩
  cases hs : s.teams with
  | nil => simp [hs] at h2
  | cons u l =>
    simp only [hs, List.head?_cons, Option.some.injEq] at h2
    subst h2
    simp [State.team?, hs, batch, h3]

theorem lone (s : State) (t : Team) (g : Option Guard) (h1 : s.cur = some batch) (h2 : s.teams.head? = some t)
    (h3 : t.agent = 0) (h5 : t.work.yoke = false) (h6 : passes g t 0 0 = true)
    (h7 : ((t.wave 0).stuck.filter (·.isOf batch)).flatMap (·.unis) = []) : Lone s batch t 0 g := by
  refine ⟨h1, ?_, rfl, rfl, h5, h6, rfl, h7⟩
  cases hs : s.teams with
  | nil => simp [hs] at h2
  | cons u l =>
    simp only [hs, List.head?_cons, Option.some.injEq] at h2
    subst h2
    simp [State.team?, hs, batch, h3]

theorem witness_IntegerTwoSources :
  (∃ p ∈ twoSources, ∃ (h : Hdr) (d a c : Opnd) (s : State) (b : Issue) (t : Team) (l : Nat) (u v : Word) (y z : LS),
      (Solo s b t l h.guard) ∧
      (Does (do L.check 1 [a, c] [d]; return (← L.rdW a, ← L.rdW c)) (b.start s t l) (u, v) y) ∧
      (Does (L.wrW d (p.2 u v)) y () z)) ∧
  (∃ (pos len : BitVec 5),
      ∃ p ∈ oneSources pos len, ∃ (h : Hdr) (d a : Opnd) (s : State) (b : Issue) (t : Team) (l : Nat) (u : Word) (y z : LS),
      (Solo s b t l h.guard) ∧
      (Does (do L.check 1 [a] [d]; L.rdW a) (b.start s t l) u y) ∧
      (Does (L.wrW d (p.2 u)) y () z)) ∧
  (∃ (h : Hdr) (d a : Opnd) (pos len : BitVec 5) (s : State) (b : Issue) (t : Team) (l : Nat) (u w : Word) (y z : LS),
      (Solo s b t l h.guard) ∧
      (Does (do L.check 1 [a] [d]; return (← L.rdW a, ← L.rdW d)) (b.start s t l) (u, w) y) ∧
      (Does (L.wrW d (BitVec.ofNat 32 (setBits w.toNat pos.toNat (len.toNat + 1) u.toNat))) y () z)) := by
  refine ⟨?_, ?_, ?_⟩
  · exact ⟨_, List.Mem.head _, Hdr.plain, .g 3, .g 1, .g 5, (st 1), batch, (team 1), 0, _, _, _, _,
      solo _ _ _ rfl rfl rfl (by decide +kernel) rfl (by decide +kernel) (by decide +kernel),
      does_out (by decide +kernel), does_out (by decide +kernel)⟩
  · exact ⟨0, 0, _, List.Mem.head _, Hdr.plain, .g 3, .g 1, (st 1), batch, (team 1), 0, _, _, _,
      solo _ _ _ rfl rfl rfl (by decide +kernel) rfl (by decide +kernel) (by decide +kernel),
      does_out (by decide +kernel), does_out (by decide +kernel)⟩
  · exact ⟨Hdr.plain, .g 3, .g 1, 0, 0, (st 1), batch, (team 1), 0, _, _, _, _,
      solo _ _ _ rfl rfl rfl (by decide +kernel) rfl (by decide +kernel) (by decide +kernel),
      does_out (by decide +kernel), does_out (by decide +kernel)⟩

theorem witness_MultiplyAdd :
  (∃ (h : Hdr) (d a c : Opnd) (s : State) (b : Issue) (t : Team) (l : Nat) (u v w : Word) (y z : LS),
      (Solo s b t l h.guard) ∧
      (Does (do L.check 1 [a, c] [d]; return (← L.rdW a, ← L.rdW c, ← L.rdW d)) (b.start s t l) (u, v, w) y) ∧
      (Does (L.wrW d (BitVec.ofNat 32 (u.toNat * v.toNat + w.toNat))) y () z)) ∧
  (∃ (h : Hdr) (d a c : Opnd),
      ((Instr.mad h d a c).wf = true)) := by
  refine ⟨?_, ?_⟩
  · exact ⟨Hdr.plain, .g 3, .g 1, .g 5, (st 1), batch, (team 1), 0, _, _, _, _, _,
      solo _ _ _ rfl rfl rfl (by decide +kernel) rfl (by decide +kernel) (by decide +kernel),
      does_out (by decide +kernel), does_out (by decide +kernel)⟩
  · exact ⟨Hdr.plain, .g 3, .g 1, .g 5, by decide +kernel⟩

theorem witness_CompareAndSelect :
  (∃ p ∈ intRels, ∃ (h : Hdr) (d a c : Opnd) (wide : Bool) (pb : BitVec 5) (s : State) (b : Issue) (t : Team) (l : Nat) (u v w : Word) (y z : LS),
      (Solo s b t l h.guard) ∧
      (Does (do L.check 1 [a, c] [d]; return (← L.rdW a, ← L.rdW c, ← L.rdW d)) (b.start s t l) (u, v, w) y) ∧
      (Does (L.wrW d (BitVec.ofNat 32 (setBits w.toNat pb.toNat 2 (if p.2 u v then 1 else 2)))) y () z)) ∧
  (∃ (h : Hdr) (d a c : Opnd) (cr : BitVec 6) (cb : BitVec 5) (s : State) (b : Issue) (t : Team) (l : Nat) (w u v : Word) (y z : LS),
      (Solo s b t l h.guard) ∧
      (Does (do L.checkG cr.toNat; L.check 1 [a, c] [d]; return (← L.rdG cr.toNat, ← L.rdW a, ← L.rdW c)) (b.start s t l)
      (w, u, v) y) ∧
      (Does (L.wrW d (if w.getLsbD cb.toNat then u else v)) y () z)) ∧
  (∃ (h : Hdr) (d a c : Opnd) (s : State) (b : Issue) (t : Team) (l : Nat) (u v : Word) (g : Nat) (y z : LS),
      (Solo s b t l h.guard) ∧
      (Does (do L.check 1 [a, c] [d]; return (← L.rdW a, ← L.rdW c, (← L.team).gWin)) (b.start s t l) (u, v, g) y) ∧
      (u.toNat < 2 ^ 16) ∧
      (v.toNat < 2 ^ 16) ∧
      (v.toNat ≤ g) ∧
      (Does (L.wrW d (v.extractLsb' 0 16 ++ u.extractLsb' 0 16)) y () z)) ∧
  (∃ (h : Hdr) (d a c : Opnd) (s : State) (b : Issue) (t : Team) (l : Nat) (u v : Word) (y z : LS),
      (Solo s b t l h.guard) ∧
      (Does (do L.check 1 [a, c] [d]; return (← L.rdW a, ← L.rdW c)) (b.start s t l) (u, v) y) ∧
      (Does (L.wrW d ((u.extractLsb' 0 16).setWidth 32 + v)) y () z)) ∧
  (∃ (h : Hdr) (d : Opnd) (wid : Wid) (m : MemOpnd) (s : State) (b : Issue) (t : Team) (l av bv : Nat) (y z : LS),
      (Solo s b t l h.guard) ∧
      (m.scratch = true) ∧
      (Does (do L.checkAddr m; L.checkReg d; L.addrOps m) (b.start s t l) (av, bv) y) ∧
      (Does (L.wrW d (BitVec.ofInt 32 (av + m.off.toInt * widSize wid + (BitVec.ofNat 32 bv).toInt))) y () z)) ∧
  (∃ (h : Hdr) (d : Opnd) (wid : Wid) (m : MemOpnd) (s : State) (b : Issue) (t : Team) (l av bv : Nat) (y z : LS),
      (Solo s b t l h.guard) ∧
      (m.scratch = false) ∧
      (Does (do L.checkAddr m; L.checkReg d; L.addrOps m) (b.start s t l) (av, bv) y) ∧
      (((av + m.off.toInt * widSize wid + (BitVec.ofNat 32 bv).toInt) % 2 ^ 64).toNat < 2 ^ 52) ∧
      (Does (L.wrPair d ((av + m.off.toInt * widSize wid + (BitVec.ofNat 32 bv).toInt) % 2 ^ 64).toNat) y () z)) ∧
  (∃ (h : Hdr) (d : Opnd) (imm : BitVec 29) (s : State) (b : Issue) (t : Team) (l : Nat) (z : LS),
      (Solo s b t l h.guard) ∧
      (Does (L.wrW d (imm.signExtend 32)) (b.start s t l) () z)) ∧
  (∃ (h : Hdr) (d : Opnd) (imm : BitVec 16) (s : State) (b : Issue) (t : Team) (l : Nat) (w : Word) (y z : LS),
      (Solo s b t l h.guard) ∧
      (Does (L.rdW d) (b.start s t l) w y) ∧
      (Does (L.wrW d (imm ++ w.extractLsb' 0 16)) y () z)) ∧
  (∃ (h : Hdr) (d : Opnd) (s : State) (b : Issue) (t : Team) (l : Nat) (y z : LS),
      ∃ p ∈ identityOf s b t l, (Solo s b t l h.guard) ∧
      (Does (L.checkReg d) (b.start s t l) () y) ∧
      (Does (L.wrW d p.2) y () z)) := by
  refine ⟨?_, ?_, ?_, ?_, ?_, ?_, ?_, ?_, ?_⟩
  · exact ⟨_, List.Mem.head _, Hdr.plain, .g 3, .g 1, .g 5, false, 0, (st 1), batch, (team 1), 0, _, _, _, _, _,
      solo _ _ _ rfl rfl rfl (by decide +kernel) rfl (by decide +kernel) (by decide +kernel),
      does_out (by decide +kernel), does_out (by decide +kernel)⟩
  · exact ⟨Hdr.plain, .g 3, .g 1, .g 5, 0, 0, (st 1), batch, (team 1), 0, _, _, _, _, _,
      solo _ _ _ rfl rfl rfl (by decide +kernel) rfl (by decide +kernel) (by decide +kernel),
      does_out (by decide +kernel), does_out (by decide +kernel)⟩
  · exact ⟨Hdr.plain, .i 2, .g 1, .g 16, (st 1), batch, (team 1), 0, _, _, _, _, _,
      solo _ _ _ rfl rfl rfl (by decide +kernel) rfl (by decide +kernel) (by decide +kernel),
      does_out (by decide +kernel), by decide +kernel, by decide +kernel, by decide +kernel,
      does_out (by decide +kernel)⟩
  · exact ⟨Hdr.plain, .g 3, .i 1, .g 5, (st 1), batch, (team 1), 0, _, _, _, _,
      solo _ _ _ rfl rfl rfl (by decide +kernel) rfl (by decide +kernel) (by decide +kernel),
      does_out (by decide +kernel), does_out (by decide +kernel)⟩
  · exact ⟨Hdr.plain, .g 3, .w, ⟨true, .g 1, some (.g 4), 2⟩, (st 1), batch, (team 1), 0, _, _, _, _,
      solo _ _ _ rfl rfl rfl (by decide +kernel) rfl (by decide +kernel) (by decide +kernel),
      by decide +kernel, does_out (by decide +kernel), does_out (by decide +kernel)⟩
  · exact ⟨Hdr.plain, .g 20, .w, ⟨false, .g 2, none, 0⟩, (st 1), batch, (team 1), 0, _, _, _, _,
      solo _ _ _ rfl rfl rfl (by decide +kernel) rfl (by decide +kernel) (by decide +kernel),
      by decide +kernel, does_out (by decide +kernel), by decide +kernel, does_out (by decide +kernel)⟩
  · exact ⟨Hdr.plain, .g 3, 0, (st 1), batch, (team 1), 0, _,
      solo _ _ _ rfl rfl rfl (by decide +kernel) rfl (by decide +kernel) (by decide +kernel),
      does_out (by decide +kernel)⟩
  · exact ⟨Hdr.plain, .g 3, 0, (st 1), batch, (team 1), 0, _, _, _,
      solo _ _ _ rfl rfl rfl (by decide +kernel) rfl (by decide +kernel) (by decide +kernel),
      does_out (by decide +kernel), does_out (by decide +kernel)⟩
  · exact ⟨Hdr.plain, .g 3, (st 1), batch, (team 1), 0, _, _, _, List.Mem.head _,
      solo _ _ _ rfl rfl rfl (by decide +kernel) rfl (by decide +kernel) (by decide +kernel),
      does_out (by decide +kernel), does_out (by decide +kernel)⟩

theorem witness_Divisions :
  ∃ p ∈ divisions, ∃ (h : Hdr) (d a c : Opnd) (s : State) (b : Issue) (t : Team) (l : Nat) (u v : Word) (ix : QWord) (y y' z : LS),
      (Solo s b t l h.guard) ∧
      (h.la = 0) ∧
      (Does (do L.check 1 [a, c] [d]; return (← L.rdW a, ← L.rdW c, ← L.destIndex d)) (b.start s t l) (u, v, ix) y) ∧
      (Does (L.behind (destsOf (p.1 h d a c) (capOf u v ix))) y false y') ∧
      (Does (L.landNow (p.1 h d a c) (capOf u v ix) ((p.2 u v).setWidth 128) 0) y' () z) :=
  ⟨_, List.Mem.head _, Hdr.plain, .g 3, .g 1, .g 5, (st 1), batch, (team 1), 0, _, _, _, _, _, _,
      solo _ _ _ rfl rfl rfl (by decide +kernel) rfl (by decide +kernel) (by decide +kernel),
      by decide +kernel, does_out (by decide +kernel), does_is (by decide +kernel) (by decide +kernel),
      does_out (by decide +kernel)⟩

theorem witness_AffineUnit :
  (∃ (h : Hdr) (n : BitVec 3) (a c : Opnd) (s : State) (b : Issue) (t : Team) (l : Nat) (u v : Word) (y : LS),
      (Solo s b t l h.guard) ∧
      (Does (do L.checkRegs [a, c]; L.wholeWave; return (← L.uniformW a, ← L.uniformW c)) (b.start s t l) (u, v) y)) ∧
  (∃ (h : Hdr) (n k : BitVec 3) (c : Opnd) (s : State) (b : Issue) (t : Team) (l : Nat) (base stride v : Word) (y : LS),
      (Solo s b t l h.guard) ∧
      (vget (t.wave b.wave).a k.toNat = (base, stride)) ∧
      (Does (do L.checkReg c; L.wholeWave; L.uniformW c) (b.start s t l) v y)) ∧
  (∃ (h : Hdr) (n : BitVec 3) (r : BitVec 6) (s : State) (b : Issue) (t : Team) (base stride : Word),
      (s.cur = some b) ∧
      (s.team? b.agent = some t) ∧
      (b.todo = b.lanes) ∧
      (t.liveLanes b.wave = b.lanes) ∧
      (t.work.yoke = false) ∧
      (b.wave < 32) ∧
      (h.guard = none) ∧
      (((t.wave b.wave).stuck.filter (·.isOf b)).flatMap (·.unis) = []) ∧
      ((∀ k ∈ b.lanes, (t.wave b.wave).owes k (.g r) = false)) ∧
      (0 ∈ b.lanes) ∧
      (1 ∈ b.lanes) ∧
      (b.lanes.Nodup) ∧
      (r.toNat < t.gWin) ∧
      ((∀ k ∈ b.lanes, ∃ f, t.fibre? (t.slot b.wave k) = some f ∧ f.regs.bad = [] ∧
      vget f.regs.g r.toNat = base + stride * BitVec.ofNat 32 k))) := by
  refine ⟨?_, ?_, ?_⟩
  · exact ⟨Hdr.plain, 0, .s 1, .s 2, (st 1), batch, (team 1), 0, _, _, _,
      solo _ _ _ rfl rfl rfl (by decide +kernel) rfl (by decide +kernel) (by decide +kernel),
      does_out (by decide +kernel)⟩
  · exact ⟨Hdr.plain, 0, 0, .s 1, (st 1), batch, (team 1), 0, _, _, _, _,
      solo _ _ _ rfl rfl rfl (by decide +kernel) rfl (by decide +kernel) (by decide +kernel), pair_out,
      does_out (by decide +kernel)⟩
  · exact ⟨Hdr.plain, 0, 20,
      (pkg duo |> fun s => { s with cur := some { batch with lanes := [0, 1], todo := [0, 1] } }),
      { batch with lanes := [0, 1], todo := [0, 1] }, duo, 10, 4, rfl, rfl, by decide +kernel,
      by decide +kernel, by decide +kernel, id (by decide +kernel), by decide +kernel, by decide +kernel,
      by decide +kernel, id (by decide +kernel), by decide +kernel, by decide +kernel, by decide +kernel,
      id (by decide +kernel)⟩

theorem witness_Branches :
  (∃ (s : State) (b : Issue) (t : Team) (l : Nat),
      (Solo s b t l none)) ∧
  (∃ (h : Hdr) (s : State) (b : Issue) (t : Team) (l : Nat),
      (Solo s b t l h.guard)) ∧
  (∃ (h : Hdr) (off : BitVec 29) (s : State) (b : Issue) (t : Team) (l : Nat),
      (Solo s b t l h.guard)) ∧
  (∃ (r : BitVec 6) (bit : BitVec 5) (off : BitVec 29) (s : State) (b : Issue) (t : Team) (l : Nat) (v : Word) (y : LS),
      (Solo s b t l none) ∧
      (Does (L.rdG r.toNat) (b.start s t l) v y)) ∧
  (∃ p ∈ [Instr.brx, Instr.ret], ∃ (h : Hdr) (a : Opnd) (s : State) (b : Issue) (t : Team) (l v : Nat) (y : LS),
      (Solo s b t l h.guard) ∧
      (Does (L.rdPair a) (b.start s t l) v y) ∧
      (v < 2 ^ 52) ∧
      (v % 8 = 0)) ∧
  (∃ (h : Hdr) (d : Opnd) (off : BitVec 29) (s : State) (b : Issue) (t : Team) (l : Nat) (y : LS),
      (Solo s b t l h.guard) ∧
      (Does (L.wrPair d (b.pc + 8).toNat) (b.start s t l) () y)) ∧
  (∃ (h : Hdr) (d a : Opnd) (s : State) (b : Issue) (t : Team) (l v : Nat) (y z : LS),
      (Solo s b t l h.guard) ∧
      (Does (L.rdPair a) (b.start s t l) v y) ∧
      (v < 2 ^ 52) ∧
      (v % 8 = 0) ∧
      (Does (L.wrPair d (b.pc + 8).toNat) y () z)) := by
  refine ⟨?_, ?_, ?_, ?_, ?_, ?_, ?_⟩
  · exact ⟨(st 1), batch, (team 1), 0,
      solo _ _ _ rfl rfl rfl (by decide +kernel) rfl (by decide +kernel) (by decide +kernel)⟩
  · exact ⟨Hdr.plain, (st 1), batch, (team 1), 0,
      solo _ _ _ rfl rfl rfl (by decide +kernel) rfl (by decide +kernel) (by decide +kernel)⟩
  · exact ⟨Hdr.plain, 0, (st 1), batch, (team 1), 0,
      solo _ _ _ rfl rfl rfl (by decide +kernel) rfl (by decide +kernel) (by decide +kernel)⟩
  · exact ⟨4, 2, 0, (st 1), batch, (team 1), 0, _, _,
      solo _ _ _ rfl rfl rfl (by decide +kernel) rfl (by decide +kernel) (by decide +kernel),
      does_out (by decide +kernel)⟩
  · exact ⟨_, List.Mem.head _, Hdr.plain, .g 12, (st 1), batch, (team 1), 0, _, _,
      solo _ _ _ rfl rfl rfl (by decide +kernel) rfl (by decide +kernel) (by decide +kernel),
      does_out (by decide +kernel), by decide +kernel, by decide +kernel⟩
  · exact ⟨Hdr.plain, .g 20, 0, (st 1), batch, (team 1), 0, _,
      solo _ _ _ rfl rfl rfl (by decide +kernel) rfl (by decide +kernel) (by decide +kernel),
      does_out (by decide +kernel)⟩
  · exact ⟨Hdr.plain, .g 20, .g 12, (st 1), batch, (team 1), 0, _, _, _,
      solo _ _ _ rfl rfl rfl (by decide +kernel) rfl (by decide +kernel) (by decide +kernel),
      does_out (by decide +kernel), by decide +kernel, by decide +kernel, does_out (by decide +kernel)⟩

theorem witness_SpawnAndEnd :
  (∃ (h : Hdr) (k : BitVec 6) (off : BitVec 29) (s : State) (b : Issue) (t : Team) (l : Nat) (f : Fibre) (n : Nat) (z : LS),
      (Solo s b t l h.guard) ∧
      (k.toNat < t.gWin) ∧
      (t.fibre? (t.slot b.wave l) = some f) ∧
      (f.shadow = none) ∧
      (t.childSlot b.wave = some n) ∧
      (Does L.landedAll (b.start s t l) () (b.start s t l)) ∧
      (Does (L.wrW (.g k) (BitVec.ofNat 32 n)) { b.start s t l with
      st := s.updTeam b.agent (·.addFibre n { Fibre.start false (branchTo b off) (n * (4 * t.gWin + 8 * t.fWin)) with
        regs := { f.regs with
          g := vset f.regs.g k.toNat (0x8000_0000 + BitVec.ofNat 32 (t.slot b.wave l))
          bad := f.regs.bad.erase (false, k.toNat) }
        grp := s.tick * 2048 + 2
        remoteWrites := f.remoteWrites
        own := if (t.wave (n / t.width)).h.isSome then some (if t.work.lvl then 1 else 0) else none }) } () z)) ∧
  (∃ (h : Hdr) (k : BitVec 6) (off : BitVec 29) (s : State) (b : Issue) (t : Team) (l : Nat) (z : LS),
      (Lone s b t l h.guard) ∧
      (k.toNat < t.gWin) ∧
      (t.childSlot b.wave = none) ∧
      (Does (L.wrW (.g k) 0xFFFF_FFFF) (b.start s t l) () z)) ∧
  (∃ (h : Hdr) (s : State) (b : Issue) (t : Team) (l : Nat),
      (Solo s b t l h.guard) ∧
      ((t.wave b.wave).pendingLane l = false) ∧
      (t.fibres.length ≠ 1) ∧
      ((t.wave b.wave).fromUser = false)) ∧
  (∃ (h : Hdr) (s : State) (b : Issue) (t : Team) (l : Nat),
      (Solo s b t l h.guard) ∧
      ((t.wave b.wave).pendingLane l = false) ∧
      (t.fibres.length = 1) ∧
      (s.endAwaits t = false) ∧
      (s.activeJobs b.agent = []) ∧
      ((t.wave b.wave).fromUser = false)) := by
  refine ⟨?_, ?_, ?_, ?_⟩
  · exact ⟨Hdr.plain, 20, 0, (st 1), batch, (team 1), 0, _, _, _,
      solo _ _ _ rfl rfl rfl (by decide +kernel) rfl (by decide +kernel) (by decide +kernel),
      by decide +kernel, some_out (by decide +kernel), by decide +kernel, some_out (by decide +kernel),
      does_val (by decide +kernel) rfl (by decide +kernel), does_out (by decide +kernel)⟩
  · exact ⟨Hdr.plain, 20, 0, (pkg full), batch, full, 0, _,
      lone _ _ _ rfl rfl rfl rfl (by decide +kernel) (by decide +kernel), by decide +kernel,
      by decide +kernel, does_out (by decide +kernel)⟩
  · exact ⟨Hdr.plain, (pkg two), batch, two, 0,
      solo _ _ _ rfl rfl rfl (by decide +kernel) rfl (by decide +kernel) (by decide +kernel),
      by decide +kernel, by decide +kernel, by decide +kernel⟩
  · exact ⟨Hdr.plain, (st 1), batch, (team 1), 0,
      solo _ _ _ rfl rfl rfl (by decide +kernel) rfl (by decide +kernel) (by decide +kernel),
      by decide +kernel, by decide +kernel, by decide +kernel, id (by decide +kernel), by decide +kernel⟩

theorem witness_MaskWords :
  (∃ (h : Hdr) (k : BitVec 4) (s : State) (b : Issue) (t : Team) (l : Nat) (m a : Word),
      (Solo s b t l h.guard) ∧
      (vget (t.wave b.wave).m k.toNat = (m, a))) ∧
  (∃ (h : Hdr) (k : BitVec 4) (s : State) (b : Issue) (t : Team) (l : Nat) (m a : Word),
      (Solo s b t l h.guard) ∧
      (vget (t.wave b.wave).m k.toNat = (m, a)) ∧
      (m.getLsbD l = true)) ∧
  (∃ (h : Hdr) (k : BitVec 4) (s : State) (b : Issue) (t : Team) (l : Nat) (m a : Word),
      (Solo s b t l h.guard) ∧
      (vget (t.wave b.wave).m k.toNat = (m, a)) ∧
      (m.getLsbD l = false)) ∧
  (∃ (h : Hdr) (d : Opnd) (k : BitVec 4) (arr : Bool) (s : State) (b : Issue) (t : Team) (l : Nat) (m a : Word) (z : LS),
      (Solo s b t l h.guard) ∧
      (vget (t.wave b.wave).m k.toNat = (m, a)) ∧
      (Does (L.wrW d (if arr then a else m)) (b.start s t l) () z)) ∧
  (∃ p ∈ ([(0, fun v _ r => (v, r &&& v)), (1, fun v m r => (m ||| v, r)),
      (2, fun v m r => (m &&& ~~~ v, r &&& (m &&& ~~~ v)))] : List (BitVec 4 × (Word → Word → Word → Word × Word))), ∃ (h : Hdr) (a : Opnd) (k : BitVec 4) (s : State) (b : Issue) (t : Team) (l : Nat) (v m r : Word) (y : LS),
      (Solo s b t l h.guard) ∧
      (Does (L.rdW a) (b.start s t l) v y) ∧
      ((y.st.wave? b.agent b.wave).map (fun w => vget w.m k.toNat) = some (m, r))) ∧
  (∃ (h : Hdr) (d a : Opnd) (s : State) (b : Issue) (t : Team) (l : Nat) (v w : Word) (y y' z : LS),
      (Solo s b t l h.guard) ∧
      (Does (do L.checkRegs [a, d]; L.rdW a) (b.start s t l) v y) ∧
      (Does (L.rdW a) { y with st := y.st0 } w y') ∧
      (Does (L.wrW d (if w ≠ 0 then laneBit l else 0)) y () z)) ∧
  (∃ (h : Hdr) (again : Bool) (s : State) (b : Issue) (t : Team) (l : Nat),
      (Solo s b t l h.guard)) := by
  refine ⟨?_, ?_, ?_, ?_, ?_, ?_, ?_⟩
  · exact ⟨Hdr.plain, 0, (st 1), batch, (team 1), 0, _, _,
      solo _ _ _ rfl rfl rfl (by decide +kernel) rfl (by decide +kernel) (by decide +kernel), pair_out⟩
  · exact ⟨Hdr.plain, 1, (st 1), batch, (team 1), 0, _, _,
      solo _ _ _ rfl rfl rfl (by decide +kernel) rfl (by decide +kernel) (by decide +kernel), pair_out,
      by decide +kernel⟩
  · exact ⟨Hdr.plain, 0, (st 1), batch, (team 1), 0, _, _,
      solo _ _ _ rfl rfl rfl (by decide +kernel) rfl (by decide +kernel) (by decide +kernel), pair_out,
      by decide +kernel⟩
  · exact ⟨Hdr.plain, .g 3, 0, false, (st 1), batch, (team 1), 0, _, _, _,
      solo _ _ _ rfl rfl rfl (by decide +kernel) rfl (by decide +kernel) (by decide +kernel), pair_out,
      does_out (by decide +kernel)⟩
  · exact ⟨_, List.Mem.head _, Hdr.plain, .s 1, 0, (st 1), batch, (team 1), 0, _, _, _, _,
      solo _ _ _ rfl rfl rfl (by decide +kernel) rfl (by decide +kernel) (by decide +kernel),
      does_out (by decide +kernel), some_out (by decide +kernel)⟩
  · exact ⟨Hdr.plain, .g 3, .g 1, (st 1), batch, (team 1), 0, _, _, _, _, _,
      solo _ _ _ rfl rfl rfl (by decide +kernel) rfl (by decide +kernel) (by decide +kernel),
      does_out (by decide +kernel), does_out (by decide +kernel), does_out (by decide +kernel)⟩
  · exact ⟨Hdr.plain, false, (st 1), batch, (team 1), 0,
      solo _ _ _ rfl rfl rfl (by decide +kernel) rfl (by decide +kernel) (by decide +kernel)⟩

theorem witness_ConvergenceRegisters :
  (∃ (h : Hdr) (a : Opnd) (q : BitVec 3) (s : State) (b : Issue) (t : Team) (l : Nat) (v : Word) (y : LS) (t' : Team),
      (Solo s b t l h.guard) ∧
      (Does (L.rdW a) (b.start s t l) v y) ∧
      (y.st.team? b.agent = some t') ∧
      ((vget t'.q q.toNat).st.toNat < 2)) ∧
  (∃ (h : Hdr) (q : BitVec 3) (s : State) (b : Issue) (t : Team) (l : Nat) (f : Fibre) (r : ConvReg),
      (Solo s b t l h.guard) ∧
      (vget t.q q.toNat = r) ∧
      (r.st ≠ 0) ∧
      (t.fibre? (t.slot b.wave l) = some f) ∧
      (vget f.sig q.toNat = true)) ∧
  (∃ (h : Hdr) (q : BitVec 3) (s : State) (b : Issue) (t : Team) (l : Nat) (f : Fibre) (r : ConvReg),
      (Solo s b t l h.guard) ∧
      (vget t.q q.toNat = r) ∧
      (r.st ≠ 0) ∧
      (t.fibre? (t.slot b.wave l) = some f) ∧
      (vget f.sig q.toNat = false) ∧
      (r.signed < (if r.target = 0 then 1024 else r.target.toNat))) ∧
  (∃ (h : Hdr) (d a : Opnd) (set : BitVec 4) (s : State) (b : Issue) (t : Team) (l base e : Nat) (hds : List Nat) (y y1 y2 y3 z : LS) (t' : Team) (f : Fibre),
      (Solo s b t l h.guard) ∧
      (Does (do L.checkPage a [d]; L.pageAddr 0 a) (b.start s t l) base y) ∧
      (base % 64 = 0) ∧
      (Does (L.headers base (maskMacros set).length) y hds y1) ∧
      (((maskMacros set).zip hds).any (fun x => headerBad x.1 x.2) = false) ∧
      (y1.st.team? b.agent = some t') ∧
      ((List.range 64).find? (fun e => !t'.forks.any (fun (k : ForkEntry) => k.ent == e)) = some e) ∧
      (y1.st.jobRoom (coreOf b.agent) (maskMacros set).length = true) ∧
      (Does (L.release 0) y1 () y2) ∧
      (Does L.landedAll y2 () y2) ∧
      (y2.st.fibre? b.agent b.wave l = some f) ∧
      (Does (((maskMacros set).zip hds).forM (fun x => do
      L.effect ⟨true, base, x.2⟩
      L.modSt (·.submit b.agent (BitVec.ofNat 2 y1.lvl) (engOfNum x.1)
        (some ⟨BitVec.ofNat 52 (x.2 / 2 ^ 64), x.2 / 2 ^ 12 % 2 ^ 12, f.regs.g, ((y2.st.wave? b.agent b.wave).getD (t.wave b.wave)).s, ((y2.st.wave? b.agent b.wave).getD (t.wave b.wave)).a, l, (f.regs.bad.filter (!·.1)).map (·.2)⟩)
        none (headerRanges x.2 16 (x.2 / 2 ^ 4 % 2 ^ 4)) (headerRanges x.2 40 (x.2 / 2 ^ 8 % 2 ^ 4)) none (some e)))) y2 () y3) ∧
      (Does (L.wrW d (t'.forkSeq ++ BitVec.ofNat 6 e)) { y3 with st := y3.st.updTeam b.agent (fun t => { t with
      forks := t.forks ++ [⟨e, t'.forkSeq, (List.range (maskMacros set).length).map (y1.st.nextJob + ·)⟩], forkSeq := if t.forkSeq = 0x3FF_FFFF then 1 else t.forkSeq + 1 }) } () z)) ∧
  (∃ (h : Hdr) (d a : Opnd) (s : State) (b : Issue) (t : Team) (l : Nat) (v : Word) (y z : LS) (t' : Team),
      (Solo s b t l h.guard) ∧
      (Does (do L.checkRegs [a, d]; L.rdW a) (b.start s t l) v y) ∧
      (y.st.team? b.agent = some t') ∧
      (t'.forks.find? (fun e => e.ent = v.toNat % 64 ∧ e.seq = v.extractLsb' 6 26) = none) ∧
      (Does (L.wrW d 0x100) { y with closes := true } () z)) ∧
  (∃ (h : Hdr) (d a : Opnd) (s : State) (b : Issue) (t : Team) (l : Nat) (v : Word) (y z : LS) (t' : Team) (e : ForkEntry),
      (Solo s b t l h.guard) ∧
      (Does (do L.checkRegs [a, d]; L.rdW a) (b.start s t l) v y) ∧
      (y.st.team? b.agent = some t') ∧
      (t'.forks.find? (fun e => e.ent = v.toNat % 64 ∧ e.seq = v.extractLsb' 6 26) = some e) ∧
      (e.jobs.all y.st.jobOver = true) ∧
      (Does (L.wrW d (statusOf (y.st.jobsOf e.jobs))) { y with closes := true } () z)) := by
  refine ⟨?_, ?_, ?_, ?_, ?_, ?_⟩
  · exact ⟨Hdr.plain, .g 1, 2, (st 1), batch, (team 1), 0, _, _, _,
      solo _ _ _ rfl rfl rfl (by decide +kernel) rfl (by decide +kernel) (by decide +kernel),
      does_out (by decide +kernel), some_out (by decide +kernel), by decide +kernel⟩
  · exact ⟨Hdr.plain, 3, (st 1), batch, (team 1), 0, _, _,
      solo _ _ _ rfl rfl rfl (by decide +kernel) rfl (by decide +kernel) (by decide +kernel), rfl,
      by decide +kernel, some_out (by decide +kernel), by decide +kernel⟩
  · exact ⟨Hdr.plain, 1, (st 1), batch, (team 1), 0, _, _,
      solo _ _ _ rfl rfl rfl (by decide +kernel) rfl (by decide +kernel) (by decide +kernel), rfl,
      by decide +kernel, some_out (by decide +kernel), by decide +kernel, by decide +kernel⟩
  · exact ⟨Hdr.plain, .g 3, .g 2, 2, (st 1), batch, (team 1), 0, _, _, _, _, _, _, _, _, _, _,
      solo _ _ _ rfl rfl rfl (by decide +kernel) rfl (by decide +kernel) (by decide +kernel),
      does_out (by decide +kernel), by decide +kernel, does_out (by decide +kernel), by decide +kernel,
      some_out (by decide +kernel), some_out (by decide +kernel), by decide +kernel,
      does_out (by decide +kernel), does_val (by decide +kernel) rfl (by decide +kernel),
      some_out (by decide +kernel), does_out (by decide +kernel), does_out (by decide +kernel)⟩
  · exact ⟨Hdr.plain, .g 3, .g 1, (st 1), batch, (team 1), 0, _, _, _, _,
      solo _ _ _ rfl rfl rfl (by decide +kernel) rfl (by decide +kernel) (by decide +kernel),
      does_out (by decide +kernel), some_out (by decide +kernel), by decide +kernel,
      does_out (by decide +kernel)⟩
  · exact ⟨Hdr.plain, .g 3, .g 30, (st 1), batch, (team 1), 0, _, _, _, _, _,
      solo _ _ _ rfl rfl rfl (by decide +kernel) rfl (by decide +kernel) (by decide +kernel),
      does_out (by decide +kernel), some_out (by decide +kernel), some_out (by decide +kernel),
      by decide +kernel, does_out (by decide +kernel)⟩

theorem witness_CounterWords :
  (∃ (h : Hdr) (a : Opnd) (rlx : Bool) (s : State) (b : Issue) (t : Team) (l : Nat) (v : Word) (p q : Partition) (y z z' : LS),
      (Solo s b t l h.guard) ∧
      (Does (do L.checkReg a; return (← L.rdW a, ← L.part)) (b.start s t l) (v, p) y) ∧
      (Does (if rlx then pure () else L.release (p.counter (v.toNat % 2 ^ 12)).scope) y () z) ∧
      (Does L.part z q z')) ∧
  (∃ (h : Hdr) (a c : Opnd) (s : State) (b : Issue) (t : Team) (l : Nat) (u v : Word) (p : Partition) (y : LS),
      (Solo s b t l h.guard) ∧
      (Does (do L.checkRegs [a, c]; return (← L.rdW a, ← L.part, ← L.rdW c)) (b.start s t l) (u, p, v) y) ∧
      (((p.counter (u.toNat % 2 ^ 12)).count - v).toNat < 2 ^ 31)) ∧
  (∃ (lvl : BitVec 2),
      ∃ op ∈ cntrOps lvl, ∃ (h : Hdr) (d a c : Opnd) (s : State) (b : Issue) (t : Team) (l : Nat) (u v : Word) (p : Partition) (y z : LS),
      (Solo s b t l h.guard) ∧
      (Does (do (if 2 ≤ op.1.toNat then L.needLevel 1 else pure ()); L.check 1 [a, c] [d]; return (← L.rdW a, ← L.rdW c, ← L.part))
      (b.start s t l) (u, v, p) y) ∧
      (Does (L.wrW d (p.counter (u.toNat % 2 ^ 12)).count) { y with
      st := y.st.updPart p.id (fun r => r.setCounter (u.toNat % 2 ^ 12) (op.2 v (p.counter (u.toNat % 2 ^ 12)))) } () z)) := by
  refine ⟨?_, ?_, ?_⟩
  · exact ⟨Hdr.plain, .g 1, false, (st 1), batch, (team 1), 0, _, _, _, _, _, _,
      solo _ _ _ rfl rfl rfl (by decide +kernel) rfl (by decide +kernel) (by decide +kernel),
      does_out (by decide +kernel), does_out (by decide +kernel), does_out (by decide +kernel)⟩
  · exact ⟨Hdr.plain, .g 1, .zr, (st 1), batch, (team 1), 0, _, _, _, _,
      solo _ _ _ rfl rfl rfl (by decide +kernel) rfl (by decide +kernel) (by decide +kernel),
      does_out (by decide +kernel), by decide +kernel⟩
  · exact ⟨0, _, List.Mem.head _, Hdr.plain, .g 3, .g 1, .g 5, (st 1), batch, (team 1), 0, _, _, _, _, _,
      solo _ _ _ rfl rfl rfl (by decide +kernel) rfl (by decide +kernel) (by decide +kernel),
      does_out (by decide +kernel), does_out (by decide +kernel)⟩

theorem witness_ChannelWords :
  (∃ (h : Hdr) (d : Opnd) (c : BitVec 6) (s : State) (b : Issue) (t : Team) (l : Nat) (y z : LS),
      (Solo s b t l h.guard) ∧
      ((vget t.c c.toNat).v = false) ∧
      (Does (L.checkReg d) (b.start s t l) () y) ∧
      (Does (L.wrW d 0) y () z)) ∧
  (∃ (h : Hdr) (d : Opnd) (c : BitVec 6) (s : State) (b : Issue) (t : Team) (l : Nat) (r : L.Ring) (y z : LS),
      (Solo s b t l h.guard) ∧
      ((vget t.c c.toNat).v = true) ∧
      (Does (do L.checkReg d; L.ring (vget t.c c.toNat) false) (b.start s t l) r y) ∧
      (Does (L.wrW d (BitVec.ofNat 32 (2 ^ 31 + (r.slots - r.filled) % 2 ^ 12 * 2 ^ 12 + r.filled % 2 ^ 12))) y () z)) ∧
  (∃ (h : Hdr) (a e : Opnd) (c : BitVec 6) (s : State) (b : Issue) (t : Team) (l base : Nat) (v : Word) (t' : Team) (y y' : LS) (slots size role kind : Nat),
      (Solo s b t l h.guard) ∧
      (Does (do return (← L.rdPair a, ← L.rdW e, ← L.team)) (b.start s t l) (base, v, t') y) ∧
      (v.toNat = slots + size * 2 ^ 12 + kind * 2 ^ 25 + role * 2 ^ 27) ∧
      (slots < 2 ^ 12) ∧
      (size < 2 ^ 13) ∧
      (kind < 3) ∧
      (role < 4) ∧
      ((vget t'.c c.toNat).v = false) ∧
      (role ≠ 0) ∧
      (slots ≠ 0) ∧
      (size % 4 = 0) ∧
      (4 ≤ size) ∧
      (size ≤ 4096) ∧
      (base < 2 ^ 52) ∧
      ((kind = 0 → base + slots * size ≤ t'.scr ∧ y' = y)) ∧
      ((kind = 1 → Does (L.bindStream base slots size) y () y')) ∧
      ((kind = 2 → role = 1 ∧ base % 64 = 0 ∧ 16 ≤ size ∧ base + 64 + slots * size ≤ t'.scr ∧
      y' = { y with st := y.st.updTeam b.agent (·.wrScr base 64 (slots * 2 ^ 96 + size * 2 ^ 128 + 2 ^ 160)) }))) ∧
  (∃ (h : Hdr) (a e : Opnd) (c : BitVec 6) (s : State) (b : Issue) (t : Team) (l base : Nat) (v : Word) (t' : Team) (y y' : LS) (slots size role kind : Nat),
      (Solo s b t l h.guard) ∧
      (Does (do return (← L.rdPair a, ← L.rdW e, ← L.team)) (b.start s t l) (base, v, t') y) ∧
      (v.toNat = slots + size * 2 ^ 12 + kind * 2 ^ 25 + role * 2 ^ 27) ∧
      (slots < 2 ^ 12) ∧
      (size < 2 ^ 13) ∧
      (kind < 3) ∧
      (role < 4) ∧
      ((vget t'.c c.toNat).v = false) ∧
      (role ≠ 0) ∧
      (slots ≠ 0) ∧
      (size % 4 = 0) ∧
      (4 ≤ size) ∧
      (size ≤ 4096) ∧
      (base < 2 ^ 52) ∧
      ((kind = 0 → base + slots * size ≤ t'.scr ∧ y' = y)) ∧
      ((kind = 1 → Does (L.bindStream base slots size) y () y')) ∧
      ((kind = 2 → role = 1 ∧ base % 64 = 0 ∧ 16 ≤ size ∧ base + 64 + slots * size ≤ t'.scr ∧
      y' = { y with st := y.st.updTeam b.agent (·.wrScr base 64 (slots * 2 ^ 96 + size * 2 ^ 128 + 2 ^ 160)) }))) ∧
  (∃ (h : Hdr) (a e : Opnd) (c : BitVec 6) (s : State) (b : Issue) (t : Team) (l base : Nat) (v : Word) (t' : Team) (y y' : LS) (slots size role kind : Nat),
      (Solo s b t l h.guard) ∧
      (Does (do return (← L.rdPair a, ← L.rdW e, ← L.team)) (b.start s t l) (base, v, t') y) ∧
      (v.toNat = slots + size * 2 ^ 12 + kind * 2 ^ 25 + role * 2 ^ 27) ∧
      (slots < 2 ^ 12) ∧
      (size < 2 ^ 13) ∧
      (kind < 3) ∧
      (role < 4) ∧
      ((vget t'.c c.toNat).v = false) ∧
      (role ≠ 0) ∧
      (slots ≠ 0) ∧
      (size % 4 = 0) ∧
      (4 ≤ size) ∧
      (size ≤ 4096) ∧
      (base < 2 ^ 52) ∧
      ((kind = 0 → base + slots * size ≤ t'.scr ∧ y' = y)) ∧
      ((kind = 1 → Does (L.bindStream base slots size) y () y')) ∧
      ((kind = 2 → role = 1 ∧ base % 64 = 0 ∧ 16 ≤ size ∧ base + 64 + slots * size ≤ t'.scr ∧
      y' = { y with st := y.st.updTeam b.agent (·.wrScr base 64 (slots * 2 ^ 96 + size * 2 ^ 128 + 2 ^ 160)) }))) ∧
  (∃ (h : Hdr) (c : BitVec 6) (s : State) (b : Issue) (t : Team) (l : Nat),
      (Solo s b t l h.guard) ∧
      ((vget t.c c.toNat).v = true)) ∧
  (∃ (h : Hdr) (a : Opnd) (c : BitVec 6) (s : State) (b : Issue) (t : Team) (l off v : Nat) (e : Chan) (y z : LS),
      (Solo s b t l h.guard) ∧
      (Does (do
      L.checkReg a
      let e ← L.chan c.toNat true
      let off := (← L.rdW a).toNat
      L.checkScr off e.size.toNat 4
      return (off, e, ← L.loadScr off e.size.toNat)) (b.start s t l) (off, e, v) y) ∧
      (Does (L.chanPush c.toNat v (e.size.toNat / 4)) y () z)) ∧
  (∃ (h : Hdr) (a : Opnd) (c : BitVec 6) (s : State) (b : Issue) (t : Team) (l off v : Nat) (e : Chan) (y z : LS),
      (Solo s b t l h.guard) ∧
      (Does (do
      L.checkReg a
      let e ← L.chan c.toNat false
      let off := (← L.rdW a).toNat
      L.checkScr off e.size.toNat 4
      return (off, e, ← L.chanPop c.toNat false (e.size.toNat / 4))) (b.start s t l) (off, e, v) y) ∧
      (Does (L.storeScr off e.size.toNat v) y () z)) := by
  refine ⟨?_, ?_, ?_, ?_, ?_, ?_, ?_, ?_⟩
  · exact ⟨Hdr.plain, .g 3, 0, (st 1), batch, (team 1), 0, _, _,
      solo _ _ _ rfl rfl rfl (by decide +kernel) rfl (by decide +kernel) (by decide +kernel),
      by decide +kernel, does_out (by decide +kernel), does_out (by decide +kernel)⟩
  · exact ⟨Hdr.plain, .g 3, 1, (st 1), batch, (team 1), 0, _, _, _,
      solo _ _ _ rfl rfl rfl (by decide +kernel) rfl (by decide +kernel) (by decide +kernel),
      by decide +kernel, does_out (by decide +kernel), does_out (by decide +kernel)⟩
  · exact ⟨Hdr.plain, .g 2, .g 22, 0, (st 1), batch, (team 1), 0, _, _, _, _, _, 4, 4, 3, 0,
      solo _ _ _ rfl rfl rfl (by decide +kernel) rfl (by decide +kernel) (by decide +kernel),
      does_out (by decide +kernel), by decide +kernel, by decide +kernel, by decide +kernel,
      id (by decide +kernel), by decide +kernel, by decide +kernel, by decide +kernel, id (by decide +kernel),
      by decide +kernel, by decide +kernel, by decide +kernel, id (by decide +kernel),
      fun _ => ⟨by decide +kernel, rfl⟩, fun h => absurd h (by decide), fun h => absurd h (by decide)⟩
  · exact ⟨Hdr.plain, .g 14, .g 24, 0, (wide (st 1)), batch, (team 1), 0, _, _, _, _, _, 4, 16, 1, 1,
      solo _ _ _ rfl rfl rfl (by decide +kernel) rfl (by decide +kernel) (by decide +kernel),
      does_out (by decide +kernel), by decide +kernel, by decide +kernel, by decide +kernel,
      id (by decide +kernel), by decide +kernel, by decide +kernel, by decide +kernel, id (by decide +kernel),
      by decide +kernel, by decide +kernel, by decide +kernel, id (by decide +kernel),
      fun h => absurd h (by decide), Function.const _ (does_out (by decide +kernel)),
      fun h => absurd h (by decide)⟩
  · exact ⟨Hdr.plain, .g 2, .g 23, 0, (st 1), batch, (team 1), 0, _, _, _, _, _, 4, 16, 1, 2,
      solo _ _ _ rfl rfl rfl (by decide +kernel) rfl (by decide +kernel) (by decide +kernel),
      does_out (by decide +kernel), by decide +kernel, by decide +kernel, by decide +kernel,
      id (by decide +kernel), by decide +kernel, by decide +kernel, by decide +kernel, id (by decide +kernel),
      by decide +kernel, by decide +kernel, by decide +kernel, id (by decide +kernel),
      fun h => absurd h (by decide), fun h => absurd h (by decide),
      fun _ => ⟨by decide +kernel, by decide +kernel, by decide +kernel, id (by decide +kernel), rfl⟩⟩
  · exact ⟨Hdr.plain, 1, (st 1), batch, (team 1), 0,
      solo _ _ _ rfl rfl rfl (by decide +kernel) rfl (by decide +kernel) (by decide +kernel),
      by decide +kernel⟩
  · exact ⟨Hdr.plain, .g 16, 1, (st 1), batch, (team 1), 0, _, _, _, _, _,
      solo _ _ _ rfl rfl rfl (by decide +kernel) rfl (by decide +kernel) (by decide +kernel),
      does_out (by decide +kernel), does_out (by decide +kernel)⟩
  · exact ⟨Hdr.plain, .g 16, 1, (st 1), batch, (team 1), 0, _, _, _, _, _,
      solo _ _ _ rfl rfl rfl (by decide +kernel) rfl (by decide +kernel) (by decide +kernel),
      does_out (by decide +kernel), does_out (by decide +kernel)⟩

theorem witness_ShuffleTakesTheSourceLane :
  (∃ (h : Hdr) (d a c : Opnd) (mode : BitVec 2) (s : State) (b : Issue) (t : Team) (l : Nat) (u v : Word) (y z : LS),
      (Solo s b t l h.guard) ∧
      (Does (do L.checkRegs [a, c, d]; return (← L.rdW a, ← L.rdW c)) (b.start s t l) (u, v) y) ∧
      (Does (L.peer l (L.rdW a)) y (some u) y) ∧
      (Landed (.shfl h d a c mode) h { Cap.zero with av := u.setWidth 128 } (pure (u.setWidth 128, 0)) y z)) ∧
  (∃ (d a c : Opnd) (x y : LS) (t : Team) (u v w : Word) (k : Nat),
      ∃ m ∈ ([(0, fun _ n => (n : Int)), (1, fun l n => (l : Int) - n), (2, fun l n => (l : Int) + n),
      (3, fun l n => ((l ^^^ n : Nat) : Int))] : List (BitVec 2 × (Nat → Nat → Int))), (Does (do L.checkRegs [a, c, d]; return (← L.rdW a, ← L.rdW c)) x (u, v) y) ∧
      (Does L.team y t y) ∧
      (m.2 x.lane (v.toNat % 32) = k) ∧
      (k < t.width) ∧
      (k ∈ x.execs) ∧
      (Does (L.peer k (L.rdW a)) y (some w) y)) ∧
  (∃ (d a c : Opnd) (x y : LS) (t : Team) (u v w : Word) (k : Nat),
      ∃ m ∈ ([(0, fun _ n => (n : Int)), (1, fun l n => (l : Int) - n), (2, fun l n => (l : Int) + n),
      (3, fun l n => ((l ^^^ n : Nat) : Int))] : List (BitVec 2 × (Nat → Nat → Int))), (Does (do L.checkRegs [a, c, d]; return (← L.rdW a, ← L.rdW c)) x (u, v) y) ∧
      (Does L.team y t y) ∧
      (m.2 x.lane (v.toNat % 32) = k) ∧
      (k ∉ x.execs)) := by
  refine ⟨?_, ?_, ?_⟩
  · exact ⟨Hdr.plain, .g 3, .g 1, .g 5, 0, (st 1), batch, (team 1), 0, _, _, _, _,
      solo _ _ _ rfl rfl rfl (by decide +kernel) rfl (by decide +kernel) (by decide +kernel),
      does_out (by decide +kernel), does_val (by decide +kernel) (by decide +kernel) (by decide +kernel),
      landed_out (by decide +kernel) (by decide +kernel) (by decide +kernel) (by decide +kernel) (by decide +kernel)⟩
  · exact ⟨.g 3, .g 1, .zr, (batch.start (st 1) (team 1) 0), _, (team 1), _, _, _, _, _, List.Mem.head _,
      does_out (by decide +kernel), does_val (by decide +kernel) (by decide +kernel) (by decide +kernel),
      rfl, by decide +kernel, by decide +kernel,
      does_get (by decide +kernel) (by decide +kernel) (by decide +kernel)⟩
  · exact ⟨.g 3, .g 1, .g 4, (batch.start (st 1) (team 1) 0), _, (team 1), _, _, 0, _, _,
      List.Mem.tail _ (List.Mem.tail _ (List.Mem.head _)), does_out (by decide +kernel),
      does_val (by decide +kernel) (by decide +kernel) (by decide +kernel), rfl, by decide +kernel⟩

theorem witness_FloatTwoSources :
  (∃ p ∈ float2s, ∃ (h : Hdr) (d a c : Opnd) (o : FOpt) (s : State) (b : Issue) (t : Team) (l : Nat) (x1 x2 : DWord × BitVec 4) (v : DWord) (y y' z : LS),
      (Solo s b t l h.guard) ∧
      (Does (do L.checkF3 o.fp64 [a, c] [d]; return (← L.rdD a, ← L.rdD c)) (b.start s t l) (x1, x2) y) ∧
      (Does (L.settle (exactRnd (fmtOf o.fp64) (Rm.ofBits o.rm)
      (p.2 (Rm.ofBits o.rm) (fVals o x1 x2).1 (fVals o x1 x2).2))) y v y') ∧
      (Does (L.wrD d v (if o.fp64 then 1 else 2)) y' () z)) ∧
  (∃ (h : Hdr) (d a c : Opnd) (o : FOpt) (s : State) (b : Issue) (t : Team) (l : Nat) (x1 x2 x3 : DWord × BitVec 4) (v : DWord) (y y' z : LS),
      (Solo s b t l h.guard) ∧
      (Does (do L.checkF3 o.fp64 [a, c, d] [d]; return (← L.rdD a, ← L.rdD c, ← L.rdD d)) (b.start s t l) (x1, x2, x3) y) ∧
      (Does (L.settle (exactRnd (fmtOf o.fp64) (Rm.ofBits o.rm) (fmaX (Rm.ofBits o.rm) (fVals o x1 x2).1 (fVals o x1 x2).2
      ((fmtOf o.fp64).value x3.1.toNat)))) y v y') ∧
      (Does (L.wrD d v (if o.fp64 then 1 else 2)) y' () z)) ∧
  (∃ (h : Hdr) (d a c : Opnd) (o : FOpt) (s : State) (b : Issue) (t : Team) (l : Nat) (x1 : DWord × BitVec 4) (n : Word) (v : DWord) (y y' z : LS),
      (Solo s b t l h.guard) ∧
      (Does (do L.checkReg c; L.checkF3 o.fp64 [a] [d]; return (← L.rdD a, ← L.rdW c)) (b.start s t l) (x1, n) y) ∧
      (Does (L.settle (exactRnd (fmtOf o.fp64) (Rm.ofBits o.rm) (.plain (sclX (fA o x1.1) n.toInt)))) y v y') ∧
      (Does (L.wrD d v (if o.fp64 then 1 else 2)) y' () z)) ∧
  (∃ (h : Hdr) (d a : Opnd) (o : FOpt) (s : State) (b : Issue) (t : Team) (l : Nat) (x1 : DWord × BitVec 4) (v : DWord) (y y' z : LS),
      (Solo s b t l h.guard) ∧
      (Does (do L.checkF3 o.fp64 [a] [d]; L.rdD a) (b.start s t l) x1 y) ∧
      (Does (L.settle ⟨(exactRnd (fmtOf o.fp64) (Rm.ofBits o.rm) (.plain (rndX (Rm.ofBits o.rm) (fA o x1.1)))).code, 0⟩)
      y v y') ∧
      (Does (L.wrD d v (if o.fp64 then 1 else 2)) y' () z)) := by
  refine ⟨?_, ?_, ?_, ?_⟩
  · exact ⟨_, List.Mem.head _, Hdr.plain, .f 1, .f 0, .f 1, ⟨false, false, false, false, false, 0⟩, (st 1), batch,
      (team 1), 0, _, _, _, _, _, _,
      solo _ _ _ rfl rfl rfl (by decide +kernel) rfl (by decide +kernel) (by decide +kernel),
      does_out (by decide +kernel), does_out (by decide +kernel), does_out (by decide +kernel)⟩
  · exact ⟨Hdr.plain, .f 1, .f 0, .f 1, ⟨false, false, false, false, false, 0⟩, (st 1), batch, (team 1), 0, _, _, _,
      _, _, _, _, solo _ _ _ rfl rfl rfl (by decide +kernel) rfl (by decide +kernel) (by decide +kernel),
      does_out (by decide +kernel), does_out (by decide +kernel), does_out (by decide +kernel)⟩
  · exact ⟨Hdr.plain, .f 1, .f 0, .g 4, ⟨false, false, false, false, false, 0⟩, (st 1), batch, (team 1), 0, _, _, _,
      _, _, _, solo _ _ _ rfl rfl rfl (by decide +kernel) rfl (by decide +kernel) (by decide +kernel),
      does_out (by decide +kernel), does_out (by decide +kernel), does_out (by decide +kernel)⟩
  · exact ⟨Hdr.plain, .f 1, .f 0, ⟨false, false, false, false, false, 0⟩, (st 1), batch, (team 1), 0, _, _, _, _, _,
      solo _ _ _ rfl rfl rfl (by decide +kernel) rfl (by decide +kernel) (by decide +kernel),
      does_out (by decide +kernel), does_out (by decide +kernel), does_out (by decide +kernel)⟩

theorem witness_FloatLong :
  (∃ (h : Hdr) (d a c : Opnd) (o : FOpt) (s : State) (b : Issue) (t : Team) (l : Nat) (k : Cap) (y z : LS),
      (Solo s b t l h.guard) ∧
      (Does (L.capF o.fp64 d a c) (b.start s t l) k y) ∧
      (Landed (.fdiv h d a c o) h k (do
      let v ← L.settle (exactRnd (fmtOf o.fp64) (Rm.ofBits o.rm)
        (divX (fA o (k.av.setWidth 64)) (fB o (k.bv.setWidth 64))))
      return (v.setWidth 128, if o.fp64 then 1 else 2)) y z)) ∧
  (∃ (o : FOpt),
      ∃ p ∈ float1Longs o, ∃ (h : Hdr) (d a : Opnd) (s : State) (b : Issue) (t : Team) (l : Nat) (k : Cap) (y z : LS),
      (Solo s b t l h.guard) ∧
      (Does (L.capF o.fp64 d a a) (b.start s t l) k y) ∧
      (Landed (p.1 h d a o) h k (do
      let v ← L.settle (p.2 (Rm.ofBits o.rm) (fA o (k.av.setWidth 64)))
      return (v.setWidth 128, if o.fp64 then 1 else 2)) y z)) := by
  refine ⟨?_, ?_⟩
  · exact ⟨Hdr.plain, .f 5, .f 0, .f 1, ⟨false, false, false, false, false, 0⟩, (st 1), batch, (team 1), 0, _, _, _,
      solo _ _ _ rfl rfl rfl (by decide +kernel) rfl (by decide +kernel) (by decide +kernel),
      does_out (by decide +kernel),
      landed_out (by decide +kernel) (by decide +kernel) (by decide +kernel) (by decide +kernel) (by decide +kernel)⟩
  · exact ⟨⟨false, false, false, false, false, 0⟩, _, List.Mem.head _, Hdr.plain, .f 5, .f 0, (st 1), batch,
      (team 1), 0, _, _, _,
      solo _ _ _ rfl rfl rfl (by decide +kernel) rfl (by decide +kernel) (by decide +kernel),
      does_out (by decide +kernel),
      landed_out (by decide +kernel) (by decide +kernel) (by decide +kernel) (by decide +kernel) (by decide +kernel)⟩

theorem witness_FloatTestsAndMoves :
  (∃ (h : Hdr) (d a c : Opnd) (o : TOpt) (s : State) (b : Issue) (t : Team) (l : Nat) (x1 x2 : DWord × BitVec 4) (v : Word) (y z : LS),
      (Solo s b t l h.guard) ∧
      (Does (do L.checkF3 o.wide [a, c] [d]; return (← L.rdD a, ← L.rdD c, ← L.rdW d)) (b.start s t l) (x1, x2, v) y) ∧
      (Does (L.wrW d (BitVec.ofNat 32 (setBits v.toNat o.pb.toNat 2
      (match fRel o.rel.toNat ((fmtOf o.wide).value x1.1.toNat) ((fmtOf o.wide).value x2.1.toNat) with
        | some true => 1 | some false => 2 | none => 0)))) y () z)) ∧
  (∃ (h : Hdr) (d a : Opnd) (o : FOpt) (s : State) (b : Issue) (t : Team) (l : Nat) (x1 : DWord × BitVec 4) (y z : LS),
      (Solo s b t l h.guard) ∧
      (Does (do L.checkF3 o.fp64 [a] [d]; L.rdD a) (b.start s t l) x1 y) ∧
      (Does (L.wrW d (BitVec.ofNat 32 (classOf (fmtOf o.fp64) o.absA o.negA x1.1.toNat))) y () z)) ∧
  (∃ (h : Hdr) (d a c : Opnd) (cr : BitVec 6) (cb : BitVec 5) (s : State) (b : Issue) (t : Team) (l : Nat) (w : Word) (x1 x2 : DWord × BitVec 4) (y z : LS),
      (Solo s b t l h.guard) ∧
      (Does (do L.checkG cr.toNat; L.checkRegs [a, c, d]; return (← L.rdG cr.toNat, ← L.rdD a, ← L.rdD c)) (b.start s t l)
      (w, x1, x2) y) ∧
      (Does (if w.getLsbD cb.toNat then L.wrD d x1.1 x1.2 else L.wrD d x2.1 x2.2) y () z)) ∧
  (∃ (h : Hdr) (d a : Opnd) (s : State) (b : Issue) (t : Team) (l : Nat) (x1 : DWord × BitVec 4) (y z : LS),
      (Solo s b t l h.guard) ∧
      (Does (do L.check 2 [a] [d]; L.rdD a) (b.start s t l) x1 y) ∧
      (Does (L.wrD d x1.1 x1.2) y () z)) ∧
  (∃ (h : Hdr) (d a : Opnd) (tag : BitVec 4) (s : State) (b : Issue) (t : Team) (l : Nat) (x1 : DWord × BitVec 4) (y z : LS),
      (Solo s b t l h.guard) ∧
      (Does (do L.check 2 [a] [d]; L.rdD a) (b.start s t l) x1 y) ∧
      (Does (L.wrD d x1.1 tag) y () z)) ∧
  (∃ (h : Hdr) (n : BitVec 5) (a c : Opnd) (s : State) (b : Issue) (t : Team) (l : Nat) (u v : Word) (y z : LS),
      (Solo s b t l h.guard) ∧
      (Does (do L.checkRegs [a, c, .f n]; return (← L.rdW a, ← L.rdW c)) (b.start s t l) (u, v) y) ∧
      (Does (L.wrD (.f n) (v ++ u) 13) y () z)) ∧
  (∃ (h : Hdr) (n : BitVec 6) (a c : Opnd) (s : State) (b : Issue) (t : Team) (l : Nat) (x1 : DWord × BitVec 4) (y z : LS),
      (Solo s b t l h.guard) ∧
      (Does (do L.checkRegs [a, .g n]; L.rdD a) (b.start s t l) x1 y) ∧
      (Does (L.wrPair (.g n) x1.1.toNat) y () z)) := by
  refine ⟨?_, ?_, ?_, ?_, ?_, ?_, ?_⟩
  · exact ⟨Hdr.plain, .g 3, .f 0, .f 1, ⟨false, 0, 0⟩, (st 1), batch, (team 1), 0, _, _, _, _, _,
      solo _ _ _ rfl rfl rfl (by decide +kernel) rfl (by decide +kernel) (by decide +kernel),
      does_out (by decide +kernel), does_out (by decide +kernel)⟩
  · exact ⟨Hdr.plain, .g 3, .f 0, ⟨false, false, false, false, false, 0⟩, (st 1), batch, (team 1), 0, _, _, _,
      solo _ _ _ rfl rfl rfl (by decide +kernel) rfl (by decide +kernel) (by decide +kernel),
      does_out (by decide +kernel), does_out (by decide +kernel)⟩
  · exact ⟨Hdr.plain, .f 5, .f 0, .f 3, 4, 0, (st 1), batch, (team 1), 0, _, _, _, _, _,
      solo _ _ _ rfl rfl rfl (by decide +kernel) rfl (by decide +kernel) (by decide +kernel),
      does_out (by decide +kernel), does_out (by decide +kernel)⟩
  · exact ⟨Hdr.plain, .f 5, .f 0, (st 1), batch, (team 1), 0, _, _, _,
      solo _ _ _ rfl rfl rfl (by decide +kernel) rfl (by decide +kernel) (by decide +kernel),
      does_out (by decide +kernel), does_out (by decide +kernel)⟩
  · exact ⟨Hdr.plain, .f 5, .f 0, 0, (st 1), batch, (team 1), 0, _, _, _,
      solo _ _ _ rfl rfl rfl (by decide +kernel) rfl (by decide +kernel) (by decide +kernel),
      does_out (by decide +kernel), does_out (by decide +kernel)⟩
  · exact ⟨Hdr.plain, 5, .g 1, .g 5, (st 1), batch, (team 1), 0, _, _, _, _,
      solo _ _ _ rfl rfl rfl (by decide +kernel) rfl (by decide +kernel) (by decide +kernel),
      does_out (by decide +kernel), does_out (by decide +kernel)⟩
  · exact ⟨Hdr.plain, 20, .f 2, .g 5, (st 1), batch, (team 1), 0, _, _, _,
      solo _ _ _ rfl rfl rfl (by decide +kernel) rfl (by decide +kernel) (by decide +kernel),
      does_out (by decide +kernel), does_out (by decide +kernel)⟩

theorem witness_FloatConversions :
  (∃ (h : Hdr) (d a c : Opnd) (o : VOpt) (s : State) (b : Issue) (t : Team) (l : Nat) (x1 : DWord × BitVec 4) (w : Word) (old ns ws nt wt : Nat) (fs ft : Option Fmt) (v : DWord) (y y' z : LS),
      (Solo s b t l h.guard) ∧
      (Does (do
      L.checkRegs [a, c, d]
      L.tagIn [1, 2, 5, 6, 7, 8, 9, 10, 11] a
      return (← L.rdD a, ← L.rdW c, ← L.rdTagged d o.ttag)) (b.start s t l) (x1, w, old) y) ∧
      (tagElems x1.2 = some (ns, ws, fs)) ∧
      (tagElems o.ttag = some (nt, wt, ft)) ∧
      ((nt ≤ ns → (w.toNat + 1) * nt ≤ ns ∧ Does (L.settle (convertRun (Rm.ofBits o.rm) o.sat wt ft
      (fun k => elemValue x1.1.toNat ws fs (w.toNat * nt + k)) 0 nt 0)) y v y')) ∧
      ((ns < nt → (w.toNat + 1) * ns ≤ nt ∧ Does (L.settle (convertRun (Rm.ofBits o.rm) o.sat wt ft
      (fun k => elemValue x1.1.toNat ws fs k) (w.toNat * ns) ns old)) y v y')) ∧
      (Does (L.wrD d v o.ttag) y' () z)) ∧
  (∃ (h : Hdr) (d a c : Opnd) (o : VOpt) (s : State) (b : Issue) (t : Team) (l : Nat) (x1 : DWord × BitVec 4) (w : Word) (old ns ws nt wt : Nat) (fs ft : Option Fmt) (v : DWord) (y y' z : LS),
      (Solo s b t l h.guard) ∧
      (Does (do
      L.checkRegs [a, c, d]
      L.tagIn [1, 2, 5, 6, 7, 8, 9, 10, 11] a
      return (← L.rdD a, ← L.rdW c, ← L.rdTagged d o.ttag)) (b.start s t l) (x1, w, old) y) ∧
      (tagElems x1.2 = some (ns, ws, fs)) ∧
      (tagElems o.ttag = some (nt, wt, ft)) ∧
      ((nt ≤ ns → (w.toNat + 1) * nt ≤ ns ∧ Does (L.settle (convertRun (Rm.ofBits o.rm) o.sat wt ft
      (fun k => elemValue x1.1.toNat ws fs (w.toNat * nt + k)) 0 nt 0)) y v y')) ∧
      ((ns < nt → (w.toNat + 1) * ns ≤ nt ∧ Does (L.settle (convertRun (Rm.ofBits o.rm) o.sat wt ft
      (fun k => elemValue x1.1.toNat ws fs k) (w.toNat * ns) ns old)) y v y')) ∧
      (Does (L.wrD d v o.ttag) y' () z)) ∧
  (∃ (h : Hdr) (d a : Opnd) (o : VOpt) (s : State) (b : Issue) (t : Team) (l : Nat) (x1 : DWord × BitVec 4) (r : Int × Fl) (y y' z : LS),
      (Solo s b t l h.guard) ∧
      (Does (do L.checkRegs [a, d]; L.tagIn [1, 2] a; L.rdD a) (b.start s t l) x1 y) ∧
      (r = toIntX (Rm.ofBits o.rm) (if o.uns then 0 else -(2 ^ 31)) (if o.uns then 2 ^ 32 - 1 else 2 ^ 31 - 1)
      ((fmtOf (x1.2 == 1)).value x1.1.toNat)) ∧
      (Does (L.raise r.2) y () y') ∧
      (Does (L.wrW d (BitVec.ofInt 32 r.1)) y' () z)) ∧
  (∃ (h : Hdr) (d a : Opnd) (o : VOpt) (s : State) (b : Issue) (t : Team) (l : Nat) (u : Word) (v : DWord) (y y' z : LS),
      (Solo s b t l h.guard) ∧
      (Does (do L.checkRegs [a, d]; L.rdW a) (b.start s t l) u y) ∧
      (Does (L.settle (exactRnd (fmtOf (o.ttag == 1)) (Rm.ofBits o.rm)
      (.plain (FV.ofInt (if o.uns then (u.toNat : Int) else u.toInt))))) y v y') ∧
      (Does (L.wrD d v o.ttag) y' () z)) ∧
  (∃ (h : Hdr) (d a c : Opnd) (s : State) (b : Issue) (t : Team) (l : Nat) (x1 x2 x3 : DWord × BitVec 4) (v : DWord) (y y' z : LS),
      (Solo s b t l h.guard) ∧
      (Does (do
      L.checkRegs [a, c, d]
      L.tagIn [5, 6, 7, 8, 9, 10] a
      L.tagIn [5, 6, 7, 8, 9, 10] c
      L.tagIn [2] d
      return (← L.rdD a, ← L.rdD c, ← L.rdD d)) (b.start s t l) (x1, x2, x3) y) ∧
      (x1.2 = x2.2) ∧
      (Does (L.settle (accumulate (x3.1.toNat % 2 ^ 32)
      (groupSum ((elemsOf x1.1.toNat x1.2).zip (elemsOf x2.1.toNat x2.2)) (some 0)))) y v y') ∧
      (Does (L.wrD d v 2) y' () z)) := by
  refine ⟨?_, ?_, ?_, ?_, ?_⟩
  · exact ⟨Hdr.plain, .f 5, .f 0, .zr, ⟨2, false, false, 0⟩, (st 1), batch, (team 1), 0, _, _, _, 1, 32, 1, 32,
      (some fmtF32), (some fmtF32), _, _, _, _,
      solo _ _ _ rfl rfl rfl (by decide +kernel) rfl (by decide +kernel) (by decide +kernel),
      does_out (by decide +kernel), by decide +kernel, by decide +kernel,
      Function.const _ ⟨by decide +kernel, does_out (by decide +kernel)⟩,
      fun h => absurd h (by decide +kernel), does_out (by decide +kernel)⟩
  · exact ⟨Hdr.plain, .f 5, .f 0, .zr, ⟨5, false, false, 0⟩, (st 1), batch, (team 1), 0, _, _, _, 1, 32, 4, 16,
      (some fmtF32), (some fmtBF16), _, _, _, _,
      solo _ _ _ rfl rfl rfl (by decide +kernel) rfl (by decide +kernel) (by decide +kernel),
      does_out (by decide +kernel), by decide +kernel, by decide +kernel,
      fun h => absurd h (by decide +kernel),
      Function.const _ ⟨by decide +kernel, does_out (by decide +kernel)⟩, does_out (by decide +kernel)⟩
  · exact ⟨Hdr.plain, .g 3, .f 0, ⟨2, false, false, 0⟩, (st 1), batch, (team 1), 0, _, _, _, _, _,
      solo _ _ _ rfl rfl rfl (by decide +kernel) rfl (by decide +kernel) (by decide +kernel),
      does_out (by decide +kernel), rfl, does_out (by decide +kernel), does_out (by decide +kernel)⟩
  · exact ⟨Hdr.plain, .f 5, .g 1, ⟨2, false, false, 0⟩, (st 1), batch, (team 1), 0, _, _, _, _, _,
      solo _ _ _ rfl rfl rfl (by decide +kernel) rfl (by decide +kernel) (by decide +kernel),
      does_out (by decide +kernel), does_out (by decide +kernel), does_out (by decide +kernel)⟩
  · exact ⟨Hdr.plain, .f 1, .f 7, .f 8, (st 1), batch, (team 1), 0, _, _, _, _, _, _, _,
      solo _ _ _ rfl rfl rfl (by decide +kernel) rfl (by decide +kernel) (by decide +kernel),
      does_out (by decide +kernel), by decide +kernel, does_out (by decide +kernel),
      does_out (by decide +kernel)⟩

theorem witness_IntervalWords :
  (∃ p ∈ iv2s, ∃ (h : Hdr) (d a c : Opnd) (x : XOpt) (s : State) (b : Issue) (t : Team) (l : Nat) (u v : Iv) (y z : LS),
      (Solo s b t l h.guard) ∧
      (Does (do
      L.checkRegs (ivRegs x.x64 d)
      L.checkIv x.x64 a
      L.checkIv x.x64 c
      return (← L.rdIv x.x64 x.negA a, ← L.rdIv x.x64 x.negB c)) (b.start s t l) (u, v) y) ∧
      (p.2.2 u v = true) ∧
      (Does (L.wrIvBits x.x64 d (ivBits x.x64 (p.2.1 u v))) y () z)) ∧
  (∃ p ∈ iv1s, ∃ (h : Hdr) (d a : Opnd) (x : XOpt) (s : State) (b : Issue) (t : Team) (l : Nat) (u : Iv) (y z : LS),
      (Solo s b t l h.guard) ∧
      (Does (do
      L.checkRegs (ivRegs x.x64 d)
      L.checkIv x.x64 a
      L.rdIv x.x64 x.negA a) (b.start s t l) u y) ∧
      (Does (L.wrIvBits x.x64 d (ivBits x.x64 (p.2 u))) y () z)) ∧
  (∃ (x : XOpt),
      ∃ p ∈ ivPoints x, ∃ (h : Hdr) (d a : Opnd) (s : State) (b : Issue) (t : Team) (l : Nat) (u : Iv) (y z : LS),
      (Solo s b t l h.guard) ∧
      (Does (do L.checkReg d; L.checkIv x.x64 a; L.rdIv x.x64 x.negA a) (b.start s t l) u y) ∧
      (Does (L.wrD d (BitVec.ofNat 64 (p.2 u)) (if x.x64 then 1 else 2)) y () z)) ∧
  (∃ (h : Hdr) (d a c : Opnd) (x : XOpt) (s : State) (b : Issue) (t : Team) (l : Nat) (u v : FV) (y z : LS),
      (Solo s b t l h.guard) ∧
      (Does (do
      L.checkRegs (ivRegs x.x64 d)
      L.checkF3 x.x64 [a, c] []
      return (← L.rdPoint x.x64 x.negA a, ← L.rdPoint x.x64 x.negB c)) (b.start s t l) (u, v) y) ∧
      (ivBad (u, v) = none) ∧
      (Does (L.wrIvBits x.x64 d (ivBits x.x64 (plusZero u, plusZero v))) y () z)) ∧
  (∃ (h : Hdr) (d a : Opnd) (x : XOpt) (s : State) (b : Issue) (t : Team) (l : Nat) (u : FV) (y z : LS),
      (Solo s b t l h.guard) ∧
      (Does (do
      L.checkRegs (ivRegs x.x64 d)
      L.checkF3 x.x64 [a] []
      L.rdPoint x.x64 x.negA a) (b.start s t l) u y) ∧
      (ivBad (u, u) = none) ∧
      (Does (L.wrIvBits x.x64 d (ivBits x.x64 (plusZero u, plusZero u))) y () z)) ∧
  (∃ (h : Hdr) (d a c : Opnd) (x : XOpt) (s : State) (b : Issue) (t : Team) (l : Nat) (k : Cap) (u v r : Iv) (y z : LS),
      (Solo s b t l h.guard) ∧
      (Does (L.capIv x.x64 d [a, c]) (b.start s t l) k y) ∧
      (Does (do return (← L.ivOf x.x64 x.negA k.av, ← L.ivOf x.x64 x.negB k.bv)) y (u, v) y) ∧
      (divIv u v = some r) ∧
      (Landed (.xdiv h d a c x) h k (pure (ivBits x.x64 r, if x.x64 then 4 else 3)) y z)) ∧
  (∃ (h : Hdr) (d a : Opnd) (x : XOpt) (s : State) (b : Issue) (t : Team) (l : Nat) (k : Cap) (u r : Iv) (y z : LS),
      (Solo s b t l h.guard) ∧
      (Does (L.capIv x.x64 d [a]) (b.start s t l) k y) ∧
      (Does (L.ivOf x.x64 x.negA k.av) y u y) ∧
      (sqrtIv u = some r) ∧
      (Landed (.xsqrt h d a x) h k (pure (ivBits x.x64 r, if x.x64 then 4 else 3)) y z)) ∧
  (∃ (h : Hdr) (d a : Opnd) (x : XOpt) (s : State) (b : Issue) (t : Team) (l : Nat) (k : Cap) (u : Iv) (y z : LS),
      (Solo s b t l h.guard) ∧
      (Does (L.capIv x.x64 d [a]) (b.start s t l) k y) ∧
      (Does (L.ivOf x.x64 x.negA k.av) y u y) ∧
      (Landed (.xexp h d a x) h k (pure (packIv x.x64 (expR (fmtOf x.x64) .rdn u.1).code (expR (fmtOf x.x64) .rup u.2).code, if x.x64 then 4 else 3)) y z)) ∧
  (∃ (h : Hdr) (d : Opnd) (wid : Wid) (m : MemOpnd) (s : State) (b : Issue) (t : Team) (l : Nat) (k : Cap) (y z : LS),
      (Solo s b t l h.guard) ∧
      (Does (L.capMem (ivRegs (wid == .q) d) m) (b.start s t l) k y) ∧
      (Landed (.xld h d wid m) h k (do
      let a ← L.access 0 m (widSize wid) k.av.toNat k.bv.toNat
      let v ← L.readMem m .load a (widSize wid)
      let iv ← L.ivOf (wid == .q) false (BitVec.ofNat 128 v)
      return (ivBits (wid == .q) iv, if wid == .q then 4 else 3)) y z)) := by
  refine ⟨?_, ?_, ?_, ?_, ?_, ?_, ?_, ?_, ?_⟩
  · exact ⟨_, List.Mem.head _, Hdr.plain, .f 6, .f 3, .f 4, ⟨false, false, false⟩, (st 1), batch, (team 1), 0, _, _,
      _, _, solo _ _ _ rfl rfl rfl (by decide +kernel) rfl (by decide +kernel) (by decide +kernel),
      does_out (by decide +kernel), by decide +kernel, does_out (by decide +kernel)⟩
  · exact ⟨_, List.Mem.head _, Hdr.plain, .f 6, .f 3, ⟨false, false, false⟩, (st 1), batch, (team 1), 0, _, _, _,
      solo _ _ _ rfl rfl rfl (by decide +kernel) rfl (by decide +kernel) (by decide +kernel),
      does_out (by decide +kernel), does_out (by decide +kernel)⟩
  · exact ⟨⟨false, false, false⟩, _, List.Mem.head _, Hdr.plain, .f 6, .f 3, (st 1), batch, (team 1), 0, _, _, _,
      solo _ _ _ rfl rfl rfl (by decide +kernel) rfl (by decide +kernel) (by decide +kernel),
      does_out (by decide +kernel), does_out (by decide +kernel)⟩
  · exact ⟨Hdr.plain, .f 6, .f 0, .f 1, ⟨false, false, false⟩, (st 1), batch, (team 1), 0, _, _, _, _,
      solo _ _ _ rfl rfl rfl (by decide +kernel) rfl (by decide +kernel) (by decide +kernel),
      does_out (by decide +kernel), by decide +kernel, does_out (by decide +kernel)⟩
  · exact ⟨Hdr.plain, .f 6, .f 0, ⟨false, false, false⟩, (st 1), batch, (team 1), 0, _, _, _,
      solo _ _ _ rfl rfl rfl (by decide +kernel) rfl (by decide +kernel) (by decide +kernel),
      does_out (by decide +kernel), by decide +kernel, does_out (by decide +kernel)⟩
  · exact ⟨Hdr.plain, .f 6, .f 3, .f 4, ⟨false, false, false⟩, (st 1), batch, (team 1), 0, _, _, _, _, _, _,
      solo _ _ _ rfl rfl rfl (by decide +kernel) rfl (by decide +kernel) (by decide +kernel),
      does_out (by decide +kernel), ivs_here (by decide +kernel), some_out (by decide +kernel),
      landed_out (by decide +kernel) (by decide +kernel) (by decide +kernel) (by decide +kernel) (by decide +kernel)⟩
  · exact ⟨Hdr.plain, .f 6, .f 3, ⟨false, false, false⟩, (st 1), batch, (team 1), 0, _, _, _, _, _,
      solo _ _ _ rfl rfl rfl (by decide +kernel) rfl (by decide +kernel) (by decide +kernel),
      does_out (by decide +kernel), iv_here (by decide +kernel), some_out (by decide +kernel),
      landed_out (by decide +kernel) (by decide +kernel) (by decide +kernel) (by decide +kernel) (by decide +kernel)⟩
  · exact ⟨Hdr.plain, .f 6, .f 3, ⟨false, false, false⟩, (st 1), batch, (team 1), 0, _, _, _, _,
      solo _ _ _ rfl rfl rfl (by decide +kernel) rfl (by decide +kernel) (by decide +kernel),
      does_out (by decide +kernel), iv_here (by decide +kernel),
      landed_out (by decide +kernel) (by decide +kernel) (by decide +kernel) (by decide +kernel) (by decide +kernel)⟩
  · exact ⟨Hdr.plain, .f 6, .w, ⟨false, .g 2, none, 1⟩, (st 1), batch, (team 1), 0, _, _, _,
      solo _ _ _ rfl rfl rfl (by decide +kernel) rfl (by decide +kernel) (by decide +kernel),
      does_out (by decide +kernel),
      landed_out (by decide +kernel) (by decide +kernel) (by decide +kernel) (by decide +kernel) (by decide +kernel)⟩

theorem witness_IntervalTestsAndBisection :
  (∃ (o : TOpt),
      ∃ p ∈ ivTests o.rel.toNat, ∃ (h : Hdr) (d a c : Opnd) (s : State) (b : Issue) (t : Team) (l : Nat) (u v : Iv) (w : Word) (y z : LS),
      (Solo s b t l h.guard) ∧
      (Does (do
      L.checkReg d
      L.checkIv o.wide a
      L.checkIv o.wide c
      return (← L.rdIv o.wide false a, ← L.rdIv o.wide false c, ← L.rdW d)) (b.start s t l) (u, v, w) y) ∧
      (Does (L.wrW d (BitVec.ofNat 32 (setBits w.toNat o.pb.toNat 2
      (match p.2 u v with | some true => 1 | some false => 2 | none => 0)))) y () z)) ∧
  (∃ (h : Hdr) (d a e : Opnd) (x : XOpt) (s : State) (b : Issue) (t : Team) (l : Nat) (v : Iv) (y z : LS),
      (Solo s b t l h.guard) ∧
      (Does (do L.checkRegs (e :: ivRegs x.x64 d); L.checkIv x.x64 a; L.rdIv x.x64 false a) (b.start s t l) v y) ∧
      ((v.1.lt ((fmtOf x.x64).value (midCode x.x64 v)) && ((fmtOf x.x64).value (midCode x.x64 v)).lt v.2) = false) ∧
      (Does L.team y t y) ∧
      (Does (do L.wrIvBits x.x64 d (ivBits x.x64 v); L.wrW e 0xFFFF_FFFE) y () z)) ∧
  (∃ (h : Hdr) (d a : Opnd) (k : BitVec 6) (x : XOpt) (s : State) (b : Issue) (t : Team) (l : Nat) (v : Iv) (t' : Team) (y z : LS),
      (Lone s b t l h.guard) ∧
      (Does (do L.checkRegs (.g k :: ivRegs x.x64 d); L.checkIv x.x64 a; L.rdIv x.x64 false a) (b.start s t l) v y) ∧
      ((v.1.lt ((fmtOf x.x64).value (midCode x.x64 v)) && ((fmtOf x.x64).value (midCode x.x64 v)).lt v.2) = true) ∧
      (Does L.team y t' y) ∧
      (t'.childSlot b.wave = none) ∧
      (Does (do L.wrIvBits x.x64 d (ivBits x.x64 v); L.wrW (.g k) 0xFFFF_FFFF) y () z)) ∧
  (∃ (h : Hdr) (d a e : Opnd) (x : XOpt) (s : State) (b : Issue) (t : Team) (l : Nat) (v : Iv) (t' : Team) (f : Fibre) (n : Nat) (y z : LS),
      (Solo s b t l h.guard) ∧
      (Does (do L.checkRegs (e :: ivRegs x.x64 d); L.checkIv x.x64 a; L.rdIv x.x64 false a) (b.start s t l) v y) ∧
      ((v.1.lt ((fmtOf x.x64).value (midCode x.x64 v)) && ((fmtOf x.x64).value (midCode x.x64 v)).lt v.2) = true) ∧
      (Does L.team y t' y) ∧
      (t'.childSlot b.wave = some n) ∧
      (y.st.fibre? b.agent b.wave l = some f) ∧
      (f.shadow = none) ∧
      (Does L.landedAll y () y) ∧
      (Does (do
      L.wrIvBits x.x64 d (ivBits x.x64 (v.1, (fmtOf x.x64).value (midCode x.x64 v)))
      L.wrW e (BitVec.ofNat 32 n)) { y with
        st := y.st.updTeam b.agent (·.addFibre n { Fibre.start false (b.pc + 8) (n * (4 * t'.gWin + 8 * t'.fWin)) with
          regs := f.regs.bisect x.x64 d e (ivBits x.x64 ((fmtOf x.x64).value (midCode x.x64 v), v.2))
            (0x8000_0000 + BitVec.ofNat 32 (t'.slot b.wave l))
          grp := y.st.tick * 2048 + 2
          remoteWrites := f.remoteWrites
          own := if (t'.wave (n / t'.width)).h.isSome then some (if t'.work.lvl then 1 else 0) else none }) } () z)) ∧
  (∃ (h : Hdr) (d : Opnd) (wid : Wid) (m : MemOpnd) (s : State) (b : Issue) (t : Team) (l : Nat) (v : Iv) (ea : Nat) (y z : LS),
      (Solo s b t l h.guard) ∧
      (Does (do
      L.checkRegs (ivRegs (wid == .q) d)
      L.checkAddr m
      L.checkIv (wid == .q) d
      return (← L.rdIv (wid == .q) false d, ← L.memAddr 1 m wid)) (b.start s t l) (v, ea) y) ∧
      (Does (L.writeMem m .store ea (widSize wid) (ivBits (wid == .q) v).toNat) y () z)) ∧
  (∃ (h : Hdr) (d a : Opnd) (o : VOpt) (s : State) (b : Issue) (t : Team) (l : Nat) (v : Iv) (y z : LS),
      (Solo s b t l h.guard) ∧
      (Does (do L.checkRegs (ivRegs (o.ttag == 4) d); L.cvtSource a) (b.start s t l) v y) ∧
      (Does (L.wrIvBits (o.ttag == 4) d (ivBits (o.ttag == 4) v)) y () z)) := by
  refine ⟨?_, ?_, ?_, ?_, ?_, ?_⟩
  · exact ⟨⟨false, 0, 0⟩, _, List.Mem.head _, Hdr.plain, .g 3, .f 3, .f 4, (st 1), batch, (team 1), 0, _, _, _, _, _,
      solo _ _ _ rfl rfl rfl (by decide +kernel) rfl (by decide +kernel) (by decide +kernel),
      does_out (by decide +kernel), does_out (by decide +kernel)⟩
  · exact ⟨Hdr.plain, .f 6, .f 9, .g 20, ⟨false, false, false⟩, (st 1), batch, (team 1), 0, _, _, _,
      solo _ _ _ rfl rfl rfl (by decide +kernel) rfl (by decide +kernel) (by decide +kernel),
      does_out (by decide +kernel), by decide +kernel,
      does_val (by decide +kernel) (by decide +kernel) (by decide +kernel), does_out (by decide +kernel)⟩
  · exact ⟨Hdr.plain, .f 6, .f 3, 20, ⟨false, false, false⟩, (pkg full), batch, full, 0, _, _, _, _,
      lone _ _ _ rfl rfl rfl rfl (by decide +kernel) (by decide +kernel), does_out (by decide +kernel),
      by decide +kernel, team_here (by decide +kernel), by decide +kernel, does_out (by decide +kernel)⟩
  · exact ⟨Hdr.plain, .f 6, .f 3, .g 20, ⟨false, false, false⟩, (st 1), batch, (team 1), 0, _, _, _, _, _, _,
      solo _ _ _ rfl rfl rfl (by decide +kernel) rfl (by decide +kernel) (by decide +kernel),
      does_out (by decide +kernel), by decide +kernel, team_here (by decide +kernel),
      some_out (by decide +kernel), some_out (by decide +kernel), by decide +kernel,
      does_val (by decide +kernel) rfl (by decide +kernel), does_out (by decide +kernel)⟩
  · exact ⟨Hdr.plain, .f 3, .w, ⟨false, .g 2, none, 0⟩, (st 1), batch, (team 1), 0, _, _, _, _,
      solo _ _ _ rfl rfl rfl (by decide +kernel) rfl (by decide +kernel) (by decide +kernel),
      does_out (by decide +kernel), does_out (by decide +kernel)⟩
  · exact ⟨Hdr.plain, .f 6, .f 3, ⟨3, false, false, 0⟩, (st 1), batch, (team 1), 0, _, _, _,
      solo _ _ _ rfl rfl rfl (by decide +kernel) rfl (by decide +kernel) (by decide +kernel),
      does_out (by decide +kernel), does_out (by decide +kernel)⟩

theorem witness_LoadWords :
  (∃ (h : Hdr) (d : Opnd) (wid : Wid) (m : MemOpnd) (s : State) (b : Issue) (t : Team) (l av bv : Nat) (y z : LS),
      (Solo s b t l h.guard) ∧
      (Does (do L.checkRegs (regRun d (widRegs wid)); L.checkAddr m; L.addrOps m) (b.start s t l) (av, bv) y) ∧
      (Landed (.ld h d wid m) h (addrCap av bv 0) (loadFrom m wid .load (loaded wid) 0 (addrCap av bv 0)) y z)) ∧
  (∃ (h : Hdr) (d : Opnd) (wid : Wid) (m : MemOpnd) (s : State) (b : Issue) (t : Team) (l av bv : Nat) (y z : LS),
      (Solo s b t l h.guard) ∧
      (Does (do L.checkRegs (regRun d (widRegs wid)); L.checkAddr m; L.addrOps m) (b.start s t l) (av, bv) y) ∧
      (Landed (.lda h d wid m) h (addrCap av bv 0) (loadFrom m wid .lda (loaded wid) 0 (addrCap av bv 0)) y z)) ∧
  (∃ (h : Hdr) (d : Opnd) (wid : Wid) (m : MemOpnd) (s : State) (b : Issue) (t : Team) (l av bv : Nat) (y z : LS),
      (Solo s b t l h.guard) ∧
      (Does (do L.checkRegs (regRun d (if wid = .q then 2 else 1)); L.checkAddr m; L.addrOps m) (b.start s t l) (av, bv) y) ∧
      (Landed (.ldf h d wid m) h (addrCap av bv 0) (loadFrom m wid .load (BitVec.ofNat 128) (if wid = .w then 2 else 1) (addrCap av bv 0))
      y z)) ∧
  (∃ (h : Hdr) (n : BitVec 2) (wid : Wid) (m : MemOpnd) (s : State) (b : Issue) (t : Team) (l r : Nat) (v : Word) (av bv : Nat) (y z : LS),
      (Solo s b t l h.guard) ∧
      (Does (do
      let r ← L.arrayReg (.i n) wid
      L.checkAddr m
      let x ← L.addrOps m
      return (r, x, ← L.rdI n.toNat)) (b.start s t l) (r, (av, bv), v) y) ∧
      (Landed (.ldp h (.i n) wid m) h (addrCap av bv v) (loadFrom m wid .load (loaded wid) 0 (addrCap av bv v)) y z)) ∧
  (∃ (h : Hdr) (d : Opnd) (wid : Wid) (m : MemOpnd) (s : State) (b : Issue) (t : Team) (l av bv : Nat) (y z : LS),
      (Solo s b t l h.guard) ∧
      (Does (do L.wholeWave; L.checkAddr m; L.addrOps m) (b.start s t l) (av, bv) y) ∧
      (Landed (.lds h d wid m) h (addrCap av bv 0) (loadFrom m wid .load (loaded wid) 0 (addrCap av bv 0)) y z) ∧
      (unisAgree z.unis = true)) := by
  refine ⟨?_, ?_, ?_, ?_, ?_⟩
  · exact ⟨Hdr.plain, .g 3, .w, ⟨false, .g 2, none, 0⟩, (st 1), batch, (team 1), 0, _, _, _, _,
      solo _ _ _ rfl rfl rfl (by decide +kernel) rfl (by decide +kernel) (by decide +kernel),
      does_out (by decide +kernel),
      landed_out (by decide +kernel) (by decide +kernel) (by decide +kernel) (by decide +kernel) (by decide +kernel)⟩
  · exact ⟨Hdr.plain, .g 3, .w, ⟨false, .g 2, none, 0⟩, (st 1), batch, (team 1), 0, _, _, _, _,
      solo _ _ _ rfl rfl rfl (by decide +kernel) rfl (by decide +kernel) (by decide +kernel),
      does_out (by decide +kernel),
      landed_out (by decide +kernel) (by decide +kernel) (by decide +kernel) (by decide +kernel) (by decide +kernel)⟩
  · exact ⟨Hdr.plain, .g 3, .w, ⟨false, .g 2, none, 0⟩, (st 1), batch, (team 1), 0, _, _, _, _,
      solo _ _ _ rfl rfl rfl (by decide +kernel) rfl (by decide +kernel) (by decide +kernel),
      does_out (by decide +kernel),
      landed_out (by decide +kernel) (by decide +kernel) (by decide +kernel) (by decide +kernel) (by decide +kernel)⟩
  · exact ⟨Hdr.plain, 1, .w, ⟨false, .g 2, none, 0⟩, (st 1), batch, (team 1), 0, _, _, _, _, _, _,
      solo _ _ _ rfl rfl rfl (by decide +kernel) rfl (by decide +kernel) (by decide +kernel),
      does_out (by decide +kernel),
      landed_out (by decide +kernel) (by decide +kernel) (by decide +kernel) (by decide +kernel) (by decide +kernel)⟩
  · exact ⟨Hdr.plain, .s 4, .w, ⟨false, .g 2, none, 0⟩, (st 1), batch, (team 1), 0, _, _, _, _,
      solo _ _ _ rfl rfl rfl (by decide +kernel) rfl (by decide +kernel) (by decide +kernel),
      does_out (by decide +kernel),
      landed_out (by decide +kernel) (by decide +kernel) (by decide +kernel) (by decide +kernel) (by decide +kernel),
      by decide +kernel⟩

theorem witness_StoreWords :
  (∃ (h : Hdr) (d : Opnd) (wid : Wid) (m : MemOpnd) (s : State) (b : Issue) (t : Team) (l v ea : Nat) (y z : LS),
      (Solo s b t l h.guard) ∧
      (Does (do
      L.checkRegs (regRun d (widRegs wid))
      L.checkAddr m
      let v ← L.rdRun (match wid with | .d => regRun d 2 | .q => regRun d 4 | _ => [d])
      let (av, bv) ← L.addrOps m
      return (v, ← L.access 1 m (bytesOf wid) av bv)) (b.start s t l) (v, ea) y) ∧
      (Does (if m.scratch then L.storeScr ea (bytesOf wid) (v % 2 ^ (8 * bytesOf wid))
      else L.store .store ea (bytesOf wid) (v % 2 ^ (8 * bytesOf wid))) y () z)) ∧
  (∃ (h : Hdr) (d : Opnd) (wid : Wid) (m : MemOpnd) (s : State) (b : Issue) (t : Team) (l v ea : Nat) (y z : LS),
      (Solo s b t l h.guard) ∧
      (Does (do
      L.checkRegs (regRun d (if wid = .q then 2 else 1))
      L.checkAddr m
      let v ← L.rdFRun (regRun d (if wid = .q then 2 else 1))
      let (av, bv) ← L.addrOps m
      return (v, ← L.access 1 m (bytesOf wid) av bv)) (b.start s t l) (v, ea) y) ∧
      (Does (if m.scratch then L.storeScr ea (bytesOf wid) (v % 2 ^ (8 * bytesOf wid))
      else L.store .store ea (bytesOf wid) (v % 2 ^ (8 * bytesOf wid))) y () z)) ∧
  (∃ (h : Hdr) (d : Opnd) (wid : Wid) (m : MemOpnd) (s : State) (b : Issue) (t : Team) (l : Nat) (lo hi : Word) (ea : Nat) (y z : LS),
      (Solo s b t l h.guard) ∧
      (Does (do
      let r ← L.arrayReg d wid
      L.checkAddr m
      let lo ← L.rdG r
      let hi ← if wid = .d then L.rdG (r + 1) else pure 0
      let (av, bv) ← L.addrOps m
      return (lo, hi, ← L.access 1 m (bytesOf wid) av bv)) (b.start s t l) (lo, hi, ea) y) ∧
      (Does (if m.scratch then L.storeScr ea (bytesOf wid) ((lo.toNat + 2 ^ 32 * hi.toNat) % 2 ^ (8 * bytesOf wid))
      else L.store .store ea (bytesOf wid) ((lo.toNat + 2 ^ 32 * hi.toNat) % 2 ^ (8 * bytesOf wid))) y () z)) ∧
  (∃ (h : Hdr) (d : Opnd) (wid : Wid) (m : MemOpnd) (s : State) (b : Issue) (t : Team) (l v ea : Nat) (pa : Option Nat) (leaf : QWord) (y y' z : LS),
      (Solo s b t l h.guard) ∧
      (Does (do
      L.checkRegs (regRun d (widRegs wid))
      L.checkAddr m
      let v ← L.rdRun (match wid with | .d => regRun d 2 | .q => regRun d 4 | _ => [d])
      let (av, bv) ← L.addrOps m
      let a ← L.access 1 m (bytesOf wid) av bv
      return (v, a, ← L.locate .stl a (bytesOf wid))) (b.start s t l) (v, ea, pa, leaf) y) ∧
      (Does (L.release (lfScope leaf)) y () y') ∧
      (Does (L.store .stl ea (bytesOf wid) (v % 2 ^ (8 * bytesOf wid))) y' () z)) ∧
  (∃ (h : Hdr) (a e : Opnd) (s : State) (b : Issue) (t : Team) (l : Nat) (n : Word) (ea : Nat) (y z : LS),
      (Solo s b t l h.guard) ∧
      (Does (do L.checkPage a [a, e]; return (← L.rdW e, ← L.rdPair a)) (b.start s t l) (n, ea) y) ∧
      (ea < 2 ^ 52) ∧
      (n.toNat % 4 = 0) ∧
      (n ≠ 0) ∧
      (ea % 4096 + n.toNat ≤ 4096) ∧
      (Does (do L.zfillCheck false ea (n.toNat / 4); L.store .store ea n.toNat 0) y () z)) ∧
  (∃ (h : Hdr) (a e : Opnd) (s : State) (b : Issue) (t : Team) (l : Nat) (n ea : Word) (y z : LS),
      (Solo s b t l h.guard) ∧
      (Does (do L.checkRegs [a, e]; return (← L.rdW e, ← L.rdW a)) (b.start s t l) (n, ea) y) ∧
      (n.toNat % 4 = 0) ∧
      (n ≠ 0) ∧
      (ea.toNat % 4096 + n.toNat ≤ 4096) ∧
      (Does (L.zfillCheck true ea.toNat (n.toNat / 4)) y () z)) := by
  refine ⟨?_, ?_, ?_, ?_, ?_, ?_⟩
  · exact ⟨Hdr.plain, .g 3, .w, ⟨false, .g 2, none, 0⟩, (st 1), batch, (team 1), 0, _, _, _, _,
      solo _ _ _ rfl rfl rfl (by decide +kernel) rfl (by decide +kernel) (by decide +kernel),
      does_out (by decide +kernel), does_out (by decide +kernel)⟩
  · exact ⟨Hdr.plain, .f 0, .w, ⟨false, .g 2, none, 0⟩, (st 1), batch, (team 1), 0, _, _, _, _,
      solo _ _ _ rfl rfl rfl (by decide +kernel) rfl (by decide +kernel) (by decide +kernel),
      does_out (by decide +kernel), does_out (by decide +kernel)⟩
  · exact ⟨Hdr.plain, .i 1, .w, ⟨false, .g 2, none, 0⟩, (st 1), batch, (team 1), 0, _, _, _, _, _,
      solo _ _ _ rfl rfl rfl (by decide +kernel) rfl (by decide +kernel) (by decide +kernel),
      does_out (by decide +kernel), does_out (by decide +kernel)⟩
  · exact ⟨Hdr.plain, .g 3, .w, ⟨false, .g 2, none, 0⟩, (st 1), batch, (team 1), 0, _, _, _, _, _, _, _,
      solo _ _ _ rfl rfl rfl (by decide +kernel) rfl (by decide +kernel) (by decide +kernel),
      does_out (by decide +kernel), does_out (by decide +kernel), does_out (by decide +kernel)⟩
  · exact ⟨Hdr.plain, .g 2, .g 16, (st 1), batch, (team 1), 0, _, _, _, _,
      solo _ _ _ rfl rfl rfl (by decide +kernel) rfl (by decide +kernel) (by decide +kernel),
      does_out (by decide +kernel), by decide +kernel, by decide +kernel, by decide +kernel,
      id (by decide +kernel), does_out (by decide +kernel)⟩
  · exact ⟨Hdr.plain, .g 16, .g 16, (st 1), batch, (team 1), 0, _, _, _, _,
      solo _ _ _ rfl rfl rfl (by decide +kernel) rfl (by decide +kernel) (by decide +kernel),
      does_out (by decide +kernel), by decide +kernel, by decide +kernel, by decide +kernel,
      does_out (by decide +kernel)⟩

theorem witness_AccessReachesTheFrame :
  (∃ (kind : AK) (ea size pa : Nat) (leaf : QWord) (x y : LS),
      (kind ≠ .lda) ∧
      (Does (L.locate kind ea size) x (some pa, leaf) y) ∧
      (y.st.poisoned pa size = false)) ∧
  (∃ (kind : AK) (ea size v pa : Nat) (leaf : QWord) (x y : LS),
      (kind ≠ .stl) ∧
      (Does (L.locate kind ea size) { x with effs := x.effs ++ [⟨false, ea, v⟩] } (some pa, leaf) y)) ∧
  (∃ (s : State) (pa size v a : Nat),
      ((a < pa ∨ pa + size ≤ a))) ∧
  (∃ (s : State) (pa size v : Nat),
      (Memory.wf s.mem = true)) ∧
  (∃ (s : State) (p : Partition) (q : QWord) (r : Req),
      (lfMode q < 8) ∧
      (lfK q = false) ∧
      (inRegion s.pkg q r.agent = true) ∧
      ((r.fp && s.footprintHit r) = false) ∧
      ((lfMode q ≠ mHalo ∨ r.agent = lfOwner q))) ∧
  (∃ (s : State) (p : Partition) (q : QWord) (r : Req),
      (lfK q = true) ∧
      (r.lvl = 0)) ∧
  (∃ (s : State) (p : Partition) (q : QWord) (r : Req),
      (r.lvl ≠ 0) ∧
      (inRegion s.pkg q r.agent = false)) := by
  refine ⟨?_, ?_, ?_, ?_, ?_, ?_, ?_⟩
  · exact ⟨.load, 0x2000, 4, _, _, (batch.start (st 1) (team 1) 0), _, by decide +kernel,
      does_some (by decide +kernel) (by decide +kernel), by decide +kernel⟩
  · exact ⟨.store, 0x2000, 4, 7, _, _, (batch.start (st 1) (team 1) 0), _, by decide +kernel,
      does_some (by decide +kernel) (by decide +kernel)⟩
  · exact ⟨(st 1), 0x7000, 4, 0, 0x6000, by decide +kernel⟩
  · exact ⟨(st 1), 0x7000, 4, 7, by decide +kernel⟩
  · exact ⟨(st 1), part, (BitVec.ofNat 128 (entryWord mOwned 3 7 0xFFF 0)), ⟨0, 0, 0, 1, .load, 0x2000, 4, false⟩,
      by decide +kernel, by decide +kernel, by decide +kernel, id (by decide +kernel), by decide +kernel⟩
  · exact ⟨(st 1), part, (BitVec.ofNat 128 (entryWord mOwned 3 7 0xFFF 0 + 2 ^ 10)),
      ⟨0, 0, 0, 0, .load, 0x2000, 4, false⟩, by decide +kernel, by decide +kernel⟩
  · exact ⟨(st 1), part, (BitVec.ofNat 128 (entryWord mOwned 0 7 0xFFF 0)),
      ⟨0, 0xFFFF, 0, 1, .load, 0x2000, 4, false⟩, by decide +kernel, by decide +kernel⟩

theorem witness_AtomicWords :
  (∃ (h : Hdr) (d a c : Opnd) (o : AOpt) (s : State) (b : Issue) (t : Team) (l av v : Nat) (y z : LS),
      (Solo s b t l h.guard) ∧
      (Does (do
      L.checkPage a (regRun c (if o.dbl then 2 else 1) ++ regRun d (if o.dbl then 2 else 1))
      return (← L.rdPair a, ← L.rdRun (regRun c (if o.dbl then 2 else 1)))) (b.start s t l) (av, v) y) ∧
      (Landed (.amo h d a c o) h { Cap.zero with av := BitVec.ofNat 128 av, bv := BitVec.ofNat 128 v } (do
      let old ← L.atomic (if o.dbl then 8 else 4) false false o
        { Cap.zero with av := BitVec.ofNat 128 av, bv := BitVec.ofNat 128 v }
      return (BitVec.ofNat 128 old, 0)) y z)) ∧
  (∃ (h : Hdr) (d a c : Opnd) (o : AOpt) (s : State) (b : Issue) (t : Team) (l av v w : Nat) (y z : LS),
      (Solo s b t l h.guard) ∧
      (Does (do
      L.checkPage a (regRun c (if o.dbl then 2 else 1) ++ regRun d (if o.dbl then 2 else 1))
      return (← L.rdPair a, ← L.rdRun (regRun c (if o.dbl then 2 else 1)), ← L.rdRun (regRun d (if o.dbl then 2 else 1))))
      (b.start s t l) (av, v, w) y) ∧
      (Landed (.cas h d a c o) h
      { Cap.zero with av := BitVec.ofNat 128 av, bv := BitVec.ofNat 128 v, dv := BitVec.ofNat 128 w } (do
      let old ← L.atomic (if o.dbl then 8 else 4) false true o
        { Cap.zero with av := BitVec.ofNat 128 av, bv := BitVec.ofNat 128 v, dv := BitVec.ofNat 128 w }
      return (BitVec.ofNat 128 old, 0)) y z)) ∧
  (∃ (h : Hdr) (d a c : Opnd) (o : AOpt) (s : State) (b : Issue) (t : Team) (l av : Nat) (x1 : DWord × BitVec 4) (k : Cap) (y z : LS),
      (Solo s b t l h.guard) ∧
      (Does (do
      L.checkPage a [c, d]
      L.tagIn [if o.dbl then 1 else 2] c
      return (← L.rdPair a, ← L.rdD c)) (b.start s t l) (av, x1) y) ∧
      (k = { Cap.zero with av := BitVec.ofNat 128 av, bv := BitVec.ofNat 128 (x1.1.toNat % 2 ^ (if o.dbl then 64 else 32)) }) ∧
      (Landed (.amof h d a c o) h k (do
      let old ← L.atomic (if o.dbl then 8 else 4) true false o k
      return (BitVec.ofNat 128 (canonical o.dbl old), if o.dbl then 1 else 2)) y z)) ∧
  (∃ (size : Nat) (fp cas : Bool) (o : AOpt) (c : Cap) (pa pa0 : Nat) (leaf leaf' : QWord) (p : Partition) (x y y' z : LS),
      (c.av.toNat < 2 ^ 52) ∧
      (c.av.toNat % size = 0) ∧
      (Does (L.locate .amo c.av.toNat size) x (some pa0, leaf) y) ∧
      (Does L.part y p y) ∧
      (Does (L.asked c.av.toNat) y none y) ∧
      (Does (if 2 ≤ o.ord.toNat then L.release (lfScope leaf) else pure ()) y () y') ∧
      (Does (L.locateAtomic .amo c.av.toNat size)
      { y' with effs := y'.effs ++ [⟨false, c.av.toNat, c.bv.toNat + c.dv.toNat * 2 ^ 64⟩] } (some pa, leaf') z) ∧
      (z.st.poisoned pa size = false)) ∧
  (∃ (h : Hdr) (d : Opnd) (m : MemOpnd) (s : State) (b : Issue) (t : Team) (l : Nat) (v : Word) (ea pa : Nat) (leaf : QWord) (p : Partition) (y z : LS),
      (Solo s b t l h.guard) ∧
      (Does (do
      L.checkReg d
      L.checkAddr m
      let v ← L.rdW d
      let (av, bv) ← L.addrOps m
      return (v, ← L.access 2 m 4 av bv)) (b.start s t l) (v, ea) y) ∧
      (Does (L.locate .red ea 4) { y with effs := y.effs ++ [⟨false, ea, v.toNat⟩] } (some pa, leaf) z) ∧
      (Does L.part z p z)) := by
  refine ⟨?_, ?_, ?_, ?_, ?_⟩
  · exact ⟨Hdr.plain, .g 3, .g 2, .g 5, ⟨false, 0, 0⟩, (st 1), batch, (team 1), 0, _, _, _, _,
      solo _ _ _ rfl rfl rfl (by decide +kernel) rfl (by decide +kernel) (by decide +kernel),
      does_out (by decide +kernel),
      landed_out (by decide +kernel) (by decide +kernel) (by decide +kernel) (by decide +kernel) (by decide +kernel)⟩
  · exact ⟨Hdr.plain, .g 3, .g 2, .g 5, ⟨false, 0, 0⟩, (st 1), batch, (team 1), 0, _, _, _, _, _,
      solo _ _ _ rfl rfl rfl (by decide +kernel) rfl (by decide +kernel) (by decide +kernel),
      does_out (by decide +kernel),
      landed_out (by decide +kernel) (by decide +kernel) (by decide +kernel) (by decide +kernel) (by decide +kernel)⟩
  · exact ⟨Hdr.plain, .f 5, .g 2, .f 0, ⟨false, 0, 0⟩, (st 1), batch, (team 1), 0, _, _, _, _, _,
      solo _ _ _ rfl rfl rfl (by decide +kernel) rfl (by decide +kernel) (by decide +kernel),
      does_out (by decide +kernel), rfl,
      landed_out (by decide +kernel) (by decide +kernel) (by decide +kernel) (by decide +kernel) (by decide +kernel)⟩
  · exact ⟨4, false, false, ⟨false, 2, 0⟩, { Cap.zero with av := 0x2000 }, _, _, _, _, _,
      (batch.start (st 1) (team 1) 0), _, _, _, by decide +kernel, by decide +kernel,
      does_some (by decide +kernel) (by decide +kernel), part_here (by decide +kernel),
      does_val (by decide +kernel) (by decide +kernel) (by decide +kernel), does_out (by decide +kernel),
      does_some (by decide +kernel) (by decide +kernel), by decide +kernel⟩
  · exact ⟨Hdr.plain, .g 3, ⟨false, .g 10, none, 0⟩, (wide (st 1)), batch, (team 1), 0, _, _, _, _, _, _, _,
      solo _ _ _ rfl rfl rfl (by decide +kernel) rfl (by decide +kernel) (by decide +kernel),
      does_out (by decide +kernel), does_some (by decide +kernel) (by decide +kernel),
      part_here (by decide +kernel)⟩

theorem witness_OrderingWords :
  (∃ (h : Hdr) (a : Opnd) (kind : BitVec 2) (s : State) (b : Issue) (t : Team) (l va : Nat) (q : QWord) (f : Fibre) (y z : LS),
      (Solo s b t l h.guard) ∧
      (Does (do
      L.checkPage a []
      let va ← L.pageAddr 4 a
      return (va, ← L.fenceLeaf va)) (b.start s t l) (va, q) y) ∧
      ((kind = 1 → z = y)) ∧
      ((kind ≠ 1 → y.st.fibre? b.agent b.wave l = some f ∧ f.remoteWrites = [] ∧ Does (L.release (lfScope q)) y () z))) ∧
  (∃ (h : Hdr) (a : Opnd) (kind : BitVec 2) (s : State) (b : Issue) (t : Team) (l va : Nat) (q : QWord) (f : Fibre) (y z : LS),
      (Solo s b t l h.guard) ∧
      (Does (do
      L.checkPage a []
      let va ← L.pageAddr 4 a
      return (va, ← L.fenceLeaf va)) (b.start s t l) (va, q) y) ∧
      ((kind = 1 → z = y)) ∧
      ((kind ≠ 1 → y.st.fibre? b.agent b.wave l = some f ∧ f.remoteWrites = [] ∧ Does (L.release (lfScope q)) y () z))) ∧
  (∃ (h : Hdr) (a : Opnd) (s : State) (b : Issue) (t : Team) (l va addr : Nat) (q : QWord) (y : LS),
      (Solo s b t l h.guard) ∧
      (Does (do
      L.checkPage a []
      let va ← L.pageAddr 4 a
      return (va, ← L.pageLeaf va 4)) (b.start s t l) (va, q, addr) y) ∧
      (y.lvl ≠ 0) ∧
      (inRegion y.st.pkg q b.agent = true) ∧
      (lfMode q = mPtab)) ∧
  (∃ (h : Hdr) (a : Opnd) (s : State) (b : Issue) (t : Team) (l : Nat) (v : Word) (t' : Team) (y : LS),
      (Solo s b t l h.guard) ∧
      (Does (do L.checkReg a; return (← L.rdW a, ← L.team)) (b.start s t l) (v, t') y) ∧
      ((v.extractLsb' 0 12 = y.st.pkg ∨
      (∀ x ∈ t'.onPath, x.2.2 ≠ 0 → v.extractLsb' 0 12 ≠ 0xFFF ∧ x.1 ≠ v.extractLsb' 0 12) ∧
      ∀ j ∈ y.st.jobs, y.st.toSend t' (v.extractLsb' 0 12).toNat j = false))) ∧
  (∃ (h : Hdr) (d : Opnd) (s : State) (b : Issue) (t : Team) (l : Nat) (y z : LS),
      (Solo s b t l h.guard) ∧
      ((t.wave b.wave).pendingLane l = false) ∧
      (Does (L.checkReg d) (b.start s t l) () y) ∧
      (Does (L.wrW d t.chki) y () z)) := by
  refine ⟨?_, ?_, ?_, ?_, ?_⟩
  · exact ⟨Hdr.plain, .g 2, 1, (st 1), batch, (team 1), 0, _, _, default, _, _,
      solo _ _ _ rfl rfl rfl (by decide +kernel) rfl (by decide +kernel) (by decide +kernel),
      does_out (by decide +kernel), Function.const _ rfl, fun h => absurd h (by decide)⟩
  · exact ⟨Hdr.plain, .g 2, 2, (st 1), batch, (team 1), 0, _, _, _, _, _,
      solo _ _ _ rfl rfl rfl (by decide +kernel) rfl (by decide +kernel) (by decide +kernel),
      does_out (by decide +kernel), fun h => absurd h (by decide),
      Function.const _ ⟨some_out (by decide +kernel), by decide +kernel, does_out (by decide +kernel)⟩⟩
  · exact ⟨Hdr.plain, .g 18, (wide (st 1)), batch, (team 1), 0, _, _, _, _,
      solo _ _ _ rfl rfl rfl (by decide +kernel) rfl (by decide +kernel) (by decide +kernel),
      does_out (by decide +kernel), by decide +kernel, by decide +kernel, by decide +kernel⟩
  · exact ⟨Hdr.plain, .g 1, (st 1), batch, (team 1), 0, _, _, _,
      solo _ _ _ rfl rfl rfl (by decide +kernel) rfl (by decide +kernel) (by decide +kernel),
      does_out (by decide +kernel), by decide +kernel⟩
  · exact ⟨Hdr.plain, .g 3, (st 1), batch, (team 1), 0, _, _,
      solo _ _ _ rfl rfl rfl (by decide +kernel) rfl (by decide +kernel) (by decide +kernel),
      by decide +kernel, does_out (by decide +kernel), does_out (by decide +kernel)⟩

theorem witness_OwnershipWords :
  (∃ (h : Hdr) (a e : Opnd) (code : Bool) (s : State) (b : Issue) (t : Team) (l n va : Nat) (y z : LS),
      (Solo s b t l h.guard) ∧
      ((code = true → t.levelAt b.wave l ≠ 0)) ∧
      (Does (do
      L.checkPage a [e]
      let n ← L.pageCount e
      return (n, ← L.pageAddr 8 a)) (b.start s t l) (n, va) y) ∧
      (Does (do
      L.modePages (fun _ => [mOwned]) (fun _ => true) true (pageRun va n)
      (pageRun va n).forM (fun va => do
        let (q, _) ← L.pageLeaf va 8
        L.release (lfScope q)
        let p ← L.part
        L.modSt (·.sealPage p (coreOf b.agent) (va / 4096) code))) y () z)) ∧
  (∃ (h : Hdr) (a e : Opnd) (s : State) (b : Issue) (t : Team) (l n va : Nat) (mine : List Move) (y : LS),
      (Solo s b t l h.guard) ∧
      (Does (do
      L.checkPage a [e]
      let n ← L.pageCount e
      return (n, ← L.pageAddr 8 a)) (b.start s t l) (n, va) y) ∧
      (mine = y.st.moves.filter (fun m => m.waiter == some (b.agent, b.wave, l))) ∧
      (mine ≠ []) ∧
      ((∀ m ∈ mine, m.st = .commit))) ∧
  (∃ (h : Hdr) (a e : Opnd) (s : State) (b : Issue) (t : Team) (l : Nat) (v : Word) (va addr : Nat) (q0 q : QWord) (p : Partition) (y z : LS),
      (Solo s b t l h.guard) ∧
      (Does (do
      L.checkPage a [e]
      let v ← L.rdW e
      let va ← L.pageAddr 8 a
      let q ← L.modePage va (fun _ => [mOwned]) (fun _ => true) true (some (v.extractLsb' 0 16))
      L.release (lfScope q)
      return (v, va, q, ← L.part)) (b.start s t l) (v, va, q0, p) y) ∧
      (leafAt y.st p (va / 4096) = some (q, addr)) ∧
      ((coreOf (v.extractLsb' 0 16) = coreOf b.agent ∨ lfPkg q0 ≠ 0xFFF ∨
      y.st.frameAt (lfFrame q0) 3 (coreOf b.agent) = false)) ∧
      (z = { y with
      st := (y.st.writeLeaf addr (lfSet (lfBump q) 16 16 (v.toNat % 2 ^ 16))).dropEntry (coreOf b.agent) p.id (va / 4096) })) ∧
  (∃ (h : Hdr) (a e : Opnd) (s : State) (b : Issue) (t : Team) (l : Nat) (v : Word) (va addr addr1 f : Nat) (q0 q q1 : QWord) (p : Partition) (s1 : State) (y z : LS),
      (Solo s b t l h.guard) ∧
      (Does (do
      L.checkPage a [e]
      let v ← L.rdW e
      let va ← L.pageAddr 8 a
      let q ← L.modePage va (fun _ => [mOwned]) (fun _ => true) true (some (v.extractLsb' 0 16))
      L.release (lfScope q)
      return (v, va, q, ← L.part)) (b.start s t l) (v, va, q0, p) y) ∧
      (leafAt y.st p (va / 4096) = some (q, addr)) ∧
      (coreOf (v.extractLsb' 0 16) ≠ coreOf b.agent) ∧
      (lfPkg q0 = 0xFFF) ∧
      (y.st.frameAt (lfFrame q0) 3 (coreOf b.agent) = true) ∧
      (y.st.homeFrame p (va / 4096) = some f) ∧
      (s1 = (y.st.copyPage (lfFrame q * 4096) (f * 4096)).commitFrame p.id (va / 4096) q addr 0 f) ∧
      (leafAt s1 p (va / 4096) = some (q1, addr1)) ∧
      (z = { y with
      st := (s1.writeLeaf addr (lfSet (lfBump q1) 16 16 (v.toNat % 2 ^ 16))).dropEntry (coreOf b.agent) p.id (va / 4096) })) ∧
  (∃ (h : Hdr) (a e : Opnd) (s : State) (b : Issue) (t : Team) (l n va : Nat) (p : Partition) (y y' : LS),
      (Solo s b t l h.guard) ∧
      (Does (do
      L.checkPage a [e]
      let n ← L.pageCount e
      return (n, ← L.pageAddr 8 a)) (b.start s t l) (n, va) y) ∧
      ((∀ m ∈ y.st.moves, m.waiter ≠ some (b.agent, b.wave, l))) ∧
      (Does (do
      L.modePages (fun _ => [mSealed, mCode]) (fun _ => decide (t.levelAt b.wave l = 0)) true (pageRun va n)
      L.part) y p y')) := by
  refine ⟨?_, ?_, ?_, ?_, ?_⟩
  · exact ⟨Hdr.plain, .g 2, .s 1, false, (st 1), batch, (team 1), 0, _, _, _, _,
      solo _ _ _ rfl rfl rfl (by decide +kernel) rfl (by decide +kernel) (by decide +kernel),
      by decide +kernel, does_out (by decide +kernel), does_out (by decide +kernel)⟩
  · exact ⟨Hdr.plain, .g 2, .s 1,
      { st 1 with moves := [{ (default : Move) with st := .commit, waiter := some (0, 0, 0) }] }, batch,
      (team 1), 0, _, _, _, _,
      solo _ _ _ rfl rfl rfl (by decide +kernel) rfl (by decide +kernel) (by decide +kernel),
      does_out (by decide +kernel), rfl, by decide +kernel, by decide +kernel⟩
  · exact ⟨Hdr.plain, .g 2, .s 1, (st 1), batch, (team 1), 0, _, _, _, _, _, _, _, _,
      solo _ _ _ rfl rfl rfl (by decide +kernel) rfl (by decide +kernel) (by decide +kernel),
      does_out (by decide +kernel), some_out (by decide +kernel), by decide +kernel, rfl⟩
  · exact ⟨Hdr.plain, .g 2, .g 32, nearPage, batch, (team 1), 0, _, _, _, _, _, _, _, _, _, _, _, _,
      solo _ _ _ rfl rfl rfl (by decide +kernel) rfl (by decide +kernel) (by decide +kernel),
      does_out (by decide +kernel), some_out (by decide +kernel), by decide +kernel, by decide +kernel,
      by decide +kernel, some_out (by decide +kernel), rfl, some_out (by decide +kernel), rfl⟩
  · exact ⟨Hdr.plain, .g 12, .s 1, (wide (st 1)), batch, (team 1), 0, _, _, _, _, _,
      solo _ _ _ rfl rfl rfl (by decide +kernel) rfl (by decide +kernel) (by decide +kernel),
      does_out (by decide +kernel), by decide +kernel, does_out (by decide +kernel)⟩

theorem witness_OwnershipWords_2 :
  (∃ (h : Hdr) (a : Opnd) (s : State) (b : Issue) (t : Team) (l va : Nat) (q : QWord) (y : LS),
      (Solo s b t l h.guard) ∧
      (Does (do
      L.checkPage a []
      let va ← L.pageAddr 8 a
      return (va, ← L.modePage va (fun _ => [mOwned]) (fun _ => false) false none)) (b.start s t l) (va, q) y) ∧
      (lfOwner q = b.agent)) ∧
  (∃ (h : Hdr) (a : Opnd) (s : State) (b : Issue) (t : Team) (l va : Nat) (q : QWord) (p : Partition) (y : LS),
      (Solo s b t l h.guard) ∧
      (Does (do
      L.checkPage a []
      let va ← L.pageAddr 8 a
      let q ← L.modePage va (fun _ => [mHalo]) (fun _ => true) false none
      L.release (lfScope q)
      return (va, q, ← L.part)) (b.start s t l) (va, q, p) y) ∧
      (((y.st.stripFrames p (va / 4096) q).2 = [] ∨ ∃ w, y.st.wave? b.agent b.wave = some w ∧
      ∃ k ∈ w.stuck, k.pc = b.pc ∧ k.why = .lanes ∧ l ∈ k.todo))) ∧
  (∃ (h : Hdr) (a : Opnd) (s : State) (b : Issue) (t : Team) (l va : Nat) (q : QWord) (p : Partition) (w : Wave) (y : LS),
      (Solo s b t l h.guard) ∧
      (Does (do
      L.checkPage a []
      let va ← L.pageAddr 8 a
      let q ← L.modePage va (fun _ => [mHalo]) (fun _ => true) false none
      L.release (lfScope q)
      return (va, q, ← L.part)) (b.start s t l) (va, q, p) y) ∧
      ((y.st.stripFrames p (va / 4096) q).2 ≠ []) ∧
      (y.st.wave? b.agent b.wave = some w) ∧
      ((∀ k ∈ w.stuck, k.pc ≠ b.pc))) ∧
  (∃ (h : Hdr) (d a e : Opnd) (lvl : BitVec 2) (s : State) (b : Issue) (t : Team) (l n va k : Nat) (y y' z : LS),
      (Solo s b t l h.guard) ∧
      (Does (do
      L.checkPage a [e, d]
      let n ← L.pageCount e
      return (n, ← L.pageAddr 8 a)) (b.start s t l) (n, va) y) ∧
      (Does (do
      L.modePages (fun _ => [mOwned, mSealed, mCode]) (fun q => lfMode q == mOwned) false (pageRun va n)
      L.acceptRun (L.placePage lvl.toNat) (pageRun va n)) y k y') ∧
      (Does (L.wrW d (BitVec.ofNat 32 k)) y' () z)) ∧
  (∃ (h : Hdr) (d a e : Opnd) (s : State) (b : Issue) (t : Team) (l n va k : Nat) (y y' z : LS),
      (Solo s b t l h.guard) ∧
      (Does (do
      L.checkPage a [e, d]
      let n ← L.pageCount e
      return (n, ← L.pageAddr 8 a)) (b.start s t l) (n, va) y) ∧
      (Does (do
      L.modePages (fun _ => [mOwned, mSealed, mCode]) (fun q => lfMode q == mOwned) false (pageRun va n)
      L.acceptRun L.evictPage (pageRun va n)) y k y') ∧
      (Does (L.wrW d (BitVec.ofNat 32 k)) y' () z)) := by
  refine ⟨?_, ?_, ?_, ?_, ?_⟩
  · exact ⟨Hdr.plain, .g 2, (st 1), batch, (team 1), 0, _, _, _,
      solo _ _ _ rfl rfl rfl (by decide +kernel) rfl (by decide +kernel) (by decide +kernel),
      does_out (by decide +kernel), by decide +kernel⟩
  · exact ⟨Hdr.plain, .g 8, (wide (st 1)), batch, (team 1), 0, _, _, _, _,
      solo _ _ _ rfl rfl rfl (by decide +kernel) rfl (by decide +kernel) (by decide +kernel),
      does_out (by decide +kernel), Or.inl (by decide +kernel)⟩
  · exact ⟨Hdr.plain, .g 8, haloed, batch, (team 1), 0, _, _, _, _, _,
      solo _ _ _ rfl rfl rfl (by decide +kernel) rfl (by decide +kernel) (by decide +kernel),
      does_out (by decide +kernel), by decide +kernel, some_out (by decide +kernel), by decide +kernel⟩
  · exact ⟨Hdr.plain, .g 3, .g 2, .s 1, 1, { st 1 with parts := [{ part with shares := [⟨.hbm, none, 0, 64⟩] }] },
      batch, (team 1), 0, _, _, _, _, _, _,
      solo _ _ _ rfl rfl rfl (by decide +kernel) rfl (by decide +kernel) (by decide +kernel),
      does_out (by decide +kernel), does_out (by decide +kernel), does_out (by decide +kernel)⟩
  · exact ⟨Hdr.plain, .g 3, .g 2, .s 1, (st 1), batch, (team 1), 0, _, _, _, _, _, _,
      solo _ _ _ rfl rfl rfl (by decide +kernel) rfl (by decide +kernel) (by decide +kernel),
      does_out (by decide +kernel), does_out (by decide +kernel), does_out (by decide +kernel)⟩

theorem witness_BatchCommands :
  ∃ (h : Hdr) (a c : Opnd) (arr : BitVec 2) (wf af n : BitVec 3) (mask : BitVec 4) (f : Bool),
      ∃ i ∈ batchCommands h a c arr wf af n mask f, ∃ (s : State) (b : Issue) (t : Team) (l : Nat) (k : CmdArgs) (t' : Team) (y y' : LS),
      (Solo s b t l h.guard) ∧
      (Does (L.batchCheck i) (b.start s t l) k y) ∧
      (y.st.jobRoom (coreOf b.agent) 1 = true) ∧
      (Does (L.release 0) y () y') ∧
      (y'.st.team? b.agent = some t') :=
  ⟨Hdr.plain, .g 1, .g 5, 0, 0, 0, 0, 0, false, _, List.Mem.head _, (st 1), batch, (team 1), 0, _, _, _, _,
      solo _ _ _ rfl rfl rfl (by decide +kernel) rfl (by decide +kernel) (by decide +kernel),
      does_out (by decide +kernel), by decide +kernel, does_out (by decide +kernel),
      some_out (by decide +kernel)⟩

theorem witness_LaneCommands :
  (∃ (h : Hdr) (d a c : Opnd) (w w2 : BitVec 4) (ds ss : Bool),
      ∃ i ∈ laneCommands h d a c w w2 ds ss, ∃ (s : State) (b : Issue) (t : Team) (l : Nat) (k : CmdArgs) (t1 t2 : Team) (y y' : LS),
      (Solo s b t l h.guard) ∧
      (Does (do return (← L.cmdRead i, ← L.team)) (b.start s t l) (k, t1) y) ∧
      (cmdCheck t1 (viewNow t1) i k = none) ∧
      (y.st.jobRoom (coreOf b.agent) 1 = true) ∧
      (Does (L.release 0) y () y') ∧
      (y'.st.team? b.agent = some t2)) ∧
  (∃ (h : Hdr) (d a c : Opnd) (kind : BitVec 4) (s : State) (b : Issue) (t : Team) (l : Nat) (k : CmdArgs) (t1 : Team) (y : LS),
      (Solo s b t l h.guard) ∧
      (Does (do return (← L.cmdRead (.qenq h d a c kind), ← L.team)) (b.start s t l) (k, t1) y) ∧
      (cmdCheck t1 (viewNow t1) (.qenq h d a c kind) k = none) ∧
      (k.a2 = 0)) ∧
  (∃ (h : Hdr) (d a c : Opnd) (kind : BitVec 4) (s : State) (b : Issue) (t : Team) (l : Nat) (k : CmdArgs) (t1 t2 : Team) (y y' : LS),
      (Solo s b t l h.guard) ∧
      (Does (do return (← L.cmdRead (.qenq h d a c kind), ← L.team)) (b.start s t l) (k, t1) y) ∧
      (cmdCheck t1 (viewNow t1) (.qenq h d a c kind) k = none) ∧
      (k.a2 ≠ 0) ∧
      (((y.st.jobsOn (coreOf b.agent)).filter (fun j => j.eng == .quant && j.cmd.isSome && j.st != .done)).length < 16) ∧
      (y.st.jobRoom (coreOf b.agent) 1 = true) ∧
      (Does (L.release 0) y () y') ∧
      (y'.st.team? b.agent = some t2)) ∧
  (∃ (h : Hdr) (d a c : Opnd) (kind : BitVec 4) (s : State) (b : Issue) (t : Team) (l : Nat) (k : CmdArgs) (t1 : Team) (y : LS),
      (Solo s b t l h.guard) ∧
      (Does (do return (← L.cmdRead (.qenq h d a c kind), ← L.team)) (b.start s t l) (k, t1) y) ∧
      (cmdCheck t1 (viewNow t1) (.qenq h d a c kind) k = none) ∧
      (k.a2 ≠ 0) ∧
      (16 ≤ ((y.st.jobsOn (coreOf b.agent)).filter (fun j => j.eng == .quant && j.cmd.isSome && j.st != .done)).length)) := by
  refine ⟨?_, ?_, ?_, ?_⟩
  · exact ⟨Hdr.plain, .g 6, .g 2, .g 5, 0, 0, false, false, _, List.Mem.head _, (st 1), batch, (team 1), 0, _, _, _,
      _, _, solo _ _ _ rfl rfl rfl (by decide +kernel) rfl (by decide +kernel) (by decide +kernel),
      does_out (by decide +kernel), by decide +kernel, by decide +kernel, does_out (by decide +kernel),
      some_out (by decide +kernel)⟩
  · exact ⟨Hdr.plain, .g 16, .g 16, .g 16, 0, (st 1), batch, (team 1), 0, _, _, _,
      solo _ _ _ rfl rfl rfl (by decide +kernel) rfl (by decide +kernel) (by decide +kernel),
      does_out (by decide +kernel), by decide +kernel, by decide +kernel⟩
  · exact ⟨Hdr.plain, .g 16, .g 26, .g 16, 0, (st 1), batch, (team 1), 0, _, _, _, _, _,
      solo _ _ _ rfl rfl rfl (by decide +kernel) rfl (by decide +kernel) (by decide +kernel),
      does_out (by decide +kernel), by decide +kernel, by decide +kernel, by decide +kernel,
      id (by decide +kernel), does_out (by decide +kernel), some_out (by decide +kernel)⟩
  · exact ⟨Hdr.plain, .g 16, .g 26, .g 16, 0,
      { st 1 with jobs := List.replicate 16 { emptyJob with eng := .quant } }, batch, (team 1), 0, _, _, _,
      solo _ _ _ rfl rfl rfl (by decide +kernel) rfl (by decide +kernel) (by decide +kernel),
      does_out (by decide +kernel), by decide +kernel, by decide +kernel, by decide +kernel⟩

theorem witness_PresentedMma :
  (∃ (h : Hdr) (d a c : Opnd) (z0 q : BitVec 3) (rows : BitVec 4) (s : State) (b : Issue) (t : Team) (l : Nat) (k : CmdArgs) (f : Fibre) (t' : Team) (r : ConvReg) (y : LS),
      (Solo s b t l h.guard) ∧
      (t.fibre? (t.slot b.wave l) = some f) ∧
      (vget f.sig q.toNat = true) ∧
      (Does (do
      L.modFibre (fun f => { f with sig := vset f.sig q.toNat false })
      let k ← L.cmdRead (.mma h d a c z0 rows q)
      L.engine
      return (k, ← L.team)) (b.start s t l) (k, t') y) ∧
      (cmdCheck t' (viewAt y.st t' y.st.nextJob) (.mma h d a c z0 rows q) k = none) ∧
      (vget t'.q q.toNat = r) ∧
      ((r.presented = 0 ∨ r.opw = encode (.mma h d a c z0 rows q) ∧ r.caps = some k)) ∧
      (r.presented + 1 ≠ r.need)) ∧
  (∃ (h : Hdr) (d a c : Opnd) (z0 q : BitVec 3) (rows : BitVec 4) (s : State) (b : Issue) (t : Team) (l : Nat) (k : CmdArgs) (f : Fibre) (t1 t2 : Team) (r : ConvReg) (y y1 y' : LS),
      (Solo s b t l h.guard) ∧
      (t.fibre? (t.slot b.wave l) = some f) ∧
      (vget f.sig q.toNat = true) ∧
      (Does (do
      L.modFibre (fun f => { f with sig := vset f.sig q.toNat false })
      let k ← L.cmdRead (.mma h d a c z0 rows q)
      L.engine
      return (k, ← L.team)) (b.start s t l) (k, t1) y) ∧
      (cmdCheck t1 (viewAt y.st t1 y.st.nextJob) (.mma h d a c z0 rows q) k = none) ∧
      (vget t1.q q.toNat = r) ∧
      ((r.presented = 0 ∨ r.opw = encode (.mma h d a c z0 rows q) ∧ r.caps = some k)) ∧
      (r.presented + 1 = r.need) ∧
      (y.st.jobRoom (coreOf b.agent) 1 = true) ∧
      (Does (L.modFibre (fun f => { f with jobs := f.jobs ++ [presentMark + q.toNat] })) y () y1) ∧
      (Does (L.release 0) y1 () y') ∧
      (y'.st.team? b.agent = some t2)) := by
  refine ⟨?_, ?_⟩
  · exact ⟨Hdr.plain, .g 6, .g 2, .g 16, 0, 2, 0, (pkg (eng false)), batch, (eng false), 0, _, _, _, _, _,
      solo _ _ _ rfl rfl rfl (by decide +kernel) rfl (by decide +kernel) (by decide +kernel),
      some_out (by decide +kernel), by decide +kernel, does_out (by decide +kernel), by decide +kernel,
      rfl, by decide +kernel, by decide +kernel⟩
  · exact ⟨Hdr.plain, .g 6, .g 2, .g 16, 0, 3, 0, (pkg (eng false)), batch, (eng false), 0, _, _, _, _, _, _, _, _,
      solo _ _ _ rfl rfl rfl (by decide +kernel) rfl (by decide +kernel) (by decide +kernel),
      some_out (by decide +kernel), by decide +kernel, does_out (by decide +kernel), by decide +kernel,
      rfl, by decide +kernel, by decide +kernel, by decide +kernel, does_out (by decide +kernel),
      does_out (by decide +kernel), some_out (by decide +kernel)⟩

theorem witness_WaitingMatrixWords :
  (∃ (h : Hdr) (d a : Opnd) (n : BitVec 3) (s : State) (b : Issue) (t : Team) (l : Nat) (e : Word) (t1 t' : Team) (y z : LS),
      (Solo s b t l h.guard) ∧
      (Does (do
      L.checkRegs [a, d]
      let t ← L.team
      return (← L.rdW a, t)) (b.start s t l) (e, t1) y) ∧
      (n.toNat < t1.tiles) ∧
      (e.toNat < 1536) ∧
      (anyWrites n.toNat (viewNow t') (pendingCmds y.st t' y.st.nextJob) = false) ∧
      (y.st.team? b.agent = some t') ∧
      ((vget t'.z n.toNat).bad.contains e.toNat = false) ∧
      (Landed (.mrdz h d a n) h
      { Cap.zero with av := BitVec.ofNat 128 e.toNat, bv := BitVec.ofNat 128 y.st.nextJob }
      (pure ((spGet 0 (vget t'.z n.toNat).e e.toNat).setWidth 128, 0)) y z) ∧
      (y.st.nextJob < 2 ^ 128)) ∧
  (∃ (w : Instr × Opnd × Wait) (h : Hdr) (n : BitVec 7) (d a c : Opnd) (n' : BitVec 6),
      (w ∈ [(.mfac h n, .zr, .more), (.mpiv h d a c n', d, .mpiv)]) ∧
      ∃ (s : State) (b : Issue) (t : Team) (l : Nat) (k : CmdArgs) (t' : Team) (y y1 : LS),
      (Solo s b t l h.guard) ∧
      ((∀ j ∈ s.jobs, j.agent = b.agent → j.wait ≠ some (b.wave, l, b.pc))) ∧
      (Does (L.batchCheck w.1) (b.start s t l) k y) ∧
      (Does (L.checkReg w.2.1) y () y) ∧
      (y.st.jobRoom (coreOf b.agent) 1 = true) ∧
      (Does (L.release 0) y () y1) ∧
      (y1.st.team? b.agent = some t')) ∧
  (∃ (w : Instr × Opnd × Wait) (h : Hdr) (n : BitVec 7) (d a c : Opnd) (n' : BitVec 6),
      (w ∈ [(.mfac h n, .zr, .more), (.mpiv h d a c n', d, .mpiv)]) ∧
      ∃ (s : State) (b : Issue) (t : Team) (l : Nat) (k : CmdArgs) (t' : Team) (y y1 : LS),
      (Solo s b t l h.guard) ∧
      ((∀ j ∈ s.jobs, j.agent = b.agent → j.wait ≠ some (b.wave, l, b.pc))) ∧
      (Does (L.batchCheck w.1) (b.start s t l) k y) ∧
      (Does (L.checkReg w.2.1) y () y) ∧
      (y.st.jobRoom (coreOf b.agent) 1 = true) ∧
      (Does (L.release 0) y () y1) ∧
      (y1.st.team? b.agent = some t')) ∧
  (∃ (h : Hdr) (n : BitVec 7) (s : State) (b : Issue) (t : Team) (l : Nat) (j : Job),
      (Solo s b t l h.guard) ∧
      (s.jobs.find? (fun j => j.agent == b.agent && j.wait == some (b.wave, l, b.pc)) = some j) ∧
      (j.st = .done) ∧
      (j.trap = none)) ∧
  (∃ (h : Hdr) (d a c : Opnd) (n : BitVec 6) (s : State) (b : Issue) (t : Team) (l : Nat) (j : Job) (z : LS),
      (Solo s b t l h.guard) ∧
      (s.jobs.find? (fun j => j.agent == b.agent && j.wait == some (b.wave, l, b.pc)) = some j) ∧
      (j.st = .done) ∧
      (j.trap = none) ∧
      (Does (L.wrW d j.out) (b.start s t l) () z) ∧
      (unisAgree z.unis = true)) ∧
  (∃ (j : Job) (h : Hdr) (n : BitVec 7) (c : CmdArgs) (p : Partition) (m m' : MatState) (x y : LS),
      (j.card = none) ∧
      (j.cmd = some (.mfac h n, c)) ∧
      (j.idx = 0) ∧
      (j.loop = none) ∧
      (Does L.part x p x) ∧
      (Does L.mat x m x) ∧
      (m.factor.counter < n.toNat) ∧
      (Does L.facStep x () y) ∧
      (Does L.mat y m' y)) ∧
  (∃ (j : Job) (h : Hdr) (d a e : Opnd) (n : BitVec 6) (c : CmdArgs) (p : Partition) (t' : Team) (v : Word) (x y : LS),
      (j.card = none) ∧
      (j.cmd = some (.mpiv h d a e n, c)) ∧
      (j.idx = 0) ∧
      (j.elem = 0) ∧
      (j.loop = none) ∧
      (Does L.part x p x) ∧
      (Does L.team x t' x) ∧
      (Does (L.mpiv n.toNat (BitVec.ofNat 32 c.a) (BitVec.ofNat 32 c.b)) x v y) ∧
      ((∃ t2, Does L.team y t2 y))) ∧
  (∃ (h : Hdr) (d a : Opnd) (s : State) (b : Issue) (t : Team) (l : Nat) (v : Word) (r : Factor) (y y' z : LS),
      (Solo s b t l h.guard) ∧
      (Does (do L.checkRegs [a, d]; L.rdW a) (b.start s t l) v y) ∧
      (Does (L.facRead (.mrnm h d a)) y r y') ∧
      (Does (L.wrW d (r.record (v.toNat % 64))) y' () z)) ∧
  (∃ (h : Hdr) (d : Opnd) (s : State) (b : Issue) (t : Team) (l : Nat) (r : Factor) (y z : LS),
      (Solo s b t l h.guard) ∧
      (Does (do L.checkReg d; L.facRead (.mgrw h d)) (b.start s t l) r y) ∧
      (Does (L.wrD d (r.growth.setWidth 64) 2) y () z)) := by
  refine ⟨?_, ?_, ?_, ?_, ?_, ?_, ?_, ?_, ?_⟩
  · exact ⟨Hdr.plain, .g 3, .g 1, 0, (pkg (eng true)), batch, (eng true), 0, _, _, (eng true), _, _,
      solo _ _ _ rfl rfl rfl (by decide +kernel) rfl (by decide +kernel) (by decide +kernel),
      does_out (by decide +kernel), by decide +kernel, by decide +kernel, by decide +kernel,
      id (by decide +kernel), by decide +kernel,
      landed_out (by decide +kernel) (by decide +kernel) (by decide +kernel) (by decide +kernel) (by decide +kernel),
      by decide +kernel⟩
  · exact ⟨(.mfac Hdr.plain 1, .zr, .more), Hdr.plain, 1, .g 3, .g 1, .g 5, 0, List.Mem.head _, (pkg (eng true)),
      batch, (eng true), 0, _, _, _, _,
      solo _ _ _ rfl rfl rfl (by decide +kernel) rfl (by decide +kernel) (by decide +kernel),
      by decide +kernel, does_out (by decide +kernel),
      does_val (by decide +kernel) rfl (by decide +kernel), by decide +kernel,
      does_out (by decide +kernel), some_out (by decide +kernel)⟩
  · exact ⟨(.mpiv Hdr.plain (.g 3) (.g 1) (.g 5) 0, .g 3, .mpiv), Hdr.plain, 1, .g 3, .g 1, .g 5, 0,
      List.Mem.tail _ (List.Mem.head _), (pkg (eng true)), batch, (eng true), 0, _, _, _, _,
      solo _ _ _ rfl rfl rfl (by decide +kernel) rfl (by decide +kernel) (by decide +kernel),
      by decide +kernel, does_out (by decide +kernel), check_here (by decide +kernel), by decide +kernel,
      does_out (by decide +kernel), some_out (by decide +kernel)⟩
  · exact ⟨Hdr.plain, 0,
      { pkg (eng true) with jobs := [{ loopJob with card := none, eng := .matrix, st := .done, wait := some (0, 0, 0x1000) }] },
      batch, (eng true), 0, _,
      solo _ _ _ rfl rfl rfl (by decide +kernel) rfl (by decide +kernel) (by decide +kernel),
      some_out (by decide +kernel), by decide +kernel, by decide +kernel⟩
  · exact ⟨Hdr.plain, .g 3, .g 1, .g 5, 0,
      { pkg (eng true) with jobs := [{ loopJob with card := none, eng := .matrix, st := .done, wait := some (0, 0, 0x1000), out := 7 }] },
      batch, (eng true), 0, _, _,
      solo _ _ _ rfl rfl rfl (by decide +kernel) rfl (by decide +kernel) (by decide +kernel),
      some_out (by decide +kernel), by decide +kernel, by decide +kernel, does_out (by decide +kernel),
      by decide +kernel⟩
  · exact ⟨
      { loopJob with card := none, eng := .matrix, st := .run, wait := some (0, 0, 0x1000), cmd := some (.mfac Hdr.plain 1, ⟨false, 0, false, 0, 0, false, 0, 0⟩) },
      Hdr.plain, 1, ⟨false, 0, false, 0, 0, false, 0, 0⟩, _, _, _,
      (batch.start (pkg (eng true)) (eng true) 0), _, by decide +kernel, by decide +kernel,
      by decide +kernel, id (by decide +kernel), part_here (by decide +kernel),
      does_same (by decide +kernel) (by decide +kernel), by decide +kernel, does_out (by decide +kernel),
      does_same (by decide +kernel) (by decide +kernel)⟩
  · exact ⟨
      { loopJob with card := none, eng := .matrix, st := .run, wait := some (0, 0, 0x1000), cmd := some (.mpiv Hdr.plain (.g 3) (.g 1) (.g 5) 0, ⟨false, 0, false, 1, 0, false, 0, 0⟩) },
      Hdr.plain, .g 3, .g 1, .g 5, 0, ⟨false, 0, false, 1, 0, false, 0, 0⟩, _, _, _,
      (batch.start { pkg (eng true) with pivs := [⟨0, 0, 0, 0, 0, 1, 0, none, some (some (0, 0, [0x3F80_0000]), false)⟩] } (eng true) 0),
      _, by decide +kernel, by decide +kernel, by decide +kernel, id (by decide +kernel), by decide +kernel,
      part_here (by decide +kernel), team_here (by decide +kernel), does_out (by decide +kernel),
      ⟨_, team_here (by decide +kernel)⟩⟩
  · exact ⟨Hdr.plain, .g 3, .g 1, (pkg (eng true)), batch, (eng true), 0, _, _, _, _, _,
      solo _ _ _ rfl rfl rfl (by decide +kernel) rfl (by decide +kernel) (by decide +kernel),
      does_out (by decide +kernel), does_out (by decide +kernel), does_out (by decide +kernel)⟩
  · exact ⟨Hdr.plain, .f 5, (pkg (eng true)), batch, (eng true), 0, _, _, _,
      solo _ _ _ rfl rfl rfl (by decide +kernel) rfl (by decide +kernel) (by decide +kernel),
      does_out (by decide +kernel), does_out (by decide +kernel)⟩

theorem witness_EwaitAndEloop :
  (∃ (h : Hdr) (d : Opnd) (s : State) (b : Issue) (t : Team) (l : Nat) (f : Fibre) (y z : LS),
      (Solo s b t l h.guard) ∧
      (Does (do L.checkReg d; L.fibre) (b.start s t l) f y) ∧
      ((∀ n ∈ f.jobs, n < presentMark ∧ y.st.jobOver n = true)) ∧
      (Does (L.wrW d (statusOf (y.st.jobsOf f.jobs))) y () z)) ∧
  (∃ (h : Hdr) (n : BitVec 8) (a c : Opnd) (count : BitVec 13) (s : State) (b : Issue) (t : Team) (l : Nat) (y : LS),
      (Solo s b t l h.guard) ∧
      (Does (L.checkRegs [a, c]) (b.start s t l) () y)) ∧
  (∃ (j : Job) (h : Hdr) (n : BitVec 8) (a c : Opnd) (count : BitVec 13) (k : Card) (v : CmdArgs) (x y : LS),
      (Does (L.current j) x (.eloop h n a c count, v) y) ∧
      (j.loop = none) ∧
      (n ≠ 0) ∧
      (j.card = some k) ∧
      (j.idx + 1 + n.toNat ≤ k.cnt)) := by
  refine ⟨?_, ?_, ?_⟩
  · exact ⟨Hdr.plain, .g 3, (st 1), batch, (team 1), 0, _, _, _,
      solo _ _ _ rfl rfl rfl (by decide +kernel) rfl (by decide +kernel) (by decide +kernel),
      does_out (by decide +kernel), by decide +kernel, does_out (by decide +kernel)⟩
  · exact ⟨Hdr.plain, 0, .g 1, .g 5, 0, (st 1), batch, (team 1), 0, _,
      solo _ _ _ rfl rfl rfl (by decide +kernel) rfl (by decide +kernel) (by decide +kernel),
      does_out (by decide +kernel)⟩
  · exact ⟨loopJob, Hdr.plain, 1, .zr, .zr, 2, _, ⟨false, 0, false, 0, 0, false, 0, 0⟩,
      (batch.start (wide (st 1)) (team 1) 0), _, does_is (by decide +kernel) (by decide +kernel),
      by decide +kernel, by decide +kernel, some_out (by decide +kernel), by decide +kernel⟩

theorem witness_PairedWords :
  (∃ p ∈ pairs2, ∃ (d r : Opnd) (sl : Slot) (s : State) (b : Issue) (t : Team) (l : Nat) (u v : SlotVal × Fl) (y z : LS),
      (Solo s b t l none) ∧
      (Does (readBoth ⟨p.2, d, r, 0⟩ sl) (b.start s t l) (u, v) y) ∧
      (Does (writeBoth ⟨p.2, d, r, 0⟩ sl u v) y () z) ∧
      (unisAgree z.unis = true)) ∧
  (∃ p ∈ pairsImm, ∃ (d : Opnd) (imm : BitVec 8) (sl : Slot) (s : State) (b : Issue) (t : Team) (l : Nat) (u v : SlotVal × Fl) (y z : LS),
      (Solo s b t l none) ∧
      (Does (readBoth ⟨p.2, d, .g 0, imm⟩ sl) (b.start s t l) (u, v) y) ∧
      (Does (writeBoth ⟨p.2, d, .g 0, imm⟩ sl u v) y () z) ∧
      (unisAgree z.unis = true)) ∧
  (∃ (sl : Slot) (s : State) (b : Issue) (t : Team) (l : Nat) (u v : SlotVal × Fl) (y z : LS),
      (Solo s b t l none) ∧
      (Does (readBoth ⟨.pnop, .g 0, .g 0, 0⟩ sl) (b.start s t l) (u, v) y) ∧
      (Does (writeBoth ⟨.pnop, .g 0, .g 0, 0⟩ sl u v) y () z) ∧
      (unisAgree z.unis = true)) ∧
  (∃ p ∈ slotFloats, ∃ (d r : Opnd) (x y : LS) (u v : DWord × BitVec 4),
      (Does (do return (← L.rdD d, ← (if r = .zr then pure (0, 2) else L.rdD r))) x (u, v) y)) := by
  refine ⟨?_, ?_, ?_, ?_⟩
  · exact ⟨_, List.Mem.head _, .g 3, .g 1, ⟨.pnop, .g 0, .g 0, 0⟩, (st 1), batch, (team 1), 0, _, _, _, _,
      solo _ _ _ rfl rfl rfl (by decide +kernel) rfl (by decide +kernel) (by decide +kernel),
      does_out (by decide +kernel), does_out (by decide +kernel), by decide +kernel⟩
  · exact ⟨_, List.Mem.head _, .g 3, 0, ⟨.pnop, .g 0, .g 0, 0⟩, (st 1), batch, (team 1), 0, _, _, _, _,
      solo _ _ _ rfl rfl rfl (by decide +kernel) rfl (by decide +kernel) (by decide +kernel),
      does_out (by decide +kernel), does_out (by decide +kernel), by decide +kernel⟩
  · exact ⟨⟨.pnop, .g 0, .g 0, 0⟩, (st 1), batch, (team 1), 0, _, _, _, _,
      solo _ _ _ rfl rfl rfl (by decide +kernel) rfl (by decide +kernel) (by decide +kernel),
      does_out (by decide +kernel), does_out (by decide +kernel), by decide +kernel⟩
  · exact ⟨_, List.Mem.head _, .f 0, .f 1, (batch.start (st 1) (team 1) 0), _, _, _, does_out (by decide +kernel)⟩

theorem witness_TrapsEnterTheHandler :
  (∃ (h : Hdr) (code : BitVec 13) (s : State) (b : Issue) (t : Team) (l : Nat),
      (Solo s b t l h.guard)) ∧
  (∃ (h : Hdr) (code : BitVec 13) (s : State) (b : Issue) (t : Team) (l : Nat),
      (Solo s b t l h.guard) ∧
      (t.levelAt b.wave l ≠ 2)) ∧
  (∃ (h : Hdr) (code : BitVec 13) (s : State) (b : Issue) (t : Team) (l : Nat),
      (Solo s b t l h.guard) ∧
      (t.levelAt b.wave l = 2)) := by
  refine ⟨?_, ?_, ?_⟩
  · exact ⟨Hdr.plain, 0, (st 1), batch, (team 1), 0,
      solo _ _ _ rfl rfl rfl (by decide +kernel) rfl (by decide +kernel) (by decide +kernel)⟩
  · exact ⟨Hdr.plain, 0, (st 1), batch, (team 1), 0,
      solo _ _ _ rfl rfl rfl (by decide +kernel) rfl (by decide +kernel) (by decide +kernel),
      by decide +kernel⟩
  · exact ⟨Hdr.plain, 0, (st 2), batch, (team 2), 0,
      solo _ _ _ rfl rfl rfl (by decide +kernel) rfl (by decide +kernel) (by decide +kernel),
      by decide +kernel⟩

theorem witness_HandlerEntry :
  ∃ (s : State) (a : AgentId) (wv : Nat) (tepc : Addr) (traps : List TrapRec) (execs batch : List Nat) (t : Team) (p : Partition),
      (s.team? a = some t) ∧
      (s.part? t.part = some p) ∧
      (wv < 32) ∧
      ((t.wave wv).level = 0) ∧
      ((∀ r ∈ traps, s.frzcfg.getLsbD r.cls.toNat = false)) ∧
      (((∀ r ∈ traps, r.cls ≠ 12) ∨ s.rollsBack t = none)) :=
  ⟨(st 0), 0, 0, 0x1000, [⟨0, 14, 0, 0, 0⟩], [0], [0], (team 0), _, by decide +kernel,
      some_out (by decide +kernel), by decide +kernel, by decide +kernel, by decide +kernel,
      id (by decide +kernel)⟩

theorem witness_ReturnFromHandler :
  (∃ (h : Hdr) (s : State) (b : Issue) (t : Team) (l : Nat) (hs : HSave),
      (Solo s b t l h.guard) ∧
      (t.levelAt b.wave l ≠ 0) ∧
      ((t.wave b.wave).h = some hs) ∧
      ((t.wave b.wave).lost = false) ∧
      ((t.wave b.wave).unfinished.any (fun e => e.lanes.any (fun r => !r.perf)) = false) ∧
      ((∀ k ∈ (t.wave b.wave).stuck, k.pc = b.pc → l ∈ k.todo ∨ l ∈ k.done))) ∧
  (∃ (s : State) (a : AgentId) (wv : Nat) (t : Team) (h : HSave),
      (s.team? a = some t) ∧
      (wv < 32) ∧
      ((t.wave wv).h = some h) ∧
      (h.ss.length = 4)) ∧
  (∃ (s : State) (a : AgentId) (wv : Nat) (t : Team) (h : HSave),
      (s.team? a = some t) ∧
      (wv < 32) ∧
      ((t.wave wv).h = some h) ∧
      (h.ss.length = 4) ∧
      ∃ x ∈ t.fibres, (x.1 / t.width = wv) ∧
      (x.1 % t.width ∈ h.batch)) ∧
  (∃ (s : State) (a : AgentId) (wv : Nat) (t : Team) (h : HSave),
      (s.team? a = some t) ∧
      (wv < 32) ∧
      ((t.wave wv).h = some h) ∧
      (h.ss.length = 4) ∧
      ∃ x ∈ t.fibres, (x.1 / t.width = wv) ∧
      (x.1 % t.width ∉ h.batch) ∧
      ∃ q, (h.resume.find? (·.lane == x.1 % t.width) = some q)) ∧
  (∃ (s : State) (a : AgentId) (wv : Nat) (t : Team) (h : HSave),
      (s.team? a = some t) ∧
      (wv < 32) ∧
      ((t.wave wv).h = some h) ∧
      (h.ss.length = 4) ∧
      ∃ x ∈ t.fibres, (x.1 / t.width = wv) ∧
      ∃ k, ∃ x0, ∃ x1, ∃ x2, ∃ x3, (h.gs.find? (·.lane == x.1 % t.width) = some k) ∧
      (k.g = [x0, x1, x2, x3])) ∧
  (∃ w ∈ rplyWords, ∃ (h : Hdr) (d a c : Opnd) (s : State) (b : Issue) (t : Team) (l : Nat) (ctl off : Word) (hs : HSave) (op i st : Nat) (q : List Entry) (out : List (BitVec 8)) (img : Option Entry) (y y' z : LS),
      (Solo s b t l h.guard) ∧
      (t.levelAt b.wave l ≠ 0) ∧
      ((t.wave b.wave).h = some hs) ∧
      (Does (do
      L.check 1 [a, c] [d]
      let ctl ← L.rdW a
      L.sameInAll ctl (L.rdW a)
      let off ← L.rdW c
      L.sameInAll off (L.rdW c)
      L.checkScr off.toNat 2624 16
      return (ctl, off)) (b.start s t l) (ctl, off) y) ∧
      (op = ctl.toNat / 16 % 4) ∧
      (i = ctl.toNat % 16) ∧
      (img = entryOf (t.scratch.bytes off.toNat 2624) hs.level.toNat (t.liveLanes b.wave)
      (match op, hs.replay[i]? with | 1, some e => e.id | _, _ => s.tick) s.nextJob) ∧
      (rplyOp hs.replay op i img = (st, q, out)) ∧
      (Does (do
      if (op = 1 ∨ op = 3) ∧ t.scrBad off.toNat 2624 then L.chki 4
      if st = 0 ∧ ctl.toNat < 64 then
        L.modWave (fun w => { w with h := some { hs with replay := q } })
        L.modTeam (fun t => t.wrScrBytes off.toNat out)) y () y') ∧
      (Does (L.wrW d (BitVec.ofNat 32 (if (st = 0 ∨ st = 4) ∧ 64 ≤ ctl.toNat then 3 else st))) y' () z)) := by
  refine ⟨?_, ?_, ?_, ?_, ?_, ?_⟩
  · exact ⟨Hdr.plain, (pkg (trapped save)), batch, (trapped save), 0, _,
      solo _ _ _ rfl rfl rfl (by decide +kernel) rfl (by decide +kernel) (by decide +kernel),
      by decide +kernel, some_out (by decide +kernel), by decide +kernel, by decide +kernel,
      by decide +kernel⟩
  · exact ⟨(pkg (trapped save)), 0, 0, (trapped save), _, by decide +kernel, by decide +kernel,
      some_out (by decide +kernel), by decide +kernel⟩
  · exact ⟨(pkg (trapped save)), 0, 0, (trapped save), _, by decide +kernel, by decide +kernel,
      some_out (by decide +kernel), by decide +kernel, ((trapped save).fibres.head (by decide)),
      List.Mem.head _, by decide +kernel, by decide +kernel⟩
  · exact ⟨(pkg (trapped { save with batch := [] })), 0, 0, (trapped { save with batch := [] }), _,
      by decide +kernel, by decide +kernel, some_out (by decide +kernel), by decide +kernel, _,
      List.Mem.head _, by decide +kernel, by decide +kernel, ⟨0, 0x1008, 0, none⟩, by decide +kernel⟩
  · exact ⟨(pkg (trapped save)), 0, 0, (trapped save), _, by decide +kernel, by decide +kernel,
      some_out (by decide +kernel), by decide +kernel, ((trapped save).fibres.head (by decide)),
      List.Mem.head _, by decide +kernel, ⟨0, [7, 0, 0x2000, 0], [], [0, 0, 0, 0], []⟩, 7, 0, 0x2000, 0,
      by decide +kernel, by decide +kernel⟩
  · exact ⟨_, List.Mem.head _, Hdr.plain, .g 3, .zr, .zr, (pkg (trapped save)), batch, (trapped save), 0, _, _, _, _,
      _, _, _, _, _, _, _, _,
      solo _ _ _ rfl rfl rfl (by decide +kernel) rfl (by decide +kernel) (by decide +kernel),
      by decide +kernel, some_out (by decide +kernel), does_out (by decide +kernel), rfl, rfl, rfl,
      triple_out, does_out (by decide +kernel), does_out (by decide +kernel)⟩

theorem witness_CsrReads :
  (∃ (f : Hdr → Opnd → BitVec 12 → Instr),
      (f = .csrr ∨ f = .csrHighLatchRead) ∧
      ∃ (h : Hdr) (d : Opnd) (n : BitVec 12) (s : State) (b : Issue) (t : Team) (l lv : Nat) (y z : LS),
      (Solo s b t l h.guard) ∧
      (readableAt n = some lv) ∧
      (lv ≤ t.levelAt b.wave l) ∧
      (Does (L.checkRegs [d]) (b.start s t l) () y) ∧
      (Landed (f h d n) h Cap.zero (do return ((← L.csrRead n.toNat).setWidth 128, 0)) y z)) ∧
  (∃ (h : Hdr) (d : Opnd) (n : BitVec 12) (s : State) (b : Issue) (t : Team) (l lv : Nat),
      (Solo s b t l h.guard) ∧
      (readableAt n = some lv) ∧
      (t.levelAt b.wave l < lv)) ∧
  (∃ (h : Hdr) (d : Opnd) (n : BitVec 12) (s : State) (b : Issue) (t : Team) (l : Nat),
      (Solo s b t l h.guard) ∧
      (readableAt n = none)) ∧
  (∃ (x : LS) (t : Team) (p : Partition),
      (Does L.team x t x) ∧
      (Does L.part x p x) ∧
      ∃ c ∈ csrValues x.st t p (t.wave x.wave) x.agent, True) ∧
  (∃ (x : LS) (t : Team) (p : Partition),
      (Does L.team x t x) ∧
      (Does L.part x p x)) ∧
  (∃ n ∈ [0x002, 0x109], ∃ (x : LS) (t : Team) (p : Partition) (f : Fibre) (v : Word),
      (Does L.team x t x) ∧
      (Does L.part x p x) ∧
      (Does L.fibre x f x) ∧
      (f.latch.find? (·.1 == n) = some (n, v))) := by
  refine ⟨?_, ?_, ?_, ?_, ?_, ?_⟩
  · exact ⟨.csrr, Or.inl rfl, Hdr.plain, .g 3, 0, (st 1), batch, (team 1), 0, _, _, _,
      solo _ _ _ rfl rfl rfl (by decide +kernel) rfl (by decide +kernel) (by decide +kernel),
      some_out (by decide +kernel), by decide +kernel, does_out (by decide +kernel),
      landed_out (by decide +kernel) (by decide +kernel) (by decide +kernel) (by decide +kernel) (by decide +kernel)⟩
  · exact ⟨Hdr.plain, .g 3, 0x108, (st 0), batch, (team 0), 0, _,
      solo _ _ _ rfl rfl rfl (by decide +kernel) rfl (by decide +kernel) (by decide +kernel),
      some_out (by decide +kernel), by decide +kernel⟩
  · exact ⟨Hdr.plain, .g 3, 0xFFF, (st 1), batch, (team 1), 0,
      solo _ _ _ rfl rfl rfl (by decide +kernel) rfl (by decide +kernel) (by decide +kernel),
      by decide +kernel⟩
  · exact ⟨(batch.start (st 1) (team 1) 0), _, _, team_here (by decide +kernel), part_here (by decide +kernel), _,
      List.Mem.head _, trivial⟩
  · exact ⟨(batch.start (st 1) (team 1) 0), _, _, team_here (by decide +kernel), part_here (by decide +kernel)⟩
  · exact ⟨_, List.Mem.head _, (batch.start (pkg latched) latched 0), _, _, _, 5, team_here (by decide +kernel),
      part_here (by decide +kernel), fibre_here (by decide +kernel), by decide +kernel⟩

theorem witness_CsrWrites :
  (∃ (h : Hdr) (a : Opnd) (n : BitVec 12) (s : State) (b : Issue) (t : Team) (l : Nat) (v : Word) (y z : LS),
      (Solo s b t l h.guard) ∧
      (Does (do L.csrAllowed n.toNat false true; L.checkRegs [a]; L.rdW a) (b.start s t l) v y) ∧
      (Does (L.csrWrite n.toNat v) y () z)) ∧
  (∃ (h : Hdr) (d a : Opnd) (n : BitVec 12) (s : State) (b : Issue) (t : Team) (l : Nat) (v old : Word) (y z : LS),
      (Solo s b t l h.guard) ∧
      (Does (do L.csrAllowed n.toNat true true; L.checkRegs [d, a]; return (← L.rdW a, ← L.csrRead n.toNat)) (b.start s t l)
      (v, old) y) ∧
      (Does (do L.csrWrite n.toNat v; L.wrW d old) y () z)) ∧
  (∃ (h : Hdr) (a : Opnd) (s : State) (b : Issue) (t : Team) (l : Nat) (v : Word) (y : LS),
      (Solo s b t l h.guard) ∧
      (Does (do L.checkRegs [a]; L.rdW a) (b.start s t l) v y)) ∧
  (∃ (h : Hdr) (a : Opnd) (s : State) (b : Issue) (t : Team) (l : Nat) (v : Word) (y : LS),
      (Solo s b t l h.guard) ∧
      (t.levelAt b.wave l ≠ 0) ∧
      (Does (do L.checkRegs [a]; L.rdW a) (b.start s t l) v y)) ∧
  (∃ (h : Hdr) (a : Opnd) (s : State) (b : Issue) (t : Team) (l : Nat) (v u : Word) (f : Fibre) (y : LS),
      (Solo s b t l h.guard) ∧
      (t.levelAt b.wave l ≠ 0) ∧
      (Does (do L.checkRegs [a]; let v ← L.rdW a; return (v, ← L.fibre)) (b.start s t l) (v, f) y) ∧
      (f.held.find? (·.1 == 0x108) = some (0x108, u))) ∧
  (∃ (h : Hdr) (a : Opnd) (s : State) (b : Issue) (t : Team) (l : Nat) (v : Word) (p : Partition) (y : LS),
      (Solo s b t l h.guard) ∧
      (t.levelAt b.wave l ≠ 0) ∧
      (Does (do L.checkRegs [a]; let v ← L.rdW a; return (v, ← L.part)) (b.start s t l) (v, p) y) ∧
      (v.toNat % 4096 = 0) ∧
      (p.fltCount = 0) ∧
      (p.pending = [])) ∧
  (∃ (h : Hdr) (a : Opnd) (s : State) (b : Issue) (t : Team) (l : Nat) (v : Word) (y : LS),
      (Solo s b t l h.guard) ∧
      (t.levelAt b.wave l ≠ 0) ∧
      (Does (do L.checkRegs [a]; L.rdW a) (b.start s t l) v y) ∧
      (v = y.st.mstatOf b.agent)) ∧
  (∃ (h : Hdr) (a : Opnd) (s : State) (b : Issue) (t : Team) (l : Nat) (v : Word) (y : LS),
      (Solo s b t l h.guard) ∧
      (t.levelAt b.wave l = 2) ∧
      (Does (do L.checkRegs [a]; L.rdW a) (b.start s t l) v y) ∧
      (v.toNat % 128 < 72)) := by
  refine ⟨?_, ?_, ?_, ?_, ?_, ?_, ?_, ?_⟩
  · exact ⟨Hdr.plain, .zr, 0, (st 1), batch, (team 1), 0, _, _, _,
      solo _ _ _ rfl rfl rfl (by decide +kernel) rfl (by decide +kernel) (by decide +kernel),
      does_out (by decide +kernel), does_out (by decide +kernel)⟩
  · exact ⟨Hdr.plain, .g 3, .zr, 0, (st 1), batch, (team 1), 0, _, _, _, _,
      solo _ _ _ rfl rfl rfl (by decide +kernel) rfl (by decide +kernel) (by decide +kernel),
      does_out (by decide +kernel), does_out (by decide +kernel)⟩
  · exact ⟨Hdr.plain, .zr, (st 1), batch, (team 1), 0, _, _,
      solo _ _ _ rfl rfl rfl (by decide +kernel) rfl (by decide +kernel) (by decide +kernel),
      does_out (by decide +kernel)⟩
  · exact ⟨Hdr.plain, .zr, (st 1), batch, (team 1), 0, _, _,
      solo _ _ _ rfl rfl rfl (by decide +kernel) rfl (by decide +kernel) (by decide +kernel),
      by decide +kernel, does_out (by decide +kernel)⟩
  · exact ⟨Hdr.plain, .zr, (pkg latched), batch, latched, 0, _, 0x1000, _, _,
      solo _ _ _ rfl rfl rfl (by decide +kernel) rfl (by decide +kernel) (by decide +kernel),
      by decide +kernel, does_out (by decide +kernel), by decide +kernel⟩
  · exact ⟨Hdr.plain, .zr, (st 1), batch, (team 1), 0, _, _, _,
      solo _ _ _ rfl rfl rfl (by decide +kernel) rfl (by decide +kernel) (by decide +kernel),
      by decide +kernel, does_out (by decide +kernel), by decide +kernel, by decide +kernel,
      by decide +kernel⟩
  · exact ⟨Hdr.plain, .zr, (st 1), batch, (team 1), 0, _, _,
      solo _ _ _ rfl rfl rfl (by decide +kernel) rfl (by decide +kernel) (by decide +kernel),
      by decide +kernel, does_out (by decide +kernel), by decide +kernel⟩
  · exact ⟨Hdr.plain, .zr, (st 2), batch, (team 2), 0, _, _,
      solo _ _ _ rfl rfl rfl (by decide +kernel) rfl (by decide +kernel) (by decide +kernel),
      by decide +kernel, does_out (by decide +kernel), by decide +kernel⟩

theorem witness_LaunchAndCancel :
  (∃ (h : Hdr) (d a c : Opnd) (s : State) (b : Issue) (t : Team) (l va v w shape : Nat) (fp : List Nat) (pa : Option Nat) (leaf : QWord) (p : Partition) (y z z1 : LS),
      (Solo s b t l h.guard) ∧
      (t.levelAt b.wave l ≠ 0) ∧
      (Does (do L.checkRegs [d, c]; let va ← L.rdPair a; return (va, (← L.rdW c).toNat)) (b.start s t l) (va, v) y) ∧
      (va < 2 ^ 52) ∧
      (va % 64 = 0) ∧
      (Does (do
      let x ← L.locate .load va 16
      let w ← L.loadQuads va 4
      let fp ← (List.range (bits w 352 16)).mapM (fun k => L.loadQuads (va + 64 + 16 * k) 1)
      let p ← L.part
      if 2 ^ 52 ≤ p.tshape.toNat + 8 * bits w 304 8 then L.pageTrap 1 (p.tshape.toNat + 8 * bits w 304 8) 0
      return (x, w, fp, p, ← L.load .load (p.tshape.toNat + 8 * bits w 304 8) 8)) y ((pa, leaf), w, fp, p, shape) z) ∧
      ∃ z', (lnchStatus z.st p w v shape fp ≠ 0) ∧
      (Does (L.wrW d (BitVec.ofNat 32 (lnchStatus z.st p w v shape fp))) z () z')) ∧
  (∃ (h : Hdr) (d a c : Opnd) (s : State) (b : Issue) (t : Team) (l va v w shape : Nat) (fp : List Nat) (pa : Option Nat) (leaf : QWord) (p : Partition) (y z z1 : LS),
      (Solo s b t l h.guard) ∧
      (t.levelAt b.wave l ≠ 0) ∧
      (Does (do L.checkRegs [d, c]; let va ← L.rdPair a; return (va, (← L.rdW c).toNat)) (b.start s t l) (va, v) y) ∧
      (va < 2 ^ 52) ∧
      (va % 64 = 0) ∧
      (Does (do
      let x ← L.locate .load va 16
      let w ← L.loadQuads va 4
      let fp ← (List.range (bits w 352 16)).mapM (fun k => L.loadQuads (va + 64 + 16 * k) 1)
      let p ← L.part
      if 2 ^ 52 ≤ p.tshape.toNat + 8 * bits w 304 8 then L.pageTrap 1 (p.tshape.toNat + 8 * bits w 304 8) 0
      return (x, w, fp, p, ← L.load .load (p.tshape.toNat + 8 * bits w 304 8) 8)) y ((pa, leaf), w, fp, p, shape) z) ∧
      ∃ z', (lnchStatus z.st p w v shape fp = 0) ∧
      (Does (L.release (lfScope leaf)) z () z1) ∧
      (Does (L.wrW d 0) { z1 with
        st := z1.st.acceptLaunch (launchOf z1.st.nextLaunch p.id w v shape fp) } () z')) ∧
  (∃ (h : Hdr) (a : Opnd) (lvl : BitVec 2) (s : State) (b : Issue) (t : Team) (l : Nat) (v : Word) (p : Partition) (y : LS),
      (Solo s b t l h.guard) ∧
      (t.levelAt b.wave l ≠ 0) ∧
      (Does (do L.checkRegs [a]; return (← L.rdW a, ← L.part)) (b.start s t l) (v, p) y)) ∧
  (∃ (s s' : State) (part n lvl : Nat),
      (s' = s.cancelCounter part n lvl) ∧
      ∃ p, (s.part? part = some p)) ∧
  (∃ (s s' : State) (part n lvl : Nat),
      (s' = s.cancelCounter part n lvl) ∧
      ∃ k ∈ s'.launches, (k.part = part) ∧
      (k.slots.at lvl = some n)) ∧
  (∃ (s s' : State) (part n lvl : Nat),
      (s' = s.cancelCounter part n lvl) ∧
      ((s.rings.map (fun r => (r.part, r.die, r.prio))).Nodup) ∧
      (s.part? part ≠ none) ∧
      ∃ r ∈ s'.rings, (r.part = part) ∧
      ∃ l, ∃ first, ∃ stride, ∃ m, ∃ pos, (.range l first stride m pos ∈ r.entries ++ r.held.map (·.2)) ∧
      ∃ k, (s'.launch? l = some k) ∧
      (k.part = part)) ∧
  (∃ (s s' : State) (part n lvl : Nat),
      (s' = s.cancelCounter part n lvl) ∧
      ∃ t ∈ s'.allTeams, (t.part = part) ∧
      (t.work.slots.at lvl = some n)) ∧
  (∃ (s s' : State) (part n lvl : Nat),
      (s' = s.cancelCounter part n lvl) ∧
      ∃ t ∈ s.allTeams, (t.part = part) ∧
      (t.work.slots.at lvl = some n) ∧
      (t.axed = false)) := by
  refine ⟨?_, ?_, ?_, ?_, ?_, ?_, ?_, ?_⟩
  · exact ⟨Hdr.plain, .g 3, .g 2, .zr, (st 1), batch, (team 1), 0, _, _, _, _, _, _, _, _, _, _,
      (batch.start (st 1) (team 1) 0),
      solo _ _ _ rfl rfl rfl (by decide +kernel) rfl (by decide +kernel) (by decide +kernel),
      by decide +kernel, does_out (by decide +kernel), by decide +kernel, by decide +kernel,
      does_out (by decide +kernel), _, by decide +kernel, does_out (by decide +kernel)⟩
  · exact ⟨Hdr.plain, .g 3, .g 28, .zr, (wide (st 1)), batch, (team 1), 0, _, _, _, _, _, _, _, _, _, _, _,
      solo _ _ _ rfl rfl rfl (by decide +kernel) rfl (by decide +kernel) (by decide +kernel),
      by decide +kernel, does_out (by decide +kernel), by decide +kernel, by decide +kernel,
      does_out (by decide +kernel), _, by decide +kernel, does_out (by decide +kernel),
      does_out (by decide +kernel)⟩
  · exact ⟨Hdr.plain, .g 1, 0, (st 1), batch, (team 1), 0, _, _, _,
      solo _ _ _ rfl rfl rfl (by decide +kernel) rfl (by decide +kernel) (by decide +kernel),
      by decide +kernel, does_out (by decide +kernel)⟩
  · exact ⟨(st 1), _, 0, 5, 0, rfl, _, some_out (by decide +kernel)⟩
  · exact ⟨cancelling, _, 0, 5, 0, rfl, (cancelling.cancelCounter 0 5 0).launches.head (by decide +kernel),
      List.head_mem _, by decide +kernel, by decide +kernel⟩
  · exact ⟨cancelling, _, 0, 5, 0, rfl, by decide +kernel, by decide +kernel,
      (cancelling.cancelCounter 0 5 0).rings.head (by decide +kernel), List.head_mem _, by decide +kernel,
      1, 0, 1, 1, 0, by decide +kernel, _, some_out (by decide +kernel), by decide +kernel⟩
  · exact ⟨cancelling, _, 0, 5, 0, rfl, (cancelling.cancelCounter 0 5 0).allTeams.head (by decide +kernel),
      List.head_mem _, by decide +kernel, by decide +kernel⟩
  · exact ⟨cancelling, _, 0, 5, 0, rfl, cancelling.allTeams.head (by decide +kernel), List.head_mem _,
      by decide +kernel, by decide +kernel, by decide +kernel⟩

theorem witness_TranslationAndFaultWords :
  (∃ (h : Hdr) (a c : Opnd) (s : State) (b : Issue) (t : Team) (l va : Nat) (v : Word) (p : Partition) (y : LS),
      (Solo s b t l h.guard) ∧
      (t.levelAt b.wave l ≠ 0) ∧
      (Does (do L.checkRegs [c]; return (← L.pageAddr 8 a, ← L.rdW c, ← L.part)) (b.start s t l) (va, v, p) y)) ∧
  (∃ (h : Hdr) (d a c : Opnd) (s : State) (b : Issue) (t : Team) (l : Nat) (u v : Word) (p : Partition) (y z : LS),
      (Solo s b t l h.guard) ∧
      (t.levelAt b.wave l ≠ 0) ∧
      (Does (do L.check 1 [a, c] [d]; return (← L.rdW a, ← L.rdW c, ← L.part)) (b.start s t l) (u, v, p) y) ∧
      (v ≠ 0xFFFF_FFFF) ∧
      (16 ≤ (p.bindings.filter (·.counter != u.toNat % 2 ^ 12)).length) ∧
      (Does (L.wrW d 1) y () z)) ∧
  (∃ (h : Hdr) (d a c : Opnd) (s : State) (b : Issue) (t : Team) (l : Nat) (u v : Word) (p : Partition) (y z : LS),
      (Solo s b t l h.guard) ∧
      (t.levelAt b.wave l ≠ 0) ∧
      (Does (do L.check 1 [a, c] [d]; return (← L.rdW a, ← L.rdW c, ← L.part)) (b.start s t l) (u, v, p) y) ∧
      ((v = 0xFFFF_FFFF ∨ (p.bindings.filter (·.counter != u.toNat % 2 ^ 12)).length < 16)) ∧
      (Does (L.wrW d 0) { y with st := (y.st.updPart p.id (fun q => { q with
      bindings := p.bindings.filter (·.counter != u.toNat % 2 ^ 12) ++
        (if v = 0xFFFF_FFFF then [] else [⟨u.toNat % 2 ^ 12, v.toNat, 0, 0⟩]) })) |>
          (fun s => if p.bindings.any (·.counter == u.toNat % 2 ^ 12) then s.bindingOver p.id (u.toNat % 2 ^ 12) else s) } () z)) ∧
  (∃ (h : Hdr) (d a : Opnd) (s : State) (b : Issue) (t : Team) (l : Nat) (off : Word) (p : Partition) (y z : LS),
      (Solo s b t l h.guard) ∧
      (t.levelAt b.wave l ≠ 0) ∧
      (Does (do
      L.checkRegs [d, a]
      let off ← L.rdW a
      L.checkScr off.toNat 32 16
      return (off, ← L.part)) (b.start s t l) (off, p) y) ∧
      (p.fltCount ≠ 0) ∧
      (y.st.poisoned (p.fltq.toNat + 32 * p.fltHead) 32 = false) ∧
      (Does (L.wrW d (BitVec.ofNat 32 (y.st.readP (p.fltq.toNat + 32 * p.fltHead) 32 / 2 ^ 64))) { y with
      st := ((y.st.updTeam b.agent (·.wrScr off.toNat 32 (y.st.readP (p.fltq.toNat + 32 * p.fltHead) 32))).updPart p.id
        (fun p => { p with fltHead := (p.fltHead + 1) % 128, fltCount := p.fltCount - 1 })).enterRecord p.id } () z)) ∧
  (∃ (f : Hdr → Opnd → Opnd → Opnd → Instr),
      (f = .rsumRetry ∨ f = .rsumFail) ∧
      ∃ (h : Hdr) (d a c : Opnd) (s : State) (b : Issue) (t : Team) (l : Nat) (u v : Word) (p : Partition) (y : LS),
      (Solo s b t l h.guard) ∧
      (t.levelAt b.wave l ≠ 0) ∧
      (Does (do L.check 1 [a, c] [d]; return (← L.rdW a, ← L.rdW c, ← L.part)) (b.start s t l) (u, v, p) y) ∧
      ∃ z, (y.st.ticket? p.id u = none) ∧
      (Does (L.wrW d 1) y () z)) ∧
  (∃ (f : Hdr → Opnd → Opnd → Opnd → Instr),
      (f = .rsumRetry ∨ f = .rsumFail) ∧
      ∃ (h : Hdr) (d a c : Opnd) (s : State) (b : Issue) (t : Team) (l : Nat) (u v : Word) (p : Partition) (y : LS),
      (Solo s b t l h.guard) ∧
      (t.levelAt b.wave l ≠ 0) ∧
      (Does (do L.check 1 [a, c] [d]; return (← L.rdW a, ← L.rdW c, ← L.part)) (b.start s t l) (u, v, p) y) ∧
      ∃ k, ∃ z, (y.st.ticket? p.id u = some k) ∧
      ((2 ≤ v.toNat % 4 ∨ v.toNat % 4 = 1 ∧ v.toNat / 256 % 256 < 16 ∨ 2 ^ 16 ≤ v.toNat ∨ v.toNat / 4 % 64 ≠ 0)) ∧
      (Does (L.wrW d 2) y () z)) ∧
  (∃ (f : Hdr → Opnd → Opnd → Opnd → Instr),
      (f = .rsumRetry ∨ f = .rsumFail) ∧
      ∃ (h : Hdr) (d a c : Opnd) (s : State) (b : Issue) (t : Team) (l : Nat) (u v : Word) (p : Partition) (y : LS),
      (Solo s b t l h.guard) ∧
      (t.levelAt b.wave l ≠ 0) ∧
      (Does (do L.check 1 [a, c] [d]; return (← L.rdW a, ← L.rdW c, ← L.part)) (b.start s t l) (u, v, p) y) ∧
      ∃ k, ∃ z, (y.st.ticket? p.id u = some k) ∧
      (v.toNat / 4 % 64 = 0) ∧
      (v.toNat < 2 ^ 16) ∧
      ((v.toNat % 4 = 0 ∨ v.toNat % 4 = 1 ∧ 16 ≤ v.toNat / 256)) ∧
      (Does (L.wrW d 0) { y with
        st := if v.toNat % 4 = 0 then y.st.retryParked (u.extractLsb' 21 11) k
          else y.st.failParked (u.extractLsb' 21 11) k (BitVec.ofNat 8 (v.toNat / 256)) } () z)) := by
  refine ⟨?_, ?_, ?_, ?_, ?_, ?_, ?_⟩
  · exact ⟨Hdr.plain, .g 2, .g 5, (st 1), batch, (team 1), 0, _, _, _, _,
      solo _ _ _ rfl rfl rfl (by decide +kernel) rfl (by decide +kernel) (by decide +kernel),
      by decide +kernel, does_out (by decide +kernel)⟩
  · exact ⟨Hdr.plain, .g 3, .g 1, .g 5,
      { st 1 with parts := [{ part with bindings := (List.range 16).map (fun n => ⟨n + 100, 0, 0, 0⟩) }] },
      batch, (team 1), 0, _, _, _, _, _,
      solo _ _ _ rfl rfl rfl (by decide +kernel) rfl (by decide +kernel) (by decide +kernel),
      by decide +kernel, does_out (by decide +kernel), by decide +kernel, by decide +kernel,
      does_out (by decide +kernel)⟩
  · exact ⟨Hdr.plain, .g 3, .g 1, .g 5, (st 1), batch, (team 1), 0, _, _, _, _, _,
      solo _ _ _ rfl rfl rfl (by decide +kernel) rfl (by decide +kernel) (by decide +kernel),
      by decide +kernel, does_out (by decide +kernel), by decide +kernel, does_out (by decide +kernel)⟩
  · exact ⟨Hdr.plain, .g 3, .g 16, { st 1 with parts := [{ part with fltq := 0x7000, fltCount := 1 }] }, batch,
      (team 1), 0, _, _, _, _,
      solo _ _ _ rfl rfl rfl (by decide +kernel) rfl (by decide +kernel) (by decide +kernel),
      by decide +kernel, does_out (by decide +kernel), by decide +kernel, by decide +kernel,
      does_out (by decide +kernel)⟩
  · exact ⟨.rsumRetry, Or.inl rfl, Hdr.plain, .g 3, .g 1, .g 5, (st 1), batch, (team 1), 0, _, _, _, _,
      solo _ _ _ rfl rfl rfl (by decide +kernel) rfl (by decide +kernel) (by decide +kernel),
      by decide +kernel, does_out (by decide +kernel), _, by decide +kernel, does_out (by decide +kernel)⟩
  · exact ⟨.rsumRetry, Or.inl rfl, Hdr.plain, .g 3, .zr, .g 4,
      (st 1 |> fun s => { s with cores := [{ s.core 0 with replay := [parkedOne] }] }), batch, (team 1), 0,
      _, _, _, _, solo _ _ _ rfl rfl rfl (by decide +kernel) rfl (by decide +kernel) (by decide +kernel),
      by decide +kernel, does_out (by decide +kernel), _, _, some_out (by decide +kernel),
      by decide +kernel, does_out (by decide +kernel)⟩
  · exact ⟨.rsumRetry, Or.inl rfl, Hdr.plain, .g 3, .zr, .zr,
      (st 1 |> fun s => { s with cores := [{ s.core 0 with replay := [parkedOne] }] }), batch, (team 1), 0,
      _, _, _, _, solo _ _ _ rfl rfl rfl (by decide +kernel) rfl (by decide +kernel) (by decide +kernel),
      by decide +kernel, does_out (by decide +kernel), _, _, some_out (by decide +kernel),
      by decide +kernel, by decide +kernel, by decide +kernel, does_out (by decide +kernel)⟩

theorem witness_SwapAndSwitchWords :
  (∃ (h : Hdr) (d a : Opnd) (s : State) (b : Issue) (t : Team) (l : Nat) (v : Word) (p : Partition) (y : LS),
      (Solo s b t l h.guard) ∧
      (t.levelAt b.wave l ≠ 0) ∧
      (Does (do L.check 1 [a] [d]; return (← L.rdW a, ← L.part)) (b.start s t l) (v, p) y) ∧
      ∃ z, (y.st.partTeam? p.id (v.extractLsb' 0 16) = none) ∧
      (Does (L.wrW d 1) y () z)) ∧
  (∃ (h : Hdr) (d a : Opnd) (s : State) (b : Issue) (t : Team) (l : Nat) (v : Word) (p : Partition) (y : LS),
      (Solo s b t l h.guard) ∧
      (t.levelAt b.wave l ≠ 0) ∧
      (Does (do L.check 1 [a] [d]; return (← L.rdW a, ← L.part)) (b.start s t l) (v, p) y) ∧
      ∃ g, ∃ z, (y.st.partTeam? p.id (v.extractLsb' 0 16) = some g) ∧
      (g.resid ≠ .resident) ∧
      (Does (L.wrW d 2) y () z)) ∧
  (∃ (h : Hdr) (d a : Opnd) (s : State) (b : Issue) (t : Team) (l : Nat) (v : Word) (p : Partition) (y : LS),
      (Solo s b t l h.guard) ∧
      (t.levelAt b.wave l ≠ 0) ∧
      (Does (do L.check 1 [a] [d]; return (← L.rdW a, ← L.part)) (b.start s t l) (v, p) y) ∧
      ∃ g, ∃ z, (y.st.partTeam? p.id (v.extractLsb' 0 16) = some g) ∧
      (g.resid = .resident) ∧
      (y.st.stopsIn (v.extractLsb' 0 16) p.id = true) ∧
      (Does (L.wrW d 0) y () z)) ∧
  (∃ (h : Hdr) (d a : Opnd) (s : State) (b : Issue) (t : Team) (l : Nat) (v : Word) (p : Partition) (y : LS),
      (Solo s b t l h.guard) ∧
      (t.levelAt b.wave l ≠ 0) ∧
      (Does (do L.check 1 [a] [d]; return (← L.rdW a, ← L.part)) (b.start s t l) (v, p) y) ∧
      ∃ g, (y.st.partTeam? p.id (v.extractLsb' 0 16) = some g) ∧
      (g.resid = .resident) ∧
      (y.st.stopsIn (v.extractLsb' 0 16) p.id = false)) ∧
  (∃ (h : Hdr) (d a : Opnd) (s : State) (b : Issue) (t : Team) (l : Nat) (v : Word) (p : Partition) (y : LS),
      (Solo s b t l h.guard) ∧
      (t.levelAt b.wave l ≠ 0) ∧
      (Does (do L.check 1 [a] [d]; return (← L.rdW a, ← L.part)) (b.start s t l) (v, p) y) ∧
      ∃ z, ((∀ g, y.st.partTeam? p.id (v.extractLsb' 0 16) = some g → g.resid ≠ .swappedBySwpo)) ∧
      (Does (L.wrW d 1) y () z)) ∧
  (∃ (h : Hdr) (d a : Opnd) (s : State) (b : Issue) (t : Team) (l : Nat) (v : Word) (p : Partition) (y : LS),
      (Solo s b t l h.guard) ∧
      (t.levelAt b.wave l ≠ 0) ∧
      (Does (do L.check 1 [a] [d]; return (← L.rdW a, ← L.part)) (b.start s t l) (v, p) y) ∧
      ∃ g, ∃ s', ∃ z, (y.st.partTeam? p.id (v.extractLsb' 0 16) = some g) ∧
      (g.resid = .swappedBySwpo) ∧
      (s' = y.st.inCtx (coreOf (v.extractLsb' 0 16)) p.id (fun s => (s.swapIn (v.extractLsb' 0 16)).getD s)) ∧
      ((s'.partTeam? p.id (v.extractLsb' 0 16)).map (·.resid) = some .resident) ∧
      (Does (L.wrW d 0) { y with st := s' } () z)) ∧
  (∃ (h : Hdr) (d a : Opnd) (s : State) (b : Issue) (t : Team) (l : Nat) (v : Word) (p : Partition) (y : LS),
      (Solo s b t l h.guard) ∧
      (t.levelAt b.wave l ≠ 0) ∧
      (Does (do L.check 1 [a] [d]; return (← L.rdW a, ← L.part)) (b.start s t l) (v, p) y) ∧
      ∃ g, ∃ s', ∃ z, (y.st.partTeam? p.id (v.extractLsb' 0 16) = some g) ∧
      (g.resid = .swappedBySwpo) ∧
      (s' = y.st.inCtx (coreOf (v.extractLsb' 0 16)) p.id (fun s => (s.swapIn (v.extractLsb' 0 16)).getD s)) ∧
      ((s'.partTeam? p.id (v.extractLsb' 0 16)).map (·.resid) ≠ some .resident) ∧
      (Does (L.wrW d 2) y () z)) ∧
  (∃ (h : Hdr) (d a c : Opnd) (s : State) (b : Issue) (t : Team) (l : Nat) (u v : Word) (y : LS),
      (Solo s b t l h.guard) ∧
      (t.levelAt b.wave l ≠ 0) ∧
      (Does (do
      L.check 1 [a, c] [d]
      let u ← L.rdW a
      L.sameInAll u (L.rdW a)
      let v ← L.rdW c
      L.sameInAll v (L.rdW c)
      return (u, v)) (b.start s t l) (u, v) y) ∧
      ∃ k, ∃ z, (k = (if 16 ≤ u.toNat ∨ y.st.part? u.toNat = none then 1 else if v = 0 ∨ 256 ≤ v.toNat then 2 else 0)) ∧
      (k ≠ 0) ∧
      ((∀ e ∈ s.agenda, ∀ p m, e ≠ .switchTo p m)) ∧
      (Does (L.wrW d k) y () z)) ∧
  (∃ (h : Hdr) (d a c : Opnd) (s : State) (b : Issue) (t : Team) (l : Nat) (u v : Word) (y : LS),
      (Solo s b t l h.guard) ∧
      (t.levelAt b.wave l ≠ 0) ∧
      (Does (do
      L.check 1 [a, c] [d]
      let u ← L.rdW a
      L.sameInAll u (L.rdW a)
      let v ← L.rdW c
      L.sameInAll v (L.rdW c)
      return (u, v)) (b.start s t l) (u, v) y) ∧
      ∃ z, (u.toNat < 16) ∧
      (y.st.part? u.toNat ≠ none) ∧
      (v ≠ 0) ∧
      (v.toNat < 256) ∧
      ((∀ k ∈ (t.wave b.wave).stuck, k.pc ≠ b.pc)) ∧
      ((∀ k ∈ y.st.coresOf v.toNat, (y.st.core k).switching = false)) ∧
      ((∀ k ∈ (s.haltFor v.toNat).coresOf v.toNat, ((s.haltFor v.toNat).core k).awaiting = [])) ∧
      (Does (L.wrW d 0) { y with
        st := ((y.st.haltFor v.toNat).switchTaken b.agent b.wave).push (.switchTo u.toNat v.toNat) } () z)) ∧
  (∃ (h : Hdr) (d a c : Opnd) (s : State) (b : Issue) (t : Team) (l : Nat) (u v : Word) (y : LS),
      (Solo s b t l h.guard) ∧
      (t.levelAt b.wave l ≠ 0) ∧
      (Does (do
      L.check 1 [a, c] [d]
      let u ← L.rdW a
      L.sameInAll u (L.rdW a)
      let v ← L.rdW c
      L.sameInAll v (L.rdW c)
      return (u, v)) (b.start s t l) (u, v) y) ∧
      (u.toNat < 16) ∧
      (y.st.part? u.toNat ≠ none) ∧
      (v ≠ 0) ∧
      (v.toNat < 256) ∧
      ((∀ k ∈ (t.wave b.wave).stuck, k.pc ≠ b.pc)) ∧
      ((∀ e ∈ s.agenda, ∀ p m, e ≠ .switchTo p m)) ∧
      ((∀ k ∈ y.st.coresOf v.toNat, (y.st.core k).switching = false)) ∧
      ((∃ k ∈ (s.haltFor v.toNat).coresOf v.toNat, ((s.haltFor v.toNat).core k).awaiting ≠ []))) ∧
  (∃ (h : Hdr) (d a c : Opnd) (s : State) (b : Issue) (t : Team) (l : Nat) (u v : Word) (y : LS),
      (Solo s b t l h.guard) ∧
      (t.levelAt b.wave l ≠ 0) ∧
      (Does (do
      L.check 1 [a, c] [d]
      let u ← L.rdW a
      L.sameInAll u (L.rdW a)
      let v ← L.rdW c
      L.sameInAll v (L.rdW c)
      return (u, v)) (b.start s t l) (u, v) y) ∧
      ∃ z, (u.toNat < 16) ∧
      (y.st.part? u.toNat ≠ none) ∧
      (v ≠ 0) ∧
      (v.toNat < 256) ∧
      ((∃ w, y.st.wave? b.agent b.wave = some w ∧ ∃ k ∈ w.stuck, k.pc = b.pc ∧ k.why = .stop)) ∧
      ((∀ k ∈ y.st.coresOf v.toNat, (y.st.core k).awaiting = [])) ∧
      (Does (L.wrW d 0) { y with st := (y.st.switchTaken b.agent b.wave).push (.switchTo u.toNat v.toNat) } () z)) := by
  refine ⟨?_, ?_, ?_, ?_, ?_, ?_, ?_, ?_, ?_, ?_, ?_⟩
  · exact ⟨Hdr.plain, .g 3, .g 1, (st 1), batch, (team 1), 0, _, _, _,
      solo _ _ _ rfl rfl rfl (by decide +kernel) rfl (by decide +kernel) (by decide +kernel),
      by decide +kernel, does_out (by decide +kernel), _, by decide +kernel, does_out (by decide +kernel)⟩
  · exact ⟨Hdr.plain, .g 3, .g 27,
      { st 1 with teams := [team 1, { team 1 with agent := 1, resid := .swappedBySwpo }] }, batch,
      (team 1), 0, _, _, _,
      solo _ _ _ rfl rfl rfl (by decide +kernel) rfl (by decide +kernel) (by decide +kernel),
      by decide +kernel, does_out (by decide +kernel), _, _, some_out (by decide +kernel),
      by decide +kernel, does_out (by decide +kernel)⟩
  · exact ⟨Hdr.plain, .g 3, .zr, (st 1), batch, (team 1), 0, _, _, _,
      solo _ _ _ rfl rfl rfl (by decide +kernel) rfl (by decide +kernel) (by decide +kernel),
      by decide +kernel, does_out (by decide +kernel), _, _, some_out (by decide +kernel),
      by decide +kernel, by decide +kernel, does_out (by decide +kernel)⟩
  · exact ⟨Hdr.plain, .g 3, .zr, midway, batch, (team 1), 0, _, _, _,
      solo _ _ _ rfl rfl rfl (by decide +kernel) rfl (by decide +kernel) (by decide +kernel),
      by decide +kernel, does_out (by decide +kernel), _, some_out (by decide +kernel), by decide +kernel,
      by decide +kernel⟩
  · exact ⟨Hdr.plain, .g 3, .g 1, (st 1), batch, (team 1), 0, _, _, _,
      solo _ _ _ rfl rfl rfl (by decide +kernel) rfl (by decide +kernel) (by decide +kernel),
      by decide +kernel, does_out (by decide +kernel), _, none_out (by decide +kernel),
      does_out (by decide +kernel)⟩
  · exact ⟨Hdr.plain, .g 3, .g 27,
      { st 1 with teams := [team 1, { team 1 with agent := 1, scr := 0, tiles := 0, resid := .swappedBySwpo }] },
      batch, (team 1), 0, _, _, _,
      solo _ _ _ rfl rfl rfl (by decide +kernel) rfl (by decide +kernel) (by decide +kernel),
      by decide +kernel, does_out (by decide +kernel), _, _, _, some_out (by decide +kernel),
      by decide +kernel, rfl, by decide +kernel, does_out (by decide +kernel)⟩
  · exact ⟨Hdr.plain, .g 3, .g 27,
      { st 1 with teams := [team 1, { team 1 with agent := 1, resid := .swappedBySwpo }] }, batch,
      (team 1), 0, _, _, _,
      solo _ _ _ rfl rfl rfl (by decide +kernel) rfl (by decide +kernel) (by decide +kernel),
      by decide +kernel, does_out (by decide +kernel), _, _, _, some_out (by decide +kernel),
      by decide +kernel, rfl, by decide +kernel, does_out (by decide +kernel)⟩
  · exact ⟨Hdr.plain, .g 3, .g 16, .g 5, (st 1), batch, (team 1), 0, _, _, _,
      solo _ _ _ rfl rfl rfl (by decide +kernel) rfl (by decide +kernel) (by decide +kernel),
      by decide +kernel, does_out (by decide +kernel), _, _, rfl, by decide +kernel,
      (fun e h => nomatch (show e ∈ ([] : List Event) from h)), does_out (by decide +kernel)⟩
  · exact ⟨Hdr.plain, .g 3, .zr, .g 27, (st 1), batch, (team 1), 0, _, _, _,
      solo _ _ _ rfl rfl rfl (by decide +kernel) rfl (by decide +kernel) (by decide +kernel),
      by decide +kernel, does_out (by decide +kernel), _, by decide +kernel, by decide +kernel,
      by decide +kernel, id (by decide +kernel), by decide +kernel, by decide +kernel, by decide +kernel,
      does_out (by decide +kernel)⟩
  · exact ⟨Hdr.plain, .g 3, .zr, .g 27, { st 1 with jobs := [loopJob], cores := [Core.reset 0] }, batch, (team 1), 0,
      _, _, _, solo _ _ _ rfl rfl rfl (by decide +kernel) rfl (by decide +kernel) (by decide +kernel),
      by decide +kernel, does_out (by decide +kernel), by decide +kernel, by decide +kernel,
      by decide +kernel, id (by decide +kernel), by decide +kernel,
      (fun e h => nomatch (show e ∈ ([] : List Event) from h)), by decide +kernel, by decide +kernel⟩
  · exact ⟨Hdr.plain, .g 3, .zr, .g 27, (pkg stopping), batch, stopping, 0, _, _, _,
      solo _ _ _ rfl rfl rfl (by decide +kernel) rfl (by decide +kernel) (by decide +kernel),
      by decide +kernel, does_out (by decide +kernel), _, by decide +kernel, by decide +kernel,
      by decide +kernel, id (by decide +kernel), ⟨_, some_out (by decide +kernel), by decide +kernel⟩,
      by decide +kernel, does_out (by decide +kernel)⟩

theorem witness_MonitorWords :
  (∃ (h : Hdr) (s : State) (b : Issue) (t : Team) (l : Nat),
      (Solo s b t l h.guard) ∧
      (t.levelAt b.wave l = 2)) ∧
  (∃ (f : Hdr → Opnd → Instr),
      (f = .halt ∨ f = .haltEnable) ∧
      ∃ (h : Hdr) (a : Opnd) (s : State) (b : Issue) (t : Team) (l : Nat) (v : Word) (y : LS),
      (Solo s b t l h.guard) ∧
      (t.levelAt b.wave l ≠ 0) ∧
      (Does (do L.checkRegs [a]; L.rdW a) (b.start s t l) v y) ∧
      (v.toNat % 32 = 0) ∧
      (v.toNat / 2 ^ 16 % 2 ^ 15 = 0) ∧
      (y.st.corePresent (v.extractLsb' 5 11) = true)) ∧
  (∃ (h : Hdr) (d a : Opnd) (s : State) (b : Issue) (t : Team) (l : Nat) (v : Word) (p : Partition) (y : LS),
      (Solo s b t l h.guard) ∧
      (t.levelAt b.wave l = 2) ∧
      (Does (do L.check 1 [a] [d]; return (← L.rdW a, ← L.part)) (b.start s t l) (v, p) y) ∧
      ∃ z, ((v.extractLsb' 5 11 = coreOf b.agent ∨ y.st.corePresent (v.extractLsb' 5 11) = false)) ∧
      (Does (L.wrW d 3) y () z)) ∧
  (∃ (h : Hdr) (d a : Opnd) (s : State) (b : Issue) (t : Team) (l : Nat) (v : Word) (p : Partition) (y : LS),
      (Solo s b t l h.guard) ∧
      (t.levelAt b.wave l = 2) ∧
      (Does (do L.check 1 [a] [d]; return (← L.rdW a, ← L.part)) (b.start s t l) (v, p) y) ∧
      ∃ r, ∃ z, (v.extractLsb' 5 11 ≠ coreOf b.agent) ∧
      (y.st.corePresent (v.extractLsb' 5 11) = true) ∧
      ((y.st.core (v.extractLsb' 5 11)).candle = some ⟨p.id, b.agent, b.wave, l, some r, false⟩) ∧
      (Does (L.wrW d (BitVec.ofNat 32 r)) { y with
        st := y.st.updCore (v.extractLsb' 5 11) (fun k => { k with candle := none }) } () z)) ∧
  (∃ (h : Hdr) (d a c : Opnd) (s : State) (b : Issue) (t : Team) (l : Nat) (u v : Word) (y : LS),
      (Solo s b t l h.guard) ∧
      (t.levelAt b.wave l = 2) ∧
      (Does (do L.check 1 [a, c] [d]; return (← L.rdW a, ← L.rdW c)) (b.start s t l) (u, v) y) ∧
      ∃ z, (y.st.cmapBad u v = true) ∧
      (Does (L.wrW d 1) y () z)) ∧
  (∃ (h : Hdr) (d a c : Opnd) (s : State) (b : Issue) (t : Team) (l : Nat) (u v : Word) (y : LS),
      (Solo s b t l h.guard) ∧
      (t.levelAt b.wave l = 2) ∧
      (Does (do L.check 1 [a, c] [d]; return (← L.rdW a, ← L.rdW c)) (b.start s t l) (u, v) y) ∧
      ∃ z, (y.st.cmapBad u v = false) ∧
      ((∀ k ∈ y.st.allTeams, coreOf k.agent = u.extractLsb' 5 11 → k.resid ≠ .resident)) ∧
      ((y.st.core (u.extractLsb' 5 11)).replay = []) ∧
      ((∀ k ∈ y.st.saved, k.core = u.extractLsb' 5 11 → k.replay = [])) ∧
      (Does (L.wrW d 0) { y with
        st := (if v.getLsbD 31 then y.st.stopCore (coreIndex (u.extractLsb' 5 11)) else y.st).writeMap
          (coreIndex (u.extractLsb' 5 11)) (if v.getLsbD 31 then 0 else BitVec.ofNat 16 (v.toNat / 32 % 2 ^ 11 * 32 + 1)) } () z)) ∧
  (∃ (h : Hdr) (d a c : Opnd) (s : State) (b : Issue) (t : Team) (l : Nat) (i n : Word) (va : Nat) (m : List (BitVec 8)) (y z : LS),
      (Solo s b t l h.guard) ∧
      (t.levelAt b.wave l = 2) ∧
      (Does (do L.checkRegs [d, c]; return (← L.rdW d, ← L.rdPair a, ← L.rdW c)) (b.start s t l) (i, va, n) y) ∧
      (i.toNat < 16) ∧
      (n.toNat % 64 = 0) ∧
      (n ≠ 0) ∧
      (n.toNat ≤ 1048576) ∧
      (va < 2 ^ 52) ∧
      (Does (L.loadBytes va n.toNat) y m z)) := by
  refine ⟨?_, ?_, ?_, ?_, ?_, ?_, ?_⟩
  · exact ⟨Hdr.plain, (st 2), batch, (team 2), 0,
      solo _ _ _ rfl rfl rfl (by decide +kernel) rfl (by decide +kernel) (by decide +kernel),
      by decide +kernel⟩
  · exact ⟨.halt, Or.inl rfl, Hdr.plain, .zr, (st 2), batch, (team 2), 0, _, _,
      solo _ _ _ rfl rfl rfl (by decide +kernel) rfl (by decide +kernel) (by decide +kernel),
      by decide +kernel, does_out (by decide +kernel), by decide +kernel, by decide +kernel,
      by decide +kernel⟩
  · exact ⟨Hdr.plain, .g 3, .zr, (st 2), batch, (team 2), 0, _, _, _,
      solo _ _ _ rfl rfl rfl (by decide +kernel) rfl (by decide +kernel) (by decide +kernel),
      by decide +kernel, does_out (by decide +kernel), _, by decide +kernel, does_out (by decide +kernel)⟩
  · exact ⟨Hdr.plain, .g 3, .g 32,
      (st 2 |> fun s => { s with cores := [s.core 0, { s.core 1 with candle := some ⟨0, 0, 0, 0, some 5, false⟩ }] }),
      batch, (team 2), 0, _, _, _,
      solo _ _ _ rfl rfl rfl (by decide +kernel) rfl (by decide +kernel) (by decide +kernel),
      by decide +kernel, does_out (by decide +kernel), 5, _, by decide +kernel, by decide +kernel,
      by decide +kernel, does_out (by decide +kernel)⟩
  · exact ⟨Hdr.plain, .g 3, .g 1, .g 5, (st 2), batch, (team 2), 0, _, _, _,
      solo _ _ _ rfl rfl rfl (by decide +kernel) rfl (by decide +kernel) (by decide +kernel),
      by decide +kernel, does_out (by decide +kernel), _, by decide +kernel, does_out (by decide +kernel)⟩
  · exact ⟨Hdr.plain, .g 3, .g 32, .g 34, (st 2), batch, (team 2), 0, _, _, _,
      solo _ _ _ rfl rfl rfl (by decide +kernel) rfl (by decide +kernel) (by decide +kernel),
      by decide +kernel, does_out (by decide +kernel), _, by decide +kernel, by decide +kernel,
      by decide +kernel, id (by decide +kernel), does_out (by decide +kernel)⟩
  · exact ⟨Hdr.plain, .g 1, .g 2, .g 16, (st 2), batch, (team 2), 0, _, _, _, _, _, _,
      solo _ _ _ rfl rfl rfl (by decide +kernel) rfl (by decide +kernel) (by decide +kernel),
      by decide +kernel, does_out (by decide +kernel), by decide +kernel, by decide +kernel,
      by decide +kernel, id (by decide +kernel), by decide +kernel, does_out (by decide +kernel)⟩

theorem witness_WaveEvents :
  (∃ (s : State) (a : AgentId) (wv n : Nat) (t : Team) (e : Entry) (r : LaneRec) (v : QWord) (tg : BitVec 4) (y : LS),
      (s.team? a = some t) ∧
      (t.work.yoke = false) ∧
      ((t.wave wv).unfinished.find? (·.id == n) = some e) ∧
      (e.id = n) ∧
      (e.lanes = [r]) ∧
      (e.fate = []) ∧
      (e.bad = []) ∧
      (r.perf = false) ∧
      (Does (perfOf e.ins r.cap) (perfStart s a wv e r.lane) (v, tg) y) ∧
      (y.recs = []) ∧
      ((∀ w, y.st.wave? a wv = some w → ∀ x ∈ w.unfinished, x.id = n → x = e))) ∧
  (∃ (s : State) (a : AgentId) (wv n : Nat) (t : Team) (e : Entry) (r : LaneRec) (cls : BitVec 4) (sub : BitVec 8) (va : Addr) (aux : Word) (x z : State),
      (s.team? a = some t) ∧
      (t.work.yoke = false) ∧
      ((t.wave wv).unfinished.find? (·.id == n) = some e) ∧
      (e.lanes = [r]) ∧
      (e.fate = []) ∧
      (e.bad = []) ∧
      (r.perf = false) ∧
      (perfOf e.ins r.cap (perfStart s a wv e r.lane) = .error (.trap cls sub va aux x)) ∧
      (z = (s.keepReads x a).keepReads s a)) ∧
  (∃ (s : State) (a : AgentId) (wv n : Nat) (t : Team) (e : Entry),
      (s.team? a = some t) ∧
      ((t.wave wv).unfinished.find? (·.id == n) = some e) ∧
      (e.fate ≠ []) ∧
      ∃ i ∈ [Instr.longLatencyCompletion a wv n, Instr.lateTrap a wv n], True) ∧
  (∃ (s : State) (a : AgentId) (wv : Nat) (pc : Addr) (traps : List TrapRec),
      (traps ≠ [])) ∧
  (∃ p ∈ divisions, ∃ (h : Hdr) (d a c : Opnd) (s : State) (b : Issue) (t : Team) (l : Nat) (u v : Word) (ix : QWord) (y : LS),
      (Solo s b t l h.guard) ∧
      (h.la ≠ 0) ∧
      (L.uniform d = false) ∧
      (Does (do L.check 1 [a, c] [d]; return (← L.rdW a, ← L.rdW c, ← L.destIndex d)) (b.start s t l) (u, v, ix) y)) := by
  refine ⟨?_, ?_, ?_, ?_, ?_⟩
  · exact ⟨(pkg (busy 0x2000)), 0, 0, 0, (busy 0x2000), (late 0x2000), (lateLane 0x2000), _, _, _, by decide +kernel,
      by decide +kernel, by decide +kernel, id (by decide +kernel), by decide +kernel, by decide +kernel,
      by decide +kernel, id (by decide +kernel), does_out (by decide +kernel), by decide +kernel,
      by decide +kernel⟩
  · exact ⟨(pkg (busy 0x2001)), 0, 0, 0, (busy 0x2001), (late 0x2001), (lateLane 0x2001), 8, 2, 0x2001, 7, _, _,
      by decide +kernel, by decide +kernel, by decide +kernel, id (by decide +kernel), by decide +kernel,
      by decide +kernel, by decide +kernel, trap_out (by decide +kernel), rfl⟩
  · exact ⟨
      (pkg { busy 0x2001 with waves := vset (team 1).waves 0 { (team 1).wave 0 with unfinished := [{ late 0x2001 with fate := [⟨0, 8, 2, 0x2001, 0⟩] }] } }),
      0, 0, 0,
      { busy 0x2001 with waves := vset (team 1).waves 0 { (team 1).wave 0 with unfinished := [{ late 0x2001 with fate := [⟨0, 8, 2, 0x2001, 0⟩] }] } },
      { late 0x2001 with fate := [⟨0, 8, 2, 0x2001, 0⟩] }, by decide +kernel, by decide +kernel,
      by decide +kernel, _, List.Mem.head _, trivial⟩
  · exact ⟨(st 1), 0, 0, 0x1000, [⟨0, 14, 0, 0, 0⟩], by decide +kernel⟩
  · exact ⟨_, List.Mem.head _, ⟨none, 1⟩, .g 3, .g 1, .g 5, (st 1), batch, (team 1), 0, _, _, _, _,
      solo _ _ _ rfl rfl rfl (by decide +kernel) rfl (by decide +kernel) (by decide +kernel),
      by decide +kernel, by decide +kernel, does_out (by decide +kernel)⟩

theorem witness_TranslationEvents :
  (∃ (s : State) (r : WalkReq) (p : Partition) (q : QWord) (addr pa : Nat) (k : AK) (leaf : QWord) (s' : State),
      (s.part? r.part = some p) ∧
      (walk s p (r.va.toNat / 4096) = .leaf q addr) ∧
      (walkKind r.acc = some k) ∧
      (resolve (s.dropStale r.core p.id (r.va.toNat / 4096) q) p ⟨r.core, r.agent, p.id, r.level, k, r.va.toNat, 1, false⟩ =
      .ok pa leaf s')) ∧
  (∃ (s : State) (part vpn : Nat) (p : Partition) (q : QWord) (addr : Nat),
      (s.part? part = some p) ∧
      (leafAt s p vpn = some (q, addr)) ∧
      (lfC q = true) ∧
      (lfM q = false) ∧
      ((∀ k ∈ s.launches, k.rbk = false ∨ k.part ≠ p.id ∨ k.lists vpn = false))) ∧
  (∃ (s s1 : State) (part vpn : Nat) (p : Partition) (q q' : QWord) (addr addr' : Nat),
      (s.part? part = some p) ∧
      (leafAt s p vpn = some (q, addr)) ∧
      (lfC q = true) ∧
      (lfM q = false) ∧
      (s1 = s.launches.foldl (fun s k => s.snapFor p vpn q k) s) ∧
      (leafAt s1 p vpn = some (q', addr'))) ∧
  (∃ (s : State) (p : Partition) (vpn f : Nat) (q : QWord) (k : Launch),
      (k.rbk = true) ∧
      (k.part = p.id) ∧
      (k.lists vpn = true) ∧
      (vpn ∉ k.bare) ∧
      ((∀ x ∈ k.snaps, x.1 ≠ vpn)) ∧
      (s.freeFrame p .hbm 0 = some f)) ∧
  (∃ (s : State) (part c pa w : Nat) (p : Partition) (b : Binding) (q : QWord),
      (s.part? part = some p) ∧
      (p.bindings.find? (·.counter == c) = some b) ∧
      (ownAccess s p .load ((p.rackb.toNat + 16 * b.next) % 2 ^ 52) 16 = .ok pa q) ∧
      (w = s.readP pa 16) ∧
      (reached (p.counter c).count (BitVec.ofNat 32 (bits w 0 16)) = false)) ∧
  (∃ (s : State) (part c pa w : Nat) (p : Partition) (b : Binding) (q : QWord),
      (s.part? part = some p) ∧
      (p.bindings.find? (·.counter == c) = some b) ∧
      (ownAccess s p .load ((p.rackb.toNat + 16 * b.next) % 2 ^ 52) 16 = .ok pa q) ∧
      (w = s.readP pa 16) ∧
      (reached (p.counter c).count (BitVec.ofNat 32 (bits w 0 16)) = true) ∧
      (rackBad w = true)) := by
  refine ⟨?_, ?_, ?_, ?_, ?_, ?_⟩
  · exact ⟨(st 1), ⟨0, 0, 0, 0, 1, 0x2000, .load⟩, _, _, _, _, _, _, _, some_out (by decide +kernel),
      walk_out (by decide +kernel), some_out (by decide +kernel), res_out (by decide +kernel)⟩
  · exact ⟨(wide (st 1)), 0, 9, _, _, _, some_out (by decide +kernel), some_out (by decide +kernel),
      by decide +kernel, by decide +kernel, by decide +kernel⟩
  · exact ⟨
      (wide { st 1 with parts := [{ part with shares := [⟨.scratch, none, 0, 1⟩] }], launches := [{ launch with rbk := true, footprint := [(9, 1)] }] }),
      _, 0, 9, _, _, _, _, _, some_out (by decide +kernel), some_out (by decide +kernel),
      by decide +kernel, by decide +kernel, rfl, some_out (by decide +kernel)⟩
  · exact ⟨State.reset, { part with shares := [⟨.hbm, none, 0, 1⟩] }, 9, _, (BitVec.ofNat 128 0),
      { launch with rbk := true, footprint := [(9, 1)] }, by decide +kernel, by decide +kernel,
      by decide +kernel, id (by decide +kernel), by decide +kernel,
      some_out (frame_some (by decide +kernel) (by decide +kernel))⟩
  · exact ⟨(racking 1), 0, 0, _, _, _, _, _, some_out (by decide +kernel), some_out (by decide +kernel),
      own_out (by decide +kernel), rfl, by decide +kernel⟩
  · exact ⟨(racking (2 ^ 16)), 0, 0, _, _, _, _, _, some_out (by decide +kernel), some_out (by decide +kernel),
      own_out (by decide +kernel), rfl, by decide +kernel, by decide +kernel⟩

theorem witness_TranslationEvents_2 :
  (∃ (s : State) (part c pa w : Nat) (p : Partition) (b : Binding) (q : QWord),
      (s.part? part = some p) ∧
      (p.bindings.find? (·.counter == c) = some b) ∧
      (ownAccess s p .load ((p.rackb.toNat + 16 * b.next) % 2 ^ 52) 16 = .ok pa q) ∧
      (w = s.readP pa 16) ∧
      (reached (p.counter c).count (BitVec.ofNat 32 (bits w 0 16)) = true) ∧
      (rackBad w = false) ∧
      (bits w 48 4 = 0)) ∧
  (∃ (s : State) (part c pa w : Nat) (p : Partition) (b : Binding) (q : QWord),
      (s.part? part = some p) ∧
      (p.bindings.find? (·.counter == c) = some b) ∧
      (ownAccess s p .load ((p.rackb.toNat + 16 * b.next) % 2 ^ 52) 16 = .ok pa q) ∧
      (w = s.readP pa 16) ∧
      (reached (p.counter c).count (BitVec.ofNat 32 (bits w 0 16)) = true) ∧
      (rackBad w = false) ∧
      (bits w 48 4 ≠ 0) ∧
      (s.rackPage p b.next w ((bits w 88 40 + b.page) % 2 ^ 40) = none)) ∧
  (∃ (s : State) (part c pa w : Nat) (p : Partition) (b : Binding) (q : QWord),
      (s.part? part = some p) ∧
      (p.bindings.find? (·.counter == c) = some b) ∧
      (ownAccess s p .load ((p.rackb.toNat + 16 * b.next) % 2 ^ 52) 16 = .ok pa q) ∧
      (w = s.readP pa 16) ∧
      (reached (p.counter c).count (BitVec.ofNat 32 (bits w 0 16)) = true) ∧
      (rackBad w = false) ∧
      (bits w 48 4 ≠ 0) ∧
      ∃ s', (s.rackPage p b.next w ((bits w 88 40 + b.page) % 2 ^ 40) = some s')) ∧
  (∃ (s : State) (p : Partition) (idx w vpn src f act : Nat) (q : QWord) (a : AgentId),
      (act = bits w 48 4) ∧
      (1 ≤ act) ∧
      (act ≤ 3) ∧
      (a = BitVec.ofNat 16 (bits w 52 16)) ∧
      ((∀ m ∈ s.moves, m.part = p.id → m.vpn = vpn → m.st = .commit)) ∧
      (walk s p vpn = .leaf q src) ∧
      (lfPkg q = 0xFFF) ∧
      ((lfMode q = mOwned ∨ lfMode q = mHalo)) ∧
      (lfOwner q = a) ∧
      (s.frameAt (lfFrame q) (4 - act) (coreOf a) = false) ∧
      (s.freeFrameFor p (4 - act) (coreOf a) = some f)) ∧
  (∃ (s : State) (n f : Nat) (m : Move) (lvl : BitVec 2),
      (s.move? n = some m) ∧
      (m.st = .copy) ∧
      (m.owned = true) ∧
      (m.dest = some (lvl, f))) ∧
  (∃ (s : State) (n addr : Nat) (m : Move) (p : Partition) (q : QWord) (c : BitVec 11) (l : List (BitVec 11)),
      (s.move? n = some m) ∧
      (s.part? m.part = some p) ∧
      (leafAt s p m.vpn = some (q, addr)) ∧
      (m.st = .idle) ∧
      (m.owned = false) ∧
      (lfM q = false) ∧
      (s.firstMove m = true) ∧
      ((s.cores.map (·.id)).filter (fun c => inRegion s.pkg (lfSet q 9 1 1) (agentOf c 0)) = c :: l)) := by
  refine ⟨?_, ?_, ?_, ?_, ?_, ?_⟩
  · exact ⟨(racking 0), 0, 0, _, _, _, _, _, some_out (by decide +kernel), some_out (by decide +kernel),
      own_out (by decide +kernel), rfl, by decide +kernel, by decide +kernel, by decide +kernel⟩
  · exact ⟨{ racking (2 ^ 48 + 2 * 2 ^ 88) with moves := [move .drain true none []] }, 0, 0, _, _, _, _, _,
      some_out (by decide +kernel), some_out (by decide +kernel), own_out (by decide +kernel), rfl,
      by decide +kernel, by decide +kernel, by decide +kernel, id (by decide +kernel)⟩
  · exact ⟨(racking (2 ^ 48 + 2 * 2 ^ 88)), 0, 0, _, _, _, _, _, some_out (by decide +kernel),
      some_out (by decide +kernel), own_out (by decide +kernel), rfl, by decide +kernel, by decide +kernel,
      by decide +kernel, _, some_out (by decide +kernel)⟩
  · exact ⟨(st 1), part, 0, (2 ^ 48), 2, _, _, 1, _, 0, by decide +kernel, by decide +kernel, by decide +kernel,
      id (by decide +kernel), by decide +kernel, walk_out (by decide +kernel), by decide +kernel,
      by decide +kernel, by decide +kernel, id (by decide +kernel),
      some_out (frame_for (k := 0) (by decide +kernel) (by decide +kernel) (frame_some (by decide +kernel) (by decide +kernel)))⟩
  · exact ⟨{ st 1 with moves := [move .copy true (some (3, 20)) []] }, 0, 20, _, 3, some_out (by decide +kernel),
      by decide +kernel, by decide +kernel, by decide +kernel⟩
  · exact ⟨{ st 1 with cores := [Core.reset 0], moves := [move .idle false (some (3, 20)) []] }, 0, _, _, _, _, _, _,
      some_out (by decide +kernel), some_out (by decide +kernel), some_out (by decide +kernel),
      by decide +kernel, by decide +kernel, by decide +kernel, id (by decide +kernel),
      cons_out (by decide +kernel)⟩

theorem witness_TranslationEvents_3 :
  (∃ (s : State) (n : Nat) (c : BitVec 11) (m : Move),
      (s.move? n = some m) ∧
      (m.st = .drain) ∧
      (c ∈ m.acks) ∧
      (m.only = none)) ∧
  (∃ (s : State) (n : Nat) (m : Move),
      (s.move? n = some m) ∧
      (m.st = .drain) ∧
      (m.acks = []) ∧
      (m.dest ≠ none)) ∧
  (∃ (s : State) (n : Nat) (m : Move),
      (s.move? n = some m) ∧
      (m.st = .drain) ∧
      (m.acks = []) ∧
      (m.dest = none) ∧
      (m.newOwner = none)) ∧
  (∃ (s : State) (n f : Nat) (m : Move) (lvl : BitVec 2),
      (s.move? n = some m) ∧
      (m.st = .copy) ∧
      (m.owned = false) ∧
      (m.dest = some (lvl, f))) := by
  refine ⟨?_, ?_, ?_, ?_⟩
  · exact ⟨{ st 1 with moves := [move .drain false (some (3, 20)) [0]] }, 0, 0, _, some_out (by decide +kernel),
      by decide +kernel, by decide +kernel, by decide +kernel⟩
  · exact ⟨{ st 1 with moves := [move .drain false (some (3, 20)) []] }, 0, _, some_out (by decide +kernel),
      by decide +kernel, by decide +kernel, by decide +kernel⟩
  · exact ⟨{ st 1 with moves := [move .drain false none []] }, 0, _, some_out (by decide +kernel), by decide +kernel,
      by decide +kernel, by decide +kernel, id (by decide +kernel)⟩
  · exact ⟨{ st 1 with moves := [move .copy false (some (3, 20)) []] }, 0, 20, _, 3, some_out (by decide +kernel),
      by decide +kernel, by decide +kernel, by decide +kernel⟩

theorem witness_DistributorEvents :
  (∃ (s : State) (b c : Issue),
      (s.choice = some (.batch b)) ∧
      (b ∉ s.locked) ∧
      (b ∉ s.watches) ∧
      (c ∈ s.ready) ∧
      (s.datapath c = s.datapath b) ∧
      ((∀ x ∈ s.standing, x.gives = false)) ∧
      (256 ≤ s.age c)) ∧
  (∃ (s : State) (b c : Issue),
      (s.choice = some (.batch b)) ∧
      (b ∉ s.locked) ∧
      (b ∉ s.watches) ∧
      (c ∈ s.ready) ∧
      (s.datapath c = s.datapath b) ∧
      ((∀ x ∈ s.standing, x.gives = false)) ∧
      (s.age b < 256)) ∧
  (∃ (s : State) (b c : Issue),
      (s.choice = some (.batch b)) ∧
      (b ∉ s.locked) ∧
      (b ∉ s.watches) ∧
      (c ∈ s.ready) ∧
      (s.datapath c = s.datapath b) ∧
      ((∀ x ∈ s.standing, x.gives = false)) ∧
      (s.age b < 256) ∧
      (s.prioOf c = s.prioOf b)) ∧
  (∃ (s : State) (b c : Issue),
      (s.choice = some (.batch b)) ∧
      (b ∉ s.locked) ∧
      (b ∉ s.watches) ∧
      (c ∈ s.ready) ∧
      (s.datapath c = s.datapath b) ∧
      ((s.standingOf b).gives = true)) ∧
  (∃ (s t : State) (b : Issue),
      (s.yields b = true)) ∧
  (∃ (s : State) (part die prio n : Nat) (e : RingEntry) (rest : List (Nat × RingEntry)),
      ((s.ring part die prio).held = (n, e) :: rest) ∧
      (s.ringLoad part die < 2 ^ 20) ∧
      ((∀ x ∈ (s.ringsOf part die).flatMap (·.held), n ≤ x.1))) ∧
  (∃ (s : State) (c : BitVec 11) (p : Partition) (k l first stride n pos : Nat) (rest : List RingEntry) (j : Launch) (s' : State),
      ((s.die (dieOf c)).part.bind s.part? = some p) ∧
      ((s.core c).halted = false) ∧
      ((s.core c).candle = none) ∧
      ((s.core c).switching = false) ∧
      (coreExists c = true) ∧
      (k < 8) ∧
      ((∀ i, k < i → i < 8 → s.dueAhead c i = false ∧ (s.ring p.id (dieOf c) i).entries = [])) ∧
      (s.dueAhead c k = false) ∧
      ((s.ring p.id (dieOf c) k).entries = .range l first stride n pos :: rest) ∧
      (s.launch? l = some j) ∧
      (j.racked s p = true) ∧
      (s.startUnit c p (j.unitRec (64 * first + pos)) j.shape.toNat 0 0 = some s')) ∧
  (∃ (s : State) (part die prio : Nat),
      ((s.ring part die prio).entries ≠ [])) ∧
  (∃ (s : State) (part thief victim l first stride n : Nat) (rest : List RingEntry),
      ((s.ring part victim 7).entries = .range l first stride n 0 :: rest) ∧
      (2 ≤ n)) ∧
  (∃ (s : State) (part thief victim prio : Nat) (e : RingEntry) (x : Steal),
      (s.steals.find? (fun x => x.part == part && x.thief == thief && x.victim == victim) = some x) ∧
      (x.gift = some (prio, e))) := by
  refine ⟨?_, ?_, ?_, ?_, ?_, ?_, ?_, ?_, ?_, ?_⟩
  · exact ⟨(contend 0 1 1000 0 500 false), ⟨0, 0, 0x1000, [0], [0], []⟩, ⟨1, 0, 0x1000, [0], [0], []⟩,
      by decide +kernel, by decide +kernel, by decide +kernel, id (by decide +kernel), by decide +kernel,
      by decide +kernel, by decide +kernel⟩
  · exact ⟨(contend 1 0 0 0 0 false), ⟨0, 0, 0x1000, [0], [0], []⟩, ⟨1, 0, 0x1000, [0], [0], []⟩, by decide +kernel,
      by decide +kernel, by decide +kernel, id (by decide +kernel), by decide +kernel, by decide +kernel,
      by decide +kernel⟩
  · exact ⟨(contend 1 1 1000 900 950 false), ⟨0, 0, 0x1000, [0], [0], []⟩, ⟨1, 0, 0x1000, [0], [0], []⟩,
      by decide +kernel, by decide +kernel, by decide +kernel, id (by decide +kernel), by decide +kernel,
      by decide +kernel, by decide +kernel, id (by decide +kernel)⟩
  · exact ⟨(contend 1 0 0 0 0 true), ⟨0, 0, 0x1000, [0], [0], []⟩, ⟨1, 0, 0x1000, [0], [0], []⟩, by decide +kernel,
      by decide +kernel, by decide +kernel, id (by decide +kernel), by decide +kernel, by decide +kernel⟩
  · exact ⟨(State.reset.bootWord (encode (.yield Hdr.plain)).toNat), State.reset, ⟨0, 0, 0x1000, [0], [0], []⟩,
      by decide +kernel⟩
  · exact ⟨{ st 1 with rings := [⟨0, 0, 0, [], [(1, .range 0 0 1 1 0)], false⟩] }, 0, 0, 0, 1, (.range 0 0 1 1 0),
      [], by decide +kernel, by decide +kernel, by decide +kernel⟩
  · exact ⟨{ st 1 with rings := [ring 7 1], launches := [launch] }, 0, _, 7, 0, 0, 1, 1, 0, [], _, _,
      some_out (by decide +kernel), by decide +kernel, by decide +kernel, by decide +kernel,
      id (by decide +kernel), by decide +kernel, fun i h1 h2 => absurd h1 (by omega), by decide +kernel,
      by decide +kernel, some_out (by decide +kernel), by decide +kernel, some_out (by decide +kernel)⟩
  · exact ⟨{ st 1 with rings := [ring 0 1] }, 0, 0, 0, by decide +kernel⟩
  · exact ⟨{ st 1 with rings := [ring 7 4] }, 0, 1, 0, 0, 0, 1, 4, [], by decide +kernel, by decide +kernel⟩
  · exact ⟨{ st 1 with steals := [⟨0, 1, 0, some (0, .range 0 0 1 1 0)⟩] }, 0, 1, 0, 0, (.range 0 0 1 1 0), _,
      some_out (by decide +kernel), by decide +kernel⟩

theorem witness_WorkEvents :
  (∃ (s s1 s2 : State) (part die n f c pa w : Nat) (a : AgentId) (join : Addr) (p : Partition) (leaf : QWord),
      (s.part? part = some p) ∧
      (ownAccess s p .amo join.toNat 16 = .ok pa leaf) ∧
      (lfMode leaf = mAtomic) ∧
      (s1 = (if a = 0xFFFF then s else s.release part (coreOf a) (lfScope leaf))) ∧
      (w = s1.readP pa 16) ∧
      (n ≤ bits w 0 32) ∧
      (s2 = s1.writeP pa 16 (setBits (setBits (setBits w 0 32 (bits w 0 32 - n)) 32 24 (min 0xFF_FFFF (bits w 32 24 + f))) 56 24
      (min 0xFF_FFFF (bits w 56 24 + c))))) ∧
  (∃ (s : State) (part die f c pa pa' : Nat) (addr : Addr) (p : Partition) (leaf leaf' : QWord),
      (s.part? part = some p) ∧
      (ownAccess s p .load addr.toNat 32 = .ok pa leaf) ∧
      (s.readP pa 32 / 2 ^ 254 = 0) ∧
      ((contRec (s.readP pa 32)).code.toNat % 8 = 0) ∧
      ((contRec (s.readP pa 32)).join.toNat % 16 = 0) ∧
      (ownAccess s p .load ((p.tshape.toNat + 8 * (contRec (s.readP pa 32)).shape) % 2 ^ 52) 8 = .ok pa' leaf') ∧
      (s.shapeValid p (s.readP pa' 8) = true) ∧
      (p.cancels (contRec (s.readP pa 32)).slots = false)) ∧
  (∃ (s : State) (part l : Nat) (k : Launch),
      (s.launch? l = some k) ∧
      (k.part = part) ∧
      (k.over = true) ∧
      (k.failing = none) ∧
      (k.rbk = false ∨ k.join = 0)) ∧
  (∃ (s s1 : State) (part l : Nat) (k : Launch),
      (s.launch? l = some k) ∧
      (k.part = part) ∧
      (k.over = true) ∧
      (k.failing = none) ∧
      (k.rbk = true) ∧
      (k.join ≠ 0) ∧
      (s1 = ((s.freeSnaps k).joinStep part ((k.clusters.head?.getD 0) / 16) 0xFFFF k.join k.heldEnds k.heldFaulted k.heldCancelled
      k.clusters).advance k)) ∧
  (∃ (s : State) (a : AgentId) (t : Team),
      (s.allTeams.find? (fun t => t.agent == a && (t.axed || t.doomed)) = some t)) ∧
  (∃ (s : State) (a : AgentId),
      (s.teamStops a = true) ∧
      (s.tableWait a = none)) ∧
  (∃ (s : State) (a : AgentId),
      (s.teamStops a = false)) ∧
  (∃ (s : State) (a : AgentId),
      ∃ x, (s.teamStops a = true) ∧
      (s.tableWait a = some x)) ∧
  (∃ (s : State) (a : AgentId) (t : Team),
      (s.team? a = some t) ∧
      (s.swappable t = true) ∧
      (s.refusedFor t = true) ∧
      (s.swapFirst t = true)) ∧
  (∃ (s s' : State) (a : AgentId) (t : Team),
      (s.team? a = some t) ∧
      (t.resid = .due) ∧
      (s.swapIn a = some s')) ∧
  (∃ (s : State) (part l : Nat) (k k' : Launch) (p : Partition) (x : AgentId × Bool),
      (s.launch? l = some k) ∧
      (s.part? part = some p) ∧
      (k.failing = some x) ∧
      (k.part = part) ∧
      ((∀ t ∈ s.allTeams, t.work.launch ≠ some l)) ∧
      (s.restoreWaits k = false) ∧
      (k.stopped p = false) ∧
      (k.attempt < 3) ∧
      (k' = { k with attempt := k.attempt + 1, failing := none, ended := 0, heldEnds := 0, heldFaulted := 0, heldCancelled := 0, clusters := [] })) := by
  refine ⟨?_, ?_, ?_, ?_, ?_, ?_, ?_, ?_, ?_, ?_, ?_⟩
  · exact ⟨(wide (st 1)), _, _, 0, 0, 1, 0, 0, _, _, 0xFFFF, 0x3000, _, _, some_out (by decide +kernel),
      own_out (by decide +kernel), by decide +kernel, rfl, rfl, by decide +kernel, rfl⟩
  · exact ⟨(wide (st 1)), 0, 0, 0, 0, _, _, 0x2C00, _, _, _, some_out (by decide +kernel),
      own_out (by decide +kernel), by decide +kernel, by decide +kernel, by decide +kernel,
      own_out (by decide +kernel), by decide +kernel, by decide +kernel⟩
  · exact ⟨{ st 1 with launches := [default] }, 0, 0, _, some_out (by decide +kernel), by decide +kernel,
      by decide +kernel, by decide +kernel, id (by decide +kernel)⟩
  · exact ⟨{ st 1 with launches := [{ (default : Launch) with rbk := true, join := 0x3000 }] }, _, 0, 0, _,
      some_out (by decide +kernel), by decide +kernel, by decide +kernel, by decide +kernel,
      id (by decide +kernel), by decide +kernel, rfl⟩
  · exact ⟨(pkg { team 1 with axed := true }), 0, { team 1 with axed := true }, by decide +kernel⟩
  · exact ⟨(st 1), 0, by decide +kernel, by decide +kernel⟩
  · exact ⟨midway, 0, by decide +kernel⟩
  · exact ⟨tabled, 0, _, by decide +kernel, some_out (by decide +kernel)⟩
  · exact ⟨{ pkg waiting with rings := [ring 7 1], launches := [{ launch with shape := 2 ^ 63 + 8 * 2 ^ 22 }] }, 0,
      waiting, by decide +kernel, by decide +kernel, by decide +kernel, id (by decide +kernel)⟩
  · exact ⟨(pkg { team 1 with resid := .due }), _, 0, { team 1 with resid := .due }, by decide +kernel,
      by decide +kernel, some_out (by decide +kernel)⟩
  · exact ⟨{ st 1 with launches := [{ launch with failing := some (0, false) }] }, 0, 0, _, _, _, _,
      some_out (by decide +kernel), some_out (by decide +kernel), some_out (by decide +kernel),
      by decide +kernel, by decide +kernel, by decide +kernel, id (by decide +kernel), by decide +kernel, rfl⟩

theorem witness_JobEvents :
  (∃ (s : State) (n : Nat) (j : Job),
      (s.job? n = some j) ∧
      (j.st = .wait) ∧
      ((∀ e ∈ j.edges, s.jobOver e = true))) ∧
  (∃ (s : State) (n : Nat) (j : Job),
      (s.job? n = some j) ∧
      (s.canStart j = true)) ∧
  (∃ (s : State) (n : Nat) (j j' : Job) (y : LS),
      (s.job? n = some j) ∧
      (j.st = .run) ∧
      (j.over = false) ∧
      (Does (L.jobStep j) (s.jobLS j) j' y)) ∧
  (∃ (s : State) (n : Nat) (j j' : Job) (y : LS),
      (s.job? n = some j) ∧
      (j.st = .run) ∧
      (j.over = false) ∧
      (Does (L.jobStep j) (s.jobLS j) j' y) ∧
      (j'.over = true)) ∧
  (∃ (s : State) (c : BitVec 11) (e : Eng),
      (e ∈ (s.core c).awaiting)) := by
  refine ⟨?_, ?_, ?_, ?_, ?_⟩
  · exact ⟨{ st 1 with jobs := [{ loopJob with st := .wait }] }, 0, _, some_out (by decide +kernel),
      by decide +kernel, by decide +kernel⟩
  · exact ⟨{ st 1 with jobs := [{ loopJob with st := .ready }] }, 0, _, some_out (by decide +kernel),
      by decide +kernel⟩
  · exact ⟨{ st 1 with jobs := [loopJob] }, 0, _, _, _, some_out (by decide +kernel), by decide +kernel,
      by decide +kernel, does_out (by decide +kernel)⟩
  · exact ⟨{ st 1 with jobs := [emptyJob] }, 0, _, _, _, some_out (by decide +kernel), by decide +kernel,
      by decide +kernel, does_out (by decide +kernel), by decide +kernel⟩
  · exact ⟨{ st 1 with cores := [{ Core.reset 0 with awaiting := [.copy] }] }, 0, .copy, by decide +kernel⟩

theorem witness_RemoteEvents :
  (∃ (s : State) (r : RemoteReq),
      ((r.spkg, r.mid) ∈ s.performed)) ∧
  (∃ (s : State) (p : Partition) (r : RemoteReq) (k : AK) (va n addr : Nat) (q : QWord),
      (walk s p (va / 4096) = .leaf q addr) ∧
      (lfPkg q = 0xFFF) ∧
      (s.moving p.id (va / 4096) = false) ∧
      (homeSub s p q ⟨coreOf r.agent, r.agent, p.id, r.level, k, va, n, false⟩ = none) ∧
      (s.snapWait p ⟨coreOf r.agent, r.agent, p.id, r.level, k, va, n, false⟩ = false)) ∧
  (∃ (s s1 : State) (r : RemoteReq) (p : Partition) (q0 q : QWord) (pa0 pa : Nat) (x : Served),
      ((r.spkg, r.mid) ∉ s.performed) ∧
      (s.part? r.part = some p) ∧
      (s.homePlace p r (s.remoteKind p r) r.va.toNat (opKind r.op).2 = .ok pa0 q0) ∧
      (s1 = s.placeFar p r q0) ∧
      (s1.homePlace p r (s1.remoteKind p r) r.va.toNat (opKind r.op).2 = .ok pa q) ∧
      (s1.performRemote p r q pa = .inr x)) ∧
  (∃ (s : State) (r : RemoteReq) (p : Partition) (sub : BitVec 8) (g : BitVec 16),
      ((r.spkg, r.mid) ∉ s.performed) ∧
      (s.part? r.part = some p) ∧
      (s.homePlace p r (s.remoteKind p r) r.va.toNat (opKind r.op).2 = .refused sub g)) ∧
  (∃ (s : State) (r : Report),
      (s.sent.find? (·.mid == r.mid) = none)) ∧
  (∃ (s s1 : State) (r : Report) (m : SentMsg),
      (s.sent.find? (·.mid == r.mid) = some m) ∧
      (s1 = State.mapTeams { s with sent := (updFirst (·.mid == r.mid)
      (fun m => { m with heard := true, recorded := m.recorded || !r.ok }) s.sent) } (·.forgetWrite r.mid)) ∧
      (r.ok = true ∨ m.recorded = true)) ∧
  (∃ (s s1 : State) (r : Report) (m : SentMsg),
      (s.sent.find? (·.mid == r.mid) = some m) ∧
      (s1 = State.mapTeams { s with sent := (updFirst (·.mid == r.mid)
      (fun m => { m with heard := true, recorded := m.recorded || !r.ok }) s.sent) } (·.forgetWrite r.mid)) ∧
      (r.ok = false) ∧
      (m.recorded = false)) ∧
  (∃ (s : State) (mid : BitVec 24) (m : SentMsg),
      (s.sent.find? (·.mid == mid) = some m) ∧
      (m.heard = true)) ∧
  (∃ (s : State) (a : AgentId) (wv : Nat) (t : Team) (k : Stuck),
      (s.team? a = some t) ∧
      ((t.wave wv).stuck.find? (fun k => (k.why == .fence || k.why == .probe) && !(k.todo.filterMap (s.fenceTrap t wv k)).isEmpty) =
      some k) ∧
      (t.resid = .resident) ∧
      (s.waveParked a wv = false)) ∧
  (∃ (s x : State) (part rank : Nat) (a : AgentId) (table : Addr),
      (x = s.inCtx (coreOf a) part (fun s => (s.collJobs part a table.toNat).foldl (fun s n => s.cancelJob n) s))) := by
  refine ⟨?_, ?_, ?_, ?_, ?_, ?_, ?_, ?_, ?_, ?_⟩
  · exact ⟨{ st 1 with performed := [(1, 2)] }, ⟨1, 2, 0, 0, 1, 0x2000, .load 4⟩, by decide +kernel⟩
  · exact ⟨(wide (st 1)), part, ⟨1, 2, 0, 0, 1, 0xA000, .load 4⟩, .load, 0xA000, 4, _, _,
      walk_out (by decide +kernel), by decide +kernel, by decide +kernel, by decide +kernel,
      id (by decide +kernel)⟩
  · exact ⟨(wide (st 1)), _, ⟨1, 2, 0, 0, 1, 0xA000, .load 4⟩, _, _, _, _, _, _, by decide +kernel,
      some_out (by decide +kernel), own_out (by decide +kernel), rfl, own_out (by decide +kernel),
      inr_out (by decide +kernel)⟩
  · exact ⟨(wide (st 1)), ⟨1, 2, 0, 0, 1, 0x2000, .load 4⟩, _, _, _, by decide +kernel, some_out (by decide +kernel),
      ref_out (by decide +kernel)⟩
  · exact ⟨(st 1), ⟨2, true, 10, 0⟩, by decide +kernel⟩
  · exact ⟨{ st 1 with sent := [⟨2, 0, 0, 0, 0, 0, false, true, none, none⟩] }, _, ⟨2, true, 10, 0⟩, _,
      some_out (by decide +kernel), rfl, by decide +kernel⟩
  · exact ⟨{ st 1 with sent := [⟨2, 0, 0, 0, 0, 0, false, true, none, none⟩] }, _, ⟨2, false, 10, 0⟩, _,
      some_out (by decide +kernel), rfl, by decide +kernel, by decide +kernel⟩
  · exact ⟨{ st 1 with sent := [⟨2, 0, 0, 0, 0, 0, false, true, none, none⟩] }, 2, _, some_out (by decide +kernel),
      by decide +kernel⟩
  · exact ⟨(wide (pkg fencing)), 0, 0, fencing, _, by decide +kernel, some_out (by decide +kernel),
      by decide +kernel, by decide +kernel⟩
  · exact ⟨(st 1), _, 0, 0, 0, 0, rfl⟩

theorem witness_PortEvents :
  (∃ (s : State) (pn : Nat) (p : Port) (fl : Flit) (ok : Bool),
      (s.port? pn = some p) ∧
      ((p.up = false ∨ fl.lseq ≠ p.lseqRx))) ∧
  (∃ (s : State) (pn : Nat) (p : Port) (fl : Flit),
      (s.port? pn = some p) ∧
      (p.up = true) ∧
      (fl.lseq = p.lseqRx) ∧
      (p.failsFlit fl true = false) ∧
      (fl.type ≠ 1) ∧
      (p.drainFrom = none) ∧
      ((∀ n, fl.body ≠ some (.nak n)))) ∧
  (∃ (s : State) (pn : Nat) (p : Port) (fl : Flit) (n : BitVec 20),
      (s.port? pn = some p) ∧
      (p.up = true) ∧
      (fl.lseq = p.lseqRx) ∧
      (p.failsFlit fl true = false) ∧
      (fl.type ≠ 1) ∧
      (p.drainFrom = none) ∧
      (fl.body = some (.nak n))) ∧
  (∃ (s : State) (pn : Nat) (p : Port) (fl : Flit),
      (s.port? pn = some p) ∧
      (p.up = true) ∧
      (fl.lseq = p.lseqRx) ∧
      (p.fails + 1 ≠ 16)) ∧
  (∃ (s : State) (pn : Nat) (p : Port) (lseq : BitVec 20),
      (s.port? pn = some p) ∧
      ((p.kept lseq).isSome = true)) ∧
  (∃ (s : State) (pn : Nat) (p : Port),
      (s.port? pn = some p) ∧
      (p.markerDue = true)) ∧
  (∃ (s : State) (pn : Nat) (p : Port),
      (s.port? pn = some p) ∧
      (p.markerDue = false)) ∧
  (∃ (s : State) (pn : Nat) (p : Port),
      (s.port? pn = some p)) ∧
  (∃ (s : State) (pn : Nat) (p : Port),
      (s.port? pn = some p) ∧
      (p.rtr = true)) ∧
  (∃ (s : State) (pn : Nat) (p : Port) (slot : Bool) (key : BitVec 256) (salt : Word) (ctr thr : DWord),
      (s.port? pn = some p) ∧
      ((p.rx slot).st = 0)) ∧
  (∃ (s : State) (fl : Flit) (r : RemoteReq),
      (fl.dpkg = s.pkg) ∧
      (fl.body = some (.request r))) ∧
  (∃ (s : State) (fl : Flit) (r : RemoteResp),
      (fl.dpkg = s.pkg) ∧
      (fl.body = some (.response r))) ∧
  (∃ (s : State) (fl : Flit) (r : Report),
      (fl.dpkg = s.pkg) ∧
      (fl.body = some (.report r))) ∧
  (∃ (s : State) (dest : BitVec 12) (r : RemoteReq) (pn n : Nat) (p : Port),
      (dest ≠ s.pkg) ∧
      (s.crateM r.part = 0) ∧
      (s.pathList dest = ⟨dest, [pn], n⟩) ∧
      (s.port? pn = some p) ∧
      (p.canSend = true) ∧
      (p.queue = [])) := by
  refine ⟨?_, ?_, ?_, ?_, ?_, ?_, ?_, ?_, ?_, ?_, ?_, ?_, ?_, ?_⟩
  · exact ⟨{ st 1 with ports := [default] }, 0, _, flit, false, some_out (by decide +kernel), by decide +kernel⟩
  · exact ⟨{ st 1 with ports := [port] }, 0, _, flit, some_out (by decide +kernel), by decide +kernel,
      by decide +kernel, by decide +kernel, id (by decide +kernel), by decide +kernel,
      fun _ h => nomatch (show (none : Option Body) = some _ from h)⟩
  · exact ⟨{ st 1 with ports := [port] }, 0, _, { flit with body := some (.nak 0) }, 0, some_out (by decide +kernel),
      by decide +kernel, by decide +kernel, by decide +kernel, id (by decide +kernel), by decide +kernel,
      by decide +kernel⟩
  · exact ⟨{ st 1 with ports := [port] }, 0, _, flit, some_out (by decide +kernel), by decide +kernel,
      by decide +kernel, by decide +kernel⟩
  · exact ⟨{ st 1 with ports := [port] }, 0, _, 0, some_out (by decide +kernel), by decide +kernel⟩
  · exact ⟨{ st 1 with ports := [port] }, 0, _, some_out (by decide +kernel), by decide +kernel⟩
  · exact ⟨{ st 1 with ports := [default] }, 0, _, some_out (by decide +kernel), by decide +kernel⟩
  · exact ⟨{ st 1 with ports := [port] }, 0, _, some_out (by decide +kernel)⟩
  · exact ⟨{ st 1 with ports := [{ port with rtr := true }] }, 0, _, some_out (by decide +kernel), by decide +kernel⟩
  · exact ⟨{ st 1 with ports := [port] }, 0, _, true, 0, 0, 0, 0, some_out (by decide +kernel), by decide +kernel⟩
  · exact ⟨{ st 1 with ports := [port] }, { flit with body := some (.request ⟨1, 2, 0, 0, 1, 0x2000, .load 4⟩) },
      ⟨1, 2, 0, 0, 1, 0x2000, .load 4⟩, by decide +kernel, by decide +kernel⟩
  · exact ⟨{ st 1 with ports := [port] }, { flit with body := some (.response ⟨2, 5, false, false, none⟩) },
      ⟨2, 5, false, false, none⟩, by decide +kernel, by decide +kernel⟩
  · exact ⟨{ st 1 with ports := [port] }, { flit with body := some (.report ⟨2, true, 10, 0⟩) }, ⟨2, true, 10, 0⟩,
      by decide +kernel, by decide +kernel⟩
  · exact ⟨
      { st 1 with parts := [{ part with crate := 1 }], ports := [{ port with tx0 := ⟨2, 0, 0, 0, 9⟩ }], paths := [⟨1, [0], 0⟩] },
      1, ⟨0, 2, 0, 0, 1, 0x2000, .load 4⟩, 0, 0, { port with tx0 := ⟨2, 0, 0, 0, 9⟩ }, by decide +kernel,
      by decide +kernel, by decide +kernel, id (by decide +kernel), by decide +kernel, by decide +kernel⟩

theorem witness_VatEvents :
  (∃ (s : State) (fr : Fragment) (v : Vat),
      ((s.core (coreOf fr.dagt)).closed.find? (fun x => x.1 == fr.spkg && x.2.1 == fr.mid) = none) ∧
      ((s.core (coreOf fr.dagt)).vat? fr.spkg fr.mid = some v) ∧
      (v.decoded = false) ∧
      (fragOutside fr = false) ∧
      (fr.k = v.k) ∧
      (fr.m = v.m) ∧
      (fr.len = v.len) ∧
      (v.frags.any (·.1 == fr.fidx.toNat) = true)) ∧
  (∃ (s : State) (fr : Fragment) (v : Vat),
      ((s.core (coreOf fr.dagt)).closed.find? (fun x => x.1 == fr.spkg && x.2.1 == fr.mid) = none) ∧
      ((s.core (coreOf fr.dagt)).vat? fr.spkg fr.mid = some v) ∧
      (v.decoded = false) ∧
      (fragOutside fr = false) ∧
      (fr.k = v.k) ∧
      (fr.m = v.m) ∧
      (fr.len = v.len) ∧
      (v.frags.any (·.1 == fr.fidx.toNat) = false) ∧
      (v.frags.length + 1 < v.k.toNat)) ∧
  (∃ (s : State) (fr : Fragment) (v : Vat),
      ((s.core (coreOf fr.dagt)).closed.find? (fun x => x.1 == fr.spkg && x.2.1 == fr.mid) = none) ∧
      ((s.core (coreOf fr.dagt)).vat? fr.spkg fr.mid = some v) ∧
      (v.decoded = false) ∧
      (fragOutside fr = false) ∧
      (fr.k = v.k) ∧
      (fr.m = v.m) ∧
      (fr.len = v.len) ∧
      (v.frags.any (·.1 == fr.fidx.toNat) = false) ∧
      (v.k.toNat ≤ v.frags.length + 1)) ∧
  (∃ (s : State) (c : BitVec 11) (spkg : BitVec 12) (mid : BitVec 24) (v : Vat) (t : Team),
      ((s.core c).vat? spkg mid = some v) ∧
      (v.decoded = true) ∧
      (s.allTeams.find? (fun t => t.part == v.part && t.agent == v.agent) = some t) ∧
      (v.tooLong (vget t.c v.rch.toNat) = false) ∧
      (v.body = none) ∧
      (t.rdScr ((vget t.c v.rch.toNat).base.toNat + 8) 4 < (vget t.c v.rch.toNat).slots.toNat)) ∧
  (∃ (s : State) (c : BitVec 11) (spkg : BitVec 12) (mid : BitVec 24) (v : Vat),
      ((s.core c).vat? spkg mid = some v) ∧
      (v.decoded = false)) := by
  refine ⟨?_, ?_, ?_, ?_, ?_⟩
  · exact ⟨(vats (vat [(0, [])] false 8)), frag, _, by decide +kernel, some_out (by decide +kernel),
      by decide +kernel, by decide +kernel, by decide +kernel, id (by decide +kernel), by decide +kernel,
      by decide +kernel⟩
  · exact ⟨(vats (vat [] false 8)), frag, _, by decide +kernel, some_out (by decide +kernel), by decide +kernel,
      by decide +kernel, by decide +kernel, id (by decide +kernel), by decide +kernel, by decide +kernel,
      by decide +kernel⟩
  · exact ⟨(vats (vat [(1, [])] false 8)), frag, _, by decide +kernel, some_out (by decide +kernel),
      by decide +kernel, by decide +kernel, by decide +kernel, id (by decide +kernel), by decide +kernel,
      by decide +kernel, by decide +kernel⟩
  · exact ⟨
      (vats (vat [] true 0) |> fun s => { s with teams := [{ team 1 with c := vset (team 1).c 0 ⟨0x100, 4, 16, 0, 1, 3, 0, true⟩ }] }),
      0, 1, 2, _, { team 1 with c := vset (team 1).c 0 ⟨0x100, 4, 16, 0, 1, 3, 0, true⟩ },
      some_out (by decide +kernel), by decide +kernel, by decide +kernel, by decide +kernel,
      id (by decide +kernel), by decide +kernel⟩
  · exact ⟨(vats (vat [] false 8)), 0, 1, 2, _, some_out (by decide +kernel), by decide +kernel⟩

theorem witness_SidebandEvents :
  (∃ (nonce : BitVec 256),
      ∃ i ∈ ([.getVersion, .getCapabilities, .challenge nonce] : List Instr), ∃ (s : State),
      (s.power = .running)) ∧
  (∃ (s : State),
      (s.power = .running)) ∧
  (∃ (s : State) (code : BitVec 8),
      (s.power = .running)) ∧
  (∃ (s : State),
      (s.power = .running) ∧
      (s.deadline = false)) ∧
  (∃ (s : State),
      (s.power = .running) ∧
      (s.deadline = true)) ∧
  (∃ (s : State),
      ((s.power = .frozen ∨ ∃ n, s.power = .held n))) ∧
  (∃ (s : State),
      (s.power = .resetting)) ∧
  (∃ (s : State),
      (s.deadline = true)) := by
  refine ⟨?_, ?_, ?_, ?_, ?_, ?_, ?_, ?_⟩
  · exact ⟨0, _, List.Mem.head _, (st 1), by decide +kernel⟩
  · exact ⟨(st 1), by decide +kernel⟩
  · exact ⟨(st 1), 0, by decide +kernel⟩
  · exact ⟨(st 1), by decide +kernel, by decide +kernel⟩
  · exact ⟨{ st 1 with deadline := true }, by decide +kernel, by decide +kernel⟩
  · exact ⟨{ st 1 with power := .frozen }, Or.inl rfl⟩
  · exact ⟨State.reset, by decide +kernel⟩
  · exact ⟨{ st 1 with deadline := true }, by decide +kernel⟩

theorem witness_PackageEvents :
  (∃ (s : State) (r : BootResult),
      (s.power ≠ .resetting)) ∧
  (∃ (s : State),
      (s.power = .resetting)) ∧
  (∃ (s : State) (fw : BitVec 384),
      (s.power = .resetting)) ∧
  (∃ (s : State) (fw : BitVec 384) (trained : List Nat) (links : List LinkKeys),
      (s.power = .resetting)) ∧
  (∃ (s : State) (i : BootImage),
      (s.power ≠ .resetting)) ∧
  (∃ (s : State) (c pc : BitVec 11) (pass : Bool) (pdm vmm : BitVec 8) (x : Candle) (v : Nat),
      ((s.core c).candle = some x) ∧
      (x.result = none) ∧
      (s.physCore c = some pc) ∧
      (v = (s.agemAt (coreIndex pc)).toNat / 2 ^ 8 % 2 ^ 8)) ∧
  (∃ (s : State) (c pc : BitVec 11) (pass : Bool) (pdm vmm : BitVec 8) (x : Candle) (v : Nat),
      ((s.core c).candle = some x) ∧
      (x.result = none) ∧
      (s.physCore c = some pc) ∧
      (v = (s.agemAt (coreIndex pc)).toNat / 2 ^ 8 % 2 ^ 8) ∧
      ∃ w, (w = (if pass = true ∧ (pdm.toNat < 20 ∨ vmm.toNat < 30) ∧ v < 24 then v + 1 else v))) ∧
  (∃ (s : State) (c pc : BitVec 11) (pass : Bool) (pdm vmm : BitVec 8) (x : Candle) (v : Nat),
      ((s.core c).candle = some x) ∧
      (x.result = none) ∧
      (s.physCore c = some pc) ∧
      (v = (s.agemAt (coreIndex pc)).toNat / 2 ^ 8 % 2 ^ 8) ∧
      ∃ k, (k ≠ coreIndex pc)) ∧
  (∃ s : State, ∃ a : AgentId, ∃ off : Nat, ∃ t : Team, s.team? a = some t ∧ off / 8 * 8 < t.scr ∧ s.frzcfg.getLsbD 16 = false) := by
  refine ⟨?_, ?_, ?_, ?_, ?_, ?_, ?_, ?_, ?_⟩
  · exact ⟨(st 1), .failed2, by decide +kernel⟩
  · exact ⟨State.reset, by decide +kernel⟩
  · exact ⟨State.reset, 0, by decide +kernel⟩
  · exact ⟨State.reset, 0, [], [], by decide +kernel⟩
  · exact ⟨(st 1), (wordImage 0), by decide +kernel⟩
  · exact ⟨{ st 1 with cores := [{ Core.reset 0 with candle := some ⟨0, 0, 0, 0, none, false⟩ }] }, 0, _, true, 20,
      30, _, _, some_out (by decide +kernel), by decide +kernel, some_out (by decide +kernel), rfl⟩
  · exact ⟨{ st 1 with cores := [{ Core.reset 0 with candle := some ⟨0, 0, 0, 0, none, false⟩ }] }, 0, _, true, 20,
      30, _, _, some_out (by decide +kernel), by decide +kernel, some_out (by decide +kernel), rfl, _, rfl⟩
  · exact ⟨{ st 1 with cores := [{ Core.reset 0 with candle := some ⟨0, 0, 0, 0, none, false⟩ }] }, 0, _, true, 20,
      30, _, _, some_out (by decide +kernel), by decide +kernel, some_out (by decide +kernel), rfl, 7,
      by decide +kernel⟩
  · exact ⟨(st 1), 0, 0, (team 1), by decide +kernel, by decide +kernel, by decide +kernel⟩

theorem witness_EncodeDecode :
  (∃ (i : Instr),
      (i.wf = true) ∧
      (sharesItsWord i = false)) ∧
  (∃ (h : Hdr) (d a c : Opnd),
      ((Instr.rplyGet h d a c).wf = true)) ∧
  (∃ (h : Hdr) (d a c : Opnd),
      ((Instr.rsumRetry h d a c).wf = true)) ∧
  (∃ (h : Hdr) (a : Opnd),
      ((Instr.halt h a).wf = true)) := by
  refine ⟨?_, ?_, ?_, ?_⟩
  · exact ⟨(.add Hdr.plain (.g 3) (.g 1) (.g 5)), by decide +kernel, by decide +kernel⟩
  · exact ⟨Hdr.plain, .g 3, .g 1, .g 5, by decide +kernel⟩
  · exact ⟨Hdr.plain, .g 3, .g 1, .g 5, by decide +kernel⟩
  · exact ⟨Hdr.plain, .g 1, by decide +kernel⟩

theorem witness_DecodeWellFormed :
  ∃ (w : DWord) (i : Instr),
      (decode w = .ok i) :=
  ⟨0x7040_0000_0000_0007, (.sysc Hdr.plain 7), by decide +kernel⟩

theorem witness_StepRunsDecodedInstruction :
  (∃ (s : State) (b : Issue),
      (s.choice = some (.batch b)) ∧
      ∃ (w : Nat) (x : LS),
      (s.keptWord b = none) ∧
      (s.fetch b = .ok (w, x)) ∧
      ∃ i, (decode (BitVec.ofNat 64 w) = .ok i)) ∧
  (∃ (s : State) (b : Issue),
      (s.choice = some (.batch b)) ∧
      ∃ (w : Nat) (x : LS),
      (s.keptWord b = none) ∧
      (s.fetch b = .ok (w, x)) ∧
      ∃ e, (decode (BitVec.ofNat 64 w) = .error e)) ∧
  (∃ (s : State) (b : Issue),
      (s.choice = some (.batch b)) ∧
      ∃ i, (s.keptWord b = some i)) := by
  refine ⟨?_, ?_, ?_⟩
  · exact ⟨(State.reset.bootWord 0), _, batch_out (by decide +kernel), _, _, by decide +kernel,
      ok2_out (by decide +kernel), _, ok_out (by decide +kernel)⟩
  · exact ⟨(State.reset.bootWord 1), _, batch_out (by decide +kernel), _, _, by decide +kernel,
      ok2_out (by decide +kernel), _, err_out (by decide +kernel)⟩
  · exact ⟨again, _, batch_out (by decide +kernel), .nop, by decide +kernel⟩

theorem witness_StepKeepsWaitsMarked :
  ∃ (s s' : State),
      (step s = .next s') :=
  ⟨(State.reset.bootWord 0), _, next_out (by decide +kernel)⟩

theorem witness_StepKeepsStores :
  ∃ (s s' : State),
      (s.storesWf) ∧
      (step s = .next s') :=
  ⟨(State.reset.bootWord 0), _, ⟨by decide +kernel, by decide +kernel⟩, next_out (by decide +kernel)⟩

theorem witness_WordFrame :
  (∃ (i : Instr) (s : State) (b : Issue) (t : Team) (l : Nat) (g : Option Guard) (y : LS) (u : Team) (f : Fibre),
      (Solo s b t l g) ∧
      (y.lane = l) ∧
      (y.st.team? b.agent = some u) ∧
      (u.fibre? (u.slot b.wave l) = some f) ∧
      (b.wave < 32)) ∧
  (∃ (i : Instr) (s : State) (b : Issue) (t : Team) (l : Nat) (g : Option Guard) (y : LS) (u : Team) (f : Fibre),
      (Solo s b t l g) ∧
      (y.lane = l) ∧
      (y.st.team? b.agent = some u) ∧
      (u.fibre? (u.slot b.wave l) = some f) ∧
      (b.wave < 32) ∧
      ∃ a, (a ≠ b.agent)) ∧
  (∃ (i : Instr) (s : State) (b : Issue) (t : Team) (l : Nat) (g : Option Guard) (y : LS) (u : Team) (f : Fibre),
      (Solo s b t l g) ∧
      (y.lane = l) ∧
      (y.st.team? b.agent = some u) ∧
      (u.fibre? (u.slot b.wave l) = some f) ∧
      (b.wave < 32) ∧
      ∃ k, (k < 32) ∧
      (k ≠ b.wave)) ∧
  (∃ (i : Instr) (s : State) (b : Issue) (t : Team) (l : Nat) (g : Option Guard) (y : LS) (u : Team) (f : Fibre),
      (Solo s b t l g) ∧
      (y.lane = l) ∧
      (y.st.team? b.agent = some u) ∧
      (u.fibre? (u.slot b.wave l) = some f) ∧
      (b.wave < 32) ∧
      ((u.wave b.wave).unfinished = []) ∧
      (y.recs = []) ∧
      (y.hold ≠ some .stuck)) ∧
  (∃ (i : Instr) (s : State) (b : Issue) (t : Team) (l : Nat) (g : Option Guard) (y : LS) (u : Team) (f : Fibre),
      (Solo s b t l g) ∧
      (y.lane = l) ∧
      (y.st.team? b.agent = some u) ∧
      (u.fibre? (u.slot b.wave l) = some f) ∧
      (b.wave < 32) ∧
      ((u.wave b.wave).unfinished = []) ∧
      (y.recs = []) ∧
      (y.hold ≠ some .stuck) ∧
      ∃ n, (n ≠ u.slot b.wave l)) := by
  refine ⟨?_, ?_, ?_, ?_, ?_⟩
  · exact ⟨.nop, (st 1), batch, (team 1), 0, none, (batch.start (st 1) (team 1) 0), (team 1), _,
      solo _ _ _ rfl rfl rfl (by decide +kernel) rfl (by decide +kernel) (by decide +kernel),
      by decide +kernel, by decide +kernel, some_out (by decide +kernel), by decide +kernel⟩
  · exact ⟨.nop, (st 1), batch, (team 1), 0, none, (batch.start (st 1) (team 1) 0), (team 1), _,
      solo _ _ _ rfl rfl rfl (by decide +kernel) rfl (by decide +kernel) (by decide +kernel),
      by decide +kernel, by decide +kernel, some_out (by decide +kernel), by decide +kernel, 1,
      by decide +kernel⟩
  · exact ⟨.nop, (st 1), batch, (team 1), 0, none, (batch.start (st 1) (team 1) 0), (team 1), _,
      solo _ _ _ rfl rfl rfl (by decide +kernel) rfl (by decide +kernel) (by decide +kernel),
      by decide +kernel, by decide +kernel, some_out (by decide +kernel), by decide +kernel, 1,
      by decide +kernel, by decide +kernel⟩
  · exact ⟨.nop, (st 1), batch, (team 1), 0, none, (batch.start (st 1) (team 1) 0), (team 1), _,
      solo _ _ _ rfl rfl rfl (by decide +kernel) rfl (by decide +kernel) (by decide +kernel),
      by decide +kernel, by decide +kernel, some_out (by decide +kernel), by decide +kernel,
      by decide +kernel, by decide +kernel, id (by decide +kernel)⟩
  · exact ⟨.nop, (st 1), batch, (team 1), 0, none, (batch.start (st 1) (team 1) 0), (team 1), _,
      solo _ _ _ rfl rfl rfl (by decide +kernel) rfl (by decide +kernel) (by decide +kernel),
      by decide +kernel, by decide +kernel, some_out (by decide +kernel), by decide +kernel,
      by decide +kernel, by decide +kernel, id (by decide +kernel), 1, by decide +kernel⟩

theorem witness_OperandForms :
  (∃ (x : LS) (t : Team) (f : Fibre),
      (x.st.team? x.agent = some t) ∧
      (t.fibre? (t.slot x.wave x.lane) = some f) ∧
      ∃ (n : BitVec 6),
      (n.toNat < t.gWin) ∧
      ((t.wave x.wave).owes x.lane (.g n) = true)) ∧
  (∃ (x : LS) (t : Team) (f : Fibre),
      (x.st.team? x.agent = some t) ∧
      (t.fibre? (t.slot x.wave x.lane) = some f) ∧
      ((∀ o, (t.wave x.wave).owes x.lane o = false)) ∧
      ∃ (n : BitVec 6),
      (n.toNat < t.gWin) ∧
      (f.regs.bad.contains (false, n.toNat) = false)) ∧
  (∃ (x : LS) (t : Team) (f : Fibre),
      (x.st.team? x.agent = some t) ∧
      (t.fibre? (t.slot x.wave x.lane) = some f) ∧
      ((∀ o, (t.wave x.wave).owes x.lane o = false)) ∧
      ∃ (n : BitVec 6),
      (t.gWin ≤ n.toNat)) ∧
  (∃ (x : LS) (t : Team) (f : Fibre),
      (x.st.team? x.agent = some t) ∧
      (t.fibre? (t.slot x.wave x.lane) = some f) ∧
      ((∀ o, (t.wave x.wave).owes x.lane o = false)) ∧
      ∃ (n : BitVec 5),
      (n.toNat < t.fWin) ∧
      (f.regs.fBad n.toNat = false)) ∧
  (∃ (x : LS) (t : Team) (f : Fibre),
      (x.st.team? x.agent = some t) ∧
      (t.fibre? (t.slot x.wave x.lane) = some f) ∧
      ((∀ o, (t.wave x.wave).owes x.lane o = false)) ∧
      ∃ (n : BitVec 3),
      True) ∧
  (∃ (x : LS) (t : Team) (f : Fibre),
      (x.st.team? x.agent = some t) ∧
      (t.fibre? (t.slot x.wave x.lane) = some f) ∧
      ((∀ o, (t.wave x.wave).owes x.lane o = false)) ∧
      ∃ (n : BitVec 4),
      True) ∧
  (∃ (x : LS) (t : Team) (f : Fibre),
      (x.st.team? x.agent = some t) ∧
      (t.fibre? (t.slot x.wave x.lane) = some f) ∧
      ((∀ o, (t.wave x.wave).owes x.lane o = false)) ∧
      ∃ (n : BitVec 2),
      True) ∧
  (∃ (x : LS) (t : Team) (f : Fibre),
      (x.st.team? x.agent = some t) ∧
      (t.fibre? (t.slot x.wave x.lane) = some f) ∧
      ((∀ o, (t.wave x.wave).owes x.lane o = false))) ∧
  (∃ (x : LS) (t : Team) (f : Fibre),
      (x.st.team? x.agent = some t) ∧
      (t.fibre? (t.slot x.wave x.lane) = some f) ∧
      ((∀ o, (t.wave x.wave).owes x.lane o = false)) ∧
      ∃ (m : BitVec 13),
      True) ∧
  (∃ (x : LS) (t : Team) (f : Fibre),
      (x.st.team? x.agent = some t) ∧
      (t.fibre? (t.slot x.wave x.lane) = some f) ∧
      ((∀ o, (t.wave x.wave).owes x.lane o = false)) ∧
      ∃ (r : BitVec 2) (k : BitVec 6) (n : Nat),
      (n = (vget f.regs.ix r.toNat).toNat % 2 ^ 16) ∧
      (n + k.toNat < t.gWin) ∧
      (n < (vget f.regs.ix r.toNat).toNat / 2 ^ 16) ∧
      (f.regs.bad.contains (false, n + k.toNat) = false)) ∧
  (∃ (x : LS) (t : Team) (f : Fibre),
      (x.st.team? x.agent = some t) ∧
      (t.fibre? (t.slot x.wave x.lane) = some f) ∧
      ((∀ o, (t.wave x.wave).owes x.lane o = false)) ∧
      ∃ (r : BitVec 2) (k : BitVec 6) (n : Nat),
      (n = (vget f.regs.ix r.toNat).toNat % 2 ^ 16) ∧
      (t.gWin ≤ n + k.toNat ∨ (vget f.regs.ix r.toNat).toNat / 2 ^ 16 ≤ n)) ∧
  (∃ (x : LS) (t : Team) (f : Fibre),
      (x.st.team? x.agent = some t) ∧
      (t.fibre? (t.slot x.wave x.lane) = some f) ∧
      ((∀ o, (t.wave x.wave).owes x.lane o = false)) ∧
      ∃ (n : BitVec 6) (v : Word),
      (n.toNat < t.gWin)) ∧
  (∃ (x : LS) (t : Team) (f : Fibre),
      (x.st.team? x.agent = some t) ∧
      (t.fibre? (t.slot x.wave x.lane) = some f) ∧
      ((∀ o, (t.wave x.wave).owes x.lane o = false)) ∧
      ∃ (n : BitVec 4) (v : Word),
      True) ∧
  (∃ (x : LS) (t : Team) (f : Fibre),
      (x.st.team? x.agent = some t) ∧
      (t.fibre? (t.slot x.wave x.lane) = some f) ∧
      ((∀ o, (t.wave x.wave).owes x.lane o = false)) ∧
      ∃ (v : Word),
      True) ∧
  (∃ p ∈ twoSources, ∃ (h : Hdr) (d a c : Opnd) (s : State) (b : Issue) (t : Team) (l : Nat),
      (s.cur = some b) ∧
      (s.team? b.agent = some t) ∧
      (b.lanes = [l]) ∧
      (b.todo = [l]) ∧
      (guardOut h.guard t = false) ∧
      (((t.wave b.wave).stuck.filter (·.isOf b)).flatMap (·.unis) = []) ∧
      (guardOwed h.guard (t.wave b.wave) [l] = false) ∧
      (guardPass h.guard (t.regsAt b.wave l) = false)) ∧
  (∃ p ∈ twoSources, ∃ (h : Hdr) (d a c : Opnd) (s : State) (b : Issue) (t : Team) (l : Nat),
      (Solo s b t l h.guard) ∧
      ((do L.check 1 [a, c] [d]; return (← L.rdW a, ← L.rdW c)) (b.start s t l) = .error .interlock)) := by
  refine ⟨?_, ?_, ?_, ?_, ?_, ?_, ?_, ?_, ?_, ?_, ?_, ?_, ?_, ?_, ?_, ?_⟩
  · exact ⟨(batch.start (pkg owing) owing 0), owing, _, by decide +kernel, some_out (by decide +kernel), 3,
      by decide +kernel, by decide +kernel⟩
  · exact ⟨(batch.start (st 1) (team 1) 0), (team 1), _, by decide +kernel, some_out (by decide +kernel),
      owes_none (by decide +kernel), 1, by decide +kernel, by decide +kernel⟩
  · exact ⟨(batch.start (pkg { team 1 with gWin := 16 }) { team 1 with gWin := 16 } 0), { team 1 with gWin := 16 },
      _, by decide +kernel, some_out (by decide +kernel), owes_none (by decide +kernel), 16,
      by decide +kernel⟩
  · exact ⟨(batch.start (st 1) (team 1) 0), (team 1), _, by decide +kernel, some_out (by decide +kernel),
      owes_none (by decide +kernel), 1, by decide +kernel, by decide +kernel⟩
  · exact ⟨(batch.start (st 1) (team 1) 0), (team 1), _, by decide +kernel, some_out (by decide +kernel),
      owes_none (by decide +kernel), 1, trivial⟩
  · exact ⟨(batch.start (st 1) (team 1) 0), (team 1), _, by decide +kernel, some_out (by decide +kernel),
      owes_none (by decide +kernel), 1, trivial⟩
  · exact ⟨(batch.start (st 1) (team 1) 0), (team 1), _, by decide +kernel, some_out (by decide +kernel),
      owes_none (by decide +kernel), 1, trivial⟩
  · exact ⟨(batch.start (st 1) (team 1) 0), (team 1), _, by decide +kernel, some_out (by decide +kernel),
      owes_none (by decide +kernel)⟩
  · exact ⟨(batch.start (st 1) (team 1) 0), (team 1), _, by decide +kernel, some_out (by decide +kernel),
      owes_none (by decide +kernel), 0, trivial⟩
  · exact ⟨(batch.start (st 1) (team 1) 0), (team 1), _, by decide +kernel, some_out (by decide +kernel),
      owes_none (by decide +kernel), 1, 0, _, rfl, by decide +kernel, by decide +kernel, by decide +kernel⟩
  · exact ⟨(batch.start (pkg { team 1 with gWin := 16 }) { team 1 with gWin := 16 } 0), { team 1 with gWin := 16 },
      _, by decide +kernel, some_out (by decide +kernel), owes_none (by decide +kernel), 1, 20, _, rfl,
      by decide +kernel⟩
  · exact ⟨(batch.start (st 1) (team 1) 0), (team 1), _, by decide +kernel, some_out (by decide +kernel),
      owes_none (by decide +kernel), 1, 5, by decide +kernel⟩
  · exact ⟨(batch.start (st 1) (team 1) 0), (team 1), _, by decide +kernel, some_out (by decide +kernel),
      owes_none (by decide +kernel), 1, 5, trivial⟩
  · exact ⟨(batch.start (st 1) (team 1) 0), (team 1), _, by decide +kernel, some_out (by decide +kernel),
      owes_none (by decide +kernel), 5, trivial⟩
  · exact ⟨_, List.Mem.head _, ⟨some ⟨1, 31, false⟩, 0⟩, .g 3, .g 1, .g 5, (st 1), batch, (team 1), 0,
      by decide +kernel, by decide +kernel, by decide +kernel, id (by decide +kernel), by decide +kernel,
      by decide +kernel, by decide +kernel, id (by decide +kernel)⟩
  · exact ⟨_, List.Mem.head _, Hdr.plain, .g 3, .g 3, .g 5, (pkg owing), batch, owing, 0,
      solo _ _ _ rfl rfl rfl (by decide +kernel) rfl (by decide +kernel) (by decide +kernel),
      by decide +kernel⟩

theorem witness_LanesTogether :
  (∃ p ∈ twoSources, ∃ (h : Hdr) (s : State) (b : Issue) (t : Team) (fib : Nat → Fibre),
      (Together s b t fib) ∧
      (h.guard = none) ∧
      ∃ (n m k : BitVec 6) (r : BitVec 2),
      (n.toNat < t.gWin) ∧
      (m.toNat < t.gWin) ∧
      (idxOuts b t fib r k ≠ [])) ∧
  (∃ p ∈ twoSources, ∃ (h : Hdr) (s : State) (b : Issue) (t : Team) (fib : Nat → Fibre),
      (Together s b t fib) ∧
      (h.guard = none) ∧
      ∃ (n m k : BitVec 6) (r : BitVec 2),
      (n.toNat < t.gWin) ∧
      (m.toNat < t.gWin) ∧
      (idxOuts b t fib r k = []) ∧
      (b.later = [])) ∧
  (∃ p ∈ twoSources, ∃ (h : Hdr) (s : State) (b : Issue) (t : Team) (fib : Nat → Fibre),
      (Together s b t fib) ∧
      (h.guard = none) ∧
      ∃ (n m k : BitVec 6) (r : BitVec 2),
      (n.toNat < t.gWin) ∧
      (m.toNat < t.gWin) ∧
      (idxOuts b t fib r k = []) ∧
      (b.later = []) ∧
      ∃ l ∈ b.lanes, True) ∧
  (∃ p ∈ twoSources, ∃ (h : Hdr) (s : State) (b : Issue) (t : Team) (fib : Nat → Fibre),
      (Together s b t fib) ∧
      (h.guard = none) ∧
      ∃ (q : BitVec 4) (k m : BitVec 6),
      (k.toNat < t.gWin) ∧
      (m.toNat < t.gWin) ∧
      ((∃ l ∈ t.liveLanes b.wave, l ∉ b.lanes))) ∧
  (∃ p ∈ twoSources, ∃ (h : Hdr) (s : State) (b : Issue) (t : Team) (fib : Nat → Fibre),
      (Together s b t fib) ∧
      (h.guard = none) ∧
      ∃ (q : BitVec 4) (k m : BitVec 6),
      (k.toNat < t.gWin) ∧
      (m.toNat < t.gWin) ∧
      ((∀ l ∈ t.liveLanes b.wave, l ∈ b.lanes)) ∧
      ((∃ l ∈ b.lanes, ∃ j ∈ b.lanes, p.2 (vget (fib l).regs.g k.toNat) (vget (fib l).regs.g m.toNat) ≠
            p.2 (vget (fib j).regs.g k.toNat) (vget (fib j).regs.g m.toNat)))) ∧
  (∃ p ∈ twoSources, ∃ (h : Hdr) (s : State) (b : Issue) (t : Team) (fib : Nat → Fibre),
      (Together s b t fib) ∧
      (h.guard = none) ∧
      ∃ (q : BitVec 4) (k m : BitVec 6),
      (k.toNat < t.gWin) ∧
      (m.toNat < t.gWin) ∧
      ((∀ l ∈ t.liveLanes b.wave, l ∈ b.lanes)) ∧
      ∃ w, ((∀ l ∈ b.lanes, p.2 (vget (fib l).regs.g k.toNat) (vget (fib l).regs.g m.toNat) = w))) ∧
  (∃ p ∈ twoSources, ∃ (h : Hdr) (s : State) (b : Issue) (t : Team) (fib : Nat → Fibre),
      (Together s b t fib) ∧
      (h.guard = none) ∧
      ∃ (q : BitVec 4) (k m : BitVec 6),
      (k.toNat < t.gWin) ∧
      (m.toNat < t.gWin) ∧
      ((∀ l ∈ t.liveLanes b.wave, l ∈ b.lanes)) ∧
      ∃ w, ((∀ l ∈ b.lanes, p.2 (vget (fib l).regs.g k.toNat) (vget (fib l).regs.g m.toNat) = w)) ∧
      ∃ l ∈ b.lanes, True) := by
  refine ⟨?_, ?_, ?_, ?_, ?_, ?_, ?_⟩
  · exact ⟨_, List.Mem.head _, Hdr.plain, (pairOf [0, 1]), { batch with lanes := [0, 1], todo := [0, 1] }, duo,
      duoFibre, together_duo, by decide +kernel, 3, 1, 62, 1, by decide +kernel, by decide +kernel,
      by decide +kernel⟩
  · exact ⟨_, List.Mem.head _, Hdr.plain, (pairOf [0, 1]), { batch with lanes := [0, 1], todo := [0, 1] }, duo,
      duoFibre, together_duo, by decide +kernel, 3, 1, 2, 1, by decide +kernel, by decide +kernel,
      by decide +kernel, id (by decide +kernel)⟩
  · exact ⟨_, List.Mem.head _, Hdr.plain, (pairOf [0, 1]), { batch with lanes := [0, 1], todo := [0, 1] }, duo,
      duoFibre, together_duo, by decide +kernel, 3, 1, 2, 1, by decide +kernel, by decide +kernel,
      by decide +kernel, id (by decide +kernel), 0, List.Mem.head _, trivial⟩
  · exact ⟨_, List.Mem.head _, Hdr.plain, (pairOf [0]), batch, duo, duoFibre, together_one, by decide +kernel, 4, 20,
      1, by decide +kernel, by decide +kernel, by decide +kernel⟩
  · exact ⟨_, List.Mem.head _, Hdr.plain, (pairOf [0, 1]), { batch with lanes := [0, 1], todo := [0, 1] }, duo,
      duoFibre, together_duo, by decide +kernel, 4, 20, 1, by decide +kernel, by decide +kernel,
      by decide +kernel, id (by decide +kernel)⟩
  · exact ⟨_, List.Mem.head _, Hdr.plain, (pairOf [0, 1]), { batch with lanes := [0, 1], todo := [0, 1] }, duo,
      duoFibre, together_duo, by decide +kernel, 4, 1, 4, by decide +kernel, by decide +kernel,
      by decide +kernel, 10, by decide +kernel⟩
  · exact ⟨_, List.Mem.head _, Hdr.plain, (pairOf [0, 1]), { batch with lanes := [0, 1], todo := [0, 1] }, duo,
      duoFibre, together_duo, by decide +kernel, 4, 1, 4, by decide +kernel, by decide +kernel,
      by decide +kernel, 10, by decide +kernel, 0, List.Mem.head _, trivial⟩

theorem witness_NopWord :
  (∃ (w : DWord),
      (decode w = .ok .nop)) ∧
  (∃ (s : State) (b : Issue) (t : Team) (l : Nat),
      (Solo s b t l none)) ∧
  (∃ w : DWord, w.getLsbD 63 = false ∧ w.extractLsb' 54 9 = 0 ∧ w ≠ 0) := by
  refine ⟨?_, ?_, ?_⟩
  · exact ⟨0, by decide +kernel⟩
  · exact ⟨(st 1), batch, (team 1), 0,
      solo _ _ _ rfl rfl rfl (by decide +kernel) rfl (by decide +kernel) (by decide +kernel)⟩
  · exact ⟨1, by decide, by decide, by decide⟩

end

end Sys2Proof.Machine.Wit
end

