-- ==== Sys2Proof/Tests/Slice0.lean ====
section
/-! SUPPORT. The model's own tests: words that the spec writes out, ill-formed terms that WellFormed refuses, and single
steps whose results the spec gives as examples. -/

namespace Sys2Proof.Tests
open Sys2Proof.Machine
section

set_option maxRecDepth 4000
set_option Elab.async false

/-! ### Decoding: words that the spec writes out -/

/-- A plain header, one with a lookahead, and one with a guard. -/
def pl : Hdr := Hdr.plain
def la (n : BitVec 4) : Hdr := ⟨none, n⟩
def gd (g : BitVec 6) (b : BitVec 5) (s : Bool) : Hdr := ⟨some ⟨g, b, s⟩, 0⟩

/-- Control words (R38, R39, R81 to R104; the programs of 13, 14, 16 and 19). -/
def controlWords : List (DWord × Instr) := [
  (0x0040_0000_1FFF_FFF2, .br pl (-14)), (0x0062_8C00_0000_0011, .br (gd 5 3 false) 17),
  (0x0063_1A00_1FFF_FFFD, .br (gd 6 6 true) (-3)), (0x00A2_0800_1FFF_FFFD, .bru 4 2 (-3)),
  (0x00A3_0000_0000_0003, .bru 6 0 3), (0x01C0_0000_8000_0005, .spawn pl (.g 4) 5), (0x0280_0000_0000_0002, .join pl 2),
  (0x0300_0000_0000_0002, .waitm pl 2), (0x0340_0001_2000_0000, .mmov pl (.g 9) 0 false), (0x0400_0000_0000_0001, .tbar pl true),
  (0x0440_0000_0D20_0000, .qset pl (.s 1) 0), (0x0480_0000_0000_0000, .sign pl 0), (0x04C0_0000_A040_0003, .fork pl (.g 5) (.g 2) 3),
  (0x0562_8000_0120_0000, .arrive (gd 5 0 false) (.g 9) false), (0x0580_0000_0121_E000, .wait pl (.g 9) (.g 15)),
  (0x0600_0000_0040_8007, .cbind pl (.g 2) (.g 4) 7), (0x06C0_0000_0100_0000, .ccons pl (.g 8) 0)]

/-- Integer words (R113 to R122), and the paired word of R47's example. -/
def integerWords : List (DWord × Instr) := [
  (0x1780_0000_E020_4044, .cmp pl (.g 7) (.g 1) (.g 2) ⟨false, 2, 4⟩), (0x1780_0000_2FAF_8000, .cmp pl (.g 1) .lid .zr ⟨false, 0, 0⟩),
  (0x1840_0000_A000_03E8, .li pl (.g 5) 1000), (0x18C0_0020_402D_2001, .shfl (la 1) (.g 2) (.g 1) (.s 1) 1),
  (0x1A40_000F_2F8F_C010, .setix pl (.i 1) .zr (.imm 16)),
  (0x8600_8002_8106_0100, .addi (.g 1) 5 ⟨.mov, .g 6, .g 1, 0⟩)]

/-- Floating and interval words (R125; the program of 16). -/
def floatWords : List (DWord × Instr) := [
  (0x2000_0008_4808_2000, .fadd pl (.f 2) (.f 0) (.f 1) ⟨false, false, false, false, false, 0⟩),
  (0x2000_0008_4808_2006, .fadd pl (.f 2) (.f 0) (.f 1) ⟨false, false, false, false, true, 2⟩),
  (0x2380_0000_E808_2042, .fcmp pl (.g 7) (.f 0) (.f 1) ⟨false, 2, 2⟩), (0x2580_0010_0820_0000, .fmov pl (.chan 0 false) (.f 1)),
  (0x3200_0008_4820_0000, .xsqr pl (.f 2) (.f 1) ⟨false, false, false⟩),
  (0x3140_0008_6848_8000, .xsub pl (.f 3) (.f 2) (.f 4) ⟨false, false, false⟩),
  (0x3400_0000_C868_A020, .xcmp pl (.g 6) (.f 3) (.f 5) ⟨false, 1, 0⟩), (0x33C0_0008_C820_0000, .xwid pl (.f 6) (.f 1) ⟨false, false, false⟩),
  (0x34C0_0008_2821_0000, .xbis pl (.f 1) (.f 1) (.g 8) ⟨false, false, false⟩)]

/-- Memory, atomic and ordering words (R43; the programs of 13, 14, 19 and 21). -/
def memoryWords : List (DWord × Instr) := [
  (0x4000_0041_0040_B004, .ld (la 2) (.g 8) .w ⟨false, .g 2, some (.g 5), 4⟩),
  (0x4000_0021_C04F_D402, .ld (la 1) (.g 14) .d ⟨false, .g 2, none, 2⟩),
  (0x4000_0001_4F8F_D500, .ld pl (.g 10) .d ⟨true, .zr, none, 0⟩), (0x4040_0000_A04F_C807, .st pl (.g 5) .h ⟨false, .g 2, none, 7⟩),
  (0x4040_0002_004F_D800, .st pl (.g 16) .q ⟨false, .g 2, none, 0⟩),
  (0x5000_000F_8040_C008, .amo pl .zr (.g 2) (.g 6) ⟨false, 0, 8⟩), (0x50C0_0000_A04F_D000, .lda pl (.g 5) .w ⟨false, .g 2, none, 0⟩),
  (0x5100_0000_20CF_D000, .stl pl (.g 1) .w ⟨false, .g 6, none, 0⟩), (0x5140_0000_0080_0002, .fence pl (.g 4) 2),
  (0x52E0_8000_0040_0000, .pub (gd 1 0 false) (.g 2)), (0x5300_0000_2240_D000, .red pl (.g 1) ⟨false, .g 18, some (.g 6), 0⟩)]

/-- Words of the engines (the programs of 19 and 21). -/
def engineWords : List (DWord × Instr) := [
  (0x6000_0000_0000_0044, .mcfg pl 0 1 2 false), (0x60C0_0000_0040_0000, .mldt pl (.g 2)),
  (0x6080_0000_0101_4001, .mvqb pl (.g 8) (.g 10) 1), (0x6100_0000_0000_0001, .mswb pl 1),
  (0x6140_0000_C08D_4078, .mma pl (.g 6) (.g 4) (.s 2) 0 15 0), (0x61C0_0000_034D_6000, .mstz pl (.g 26) (.s 3) 0),
  (0x6200_0002_6240_0000, .mrdz pl (.g 19) (.g 18) 0), (0x6420_8002_0182_8007, .gthr (gd 1 0 false) (.g 16) (.g 12) (.g 20) 7 false false),
  (0x63C0_0000_4F80_202C, .cpy pl (.g 2) .zr (.g 1) 12 false true), (0x64C0_0000_0040_C000, .msnd pl (.g 2) (.g 6) false),
  (0x6580_0001_4000_0000, .ewait pl (.g 10))]

/-- System words (R211 to R223; the programs of 13, 14 and 19). -/
def systemWords : List (DWord × Instr) := [
  (0x7040_0000_0000_0007, .sysc pl 7), (0x7100_0020_6000_0000, .csrr (la 1) (.g 3) 0x000),
  (0x7140_0000_0080_0108, .tepcWrite pl (.g 4) false), (0x71C0_0000_C040_8000, .lnch pl (.g 6) (.g 2) (.g 4)),
  (0x7200_0000_00C0_0001, .canc pl (.g 6) 1), (0x7240_0000_E081_000E, .cntr pl (.g 7) (.g 4) (.g 8) 3 2),
  (0x7300_0001_0F80_0000, .parkr pl (.g 8) .zr), (0x7340_0000_A101_2000, .rsumRetry pl (.g 5) (.g 8) (.g 9)), (0, .nop)]

theorem test_decode_control : ∀ p ∈ controlWords, decode p.1 = .ok p.2 := by decide +kernel
theorem test_decode_integer : ∀ p ∈ integerWords, decode p.1 = .ok p.2 := by decide +kernel
theorem test_decode_float : ∀ p ∈ floatWords, decode p.1 = .ok p.2 := by decide +kernel
theorem test_decode_memory : ∀ p ∈ memoryWords, decode p.1 = .ok p.2 := by decide +kernel
theorem test_decode_engine : ∀ p ∈ engineWords, decode p.1 = .ok p.2 := by decide +kernel
theorem test_decode_system : ∀ p ∈ systemWords, decode p.1 = .ok p.2 := by decide +kernel

/-- Words that R52 refuses, with the subcode of the first cause: P with bit 62; an unlisted opcode; op7 0x18; a nonzero
word of opcode 0; `add` with a peek as D; `add` with lid as D; `add` with IMM in A; `add` with LA; three reads of one
bank; both slots writing g1; `join m12`; a guard field with G = 0. -/
def refusedWords : List (DWord × Nat) := [
  (0xC000_0000_0000_0000, 1), (0x7FC0_0000_0000_0000, 2), (0x8C00_0000_0000_0000, 3), (1, 4), (0x1000_0018_0020_4000, 5),
  (0x1000_000F_A020_4000, 6), (0x1000_0000_6FC0_4000, 7), (0x1000_0020_6020_4000, 8), (0x8100_8280_0209_0200, 9),
  (0x8600_8002_8D01_0005, 10), (0x0280_0000_0000_000C, 11), (0x1000_8000_6020_4000, 4)]

theorem test_decode_refuses : ∀ p ∈ refusedWords, decode p.1 = .error p.2 := by decide +kernel

/-- A word is laid out with its lowest byte first, and bits above the row's are zero. -/
theorem test_decode_table_word : decodeTableWord 64 0x1840_0000_A000_03E8 = some (.li pl (.g 5) 1000) := by decide +kernel
theorem test_decode_table_word_short : decodeTableWord 8 0x100 = some .nop := by decide +kernel

/-! ### WellFormed refuses an ill-formed term for each of its checks -/

/-- An operand kind; the lookahead; the even pair of a D; IMM with an indexed operand; two indexed operands that differ; a
mask register above 11; a field past bit 31; an odd pair bit; a REL above 9; a refused tag; an odd base; an index that is
no register; a base of a scratch access; a width; an atomic on an odd pair; no engine; an operand of a pair; two writes
of one register; three reads of one bank; a shift count above 31; a CSR that has its own row; a count of 0 columns; a
refused width code. -/
def illFormed : List Instr := [
  .add pl .lid (.g 1) (.g 2), .add pl (.g 3) (.imm 1) (.g 2), .add (la 1) (.g 3) (.g 1) (.g 2), .ld pl (.g 3) .d ⟨false, .g 2, none, 0⟩,
  .add pl (.idx 1 0) (.g 1) (.imm 3), .add pl (.idx 1 0) (.idx 1 1) (.g 2), .join pl 12, .bfx pl (.g 3) (.g 1) 30 5,
  .cmp pl (.g 7) (.g 1) (.g 2) ⟨false, 2, 3⟩, .cmp pl (.g 7) (.g 1) (.g 2) ⟨false, 10, 4⟩, .ftag pl (.f 1) (.f 2) 14,
  .ld pl (.g 3) .w ⟨false, .g 1, none, 0⟩, .ld pl (.g 3) .w ⟨false, .g 2, some (.imm 3), 0⟩, .ld pl (.g 3) .w ⟨true, .i 1, none, 0⟩,
  .st pl (.g 3) .bu ⟨false, .g 2, none, 0⟩, .amo pl (.g 3) (.g 2) (.g 5) ⟨true, 0, 0⟩, .fork pl (.g 5) (.g 2) 0,
  .pairAdd (.i 1) (.g 1) ⟨.pnop, .g 0, .g 0, 0⟩, .pairAdd (.g 1) (.g 2) ⟨.mov, .g 1, .g 3, 0⟩,
  .pairAdd (.g 1) (.g 5) ⟨.add, .g 9, .g 2, 0⟩, .shli (.g 1) 32 ⟨.pnop, .g 0, .g 0, 0⟩, .csrw pl (.g 1) 0x000, .mfac pl 0,
  .cpy pl (.g 2) (.g 4) (.g 6) 13 false false]

theorem test_wf_refuses : ∀ i ∈ illFormed, i.wf = false := by decide +kernel

theorem test_wf_accepts : ∀ p ∈ controlWords ++ integerWords ++ floatWords ++ memoryWords ++ engineWords ++ systemWords,
    p.2.wf = true := by decide +kernel

/-! ### A booted machine runs the word that is put where it fetches -/

/-- `li g5, #1000` as the first instruction. -/
theorem test_first_step : (match step (State.reset.withFetchWord 64 0x1840_0000_A000_03E8) with
    | .next s => s.teams.map (fun t => t.fibres.map (fun x => (vget x.2.regs.g 5, x.2.pc)))
    | _ => []) = [[(1000, 0x1008)]] := by decide +kernel

/-! ### Single steps -/

/-- A fibre alone, with the registers given. -/
def g0 (l : List (Nat × Word)) : State :=
  Wit.pkg { Wit.team 1 with fibres := [(0, { Fibre.start false 0x1000 0 with
    regs := { Regs.zero with g := l.foldl (fun v x => vset v x.1 x.2) Regs.zero.g } })] }

/-- The same with floating registers of one tag; g2 holds −1. -/
def f0 (tag : BitVec 4) (l : List (Nat × DWord)) : State :=
  Wit.pkg { Wit.team 1 with fibres := [(0, { Fibre.start false 0x1000 0 with
    regs := { Regs.zero with g := vset Regs.zero.g 2 (-1),
                             f := l.foldl (fun v x => vset v x.1 x.2) Regs.zero.f,
                             tag := l.foldl (fun v x => vset v x.1 tag) Regs.zero.tag } })] }

/-- A register of the fibre after an instruction. -/
def gAfter (o : Host.Outcome State Fault Refusal) (n : Nat) : Option Word :=
  match o with | .next s => (s.fibre? 0 0 0).map (fun f => vget f.regs.g n) | _ => none
def fAfter (o : Host.Outcome State Fault Refusal) (n : Nat) : Option DWord :=
  match o with | .next s => (s.fibre? 0 0 0).map (fun f => vget f.regs.f n) | _ => none

/-- The examples of R108, R110 to R114 and R115. -/
theorem test_sub_wraps : gAfter (exec (.sub pl (.g 3) (.g 1) (.g 2)) (g0 [(1, 3), (2, 5)])) 3 = some 0xFFFF_FFFE :=
  by decide +kernel
theorem test_mul : gAfter (exec (.mul pl (.g 3) (.g 1) (.g 2)) (g0 [(1, 0x1_0001), (2, 0x1_0001)])) 3 = some 0x0002_0001 :=
  by decide +kernel
theorem test_mulh : gAfter (exec (.mulh pl (.g 3) (.g 1) (.g 2)) (g0 [(1, -2), (2, 3)])) 3 = some 0xFFFF_FFFF := by decide +kernel
theorem test_mulhu : gAfter (exec (.mulhu pl (.g 3) (.g 1) (.g 2)) (g0 [(1, -1), (2, 2)])) 3 = some 1 := by decide +kernel
theorem test_div : gAfter (exec (.div pl (.g 3) (.g 1) (.g 2)) (g0 [(1, -7), (2, 2)])) 3 = some 0xFFFF_FFFD := by decide +kernel
theorem test_rem : gAfter (exec (.rem pl (.g 3) (.g 1) (.g 2)) (g0 [(1, -7), (2, 2)])) 3 = some 0xFFFF_FFFF := by decide +kernel
theorem test_divu : gAfter (exec (.divu pl (.g 3) (.g 1) (.g 2)) (g0 [(1, -7), (2, 2)])) 3 = some 0x7FFF_FFFC := by decide +kernel
theorem test_andn : gAfter (exec (.andn pl (.g 3) (.g 1) (.g 2)) (g0 [(1, 0xFF), (2, 0x0F)])) 3 = some 0xF0 := by decide +kernel
theorem test_sar : gAfter (exec (.sar pl (.g 3) (.g 1) (.imm 4)) (g0 [(1, 0x8000_0000)])) 3 = some 0xF800_0000 := by decide +kernel
theorem test_rol : gAfter (exec (.rol pl (.g 3) (.g 1) (.imm 8)) (g0 [(1, 0x1234_5678)])) 3 = some 0x3456_7812 := by decide +kernel
theorem test_minu : gAfter (exec (.minu pl (.g 3) (.g 1) (.g 2)) (g0 [(1, -1), (2, 1)])) 3 = some 1 := by decide +kernel
theorem test_mad : gAfter (exec (.mad pl (.g 3) (.g 1) (.imm 3)) (g0 [(3, 10), (1, 4)])) 3 = some 22 := by decide +kernel
theorem test_clz : gAfter (exec (.clz pl (.g 3) (.g 1)) (g0 [(1, 0x1000)])) 3 = some 19 := by decide +kernel
theorem test_ctz : gAfter (exec (.ctz pl (.g 3) (.g 1)) (g0 [(1, 0x1000)])) 3 = some 12 := by decide +kernel
theorem test_popc : gAfter (exec (.popc pl (.g 3) (.g 1) .zr) (g0 [(1, 0xF0F0)])) 3 = some 8 := by decide +kernel
theorem test_brev : gAfter (exec (.brev pl (.g 3) (.g 1)) (g0 [(1, 1)])) 3 = some 0x8000_0000 := by decide +kernel
theorem test_abs_corner : gAfter (exec (.abs pl (.g 3) (.g 1)) (g0 [(1, 0x8000_0000)])) 3 = some 0x8000_0000 := by decide +kernel
theorem test_bfxs : gAfter (exec (.bfxs pl (.g 3) (.g 1) 8 3) (g0 [(1, 0xA50)])) 3 = some 0xFFFF_FFFA := by decide +kernel
theorem test_bfi : gAfter (exec (.bfi pl (.g 3) (.g 1) 0 7) (g0 [(3, 0x1234_5678), (1, 0xAB)])) 3 = some 0x1234_56AB :=
  by decide +kernel
theorem test_cmp_lt : gAfter (exec (.cmp pl (.g 7) (.g 1) (.g 2) ⟨false, 2, 4⟩) (g0 [(1, -1), (2, 1)])) 7 = some 0x10 :=
  by decide +kernel
theorem test_lih : gAfter (exec (.lih pl (.g 5) 0x1234) (g0 [(5, 0x3E8)])) 5 = some 0x1234_03E8 := by decide +kernel
theorem test_lea : gAfter (exec (.lea pl (.g 8) .w ⟨false, .g 2, some (.g 5), 4⟩) (g0 [(3, 0x10), (5, 8)])) 8 = some 0x18 :=
  by decide +kernel

/-- The paired word of R47's example: both slots read before either writes. -/
theorem test_pair_reads_first : gAfter (exec (.addi (.g 1) 5 ⟨.mov, .g 6, .g 1, 0⟩) (g0 [(1, 2)])) 1 = some 7 ∧
    gAfter (exec (.addi (.g 1) 5 ⟨.mov, .g 6, .g 1, 0⟩) (g0 [(1, 2)])) 6 = some 2 := by decide +kernel

/-- The examples of R126: FADD, FMUL in binary64, FFMA, FDIV, FSQRT, FRSQ, FEX2, FLG2, FSIN, FCOS, FRND and FSCL. -/
def fo : FOpt := ⟨false, false, false, false, false, 0⟩
theorem test_fadd :
    fAfter (exec (.fadd pl (.f 2) (.f 0) (.f 1) fo) (f0 2 [(0, 0x3FC0_0000), (1, 0x4010_0000)])) 2 = some 0x4070_0000 :=
  by decide +kernel
theorem test_fmul_d : fAfter (exec (.fmul pl (.f 2) (.f 0) (.f 1) { fo with fp64 := true })
    (f0 1 [(0, 0x4008_0000_0000_0000), (1, 0xBFE0_0000_0000_0000)])) 2 = some 0xBFF8_0000_0000_0000 := by decide +kernel
theorem test_ffma : fAfter (exec (.ffma pl (.f 2) (.f 0) (.f 1) fo) (f0 2 [(0, 0x4000_0000), (1, 0x4040_0000), (2, 0x3F80_0000)])) 2 =
    some 0x40E0_0000 := by decide +kernel
theorem test_fdiv :
    fAfter (exec (.fdiv pl (.f 2) (.f 0) (.f 1) fo) (f0 2 [(0, 0x3F80_0000), (1, 0x4080_0000)])) 2 = some 0x3E80_0000 :=
  by decide +kernel
theorem test_fsqrt : fAfter (exec (.fsqrt pl (.f 2) (.f 0) fo) (f0 2 [(0, 0x4010_0000)])) 2 = some 0x3FC0_0000 := by decide +kernel
theorem test_frsq : fAfter (exec (.frsq pl (.f 2) (.f 0) fo) (f0 2 [(0, 0x4080_0000)])) 2 = some 0x3F00_0000 := by decide +kernel
theorem test_fex2 : fAfter (exec (.fex2 pl (.f 2) (.f 0) fo) (f0 2 [(0, 0x4040_0000)])) 2 = some 0x4100_0000 := by decide +kernel
theorem test_flg2 : fAfter (exec (.flg2 pl (.f 2) (.f 0) fo) (f0 2 [(0, 0x3E80_0000)])) 2 = some 0xC000_0000 := by decide +kernel
theorem test_fsin : fAfter (exec (.fsin pl (.f 2) (.f 0) fo) (f0 2 [(0, 0x8000_0000)])) 2 = some 0x8000_0000 := by decide +kernel
theorem test_fcos : fAfter (exec (.fcos pl (.f 2) (.f 0) fo) (f0 2 [(0, 0)])) 2 = some 0x3F80_0000 := by decide +kernel
theorem test_frnd_down :
    fAfter (exec (.frnd pl (.f 2) (.f 0) { fo with rm := 3 }) (f0 2 [(0, 0xC020_0000)])) 2 = some 0xC040_0000 :=
  by decide +kernel
theorem test_fscl : fAfter (exec (.fscl pl (.f 2) (.f 0) (.g 2) fo) (f0 2 [(0, 0x4040_0000)])) 2 = some 0x3FC0_0000 :=
  by decide +kernel

/-- The examples of R138: intervals of FP32, the lower bound in the low word. -/
def xo : XOpt := ⟨false, false, false⟩
theorem test_xadd : fAfter (exec (.xadd pl (.f 4) (.f 0) (.f 2) xo)
    (f0 3 [(0, 0x4000_0000_3F80_0000), (2, 0x7F80_0000_3F00_0000)])) 4 = some 0x7F80_0000_3FC0_0000 := by decide +kernel
theorem test_xsub : fAfter (exec (.xsub pl (.f 4) (.f 0) (.f 2) xo)
    (f0 3 [(0, 0x4000_0000_3F80_0000), (2, 0x4040_0000_0000_0000)])) 4 = some 0x4000_0000_C000_0000 := by decide +kernel
theorem test_xmul : fAfter (exec (.xmul pl (.f 4) (.f 0) (.f 2) xo)
    (f0 3 [(0, 0x4000_0000_BF80_0000), (2, 0x4080_0000_4040_0000)])) 4 = some 0x4100_0000_C080_0000 := by decide +kernel
theorem test_xdiv : fAfter (exec (.xdiv pl (.f 4) (.f 0) (.f 2) xo)
    (f0 3 [(0, 0x4000_0000_3F80_0000), (2, 0x3F80_0000_BF80_0000)])) 4 = some 0x7F80_0000_FF80_0000 := by decide +kernel
theorem test_xsqr : fAfter (exec (.xsqr pl (.f 4) (.f 0) xo) (f0 3 [(0, 0x3F80_0000_C000_0000)])) 4 = some 0x4080_0000_0000_0000 :=
  by decide +kernel
theorem test_xexp : fAfter (exec (.xexp pl (.f 4) (.f 0) xo) (f0 3 [(0, 0)])) 4 = some 0x3F80_0000_3F80_0000 := by decide +kernel

/-- The examples of R151: a signed byte, a scratch word; and R160's compare and swap. -/
theorem test_ldb_extends : (match exec (.st pl (.g 4) .b ⟨false, .g 2, none, 0⟩) (g0 [(2, 0x2000), (4, 0xF0)]) with
    | .next s => gAfter (exec (.ld pl (.g 3) .b ⟨false, .g 2, none, 0⟩) { s with cur := some Wit.batch }) 3
    | _ => none) = some 0xFFFF_FFF0 := by decide +kernel
theorem test_scratch_store : (match exec (.st pl (.g 1) .w ⟨true, .g 4, none, 0⟩) (g0 [(1, 0x1234_5678), (4, 8)]) with
    | .next s => (s.teams.map (fun t => t.rdScr 8 4))
    | _ => []) = [0x1234_5678] := by decide +kernel

/-- SYSC enters the handler of class 13 at level 1, the word's own PC saved. -/
theorem test_sysc_enters : (match exec (.sysc pl 7) (Wit.st 0) with
    | .next s => s.teams.map (fun t => ((t.wave 0).level, (t.wave 0).tcause.toNat % 16, (t.wave 0).tepc))
    | _ => []) = [(1, 13, 0x1000)] := by decide +kernel

/-- The header that R378 writes out. -/
theorem test_header : (Flit.header ⟨5, 9, 3, 0x0260, 1, 2, 2, 1, 4, 2, 0, false, 5, 300, [], [], none⟩) =
    0x0000_5009_0030_2600_0000_1210_8480_A12C := by decide +kernel

/-- The example of AES with 256 key bits in its standard (FIPS 197, C.3), and the tag of an empty message under zeros. -/
theorem test_aes : aesBlock (aesKeys (List.range 32)) ((List.range 16).map (· * 0x11)) =
    highFirst 16 0x8EA2_B7CA_5167_45BF_EAFC_4990_4B49_6089 := by decide +kernel
theorem test_gcm : gcmSeal (List.replicate 32 0) (List.replicate 12 0) [] [] =
    ([], highFirst 16 0x530F_8AFB_C745_36B9_A963_B4F1_C4CB_738B) := by decide +kernel

/-- The example of SHA-384 in its standard (FIPS 180-4): the digest of the three bytes of "abc". -/
theorem test_sha384 : beNat (sha384 [0x61, 0x62, 0x63]) =
    0xCB00_753F_45A3_5E8B_B5A0_3D69_9AC6_5007_272C_32AB_0EDE_D163_1A8B_605A_43FF_5BED_8086_072B_A1E7_CC23_58BA_ECA1_34C8_25A7 :=
  by decide +kernel

end

end Sys2Proof.Tests
end

section
/-! SUPPORT. The rules that the statements of the conventions (R9 to R30) share: how a part of a lane's word goes on after another,
what the parts that only read leave, and how a word of one lane ends when its part traps or does not issue. -/

namespace Sys2Proof.Machine

/-! ### Parts, one after another -/

theorem does_step {α β : Type} {p : L α} {f : α → L β} {x y z : LS} {u : α} {v : β} (h : Does p x u y) (hf : Does (f u) y v z) :
    Does (p >>= f) x v z := does_bind.2 ⟨u, y, h, hf⟩

/-- A part goes on as its continuation does from where it leaves off. -/
theorem bind_of_does {α β : Type} {p : L α} {f : α → L β} {x y : LS} {u : α} (h : Does p x u y) : (p >>= f) x = f u y := by
  simp only [Does] at h
  simp [bind, StateT.bind, Except.bind, h]

/-- A part that stops stops what follows it. -/
theorem bind_of_stops {α β : Type} {p : L α} {f : α → L β} {x : LS} {e : Stop} (h : p x = .error e) : (p >>= f) x = .error e := by
  simp [bind, StateT.bind, Except.bind, h]

theorem map_of_stops {α β : Type} {p : L α} {f : α → β} {x : LS} {e : Stop} (h : p x = .error e) : (f <$> p) x = .error e := by
  rw [map_eq_pure_bind]
  exact bind_of_stops h

@[simp] theorem does_level {x y : LS} {n : Nat} : Does L.level x n y ↔ n = x.lvl ∧ y = x := by
  simp only [L.level, does_bind, does_get, does_pure]
  constructor
  · rintro ⟨_, _, ⟨rfl, rfl⟩, rfl, rfl⟩
    exact ⟨rfl, rfl⟩
  · rintro ⟨rfl, rfl⟩
    exact ⟨y, y, ⟨rfl, rfl⟩, rfl, rfl⟩

/-- What a part that keeps the lane leaves of the lane's start. -/
theorem Keeps.of_start {α : Type} {p : L α} (hp : Keeps p) {b : Issue} {s : State} {t : Team} {l : Nat} {v : α} {y : LS}
    (h : Does p (b.start s t l) v y) :
    y.lane = l ∧ y.unis = [] ∧ y.agent = b.agent ∧ y.wave = b.wave ∧ y.lvl = t.levelAt b.wave l := by
  rw [hp _ _ _ h]
  exact ⟨rfl, rfl, rfl, rfl, rfl⟩

/-- No uniform write, or one alone, agrees with itself. -/
@[simp] theorem unisAgree_nil : unisAgree [] = true := rfl
@[simp] theorem unisAgree_s {n : BitVec 4} {v : Word} : unisAgree [.s n v] = true := by simp [unisAgree, uniClash]

/-! ### How a word of one lane ends -/

theorem guardRead_solo {s : State} {b : Issue} {t : Team} {l : Nat} {g : Option Guard} (h : Solo s b t l g) :
    s.guardRead b t g = s := by
  have hg := h.guard
  cases g with
  | none => rfl
  | some k =>
    simp only [passes, Bool.and_eq_true, Bool.not_eq_true'] at hg
    simp only [State.guardRead, h.todo, List.any_cons, List.any_nil, hg.2, Bool.or_false, Bool.false_eq_true, if_false]

/-- A word of one lane, as the turn of that lane from the state before it. -/
theorem runWord_one {i : Instr} {g : Option Guard} {m : WMode} {after : Issue → State → State} {body : Bool → L Unit}
    {s : State} {b : Issue} {t : Team} {l : Nat} (h : Solo s b t l g) :
    runWord i g m after body s = .next (finishWord i b [l] [l] s m (after b)
      (runLane (guarded g body) m.inOrder [] (b.lanes0 s t [l]) (Run.start s [] []) l)) := by
  have hs := guardRead_solo h
  obtain ⟨hc, ht, hL, hT, hv, -, hg, hn, hk⟩ := h
  simp only [passes, Bool.and_eq_true, Bool.not_eq_true'] at hg
  obtain ⟨⟨⟨hw, ho⟩, hg1⟩, -⟩ := hg
  have he : b.lanes.filter (fun l => guardPass g (t.regsAt b.wave l)) = [l] := by simp [hL, hg1]
  have hd : guardedOut b [l] = [] := by simp [guardedOut, hT]
  have hf : [l].filter [l].contains = [l] := by simp
  simp only [runWord, hc, ht, hT, hw, ho, Bool.false_eq_true, if_false, runBatch, he, hs, hv, hd, hk, hn, ite_self, hf,
    runLanes, List.foldl_cons, List.foldl_nil]

/-- What a lane's part starts from at its turn. -/
def Run.turn (r : Run) (x : LS) (lane : Nat) : LS :=
  { x with st := r.st, clean := r.st, base := r.base, lane := lane,
           lvl := ((r.st.team? x.agent).map (·.levelAt x.wave lane)).getD x.lvl }

theorem runLane_trap {body : Bool → L Unit} {o : Bool} {late : List Nat} {x : LS} {r : Run} {lane : Nat} {cls : BitVec 4}
    {sub : BitVec 8} {ad : Addr} {aux : Word} {s : State} (h : runPair body (r.turn x lane) = .error (.trap cls sub ad aux s)) :
    runLane body o late x r lane =
      { r with traps := r.traps ++ [⟨lane, cls, sub, ad, aux⟩], noted := r.noted.keepReads s x.agent } := by
  simp only [Run.turn] at h
  simp only [runLane, h]

theorem runLane_interlock {body : Bool → L Unit} {o : Bool} {late : List Nat} {x : LS} {r : Run} {lane : Nat}
    (h : runPair body (r.turn x lane) = .error .interlock) : runLane body o late x r lane = { r with locked := true } := by
  simp only [Run.turn] at h
  simp only [runLane, h]

theorem runLane_ok {body : Bool → L Unit} {o : Bool} {late : List Nat} {x y : LS} {r : Run} {lane : Nat}
    (h : runPair body (r.turn x lane) = .ok y) (hh : r.held = []) (hl : late.contains lane = false) :
    runLane body o late x r lane = { r with st := y.st, dones := r.dones ++ [⟨lane, y.npc, y.closes, y.hold⟩],
                                            unis := r.unis ++ y.unis, recs := r.recs ++ y.recs } := by
  simp only [Run.turn] at h
  simp only [runLane, h, hh, hl, List.isEmpty_nil, Bool.not_true, Bool.and_false, Bool.false_eq_true, if_false]

theorem runLane_later {body : Bool → L Unit} {o : Bool} {late : List Nat} {x y : LS} {r : Run} {lane : Nat}
    (h : runPair body (r.turn x lane) = .ok y) (hh : r.held = []) (hl : late.contains lane = true) :
    runLane body o late x r lane = { r with later := r.later ++ [lane] } := by
  simp only [Run.turn] at h
  simp only [runLane, h, hh, hl, List.isEmpty_nil, Bool.not_true, Bool.and_false, Bool.false_eq_true, if_false, if_true]

/-- The only lane of a word has the first turn. -/
theorem turn_start {s : State} {b : Issue} {t : Team} {l : Nat} (h : s.team? b.agent = some t) :
    (Run.start s [] []).turn (b.lanes0 s t [l]) l = b.start s t l := by
  simp [Run.turn, Run.start, Issue.lanes0, Issue.start, h]

/-- The turn of that lane when its part stops. -/
theorem runPair_turn_stops {g : Option Guard} {body : Bool → L Unit} {s : State} {b : Issue} {t : Team} {l : Nat} {e : Stop}
    (h : Solo s b t l g) (hb : body false (b.start s t l) = .error e) :
    runPair (guarded g body) ((Run.start s [] []).turn (b.lanes0 s t [l]) l) = .error e := by
  rw [turn_start h.team]
  exact runPair_stops (t := t) h.team h.plain (by simpa [guarded] using hb)

/-- A word of one lane that traps before its first effect enters the handler from the state before it (R12). -/
theorem runWord_solo_trap {i : Instr} {g : Option Guard} {m : WMode} {after : Issue → State → State} {body : Bool → L Unit}
    {s : State} {b : Issue} {t : Team} {l : Nat} {cls : BitVec 4} {sub : BitVec 8} {ad : Addr} {aux : Word} (h : Solo s b t l g)
    (hb : body false (b.start s t l) = .error (.trap cls sub ad aux s)) :
    runWord i g m after body s = .next (s.enterHandler b.agent b.wave b.pc [⟨l, cls, sub, ad, aux⟩] [l] [l] none) := by
  rw [runWord_one h, runLane_trap (runPair_turn_stops h hb)]
  simp [Issue.lanes0, Run.start, finishWord, uniFault, Run.allTraps, h.todo]

/-- A word of one lane that names a register still waiting for a result does not issue (R42). -/
theorem runWord_solo_interlock {i : Instr} {g : Option Guard} {m : WMode} {after : Issue → State → State} {body : Bool → L Unit}
    {s : State} {b : Issue} {t : Team} {l : Nat} (h : Solo s b t l g) (hb : body false (b.start s t l) = .error .interlock) :
    runWord i g m after body s = .next { s with cur := none } := by
  rw [runWord_one h, runLane_interlock (runPair_turn_stops h hb)]
  simp [finishWord]

/-- No lane traps, waits or parks, and the uniform check passes: what the lanes did stands. -/
theorem finishWord_done {i : Instr} {b : Issue} {live execs : List Nat} {s : State} {m : WMode} {after : State → State} {r : Run}
    (hl : r.locked = false) (ht : r.traps = []) (hh : r.held = []) (hw : r.later = []) (hp : r.parks = [])
    (hu : uniFault live execs r.unis = none) :
    finishWord i b live execs s m after r =
      { after (((r.st.retire i b s.tick r).unstick b).landReady b.agent b.wave) with cur := none } := by
  cases m <;> simp [finishWord, hl, ht, hh, hw, hp, hu, Run.allTraps, Run.waits, Run.kept]

end Sys2Proof.Machine
end

section
/-! What reset leaves (R25, R426, R427). -/

namespace Sys2Proof.Machine

/-- Memory that lists nothing reads as zero. -/
theorem read_empty (a n : Nat) : Memory.read [] a n = 0 := by
  induction n generalizing a with
  | zero => rfl
  | succ n ih => rw [Memory.read, ih]; rfl

/-- Before training every key slot of a port is empty (R426 step 5). -/
theorem reset_ports {p : Port} (h : p ∈ State.reset.ports) : ∃ n, p = Port.reset n := by
  obtain ⟨n, -, rfl⟩ := List.mem_map.1 h
  exact ⟨n, rfl⟩

/-- Settles O54: each register and list is the one that reset writes; no team means no scratch and no wait to note. -/
theorem resetState : Obligations.ResetState := by
  have hwf : State.reset.storesWf := ⟨wf_reset, fun t ht => by cases ht⟩
  have hwait : State.reset.waitsMarked := fun t ht => by cases ht
  refine ⟨rfl, rfl, rfl, rfl, rfl, rfl, rfl, hwf, fun _ => rfl, rfl, rfl, rfl, rfl, hwait, fun p hp => ?_,
    fun n => read_empty n 16⟩
  obtain ⟨n, rfl⟩ := reset_ports hp
  exact ⟨rfl, rfl, rfl, rfl, rfl⟩

end Sys2Proof.Machine
end

section
/-! CSRs (R25, R213, R214): who may read and write them, what they read, and the words CSRR, CSRW and CSRX. -/

namespace Sys2Proof.Machine

/-! ### Levels -/

/-- Every CSR of R25's table is readable at its level. -/
theorem csrReadLevel_of_mem : ∀ c ∈ csrReadable, csrReadLevel c.2 = some c.1 := by decide

/-- A CSR that is readable stands in the table. -/
theorem mem_of_csrReadLevel {n m : Nat} (h : csrReadLevel n = some m) : (m, n) ∈ csrReadable := by
  unfold csrReadLevel at h
  split at h
  · rename_i hn
    obtain rfl : 0 = m := by simpa using h
    obtain hn | rfl := hn
    · interval_cases n <;> decide
    · decide
  · split at h
    · rename_i hn
      obtain rfl : 1 = m := by simpa using h
      obtain ⟨h1, h2⟩ := hn
      interval_cases n <;> simp_all [csrReadable]
    · split at h
      · rename_i hn
        obtain rfl : 2 = m := by simpa using h
        obtain ⟨h1, h2⟩ := hn
        interval_cases n <;> decide
      · cases h

/-- The level at which R25's table lets a number be read is the one that the access checks. -/
theorem readableAt_eq (n : BitVec 12) : readableAt n = csrReadLevel n.toNat := by
  unfold readableAt
  cases hf : csrReadable.find? (·.2 == n.toNat) with
  | some c =>
    have hc := csrReadLevel_of_mem c (List.mem_of_find?_eq_some hf)
    have hn := List.find?_some hf
    rw [beq_iff_eq] at hn
    rw [← hn, hc]
    rfl
  | none =>
    cases hl : csrReadLevel n.toNat with
    | none => rfl
    | some m => exact absurd (List.find?_eq_none.1 hf _ (mem_of_csrReadLevel hl)) (by simp)

/-! ### The check of an access -/

theorem keeps_csrAllowed {n : Nat} {rd wr : Bool} : Keeps (L.csrAllowed n rd wr) := by
  unfold L.csrAllowed
  repeat' first
    | with_reducible refine keeps_bind ?_ fun _ => ?_
    | split
    | simp

theorem csrAllowed_read {n m : Nat} {x : LS} (h : csrReadLevel n = some m) (hm : m ≤ x.lvl) :
    Does (L.csrAllowed n true false) x () x := by
  refine does_step (does_level.2 ⟨rfl, rfl⟩) ?_
  simp [h, Nat.not_lt.2 hm]

theorem csrAllowed_write {n k m : Nat} {x : LS} (hr : csrReadLevel n = some k) (h : csrWriteLevel n = some m) (hm : m ≤ x.lvl) :
    Does (L.csrAllowed n false true) x () x := by
  refine does_step (does_level.2 ⟨rfl, rfl⟩) ?_
  simp [h, hr, Nat.not_lt.2 hm]

/-- Below its level a CSR is ILL PRIV. -/
theorem csrAllowed_low {n m : Nat} {x : LS} (h : csrReadLevel n = some m) (hm : x.lvl < m) :
    L.csrAllowed n true false x = .error (.trap 0 0x0C 0 0 x.st) := by
  unfold L.csrAllowed
  rw [bind_of_does (does_level.2 ⟨rfl, rfl⟩)]
  simp only [h, hm, decide_true, Bool.and_self, Bool.true_or, if_true]
  exact bind_of_stops rfl

/-- A number of no CSR is ILL CSR. -/
theorem csrAllowed_none {n : Nat} {x : LS} (h : csrReadLevel n = none) :
    L.csrAllowed n true false x = .error (.trap 0 0x0D 0 0 x.st) := by
  unfold L.csrAllowed
  rw [bind_of_does (does_level.2 ⟨rfl, rfl⟩)]
  simp [h]
  rfl

/-! ### What a CSR reads -/

@[simp] theorem keeps_latch {n : Nat} {v : Word} : Keeps (L.latch n v) := keeps_modFibre

@[simp] theorem keeps_wideCsr {n : Nat} : Keeps (L.wideCsr n) := by
  unfold L.wideCsr
  split
  · exact keeps_bind keeps_get fun _ => keeps_pure
  · exact keeps_bind keeps_wave fun _ => keeps_pure

@[simp] theorem keeps_csrHigh {n : Nat} : Keeps (L.csrHigh n) := by
  unfold L.csrHigh
  refine keeps_bind keeps_fibre fun _ => ?_
  split
  · exact keeps_bind keeps_modFibre fun _ => keeps_pure
  · exact keeps_bind keeps_wideCsr fun _ => keeps_pure

@[simp] theorem keeps_csrRead {n : Nat} : Keeps (L.csrRead n) := by
  unfold L.csrRead
  refine keeps_bind keeps_get fun _ => keeps_bind keeps_team fun _ => keeps_bind keeps_part fun _ => keeps_bind keeps_wave fun _ => ?_
  split <;> first
    | exact keeps_pure
    | exact keeps_csrHigh
    | exact keeps_bind keeps_wideCsr fun _ => keeps_bind keeps_latch fun _ => keeps_pure

theorem does_wave_of_team {x : LS} {t : Team} (ht : Does L.team x t x) : Does L.wave x (t.wave x.wave) x :=
  does_wave.2 ⟨⟨t, (does_team.1 ht).1, rfl⟩, rfl⟩

theorem does_latch {n : Nat} {v : Word} {x : LS} : Does (L.latch n v) x () { x with
    st := x.st.updFibre x.agent x.wave x.lane (fun f => { f with latch := (n, v) :: f.latch.filter (·.1 != n) }) } :=
  does_modFibre.2 rfl

/-- Every other CSR reads the register of the table and changes nothing (R25). -/
theorem csrRead_values {c : Nat × Word} {x : LS} {t : Team} {p : Partition} (ht : Does L.team x t x) (hp : Does L.part x p x)
    (hc : c ∈ csrValues x.st t p (t.wave x.wave) x.agent) : Does (L.csrRead c.1) x c.2 x := by
  have hw := does_wave_of_team ht
  simp only [csrValues, List.mem_cons, List.not_mem_nil, or_false] at hc
  rcases hc with rfl | rfl | rfl | rfl | rfl | rfl | rfl | rfl | rfl | rfl | rfl | rfl | rfl | rfl | rfl | rfl | rfl | rfl | rfl |
    rfl | rfl | rfl | rfl | rfl | rfl <;>
  refine does_step (does_get.2 ⟨rfl, rfl⟩) (does_step ht (does_step hp (does_step hw (does_pure.2 ⟨?_, rfl⟩))))
  pick_goal 14
  · cases (t.wave x.wave).h <;> rfl
  all_goals rfl

/-- The low half of a 64-bit CSR latches its high half for the fibre (R25, R214). -/
theorem csrRead_cyc {x : LS} {t : Team} {p : Partition} (ht : Does L.team x t x) (hp : Does L.part x p x) :
    Does (L.csrRead 0x001) x ((x.st.core (coreOf x.agent)).cyc.extractLsb' 0 32) { x with
      st := x.st.updFibre x.agent x.wave x.lane (fun f => { f with
        latch := (2, (x.st.core (coreOf x.agent)).cyc.extractLsb' 32 32) :: f.latch.filter (·.1 != 2) }) } := by
  have hw := does_wave_of_team ht
  have hv : Does (L.wideCsr 2) x (x.st.core (coreOf x.agent)).cyc x :=
    does_step (does_get.2 ⟨rfl, rfl⟩) (does_pure.2 ⟨rfl, rfl⟩)
  exact does_step (does_get.2 ⟨rfl, rfl⟩) (does_step ht (does_step hp (does_step hw
    (does_step hv (does_step does_latch (does_pure.2 ⟨rfl, rfl⟩))))))

theorem csrRead_tepc {x : LS} {t : Team} {p : Partition} (ht : Does L.team x t x) (hp : Does L.part x p x) :
    Does (L.csrRead 0x108) x ((t.wave x.wave).tepc.extractLsb' 0 32) { x with
      st := x.st.updFibre x.agent x.wave x.lane (fun f => { f with
        latch := (0x109, ((t.wave x.wave).tepc.setWidth 64).extractLsb' 32 32) :: f.latch.filter (·.1 != 0x109) }) } := by
  have hw := does_wave_of_team ht
  have hv : Does (L.wideCsr 0x109) x ((t.wave x.wave).tepc.setWidth 64) x := does_step hw (does_pure.2 ⟨rfl, rfl⟩)
  have he : (t.wave x.wave).tepc.extractLsb' 0 32 = ((t.wave x.wave).tepc.setWidth 64).extractLsb' 0 32 := by
    apply BitVec.eq_of_toNat_eq
    simp only [BitVec.extractLsb'_toNat, BitVec.toNat_setWidth, Nat.shiftRight_zero]
    omega
  rw [he]
  exact does_step (does_get.2 ⟨rfl, rfl⟩) (does_step ht (does_step hp (does_step hw
    (does_step hv (does_step does_latch (does_pure.2 ⟨rfl, rfl⟩))))))

/-- A latched high half is read once (R25, R214). -/
theorem csrRead_latched {n : Nat} {x : LS} {t : Team} {p : Partition} {f : Fibre} {v : Word} (hn : n = 0x002 ∨ n = 0x109)
    (ht : Does L.team x t x) (hp : Does L.part x p x) (hf : Does L.fibre x f x) (hl : f.latch.find? (·.1 == n) = some (n, v)) :
    Does (L.csrRead n) x v { x with
      st := x.st.updFibre x.agent x.wave x.lane (fun f => { f with latch := f.latch.filter (·.1 != n) }) } := by
  have hw := does_wave_of_team ht
  have hh : Does (L.csrHigh n) x v { x with
      st := x.st.updFibre x.agent x.wave x.lane (fun f => { f with latch := f.latch.filter (·.1 != n) }) } := by
    refine does_step hf ?_
    rw [hl]
    exact does_step (u := ()) (does_modFibre.2 rfl) (does_pure.2 ⟨rfl, rfl⟩)
  obtain rfl | rfl := hn <;>
  exact does_step (does_get.2 ⟨rfl, rfl⟩) (does_step ht (does_step hp (does_step hw hh)))

/-! ### CSRR -/

/-- A long-latency word without lookahead, with nothing pending for its destinations, lands at once. -/
theorem longBody_landed {i : Instr} {h : Hdr} {cap : L Cap} {perf : Cap → L (QWord × BitVec 4)} {c : Cap} {x y z : LS}
    (hc : Does cap x c y) (hl : Landed i h c (perf c) y z) : Does (L.longBody i h cap perf) x () z := by
  obtain ⟨hla, y', v, t, w, hb, hp, hn⟩ := hl
  refine does_step hc (does_step hb ?_)
  simp only [hla, Bool.not_false, and_self, if_true]
  exact does_step hp hn

theorem keeps_behind {l : List Opnd} : Keeps (L.behind l) :=
  keeps_bind keeps_get fun _ => keeps_bind keeps_wave fun _ => keeps_pure

/-- A result for one register that lands at once: an s register takes it through the uniform check, anything else in the state
alone. -/
theorem landNow_one {i : Instr} {c : Cap} {d : Opnd} {v : QWord} {t : BitVec 4} {x y : LS} {u : Unit} (hd : destsOf i c = [d])
    (h : Does (L.landNow i c v t) x u y) : y.lane = x.lane ∧ (y.unis = x.unis ∨ ∃ n w, y.unis = x.unis ++ [Uni.s n w]) := by
  simp only [L.landNow, hd] at h
  cases d with
  | chan ch pk =>
    rw [keeps_chanPush _ _ _ h]
    exact ⟨rfl, .inl rfl⟩
  | s n =>
    have h' := uni_holds (by simpa using h)
    subst h'
    exact ⟨rfl, .inr ⟨_, _, rfl⟩⟩
  | _ =>
    have h' := keeps_modFibre (f := fun f => { f with regs := f.regs.put _ 0 v t }) _ () _ h
    rw [h']
    exact ⟨rfl, .inl rfl⟩

theorem keeps_capCsr {d : Opnd} {n : Nat} : Keeps (L.capCsr d n) :=
  keeps_bind keeps_csrAllowed fun _ => keeps_bind keeps_checkRegs fun _ => keeps_pure

theorem keeps_perfCsr {n : Nat} {c : Cap} : Keeps (perfCsr n c) := keeps_bind keeps_csrRead fun _ => keeps_pure

/-- A part whose result for one register of the lane has landed: its lane stands, and at most one uniform write is held. -/
theorem landed_one {i : Instr} {h : Hdr} {c : Cap} {perf : L (QWord × BitVec 4)} {d : Opnd} {x z : LS} (hk : Keeps perf)
    (hd : destsOf i c = [d]) (hx : x.unis = []) (hl : Landed i h c perf x z) : z.lane = x.lane ∧ unisAgree z.unis = true := by
  obtain ⟨-, y, v, t, w, hb, hp, hn⟩ := hl
  rw [keeps_behind _ _ _ hb] at hp
  rw [hk _ _ _ hp] at hn
  obtain ⟨hlane, hu⟩ := landNow_one hd hn
  refine ⟨hlane, ?_⟩
  obtain hu | ⟨n, w, hu⟩ := hu
  · rw [hu, hx]; rfl
  · rw [hu, hx]; exact unisAgree_s

/-- A CSR that the level reaches lands at once (R213, log 14). -/
theorem csrr_lands {i : Instr} {h : Hdr} {m : WMode} {d : Opnd} {n : BitVec 12} {s : State} {b : Issue} {t : Team} {l lv : Nat}
    {y z : LS} (hd : destsOf i Cap.zero = [d]) (hs : Solo s b t l h.guard) (hn : readableAt n = some lv)
    (hlv : lv ≤ t.levelAt b.wave l) (hc : Does (L.checkRegs [d]) (b.start s t l) () y)
    (hl : Landed i h Cap.zero (perfCsr n.toNat Cap.zero) y z) :
    longWord i h m (L.capCsr d n.toNat) (perfCsr n.toNat) s = .next (b.complete i s id z) := by
  have hcap : Does (L.capCsr d n.toNat) (b.start s t l) Cap.zero y :=
    does_step (csrAllowed_read ((readableAt_eq n).symm.trans hn) hlv) (does_step hc (does_pure.2 ⟨rfl, rfl⟩))
  obtain ⟨hlane, hu, -⟩ := keeps_capCsr.of_start hcap
  obtain ⟨hz, hag⟩ := landed_one keeps_perfCsr hd hu hl
  exact runWord_solo hs (longBody_landed hcap hl) (hz.trans hlane) hag

/-- A CSRR whose access is refused traps before anything else. -/
theorem csrr_refused {h : Hdr} {d : Opnd} {n : BitVec 12} {s : State} {b : Issue} {t : Team} {l : Nat} {sub : BitVec 8}
    (hs : Solo s b t l h.guard)
    (hc : L.csrAllowed n.toNat true false (b.start s t l) = .error (.trap 0 sub 0 0 s)) :
    exec (.csrr h d n) s = .next (trapAlone s b l 0 sub 0) :=
  runWord_solo_trap hs (bind_of_stops (bind_of_stops hc))

/-- Settles O34: CSRR is a long-latency word whose capture checks the access; what it then reads is the register of the table, or
a half of CYC or TEPC with its latch. -/
theorem csrReads : Obligations.CsrReads := by
  refine ⟨?_, ?_, ?_, ?_, ?_, ?_⟩
  · intro f hf h d n s b t l lv y z hs hn hlv hc hl
    obtain rfl | rfl := hf
    · exact csrr_lands rfl hs hn hlv hc hl
    · exact csrr_lands rfl hs hn hlv hc hl
  · intro h d n s b t l lv hs hn hlv
    exact csrr_refused hs (csrAllowed_low ((readableAt_eq n).symm.trans hn) hlv)
  · intro h d n s b t l hs hn
    exact csrr_refused hs (csrAllowed_none ((readableAt_eq n).symm.trans hn))
  · intro x t p ht hp c hc
    exact csrRead_values ht hp hc
  · intro x t p ht hp
    exact ⟨csrRead_cyc ht hp, csrRead_tepc ht hp⟩
  · intro n hn x t p f v ht hp hf hl
    exact csrRead_latched (by simpa using hn) ht hp hf hl

/-! ### CSRW and CSRX -/

@[simp] theorem keeps_csrRefuse {c : Bool} : Keeps (L.csrRefuse c) := by
  unfold L.csrRefuse
  split <;> simp

@[simp] theorem keeps_writeFenv {v : Word} : Keeps (L.writeFenv v) := keeps_modTeam

@[simp] theorem keeps_writeTepc {hi : Bool} {v : Word} : Keeps (L.writeTepc hi v) := by
  cases hi with
  | true =>
    exact keeps_bind keeps_fibre fun _ => keeps_bind keeps_fibre fun _ => keeps_bind keeps_wave fun _ =>
      keeps_bind keeps_modFibre fun _ => keeps_modWave
  | false => exact keeps_modFibre

@[simp] theorem keeps_writeFltq {v : Word} : Keeps (L.writeFltq v) :=
  keeps_bind keeps_part fun _ => keeps_bind keeps_csrRefuse fun _ => keeps_modPart

@[simp] theorem keeps_writeMstat {v : Word} : Keeps (L.writeMstat v) := keeps_bind keeps_get fun _ => keeps_csrRefuse

@[simp] theorem keeps_writeKeyst {v : Word} : Keeps (L.writeKeyst v) := keeps_bind keeps_csrRefuse fun _ => keeps_modSt

@[simp] theorem keeps_csrWrite {n : Nat} {v : Word} : Keeps (L.csrWrite n v) := by
  unfold L.csrWrite
  repeat' first
    | with_reducible refine keeps_bind ?_ fun _ => ?_
    | split
    | simp

theorem does_csrRefuse {c : Bool} {x : LS} (h : c = false) : Does (L.csrRefuse c) x () x := by
  rw [h]
  exact does_pure.2 ⟨rfl, rfl⟩

/-- A word that writes one CSR: its access is checked, A is read, and the write completes it. -/
theorem csrWord_completes {i : Instr} {h : Hdr} {n : Nat} {a : Opnd} {write : Word → L Unit} {s : State} {b : Issue} {t : Team}
    {l : Nat} {v : Word} {y z : LS} (hs : Solo s b t l h.guard) (hk : Keeps (write v))
    (hr : Does (do L.csrAllowed n false true; L.checkRegs [a]; L.rdW a) (b.start s t l) v y) (hw : Does (write v) y () z) :
    csrWord i h n a write s = .next (b.complete i s id z) := by
  have hpre : Keeps (do L.csrAllowed n false true; L.checkRegs [a]; L.rdW a) :=
    keeps_bind keeps_csrAllowed fun _ => keeps_bind keeps_checkRegs fun _ => keeps_rdW
  have hb : Does ((do L.csrAllowed n false true; L.checkRegs [a]; L.rdW a) >>= write) (b.start s t l) () z := does_step hr hw
  simp only [bind_assoc] at hb
  obtain ⟨hlane, hu, -⟩ := hpre.of_start hr
  rw [hk _ _ _ hw]
  rw [hk _ _ _ hw] at hb
  exact runWord_solo hs hb hlane (by rw [hu]; rfl)

/-- The same for a CSR whose level the lane reaches: A is read, and the write completes the word. -/
theorem csrWord_reached {i : Instr} {h : Hdr} {n k m : Nat} {a : Opnd} {write : Word → L Unit} {s : State} {b : Issue} {t : Team}
    {l : Nat} {v : Word} {y z : LS} (hs : Solo s b t l h.guard) (hk : Keeps (write v)) (hrd : csrReadLevel n = some k)
    (hwr : csrWriteLevel n = some m) (hm : m ≤ t.levelAt b.wave l)
    (hr : Does (do L.checkRegs [a]; L.rdW a) (b.start s t l) v y) (hw : Does (write v) y () z) :
    csrWord i h n a write s = .next (b.complete i s id z) :=
  csrWord_completes hs hk (does_step (csrAllowed_write hrd hwr hm) hr) hw

/-- Reading A leaves the lane's place: its agent, its wave and its lane. -/
theorem place_of_read {a : Opnd} {b : Issue} {s : State} {t : Team} {l : Nat} {v : Word} {y : LS}
    (h : Does (do L.checkRegs [a]; L.rdW a) (b.start s t l) v y) : y.agent = b.agent ∧ y.wave = b.wave ∧ y.lane = l := by
  obtain ⟨hl, -, ha, hw, -⟩ := (keeps_bind keeps_checkRegs fun _ => keeps_rdW).of_start h
  exact ⟨ha, hw, hl⟩

/-- A is read, and then something else of the lane. -/
theorem read_then {β : Type} {a : Opnd} {q : L β} {x y : LS} {v : Word} {f : β}
    (h : Does (do L.checkRegs [a]; let v ← L.rdW a; return (v, ← q)) x (v, f) y) :
    ∃ y', Does (do L.checkRegs [a]; L.rdW a) x v y' ∧ Does q y' f y := by
  obtain ⟨_, y1, hc, h⟩ := does_bind.1 h
  obtain ⟨_, y2, hv, h⟩ := does_bind.1 h
  obtain ⟨_, y3, hq, h⟩ := does_bind.1 h
  obtain ⟨hvf, rfl⟩ := does_pure.1 h
  obtain ⟨rfl, rfl⟩ := Prod.mk.inj hvf
  exact ⟨y2, does_bind.2 ⟨_, y1, hc, hv⟩, hq⟩

/-- CSRX reads A and the old value, writes the CSR, and gives D the old value. -/
theorem csrx_completes {h : Hdr} {d a : Opnd} {n : BitVec 12} {s : State} {b : Issue} {t : Team} {l : Nat} {v old : Word} {y z : LS}
    (hs : Solo s b t l h.guard)
    (hr : Does (do L.csrAllowed n.toNat true true; L.checkRegs [d, a]; return (← L.rdW a, ← L.csrRead n.toNat)) (b.start s t l)
      (v, old) y)
    (hw : Does (do L.csrWrite n.toNat v; L.wrW d old) y () z) : exec (.csrx h d a n) s = .next (b.complete (.csrx h d a n) s id z) := by
  have hpre : Keeps (do L.csrAllowed n.toNat true true; L.checkRegs [d, a]; return (← L.rdW a, ← L.csrRead n.toNat)) :=
    keeps_bind keeps_csrAllowed fun _ => keeps_bind keeps_checkRegs fun _ => keeps_bind keeps_rdW fun _ =>
      keeps_bind keeps_csrRead fun _ => keeps_pure
  have hb := does_step (f := fun u => do L.csrWrite n.toNat u.1; L.wrW d u.2) hr hw
  simp only [bind_assoc, pure_bind] at hb
  obtain ⟨hlane, hu, -⟩ := hpre.of_start hr
  obtain ⟨_, w, hcw, hwd⟩ := does_bind.1 hw
  rw [keeps_csrWrite _ _ _ hcw] at hwd
  obtain ⟨hz, hzu⟩ := wrW_keeps hwd
  refine runWord_solo hs hb (hz.trans hlane) ?_
  obtain hzu | ⟨k, hzu⟩ := hzu
  · rw [hzu, hu]; rfl
  · rw [hzu, hu]; exact unisAgree_s

/-- The high half of TEPC joins the half that the fibre holds (R213). -/
theorem writeTepc_high {x : LS} {f : Fibre} {u v : Word} (hf : Does L.fibre x f x) (hh : f.held.find? (·.1 == 0x108) = some (0x108, u)) :
    Does (L.writeTepc true v) x () { x with
      st := (x.st.updFibre x.agent x.wave x.lane (fun f => { f with held := f.held.filter (·.1 != 0x108) })).updWave x.agent x.wave
        (fun w => { w with tepc := v.extractLsb' 0 20 ++ (u &&& 0xFFFF_FFF8) }) } := by
  have hany : f.held.any (·.1 == 0x108) = true := List.any_eq_true.2 ⟨_, List.mem_of_find?_eq_some hh, rfl⟩
  obtain ⟨t, ht⟩ : ∃ t, Does L.team x t x := by
    have hx := (does_fibre.1 hf).1
    simp only [State.fibre?] at hx
    cases ht : x.st.team? x.agent with
    | none => simp [ht] at hx
    | some t => exact ⟨t, does_team.2 ⟨ht, rfl⟩⟩
  refine does_step hf (does_step hf (does_step (does_wave_of_team ht) (does_step (u := ()) (does_modFibre.2 rfl) ?_)))
  simp only [hh, hany, Bool.not_true, Bool.false_eq_true, if_false]
  exact does_modWave.2 rfl

/-- FLTQ takes a page address while no record is queued or pending (R293). -/
theorem writeFltq_idle {x : LS} {p : Partition} {v : Word} (hp : Does L.part x p x) (hv : v.toNat % 4096 = 0)
    (hc : p.fltCount = 0) (hq : p.pending = []) :
    Does (L.writeFltq v) x () { x with st := x.st.updPart p.id (fun p => { p with fltq := v.setWidth 52 }) } :=
  does_step hp (does_step (does_csrRefuse (by simp [hv, hc, hq])) (does_step hp (does_modSt.2 rfl)))

/-- Settles O35: every word checks the access and reads A, then one write of the CSR completes it. -/
theorem csrWrites : Obligations.CsrWrites := by
  refine ⟨?_, ?_, ?_, ?_, ?_, ?_, ?_, ?_⟩
  · intro h a n s b t l v y z hs hr hw
    exact csrWord_completes hs keeps_csrWrite hr hw
  · intro h d a n s b t l v old y z hs hr hw
    exact csrx_completes hs hr hw
  · intro h a s b t l v y hs hr
    obtain ⟨ha, -, -⟩ := place_of_read hr
    exact csrWord_reached hs keeps_writeFenv rfl rfl (Nat.zero_le _) hr (does_modTeam.2 (by rw [ha]))
  · intro h a s b t l v y hs hlv hr
    obtain ⟨ha, hwv, hl⟩ := place_of_read hr
    exact csrWord_reached hs (keeps_writeTepc (hi := false)) rfl rfl (Nat.pos_of_ne_zero hlv) hr
      (does_modFibre.2 (by rw [ha, hwv, hl]))
  · intro h a s b t l v u f y hs hlv hr hh
    obtain ⟨y', hr, hf⟩ := read_then hr
    obtain ⟨hf, rfl⟩ := does_fibre.1 hf
    obtain ⟨ha, hwv, hl⟩ := place_of_read hr
    have hw := writeTepc_high (v := v) (does_fibre.2 ⟨hf, rfl⟩) hh
    exact csrWord_reached hs (keeps_writeTepc (hi := true)) rfl rfl (Nat.pos_of_ne_zero hlv) hr
      (by simpa only [ha, hwv, hl] using hw)
  · intro h a s b t l v p y hs hlv hr hv hc hq
    obtain ⟨y', hr, hp⟩ := read_then hr
    obtain ⟨hp, rfl⟩ := does_part.1 hp
    exact csrWord_reached hs keeps_writeFltq rfl rfl (Nat.pos_of_ne_zero hlv) hr
      (writeFltq_idle (does_part.2 ⟨hp, rfl⟩) hv hc hq)
  · intro h a s b t l v y hs hlv hr hv
    obtain ⟨ha, -, -⟩ := place_of_read hr
    exact csrWord_reached hs keeps_writeMstat rfl rfl (Nat.pos_of_ne_zero hlv) hr
      (does_step (does_get.2 ⟨rfl, rfl⟩) (does_csrRefuse (by simp [hv, ha])))
  · intro h a s b t l v y hs hlv hr hv
    have hport : ¬ 71 < bits v.toNat 0 7 := by
      simp only [bits, Nat.pow_zero, Nat.div_one]
      omega
    exact csrWord_reached hs keeps_writeKeyst rfl rfl (Nat.le_of_eq hlv.symm) hr
      (does_step (does_csrRefuse (by simp [hport])) (does_modSt.2 rfl))

end Sys2Proof.Machine
end

section
/-! The operand forms (R15, R17, R33, R35, R37): what each reads and writes, for a lane that has its team and its fibre. -/

namespace Sys2Proof.Machine

/-! ### Checks -/

theorem checkG_in {x : LS} {t : Team} {n : Nat} (ht : x.st.team? x.agent = some t) (h : n < t.gWin) :
    Does (L.checkG n) x () x :=
  does_step (does_team.2 ⟨ht, rfl⟩) (by simp [Nat.not_le.2 h])

theorem checkG_out {x : LS} {t : Team} {n : Nat} (ht : x.st.team? x.agent = some t) (h : t.gWin ≤ n) :
    L.checkG n x = .error (.trap 1 1 0 0 x.st) := by
  unfold L.checkG
  rw [bind_of_does (does_team.2 ⟨ht, rfl⟩), if_pos h]
  rfl

theorem checkF_in {x : LS} {t : Team} {n : Nat} (ht : x.st.team? x.agent = some t) (h : n < t.fWin) :
    Does (L.checkF n) x () x :=
  does_step (does_team.2 ⟨ht, rfl⟩) (by simp [Nat.not_le.2 h])

theorem landed_free {x : LS} {t : Team} {o : Opnd} (ht : x.st.team? x.agent = some t) (h : (t.wave x.wave).owes x.lane o = false) :
    Does (L.landed o) x () x := does_landed.2 ⟨⟨t, ht, h⟩, rfl⟩

theorem landed_owed {x : LS} {t : Team} {o : Opnd} (ht : x.st.team? x.agent = some t) (h : (t.wave x.wave).owes x.lane o = true) :
    L.landed o x = .error .interlock := by
  unfold L.landed
  rw [bind_of_does (does_wave_of_team (does_team.2 ⟨ht, rfl⟩)), bind_of_does (does_get.2 ⟨rfl, rfl⟩), if_pos h]
  rfl

/-! ### g, f, i and s registers -/

theorem rdG_reads {x : LS} {t : Team} {f : Fibre} {n : Nat} (ht : x.st.team? x.agent = some t)
    (hf : x.st.fibre? x.agent x.wave x.lane = some f) (ho : (t.wave x.wave).owes x.lane (.g (BitVec.ofNat 6 n)) = false)
    (hn : n < t.gWin) (hb : f.regs.bad.contains (false, n) = false) : Does (L.rdG n) x (vget f.regs.g n) x := by
  refine does_step (checkG_in ht hn) (does_step (landed_free ht ho) (does_step (does_fibre.2 ⟨hf, rfl⟩) ?_))
  simp only [hb, Bool.false_eq_true, if_false]
  exact does_pure.2 ⟨rfl, rfl⟩

theorem wrG_writes {x : LS} {t : Team} {n : Nat} {v : Word} (ht : x.st.team? x.agent = some t)
    (ho : (t.wave x.wave).owes x.lane (.g (BitVec.ofNat 6 n)) = false) (hn : n < t.gWin) :
    Does (L.wrG n v) x () { x with
      st := x.st.updFibre x.agent x.wave x.lane (fun f => { f with
        regs := { f.regs with g := vset f.regs.g n v, bad := f.regs.bad.erase (false, n) } }) } :=
  does_step (checkG_in ht hn) (does_step (landed_free ht ho) (does_modFibre.2 rfl))

theorem rdF_reads {x : LS} {t : Team} {f : Fibre} {n : Nat} (ht : x.st.team? x.agent = some t)
    (hf : x.st.fibre? x.agent x.wave x.lane = some f) (ho : (t.wave x.wave).owes x.lane (.f (BitVec.ofNat 5 n)) = false)
    (hn : n < t.fWin) (hb : f.regs.fBad n = false) : Does (L.rdF n) x (f.regs.fval n, vget f.regs.tag n) x := by
  refine does_step (checkF_in ht hn) (does_step (landed_free ht ho) (does_step (does_fibre.2 ⟨hf, rfl⟩) ?_))
  simp only [hb, Bool.false_eq_true, if_false]
  exact does_pure.2 ⟨rfl, rfl⟩

theorem rdI_reads {x : LS} {t : Team} {f : Fibre} {n : Nat} (ht : x.st.team? x.agent = some t)
    (hf : x.st.fibre? x.agent x.wave x.lane = some f) (ho : (t.wave x.wave).owes x.lane (.i (BitVec.ofNat 2 n)) = false) :
    Does (L.rdI n) x (vget f.regs.ix n) x :=
  does_step (landed_free ht ho) (does_step (does_fibre.2 ⟨hf, rfl⟩) (does_pure.2 ⟨rfl, rfl⟩))

theorem rdS_reads {x : LS} {t : Team} {n : Nat} (ht : x.st.team? x.agent = some t)
    (ho : (t.wave x.wave).owes x.lane (.s (BitVec.ofNat 4 n)) = false) : Does (L.rdS n) x (vget (t.wave x.wave).s n) x :=
  does_step (landed_free ht ho) (does_step (does_wave_of_team (does_team.2 ⟨ht, rfl⟩)) (does_pure.2 ⟨rfl, rfl⟩))

theorem uniS_holds {x : LS} {t : Team} {n : BitVec 4} {v : Word} (ht : x.st.team? x.agent = some t)
    (ho : (t.wave x.wave).owes x.lane (.s n) = false) : Does (L.uni (.s n v)) x () { x with unis := x.unis ++ [.s n v] } :=
  does_step (landed_free ht ho) (does_modify.2 rfl)

/-- The low word of an f register is the same under tag F32, which hides the high one (R19). -/
theorem fval_low (r : Regs) (n : Nat) : (r.fval n).extractLsb' 0 32 = (vget r.f n).extractLsb' 0 32 := by
  unfold Regs.fval
  split
  · apply BitVec.eq_of_toNat_eq
    have hm : (0xFFFF_FFFF : DWord).toNat = 2 ^ 32 - 1 := rfl
    simp only [BitVec.extractLsb'_toNat, BitVec.toNat_and, Nat.shiftRight_zero, hm, Nat.and_two_pow_sub_one_eq_mod, Nat.mod_mod]
  · rfl

/-! ### Operand 127 -/

/-- Whether g[index + k] lies outside the window or the index outside its bound (R17). -/
def idxOut (gWin : Nat) (i : Word) (k : BitVec 6) : Prop :=
  gWin ≤ i.toNat % 2 ^ 16 + k.toNat ∨ i.toNat / 2 ^ 16 ≤ i.toNat % 2 ^ 16

theorem bits_low (i : Word) : bits i.toNat 0 16 = i.toNat % 2 ^ 16 := by simp [bits]

theorem bits_high (i : Word) : bits i.toNat 16 16 = i.toNat / 2 ^ 16 :=
  Nat.mod_eq_of_lt (Nat.div_lt_of_lt_mul i.isLt)

theorem idxReg_in {x : LS} {t : Team} {f : Fibre} {r : BitVec 2} {k : BitVec 6} (ht : x.st.team? x.agent = some t)
    (hf : x.st.fibre? x.agent x.wave x.lane = some f) (ho : (t.wave x.wave).owes x.lane (.i r) = false)
    (h : ¬ idxOut t.gWin (vget f.regs.ix r.toNat) k) :
    Does (L.idxReg r k) x ((vget f.regs.ix r.toNat).toNat % 2 ^ 16 + k.toNat) x := by
  refine does_step (rdI_reads ht hf (by simpa using ho)) (does_step (does_team.2 ⟨ht, rfl⟩) ?_)
  unfold idxOut at h
  rw [bits_low, bits_high, if_neg h]
  exact does_pure.2 ⟨rfl, rfl⟩

theorem idxReg_out {x : LS} {t : Team} {f : Fibre} {r : BitVec 2} {k : BitVec 6} (ht : x.st.team? x.agent = some t)
    (hf : x.st.fibre? x.agent x.wave x.lane = some f) (ho : (t.wave x.wave).owes x.lane (.i r) = false)
    (h : idxOut t.gWin (vget f.regs.ix r.toNat) k) : L.idxReg r k x = .error (.trap 1 2 0 0 x.st) := by
  unfold L.idxReg
  unfold idxOut at h
  rw [bind_of_does (rdI_reads ht hf (by simpa using ho)), bind_of_does (does_team.2 ⟨ht, rfl⟩), bits_low, bits_high, if_pos h]
  rfl

/-! ### The words of two sources -/

/-- A word of two sources reads both and writes the result of its table (R107, R108). -/
theorem exec_twoSources : ∀ p ∈ twoSources, ∀ (h : Hdr) (d a c : Opnd) (s : State),
    exec (p.1 h d a c) s = twoWord (p.1 h d a c) h p.2 d a c s := by
  intro p hp h d a c s
  simp only [twoSources, List.mem_cons, List.not_mem_nil, or_false] at hp
  rcases hp with rfl | rfl | rfl | rfl | rfl | rfl | rfl | rfl | rfl | rfl | rfl | rfl | rfl | rfl | rfl | rfl | rfl | rfl <;> rfl

/-- What the checks and the two reads of such a word stop at, the word stops at. -/
theorem two_stops {f : Word → Word → Word} {d a c : Opnd} {x : LS} {e : Stop}
    (h : (do L.check 1 [a, c] [d]; return (← L.rdW a, ← L.rdW c)) x = .error e) : L.two f d a c x = .error e := by
  have hb := bind_of_stops (f := fun u => L.wrW d (f u.1 u.2)) h
  simp only [bind_assoc, pure_bind] at hb
  exact hb

/-- A lane that fails the guard moves on, and nothing else of the word happens (R28). -/
theorem runWord_skips {i : Instr} {g : Option Guard} {m : WMode} {body : Bool → L Unit} {s : State} {b : Issue} {t : Team} {l : Nat}
    (hc : s.cur = some b) (ht : s.team? b.agent = some t) (hL : b.lanes = [l]) (hT : b.todo = [l]) (hw : guardOut g t = false)
    (hk : ((t.wave b.wave).stuck.filter (·.isOf b)).flatMap (·.unis) = []) (ho : guardOwed g (t.wave b.wave) [l] = false)
    (hp : guardPass g (t.regsAt b.wave l) = false) :
    runWord i g m (fun _ => id) body s = .next (b.complete i s id (b.start (s.guardRead b t g) t l)) := by
  have he : b.lanes.filter (fun l => guardPass g (t.regsAt b.wave l)) = [] := by simp [hL, hp]
  have hd : guardedOut b [] = [⟨l, b.pc + 8, false, none⟩] := by simp [guardedOut, hT]
  have hf : [l].filter ([] : List Nat).contains = [] := by simp
  have hr (x : State) (d : List LaneDone) : (if !(Run.start x d []).later.isEmpty && !(Run.start x d []).parks.isEmpty then
      Run.start x d [] else Run.start x d []) = Run.start x d [] := ite_self _
  simp only [runWord, hc, ht, hT, hw, ho, Bool.false_eq_true, if_false, runBatch, he, hd, hk, hf, runLanes, List.foldl_nil, hr]
  rw [finishWord_done rfl rfl rfl rfl rfl rfl]
  rfl

/-! ### The forms -/

/-- A register that still waits for a result is neither read nor written (R42, logs 14, 104). -/
theorem g_owed {x : LS} {t : Team} {n : BitVec 6} (ht : x.st.team? x.agent = some t) (hn : n.toNat < t.gWin)
    (ho : (t.wave x.wave).owes x.lane (.g n) = true) :
    L.rdW (.g n) x = .error .interlock ∧ ∀ v, L.wrW (.g n) v x = .error .interlock := by
  have hl : L.landed (.g (BitVec.ofNat 6 n.toNat)) x = .error .interlock := landed_owed ht (by simpa using ho)
  refine ⟨?_, fun v => ?_⟩
  · exact (bind_of_does (checkG_in ht hn)).trans (bind_of_stops hl)
  · exact (bind_of_does (checkG_in ht hn)).trans (bind_of_stops hl)

/-- A register at or above the window is REG WINDOW, read or written (R17). -/
theorem g_outside {x : LS} {t : Team} {n : BitVec 6} (ht : x.st.team? x.agent = some t) (hn : t.gWin ≤ n.toNat) :
    L.rdW (.g n) x = .error (.trap 1 1 0 0 x.st) ∧ ∀ v, L.wrW (.g n) v x = .error (.trap 1 1 0 0 x.st) :=
  ⟨bind_of_stops (checkG_out ht hn), fun _ => bind_of_stops (checkG_out ht hn)⟩

theorem rdW_f {x : LS} {t : Team} {f : Fibre} {n : BitVec 5} (ht : x.st.team? x.agent = some t)
    (hf : x.st.fibre? x.agent x.wave x.lane = some f) (ho : (t.wave x.wave).owes x.lane (.f n) = false)
    (hn : n.toNat < t.fWin) (hb : f.regs.fBad n.toNat = false) :
    Does (L.rdW (.f n)) x ((vget f.regs.f n.toNat).extractLsb' 0 32) x :=
  does_step (rdF_reads ht hf (by simpa using ho) hn hb) (does_pure.2 ⟨(fval_low _ _).symm, rfl⟩)

theorem rdW_a {x : LS} {t : Team} {n : BitVec 3} (ht : x.st.team? x.agent = some t) :
    Does (L.rdW (.a n)) x ((vget (t.wave x.wave).a n.toNat).1 + (vget (t.wave x.wave).a n.toNat).2 * BitVec.ofNat 32 x.lane) x :=
  does_step (does_wave_of_team (does_team.2 ⟨ht, rfl⟩)) (does_step (does_get.2 ⟨rfl, rfl⟩) (does_pure.2 ⟨rfl, rfl⟩))

theorem rdW_lid {x : LS} : Does (L.rdW .lid) x (BitVec.ofNat 32 x.lane) x :=
  does_step (does_get.2 ⟨rfl, rfl⟩) (does_pure.2 ⟨rfl, rfl⟩)

/-- Operand 127 reads the register that its index names, or is REG INDEX (R17). -/
theorem rdW_idx {x : LS} {t : Team} {f : Fibre} {r : BitVec 2} {k : BitVec 6} (ht : x.st.team? x.agent = some t)
    (hf : x.st.fibre? x.agent x.wave x.lane = some f) (ho : ∀ o, (t.wave x.wave).owes x.lane o = false)
    (h : ¬ idxOut t.gWin (vget f.regs.ix r.toNat) k)
    (hb : f.regs.bad.contains (false, (vget f.regs.ix r.toNat).toNat % 2 ^ 16 + k.toNat) = false) :
    Does (L.rdW (.idx r k)) x (vget f.regs.g ((vget f.regs.ix r.toNat).toNat % 2 ^ 16 + k.toNat)) x :=
  does_step (idxReg_in ht hf (ho _) h) (rdG_reads ht hf (ho _) (by unfold idxOut at h; omega) hb)

/-- Settles O58: every form goes through the check of its register's pending result and its window; a lane that fails its guard
takes no part in the word, and a word whose operand waits for a result does not issue. -/
theorem operandForms : Obligations.OperandForms := by
  refine ⟨?_, ?_, ?_⟩
  · intro x t f ht hf'
    have hf : x.st.fibre? x.agent x.wave x.lane = some f := by simp only [State.fibre?, ht, hf']
    refine ⟨fun n hn ho => g_owed ht hn ho, fun ho => ⟨?_, ?_, ?_, ?_, ?_, ?_, ?_, ?_, ?_, ?_, ?_, ?_, ?_⟩⟩
    · exact fun n hn hb => rdG_reads ht hf (ho _) hn hb
    · exact fun n hn => g_outside ht hn
    · exact fun n hn hb => rdW_f ht hf (ho _) hn hb
    · exact fun n => rdW_a ht
    · exact fun n => rdS_reads ht (ho _)
    · exact fun n => rdI_reads ht hf (ho _)
    · exact does_pure.2 ⟨rfl, rfl⟩
    · exact rdW_lid
    · exact fun m => does_pure.2 ⟨rfl, rfl⟩
    · rintro r k n rfl
      refine ⟨fun hw hi hb => rdW_idx ht hf ho (by unfold idxOut; omega) hb, fun hout => ?_⟩
      exact bind_of_stops (idxReg_out ht hf (ho _) hout)
    · exact fun n v hn => wrG_writes ht (ho _) hn
    · exact fun n v => uniS_holds ht (ho _)
    · exact fun v => does_pure.2 ⟨rfl, rfl⟩
  · intro p hp h d a c s b t l hc ht hL hT hw hk ho hg
    rw [exec_twoSources p hp]
    exact runWord_skips hc ht hL hT hw hk ho hg
  · intro p hp h d a c s b t l hs he
    rw [exec_twoSources p hp]
    exact runWord_solo_interlock hs (two_stops he)

end Sys2Proof.Machine
end

section
/-! The frame of a completed word (R12, R42): a result that lands with it may consume poison, which another field of the team
notes. -/

namespace Sys2Proof.Machine

/-- A load of g3 by lane 0, performed; its window is one word long, and an operand value that it captured is poisoned where it is
kept (R412, R414). -/
def poisonedLoad : Entry :=
  ⟨0, .ld ⟨none, 1⟩ (.g 3) .w ⟨false, .g 2, none, 0⟩, 0x0FF8, [⟨0, Cap.zero, Cap.zero, 1, 0, true, 0, 0, 0⟩], [], [0], false, [0]⟩

/-- A team of one fibre whose wave has that load unfinished. -/
def landingTeam : Team :=
  let t := Team.start 0 0 ⟨0x1000, 0, 0, 0, ⟨none, none, none, none⟩, 0, 0, false, false, false, none⟩ ⟨1, 64, 32, 16, 8, false⟩
    ⟨[0], 0⟩ 0 0
  t.updWave 0 (fun w => { w with unfinished := [poisonedLoad] })

/-- Its one fibre issues alone. -/
def landingBatch : Issue := ⟨0, 0, 0x1000, [0], [0], []⟩
def landingState : State := { State.reset with teams := [landingTeam], cur := some landingBatch }

theorem landing_solo : Solo landingState landingBatch landingTeam 0 none :=
  ⟨rfl, rfl, rfl, rfl, rfl, rfl, by decide +kernel, rfl, rfl⟩

/-- The word after the load takes it out of its window; the result lands and CHKI notes the poison that it consumes. -/
theorem landing_notes_poison :
    ((landingBatch.complete .nop landingState id (landingBatch.start landingState landingTeam 0)).team? 0).map (·.chki) = some 8 := by
  decide +kernel

/-- Refutes O57: no other field of the team is to change, but when an earlier result of the wave lands as the word completes, and
values it captured are poisoned, CHKI of the team takes its REG bit (R414). -/
theorem not_wordFrame : ¬ Obligations.WordFrame := by
  intro h
  obtain ⟨-, -, -, v, hv, hu, -⟩ := h .nop landingState landingBatch landingTeam 0 none
    (landingBatch.start landingState landingTeam 0) landingTeam (Fibre.start false 0x1000 0) landing_solo rfl rfl rfl (by decide)
  have hc := landing_notes_poison
  have hv' : (landingBatch.complete .nop landingState id (landingBatch.start landingState landingTeam 0)).team? 0 = some v := hv
  have hu' := congrArg Team.chki hu
  have hsame : v.chki = landingTeam.chki := hu'
  rw [hv', Option.map_some, hsame] at hc
  exact absurd hc (by decide)

end Sys2Proof.Machine
end

section
/-! A word of several lanes (R12, R18, R106): what the lanes that have had their turn leave, and how the word ends. -/

namespace Sys2Proof.Machine

/-- What holds of the lanes that have had their turn, after each turn, holds of all. -/
theorem foldl_lanes {β : Type} {F : β → Nat → β} {P : List Nat → β → Prop} {all : List Nat} {q : β} (hd : all.Nodup) (h0 : P [] q)
    (hs : ∀ (ds : List Nat) (l : Nat) (q : β), l ∈ all → l ∉ ds → P ds q → P (ds ++ [l]) (F q l)) : P all (all.foldl F q) := by
  suffices h : ∀ (rest ds : List Nat) (q : β), ds ++ rest = all → P ds q → P all (rest.foldl F q) from h all [] q rfl h0
  intro rest
  induction rest with
  | nil =>
    rintro ds q rfl h
    simpa using h
  | cons l rest ih =>
    intro ds q he h
    have hl : l ∉ ds := fun hl => by
      rw [← he] at hd
      exact (List.nodup_append.1 hd).2.2 l hl l (by simp) rfl
    exact ih (ds ++ [l]) (F q l) (by simpa using he) (hs ds l q (by simp [← he]) hl h)

/-! ### Lanes that have changed their own fibres -/

theorem slot_inj {t : Team} {wv j l : Nat} (h : t.slot wv j = t.slot wv l) : j = l := Nat.add_left_cancel h

theorem vset_vget {α : Type} {n : Nat} [Inhabited α] (v : Vector α n) (k : Nat) : vset v k (vget v k) = v := by
  apply Vector.ext
  intro i hi
  by_cases hk : k = i
  · subst hk
    simp [vset, vget, hi]
  · simp [vset, hk]

theorem updFirst_same {α : Type} {p : α → Bool} {f : α → α} {l : List α} (h : ∀ x, l.find? p = some x → f x = x) :
    updFirst p f l = l := by
  induction l with
  | nil => rfl
  | cons x l ih =>
    simp only [updFirst]
    split
    · rename_i hp
      rw [h x (by simp [hp])]
    · rename_i hp
      rw [ih fun y hy => h y (by simpa [hp] using hy)]

theorem team?_updWave {s : State} {a : AgentId} {wv : Nat} {t : Team} {f : Wave → Wave} (ht : s.team? a = some t) :
    (s.updWave a wv f).team? a = some (t.updWave wv f) := by
  rw [State.updWave, team?_updTeam_same s a (fun t => t.updWave wv f) (fun _ => rfl), ht, Option.map_some]

theorem team?_updFibre {s : State} {a : AgentId} {wv l : Nat} {t : Team} {f : Fibre → Fibre} (ht : s.team? a = some t) :
    (s.updFibre a wv l f).team? a = some (t.updFibre (t.slot wv l) f) := by
  rw [State.updFibre, team?_updTeam_same s a (fun t => t.updFibre (t.slot wv l) f) (fun _ => rfl), ht, Option.map_some]

/-- An update that leaves the wave as it is changes nothing. -/
theorem updWave_same {s : State} {a : AgentId} {wv : Nat} {t : Team} {f : Wave → Wave} (ht : s.team? a = some t)
    (h : f (t.wave wv) = t.wave wv) : s.updWave a wv f = s := by
  have hu : updFirst (·.agent == a) (fun t => t.updWave wv f) s.teams = s.teams := by
    apply updFirst_same
    intro x hx
    obtain rfl : t = x := Option.some.inj (ht.symm.trans hx)
    have hv : f (vget t.waves wv) = vget t.waves wv := h
    simp only [Team.updWave, hv, vset_vget]
  simp only [State.updWave, State.updTeam, hu]

/-- `s'` is `s` but for the fibres of the lanes `ls` of a wave, each changed by `w`; `u` is then the team. -/
structure Touched (s : State) (a : AgentId) (wv : Nat) (t : Team) (w : Nat → Fibre → Fibre) (ls : List Nat) (s' : State)
    (u : Team) : Prop where
  team : s'.team? a = some u
  rest : u = { t with fibres := u.fibres }
  cores : s'.cores = s.cores
  tick : s'.tick = s.tick
  fibre : ∀ l, u.fibre? (t.slot wv l) = if l ∈ ls then (t.fibre? (t.slot wv l)).map (w l) else t.fibre? (t.slot wv l)

section
variable {s s' : State} {a : AgentId} {wv : Nat} {t u : Team} {w : Nat → Fibre → Fibre} {ls : List Nat}

theorem Touched.none (h : s.team? a = some t) : Touched s a wv t w [] s t := ⟨h, rfl, rfl, rfl, fun l => by simp⟩

theorem Touched.work (h : Touched s a wv t w ls s' u) : u.work = t.work := by rw [h.rest]
theorem Touched.gWin (h : Touched s a wv t w ls s' u) : u.gWin = t.gWin := by rw [h.rest]
theorem Touched.chki (h : Touched s a wv t w ls s' u) : u.chki = t.chki := by rw [h.rest]
theorem Touched.waves (h : Touched s a wv t w ls s' u) : u.waves = t.waves := by rw [h.rest]
theorem Touched.wave (h : Touched s a wv t w ls s' u) (k : Nat) : u.wave k = t.wave k := congrArg (vget · k) h.waves
theorem Touched.slot (h : Touched s a wv t w ls s' u) (k l : Nat) : u.slot k l = t.slot k l := by
  simp only [Team.slot, Team.width, h.work]

/-- One more lane. -/
theorem Touched.step (h : Touched s a wv t w ls s' u) {l : Nat} (hl : l ∉ ls) :
    Touched s a wv t w (ls ++ [l]) (s'.updFibre a wv l (w l)) (u.updFibre (u.slot wv l) (w l)) where
  team := team?_updFibre h.team
  rest := congrArg (fun v : Team => { v with fibres := (u.updFibre (u.slot wv l) (w l)).fibres }) h.rest
  cores := h.cores
  tick := h.tick
  fibre := fun j => by
    by_cases hj : j = l
    · subst hj
      rw [h.slot, fibre?_updFibre_same, h.fibre]
      simp [hl]
    · rw [h.slot, fibre?_updFibre_ne _ _ _ _ (fun e => hj (slot_inj e)), h.fibre]
      simp [hj]

theorem Touched.updWave (h : Touched s a wv t w ls s' u) {f : Wave → Wave} (hf : f (t.wave wv) = t.wave wv) :
    Touched s a wv t w ls (s'.updWave a wv f) u := by
  rw [updWave_same h.team (by rw [h.wave, hf])]
  exact h

/-- Every lane of a list, one after the other. -/
theorem Touched.foldl {F : State → Nat → State} (ht : s.team? a = some t) (hd : ls.Nodup)
    (hF : ∀ (ds : List Nat) (l : Nat) (s' : State) (u : Team), l ∉ ds → Touched s a wv t w ds s' u →
      ∃ u', Touched s a wv t w (ds ++ [l]) (F s' l) u') : ∃ u, Touched s a wv t w ls (ls.foldl F s) u :=
  foldl_lanes (P := fun ds s' => ∃ u, Touched s a wv t w ds s' u) hd ⟨t, .none ht⟩
    fun ds l s' _ hl ⟨u, h⟩ => hF ds l s' u hl h

end

/-! ### How the lanes are done -/

/-- What being done leaves of a fibre: it goes on at the next word. -/
def Fibre.goesOn (f : Fibre) (pc : Addr) (tick : Nat) : Fibre := { f with pc := pc, st := .run, grp := tick * 2048 }

theorem passWindows_same {w : Wave} {l : Nat} {c : Bool} (h : w.unfinished = []) : w.passWindows l c = w := by
  simp [Wave.passWindows, h]
  rw [← h]

/-- Lanes of a wave with no unfinished word are done: their fibres go on, and nothing else changes. -/
theorem laneDones_touch {s : State} {a : AgentId} {wv : Nat} {t : Team} {ls : List Nat} {pc : Addr} (ht : s.team? a = some t)
    (hu : (t.wave wv).unfinished = []) (hd : ls.Nodup) :
    ∃ u, Touched s a wv t (fun _ f => f.goesOn pc s.tick) ls
      ((ls.map (fun l => (⟨l, pc, false, none⟩ : LaneDone))).foldl (fun s d => s.laneDone a wv d) s) u := by
  rw [List.foldl_map]
  refine Touched.foldl ht hd fun ds l s' u hl h => ?_
  have h' := (h.step hl).updWave (f := fun w => w.passWindows l false) (passWindows_same hu)
  simp only [State.laneDone, h.tick]
  exact ⟨_, h'⟩

/-- A batch that is not blocked has nothing to be freed from. -/
theorem unstick_touch {s : State} {b : Issue} {t : Team} (ht : s.team? b.agent = some t) (hd : b.lanes.Nodup) :
    ∃ u, Touched s b.agent b.wave t (fun _ f => if f.st == .stuck then { f with st := .run, grp := s.tick * 2048 } else f) b.lanes
      (s.unstick b) u := by
  refine Touched.foldl ht hd fun ds l s' u hl h => ?_
  have h' := h.step hl
  simp only [h.tick]
  exact ⟨_, h'⟩

/-- With no unfinished word nothing lands. -/
theorem landReady_same {s : State} {a : AgentId} {wv : Nat} {t : Team} (ht : s.team? a = some t)
    (hu : (t.wave wv).unfinished = []) : s.landReady a wv = s := by
  simp only [State.landReady, State.wave?, ht, Option.map_some, hu, landList]
  exact updWave_same ht (by rw [← hu])

@[simp] theorem applyUni_unfinished (w : Wave) (u : Uni) : (w.applyUni u).unfinished = w.unfinished := by cases u <;> rfl

theorem foldl_applyUni_unfinished (l : List Uni) (w : Wave) : (l.foldl Wave.applyUni w).unfinished = w.unfinished := by
  induction l generalizing w with
  | nil => rfl
  | cons u l ih => rw [List.foldl_cons, ih, applyUni_unfinished]

/-- The lanes of a batch are all done, in a wave with no unfinished word, and leave none: the uniform writes stand, and each
lane goes on at the next word with the registers that it has. -/
theorem completed_lanes {s : State} {i : Instr} {b : Issue} {t : Team} {id : Nat} {r : Run} {pc : Addr}
    (ht : s.team? b.agent = some t) (hw : b.wave < 32) (hu : (t.wave b.wave).unfinished = []) (hd : b.lanes.Nodup)
    (hdones : r.dones = b.lanes.map (fun l => ⟨l, pc, false, none⟩)) (hrecs : r.recs = []) :
    ∃ v, ({ ((s.retire i b id r).unstick b).landReady b.agent b.wave with cur := none } : State).team? b.agent = some v ∧
      (v.wave b.wave).s = (r.unis.foldl Wave.applyUni (t.wave b.wave)).s ∧
      ∀ l ∈ b.lanes, v.slot b.wave l = t.slot b.wave l ∧
        v.fibre? (t.slot b.wave l) = (t.fibre? (t.slot b.wave l)).map (·.goesOn pc s.tick) := by
  have ht1 := team?_updWave (wv := b.wave) (f := fun w => r.unis.foldl Wave.applyUni w) ht
  have hw1 := wave_updWave_same t b.wave (fun w => r.unis.foldl Wave.applyUni w) hw
  have hu1 : ((t.updWave b.wave (fun w => r.unis.foldl Wave.applyUni w)).wave b.wave).unfinished = [] := by
    rw [hw1, foldl_applyUni_unfinished, hu]
  obtain ⟨t2, h2⟩ := laneDones_touch (pc := pc) ht1 hu1 hd
  have ht3 := team?_updWave (wv := b.wave) (f := fun w => { w with stuck := w.stuck.filter (fun k => !k.isOf b) }) h2.team
  obtain ⟨t4, h4⟩ := unstick_touch ht3 hd
  have hretire : s.retire i b id r = ((b.lanes.map (fun l => (⟨l, pc, false, none⟩ : LaneDone))).foldl
      (fun s d => s.laneDone b.agent b.wave d) (s.updWave b.agent b.wave (fun w => r.unis.foldl Wave.applyUni w))).updWave
        b.agent b.wave (fun w => { w with stuck := w.stuck.filter (fun k => !k.isOf b) }) := by
    simp [State.retire, hdones, hrecs]
  rw [hretire, landReady_same h4.team (by rw [h4.wave, wave_updWave_same _ _ _ hw, h2.wave, hu1])]
  refine ⟨t4, h4.team, ?_, fun l hl => ⟨?_, ?_⟩⟩
  · rw [h4.wave, wave_updWave_same _ _ _ hw, h2.wave, hw1]
  · rw [h4.slot]
    exact h2.slot _ _
  · have hs3 : (t2.updWave b.wave (fun w => { w with stuck := w.stuck.filter (fun k => !k.isOf b) })).slot b.wave l =
        t.slot b.wave l := h2.slot _ _
    have h4f := h4.fibre l
    have h2f := h2.fibre l
    rw [hs3, if_pos hl] at h4f
    rw [if_pos hl] at h2f
    rw [h4f]
    show Option.map _ (t2.fibre? (t.slot b.wave l)) = _
    rw [show t2.fibre? (t.slot b.wave l) = _ from h2f, Option.map_map]
    rfl

/-! ### The turns of the lanes -/

/-- A word of several lanes without a guard, of which none parks: every lane of the batch has its turn. -/
theorem runWord_together {i : Instr} {m : WMode} {after : Issue → State → State} {body : Bool → L Unit} {s : State} {b : Issue}
    {t : Team} {fib : Nat → Fibre} {r : Run} (h : Together s b t fib)
    (hr : b.lanes.foldl (runLane (guarded none body) m.inOrder (if m == .each then b.later else []) (b.lanes0 s t b.lanes))
      (Run.start s [] []) = r) (hp : r.parks = []) :
    runWord i none m after body s = .next (finishWord i b (t.liveLanes b.wave) b.lanes s m (after b) r) := by
  obtain ⟨hc, ht, -, hT, -, -, -, -, hk, -⟩ := h
  have he : b.lanes.filter (fun l => guardPass none (t.regsAt b.wave l)) = b.lanes := List.filter_eq_self.2 fun _ _ => rfl
  have hd : guardedOut b b.lanes = [] := by simp [guardedOut, hT]
  have hf : b.lanes.filter b.lanes.contains = b.lanes := List.filter_eq_self.2 fun _ hl => by simpa using hl
  have hs : s.guardRead b t none = s := rfl
  simp only [runWord, hc, ht, guardOut, guardOwed, Bool.false_eq_true, if_false, runBatch, he, hs, hd, hk, hT, hf, runLanes, hr,
    hp, List.isEmpty_nil, Bool.not_true, Bool.and_false]

/-! ### How the word ends -/

/-- No lane traps, but the uniform check fails: every lane of the word calls UNIFORM (R106). -/
theorem finishWord_uniform {i : Instr} {b : Issue} {live execs : List Nat} {s : State} {m : WMode} {after : State → State}
    {dones : List LaneDone} {unis : List Uni} {sub : BitVec 8} (he : execs ≠ []) (hu : uniFault live execs unis = some sub) :
    finishWord i b live execs s m after (Run.start s dones unis) =
      s.enterHandler b.agent b.wave b.pc (execs.map (fun l => ⟨l, 11, sub, 0, 0⟩)) execs b.todo none := by
  simp [finishWord, Run.start, hu, Run.allTraps, trapAll, he]

theorem uniFault_partial {live execs : List Nat} {u : List Uni} (hu : u ≠ []) (h : ∃ l ∈ live, l ∉ execs) :
    uniFault live execs u = some 1 := by
  have hall : live.all execs.contains = false := by simpa using h
  simp [uniFault, hu, hall]

theorem uniFault_diverge {live execs : List Nat} {u : List Uni} (h : ∀ l ∈ live, l ∈ execs)
    (hd : ∃ x ∈ u, ∃ y ∈ u, uniClash x y = true) : uniFault live execs u = some 2 := by
  have hall : live.all execs.contains = true := by simpa using h
  have hany : u.any (fun x => u.any (uniClash x)) = true := by simpa using hd
  obtain ⟨x, hx, -⟩ := hd
  simp [uniFault, List.ne_nil_of_mem hx, hall, hany]

theorem uniFault_agree {live execs : List Nat} {u : List Uni} (h : ∀ l ∈ live, l ∈ execs) (ha : unisAgree u = true) :
    uniFault live execs u = none := by
  have hall : live.all execs.contains = true := by simpa using h
  simp only [unisAgree, Bool.not_eq_true'] at ha
  simp [uniFault, hall, ha]

@[simp] theorem uniFault_nil {live execs : List Nat} : uniFault live execs [] = none := rfl

/-! ### The part of a lane in an integer word of two sources -/

/-- A lane's place, as its part of the word sees it: its team, its fibre, and no result outstanding (R42). -/
structure Ready (x : LS) (t : Team) (f : Fibre) : Prop where
  team : x.st.team? x.agent = some t
  fibre : x.st.fibre? x.agent x.wave x.lane = some f
  owes : ∀ o, (t.wave x.wave).owes x.lane o = false
  clean : f.regs.bad = []

theorem Ready.rdG {x : LS} {t : Team} {f : Fibre} {n : Nat} (h : Ready x t f) (hn : n < t.gWin) :
    Does (L.rdG n) x (vget f.regs.g n) x := rdG_reads h.team h.fibre (h.owes _) hn (by simp [h.clean])

/-- Operand 127 outside its bound traps before anything else. -/
theorem two_idx_out {g : Word → Word → Word} {x : LS} {t : Team} {f : Fibre} {n m k : BitVec 6} {r : BitVec 2} (h : Ready x t f)
    (ho : idxOut t.gWin (vget f.regs.ix r.toNat) k) :
    L.two g (.g n) (.idx r k) (.g m) x = .error (.trap 1 2 0 0 x.st) := by
  have hreg : L.checkReg (.idx r k) x = .error (.trap 1 2 0 0 x.st) := map_of_stops (idxReg_out h.team h.fibre (h.owes _) ho)
  exact bind_of_stops (bind_of_stops (bind_of_stops hreg))

/-- What such a word writes: g n of the lane's fibre. -/
def Fibre.putG (f : Fibre) (n : Nat) (v : Word) : Fibre :=
  { f with regs := { f.regs with g := vset f.regs.g n v, bad := f.regs.bad.erase (false, n) } }

theorem two_idx_in {g : Word → Word → Word} {x : LS} {t : Team} {f : Fibre} {n m k : BitVec 6} {r : BitVec 2} (h : Ready x t f)
    (ho : ¬ idxOut t.gWin (vget f.regs.ix r.toNat) k) (hn : n.toNat < t.gWin) (hm : m.toNat < t.gWin) :
    Does (L.two g (.g n) (.idx r k) (.g m)) x () { x with st := x.st.updFibre x.agent x.wave x.lane (fun y => y.putG n.toNat
      (g (vget f.regs.g ((vget f.regs.ix r.toNat).toNat % 2 ^ 16 + k.toNat)) (vget f.regs.g m.toNat))) } := by
  have hreg : Does (L.checkReg (.idx r k)) x () x := does_map.2 ⟨_, idxReg_in h.team h.fibre (h.owes _) ho, rfl⟩
  have hregs : Does (L.checkRegs [.idx r k, .g m, .g n]) x () x :=
    does_step hreg (does_step (checkG_in h.team hm) (does_step (checkG_in h.team hn) (does_pure.2 ⟨rfl, rfl⟩)))
  have hcheck : Does (L.check 1 [.idx r k, .g m] [.g n]) x () x := does_step hregs (does_pure.2 ⟨rfl, rfl⟩)
  exact does_step hcheck (does_step (rdW_idx h.team h.fibre h.owes ho (by simp [h.clean])) (does_step (h.rdG hm)
    (wrG_writes h.team (h.owes _) hn)))

theorem two_s {g : Word → Word → Word} {x : LS} {t : Team} {f : Fibre} {k m : BitVec 6} {q : BitVec 4} (h : Ready x t f)
    (hk : k.toNat < t.gWin) (hm : m.toNat < t.gWin) :
    Does (L.two g (.s q) (.g k) (.g m)) x () { x with
      unis := x.unis ++ [.s q (g (vget f.regs.g k.toNat) (vget f.regs.g m.toNat))] } := by
  have hregs : Does (L.checkRegs [.g k, .g m, .s q]) x () x :=
    does_step (checkG_in h.team hk) (does_step (checkG_in h.team hm) (does_step (does_pure.2 ⟨rfl, rfl⟩) (does_pure.2 ⟨rfl, rfl⟩)))
  have hcheck : Does (L.check 1 [.g k, .g m] [.s q]) x () x := does_step hregs (does_pure.2 ⟨rfl, rfl⟩)
  exact does_step hcheck (does_step (h.rdG hk) (does_step (h.rdG hm) (uniS_holds h.team (h.owes _))))

/-! ### All lanes of the batch -/

section
variable {s : State} {b : Issue} {t : Team} {fib : Nat → Fibre}

theorem Together.team (h : Together s b t fib) : s.team? b.agent = some t := by
  obtain ⟨-, ht, -⟩ := h
  exact ht
theorem Together.nodup (h : Together s b t fib) : b.lanes.Nodup := by
  obtain ⟨-, -, -, -, hd, -⟩ := h
  exact hd
theorem Together.owes (h : Together s b t fib) (l : Nat) (o : Opnd) : (t.wave b.wave).owes l o = false := by
  obtain ⟨-, -, -, -, -, -, -, hu, -⟩ := h
  simp [Wave.owes, hu]
theorem Together.fibre (h : Together s b t fib) {l : Nat} (hl : l ∈ b.lanes) :
    t.fibre? (t.slot b.wave l) = some (fib l) ∧ (fib l).regs.bad = [] := by
  obtain ⟨-, -, -, -, -, -, -, -, -, hf⟩ := h
  exact hf l hl

/-- A lane whose turn has not come finds its fibre as it was before the word. -/
theorem Together.ready (h : Together s b t fib) {r : Run} {u : Team} {w : Nat → Fibre → Fibre} {ds : List Nat} {l : Nat}
    (ht : Touched s b.agent b.wave t w ds r.st u) (hl : l ∈ b.lanes) (hd : l ∉ ds) :
    Ready (r.turn (b.lanes0 s t b.lanes) l) u (fib l) := by
  obtain ⟨hf, hb⟩ := h.fibre hl
  refine ⟨ht.team, ?_, fun o => ?_, hb⟩
  · show r.st.fibre? b.agent b.wave l = _
    simp only [State.fibre?, ht.team, ht.slot]
    rw [ht.fibre, if_neg hd, hf]
  · show (u.wave b.wave).owes l o = false
    rw [ht.wave, h.owes]

/-- That lane's part of a word without a guard, outside yoke mode. -/
theorem Together.runPair_eq (h : Together s b t fib) {r : Run} {u : Team} {w : Nat → Fibre → Fibre} {ds : List Nat} {l : Nat}
    {body : L Unit} (ht : Touched s b.agent b.wave t w ds r.st u) :
    runPair (guarded none (fun _ => body)) (r.turn (b.lanes0 s t b.lanes) l) = (body (r.turn (b.lanes0 s t b.lanes) l)).map (·.2) := by
  obtain ⟨-, -, hy, -⟩ := h
  have hu : u.work.yoke = false := by rw [ht.work, hy]
  have htm : (r.turn (b.lanes0 s t b.lanes) l).st.team? (r.turn (b.lanes0 s t b.lanes) l).agent = some u := ht.team
  simp [runPair, htm, hu, guarded]

end

/-! ### D a g register, A operand 127 -/

section
variable {s : State} {b : Issue} {t : Team} {fib : Nat → Fibre}

/-- Whether a lane's g[index + k] lies outside the window or the bound, as `idxOuts` has it (R17). -/
def laneOut (t : Team) (fib : Nat → Fibre) (r : BitVec 2) (k : BitVec 6) (l : Nat) : Bool :=
  let x := (vget (fib l).regs.ix r.toNat).toNat
  t.gWin ≤ x % 2 ^ 16 + k.toNat || x / 2 ^ 16 ≤ x % 2 ^ 16

theorem laneOut_iff {r : BitVec 2} {k : BitVec 6} {l : Nat} :
    laneOut t fib r k l = true ↔ idxOut t.gWin (vget (fib l).regs.ix r.toNat) k := by simp [laneOut, idxOut]

/-- The value that operand 127 of a lane and g m give. -/
def idxVal (fib : Nat → Fibre) (g : Word → Word → Word) (r : BitVec 2) (k m : BitVec 6) (l : Nat) : Word :=
  g (vget (fib l).regs.g ((vget (fib l).regs.ix r.toNat).toNat % 2 ^ 16 + k.toNat)) (vget (fib l).regs.g m.toNat)

/-- A lane whose part is done. -/
def laneEnd (b : Issue) (l : Nat) : LaneDone := ⟨l, b.pc + 8, false, none⟩

/-- Whether a lane writes its result now: its index is in, and its part is not left for later. -/
def idxGoes (b : Issue) (t : Team) (fib : Nat → Fibre) (r : BitVec 2) (k : BitVec 6) (l : Nat) : Bool :=
  !laneOut t fib r k l && !b.later.contains l

/-- Whether its index is in, and its part is left for later (R12, R304). -/
def idxLater (b : Issue) (t : Team) (fib : Nat → Fibre) (r : BitVec 2) (k : BitVec 6) (l : Nat) : Bool :=
  !laneOut t fib r k l && b.later.contains l

/-- The run when the lanes `ds` have had their turn: those whose index is out have called REG INDEX; the others are done, but for
those whose part comes later. -/
def idxRun (s : State) (b : Issue) (t : Team) (fib : Nat → Fibre) (r : BitVec 2) (k : BitVec 6) (ds : List Nat) (st : State) : Run :=
  { Run.start s ((ds.filter (idxGoes b t fib r k)).map (laneEnd b)) [] with
    st := st
    traps := (ds.filter (laneOut t fib r k)).map (fun l => ⟨l, 1, 2, 0, 0⟩)
    later := ds.filter (idxLater b t fib r k) }

/-- Reads that consume no poison leave nothing of a word that traps (R12, R414). -/
theorem Touched.keepReads {a : AgentId} {wv : Nat} {u : Team} {w : Nat → Fibre → Fibre} {ls : List Nat} {s' : State}
    (hs : s.team? a = some t) (h : Touched s a wv t w ls s' u) : s.keepReads s' a = s :=
  State.keepReads_same (by rw [h.team, hs, Option.map_some, Option.map_some, h.chki])
    (by simp only [State.core, h.cores])

variable {g : Word → Word → Word} {n m k : BitVec 6} {r : BitVec 2}

/-- One lane's turn: it traps, or it passes and is left for later, or it writes its g register. -/
theorem idxRun_step (h : Together s b t fib) (hn : n.toNat < t.gWin) (hm : m.toNat < t.gWin) {ds : List Nat} {l : Nat}
    (hl : l ∈ b.lanes) (hd : l ∉ ds) {st : State} {u : Team}
    (hu : Touched s b.agent b.wave t (fun l f => f.putG n.toNat (idxVal fib g r k m l)) (ds.filter (idxGoes b t fib r k)) st u) :
    ∃ st' u', runLane (guarded none (fun _ => L.two g (.g n) (.idx r k) (.g m))) false b.later (b.lanes0 s t b.lanes)
        (idxRun s b t fib r k ds st) l = idxRun s b t fib r k (ds ++ [l]) st' ∧
      Touched s b.agent b.wave t (fun l f => f.putG n.toNat (idxVal fib g r k m l)) ((ds ++ [l]).filter (idxGoes b t fib r k))
        st' u' := by
  have hds : l ∉ ds.filter (idxGoes b t fib r k) := fun hf => hd (List.mem_of_mem_filter hf)
  have hready := h.ready (r := idxRun s b t fib r k ds st) hu hl hds
  have hpair := h.runPair_eq (r := idxRun s b t fib r k ds st) (l := l) (body := L.two g (.g n) (.idx r k) (.g m)) hu
  cases hout : laneOut t fib r k l with
  | true =>
    have hno : idxGoes b t fib r k l = false := by simp [idxGoes, hout]
    have hnl : idxLater b t fib r k l = false := by simp [idxLater, hout]
    rw [two_idx_out hready (by rw [hu.gWin]; exact laneOut_iff.1 hout)] at hpair
    have hkeep : s.keepReads st b.agent = s := hu.keepReads h.team
    refine ⟨st, u, ?_, by simpa [List.filter_append, hno] using hu⟩
    rw [runLane_trap hpair]
    simp [idxRun, Run.start, List.filter_append, hout, hno, hnl, Run.turn, Issue.lanes0, hkeep]
  | false =>
    have hin : ¬ idxOut u.gWin (vget (fib l).regs.ix r.toNat) k := by
      rw [hu.gWin, ← laneOut_iff, hout]
      exact Bool.false_ne_true
    have hdo := two_idx_in (g := g) hready hin (by rw [hu.gWin]; exact hn) (by rw [hu.gWin]; exact hm)
    rw [show L.two g (.g n) (.idx r k) (.g m) _ = _ from hdo] at hpair
    cases hlate : b.later.contains l with
    | true =>
      have hno : idxGoes b t fib r k l = false := by simp only [idxGoes, hlate, Bool.not_true, Bool.and_false]
      have hyl : idxLater b t fib r k l = true := by simp only [idxLater, hout, hlate, Bool.not_false, Bool.and_self]
      refine ⟨st, u, ?_, by simpa [List.filter_append, hno] using hu⟩
      rw [runLane_later hpair rfl hlate]
      simp [idxRun, Run.start, List.filter_append, hout, hno, hyl]
    | false =>
      have hyes : idxGoes b t fib r k l = true := by simp only [idxGoes, hout, hlate, Bool.not_false, Bool.and_self]
      have hnl : idxLater b t fib r k l = false := by simp only [idxLater, hlate, Bool.and_false]
      refine ⟨_, _, ?_, by simpa [List.filter_append, hyes] using hu.step hds⟩
      rw [runLane_ok hpair rfl hlate]
      simp [idxRun, Run.start, List.filter_append, hout, hyes, hnl, laneEnd, Run.turn, Issue.lanes0, idxVal]

/-- The run of all lanes. -/
theorem idxRun_all (h : Together s b t fib) (hn : n.toNat < t.gWin) (hm : m.toNat < t.gWin) :
    ∃ st u, b.lanes.foldl (runLane (guarded none (fun _ => L.two g (.g n) (.idx r k) (.g m))) false b.later
        (b.lanes0 s t b.lanes)) (Run.start s [] []) = idxRun s b t fib r k b.lanes st ∧
      Touched s b.agent b.wave t (fun l f => f.putG n.toNat (idxVal fib g r k m l)) (b.lanes.filter (idxGoes b t fib r k)) st u := by
  refine foldl_lanes (P := fun ds q => ∃ st u, q = idxRun s b t fib r k ds st ∧
    Touched s b.agent b.wave t (fun l f => f.putG n.toNat (idxVal fib g r k m l)) (ds.filter (idxGoes b t fib r k)) st u) h.nodup
    ⟨s, t, rfl, .none h.team⟩ ?_
  rintro ds l q hl hd ⟨st, u, rfl, hu⟩
  exact idxRun_step h hn hm hl hd hu

/-- While the index of any lane is out, the wave enters its handler from the state before the word (R12). -/
theorem exec_idx_out {p : (Hdr → Opnd → Opnd → Opnd → Instr) × (Word → Word → Word)} (hp : p ∈ twoSources) {hd : Hdr}
    (h : Together s b t fib) (hg : hd.guard = none) (hn : n.toNat < t.gWin) (hm : m.toNat < t.gWin) (ho : idxOuts b t fib r k ≠ []) :
    exec (p.1 hd (.g n) (.idx r k) (.g m)) s = .next (s.enterHandler b.agent b.wave b.pc
      ((idxOuts b t fib r k).map (fun l => ⟨l, 1, 2, 0, 0⟩)) b.lanes b.lanes none) := by
  obtain ⟨st, u, hrun, hu⟩ := idxRun_all (g := p.2) (k := k) (r := r) h hn hm
  have hkeep : s.keepReads st b.agent = s := hu.keepReads h.team
  have hT : b.todo = b.lanes := by
    obtain ⟨-, -, -, hT, -⟩ := h
    exact hT
  rw [exec_twoSources p hp]
  simp only [twoWord, laneWord, hg]
  rw [runWord_together h (r := idxRun s b t fib r k b.lanes st) hrun rfl]
  have houts : b.lanes.filter (laneOut t fib r k) = idxOuts b t fib r k := rfl
  simp [finishWord, idxRun, Run.start, Run.allTraps, houts, ho, hkeep, hT]

/-- With no index out and no lane left for later, each lane writes its own result. -/
theorem exec_idx_in {p : (Hdr → Opnd → Opnd → Opnd → Instr) × (Word → Word → Word)} (hp : p ∈ twoSources) {hd : Hdr}
    (h : Together s b t fib) (hg : hd.guard = none) (hn : n.toNat < t.gWin) (hm : m.toNat < t.gWin) (ho : idxOuts b t fib r k = [])
    (hlt : b.later = []) :
    ∃ u v, exec (p.1 hd (.g n) (.idx r k) (.g m)) s = .next u ∧ u.team? b.agent = some v ∧
      ∀ l ∈ b.lanes, ∃ f, v.fibre? (v.slot b.wave l) = some f ∧ f.pc = b.pc + 8 ∧
        vget f.regs.g n.toNat = idxVal fib p.2 r k m l := by
  obtain ⟨st, u, hrun, hu⟩ := idxRun_all (g := p.2) (k := k) (r := r) h hn hm
  have hin : ∀ l ∈ b.lanes, laneOut t fib r k l = false := fun l hl => by
    have := List.filter_eq_nil_iff.1 ho l hl
    exact Bool.eq_false_of_not_eq_true this
  have hgoes : b.lanes.filter (idxGoes b t fib r k) = b.lanes :=
    List.filter_eq_self.2 fun l hl => by simp [idxGoes, hin l hl, hlt]
  have hlater : b.lanes.filter (idxLater b t fib r k) = [] := List.filter_eq_nil_iff.2 fun l _ => by simp [idxLater, hlt]
  have houts : b.lanes.filter (laneOut t fib r k) = [] := ho
  obtain ⟨-, -, -, -, -, -, hw, hun, -, -⟩ := id h
  obtain ⟨v, hv, -, hf⟩ := completed_lanes (i := p.1 hd (.g n) (.idx r k) (.g m)) (id := s.tick) (pc := b.pc + 8)
    (r := idxRun s b t fib r k b.lanes st) hu.team hw (by rw [hu.wave, hun]) h.nodup (congrArg (List.map (laneEnd b)) hgoes) rfl
  refine ⟨_, v, ?_, hv, fun l hl => ?_⟩
  · rw [exec_twoSources p hp]
    simp only [twoWord, laneWord, hg]
    rw [runWord_together h (r := idxRun s b t fib r k b.lanes st) hrun rfl,
      finishWord_done rfl (by simp [idxRun, houts]) rfl (by simp [idxRun, hlater]) rfl rfl]
    rfl
  · obtain ⟨hs, hfl⟩ := hf l hl
    obtain ⟨hfib, -⟩ := h.fibre hl
    rw [hu.slot] at hs hfl
    rw [hu.fibre, hgoes, if_pos hl, hfib] at hfl
    rw [hs, hfl]
    exact ⟨_, rfl, rfl, vget_vset_same n.isLt⟩

end

/-! ### D an s register -/

section
variable {s : State} {b : Issue} {t : Team} {fib : Nat → Fibre} {g : Word → Word → Word} {k m : BitVec 6} {q : BitVec 4}

/-- The value that two g registers of a lane give. -/
def pairVal (fib : Nat → Fibre) (g : Word → Word → Word) (k m : BitVec 6) (l : Nat) : Word :=
  g (vget (fib l).regs.g k.toNat) (vget (fib l).regs.g m.toNat)

/-- The run when the lanes `ds` have had their turn: each holds its uniform write for the last lane (R18), and nothing else has
changed. -/
def uniRun (s : State) (b : Issue) (fib : Nat → Fibre) (g : Word → Word → Word) (k m : BitVec 6) (q : BitVec 4) (ds : List Nat) : Run :=
  Run.start s (ds.map (laneEnd b)) (ds.map (fun l => .s q (pairVal fib g k m l)))

theorem uniRun_step (h : Together s b t fib) (hk : k.toNat < t.gWin) (hm : m.toNat < t.gWin) {ds : List Nat} {l : Nat}
    (hl : l ∈ b.lanes) :
    runLane (guarded none (fun _ => L.two g (.s q) (.g k) (.g m))) true [] (b.lanes0 s t b.lanes) (uniRun s b fib g k m q ds) l =
      uniRun s b fib g k m q (ds ++ [l]) := by
  have hu : Touched s b.agent b.wave t (fun _ f => f) [] (uniRun s b fib g k m q ds).st t := .none h.team
  have hdo := two_s (g := g) (q := q) (h.ready hu hl (List.not_mem_nil)) hk hm
  have hpair := h.runPair_eq (l := l) (body := L.two g (.s q) (.g k) (.g m)) hu
  rw [show L.two g (.s q) (.g k) (.g m) _ = _ from hdo] at hpair
  rw [runLane_ok hpair rfl rfl]
  simp [uniRun, Run.start, laneEnd, Run.turn, Issue.lanes0, pairVal]

theorem uniRun_all (h : Together s b t fib) (hk : k.toNat < t.gWin) (hm : m.toNat < t.gWin) :
    b.lanes.foldl (runLane (guarded none (fun _ => L.two g (.s q) (.g k) (.g m))) true [] (b.lanes0 s t b.lanes))
      (Run.start s [] []) = uniRun s b fib g k m q b.lanes :=
  foldl_lanes (P := fun ds r => r = uniRun s b fib g k m q ds) h.nodup rfl fun _ _ _ hl _ hr => by
    rw [hr]
    exact uniRun_step h hk hm hl

/-- An integer word of two sources into an s register ends by the uniform check of its lanes' writes. -/
theorem exec_uniform {p : (Hdr → Opnd → Opnd → Opnd → Instr) × (Word → Word → Word)} (hp : p ∈ twoSources) {hd : Hdr}
    (h : Together s b t fib) (hg : hd.guard = none) (hk : k.toNat < t.gWin) (hm : m.toNat < t.gWin) :
    exec (p.1 hd (.s q) (.g k) (.g m)) s = .next (finishWord (p.1 hd (.s q) (.g k) (.g m)) b (t.liveLanes b.wave) b.lanes s .all id
      (uniRun s b fib p.2 k m q b.lanes)) := by
  rw [exec_twoSources p hp]
  simp only [twoWord, laneWord, hg]
  exact runWord_together h (m := .all) (uniRun_all h hk hm) rfl

/-- A check that fails is called in every lane. -/
theorem exec_uniform_fault {p : (Hdr → Opnd → Opnd → Opnd → Instr) × (Word → Word → Word)} (hp : p ∈ twoSources) {hd : Hdr}
    (h : Together s b t fib) (hg : hd.guard = none) (hk : k.toNat < t.gWin) (hm : m.toNat < t.gWin) {sub : BitVec 8}
    (hf : uniFault (t.liveLanes b.wave) b.lanes (b.lanes.map (fun l => .s q (pairVal fib p.2 k m l))) = some sub) :
    exec (p.1 hd (.s q) (.g k) (.g m)) s = .next (s.enterHandler b.agent b.wave b.pc (b.lanes.map (fun l => ⟨l, 11, sub, 0, 0⟩))
      b.lanes b.lanes none) := by
  obtain ⟨-, -, -, hT, -, hne, -⟩ := id h
  rw [exec_uniform hp h hg hk hm, uniRun, finishWord_uniform hne hf, hT]

/-- Equal writes agree, and the register then holds their value. -/
theorem unisAgree_of_eq {w : Word} {l : List Nat} {val : Nat → Word} (h : ∀ j ∈ l, val j = w) :
    unisAgree (l.map (fun j => .s q (val j))) = true := by
  simp only [unisAgree, Bool.not_eq_true', List.any_eq_false, List.any_eq_true, List.mem_map]
  rintro _ ⟨i, hi, rfl⟩ ⟨_, ⟨j, hj, rfl⟩, hc⟩
  simp [uniClash, h i hi, h j hj] at hc

theorem applyUni_of_eq {w : Word} {l : List Nat} {val : Nat → Word} (h : ∀ j ∈ l, val j = w) (hl : l ≠ []) (wv : Wave) :
    vget ((l.map (fun j => Uni.s q (val j))).foldl Wave.applyUni wv).s q.toNat = w := by
  obtain ⟨ds, d, rfl⟩ : ∃ ds d, l = ds ++ [d] := ⟨_, _, (List.dropLast_append_getLast hl).symm⟩
  simp only [List.map_append, List.map_cons, List.map_nil, List.foldl_append, List.foldl_cons, List.foldl_nil, Wave.applyUni]
  rw [vget_vset_same q.isLt, h d (by simp)]

/-- Equal values are written, and each lane goes on with its registers as they were. -/
theorem exec_uniform_agree {p : (Hdr → Opnd → Opnd → Opnd → Instr) × (Word → Word → Word)} (hp : p ∈ twoSources) {hd : Hdr}
    (h : Together s b t fib) (hg : hd.guard = none) (hk : k.toNat < t.gWin) (hm : m.toNat < t.gWin)
    (hlive : ∀ l ∈ t.liveLanes b.wave, l ∈ b.lanes) {w : Word} (hw : ∀ l ∈ b.lanes, pairVal fib p.2 k m l = w) :
    ∃ u v, exec (p.1 hd (.s q) (.g k) (.g m)) s = .next u ∧ u.team? b.agent = some v ∧ vget (v.wave b.wave).s q.toNat = w ∧
      ∀ l ∈ b.lanes, ∃ f, v.fibre? (v.slot b.wave l) = some f ∧ f.pc = b.pc + 8 ∧ f.regs = (fib l).regs := by
  obtain ⟨-, -, -, -, -, hne, hwv, hun, -, -⟩ := id h
  obtain ⟨v, hv, hs, hf⟩ := completed_lanes (i := p.1 hd (.s q) (.g k) (.g m)) (id := s.tick) (pc := b.pc + 8)
    (r := uniRun s b fib p.2 k m q b.lanes) h.team hwv hun h.nodup rfl rfl
  refine ⟨_, v, ?_, hv, ?_, fun l hl => ?_⟩
  · rw [exec_uniform hp h hg hk hm,
      finishWord_done rfl rfl rfl rfl rfl (uniFault_agree hlive (unisAgree_of_eq hw))]
    rfl
  · rw [hs]
    exact applyUni_of_eq hw hne _
  · obtain ⟨hsl, hfl⟩ := hf l hl
    obtain ⟨hfib, -⟩ := h.fibre hl
    rw [hsl, hfl, hfib]
    exact ⟨_, rfl, rfl, rfl⟩

end

/-- Settles O59: a trap of one lane leaves the state before the word for the handler, and the uniform check comes after the last
lane's part. -/
theorem lanesTogether : Obligations.LanesTogether := by
  intro p hp hd s b t fib h hg
  refine ⟨fun n m k r hn hm => ⟨exec_idx_out hp h hg hn hm, exec_idx_in hp h hg hn hm⟩, fun q k m hk hm => ⟨?_, fun hlive => ⟨?_, ?_⟩⟩⟩
  · intro hpart
    obtain ⟨-, -, -, -, -, hne, -⟩ := id h
    exact exec_uniform_fault hp h hg hk hm (uniFault_partial (by simpa using hne) hpart)
  · rintro ⟨l, hl, j, hj, hdiff⟩
    refine exec_uniform_fault hp h hg hk hm (uniFault_diverge hlive ⟨_, List.mem_map_of_mem hl, _, List.mem_map_of_mem hj, ?_⟩)
    have hne : pairVal fib p.2 k m l ≠ pairVal fib p.2 k m j := hdiff
    simp [uniClash, hne]
  · exact fun w hw => exec_uniform_agree hp h hg hk hm hlive hw

end Sys2Proof.Machine
end

section
/-! How a word of one lane completes when its part only reads, or ends with the write of D; and the branches (R38, R39, R80, R81, R84):
each is its target, read before the link, and then the lane sent there. -/

namespace Sys2Proof.Machine

/-! ### How a word of one lane completes -/

/-- A word whose part leaves the lane where it stood completes. -/
theorem runWord_keeps {i : Instr} {g : Option Guard} {m : WMode} {after : Issue → State → State} {body : Bool → L Unit}
    {s : State} {b : Issue} {t : Team} {l : Nat} {z : LS} (hs : Solo s b t l g) (hk : Keeps (body false))
    (hb : Does (body false) (b.start s t l) () z) : runWord i g m after body s = .next (b.complete i s (after b) z) := by
  obtain ⟨hlane, hu, -⟩ := hk.of_start hb
  exact runWord_solo hs hb hlane (by rw [hu]; rfl)

/-- What a part that keeps the lane leaves: another state of the package and other compared effects. -/
theorem Keeps.shape {α : Type} {p : L α} (hp : Keeps p) {x y : LS} {v : α} (h : Does p x v y) :
    ∃ st effs, y = { x with st := st, effs := effs } := ⟨y.st, y.effs, hp _ _ _ h⟩

/-- A write of D leaves the lane's place, and at most one uniform write to check. -/
theorem wrW_shape {o : Opnd} {v : Word} {x y : LS} (h : Does (L.wrW o v) x () y) :
    ∃ st effs unis, y = { x with st := st, effs := effs, unis := unis } := by
  by_cases ho : ∃ n, o = .s n
  · obtain ⟨n, rfl⟩ := ho
    exact ⟨x.st, x.effs, _, uni_holds (show Does (L.uni (.s n v)) x () y from h)⟩
  · exact ⟨y.st, y.effs, x.unis, keeps_wrW (fun n hn => ho ⟨n, hn⟩) _ _ _ h⟩

theorem wrW_agrees {o : Opnd} {v : Word} {x y : LS} (hu : x.unis = []) (h : Does (L.wrW o v) x () y) : unisAgree y.unis = true := by
  obtain ⟨-, hy | ⟨n, hy⟩⟩ := wrW_keeps h
  · rw [hy, hu]; rfl
  · rw [hy, hu]; exact unisAgree_s

/-- A word whose part ends with the write of D, from where the lane stood, completes. -/
theorem runWord_writes {i : Instr} {g : Option Guard} {m : WMode} {after : Issue → State → State} {body : Bool → L Unit}
    {s : State} {b : Issue} {t : Team} {l : Nat} {d : Opnd} {v : Word} {y z : LS} (hs : Solo s b t l g)
    (hw : Does (L.wrW d v) y () z) (hb : Does (body false) (b.start s t l) () z) (hl : y.lane = l) (hu : y.unis = []) :
    runWord i g m after body s = .next (b.complete i s (after b) z) := by
  obtain ⟨hz, -⟩ := wrW_keeps hw
  exact runWord_solo hs hb (hz.trans hl) (wrW_agrees hu hw)

/-- The step after a part without a value. -/
theorem does_next {β : Type} {p : L Unit} {f : Unit → L β} {x y z : LS} {v : β} (h : Does p x () y) (hf : Does (f ()) y v z) :
    Does (p >>= f) x v z := does_step h hf

/-- A test that holds takes its branch; one that fails, the other. -/
theorem does_then {α : Type} {c : Prop} [Decidable c] {p q : L α} {x y : LS} {v : α} (hc : c) (h : Does p x v y) :
    Does (if c then p else q) x v y := by rwa [if_pos hc]
theorem does_else {α : Type} {c : Prop} [Decidable c] {p q : L α} {x y : LS} {v : α} (hc : ¬ c) (h : Does q x v y) :
    Does (if c then p else q) x v y := by rwa [if_neg hc]

theorem keeps_test {α : Type} {c : Prop} [Decidable c] {p q : L α} (hp : Keeps p) (hq : Keeps q) : Keeps (if c then p else q) := by
  split
  · exact hp
  · exact hq

/-- The team and the fibre of a lane as its part of a word begins. -/
theorem team_start {s : State} {b : Issue} {t : Team} {l : Nat} {g : Option Guard} (hs : Solo s b t l g) :
    Does L.team (b.start s t l) t (b.start s t l) := does_team.2 ⟨hs.team, rfl⟩
theorem fibre_start {s : State} {b : Issue} {t : Team} {l : Nat} {f : Fibre} {g : Option Guard} (hs : Solo s b t l g)
    (hf : t.fibre? (t.slot b.wave l) = some f) : Does L.fibre (b.start s t l) f (b.start s t l) :=
  does_fibre.2 ⟨by simp only [State.fibre?, Issue.start, Issue.lanes0, hs.team, hf], rfl⟩

/-! ### Branches (R38, R39, R80, R81, R84) -/

theorem goTo_goes {y : LS} {pc : Addr} : Does (L.goTo pc) y () (y.goes pc) := does_goTo.2 rfl

/-- A branch relative to the word's PC. -/
theorem goTo_relative {y : LS} {b : Issue} {off : BitVec 29} (h : y.pc = b.pc) :
    Does (do L.goTo (relTarget (← get).pc off)) y () (y.goes (branchTo b off)) :=
  does_step (does_get.2 ⟨rfl, rfl⟩) (does_goTo.2 (by simp only [LS.goes, branchTo, relTarget, h]))

/-- A pair that holds an aligned 52-bit address is a target (R81). -/
theorem pairTarget_reads {a : Opnd} {x y : LS} {v : Nat} (h : Does (L.rdPair a) x v y) (hv : v < 2 ^ 52) (h8 : v % 8 = 0) :
    Does (L.pairTarget a) x (BitVec.ofNat 52 v) y :=
  does_step h (does_else (Nat.not_le.2 hv) (does_else (not_not_intro h8) (does_pure.2 ⟨rfl, rfl⟩)))

theorem link_writes {d : Opnd} {x y : LS} {b : Issue} (hp : x.pc = b.pc) (h : Does (L.wrPair d (b.pc + 8).toNat) x () y) :
    Does (L.link d) x () y :=
  does_step (does_get.2 ⟨rfl, rfl⟩) (by rw [hp]; exact h)

/-- A word whose part leaves the lane at a target completes. -/
theorem runWord_goes {α : Type} {i : Instr} {g : Option Guard} {m : WMode} {p : L α} {body : Bool → L Unit} {s : State} {b : Issue} {t : Team}
    {l : Nat} {u : α} {y : LS} {pc : Addr} (hs : Solo s b t l g) (hk : Keeps p) (hp : Does p (b.start s t l) u y)
    (hb : Does (body false) (b.start s t l) () (y.goes pc)) :
    runWord i g m (fun _ => id) body s = .next (b.complete i s id (y.goes pc)) := by
  obtain ⟨hlane, hu, -⟩ := hk.of_start hp
  exact runWord_solo hs hb hlane (by rw [show (y.goes pc).unis = y.unis from rfl, hu]; rfl)

theorem Keeps.pc_of_start {α : Type} {p : L α} (hp : Keeps p) {b : Issue} {s : State} {t : Team} {l : Nat} {v : α} {y : LS}
    (h : Does p (b.start s t l) v y) : y.pc = b.pc := by
  rw [hp _ _ _ h]
  rfl

/-- Settles O6: each word is its target, read before the link, and then the lane sent there. -/
theorem branches : Obligations.Branches := by
  refine ⟨?_, ?_, ?_, ?_, ?_, ?_, ?_⟩
  · intro s b t l hs
    exact runWord_keeps hs keeps_pure (does_pure.2 ⟨rfl, rfl⟩)
  · intro h s b t l hs
    exact runWord_keeps hs keeps_pure (does_pure.2 ⟨rfl, rfl⟩)
  · intro h off s b t l hs
    exact runWord_goes hs (keeps_pure (v := ())) (does_pure.2 ⟨rfl, rfl⟩) (goTo_relative rfl)
  · intro r bit off s b t l v y hs hr
    have hpc := keeps_rdG.pc_of_start hr
    by_cases hv : v.toNat / 2 ^ bit.toNat % 4 = 0
    · have hbits : bits v.toNat bit.toNat 2 = 0 := hv
      rw [if_pos hv]
      exact runWord_goes hs keeps_rdG hr (does_step hr (does_then hbits (goTo_relative hpc)))
    · have hbits : ¬ bits v.toNat bit.toNat 2 = 0 := hv
      rw [if_neg hv]
      obtain ⟨hlane, hu, -⟩ := keeps_rdG.of_start hr
      exact runWord_solo hs (does_step hr (does_else hbits (does_pure.2 ⟨rfl, rfl⟩))) hlane (by rw [hu]; rfl)
  · intro p hp h a s b t l v y hs hr hv h8
    have hb : Does (do L.goTo (← L.pairTarget a)) (b.start s t l) () (y.goes (BitVec.ofNat 52 v)) :=
      does_step (pairTarget_reads hr hv h8) goTo_goes
    simp only [List.mem_cons, List.not_mem_nil, or_false] at hp
    obtain rfl | rfl := hp
    · exact runWord_goes hs keeps_rdPair hr hb
    · exact runWord_goes hs keeps_rdPair hr hb
  · intro h d off s b t l y hs hw
    exact runWord_goes hs keeps_wrPair hw (does_step (link_writes rfl hw) (goTo_relative (keeps_wrPair.pc_of_start hw)))
  · intro h d a s b t l v y z hs hr hv h8 hw
    have hpc := keeps_rdPair.pc_of_start hr
    have hk : Keeps (do let _ ← L.rdPair a; L.wrPair d (b.pc + 8).toNat) := keeps_bind keeps_rdPair fun _ => keeps_wrPair
    exact runWord_goes hs hk (does_step hr hw)
      (does_step (pairTarget_reads hr hv h8) (does_step (link_writes hpc hw) goTo_goes))

end Sys2Proof.Machine
end

section
/-! Masks and barriers (R85 to R89): each word reads a mask of the wave and writes one, and then the lane goes on or stands at its word. -/

namespace Sys2Proof.Machine

/-! ### Masks and barriers (R85 to R89) -/

theorem does_mask {x y : LS} {k : Nat} {v : Word × Word} :
    Does (L.mask k) x v y ↔ (x.st.wave? x.agent x.wave).map (fun w => vget w.m k) = some v ∧ y = x := by
  simp only [L.mask, does_bind, does_wave, does_pure, State.wave?]
  cases x.st.team? x.agent with
  | none => simp
  | some t =>
    simp only [Option.map_some, Option.some.injEq, exists_eq_left']
    constructor
    · rintro ⟨w, z, ⟨rfl, rfl⟩, rfl, rfl⟩
      exact ⟨rfl, rfl⟩
    · rintro ⟨rfl, rfl⟩
      exact ⟨_, y, ⟨rfl, rfl⟩, rfl, rfl⟩

@[simp] theorem keeps_mask {k : Nat} : Keeps (L.mask k) := keeps_bind keeps_wave fun _ => keeps_pure
@[simp] theorem keeps_setMask {k : Nat} {v : Word × Word} : Keeps (L.setMask k v) := keeps_modWave

/-- The mask of a wave as its lane's part of a word begins. -/
theorem mask_start {s : State} {b : Issue} {t : Team} {l k : Nat} {g : Option Guard} {m a : Word} (hs : Solo s b t l g)
    (hm : vget (t.wave b.wave).m k = (m, a)) : Does (L.mask k) (b.start s t l) (m, a) (b.start s t l) := by
  refine does_mask.2 ⟨?_, rfl⟩
  show (s.wave? b.agent b.wave).map _ = _
  rw [State.wave?, hs.team, Option.map_some, Option.map_some, hm]

theorem setMask_sets {y : LS} {k : Nat} {m a : Word} : Does (L.setMask k (m, a)) y () (y.withMask k m a) := does_modWave.2 rfl

/-- JOIN, LEAVE, WAITM and TBAR: what one lane's part leaves, wherever it stands then, completes the word. -/
theorem runWord_stands {i : Instr} {g : Option Guard} {m : WMode} {after : Issue → State → State} {body : Bool → L Unit}
    {s : State} {b : Issue} {t : Team} {l : Nat} {z : LS} (hs : Solo s b t l g) (hb : Does (body false) (b.start s t l) () z)
    (hl : z.lane = l) (hu : z.unis = []) : runWord i g m after body s = .next (b.complete i s (after b) z) :=
  runWord_solo hs hb hl (by rw [hu]; rfl)

/-! ### Words that act once for their batch (R79) -/

/-- The one lane of a batch carries the word. -/
theorem onceWord_completes {i : Instr} {h : Hdr} {after : Issue → State → State} {body : L Unit} {s : State} {b : Issue} {t : Team}
    {l : Nat} {y : LS} (hs : Solo s b t l h.guard) (hk : Keeps body) (hb : Does body (b.start s t l) () y) :
    onceWord i h after body s = .next (b.complete i s (after b) { y with effs := [] }) := by
  obtain ⟨hlane, hu, -⟩ := hk.of_start hb
  have hhead : ((b.start s t l).execs.head? == some (b.start s t l).lane) = true := beq_self_eq_true (some l)
  exact runWord_stands hs (does_step (does_get.2 ⟨rfl, rfl⟩) (does_then hhead (does_step hb (does_modify.2 rfl)))) hlane hu

/-- MOP's operations (R87). -/
def mopSets (op : BitVec 4) (v m r : Word) : Word × Word :=
  match op.toNat with
  | 0 => (v, r &&& v)
  | 1 => (m ||| v, r)
  | _ => (m &&& ~~~ v, r &&& (m &&& ~~~ v))

theorem mop_completes {h : Hdr} {a : Opnd} {k op : BitVec 4} {s : State} {b : Issue} {t : Team} {l : Nat} {v m r : Word} {y : LS}
    (hs : Solo s b t l h.guard) (hv : Does (L.rdW a) (b.start s t l) v y)
    (hm : (y.st.wave? b.agent b.wave).map (fun w => vget w.m k.toNat) = some (m, r)) :
    exec (.mop h a k op) s = .next (b.complete (.mop h a k op) s (fun s => s.maskCheck b.agent b.wave k.toNat)
      { y.withMask k.toNat (mopSets op v m r).1 (mopSets op v m r).2 with effs := [] }) := by
  obtain ⟨-, -, ha, hw, -⟩ := keeps_rdW.of_start hv
  have hmask : Does (L.mask k.toNat) y (m, r) y := does_mask.2 ⟨by rw [ha, hw]; exact hm, rfl⟩
  exact onceWord_completes hs (keeps_bind keeps_rdW fun _ => keeps_bind keeps_mask fun _ => keeps_setMask)
    (does_step hv (does_step hmask setMask_sets))

/-- A read in the lane itself, before the word (R88). -/
theorem peer_reads {α : Type} {p : L α} {x x' : LS} {v : α} (h : Does p { x with st := x.st0 } v x') :
    Does (L.peer x.lane p) x (some v) x := by
  refine does_step (does_get.2 ⟨rfl, rfl⟩) ?_
  simp only [Does] at h
  rw [show p { x with lane := x.lane, st := x.st0 } = _ from h]
  exact does_pure.2 ⟨rfl, rfl⟩

theorem ballot_one {a : Opnd} {x x' : LS} {w : Word} (h : Does (L.rdW a) { x with st := x.st0 } w x') :
    Does (L.ballot a [x.lane]) x (if w ≠ 0 then laneBit x.lane else 0) x := by
  refine does_step (peer_reads h) (does_step (does_pure.2 ⟨rfl, rfl⟩) (does_pure.2 ⟨?_, rfl⟩))
  simp [BitVec.zero_or]

/-- Settles O8: each word reads a mask and writes one; only where the lane stands after it differs. -/
theorem maskWords : Obligations.MaskWords := by
  refine ⟨?_, ?_, ?_, ?_, ?_, ?_, ?_, ?_⟩
  · intro h k s b t l m a hs hm
    exact runWord_stands hs (does_step (mask_start hs hm) (does_step (does_get.2 ⟨rfl, rfl⟩) setMask_sets)) rfl rfl
  · intro h k s b t l m a hs hm
    exact runWord_stands hs (does_step (mask_start hs hm) (does_step (does_get.2 ⟨rfl, rfl⟩) setMask_sets)) rfl rfl
  · intro h k s b t l m a hs hm hin
    have hbit : bitOf m l = true := hin
    exact runWord_stands hs (does_step (mask_start hs hm) (does_step (does_get.2 ⟨rfl, rfl⟩)
      (does_then hbit (does_step setMask_sets (does_modify.2 rfl))))) rfl rfl
  · intro h k s b t l m a hs hm hout
    have hbit : ¬ bitOf m l = true := by simpa [bitOf] using hout
    exact runWord_stands hs (does_step (mask_start hs hm) (does_step (does_get.2 ⟨rfl, rfl⟩)
      (does_else hbit (does_modify.2 rfl)))) rfl rfl
  · intro h d k arr s b t l m a z hs hm hw
    exact runWord_writes hs hw (does_step (mask_start hs hm) hw) rfl rfl
  · intro p hp h a k s b t l v m r y hs hv hm
    simp only [List.mem_cons, List.not_mem_nil, or_false] at hp
    obtain rfl | rfl | rfl := hp
    · exact mop_completes hs hv hm
    · exact mop_completes hs hv hm
    · exact mop_completes hs hv hm
  · intro h d a s b t l v w y y' z hs hv hread hw
    have hk : Keeps (do L.checkRegs [a, d]; L.rdW a) := keeps_bind keeps_checkRegs fun _ => keeps_rdW
    obtain ⟨hlane, hu, -⟩ := hk.of_start hv
    have hexecs : y.execs = [y.lane] := by rw [hk _ _ _ hv]; rfl
    subst hlane
    obtain ⟨_, x, hc, hr⟩ := does_bind.1 hv
    refine runWord_writes hs hw (does_step hc (does_next (does_map.2 ⟨v, hr, rfl⟩) (does_step (does_get.2 ⟨rfl, rfl⟩) ?_))) rfl hu
    rw [hexecs]
    exact does_step (ballot_one hread) hw
  · intro h again s b t l hs
    exact runWord_stands hs (does_modify.2 rfl) rfl rfl

end Sys2Proof.Machine
end

section
/-! SPAWN and END (R82, R83): the free slot decides whether there is a child, and the last fibre whether the unit ends. -/

namespace Sys2Proof.Machine

/-! ### A word of one lane beside other live lanes -/

theorem guardRead_lone {s : State} {b : Issue} {t : Team} {l : Nat} {g : Option Guard} (h : Lone s b t l g) :
    s.guardRead b t g = s := by
  have hg := h.guard
  cases g with
  | none => rfl
  | some k =>
    simp only [passes, Bool.and_eq_true, Bool.not_eq_true'] at hg
    simp only [State.guardRead, h.todo, List.any_cons, List.any_nil, hg.2, Bool.or_false, Bool.false_eq_true, if_false]

/-- A word whose one lane writes no uniform register needs no other lane of its wave (R18). -/
theorem runWord_lone {i : Instr} {g : Option Guard} {m : WMode} {after : Issue → State → State} {body : Bool → L Unit}
    {s : State} {b : Issue} {t : Team} {l : Nat} {y : LS} (h : Lone s b t l g) (hb : Does (body false) (b.start s t l) () y)
    (hl : y.lane = l) (hu : y.unis = []) : runWord i g m after body s = .next (b.complete i s (after b) y) := by
  have hs := guardRead_lone h
  obtain ⟨hc, ht, hL, hT, hp, hg, hn, hk⟩ := h
  simp only [passes, Bool.and_eq_true, Bool.not_eq_true'] at hg
  obtain ⟨⟨⟨hw, ho⟩, hg1⟩, -⟩ := hg
  have he : b.lanes.filter (fun l => guardPass g (t.regsAt b.wave l)) = [l] := by simp [hL, hg1]
  have hd : guardedOut b [l] = [] := by simp [guardedOut, hT]
  have hf : [l].filter [l].contains = [l] := by simp
  have hr := runLanes_solo (o := m.inOrder) (body := guarded g body) ht hp (show guarded g body false _ = _ from hb) hl
  simp only [runWord, hc, ht, hT, hw, ho, Bool.false_eq_true, if_false, runBatch, he, hs, hd, hk, hn, ite_self, hf, hr]
  rw [finishWord_done rfl rfl rfl rfl rfl (by simp [LS.run, Run.start, hu, uniFault])]
  rfl

/-! ### SPAWN and END (R82, R83) -/

/-- No slot is free: D takes all ones. -/
theorem spawnChild_none {k : BitVec 6} {target : Addr} {x z : LS} {t : Team} (ht : x.st.team? x.agent = some t) (hk : k.toNat < t.gWin)
    (hn : t.childSlot x.wave = none) (hw : Does (L.wrW (.g k) 0xFFFF_FFFF) x () z) : Does (L.spawnChild (.g k) target) x () z := by
  refine does_step (checkG_in ht hk) (does_step (does_team.2 ⟨ht, rfl⟩) (does_step (does_get.2 ⟨rfl, rfl⟩) ?_))
  rw [hn]
  exact hw

/-- The registers that a child starts with: its parent's, with the parent's slot in D (R82). -/
def childRegs (r : Regs) (k : BitVec 6) (slot : Nat) : Regs :=
  { r with g := vset r.g k.toNat (0x8000_0000 + BitVec.ofNat 32 slot), bad := r.bad.erase (false, k.toNat) }

/-- A slot is free: the child starts there, and D takes its number. -/
theorem spawnChild_some {k : BitVec 6} {target : Addr} {x z : LS} {t : Team} {f : Fibre} {n : Nat} (ht : x.st.team? x.agent = some t)
    (hk : k.toNat < t.gWin) (hf : t.fibre? (t.slot x.wave x.lane) = some f) (hs : f.shadow = none)
    (hn : t.childSlot x.wave = some n) (hl : Does L.landedAll x () x)
    (hw : Does (L.wrW (.g k) (BitVec.ofNat 32 n)) { x with
      st := x.st.updTeam x.agent (·.addFibre n (t.newFibre n x.st.tick target (childRegs f.regs k (t.slot x.wave x.lane)) none
        f.remoteWrites)) } () z) : Does (L.spawnChild (.g k) target) x () z := by
  have hfib : Does L.fibre x f x := does_fibre.2 ⟨by simp only [State.fibre?, ht, hf], rfl⟩
  have hslot : Does L.slot x (t.slot x.wave x.lane) x :=
    does_step (does_team.2 ⟨ht, rfl⟩) (does_step (does_get.2 ⟨rfl, rfl⟩) (does_step (does_get.2 ⟨rfl, rfl⟩) (does_pure.2 ⟨rfl, rfl⟩)))
  refine does_step (checkG_in ht hk) (does_step (does_team.2 ⟨ht, rfl⟩) (does_step (does_get.2 ⟨rfl, rfl⟩) ?_))
  rw [hn]
  refine does_step hl (does_step hfib (does_step hslot (does_next (does_modTeam.2 rfl) ?_)))
  rw [hs]
  exact hw

theorem wrG_stands {k : BitVec 6} {v : Word} {x z : LS} (h : Does (L.wrW (.g k) v) x () z) : z.lane = x.lane ∧ z.unis = x.unis := by
  rw [keeps_wrG _ _ _ h]
  exact ⟨rfl, rfl⟩

/-- END of a fibre that no word of its own holds back, outside a handler entered from level 0, removes the fibre (R83). -/
theorem endf_completes {h : Hdr} {s : State} {b : Issue} {t : Team} {l : Nat} (hs : Solo s b t l h.guard)
    (hp : (t.wave b.wave).pendingLane l = false) (hu : (t.wave b.wave).fromUser = false)
    (hj : t.fibres.length = 1 → s.activeJobs b.agent = [] ∧ s.endAwaits t = false) :
    exec (.endf h) s = .next (b.complete (.endf h) s id { b.start s t l with
      st := if t.fibres.length = 1 then (s.fibreEnd b.agent b.wave l).unitEnd b.agent false else s.fibreEnd b.agent b.wave l }) := by
  refine runWord_stands hs ?_ rfl rfl
  have ht := team_start hs
  have hpend : ¬ (t.wave b.wave).pendingLane (b.start s t l).lane = true := by rw [show (b.start s t l).lane = l from rfl, hp]; simp
  have hgo : ¬ (t.fibres.length = 1 ∧ ((!(s.activeJobs b.agent).isEmpty) = true ∨ s.endAwaits t = true)) := by
    rintro ⟨hlast, hwait⟩
    obtain ⟨hjobs, haw⟩ := hj hlast
    simp [hjobs, haw] at hwait
  have huser : ¬ (t.wave (b.start s t l).wave).fromUser = true := by rw [show (b.start s t l).wave = b.wave from rfl, hu]; simp
  refine does_step (does_get.2 ⟨rfl, rfl⟩) (does_step (does_wave_of_team ht) (does_else hpend (does_step ht (does_else hgo
    (does_else huser (does_next (does_modSt.2 rfl) ?_))))))
  by_cases hlast : t.fibres.length = 1
  · refine does_then hlast (does_modSt.2 ?_)
    simp only [if_pos hlast, Issue.start, Issue.lanes0]
  · refine does_else hlast (does_pure.2 ⟨rfl, ?_⟩)
    simp only [if_neg hlast, Issue.start, Issue.lanes0]

/-- Settles O7: SPAWN's two cases are those of `childSlot`, END's those of the last fibre. -/
theorem spawnAndEnd : Obligations.SpawnAndEnd := by
  refine ⟨?_, ?_, ?_, ?_⟩
  · intro h k off s b t l f n z hs hk hf hsh hn hl hw
    obtain ⟨hlane, hu⟩ := wrG_stands hw
    exact runWord_stands hs (does_step (does_get.2 ⟨rfl, rfl⟩) (spawnChild_some hs.team hk hf hsh hn hl hw)) hlane hu
  · intro h k off s b t l z hs hk hn hw
    obtain ⟨hlane, hu⟩ := wrG_stands hw
    exact runWord_lone hs (does_step (does_get.2 ⟨rfl, rfl⟩) (spawnChild_none hs.team hk hn hw)) hlane hu
  · intro h s b t l hs hp hn hu
    have he := endf_completes hs hp hu fun h1 => absurd h1 hn
    rwa [if_neg hn] at he
  · intro h s b t l hs hp hn haw hj hu
    have he := endf_completes hs hp hu fun _ => ⟨hj, haw⟩
    rwa [if_pos hn] at he

end Sys2Proof.Machine
end

section
/-! Level counters (R96, R97, R219): the number of the counter is read first, and the word acts on the counter of that moment. -/

namespace Sys2Proof.Machine

/-! ### Level counters (R96, R97, R219) -/

/-- The number of a counter is the low 12 bits. -/
theorem bits_counter (v : Word) : bits v.toNat 0 12 = v.toNat % 2 ^ 12 := by simp [bits]

@[simp] theorem keeps_counterOf {a : Opnd} : Keeps (L.counterOf a) :=
  keeps_bind keeps_rdW fun _ => keeps_bind keeps_part fun _ => keeps_pure

theorem counterOf_reads {a : Opnd} {x y z : LS} {v : Word} {p : Partition} (hv : Does (L.rdW a) x v y) (hp : Does L.part y p z) :
    Does (L.counterOf a) x (v.toNat % 2 ^ 12, p.counter (v.toNat % 2 ^ 12)) z :=
  does_step hv (does_step hp (does_pure.2 ⟨by rw [bits_counter], rfl⟩))

/-- Two reads, one after the other. -/
theorem does_pair {α β : Type} {p : L α} {q : L β} {x z : LS} {u : α} {v : β}
    (h : Does (do return (← p, ← q)) x (u, v) z) : ∃ y, Does p x u y ∧ Does q y v z := by
  obtain ⟨_, y, hp, h⟩ := does_bind.1 h
  obtain ⟨_, z', hq, h⟩ := does_bind.1 h
  obtain ⟨he, rfl⟩ := does_pure.1 h
  obtain ⟨rfl, rfl⟩ := Prod.mk.inj he
  exact ⟨y, hp, hq⟩

/-- Three reads, one after the other. -/
theorem does_triple {α β γ : Type} {p : L α} {q : L β} {r : L γ} {x z : LS} {u : α} {v : β} {w : γ}
    (h : Does (do return (← p, ← q, ← r)) x (u, v, w) z) : ∃ y y', Does p x u y ∧ Does q y v y' ∧ Does r y' w z := by
  obtain ⟨_, y, hp, h⟩ := does_bind.1 h
  obtain ⟨_, y', hq, h⟩ := does_bind.1 h
  obtain ⟨_, z', hr, h⟩ := does_bind.1 h
  obtain ⟨he, rfl⟩ := does_pure.1 h
  simp only [Prod.mk.injEq] at he
  obtain ⟨rfl, rfl, rfl⟩ := he
  exact ⟨y, y', hp, hq, hr⟩

/-- A check made under a condition, and what follows it. -/
theorem does_when {α : Type} {c : Prop} [Decidable c] {p : L Unit} {q : L α} {x y z : LS} {u : Unit} {v : α}
    (hp : Does (if c then p else pure ()) x u y) (hq : Does q y v z) : Does (if c then p >>= fun _ => q else q) x v z := by
  by_cases hc : c
  · rw [if_pos hc] at hp ⊢
    exact does_step hp hq
  · rw [if_neg hc] at hp ⊢
    obtain ⟨-, rfl⟩ := does_pure.1 hp
    exact hq

@[simp] theorem keeps_needLevel {n : Nat} : Keeps (L.needLevel n) :=
  keeps_bind keeps_level fun _ => keeps_test keeps_trap keeps_pure

theorem cntrNew_of_mem {lvl : BitVec 2} {op : BitVec 2 × (Word → Counter → Counter)} (h : op ∈ cntrOps lvl) :
    cntrNew op.1 lvl = op.2 := by
  simp only [cntrOps, List.mem_cons, List.not_mem_nil, or_false] at h
  obtain rfl | rfl | rfl | rfl := h
  · rfl
  · rfl
  · rfl
  · funext v c
    simp [cntrNew, bits]

/-- Settles O10: every word reads the number of its counter first, and acts on the counter of that moment. -/
theorem counterWords : Obligations.CounterWords := by
  refine ⟨?_, ?_, ?_⟩
  · intro h a rlx s b t l v p q y z z' hs hr hrel hq
    obtain ⟨_, x, hc, hr⟩ := does_bind.1 hr
    obtain ⟨x', hv, hp⟩ := does_pair hr
    obtain ⟨-, rfl⟩ := does_part.1 hq
    cases rlx with
    | true =>
      obtain ⟨-, rfl⟩ := does_pure.1 hrel
      exact runWord_keeps hs (keeps_bind keeps_checkReg fun _ => keeps_bind keeps_counterOf fun _ =>
        keeps_bind keeps_part fun _ => keeps_modSt)
        (does_step hc (does_step (counterOf_reads hv hp) (does_step hq (does_modSt.2 rfl))))
    | false =>
      exact runWord_keeps hs (keeps_bind keeps_checkReg fun _ => keeps_bind keeps_counterOf fun _ =>
        keeps_bind keeps_release fun _ => keeps_bind keeps_part fun _ => keeps_modSt)
        (does_step hc (does_step (counterOf_reads hv hp) (does_step hrel (does_step hq (does_modSt.2 rfl)))))
  · intro h a c s b t l u v p y hs hr hcount
    obtain ⟨_, x, hc, hr⟩ := does_bind.1 hr
    obtain ⟨x1, x2, hu, hp, hv⟩ := does_triple hr
    have hgo : ¬ (!reached (p.counter (u.toNat % 2 ^ 12)).count v) = true := by
      rw [show reached (p.counter (u.toNat % 2 ^ 12)).count v = true from decide_eq_true hcount]
      simp
    exact runWord_keeps hs (keeps_bind keeps_checkRegs fun _ => keeps_bind keeps_counterOf fun _ => keeps_bind keeps_rdW fun _ =>
      keeps_test keeps_block keeps_pure)
      (does_step hc (does_step (counterOf_reads hu hp) (does_step hv (does_else hgo (does_pure.2 ⟨rfl, rfl⟩)))))
  · intro lvl op hop h d a c s b t l u v p y z hs hr0 hw
    obtain ⟨_, x0, hl, hr⟩ := does_bind.1 hr0
    obtain ⟨_, x1, hc, hr⟩ := does_bind.1 hr
    obtain ⟨x2, x3, hu, hv, hp⟩ := does_triple hr
    obtain ⟨-, rfl⟩ := does_part.1 hp
    have hk : Keeps (do
        (if 2 ≤ op.1.toNat then L.needLevel 1 else pure ())
        L.check 1 [a, c] [d]
        return (← L.rdW a, ← L.rdW c, ← L.part)) :=
      keeps_bind (keeps_test keeps_needLevel keeps_pure) fun _ => keeps_bind keeps_check fun _ => keeps_bind keeps_rdW
        fun _ => keeps_bind keeps_rdW fun _ => keeps_bind keeps_part fun _ => keeps_pure
    rw [← bits_counter, ← cntrNew_of_mem hop] at hw
    obtain ⟨hlane, hu', -⟩ := hk.of_start hr0
    exact runWord_writes hs hw (does_when hl (does_step hc (does_step hu (does_step hv (does_step hp
      (does_next (does_step hp (does_modSt.2 rfl)) hw)))))) hlane hu'

end Sys2Proof.Machine
end

section
/-! Convergence registers, FORK and RDV (R91, R92, R94, R95): what opens and signs a register, and what a handle of jobs stands for. -/

namespace Sys2Proof.Machine

/-! ### Convergence registers (R91, R92) -/

theorem qset_completes {h : Hdr} {a : Opnd} {q : BitVec 3} {s : State} {b : Issue} {t t' : Team} {l : Nat} {v : Word} {y : LS}
    (hs : Solo s b t l h.guard) (hv : Does (L.rdW a) (b.start s t l) v y) (ht : y.st.team? b.agent = some t')
    (hq : (vget t'.q q.toNat).st.toNat < 2) :
    exec (.qset h a q) s = .next (b.complete (.qset h a q) s id { y with
      st := y.st.updTeam b.agent (fun t => { t.clearSigs q.toNat with
        q := vset t.q q.toNat { ConvReg.zero with target := v.extractLsb' 0 10, st := 1 } }), effs := [] }) := by
  obtain ⟨st, effs, rfl⟩ := keeps_rdW.shape hv
  exact onceWord_completes (y := { b.start s t l with st := _, effs := effs }) hs
    (keeps_bind keeps_rdW fun _ => keeps_bind keeps_team fun _ => keeps_test (keeps_bind keeps_block fun _ => keeps_modTeam) keeps_modTeam)
    (does_step hv (does_step (does_team.2 ⟨ht, rfl⟩) (does_else (Nat.not_le.2 hq) (does_modTeam.2 rfl))))

/-! ### RDV (R95) -/

theorem bits_entry (v : Word) : bits v.toNat 0 6 = v.toNat % 64 := by simp [bits]

/-- RDV of a handle that names no entry (R95). -/
theorem rdv_unknown {h : Hdr} {d a : Opnd} {s : State} {b : Issue} {t t' : Team} {l : Nat} {v : Word} {y z : LS}
    (hs : Solo s b t l h.guard) (hv : Does (do L.checkRegs [a, d]; L.rdW a) (b.start s t l) v y)
    (ht : y.st.team? b.agent = some t')
    (hf : t'.forks.find? (fun e => e.ent = v.toNat % 64 ∧ e.seq = v.extractLsb' 6 26) = none)
    (hw : Does (L.wrW d 0x100) { y with closes := true } () z) :
    exec (.rdv h d a) s = .next (b.complete (.rdv h d a) s id z) := by
  obtain ⟨st, effs, rfl⟩ := (keeps_bind keeps_checkRegs fun _ => keeps_rdW).shape hv
  obtain ⟨_, x, hc, hr⟩ := does_bind.1 hv
  rw [← bits_entry] at hf
  refine runWord_writes hs hw (does_step hc (does_step hr (does_step (does_team.2 ⟨ht, rfl⟩) (does_next (does_modify.2 rfl) ?_)))) rfl rfl
  rw [hf]
  exact hw

/-- The jobs of a handle are over: D takes their status, the entry is free again, and their writes are behind the fibre (R95,
R255). -/
theorem rdv_over {h : Hdr} {d a : Opnd} {s : State} {b : Issue} {t t' : Team} {l : Nat} {v : Word} {e : ForkEntry} {y z : LS}
    (hs : Solo s b t l h.guard) (hv : Does (do L.checkRegs [a, d]; L.rdW a) (b.start s t l) v y)
    (ht : y.st.team? b.agent = some t')
    (hf : t'.forks.find? (fun e => e.ent = v.toNat % 64 ∧ e.seq = v.extractLsb' 6 26) = some e)
    (hj : e.jobs.all y.st.jobOver = true) (hw : Does (L.wrW d (statusOf (y.st.jobsOf e.jobs))) { y with closes := true } () z) :
    exec (.rdv h d a) s = .next (b.complete (.rdv h d a) s id { z with
      st := ((z.st.updTeam b.agent (fun t => { t with forks := t.forks.filter (·.ent != e.ent) })).updFibre b.agent b.wave l
        (fun f => { f with remoteWrites := f.remoteWrites ++ z.st.jobWrites e.jobs })).observe b.agent e.jobs }) := by
  obtain ⟨st, effs, rfl⟩ := (keeps_bind keeps_checkRegs fun _ => keeps_rdW).shape hv
  obtain ⟨_, x, hc, hr⟩ := does_bind.1 hv
  rw [← bits_entry] at hf
  have hag := wrW_agrees rfl hw
  obtain ⟨st', effs', unis', rfl⟩ := wrW_shape hw
  refine runWord_solo hs (does_step hc (does_step hr (does_step (does_team.2 ⟨ht, rfl⟩) (does_next (does_modify.2 rfl) ?_)))) rfl hag
  rw [hf]
  exact does_step (does_get.2 ⟨rfl, rfl⟩) (does_else (by simp [hj]) (does_next hw (does_next (does_modTeam.2 rfl)
    (does_step (does_get.2 ⟨rfl, rfl⟩) (does_next (does_modFibre.2 rfl) (does_modSt.2 rfl))))))

/-! ### FORK (R94, R201) -/

@[simp] theorem keeps_checkPage {a : Opnd} {l : List Opnd} : Keeps (L.checkPage a l) := by
  cases a with
  | g n => exact keeps_bind keeps_checkG fun _ => keeps_checkRegs
  | _ => exact keeps_checkRegs

@[simp] theorem keeps_header {base n : Nat} : Keeps (L.header base n) := by
  induction n generalizing base with
  | zero => exact keeps_pure
  | succ n ih =>
    have hk : Keeps (do let v ← L.load .load base 8; let r ← L.header (base + 8) n; return v + 2 ^ 64 * r) :=
      keeps_bind keeps_load fun _ => keeps_bind ih fun _ => keeps_pure
    exact keeps_test (keeps_bind keeps_pageTrap fun _ => hk) hk

@[simp] theorem keeps_headers {base n : Nat} : Keeps (L.headers base n) := by
  induction n generalizing base with
  | zero => exact keeps_pure
  | succ n ih => exact keeps_bind keeps_header fun _ => keeps_bind ih fun _ => keeps_pure

theorem keeps_forM {α : Type} {f : α → L Unit} (h : ∀ x, Keeps (f x)) (l : List α) : Keeps (l.forM f) := by
  induction l with
  | nil => exact keeps_pure
  | cons x l ih => exact keeps_bind (h x) fun _ => ih

/-- The lane's wave, where its fibre stands. -/
theorem wave_of_fibre {x : LS} {f : Fibre} {w0 : Wave} (h : x.st.fibre? x.agent x.wave x.lane = some f) :
    Does L.wave x ((x.st.wave? x.agent x.wave).getD w0) x := by
  simp only [State.fibre?] at h
  cases ht : x.st.team? x.agent with
  | none => simp [ht] at h
  | some u => exact does_wave.2 ⟨⟨u, ht, by simp [State.wave?, ht]⟩, rfl⟩

/-- The jobs of a card: its headers' engines, in order, each with the registers of the fibre that submits it (R94). -/
def submitCards (base : Nat) (cards : List (Nat × Nat)) (agent : AgentId) (lvl lane : Nat) (r : Regs) (w : Wave) (e : Nat) : L Unit :=
  cards.forM (fun x => do
    L.effect ⟨true, base, x.2⟩
    L.modSt (·.submit agent (BitVec.ofNat 2 lvl) (engOfNum x.1)
      (some ⟨BitVec.ofNat 52 (x.2 / 2 ^ 64), x.2 / 2 ^ 12 % 2 ^ 12, r.g, w.s, w.a, lane, (r.bad.filter (!·.1)).map (·.2)⟩)
      none (headerRanges x.2 16 (x.2 / 2 ^ 4 % 2 ^ 4)) (headerRanges x.2 40 (x.2 / 2 ^ 8 % 2 ^ 4)) none (some e)))

theorem keeps_submitCards {base : Nat} {cards : List (Nat × Nat)} {agent : AgentId} {lvl lane : Nat} {r : Regs} {w : Wave} {e : Nat} :
    Keeps (submitCards base cards agent lvl lane r w e) :=
  keeps_forM (fun _ => keeps_bind keeps_effect fun _ => keeps_modSt) _

/-- FORK with its headers in order, a free entry and room for its jobs (R94). -/
theorem fork_completes {h : Hdr} {d a : Opnd} {set : BitVec 4} {s : State} {b : Issue} {t t' : Team} {l base e : Nat}
    {hds : List Nat} {f : Fibre} {y y1 y2 y3 z : LS} (hs : Solo s b t l h.guard)
    (ha : Does (do L.checkPage a [d]; L.pageAddr 0 a) (b.start s t l) base y) (halign : base % 64 = 0)
    (hh : Does (L.headers base (maskMacros set).length) y hds y1)
    (hok : ((maskMacros set).zip hds).any (fun x => headerBad x.1 x.2) = false) (ht : y1.st.team? b.agent = some t')
    (he : (List.range 64).find? (fun e => !t'.forks.any (fun (k : ForkEntry) => k.ent == e)) = some e)
    (hroom : y1.st.jobRoom (coreOf b.agent) (maskMacros set).length = true) (hrel : Does (L.release 0) y1 () y2)
    (hland : Does L.landedAll y2 () y2) (hf : y2.st.fibre? b.agent b.wave l = some f)
    (hsub : Does (submitCards base ((maskMacros set).zip hds) b.agent y1.lvl l f.regs
      ((y2.st.wave? b.agent b.wave).getD (t.wave b.wave)) e) y2 () y3)
    (hw : Does (L.wrW d (t'.forkSeq ++ BitVec.ofNat 6 e)) { y3 with st := y3.st.updTeam b.agent (fun t => { t with
      forks := t.forks ++ [⟨e, t'.forkSeq, (List.range (maskMacros set).length).map (y1.st.nextJob + ·)⟩],
      forkSeq := if t.forkSeq = 0x3FF_FFFF then 1 else t.forkSeq + 1 }) } () z) :
    exec (.fork h d a set) s = .next (b.complete (.fork h d a set) s id z) := by
  have hfree : ¬ (!y1.st.jobRoom (coreOf b.agent) (maskMacros set).length) = true := by simp [hroom]
  obtain ⟨st, effs, rfl⟩ := (keeps_bind keeps_checkPage fun _ => keeps_pageAddr).shape ha
  obtain ⟨st1, effs1, rfl⟩ := keeps_headers.shape hh
  obtain ⟨st2, effs2, rfl⟩ := keeps_release.shape hrel
  obtain ⟨st3, effs3, rfl⟩ := keeps_submitCards.shape hsub
  obtain ⟨_, x, hc, ha⟩ := does_bind.1 ha
  have hmod8 : ¬ base % 8 ≠ 0 := by omega
  have hgood : ¬ (((maskMacros set).zip hds).any (fun x => headerBad x.1 x.2) = true ∨ base % 64 ≠ 0) := by simp [hok, halign]
  refine runWord_writes hs hw (does_step hc (does_step ha (does_else hmod8 (does_step hh (does_else hgood
    (does_step (does_team.2 ⟨ht, rfl⟩) (does_step (does_get.2 ⟨rfl, rfl⟩) ?_))))))) rfl rfl
  rw [he]
  exact does_else hfree (does_next hrel (does_next hland (does_step (does_fibre.2 ⟨hf, rfl⟩)
    (does_step (wave_of_fibre hf) (does_next hsub (does_next (does_modTeam.2 rfl) hw))))))

/-- Settles O9: a register is opened and signed when it has room, FORK is its jobs and the entry that names them, and RDV's cases are those
of the handle. -/
theorem convergenceRegisters : Obligations.ConvergenceRegisters := by
  refine ⟨?_, ?_, ?_, ?_, ?_, ?_⟩
  · intro h a q s b t l v y t' hs hv ht hq
    exact qset_completes hs hv ht hq
  · intro h q s b t l f r hs hr hst hf hsig
    subst hr
    exact runWord_stands hs (does_step (team_start hs) (does_else hst (does_step (fibre_start hs hf)
      (does_then hsig (does_pure.2 ⟨rfl, rfl⟩))))) rfl rfl
  · intro h q s b t l f r hs hr hst hf hsig hroom
    subst hr
    exact runWord_stands hs (does_step (team_start hs) (does_else hst (does_step (fibre_start hs hf)
      (does_else (by simp [hsig]) (does_else (Nat.not_le.2 hroom)
      (does_next (does_modFibre.2 rfl) (does_modTeam.2 rfl))))))) rfl rfl
  · intro h d a set s b t l base e hds y y1 y2 y3 z t' f hs ha halign hh hok ht he hroom hrel hland hf hsub hw
    exact fork_completes hs ha halign hh hok ht he hroom hrel hland hf hsub hw
  · intro h d a s b t l v y z t' hs hv ht hf hw
    exact rdv_unknown hs hv ht hf hw
  · intro h d a s b t l v y z t' e hs hv ht hf hj hw
    exact rdv_over hs hv ht hf hj hw

end Sys2Proof.Machine
end

section
/-! Channels (R99 to R102): the entry and its counters, the ring a bind asks for, and the slot that moves as one number. -/

namespace Sys2Proof.Machine

/-! ### Channels (R99 to R102) -/

/-- A test whose one branch cannot succeed has taken the other. -/
theorem does_of_test {α : Type} {c : Prop} [Decidable c] {p q : L α} {x y : LS} {v : α} (hp : ¬ Does p x v y)
    (h : Does (if c then p else q) x v y) : Does q x v y := by
  split at h
  · exact absurd h hp
  · exact h

/-- The window check of an operand only reads (R17). -/
theorem checkG_stands {n : Nat} {x y : LS} {u : Unit} (h : Does (L.checkG n) x u y) : y = x := by
  obtain ⟨t, x', ht, hc⟩ := does_bind.1 h
  obtain ⟨-, rfl⟩ := does_team.1 ht
  exact (does_pure.1 (does_of_test not_does_trap hc)).2

theorem checkF_stands {n : Nat} {x y : LS} {u : Unit} (h : Does (L.checkF n) x u y) : y = x := by
  obtain ⟨t, x', ht, hc⟩ := does_bind.1 h
  obtain ⟨-, rfl⟩ := does_team.1 ht
  exact (does_pure.1 (does_of_test not_does_trap hc)).2

theorem rdI_stands {n : Nat} {v : Word} {x y : LS} (h : Does (L.rdI n) x v y) : y = x := by
  obtain ⟨_, x1, hl, h1⟩ := does_bind.1 h
  obtain ⟨f, x2, hf, h2⟩ := does_bind.1 h1
  obtain ⟨-, rfl⟩ := does_landed.1 hl
  obtain ⟨-, rfl⟩ := does_fibre.1 hf
  exact (does_pure.1 h2).2

theorem idxReg_stands {r : BitVec 2} {k : BitVec 6} {n : Nat} {x y : LS} (h : Does (L.idxReg r k) x n y) : y = x := by
  obtain ⟨i, x1, hi, h1⟩ := does_bind.1 h
  obtain ⟨t, x2, ht, h2⟩ := does_bind.1 h1
  obtain rfl := rdI_stands hi
  obtain ⟨-, rfl⟩ := does_team.1 ht
  have hno : ∀ {q : Unit → L Nat}, ¬ Does (L.trap 1 2 >>= q) x2 n y := fun hq => by
    obtain ⟨_, _, htrap, -⟩ := does_bind.1 hq
    exact not_does_trap htrap
  exact (does_pure.1 (does_of_test hno h2)).2

theorem checkReg_stands {o : Opnd} {x y : LS} {u : Unit} (h : Does (L.checkReg o) x u y) : y = x := by
  cases o with
  | g n => exact checkG_stands h
  | f n => exact checkF_stands h
  | idx r k =>
    obtain ⟨_, hr, -⟩ := does_map.1 h
    exact idxReg_stands hr
  | _ => exact (does_pure.1 h).2

@[simp] theorem keeps_bindPage {va : Nat} : Keeps (L.bindPage va) := by
  refine keeps_bind keeps_get fun x => keeps_bind keeps_part fun p => ?_
  split
  · exact keeps_bind keeps_setSt fun _ => keeps_pure
  · exact keeps_bind keeps_setSt fun _ => keeps_pure
  · exact keeps_test keeps_trap keeps_trap
  · exact keeps_walkFault
  · exact keeps_blockWith

@[simp] theorem keeps_bindPages {sc va n : Nat} : Keeps (L.bindPages sc va n) := by
  induction n generalizing va with
  | zero => exact keeps_pure
  | succ n ih => exact keeps_bind keeps_bindPage fun _ => keeps_test (keeps_bind keeps_trap fun _ => ih) ih

@[simp] theorem keeps_bindStream {base slots size : Nat} : Keeps (L.bindStream base slots size) := by
  unfold L.bindStream
  repeat' first
    | with_reducible refine keeps_bind ?_ fun _ => ?_
    | split
    | simp

/-- The fields of CBIND's configuration (R99). -/
theorem bindWord_fields {n slots size kind role : Nat} (h : n = slots + size * 2 ^ 12 + kind * 2 ^ 25 + role * 2 ^ 27)
    (hslots : slots < 2 ^ 12) (hsize : size < 2 ^ 13) (hkind : kind < 3) (hrole : role < 4) :
    bits n 0 12 = slots ∧ bits n 12 13 = size ∧ bits n 25 2 = kind ∧ bits n 27 2 = role ∧ bits n 29 3 = 0 := by
  simp only [bits]
  omega

@[simp] theorem keeps_slotRange {off size : Nat} : Keeps (L.slotRange off size) := keeps_checkScr

/-- CUNB of a bound entry (R100). -/
theorem cunb_completes {h : Hdr} {c : BitVec 6} {s : State} {b : Issue} {t : Team} {l : Nat} (hs : Solo s b t l h.guard)
    (hv : (vget t.c c.toNat).v = true) :
    exec (.cunb h c) s = .next (b.complete (.cunb h c) s id { b.start s t l with
      st := (if (vget t.c c.toNat).kind = 2 then s.disposeVats b.agent (some c) else s).updTeam b.agent (·.unbind c) }) := by
  have hk : ∀ e : Chan, Keeps (if e.v then (if e.kind = 2 then do
      let a := (← get).agent
      L.modSt (·.disposeVats a (some c))
      L.modTeam (·.unbind c) else L.modTeam (·.unbind c)) else pure ()) := fun e =>
    keeps_test (keeps_test (keeps_bind keeps_get fun _ => keeps_bind keeps_modSt fun _ => keeps_modTeam) keeps_modTeam) keeps_pure
  by_cases h2 : (vget t.c c.toNat).kind = 2
  · rw [if_pos h2]
    exact onceWord_completes (y := { b.start s t l with st := _ }) hs (keeps_bind keeps_team fun _ => hk _)
      (does_step (team_start hs) (does_then hv (does_then h2 (does_step (does_get.2 ⟨rfl, rfl⟩) (does_next (does_modSt.2 rfl)
        (does_modTeam.2 rfl))))))
  · rw [if_neg h2]
    exact onceWord_completes (y := { b.start s t l with st := _ }) hs (keeps_bind keeps_team fun _ => hk _)
      (does_step (team_start hs) (does_then hv (does_else h2 (does_modTeam.2 rfl))))

/-- A word that moves a whole slot between scratch and a channel (R102): the slot's range is checked, then it is taken from one and put
into the other. -/
theorem slotWord_completes {i : Instr} {h : Hdr} {a : Opnd} {c : BitVec 6} {push : Bool} {take : Nat → Chan → L Nat}
    {give : Nat → Chan → Nat → L Unit} {s : State} {b : Issue} {t : Team} {l off v : Nat} {e : Chan} {y z : LS}
    (hs : Solo s b t l h.guard) (hk : ∀ off e, Keeps (take off e)) (hk' : ∀ off e v, Keeps (give off e v))
    (hr : Does (do
      L.checkReg a
      let e ← L.chan c.toNat push
      let off := (← L.rdW a).toNat
      L.checkScr off e.size.toNat 4
      return (off, e, ← take off e)) (b.start s t l) (off, e, v) y) (hp : Does (give off e v) y () z) :
    laneWord i h .order (do
      L.checkReg a
      let e ← L.chan c.toNat push
      let off := (← L.rdW a).toNat
      L.slotRange off e.size.toNat
      give off e (← take off e)) s = .next (b.complete i s id z) := by
  obtain ⟨_, x1, hc, h1⟩ := does_bind.1 hr
  obtain ⟨e', x2, he, h2⟩ := does_bind.1 h1
  obtain ⟨o, x3, ho, h3⟩ := does_bind.1 h2
  obtain ⟨_, x4, hsc, h4⟩ := does_bind.1 h3
  obtain ⟨v', x5, hv, h5⟩ := does_bind.1 h4
  obtain ⟨heq, rfl⟩ := does_pure.1 h5
  simp only [Prod.mk.injEq] at heq
  obtain ⟨rfl, rfl, rfl⟩ := heq
  exact runWord_keeps hs (keeps_bind keeps_checkReg fun _ => keeps_bind keeps_chan fun _ => keeps_bind keeps_rdW fun _ =>
    keeps_bind keeps_slotRange fun _ => keeps_bind (hk _ _) fun _ => hk' _ _ _)
    (does_step hc (does_step he (does_step ho (does_step hsc (does_step hv hp)))))

/-- CBIND's entry for a configuration word (R99). -/
def boundChan (base n : Nat) : Chan :=
  ⟨BitVec.ofNat 52 base, BitVec.ofNat 12 (bits n 0 12), BitVec.ofNat 13 (bits n 12 13), 0, 0, BitVec.ofNat 2 (bits n 27 2),
    BitVec.ofNat 2 (bits n 25 2), true⟩

/-- What a configuration asks of its ring's place, by its KIND, and what meeting it leaves (R99, R245, R384). -/
def bindsAt (agent : AgentId) (t : Team) (base n : Nat) (y y' : LS) : Prop :=
  (bits n 25 2 = 0 → base + bits n 0 12 * bits n 12 13 ≤ t.scr ∧ y' = y) ∧
  (bits n 25 2 = 1 → Does (L.bindStream base (bits n 0 12) (bits n 12 13)) y () y') ∧
  (bits n 25 2 = 2 → bits n 27 2 = 1 ∧ base % 64 = 0 ∧ 16 ≤ bits n 12 13 ∧ base + 64 + bits n 0 12 * bits n 12 13 ≤ t.scr ∧
    y' = { y with st := y.st.updTeam agent (·.wrScr base 64 (bits n 0 12 * 2 ^ 96 + bits n 12 13 * 2 ^ 128 + 2 ^ 160)) })

theorem bindsAt.place {a e : Opnd} {s : State} {b : Issue} {t t' : Team} {l base base' n : Nat} {v : Word} {y y' : LS}
    (hb : bindsAt b.agent t' base n y y')
    (hr : Does (do return (← L.rdPair a, ← L.rdW e, ← L.team)) (b.start s t l) (base', v, t') y) (hkind : bits n 25 2 < 3) :
    y'.agent = b.agent ∧ y'.lane = l ∧ y'.unis = [] := by
  obtain ⟨h0, h1, h2⟩ := hb
  obtain ⟨st, effs, rfl⟩ := (keeps_bind keeps_rdPair fun _ => keeps_bind keeps_rdW fun _ => keeps_bind keeps_team fun _ =>
    keeps_pure).shape hr
  obtain hk | hk | hk : bits n 25 2 = 0 ∨ bits n 25 2 = 1 ∨ bits n 25 2 = 2 := by omega
  · obtain ⟨-, rfl⟩ := h0 hk
    exact ⟨rfl, rfl, rfl⟩
  · obtain ⟨st', effs', rfl⟩ := keeps_bindStream.shape (h1 hk)
    exact ⟨rfl, rfl, rfl⟩
  · obtain ⟨-, -, -, -, rfl⟩ := h2 hk
    exact ⟨rfl, rfl, rfl⟩

/-- CBIND of a free entry, with a configuration that R99 admits. -/
theorem cbind_completes {h : Hdr} {a e : Opnd} {c : BitVec 6} {s : State} {b : Issue} {t t' : Team} {l base : Nat} {v : Word}
    {y y' : LS} (hs : Solo s b t l h.guard)
    (hr : Does (do return (← L.rdPair a, ← L.rdW e, ← L.team)) (b.start s t l) (base, v, t') y)
    (hok : ¬ ((vget t'.c c.toNat).v = true ∨ bits v.toNat 29 3 ≠ 0 ∨ bits v.toNat 27 2 = 0 ∨ bits v.toNat 25 2 = 3 ∨
      bits v.toNat 12 13 % 4 ≠ 0 ∨ bits v.toNat 12 13 < 4 ∨ 4096 < bits v.toNat 12 13 ∨ bits v.toNat 0 12 = 0))
    (hbase : base < 2 ^ 52) (hkind : bits v.toNat 25 2 < 3) (hb : bindsAt b.agent t' base v.toNat y y') :
    exec (.cbind h a e c) s = .next (b.complete (.cbind h a e c) s id { y' with
      st := y'.st.updTeam b.agent (fun t => { t with c := vset t.c c.toNat (boundChan base v.toNat) }) }) := by
  obtain ⟨ha, hl, hu⟩ := hb.place hr hkind
  obtain ⟨h0, h1, h2⟩ := hb
  obtain ⟨x1, x2, hbs, hv, ht⟩ := does_triple hr
  have hmod : base % 2 ^ 52 = base := Nat.mod_eq_of_lt hbase
  refine runWord_stands hs (does_step hbs (does_step hv (does_step ht (does_else hok ?_)))) hl hu
  simp only [hmod]
  rw [← ha]
  obtain hk | hk | hk : bits v.toNat 25 2 = 0 ∨ bits v.toNat 25 2 = 1 ∨ bits v.toNat 25 2 = 2 := by omega
  · obtain ⟨hfit, rfl⟩ := h0 hk
    exact does_then hk (does_else (Nat.not_lt.2 hfit) (does_modTeam.2 rfl))
  · exact does_else (by omega) (does_then hk (does_next (h1 hk) (does_modTeam.2 rfl)))
  · obtain ⟨hrole, halign, hsize, hfit, rfl⟩ := h2 hk
    exact does_else (by omega) (does_else (by omega) (does_else (by omega) (does_else (Nat.not_lt.2 hfit)
      (does_next (does_modTeam.2 (by rw [← ha])) (does_modTeam.2 rfl)))))

/-- Settles O11: CTST reads the counters, CBIND's cases are those of its KIND, and a slot moves as one number. -/
theorem channelWords : Obligations.ChannelWords := by
  refine ⟨?_, ?_, ?_, ?_, ?_, ?_⟩
  · intro h d c s b t l y z hs hv hc hw
    obtain rfl := checkReg_stands hc
    exact runWord_writes hs hw (does_step hc (does_step (team_start hs) (does_then (by simp [hv]) hw))) rfl rfl
  · intro h d c s b t l r y z hs hv hc hw
    obtain ⟨_, x, hd, hr⟩ := does_bind.1 hc
    obtain rfl := checkReg_stands hd
    obtain ⟨st, effs, rfl⟩ := keeps_ring.shape hr
    exact runWord_writes hs hw (does_step hd (does_step (team_start hs) (does_else (by simp [hv]) (does_step hr hw)))) rfl rfl
  · intro h a e c s b t l base v t' y y' slots size role kind hs hr hval hslots hsize hkind hrole hv hr0 hs0 h4 hlo hhi hbase h0 h1 h2
    obtain ⟨rfl, rfl, rfl, rfl, h29⟩ := bindWord_fields hval hslots hsize hkind hrole
    exact cbind_completes hs hr (by simp [hv, h29, hr0, hs0, h4]; omega) hbase hkind ⟨h0, h1, h2⟩
  · intro h c s b t l hs hv
    exact cunb_completes hs hv
  · intro h a c s b t l off v e y z hs hr hp
    exact slotWord_completes (take := fun off e => L.loadScr off e.size.toNat)
      (give := fun _ e v => L.chanPush c.toNat v (e.size.toNat / 4)) hs (fun _ _ => keeps_loadScr) (fun _ _ _ => keeps_chanPush) hr hp
  · intro h a c s b t l off v e y z hs hr hp
    exact slotWord_completes (take := fun _ e => L.chanPop c.toNat false (e.size.toNat / 4))
      (give := fun off e v => L.storeScr off e.size.toNat v) hs (fun _ _ => keeps_chanPop) (fun _ _ _ => keeps_storeScr) hr hp

end Sys2Proof.Machine
end

section
/-! MMA presented (R93, R189): a presentation that agrees with the others is counted, and the last one issues the command. -/

namespace Sys2Proof.Machine

/-! ### Commands of the engines (R179, R180, R182) -/

@[simp] theorem keeps_known {i : Instr} : Keeps (L.known i) :=
  keeps_bind keeps_get fun _ => keeps_bind keeps_team fun _ => keeps_test keeps_block keeps_pure

@[simp] theorem keeps_cmdRead {i : Instr} : Keeps (L.cmdRead i) :=
  keeps_bind keeps_checkRegs fun _ => keeps_bind keeps_known fun _ => keeps_bind keeps_get fun _ => keeps_bind keeps_team fun _ =>
    keeps_bind (keeps_forM (fun _ => keeps_discard keeps_rdW) _) fun _ => keeps_bind keeps_get fun _ => keeps_bind keeps_team fun _ =>
      keeps_bind keeps_part fun _ => keeps_pure

@[simp] theorem keeps_engine : Keeps L.engine :=
  keeps_bind keeps_get fun _ => keeps_test (keeps_bind keeps_block fun _ => keeps_modSt) keeps_modSt

@[simp] theorem keeps_refuse {c : Bad} : Keeps (L.refuse c) := by
  cases c with
  | none => exact keeps_pure
  | some k => exact keeps_trap

@[simp] theorem keeps_owe {n : Nat} : Keeps (L.owe n) := keeps_modFibre

/-- The issue of a command with room in the job table is a release, and then its job (R180). -/
theorem issue_submits {i : Instr} {c : CmdArgs} {q : Option Nat} {x y : LS} {t : Team} (heng : (engOf i).getD .matrix = engineOf i)
    (hrel : Does (L.release 0) x () y) (hroom : x.st.jobRoom (coreOf x.agent) 1 = true) (ht : y.st.team? x.agent = some t) :
    Does (L.issue i c q) x () (y.issued x.st i c q t) := by
  have hfree : ¬ (!x.st.jobRoom (coreOf x.agent) 1) = true := by simp [hroom]
  obtain ⟨st, effs, rfl⟩ := keeps_release.shape hrel
  refine does_step (does_get.2 ⟨rfl, rfl⟩) (does_else hfree (does_next hrel (does_step (does_team.2 ⟨ht, rfl⟩) ?_)))
  cases hfp : footprint t (viewAt x.st t x.st.nextJob) i c with
  | mk reads writes => exact does_modSt.2 (by simp only [LS.issued, ← heng, hfp])

/-! ### MMA presented (R93, R189) -/

/-- What follows the check of a presentation: the fibre owes the job to come, and the last presentation makes it. -/
def L.present (i : Instr) (c : CmdArgs) (q : BitVec 3) (r : ConvReg) : L Unit := do
  L.owe (presentMark + q.toNat)
  if r.presented = r.need then
    L.issue i c (some q.toNat)
    let n := (← get).st.nextJob - 1
    L.modTeam (fun t => { t with
      q := vset t.q q.toNat { r with st := 2, job := some n }
      fibres := t.fibres.map (fun y => (y.1, { y.2 with
        jobs := y.2.jobs.map (fun k => if k = presentMark + q.toNat then n else k) })) })
  else L.modTeam (fun t => { t with q := vset t.q q.toNat r })

/-- The register with one more presentation. -/
def ConvReg.presents (r : ConvReg) (i : Instr) (c : CmdArgs) : ConvReg :=
  { r with presented := r.presented + 1, opw := encode i, caps := some c }

/-- A fibre that has signed presents its MMA: the command is read and checked, and agrees with the others' (R93). -/
theorem mma_presents {h : Hdr} {d a c : Opnd} {z0 q : BitVec 3} {rows : BitVec 4} {s : State} {b : Issue} {t t' : Team} {l : Nat}
    {k : CmdArgs} {f : Fibre} {r : ConvReg} {y z : LS} (hs : Solo s b t l h.guard) (hf : t.fibre? (t.slot b.wave l) = some f)
    (hsig : vget f.sig q.toNat = true)
    (hr : Does (do
      L.modFibre (fun f => { f with sig := vset f.sig q.toNat false })
      let k ← L.cmdRead (.mma h d a c z0 rows q)
      L.engine
      return (k, ← L.team)) (b.start s t l) (k, t') y)
    (hok : cmdCheck t' (viewAt y.st t' y.st.nextJob) (.mma h d a c z0 rows q) k = none) (hq : vget t'.q q.toNat = r)
    (hsame : r.presented = 0 ∨ r.opw = encode (.mma h d a c z0 rows q) ∧ r.caps = some k)
    (hp : Does (L.present (.mma h d a c z0 rows q) k q (r.presents (.mma h d a c z0 rows q) k)) y () z) (hl : z.lane = l)
    (hu : z.unis = []) : exec (.mma h d a c z0 rows q) s = .next (b.complete (.mma h d a c z0 rows q) s id z) := by
  subst hq
  obtain ⟨_, x1, hm, h1⟩ := does_bind.1 hr
  obtain ⟨_, x2, hk, h2⟩ := does_bind.1 h1
  obtain ⟨_, x3, he, h3⟩ := does_bind.1 h2
  obtain ⟨_, x4, ht, h4⟩ := does_bind.1 h3
  obtain ⟨heq, rfl⟩ := does_pure.1 h4
  simp only [Prod.mk.injEq] at heq
  obtain ⟨rfl, rfl⟩ := heq
  have hagrees : ¬ ((vget t'.q q.toNat).presented ≠ 0 ∧
      ((vget t'.q q.toNat).opw ≠ encode (.mma h d a c z0 rows q) ∨ (vget t'.q q.toNat).caps ≠ some k)) := by
    rintro ⟨hne, hdiff⟩
    obtain h0 | ⟨hw, hc⟩ := hsame
    · exact hne h0
    · exact hdiff.elim (· hw) (· hc)
  obtain ⟨-, hx⟩ := does_team.1 ht
  subst hx
  refine runWord_stands hs (does_step (fibre_start hs hf) (does_else (by simp [hsig]) (does_step hm (does_step hk (does_step he
    (does_step (does_get.2 ⟨rfl, rfl⟩) (does_step ht ?_))))))) hl hu
  rw [hok]
  exact does_next (does_pure.2 ⟨rfl, rfl⟩) (does_else hagrees hp)

/-- The agent, wave and lane of a presentation that has been read and checked. -/
theorem mma_place {i : Instr} {q : BitVec 3} {s : State} {b : Issue} {t t' : Team} {l : Nat} {k : CmdArgs} {y : LS}
    (hr : Does (do
      L.modFibre (fun f => { f with sig := vset f.sig q.toNat false })
      let k ← L.cmdRead i
      L.engine
      return (k, ← L.team)) (b.start s t l) (k, t') y) : ∃ st effs, y = { b.start s t l with st := st, effs := effs } :=
  (keeps_bind keeps_modFibre fun _ => keeps_bind keeps_cmdRead fun _ => keeps_bind keeps_engine fun _ => keeps_bind keeps_team
    fun _ => keeps_pure).shape hr

/-- Settles O27: a presentation that is not the last is counted; the last one issues the command. -/
theorem presentedMma : Obligations.PresentedMma := by
  refine ⟨?_, ?_⟩
  · intro h d a c z0 q rows s b t l k f t' r y hs hf hsig hr hok hq hsame hmore
    have hp := mma_presents (z := { y with st := _ }) hs hf hsig hr hok hq hsame
      (does_next (does_modFibre.2 rfl) (does_else hmore (does_modTeam.2 rfl)))
    obtain ⟨st, effs, rfl⟩ := mma_place hr
    exact hp rfl rfl
  · intro h d a c z0 q rows s b t l k f t1 t2 r y y1 y' hs hf hsig hr hok hq hsame hlast hroom hm hrel ht
    obtain ⟨st, effs, rfl⟩ := mma_place hr
    obtain rfl := does_modFibre.1 hm
    have hi := issue_submits (i := .mma h d a c z0 rows q) (c := k) (q := some q.toNat) rfl hrel hroom ht
    obtain ⟨st', effs', rfl⟩ := keeps_release.shape hrel
    exact mma_presents hs hf hsig hr hok hq hsame
      (does_next hm (does_then hlast (does_next hi (does_step (does_get.2 ⟨rfl, rfl⟩) (does_modTeam.2 rfl))))) rfl rfl

end Sys2Proof.Machine
end

section
/-! The step that issues a batch (R51, R78): its word is the one it stands in or the one its fetch gives, and NOP is the zero word (R80). -/

namespace Sys2Proof.Machine

/-! ### A step that issues a batch (R51, R78) -/

theorem sealFates_tick {s : State} {b : Issue} : (s.sealFates b).tick = s.tick := rfl

/-- What a word runs from: a scratch word has bound the accesses that it goes before (R260). -/
def State.sealedFor (s : State) (b : Issue) (i : Instr) : State := if scratchWord i then s.sealFates b else s

theorem sealedFor_tick {s : State} {b : Issue} {i : Instr} : (s.sealedFor b i).tick = s.tick := by
  unfold State.sealedFor
  split
  · exact sealFates_tick
  · rfl

/-- A word runs over its whole batch, or, where lanes of it come later, over the batch in parts (R12, R304). -/
theorem runWord_cases (s : State) (b : Issue) (i : Instr) :
    s.runWord b i = exec i { s.sealedFor b i with cur := some b } ∨
    (b.split i s.tick).later ≠ [] ∧ s.runWord b i = exec i { s.sealedFor b i with cur := some (b.split i s.tick) } := by
  have hrun : s.runWord b i = if (b.split i (s.sealedFor b i).tick).later.isEmpty then exec i { s.sealedFor b i with cur := some b }
      else match exec i { s.sealedFor b i with cur := some (b.split i (s.sealedFor b i).tick) } with
        | .next t => match ((t.wave? b.agent b.wave).bind (fun w => w.stuck.find? (fun k => k.isOf b && k.why == .lanes))) with
          | none => .next t
          | some k => if t.issuesOn b && t.lanesFinish b.agent b.wave i k then .next t else exec i { s.sealedFor b i with cur := some b }
        | o => o := rfl
  rw [sealedFor_tick] at hrun
  rw [hrun]
  by_cases hl : (b.split i s.tick).later = []
  · simp [hl]
  · rw [if_neg (by simpa using hl)]
    cases exec i { s.sealedFor b i with cur := some (b.split i s.tick) } with
    | next t =>
      dsimp only
      split
      · exact .inr ⟨hl, rfl⟩
      · split
        · exact .inr ⟨hl, rfl⟩
        · exact .inl rfl
    | fault f => exact .inr ⟨hl, rfl⟩
    | refused r => exact .inr ⟨hl, rfl⟩

/-- A step that issues a batch is what the issue answers, noted, and time passes (R319). -/
theorem step_batch_next {s u : State} {b : Issue} (h : s.choice = some (.batch b)) (hi : s.issue b = .next u) :
    step s = .next (s.issued (.batch b) u).settle := by
  simp only [step, h, State.take, hi]

theorem step_batch_fault {s : State} {b : Issue} {f : Fault} (h : s.choice = some (.batch b)) (hi : s.issue b = .fault f) :
    step s = .fault f := by
  simp only [step, h, State.take, hi]

theorem step_batch_refused {s : State} {b : Issue} {r : Refusal} (h : s.choice = some (.batch b)) (hi : s.issue b = .refused r) :
    step s = .refused r := by
  simp only [step, h, State.take, hi]

/-- A step that issues a batch with a known word runs that word. -/
theorem stepRuns_of_issue {s x : State} {b : Issue} {i : Instr} (h : s.choice = some (.batch b)) (hi : s.issue b = x.runWord b i) :
    StepRuns s b x i := by
  obtain ⟨c, hc, hl, he⟩ : ∃ c, (c = b ∨ c = b.split i x.tick) ∧ ((b.split i x.tick).later = [] → c = b) ∧
      x.runWord b i = exec i { x.sealedFor b i with cur := some c } := by
    obtain hw | ⟨hne, hp⟩ := runWord_cases x b i
    · exact ⟨b, .inl rfl, fun _ => rfl, hw⟩
    · exact ⟨_, .inr rfl, fun h => absurd h hne, hp⟩
  refine ⟨c, hc, hl, ?_⟩
  rw [he] at hi
  change step s = match exec i { x.sealedFor b i with cur := some c } with
    | .next t => .next (s.issued (.batch b) t).settle
    | .fault f => .fault f
    | .refused r => .refused r
  cases hx : exec i { x.sealedFor b i with cur := some c } with
  | next t => exact step_batch_next h (hi.trans hx)
  | fault f => exact step_batch_fault h (hi.trans hx)
  | refused r => exact step_batch_refused h (hi.trans hx)

/-- A fetched word is decoded and run, or raises ILL in every lane (R51). -/
theorem issue_decoded {s : State} {b : Issue} {w : Nat} {x : LS} {i : Instr} (hk : s.keptWord b = none)
    (hf : s.fetch b = .ok (w, x)) (hd : decode (BitVec.ofNat 64 w) = .ok i) : s.issue b = x.st.runWord b i := by
  simp only [State.issue, hk, hf, hd]

theorem issue_illegal {s : State} {b : Issue} {w e : Nat} {x : LS} (hk : s.keptWord b = none)
    (hf : s.fetch b = .ok (w, x)) (hd : decode (BitVec.ofNat 64 w) = .error e) :
    s.issue b = .next (x.st.enterHandler b.agent b.wave b.pc (b.todo.map (fun l => ⟨l, 0, BitVec.ofNat 8 e, 0, 0⟩)) b.todo b.todo
      none) := by
  simp only [State.issue, hk, hf, hd]
  rfl

theorem issue_kept {s : State} {b : Issue} {i : Instr} (hk : s.keptWord b = some i) : s.issue b = s.runWord b i := by
  simp only [State.issue, hk]

/-- Settles O53: the chosen batch issues the word it stands in, or else the one that its fetch gives. -/
theorem stepRunsDecodedInstruction : Obligations.StepRunsDecodedInstruction := by
  intro s b hch
  refine ⟨fun w x hk hf => ⟨fun i hd => ?_, fun e hd => ?_⟩, fun i hk => ?_⟩
  · exact stepRuns_of_issue hch (issue_decoded hk hf hd)
  · exact step_batch_next hch (issue_illegal hk hf hd)
  · exact stepRuns_of_issue hch (issue_kept hk)

/-! ### NOP (R50, R51, R80) -/

theorem buildPair_ne_nop (x y : Slot) : buildPair x y ≠ .nop := by
  unfold buildPair
  cases x.op <;> exact Instr.noConfusion

theorem csrRead_ne_nop (F : Fields) : csrRead F ≠ .nop := by
  unfold csrRead
  dsimp only
  split <;> exact Instr.noConfusion

theorem csrWrite_ne_nop (F : Fields) : csrWrite F ≠ .nop := by
  unfold csrWrite
  dsimp only
  repeat' split
  all_goals exact Instr.noConfusion

theorem buildControl_nop {F : Fields} (h : buildControl F = some .nop) : F.op.toNat = 0 := by
  unfold buildControl at h
  split at h
  · assumption
  all_goals simp at h

theorem buildInteger_ne_nop (F : Fields) : buildInteger F ≠ some .nop := by
  unfold buildInteger
  split <;> simp

theorem buildFloat_ne_nop (F : Fields) : buildFloat F ≠ some .nop := by
  unfold buildFloat
  split <;> simp

theorem buildInterval_ne_nop (F : Fields) : buildInterval F ≠ some .nop := by
  unfold buildInterval
  split <;> simp

theorem buildMemory_ne_nop (F : Fields) : buildMemory F ≠ some .nop := by
  unfold buildMemory
  split <;> simp

theorem buildOrder_ne_nop (F : Fields) : buildOrder F ≠ some .nop := by
  unfold buildOrder
  split <;> simp

theorem buildEngine_ne_nop (F : Fields) : buildEngine F ≠ some .nop := by
  unfold buildEngine
  split <;> simp

theorem buildSystem_ne_nop (F : Fields) : buildSystem F ≠ some .nop := by
  unfold buildSystem
  split <;> simp [csrRead_ne_nop, csrWrite_ne_nop]

/-- Only operation 0 builds NOP. -/
theorem build_nop {F : Fields} (h : build F = some .nop) : F.op.toNat = 0 := by
  unfold build at h
  split at h
  · exact buildControl_nop h
  · exact absurd h (buildInteger_ne_nop F)
  · exact absurd h (buildFloat_ne_nop F)
  · exact absurd h (buildInterval_ne_nop F)
  · exact absurd h (buildMemory_ne_nop F)
  · exact absurd h (buildOrder_ne_nop F)
  · exact absurd h (buildEngine_ne_nop F)
  · exact absurd h (buildSystem_ne_nop F)
  · cases h

/-- A full-form word of operation 0 other than NOP is reserved (R50, R80). -/
theorem fullIll_op0 {w : DWord} (h : (fieldsOf w).op.toNat = 0) : fullIll w = if w = 0 then none else some illRsvd := by
  simp only [fullIll, h, if_true]

theorem decode_nop {w : DWord} (h : decode w = .ok .nop) : w = 0 := by
  unfold decode at h
  split at h
  · split at h
    · cases h
    · split at h
      · exact absurd (Except.ok.inj h) (buildPair_ne_nop _ _)
      · cases h
  · split at h
    · cases h
    · rename_i hill
      split at h
      · rename_i i hb
        rw [Except.ok.inj h] at hb
        rw [fullIll_op0 (build_nop hb)] at hill
        simpa using hill
      · cases h

theorem decode_op0 {w : DWord} (h63 : w.getLsbD 63 = false) (hop : w.extractLsb' 54 9 = 0) (hne : w ≠ 0) :
    decode w = .error illRsvd := by
  have hill : fullIll w = some illRsvd := by
    rw [fullIll_op0 (by simp only [fieldsOf, hop]; rfl), if_neg hne]
  simp only [decode, h63, Bool.false_eq_true, if_false, hill]

/-- Settles O60: operation 0 is NOP's alone, and of its words only the zero one is legal. -/
theorem nopWord : Obligations.NopWord := by
  refine ⟨rfl, fun w h => decode_nop h, ?_, fun w h63 hop hne => ⟨decode_op0 h63 hop hne, ?_⟩⟩
  · intro s b t l hs
    exact runWord_keeps hs keeps_pure (does_pure.2 ⟨rfl, rfl⟩)
  · intro s b x hk hf
    exact issue_illegal hk hf (by rw [BitVec.ofNat_toNat, BitVec.setWidth_eq]; exact decode_op0 h63 hop hne)

end Sys2Proof.Machine
end

section
/-! Integer words (R107 to R115): the operands are checked and read, and then the result is written to D. -/

namespace Sys2Proof.Machine

/-! ### Two sources and one (R107, R108, R111, R112, R115) -/

/-- The checks and the reads of the sources. -/
theorem keeps_read2 {a c d : Opnd} : Keeps (do L.check 1 [a, c] [d]; return (← L.rdW a, ← L.rdW c)) :=
  keeps_bind keeps_check fun _ => keeps_bind keeps_rdW fun _ => keeps_bind keeps_rdW fun _ => keeps_pure

theorem keeps_read3 {a c d : Opnd} : Keeps (do L.check 1 [a, c] [d]; return (← L.rdW a, ← L.rdW c, ← L.rdW d)) :=
  keeps_bind keeps_check fun _ => keeps_bind keeps_rdW fun _ => keeps_bind keeps_rdW fun _ => keeps_bind keeps_rdW fun _ => keeps_pure

/-- A word that reads its two sources and writes a result of them completes. -/
theorem twoWord_completes {i : Instr} {h : Hdr} {f : Word → Word → Word} {d a c : Opnd} {s : State} {b : Issue} {t : Team} {l : Nat}
    {u v : Word} {y z : LS} (hs : Solo s b t l h.guard)
    (hr : Does (do L.check 1 [a, c] [d]; return (← L.rdW a, ← L.rdW c)) (b.start s t l) (u, v) y)
    (hw : Does (L.wrW d (f u v)) y () z) : twoWord i h f d a c s = .next (b.complete i s id z) := by
  obtain ⟨hlane, hunis, -⟩ := keeps_read2.of_start hr
  obtain ⟨_, x, hc, hr⟩ := does_bind.1 hr
  obtain ⟨x', hu, hv⟩ := does_pair hr
  exact runWord_writes hs hw (does_step hc (does_step hu (does_step hv hw))) hlane hunis

/-- A word of one source reads it and writes the result of its table. -/
theorem exec_oneSources (pos len : BitVec 5) : ∀ p ∈ oneSources pos len, ∀ (h : Hdr) (d a : Opnd) (s : State),
    exec (p.1 h d a) s = oneWord (p.1 h d a) h p.2 d a s := by
  intro p hp h d a s
  simp only [oneSources, List.mem_cons, List.not_mem_nil, or_false] at hp
  rcases hp with rfl | rfl | rfl | rfl | rfl | rfl | rfl <;> rfl

theorem oneWord_completes {i : Instr} {h : Hdr} {f : Word → Word} {d a : Opnd} {s : State} {b : Issue} {t : Team} {l : Nat}
    {u : Word} {y z : LS} (hs : Solo s b t l h.guard) (hr : Does (do L.check 1 [a] [d]; L.rdW a) (b.start s t l) u y)
    (hw : Does (L.wrW d (f u)) y () z) : oneWord i h f d a s = .next (b.complete i s id z) := by
  obtain ⟨hlane, hunis, -⟩ := (keeps_bind keeps_check fun _ => keeps_rdW).of_start hr
  obtain ⟨_, x, hc, hu⟩ := does_bind.1 hr
  exact runWord_writes hs hw (does_step hc (does_step hu hw)) hlane hunis

/-- Settles O1: each word is the checks and the reads of its sources, and then the write of its table's result. -/
theorem integerTwoSources : Obligations.IntegerTwoSources := by
  refine ⟨?_, ?_, ?_⟩
  · intro p hp h d a c s b t l u v y z hs hr hw
    rw [exec_twoSources p hp]
    exact twoWord_completes hs hr hw
  · intro pos len p hp h d a s b t l u y z hs hr hw
    rw [exec_oneSources pos len p hp]
    exact oneWord_completes hs hr hw
  · intro h d a pos len s b t l u w y z hs hr hw
    have hk : Keeps (do L.check 1 [a] [d]; return (← L.rdW a, ← L.rdW d)) :=
      keeps_bind keeps_check fun _ => keeps_bind keeps_rdW fun _ => keeps_bind keeps_rdW fun _ => keeps_pure
    obtain ⟨hlane, hunis, -⟩ := hk.of_start hr
    obtain ⟨_, x, hc, hr⟩ := does_bind.1 hr
    obtain ⟨x', hu, hd⟩ := does_pair hr
    exact runWord_writes hs hw (does_step hc (does_step hu (does_step hd hw))) hlane hunis

/-! ### MAD (R110) -/

/-- The low 32 bits of a product and a sum. -/
theorem mad_low (u v w : Word) : u * v + w = BitVec.ofNat 32 (u.toNat * v.toNat + w.toNat) := by
  apply BitVec.eq_of_toNat_eq
  simp

/-- A register of a uniform or a lane's own file. -/
theorem isIn_kGS {d : Opnd} (h : d.isIn kGS = true) : (∃ n, d = .g n) ∨ ∃ n, d = .s n := by
  cases d with
  | g n => exact .inl ⟨n, rfl⟩
  | s n => exact .inr ⟨n, rfl⟩
  | _ => simp [Opnd.isIn, kGS] at h

theorem mad_wf {h : Hdr} {d a c : Opnd} : (Instr.mad h d a c).wf = true ↔ h.noLa = true ∧ d.isIn kGS = true ∧ a.isIn kV = true ∧
    c.isIn kVI = true ∧ share [d, a, c] = true := by
  simp only [Instr.wf, Bool.and_eq_true, and_assoc]

/-- Settles O2: D is read after A and B, and the word's result is the product and the sum modulo 2^32. -/
theorem multiplyAdd : Obligations.MultiplyAdd := by
  refine ⟨?_, ?_, ?_⟩
  · intro h d a c s b t l u v w y z hs hr hw
    obtain ⟨hlane, hunis, -⟩ := keeps_read3.of_start hr
    obtain ⟨_, x, hc, hr⟩ := does_bind.1 hr
    obtain ⟨x1, x2, hu, hv, hd⟩ := does_triple hr
    rw [← mad_low] at hw
    exact runWord_writes hs hw (does_step hc (does_step hu (does_step hv (does_step hd hw)))) hlane hunis
  · intro h d a c hwf
    obtain ⟨-, hd, -⟩ := mad_wf.1 hwf
    exact isIn_kGS hd
  · intro n k m q
    exact ⟨rfl, rfl⟩

/-! ### CMP, SEL (R113, R114) -/

/-- CMP's relation is the one of the table. -/
theorem relHolds_intRels : ∀ p ∈ intRels, relHolds p.1.toNat = p.2 := by
  intro p hp
  simp only [intRels, List.mem_cons, List.not_mem_nil, or_false] at hp
  rcases hp with rfl | rfl | rfl | rfl | rfl | rfl | rfl | rfl | rfl | rfl <;> rfl

/-- A decided pair is 01 or 10 (R72). -/
theorem withPair_decided (w : Word) (k : Nat) (r : Bool) :
    withPair w k (some r) = BitVec.ofNat 32 (setBits w.toNat k 2 (if r then 1 else 2)) := by
  cases r <;> rfl

theorem cmp_completes {h : Hdr} {d a c : Opnd} {o : TOpt} {s : State} {b : Issue} {t : Team} {l : Nat} {u v w : Word} {y z : LS}
    (hs : Solo s b t l h.guard)
    (hr : Does (do L.check 1 [a, c] [d]; return (← L.rdW a, ← L.rdW c, ← L.rdW d)) (b.start s t l) (u, v, w) y)
    (hw : Does (L.wrW d (withPair w o.pb.toNat (some (relHolds o.rel.toNat u v)))) y () z) :
    exec (.cmp h d a c o) s = .next (b.complete (.cmp h d a c o) s id z) := by
  obtain ⟨hlane, hunis, -⟩ := keeps_read3.of_start hr
  obtain ⟨_, x, hc, hr⟩ := does_bind.1 hr
  obtain ⟨x1, x2, hu, hv, hd⟩ := does_triple hr
  exact runWord_writes hs hw (does_step hc (does_step hu (does_step hv (does_step hd hw)))) hlane hunis

/-! ### SETIX (R120) -/

theorem setix_completes {h : Hdr} {d a c : Opnd} {s : State} {b : Issue} {t : Team} {l : Nat} {u v : Word} {g : Nat} {y z : LS}
    (hs : Solo s b t l h.guard)
    (hr : Does (do L.check 1 [a, c] [d]; return (← L.rdW a, ← L.rdW c, (← L.team).gWin)) (b.start s t l) (u, v, g) y)
    (hin : ¬ (2 ^ 16 ≤ u.toNat ∨ 2 ^ 16 ≤ v.toNat ∨ g < v.toNat))
    (hw : Does (L.wrW d (v.extractLsb' 0 16 ++ u.extractLsb' 0 16)) y () z) :
    exec (.setix h d a c) s = .next (b.complete (.setix h d a c) s id z) := by
  have hk : Keeps (do L.check 1 [a, c] [d]; return (← L.rdW a, ← L.rdW c, (← L.team).gWin)) :=
    keeps_bind keeps_check fun _ => keeps_bind keeps_rdW fun _ => keeps_bind keeps_rdW fun _ => keeps_bind keeps_team fun _ => keeps_pure
  obtain ⟨hlane, hunis, -⟩ := hk.of_start hr
  obtain ⟨_, x, hc, hr⟩ := does_bind.1 hr
  obtain ⟨u', x1, hu, hr⟩ := does_bind.1 hr
  obtain ⟨v', x2, hv, hr⟩ := does_bind.1 hr
  obtain ⟨t', x3, ht, hr⟩ := does_bind.1 hr
  obtain ⟨heq, rfl⟩ := does_pure.1 hr
  simp only [Prod.mk.injEq] at heq
  obtain ⟨rfl, rfl, rfl⟩ := heq
  exact runWord_writes hs hw (does_step hc (does_step hu (does_step hv (does_step ht (does_else hin hw))))) hlane hunis

/-! ### LEA (R121) -/

theorem keeps_leaOps {d : Opnd} {m : MemOpnd} : Keeps (do L.checkAddr m; L.checkReg d; L.addrOps m) :=
  keeps_bind keeps_checkAddr fun _ => keeps_bind keeps_checkReg fun _ => keeps_addrOps

/-- A scratch address is one word. -/
theorem lea_scratch {h : Hdr} {d : Opnd} {wid : Wid} {m : MemOpnd} {s : State} {b : Issue} {t : Team} {l av bv : Nat} {y z : LS}
    (hs : Solo s b t l h.guard) (hm : m.scratch = true)
    (hr : Does (do L.checkAddr m; L.checkReg d; L.addrOps m) (b.start s t l) (av, bv) y)
    (hw : Does (L.wrW d (BitVec.ofInt 32 (memEa m (widSize wid) av bv))) y () z) :
    exec (.lea h d wid m) s = .next (b.complete (.lea h d wid m) s id z) := by
  obtain ⟨hlane, hunis, -⟩ := keeps_leaOps.of_start hr
  obtain ⟨_, x, hc, hr⟩ := does_bind.1 hr
  obtain ⟨_, x', hd, ho⟩ := does_bind.1 hr
  exact runWord_writes hs hw (does_step hc (does_step hd (does_step ho (does_then hm hw)))) hlane hunis

/-- A global address is a pair of words, its bits 63:52 zero (R40). -/
theorem lea_global {h : Hdr} {d : Opnd} {wid : Wid} {m : MemOpnd} {s : State} {b : Issue} {t : Team} {l av bv : Nat} {y z : LS}
    (hs : Solo s b t l h.guard) (hm : m.scratch = false)
    (hr : Does (do L.checkAddr m; L.checkReg d; L.addrOps m) (b.start s t l) (av, bv) y)
    (hin : (memEa m (widSize wid) av bv % 2 ^ 64).toNat < 2 ^ 52)
    (hw : Does (L.wrPair d (memEa m (widSize wid) av bv % 2 ^ 64).toNat) y () z) :
    exec (.lea h d wid m) s = .next (b.complete (.lea h d wid m) s id z) := by
  obtain ⟨hlane, hunis, -⟩ := keeps_leaOps.of_start hr
  obtain ⟨_, x, hc, hr⟩ := does_bind.1 hr
  obtain ⟨_, x', hd, ho⟩ := does_bind.1 hr
  have hea : Does (L.globalEa 0 (memEa m (widSize wid) av bv)) y (memEa m (widSize wid) av bv % 2 ^ 64).toNat y :=
    does_else (Nat.not_le.2 hin) (does_pure.2 ⟨rfl, rfl⟩)
  have hz := keeps_wrPair _ _ _ hw
  exact runWord_stands hs (does_step hc (does_step hd (does_step ho (does_else (by simp [hm]) (does_step hea hw)))))
    (by rw [hz]; exact hlane) (by rw [hz]; exact hunis)

/-! ### RDID (R117) -/

/-- What RDID's selector names, as the lane's part of the word begins. -/
theorem identity_start {s : State} {b : Issue} {t : Team} {l : Nat} {g : Option Guard} (hs : Solo s b t l g) :
    ∀ p ∈ identityOf s b t l, Does (L.identity p.1) (b.start s t l) p.2 (b.start s t l) := by
  intro p hp
  refine does_step (does_get.2 ⟨rfl, rfl⟩) (does_step (team_start hs) ?_)
  have hteam : (b.start s t l).st0.team? (b.start s t l).agent = some t := hs.team
  simp only [identityOf, List.mem_cons, List.not_mem_nil, or_false] at hp
  rcases hp with rfl | rfl | rfl | rfl | rfl | rfl | rfl | rfl | rfl | rfl
  pick_goal 9
  · refine does_pure.2 ⟨?_, rfl⟩
    rw [hteam]
    rfl
  all_goals exact does_pure.2 ⟨rfl, rfl⟩

/-- Settles O3: each word is its checks and reads, and then one write of D; what it writes is the table's value. -/
theorem compareAndSelect : Obligations.CompareAndSelect := by
  refine ⟨?_, ?_, ?_, ?_, ?_, ?_, ?_, ?_, ?_⟩
  · intro p hp h d a c wide pb s b t l u v w y z hs hr hw
    rw [← relHolds_intRels p hp, ← withPair_decided] at hw
    exact cmp_completes hs hr hw
  · intro h d a c cr cb s b t l w u v y z hs hr hw
    have hk : Keeps (do L.checkG cr.toNat; L.check 1 [a, c] [d]; return (← L.rdG cr.toNat, ← L.rdW a, ← L.rdW c)) :=
      keeps_bind keeps_checkG fun _ => keeps_bind keeps_check fun _ => keeps_bind keeps_rdG fun _ => keeps_bind keeps_rdW fun _ =>
        keeps_bind keeps_rdW fun _ => keeps_pure
    obtain ⟨hlane, hunis, -⟩ := hk.of_start hr
    obtain ⟨_, x, hg, hr⟩ := does_bind.1 hr
    obtain ⟨_, x', hc, hr⟩ := does_bind.1 hr
    obtain ⟨x1, x2, hb, hu, hv⟩ := does_triple hr
    exact runWord_writes hs hw (does_step hg (does_step hc (does_step hb (does_step hu (does_step hv hw))))) hlane hunis
  · intro h d a c s b t l u v g y z hs hr hu hv hg hw
    exact setix_completes hs hr (by omega) hw
  · intro h d a c s b t l u v y z hs hr hw
    exact twoWord_completes (f := fun u v => (u.extractLsb' 0 16).setWidth 32 + v) hs hr hw
  · intro h d wid m s b t l av bv y z hs hm hr hw
    exact lea_scratch hs hm hr hw
  · intro h d wid m s b t l av bv y z hs hm hr hin hw
    exact lea_global hs hm hr hin hw
  · intro h d imm s b t l z hs hw
    exact runWord_writes hs hw hw rfl rfl
  · intro h d imm s b t l w y z hs hr hw
    obtain ⟨hlane, hunis, -⟩ := keeps_rdW.of_start hr
    exact runWord_writes hs hw (does_step hr hw) hlane hunis
  · intro h d s b t l y z p hp hs hc hw
    obtain rfl := checkReg_stands hc
    exact runWord_writes hs hw (does_step hc (does_step (identity_start hs p hp) hw)) rfl rfl

end Sys2Proof.Machine
end

section
/-! Long-latency integer words (R109, R116): DIV, DIVU, REM, REMU and SHFL capture their sources, and without lookahead the result lands
at once (log 14). -/

namespace Sys2Proof.Machine

/-! ### DIV, DIVU, REM and REMU (R109) -/

theorem exec_divisions : ∀ p ∈ divisions, ∀ (h : Hdr) (d a c : Opnd) (s : State),
    exec (p.1 h d a c) s = divWord (p.1 h d a c) h p.2 d a c s := by
  intro p hp h d a c s
  simp only [divisions, List.mem_cons, List.not_mem_nil, or_false] at hp
  rcases hp with rfl | rfl | rfl | rfl <;> rfl

theorem perfOf_divisions : ∀ p ∈ divisions, ∀ (h : Hdr) (d a c : Opnd), perfOf (p.1 h d a c) = perfInt p.2 := by
  intro p hp h d a c
  simp only [divisions, List.mem_cons, List.not_mem_nil, or_false] at hp
  rcases hp with rfl | rfl | rfl | rfl <;> rfl

theorem destsOf_divisions : ∀ p ∈ divisions, ∀ (h : Hdr) (d a c : Opnd) (k : Cap), destsOf (p.1 h d a c) k = intDest d k := by
  intro p hp h d a c k
  simp only [divisions, List.mem_cons, List.not_mem_nil, or_false] at hp
  rcases hp with rfl | rfl | rfl | rfl <;> rfl

/-- What was captured of a word is the word. -/
theorem perfInt_captured (f : Word → Word → Word) (u v : Word) (ix : QWord) (x : LS) :
    Does (perfInt f (capOf u v ix)) x ((f u v).setWidth 128, 0) x := by
  have hw : ∀ w : Word, (w.setWidth 128).setWidth 32 = w := fun w => by simp
  exact does_pure.2 ⟨by simp only [capOf, hw], rfl⟩

/-- An integer result that lands at once leaves the lane's place, and at most one uniform write is held for the check (R18). -/
theorem landNow_int {i : Instr} {c : Cap} {d : Opnd} {v : QWord} {t : BitVec 4} {x y : LS} (hd : destsOf i c = intDest d c)
    (h : Does (L.landNow i c v t) x () y) : y.lane = x.lane ∧ (y.unis = x.unis ∨ ∃ n w, y.unis = x.unis ++ [Uni.s n w]) := by
  cases d with
  | zr =>
    have hnone : Does (pure () : L Unit) x () y := by simpa [L.landNow, hd, intDest] using h
    obtain ⟨-, rfl⟩ := does_pure.1 hnone
    exact ⟨rfl, .inl rfl⟩
  | _ => exact landNow_one hd h

@[simp] theorem keeps_destIndex {d : Opnd} : Keeps (L.destIndex d) := by
  cases d with
  | idx r k => exact keeps_bind keeps_rdI fun _ => keeps_pure
  | _ => exact keeps_pure

/-- A division whose result lands at once completes. -/
theorem divWord_completes {i : Instr} {h : Hdr} {f : Word → Word → Word} {d a c : Opnd} {s : State} {b : Issue} {t : Team} {l : Nat}
    {u v : Word} {ix : QWord} {y y' z : LS} (hs : Solo s b t l h.guard) (hla : h.la = 0)
    (hd : destsOf i (capOf u v ix) = intDest d (capOf u v ix))
    (hr : Does (do L.check 1 [a, c] [d]; return (← L.rdW a, ← L.rdW c, ← L.destIndex d)) (b.start s t l) (u, v, ix) y)
    (hb : Does (L.behind (destsOf i (capOf u v ix))) y false y')
    (hn : Does (L.landNow i (capOf u v ix) ((f u v).setWidth 128) 0) y' () z) :
    divWord i h f d a c s = .next (b.complete i s id z) := by
  have hk : Keeps (do L.check 1 [a, c] [d]; return (← L.rdW a, ← L.rdW c, ← L.destIndex d)) :=
    keeps_bind keeps_check fun _ => keeps_bind keeps_rdW fun _ => keeps_bind keeps_rdW fun _ =>
      keeps_bind keeps_destIndex fun _ => keeps_pure
  obtain ⟨hlane, hunis, -⟩ := hk.of_start hr
  obtain ⟨_, x, hc, hr⟩ := does_bind.1 hr
  obtain ⟨x1, x2, hu, hv, hx⟩ := does_triple hr
  have hcap : Does (L.capInt d a c) (b.start s t l) (capOf u v ix) y :=
    does_step hc (does_step hu (does_step hv (does_step hx (does_pure.2 ⟨rfl, rfl⟩))))
  have hland : Landed i h (capOf u v ix) (perfInt f (capOf u v ix)) y z :=
    ⟨hla, y', _, _, y', hb, perfInt_captured f u v ix y', hn⟩
  have hkeep := keeps_behind _ _ _ hb
  have hlane' : y'.lane = l := by rw [hkeep]; exact hlane
  have hunis' : y'.unis = [] := by rw [hkeep]; exact hunis
  obtain ⟨hz, hzu⟩ := landNow_int hd hn
  refine runWord_solo hs (longBody_landed hcap hland) (hz.trans hlane') ?_
  obtain hzu | ⟨n, w, hzu⟩ := hzu
  · rw [hzu, hunis']; rfl
  · rw [hzu, hunis']; exact unisAgree_s

/-- Settles O4: performing a division only computes, and its result lands at once or is held. -/
theorem divisions_hold : Obligations.Divisions := by
  refine ⟨?_, ?_⟩
  · intro p hp h d a c u v ix x
    rw [perfOf_divisions p hp]
    exact perfInt_captured p.2 u v ix x
  · intro p hp h d a c s b t l u v ix y y' z hs hla hr hb hn
    rw [exec_divisions p hp]
    exact divWord_completes hs hla (destsOf_divisions p hp h d a c _) hr hb hn

/-! ### SHFL (R116) -/

/-- The source lanes of SHFL's modes. -/
def shflModes : List (BitVec 2 × (Nat → Nat → Int)) := [(0, fun _ n => (n : Int)), (1, fun l n => (l : Int) - n),
  (2, fun l n => (l : Int) + n), (3, fun l n => ((l ^^^ n : Nat) : Int))]

theorem shflLane_modes : ∀ m ∈ shflModes, shflLane m.1 = m.2 := by
  intro m hm
  simp only [shflModes, List.mem_cons, List.not_mem_nil, or_false] at hm
  rcases hm with rfl | rfl | rfl | rfl <;> rfl

theorem bits_distance (v : Word) : bits v.toNat 0 5 = v.toNat % 32 := by simp [bits]

/-- What SHFL captures of a lane and its source lane `k`: A as that lane holds it, where it is one of the word's. -/
def shflTaken (t : Team) (y : LS) (a : Opnd) (u w : Word) (k : Int) : Prop :=
  if 0 ≤ k ∧ k < t.width ∧ y.execs.contains k.toNat then Does (L.peer k.toNat (L.rdW a)) y (some w) y else w = u

theorem keeps_shflOps {d a c : Opnd} : Keeps (do L.checkRegs [a, c, d]; return (← L.rdW a, ← L.rdW c)) :=
  keeps_bind keeps_checkRegs fun _ => keeps_bind keeps_rdW fun _ => keeps_bind keeps_rdW fun _ => keeps_pure

theorem capShfl_captures {d a c : Opnd} {mode : BitVec 2} {x y : LS} {t : Team} {u v w : Word}
    (hr : Does (do L.checkRegs [a, c, d]; return (← L.rdW a, ← L.rdW c)) x (u, v) y) (ht : Does L.team y t y)
    (hw : shflTaken t y a u w (shflLane mode x.lane (v.toNat % 32))) :
    Does (L.capShfl d a c mode) x { Cap.zero with av := w.setWidth 128 } y := by
  obtain ⟨_, x1, hc, hr⟩ := does_bind.1 hr
  obtain ⟨x2, hu, hv⟩ := does_pair hr
  obtain ⟨st1, effs1, rfl⟩ := keeps_checkRegs.shape hc
  obtain ⟨st2, effs2, rfl⟩ := keeps_rdW.shape hu
  obtain ⟨st3, effs3, rfl⟩ := keeps_rdW.shape hv
  refine does_step hc (does_step (does_get.2 ⟨rfl, rfl⟩) (does_step hu (does_step hv (does_step ht ?_))))
  simp only [bits_distance]
  unfold shflTaken at hw
  split at hw
  · rename_i hin
    exact does_then hin (does_step hw (does_pure.2 ⟨rfl, rfl⟩))
  · rename_i hout
    rw [hw]
    exact does_else hout (does_pure.2 ⟨rfl, rfl⟩)

/-- A lane alone takes its own A, whatever its source lane. -/
theorem shflTaken_alone {t : Team} {y : LS} {a : Opnd} {u : Word} {k : Int} {l : Nat} (he : y.execs = [l])
    (hp : Does (L.peer l (L.rdW a)) y (some u) y) : shflTaken t y a u u k := by
  unfold shflTaken
  split
  · rename_i hin
    obtain ⟨-, -, hk⟩ := hin
    rw [he] at hk
    obtain rfl : k.toNat = l := by simpa using hk
    exact hp
  · rfl

theorem team_of_behind {l : List Opnd} {y y' : LS} {r : Bool} (h : Does (L.behind l) y r y') : ∃ t, Does L.team y t y := by
  obtain ⟨_, y1, hg, h⟩ := does_bind.1 h
  obtain ⟨_, y2, hw, -⟩ := does_bind.1 h
  obtain ⟨-, rfl⟩ := does_get.1 hg
  obtain ⟨⟨t, ht, -⟩, -⟩ := does_wave.1 hw
  exact ⟨t, does_team.2 ⟨ht, rfl⟩⟩

theorem shfl_completes {h : Hdr} {d a c : Opnd} {mode : BitVec 2} {s : State} {b : Issue} {t : Team} {l : Nat} {u v : Word}
    {y z : LS} (hs : Solo s b t l h.guard)
    (hr : Does (do L.checkRegs [a, c, d]; return (← L.rdW a, ← L.rdW c)) (b.start s t l) (u, v) y)
    (hp : Does (L.peer l (L.rdW a)) y (some u) y)
    (hl : Landed (.shfl h d a c mode) h { Cap.zero with av := u.setWidth 128 } (pure (u.setWidth 128, 0)) y z) :
    exec (.shfl h d a c mode) s = .next (b.complete (.shfl h d a c mode) s id z) := by
  obtain ⟨hlane, hunis, -⟩ := keeps_shflOps.of_start hr
  have hexecs : y.execs = [l] := by rw [keeps_shflOps _ _ _ hr]; rfl
  obtain ⟨-, y', _, _, _, hb, -⟩ := id hl
  obtain ⟨t', ht⟩ := team_of_behind hb
  have hcap := capShfl_captures (mode := mode) hr ht (shflTaken_alone hexecs hp)
  obtain ⟨hz, hagree⟩ := landed_one keeps_pure rfl hunis hl
  exact runWord_solo hs (longBody_landed hcap hl) (hz.trans hlane) hagree

/-- Settles O12: the value is captured from the source lane where that lane executes the word, and is the lane's own otherwise. -/
theorem shuffleTakesTheSourceLane : Obligations.ShuffleTakesTheSourceLane := by
  refine ⟨?_, ?_⟩
  · intro h d a c mode s b t l u v y z hs hr hp hl
    exact shfl_completes hs hr hp hl
  · intro d a c x y t u v w k m hm hr ht hk
    have hk' : shflLane m.1 x.lane (v.toNat % 32) = k := by rw [shflLane_modes m hm]; exact hk
    have hexecs : y.execs = x.execs := by rw [keeps_shflOps _ _ _ hr]
    refine ⟨fun hw hin hp => capShfl_captures hr ht ?_, fun hout => capShfl_captures hr ht ?_⟩
    · rw [hk', shflTaken, if_pos (by simpa [hexecs] using ⟨hw, hin⟩)]
      exact hp
    · rw [hk', shflTaken, if_neg (by simp [hexecs, hout])]

end Sys2Proof.Machine
end

section
/-! The affine unit (R118, R119): a base and a stride are written through the uniform check; AMAT finds them in the lanes' own values. -/

namespace Sys2Proof.Machine

/-! ### AMK, AADD and ASCL (R118) -/

@[simp] theorem keeps_wholeWave : Keeps L.wholeWave :=
  keeps_bind keeps_get fun _ => keeps_bind keeps_team fun _ => keeps_test keeps_trap keeps_pure

@[simp] theorem keeps_uniformW {o : Opnd} : Keeps (L.uniformW o) :=
  keeps_bind keeps_rdW fun _ => keeps_bind keeps_sameInAll fun _ => keeps_pure

/-- The check of the wave only reads (R106). -/
theorem wholeWave_stands {x y : LS} {u : Unit} (h : Does L.wholeWave x u y) : y = x := by
  obtain ⟨_, x1, hg, h1⟩ := does_bind.1 h
  obtain ⟨t, x2, ht, h2⟩ := does_bind.1 h1
  obtain ⟨-, rfl⟩ := does_get.1 hg
  obtain ⟨-, rfl⟩ := does_team.1 ht
  exact (does_pure.1 (does_of_test not_does_trap h2)).2

/-- A write of an a register is held for the uniform check (R18). -/
theorem writeA_holds {n : BitVec 3} {base stride : Word} {x : LS} :
    Does (L.writeA (.a n) base stride) x () { x with unis := x.unis ++ [.a n base stride] } :=
  does_step (does_pure.2 ⟨rfl, rfl⟩) (does_modify.2 rfl)

@[simp] theorem unisAgree_a {n : BitVec 3} {base stride : Word} : unisAgree [.a n base stride] = true := by
  simp [unisAgree, uniClash]

/-- A word whose part ends with the write of an a register completes. -/
theorem laneWord_writesA {i : Instr} {h : Hdr} {m : WMode} {body : L Unit} {s : State} {b : Issue} {t : Team} {l : Nat} {n : BitVec 3}
    {base stride : Word} {y : LS} (hs : Solo s b t l h.guard) (hl : y.lane = l) (hu : y.unis = [])
    (hb : Does body (b.start s t l) () { y with unis := y.unis ++ [.a n base stride] }) :
    laneWord i h m body s = .next (b.complete i s id { y with unis := y.unis ++ [.a n base stride] }) :=
  runWord_solo hs hb hl (by rw [hu]; exact unisAgree_a)

/-- Base and stride of an a register, as the lane's part of the word begins. -/
theorem pairA_start {s : State} {b : Issue} {t : Team} {l : Nat} {g : Option Guard} {k : BitVec 3} (hs : Solo s b t l g) :
    Does (L.pairA (.a k)) (b.start s t l) (vget (t.wave b.wave).a k.toNat) (b.start s t l) :=
  does_step (does_wave_of_team (team_start hs)) (does_pure.2 ⟨rfl, rfl⟩)

/-- A word of an a register and a uniform value (AADD, ASCL). -/
theorem affineWord_completes {i : Instr} {h : Hdr} {m : WMode} {n k : BitVec 3} {c : Opnd} {s : State} {b : Issue} {t : Team} {l : Nat}
    {f : Word × Word → Word → Word × Word} {v : Word} {y : LS} (hs : Solo s b t l h.guard)
    (hr : Does (do L.checkReg c; L.wholeWave; L.uniformW c) (b.start s t l) v y) :
    laneWord i h m (do
      L.checkReg c
      L.wholeWave
      let p ← L.pairA (.a k)
      let v ← L.uniformW c
      L.writeA (.a n) (f p v).1 (f p v).2) s = .next (b.complete i s id { y with
        unis := y.unis ++ [.a n (f (vget (t.wave b.wave).a k.toNat) v).1 (f (vget (t.wave b.wave).a k.toNat) v).2] }) := by
  obtain ⟨hlane, hunis, -⟩ := (keeps_bind keeps_checkReg fun _ => keeps_bind keeps_wholeWave fun _ => keeps_uniformW).of_start hr
  obtain ⟨_, x1, hc, hr⟩ := does_bind.1 hr
  obtain ⟨_, x2, hw, hv⟩ := does_bind.1 hr
  obtain rfl := checkReg_stands hc
  obtain rfl := wholeWave_stands hw
  exact laneWord_writesA hs hlane hunis (does_step hc (does_step hw (does_step (pairA_start hs) (does_step hv writeA_holds))))

/-! ### What completing a word leaves of the a registers -/

/-- The a registers of a wave are `A`, and physical memory is `m`. -/
def State.holdsA (s : State) (ag : AgentId) (wv : Nat) (A : Vector (Word × Word) 8) (m : Memory) : Prop :=
  (s.wave? ag wv).map (·.a) = some A ∧ s.mem = m

section
variable {s : State} {ag : AgentId} {wv : Nat} {A : Vector (Word × Word) 8} {m : Memory}

/-- A change of the team that leaves its waves. -/
theorem State.holdsA.updTeam (h : s.holdsA ag wv A m) {f : Team → Team} (ha : ∀ t, (f t).agent = t.agent)
    (hf : ∀ t, (f t).wave wv = t.wave wv) : (s.updTeam ag f).holdsA ag wv A m := by
  obtain ⟨hA, hm⟩ := h
  refine ⟨?_, hm⟩
  rw [State.wave?, Option.map_map, Option.map_eq_some_iff] at hA ⊢
  obtain ⟨t, ht, hA⟩ := hA
  refine ⟨f t, by rw [team?_updTeam_same s ag f ha, ht]; rfl, ?_⟩
  show ((f t).wave wv).a = A
  rw [hf]
  exact hA

theorem State.holdsA.updFibre (h : s.holdsA ag wv A m) {l : Nat} {f : Fibre → Fibre} : (s.updFibre ag wv l f).holdsA ag wv A m :=
  State.holdsA.updTeam h (fun _ => rfl) (fun _ => rfl)

/-- A change of the wave that leaves its a registers. -/
theorem State.holdsA.updWave (h : s.holdsA ag wv A m) (hw : wv < 32) {f : Wave → Wave} (hf : ∀ w, (f w).a = w.a) :
    (s.updWave ag wv f).holdsA ag wv A m := by
  obtain ⟨hA, hm⟩ := h
  refine ⟨?_, hm⟩
  rw [State.wave?, Option.map_map, Option.map_eq_some_iff] at hA ⊢
  obtain ⟨t, ht, hA⟩ := hA
  refine ⟨_, team?_updWave ht, ?_⟩
  show ((t.updWave wv f).wave wv).a = A
  rw [wave_updWave_same t wv f hw, hf]
  exact hA

/-- What every change of a list leaves, all of them leave. -/
theorem State.holdsA.foldl {β : Type} (h : s.holdsA ag wv A m) {F : State → β → State} {l : List β}
    (hF : ∀ s x, State.holdsA s ag wv A m → (F s x).holdsA ag wv A m) : (l.foldl F s).holdsA ag wv A m := by
  induction l generalizing s with
  | nil => exact h
  | cons x l ih => exact ih (hF s x h)

theorem State.holdsA.laneDone (h : s.holdsA ag wv A m) (hw : wv < 32) {d : LaneDone} : (s.laneDone ag wv d).holdsA ag wv A m :=
  State.holdsA.updWave (State.holdsA.updFibre h) hw fun _ => rfl

/-- A result that lands writes no a register. -/
theorem putAll_a (w : Wave) (l : List Opnd) (v : QWord) : (w.putAll l v).a = w.a := by
  unfold Wave.putAll
  generalize l.zipIdx = k
  induction k generalizing w with
  | nil => rfl
  | cons x k ih =>
    rw [List.foldl_cons, ih]
    obtain ⟨o, j⟩ := x
    cases o <;> rfl

theorem State.holdsA.landLane (h : s.holdsA ag wv A m) (hw : wv < 32) {e : Entry} {r : LaneRec} :
    (s.landLane ag wv e r).holdsA ag wv A m := by
  refine State.holdsA.updWave (State.holdsA.updFibre ?_) hw fun w => putAll_a w _ _
  split
  · exact State.holdsA.updTeam h (fun _ => rfl) (fun _ => rfl)
  · exact h

theorem State.holdsA.landList (hw : wv < 32) {l before : List Entry} (h : s.holdsA ag wv A m) :
    (landList ag wv before l s).1.holdsA ag wv A m := by
  induction l generalizing before s with
  | nil => exact h
  | cons e l ih =>
    have hs : ((e.lanes.filter (mayLand before e)).foldl (fun s r => s.landLane ag wv e r) s).holdsA ag wv A m :=
      State.holdsA.foldl h fun _ _ hs => State.holdsA.landLane hs hw
    simp only [Machine.landList]
    split
    · exact ih hs
    · exact ih hs

theorem State.holdsA.landReady (h : s.holdsA ag wv A m) (hw : wv < 32) : (s.landReady ag wv).holdsA ag wv A m := by
  unfold State.landReady
  split
  · exact h
  · exact State.holdsA.updWave (State.holdsA.landList hw h) hw fun _ => rfl

end

/-- Lanes that are done, and hold no result back, leave the a registers as the word's uniform writes have them, and memory. -/
theorem completed_holdsA {s : State} {i : Instr} {b : Issue} {t : Team} {id : Nat} {r : Run} (ht : s.team? b.agent = some t)
    (hw : b.wave < 32) (hrecs : r.recs = []) :
    State.holdsA { ((s.retire i b id r).unstick b).landReady b.agent b.wave with cur := none } b.agent b.wave
      (r.unis.foldl Wave.applyUni (t.wave b.wave)).a s.mem := by
  have h0 : (s.updWave b.agent b.wave (fun w => r.unis.foldl Wave.applyUni w)).holdsA b.agent b.wave
      (r.unis.foldl Wave.applyUni (t.wave b.wave)).a s.mem := by
    refine ⟨?_, rfl⟩
    rw [State.wave?, team?_updWave ht, Option.map_some, Option.map_some, wave_updWave_same _ _ _ hw]
  have h1 := State.holdsA.foldl h0 (l := r.dones) (F := fun s d => s.laneDone b.agent b.wave d) fun _ _ hs => State.holdsA.laneDone hs hw
  have h2 : (s.retire i b id r).holdsA b.agent b.wave (r.unis.foldl Wave.applyUni (t.wave b.wave)).a s.mem := by
    simp only [State.retire, hrecs, List.isEmpty_nil, if_true]
    exact State.holdsA.updWave h1 hw fun _ => rfl
  have h3 : ((s.retire i b id r).unstick b).holdsA b.agent b.wave (r.unis.foldl Wave.applyUni (t.wave b.wave)).a s.mem :=
    State.holdsA.foldl h2 fun _ _ hs => State.holdsA.updFibre hs
  exact State.holdsA.landReady h3 hw

/-! ### AMAT (R119) -/

/-- A read in another lane, before the word (R116). -/
theorem peer_of_does {α : Type} {p : L α} {x x' : LS} {j : Nat} {v : α} (h : Does p { x with lane := j, st := x.st0 } v x') :
    Does (L.peer j p) x (some v) x := by
  refine does_step (does_get.2 ⟨rfl, rfl⟩) ?_
  simp only [Does] at h
  rw [h]
  exact does_pure.2 ⟨rfl, rfl⟩

/-- Lanes that all read the affine value are affine. -/
theorem affineIn_of_peers {a : Opnd} {base stride : Word} {x : LS} {l : List Nat}
    (h : ∀ k ∈ l, Does (L.peer k (L.rdW a)) x (some (base + stride * BitVec.ofNat 32 k)) x) :
    Does (L.affineIn a base stride l) x true x := by
  induction l with
  | nil => exact does_pure.2 ⟨rfl, rfl⟩
  | cons k l ih =>
    refine does_step (h k (by simp)) (does_step (ih fun j hj => h j (by simp [hj])) (does_pure.2 ⟨?_, rfl⟩))
    simp

/-- A wave all of whose live lanes, lanes 0 and 1 among them, read base + stride × lane in g r, in the batch that issues. -/
structure Affine (s : State) (b : Issue) (t : Team) (r : BitVec 6) (base stride : Word) : Prop where
  cur : s.cur = some b
  team : s.team? b.agent = some t
  todo : b.todo = b.lanes
  live : t.liveLanes b.wave = b.lanes
  plain : t.work.yoke = false
  clear : ((t.wave b.wave).stuck.filter (·.isOf b)).flatMap (·.unis) = []
  owes : ∀ k ∈ b.lanes, (t.wave b.wave).owes k (.g r) = false
  zero : 0 ∈ b.lanes
  one : 1 ∈ b.lanes
  nodup : b.lanes.Nodup
  inside : r.toNat < t.gWin
  fibre : ∀ k ∈ b.lanes, ∃ f, t.fibre? (t.slot b.wave k) = some f ∧ f.regs.bad = [] ∧
    vget f.regs.g r.toNat = base + stride * BitVec.ofNat 32 k

section
variable {s : State} {b : Issue} {t : Team} {n : BitVec 3} {r : BitVec 6} {base stride : Word}

/-- The run when the lanes `ds` have had their turn: each holds the write of the a register for the last lane (R18). -/
def matRun (s : State) (b : Issue) (n : BitVec 3) (base stride : Word) (ds : List Nat) : Run :=
  Run.start s (ds.map (laneEnd b)) (ds.map (fun _ => .a n base stride))

/-- A lane at its turn. -/
def matTurn (s : State) (b : Issue) (t : Team) (n : BitVec 3) (base stride : Word) (ds : List Nat) (l : Nat) : LS :=
  (matRun s b n base stride ds).turn (b.lanes0 s t b.lanes) l

/-- Any lane reads its own value of g r, whichever lane has its turn. -/
theorem Affine.reads (h : Affine s b t r base stride) {ds : List Nat} {l k : Nat} (hk : k ∈ b.lanes) :
    Does (L.rdW (.g r)) { matTurn s b t n base stride ds l with lane := k } (base + stride * BitVec.ofNat 32 k)
      { matTurn s b t n base stride ds l with lane := k } := by
  obtain ⟨f, hf, hb, hv⟩ := h.fibre k hk
  have hfib : State.fibre? s b.agent b.wave k = some f := by simp only [State.fibre?, h.team, hf]
  rw [← hv]
  have howes : (t.wave b.wave).owes k (.g (BitVec.ofNat 6 r.toNat)) = false := by simpa using h.owes k hk
  exact rdG_reads (x := { matTurn s b t n base stride ds l with lane := k }) h.team hfib howes h.inside (by simp [hb])

theorem Affine.peers (h : Affine s b t r base stride) {ds : List Nat} {l k : Nat} (hk : k ∈ b.lanes) :
    Does (L.peer k (L.rdW (.g r))) (matTurn s b t n base stride ds l) (some (base + stride * BitVec.ofNat 32 k))
      (matTurn s b t n base stride ds l) := peer_of_does (h.reads hk)

/-- The word of AMAT in one lane. -/
def L.amat (d a : Opnd) : L Unit := do
  L.checkReg a
  L.wholeWave
  let live := (← L.team).liveLanes (← get).wave
  discard (L.rdW a)
  let v0 := (← L.peer 0 (L.rdW a)).getD 0
  let v1 := (← L.peer 1 (L.rdW a)).getD 0
  if !(live.contains 0 && live.contains 1 && (← L.affineIn a v0 (v1 - v0) live)) then L.trap 11 3
  L.writeA d v0 (v1 - v0)

/-- Each lane finds base and stride in lanes 0 and 1, and every lane's value affine in them. -/
theorem Affine.lane (h : Affine s b t r base stride) {ds : List Nat} {l : Nat} (hl : l ∈ b.lanes) :
    Does (L.amat (.a n) (.g r)) (matTurn s b t n base stride ds l) () { matTurn s b t n base stride ds l with
      unis := (matTurn s b t n base stride ds l).unis ++ [.a n base stride] } := by
  have hteam : Does L.team (matTurn s b t n base stride ds l) t (matTurn s b t n base stride ds l) := does_team.2 ⟨h.team, rfl⟩
  have hbase : base + stride * BitVec.ofNat 32 0 = base := by simp
  have hstride : base + stride * BitVec.ofNat 32 1 - base = stride := by simp [BitVec.add_comm base]
  have h0 := h.peers (n := n) (ds := ds) (l := l) h.zero
  have h1 := h.peers (n := n) (ds := ds) (l := l) h.one
  have hall := affineIn_of_peers fun k hk => h.peers (n := n) (ds := ds) (l := l) hk
  have hwhole : Does L.wholeWave (matTurn s b t n base stride ds l) () (matTurn s b t n base stride ds l) := by
    refine does_step (does_get.2 ⟨rfl, rfl⟩) (does_step hteam (does_else ?_ (does_pure.2 ⟨rfl, rfl⟩)))
    have hlive : t.liveLanes (matTurn s b t n base stride ds l).wave = b.lanes := h.live
    have hex : (matTurn s b t n base stride ds l).execs = b.lanes := rfl
    simp [hlive, hex]
  refine does_step (checkG_in h.team h.inside) (does_step hwhole (does_step hteam (does_step (does_get.2 ⟨rfl, rfl⟩)
    (does_next (does_map.2 ⟨_, h.reads hl, rfl⟩) (does_step h0 (does_step h1 ?_))))))
  simp only [show t.liveLanes (matTurn s b t n base stride ds l).wave = b.lanes from h.live, hbase, hstride, Option.getD_some]
  exact does_step hall (does_else (by simp [h.zero, h.one]) writeA_holds)

theorem exec_amat {h : Hdr} {d a : Opnd} : exec (.amat h d a) s = laneWord (.amat h d a) h .all (L.amat d a) s := rfl

/-- One lane's turn. -/
theorem Affine.step (h : Affine s b t r base stride) {ds : List Nat} {l : Nat} (hl : l ∈ b.lanes) :
    runLane (guarded none (fun _ => L.amat (.a n) (.g r))) true [] (b.lanes0 s t b.lanes) (matRun s b n base stride ds) l =
      matRun s b n base stride (ds ++ [l]) := by
  have hpair := runPair_plain (body := guarded none (fun _ => L.amat (.a n) (.g r))) h.team h.plain (h.lane (n := n) (ds := ds) hl)
  rw [runLane_ok hpair rfl rfl]
  simp [matRun, matTurn, Run.start, laneEnd, Run.turn, Issue.lanes0]

/-- Every lane's turn. -/
theorem Affine.run (h : Affine s b t r base stride) :
    b.lanes.foldl (runLane (guarded none (fun _ => L.amat (.a n) (.g r))) true [] (b.lanes0 s t b.lanes)) (Run.start s [] []) =
      matRun s b n base stride b.lanes :=
  foldl_lanes (P := fun ds q => q = matRun s b n base stride ds) h.nodup rfl fun _ _ _ hl _ hq => by
    rw [hq]
    exact h.step hl

/-- A word without a guard in which every lane of the batch acts together, and none parks. -/
theorem runWord_every {i : Instr} {after : Issue → State → State} {body : Bool → L Unit} {q : Run} (hc : s.cur = some b)
    (ht : s.team? b.agent = some t) (hT : b.todo = b.lanes) (hk : ((t.wave b.wave).stuck.filter (·.isOf b)).flatMap (·.unis) = [])
    (hq : b.lanes.foldl (runLane (guarded none body) true [] (b.lanes0 s t b.lanes)) (Run.start s [] []) = q) (hp : q.parks = []) :
    runWord i none .all after body s = .next (finishWord i b (t.liveLanes b.wave) b.lanes s .all (after b) q) := by
  have he : b.lanes.filter (fun l => guardPass none (t.regsAt b.wave l)) = b.lanes := List.filter_eq_self.2 fun _ _ => rfl
  have hd : guardedOut b b.lanes = [] := by simp [guardedOut, hT]
  have hf : b.lanes.filter b.lanes.contains = b.lanes := List.filter_eq_self.2 fun _ hl => by simpa using hl
  have hs : s.guardRead b t none = s := rfl
  have hall : (WMode.all == WMode.each) = false := rfl
  simp only [runWord, hc, ht, guardOut, guardOwed, Bool.false_eq_true, if_false, runBatch, he, hs, hd, hk, hT, hf, runLanes, hall,
    WMode.inOrder, hq, hp, List.isEmpty_nil, Bool.not_true, Bool.and_false]

/-- Writes of one value agree, and the register then holds it. -/
theorem unisAgree_sameA {l : List Nat} : unisAgree (l.map (fun _ => .a n base stride)) = true := by
  simp only [unisAgree, Bool.not_eq_true', List.any_eq_false, List.any_eq_true, List.mem_map]
  rintro _ ⟨i, hi, rfl⟩ ⟨_, ⟨j, hj, rfl⟩, hc⟩
  simp [uniClash] at hc

theorem applyUni_sameA {l : List Nat} (hl : l ≠ []) (w : Wave) :
    vget ((l.map (fun _ => Uni.a n base stride)).foldl Wave.applyUni w).a n.toNat = (base, stride) := by
  obtain ⟨ds, d, rfl⟩ : ∃ ds d, l = ds ++ [d] := ⟨_, _, (List.dropLast_append_getLast hl).symm⟩
  simp only [List.map_append, List.map_cons, List.map_nil, List.foldl_append, List.foldl_cons, List.foldl_nil, Wave.applyUni]
  exact vget_vset_same n.isLt

/-- The word completes with base and stride in the a register, whatever results land with it. -/
theorem amat_completes {h : Hdr} (ha : Affine s b t r base stride) (hw : b.wave < 32) (hg : h.guard = none) :
    ∃ s', exec (.amat h (.a n) (.g r)) s = .next s' ∧
      (s'.wave? b.agent b.wave).map (fun w => vget w.a n.toNat) = some (base, stride) ∧ s'.mem = s.mem := by
  obtain ⟨hA, hm⟩ := completed_holdsA (i := .amat h (.a n) (.g r)) (id := s.tick) (r := matRun s b n base stride b.lanes)
    (s := (matRun s b n base stride b.lanes).st) ha.team hw rfl
  refine ⟨_, ?_, ?_, hm⟩
  · rw [exec_amat, laneWord, hg, runWord_every ha.cur ha.team ha.todo ha.clear ha.run rfl, finishWord_done rfl rfl rfl rfl rfl
      (uniFault_agree (by simp [ha.live]) unisAgree_sameA)]
    rfl
  · have hset := congrArg (Option.map (fun A => vget A n.toNat)) hA
    rw [Option.map_map] at hset
    refine hset.trans (congrArg some ?_)
    exact applyUni_sameA (List.ne_nil_of_mem ha.zero) _

end

/-- Settles O5: AMK, AADD and ASCL hold one write of D for the uniform check; AMAT's lanes all hold the same one. -/
theorem affineUnit : Obligations.AffineUnit := by
  refine ⟨?_, ?_, ?_, ?_⟩
  · intro h n a c s b t l u v y hs hr
    have hk : Keeps (do L.checkRegs [a, c]; L.wholeWave; return (← L.uniformW a, ← L.uniformW c)) :=
      keeps_bind keeps_checkRegs fun _ => keeps_bind keeps_wholeWave fun _ => keeps_bind keeps_uniformW fun _ =>
        keeps_bind keeps_uniformW fun _ => keeps_pure
    obtain ⟨hlane, hunis, -⟩ := hk.of_start hr
    obtain ⟨_, x1, hc, hr⟩ := does_bind.1 hr
    obtain ⟨_, x2, hw, hr⟩ := does_bind.1 hr
    obtain ⟨x3, hu, hv⟩ := does_pair hr
    exact laneWord_writesA hs hlane hunis (does_step hc (does_step hw (does_step hu (does_step hv writeA_holds))))
  · intro h n k c s b t l base stride v y hs ha hr
    have hword := affineWord_completes (i := .aadd h (.a n) (.a k) c) (m := .all) (n := n) (k := k)
      (f := fun p v => (p.1 + v, p.2)) hs hr
    rwa [ha] at hword
  · intro h n k c s b t l base stride v y hs ha hr
    have hword := affineWord_completes (i := .ascl h (.a n) (.a k) c) (m := .all) (n := n) (k := k)
      (f := fun p v => (p.1 * v, p.2 * v)) hs hr
    rwa [ha] at hword
  · intro h n r s b t base stride hcur hteam htodo hlive hplain hwave hguard hclear howes hzero hone hnodup hin hfib
    exact amat_completes ⟨hcur, hteam, htodo, hlive, hplain, hclear, howes, hzero, hone, hnodup, hin, hfib⟩ hwave hguard

end Sys2Proof.Machine
end

section
/-! Results that land at once (R42, R43): each destination register takes its part, an s register through the uniform check (R18). A word
that reads and then acts, and a long-latency word whose result has landed, complete. -/

namespace Sys2Proof.Machine

/-! ### A word that reads and then acts -/

theorem keeps_pair {α β : Type} {p : L α} {q : L β} (hp : Keeps p) (hq : Keeps q) : Keeps (do return (← p, ← q)) :=
  keeps_bind hp fun _ => keeps_bind hq fun _ => keeps_pure

theorem keeps_triple {α β γ : Type} {p : L α} {q : L β} {r : L γ} (hp : Keeps p) (hq : Keeps q) (hr : Keeps r) :
    Keeps (do return (← p, ← q, ← r)) :=
  keeps_bind hp fun _ => keeps_bind hq fun _ => keeps_bind hr fun _ => keeps_pure

/-- Where a part that keeps the lane leaves it. -/
theorem Keeps.place {α : Type} {p : L α} (hp : Keeps p) {x y : LS} {v : α} (h : Does p x v y) : y.lane = x.lane ∧ y.unis = x.unis := by
  rw [hp _ _ _ h]
  exact ⟨rfl, rfl⟩

/-- A word that reads, and then acts on what it has read, completes with what it has done. -/
theorem runWord_acts {α β : Type} {i : Instr} {g : Option Guard} {m : WMode} {after : Issue → State → State} {body : Bool → L Unit}
    {p : L α} {q : L β} {s : State} {b : Issue} {t : Team} {l : Nat} {u : α} {v : β} {y z : LS} (hs : Solo s b t l g)
    (hr : Does p (b.start s t l) u y) (hp : Keeps p) (ha : Does q y v z) (hq : Keeps q)
    (hb : Does (body false) (b.start s t l) () z) : runWord i g m after body s = .next (b.complete i s (after b) z) := by
  obtain ⟨hlane, hunis, -⟩ := hp.of_start hr
  obtain ⟨hz, hzu⟩ := hq.place ha
  exact runWord_stands hs hb (hz.trans hlane) (hzu.trans hunis)

/-! ### The registers of a result -/

/-- Adjacent registers of a file are different ones, as long as their numbers do not wrap. -/
theorem registers_nodup {w n : Nat} {k : BitVec w} {f : BitVec w → Opnd} (hf : f.Injective) (hn : n ≤ 2 ^ w) :
    ((List.range n).map (fun j => f (k + BitVec.ofNat w j))).Nodup := by
  refine List.Nodup.map_on (fun i hi j hj h => ?_) List.nodup_range
  have hij := BitVec.toNat_eq.1 (BitVec.add_right_inj k |>.1 (hf h))
  simp only [List.mem_range, BitVec.toNat_ofNat] at hi hj hij
  rwa [Nat.mod_eq_of_lt (by omega), Nat.mod_eq_of_lt (by omega)] at hij

theorem regRun_nodup {o : Opnd} {n : Nat} (hn : n ≤ 16) : (regRun o n).Nodup := by
  cases o with
  | g k => exact registers_nodup (fun _ _ => Opnd.g.inj) (by omega)
  | f k => exact registers_nodup (fun _ _ => Opnd.f.inj) (by omega)
  | s k => exact registers_nodup (fun _ _ => Opnd.s.inj) (by omega)
  | zr => exact List.nodup_nil
  | _ => exact List.nodup_singleton _

/-- The uniform writes of a result: each s register with its part. -/
def uniParts (v : QWord) (l : List (Opnd × Nat)) : List Uni :=
  l.filterMap fun x => match x.1 with
    | .s n => some (.s n (v.extractLsb' (32 * x.2) 32))
    | _ => none

/-- Different registers take no two different parts. -/
theorem uniParts_agree {v : QWord} {l : List Opnd} (hl : l.Nodup) : unisAgree (uniParts v l.zipIdx) = true := by
  have hpart : ∀ u ∈ uniParts v l.zipIdx, ∃ n j, l[j]? = some (.s n) ∧ u = .s n (v.extractLsb' (32 * j) 32) := by
    intro u hu
    obtain ⟨⟨o, j⟩, hmem, ho⟩ := List.mem_filterMap.1 hu
    cases o with
    | s n => exact ⟨n, j, List.mem_zipIdx_iff_getElem?.1 hmem, (Option.some.inj ho).symm⟩
    | _ => exact absurd ho (by simp)
  have hclash : ∀ u ∈ uniParts v l.zipIdx, ∀ u' ∈ uniParts v l.zipIdx, uniClash u u' = false := by
    intro u hu u' hu'
    obtain ⟨n, j, hj, rfl⟩ := hpart u hu
    obtain ⟨n', j', hj', rfl⟩ := hpart u' hu'
    by_cases hn : n = n'
    · subst hn
      obtain rfl : j = j' := (List.getElem?_inj (List.getElem?_eq_some_iff.1 hj).1 hl).1 (hj.trans hj'.symm)
      simp [uniClash]
    · simp [uniClash, hn]
  simpa [unisAgree] using hclash

/-! ### Landing -/

/-- One part of a result into its register. -/
def landPart (v : QWord) (tag : BitVec 4) (x : Opnd × Nat) : L Unit :=
  match x.1 with
  | .s n => L.uni (.s n (v.extractLsb' (32 * x.2) 32))
  | o => L.modFibre (fun f => { f with regs := f.regs.put o x.2 v tag })

theorem landPart_place {v : QWord} {tag : BitVec 4} {o : Opnd × Nat} {x y : LS} {u : Unit} (h : Does (landPart v tag o) x u y) :
    y.lane = x.lane ∧ y.unis = x.unis ++ uniParts v [o] := by
  obtain ⟨o, j⟩ := o
  cases o with
  | s n =>
    have hy := uni_holds (show Does (L.uni (.s n (v.extractLsb' (32 * j) 32))) x u y from h)
    subst hy
    exact ⟨rfl, rfl⟩
  | _ =>
    obtain rfl := does_modFibre.1 h
    exact ⟨rfl, (List.append_nil _).symm⟩

theorem landParts_place {v : QWord} {tag : BitVec 4} {l : List (Opnd × Nat)} {x y : LS} {u : Unit}
    (h : Does (l.foldlM (fun _ o => landPart v tag o) ()) x u y) : y.lane = x.lane ∧ y.unis = x.unis ++ uniParts v l := by
  induction l generalizing x with
  | nil =>
    obtain ⟨-, rfl⟩ := does_pure.1 h
    exact ⟨rfl, (List.append_nil _).symm⟩
  | cons o l ih =>
    obtain ⟨_, x', ho, hl⟩ := does_bind.1 h
    obtain ⟨hlane, hunis⟩ := landPart_place ho
    obtain ⟨hlane', hunis'⟩ := ih hl
    refine ⟨hlane'.trans hlane, ?_⟩
    rw [hunis', hunis, List.append_assoc, uniParts, uniParts, uniParts, ← List.filterMap_append, List.singleton_append]

/-- A result lands in a channel, or part by part in its registers. -/
theorem landNow_cases (i : Instr) (k : Cap) (v : QWord) (tag : BitVec 4) :
    (∃ ch n m, L.landNow i k v tag = L.chanPush ch n m) ∨
    L.landNow i k v tag = (destsOf i k).zipIdx.foldlM (fun _ o => landPart v tag o) () := by
  unfold L.landNow
  split
  · exact .inl ⟨_, _, _, rfl⟩
  · exact .inr rfl

/-- A result whose registers differ lands where the lane stands, and its uniform writes agree (R18). -/
theorem landNow_place {i : Instr} {k : Cap} {v : QWord} {tag : BitVec 4} {x y : LS} {u : Unit} (hd : (destsOf i k).Nodup)
    (hx : x.unis = []) (h : Does (L.landNow i k v tag) x u y) : y.lane = x.lane ∧ unisAgree y.unis = true := by
  obtain ⟨ch, n, m, hpush⟩ | hparts := landNow_cases i k v tag
  · rw [hpush] at h
    obtain ⟨hlane, hunis⟩ := keeps_chanPush.place h
    exact ⟨hlane, by rw [hunis, hx]; rfl⟩
  · rw [hparts] at h
    obtain ⟨hlane, hunis⟩ := landParts_place h
    exact ⟨hlane, by rw [hunis, hx]; exact uniParts_agree hd⟩

/-- A long-latency word whose result has landed completes. -/
theorem longWord_lands {i : Instr} {h : Hdr} {m : WMode} {cap : L Cap} {perf : Cap → L (QWord × BitVec 4)} {k : Cap} {s : State}
    {b : Issue} {t : Team} {l : Nat} {y z : LS} (hs : Solo s b t l h.guard) (hcap : Keeps cap) (hperf : Keeps (perf k))
    (hd : (destsOf i k).Nodup) (hc : Does cap (b.start s t l) k y) (hl : Landed i h k (perf k) y z) :
    longWord i h m cap perf s = .next (b.complete i s id z) := by
  obtain ⟨hlane, hunis, -⟩ := hcap.of_start hc
  obtain ⟨-, y', _, _, w, hb, hp, hn⟩ := id hl
  obtain ⟨hlane', hunis'⟩ := (keeps_bind keeps_behind fun _ => hperf).place (does_step hb hp)
  obtain ⟨hz, hagree⟩ := landNow_place hd (hunis'.trans hunis) hn
  exact runWord_solo hs (longBody_landed hc hl) (hz.trans (hlane'.trans hlane)) hagree

/-- What computes a result changes nothing, so the result lands as if it were given. -/
theorem Landed.of_pure {i : Instr} {h : Hdr} {k : Cap} {r : QWord × BitVec 4} {perf : L (QWord × BitVec 4)} {x z : LS}
    (hp : ∀ y, Does perf y r y) (hl : Landed i h k (pure r) x z) : Landed i h k perf x z := by
  obtain ⟨hla, y, v, tag, w, hb, hr, hn⟩ := hl
  obtain ⟨hv, rfl⟩ := does_pure.1 hr
  exact ⟨hla, w, v, tag, w, hb, hv ▸ hp w, hn⟩

end Sys2Proof.Machine
end

section
/-! Floating words (R122 to R135): what they read keeps the lane, so a word is its reads, the raising of its flags and one write of D. -/

namespace Sys2Proof.Machine

/-! ### Parts of floating words that keep the lane -/

@[simp] theorem keeps_checkF3 {wide : Bool} {srcs dst : List Opnd} : Keeps (L.checkF3 wide srcs dst) :=
  keeps_bind keeps_checkRegs fun _ => keeps_forM (fun _ => keeps_tagIn) srcs

@[simp] theorem keeps_capF {wide : Bool} {d a c : Opnd} : Keeps (L.capF wide d a c) :=
  keeps_bind keeps_checkF3 fun _ => keeps_bind keeps_rdD fun _ => keeps_bind keeps_rdD fun _ => keeps_pure

@[simp] theorem keeps_perfF {o : FOpt} {f : Rm → FV → FV → Rnd} {k : Cap} : Keeps (perfF o f k) :=
  keeps_bind keeps_settle fun _ => keeps_pure

@[simp] theorem keeps_rdTagged {d : Opnd} {tag : BitVec 4} : Keeps (L.rdTagged d tag) := by
  cases d with
  | f n => exact keeps_bind keeps_landed fun _ => keeps_bind keeps_fibre fun _ => keeps_pure
  | _ => exact keeps_pure

/-! ### A word that reads and then rounds -/

/-- The value of a rounding is written to D, its flags raised before. -/
theorem keeps_settled {r : Rnd} {d : Opnd} {tag : BitVec 4} : Keeps (do L.wrD d (← L.settle r) tag) :=
  keeps_bind keeps_settle fun _ => keeps_wrD

/-- A word that reads and then writes one rounded result to an f destination completes. -/
theorem runWord_settles {α : Type} {i : Instr} {g : Option Guard} {m : WMode} {after : Issue → State → State} {body : Bool → L Unit}
    {p : L α} {s : State} {b : Issue} {t : Team} {l : Nat} {u : α} {r : Rnd} {d : Opnd} {v : DWord} {tag : BitVec 4} {y y' z : LS}
    (hs : Solo s b t l g) (hr : Does p (b.start s t l) u y) (hp : Keeps p) (hv : Does (L.settle r) y v y')
    (hw : Does (L.wrD d v tag) y' () z)
    (hb : Does (do L.wrD d (← L.settle r) tag) y () z → Does (body false) (b.start s t l) () z) :
    runWord i g m after body s = .next (b.complete i s (after b) z) :=
  have hvw := does_step (f := fun v => L.wrD d v tag) hv hw
  runWord_acts hs hr hp hvw keeps_settled (hb hvw)

/-! ### Words of two sources (R126, R127) -/

/-- FADD, FSUB, FMUL, FMIN and FMAX are words of two f sources with the results of the table. -/
theorem exec_float2s : ∀ p ∈ float2s, ∀ (h : Hdr) (d a c : Opnd) (o : FOpt) (s : State), exec (p.1 h d a c o) s =
    laneWord (p.1 h d a c o) h .each (L.float2 o (fun rm u v => exactRnd (fmtOf o.fp64) rm (p.2 rm u v)) d a c) s := by
  intro p hp h d a c o s
  simp only [float2s, List.mem_cons, List.not_mem_nil, or_false] at hp
  rcases hp with rfl | rfl | rfl | rfl | rfl <;> rfl

theorem keeps_readF2 {wide : Bool} {d a c : Opnd} : Keeps (do L.checkF3 wide [a, c] [d]; return (← L.rdD a, ← L.rdD c)) :=
  keeps_bind keeps_checkF3 fun _ => keeps_pair keeps_rdD keeps_rdD

theorem keeps_readF1 {wide : Bool} {d a : Opnd} : Keeps (do L.checkF3 wide [a] [d]; L.rdD a) :=
  keeps_bind keeps_checkF3 fun _ => keeps_rdD

theorem float2_completes {i : Instr} {h : Hdr} {o : FOpt} {f : Rm → FV → FV → Rnd} {d a c : Opnd} {s : State} {b : Issue} {t : Team}
    {l : Nat} {x1 x2 : DWord × BitVec 4} {v : DWord} {y y' z : LS} (hs : Solo s b t l h.guard)
    (hr : Does (do L.checkF3 o.fp64 [a, c] [d]; return (← L.rdD a, ← L.rdD c)) (b.start s t l) (x1, x2) y)
    (hv : Does (L.settle (f (fMode o) (fA o x1.1) (fB o x2.1))) y v y') (hw : Does (L.wrD d v (tagOf o.fp64)) y' () z) :
    laneWord i h .each (L.float2 o f d a c) s = .next (b.complete i s id z) := by
  obtain ⟨_, _, hc, hreads⟩ := does_bind.1 hr
  obtain ⟨_, h1, h2⟩ := does_pair hreads
  exact runWord_settles hs hr keeps_readF2 hv hw fun hvw => does_step hc (does_step h1 (does_step h2 hvw))

/-- Settles O13: each word reads its sources, rounds once, raises the flags and writes D. -/
theorem floatTwoSources : Obligations.FloatTwoSources := by
  refine ⟨?_, ?_, ?_, ?_⟩
  · intro p hp h d a c o s b t l x1 x2 v y y' z hs hr hv hw
    rw [exec_float2s p hp]
    exact float2_completes hs hr hv hw
  · intro h d a c o s b t l x1 x2 x3 v y y' z hs hr hv hw
    obtain ⟨_, _, hc, hreads⟩ := does_bind.1 hr
    obtain ⟨_, _, h1, h2, h3⟩ := does_triple hreads
    exact runWord_settles hs hr (keeps_bind keeps_checkF3 fun _ => keeps_triple keeps_rdD keeps_rdD keeps_rdD) hv hw fun hvw =>
      does_step hc (does_step h1 (does_step h2 (does_step h3 hvw)))
  · intro h d a c o s b t l x1 n v y y' z hs hr hv hw
    obtain ⟨_, _, hreg, hrest⟩ := does_bind.1 hr
    obtain ⟨_, _, hc, hreads⟩ := does_bind.1 hrest
    obtain ⟨_, h1, hn⟩ := does_pair hreads
    exact runWord_settles hs hr
      (keeps_bind keeps_checkReg fun _ => keeps_bind keeps_checkF3 fun _ => keeps_pair keeps_rdD keeps_rdW) hv hw fun hvw =>
      does_step hreg (does_step hc (does_step h1 (does_step hn hvw)))
  · intro h d a o s b t l x1 v y y' z hs hr hv hw
    obtain ⟨_, _, hc, h1⟩ := does_bind.1 hr
    exact runWord_settles hs hr keeps_readF1 hv hw fun hvw => does_step hc (does_step h1 hvw)

/-! ### Long-latency words (R43, R126) -/

theorem exec_float1Longs (o : FOpt) : ∀ p ∈ float1Longs o, ∀ (h : Hdr) (d a : Opnd) (s : State),
    exec (p.1 h d a o) s = float1Long (p.1 h d a o) h o p.2 d a s := by
  intro p hp h d a s
  simp only [float1Longs, List.mem_cons, List.not_mem_nil, or_false] at hp
  rcases hp with rfl | rfl | rfl | rfl | rfl | rfl | rfl <;> rfl

theorem destsOf_float1Longs (o : FOpt) : ∀ p ∈ float1Longs o, ∀ (h : Hdr) (d a : Opnd) (k : Cap), destsOf (p.1 h d a o) k = [d] := by
  intro p hp h d a k
  simp only [float1Longs, List.mem_cons, List.not_mem_nil, or_false] at hp
  rcases hp with rfl | rfl | rfl | rfl | rfl | rfl | rfl <;> rfl

/-- Settles O14: the sources are captured, and the one rounding of them lands in D. -/
theorem floatLong : Obligations.FloatLong := by
  refine ⟨?_, ?_⟩
  · intro h d a c o s b t l k y z hs hc hl
    exact longWord_lands hs keeps_capF keeps_perfF (List.nodup_singleton d) hc hl
  · intro o p hp h d a s b t l k y z hs hc hl
    rw [exec_float1Longs o p hp]
    exact longWord_lands hs keeps_capF keeps_perfF (by rw [destsOf_float1Longs o p hp]; exact List.nodup_singleton d) hc hl

/-! ### Comparison, classification, selection, moves (R128 to R131) -/

/-- Settles O15: FCMP and FCLS write a word of their sources to D, the others an f register, a channel or a pair. -/
theorem floatTestsAndMoves : Obligations.FloatTestsAndMoves := by
  refine ⟨?_, ?_, ?_, ?_, ?_, ?_, ?_⟩
  · intro h d a c o s b t l x1 x2 v y z hs hr hw
    obtain ⟨hlane, hunis, -⟩ := Keeps.of_start (keeps_bind keeps_checkF3 fun _ => keeps_triple keeps_rdD keeps_rdD keeps_rdW) hr
    obtain ⟨_, _, hc, hreads⟩ := does_bind.1 hr
    obtain ⟨_, _, h1, h2, h3⟩ := does_triple hreads
    exact runWord_writes hs hw (does_step hc (does_step h1 (does_step h2 (does_step h3 hw)))) hlane hunis
  · intro h d a o s b t l x1 y z hs hr hw
    obtain ⟨hlane, hunis, -⟩ := keeps_readF1.of_start hr
    obtain ⟨_, _, hc, h1⟩ := does_bind.1 hr
    exact runWord_writes hs hw (does_step hc (does_step h1 hw)) hlane hunis
  · intro h d a c cr cb s b t l w x1 x2 y z hs hr hw
    obtain ⟨_, _, hg, hrest⟩ := does_bind.1 hr
    obtain ⟨_, _, hc, hreads⟩ := does_bind.1 hrest
    obtain ⟨_, _, hb, h1, h2⟩ := does_triple hreads
    have hchosen : Does (L.wrD d (if bitOf w cb.toNat then x1 else x2).1 (if bitOf w cb.toNat then x1 else x2).2) y () z := by
      by_cases hbit : w.getLsbD cb.toNat = true
      · rw [if_pos hbit] at hw
        rwa [show bitOf w cb.toNat = true from hbit, if_pos rfl]
      · rw [if_neg hbit] at hw
        rwa [if_neg (show ¬ bitOf w cb.toNat = true from hbit)]
    exact runWord_acts hs hr (keeps_bind keeps_checkG fun _ => keeps_bind keeps_checkRegs fun _ =>
      keeps_triple keeps_rdG keeps_rdD keeps_rdD) hchosen keeps_wrD
      (does_step hg (does_step hc (does_step hb (does_step h1 (does_step h2 hchosen)))))
  · intro h d a s b t l x1 y z hs hr hw
    obtain ⟨_, _, hc, h1⟩ := does_bind.1 hr
    exact runWord_acts hs hr (keeps_bind keeps_check fun _ => keeps_rdD) hw keeps_wrD (does_step hc (does_step h1 hw))
  · intro h d a tag s b t l x1 y z hs hr hw
    obtain ⟨_, _, hc, h1⟩ := does_bind.1 hr
    exact runWord_acts hs hr (keeps_bind keeps_check fun _ => keeps_rdD) hw keeps_wrD (does_step hc (does_step h1 hw))
  · intro h n a c s b t l u v y z hs hr hw
    obtain ⟨_, _, hc, hreads⟩ := does_bind.1 hr
    obtain ⟨_, h1, h2⟩ := does_pair hreads
    exact runWord_acts hs hr (keeps_bind keeps_checkRegs fun _ => keeps_pair keeps_rdW keeps_rdW)
      hw keeps_wrD (does_step hc (does_step h1 (does_step h2 hw)))
  · intro h n a c s b t l x1 y z hs hr hw
    obtain ⟨_, _, hc, h1⟩ := does_bind.1 hr
    exact runWord_acts hs hr (keeps_bind keeps_checkRegs fun _ => keeps_rdD) hw keeps_wrPair (does_step hc (does_step h1 hw))

/-! ### Conversions and FDOT (R132 to R135) -/

/-- FTOI's range, by its choice of sign (R134). -/
theorem ftoiRange_eq (uns : Bool) : (if uns then (0, 2 ^ 32 - 1) else (-(2 ^ 31), 2 ^ 31 - 1) : Int × Int) =
    (if uns then 0 else -(2 ^ 31), if uns then 2 ^ 32 - 1 else 2 ^ 31 - 1) := by
  cases uns <;> rfl

theorem keeps_fcvtReads {d a c : Opnd} {tags : List (BitVec 4)} {tag : BitVec 4} :
    Keeps (do L.checkRegs [a, c, d]; L.tagIn tags a; return (← L.rdD a, ← L.rdW c, ← L.rdTagged d tag)) :=
  keeps_bind keeps_checkRegs fun _ => keeps_bind keeps_tagIn fun _ => keeps_triple keeps_rdD keeps_rdW keeps_rdTagged

/-- Settles O16: the conversions and FDOT round what they read once, raise the flags and write D; FCVT's two forms are those of the
target's elements being no more or more than the source's. -/
theorem floatConversions : Obligations.FloatConversions := by
  refine ⟨?_, ?_, ?_, ?_⟩
  · intro h d a c o s b t l x1 w old ns ws nt wt fs ft v y y' z hs hr hns hnt hpick hpack hw
    obtain ⟨_, _, hc, hrest⟩ := does_bind.1 hr
    obtain ⟨_, _, htag, hreads⟩ := does_bind.1 hrest
    obtain ⟨_, _, h1, h2, h3⟩ := does_triple hreads
    by_cases hle : nt ≤ ns
    · obtain ⟨hfits, hv⟩ := hpick hle
      refine runWord_settles hs hr keeps_fcvtReads hv hw fun hvw =>
        does_step hc (does_step htag (does_step h1 (does_step h2 (does_step h3 ?_))))
      rw [hns, hnt]
      exact does_then hle (does_else (Nat.not_lt.2 hfits) hvw)
    · obtain ⟨hfits, hv⟩ := hpack (Nat.lt_of_not_le hle)
      refine runWord_settles hs hr keeps_fcvtReads hv hw fun hvw =>
        does_step hc (does_step htag (does_step h1 (does_step h2 (does_step h3 ?_))))
      rw [hns, hnt]
      exact does_else hle (does_else (Nat.not_lt.2 hfits) hvw)
  · intro h d a o s b t l x1 r y y' z hs hr hv hraise hw
    obtain ⟨hlane, hunis, -⟩ := Keeps.of_start (keeps_bind keeps_checkRegs fun _ => keeps_bind keeps_tagIn fun _ => keeps_rdD) hr
    obtain ⟨hlane', hunis'⟩ := keeps_raise.place hraise
    obtain ⟨_, _, hc, hrest⟩ := does_bind.1 hr
    obtain ⟨_, _, htag, h1⟩ := does_bind.1 hrest
    refine runWord_writes hs hw (does_step hc (does_step htag (does_step h1 ?_))) (hlane'.trans hlane) (hunis'.trans hunis)
    rw [ftoiRange_eq]
    subst hv
    exact does_step hraise hw
  · intro h d a o s b t l u v y y' z hs hr hv hw
    obtain ⟨_, _, hc, h1⟩ := does_bind.1 hr
    exact runWord_settles hs hr (keeps_bind keeps_checkRegs fun _ => keeps_rdW) hv hw fun hvw => does_step hc (does_step h1 hvw)
  · intro h d a c s b t l x1 x2 x3 v y y' z hs hr htags hv hw
    obtain ⟨_, _, hc, hrest⟩ := does_bind.1 hr
    obtain ⟨_, _, hta, hrest⟩ := does_bind.1 hrest
    obtain ⟨_, _, htc, hrest⟩ := does_bind.1 hrest
    obtain ⟨_, _, htd, hreads⟩ := does_bind.1 hrest
    obtain ⟨_, _, h1, h2, h3⟩ := does_triple hreads
    exact runWord_settles hs hr (keeps_bind keeps_checkRegs fun _ => keeps_bind keeps_tagIn fun _ => keeps_bind keeps_tagIn fun _ =>
      keeps_bind keeps_tagIn fun _ => keeps_triple keeps_rdD keeps_rdD keeps_rdD) hv hw fun hvw =>
      does_step hc (does_step hta (does_step htc (does_step htd
      (does_step h1 (does_step h2 (does_else (not_not_intro htags) (does_step h3 hvw)))))))

end Sys2Proof.Machine
end

section
/-! Interval words (R136 to R144): what they read keeps the lane, and then they write the bits of an interval, a point, a pair of bits or
memory; XBIS also starts a child. -/

namespace Sys2Proof.Machine

/-! ### Memory operands -/

@[simp] theorem keeps_readMem {m : MemOpnd} {kind : AK} {a n : Nat} : Keeps (L.readMem m kind a n) := keeps_test keeps_loadScr keeps_load
@[simp] theorem keeps_writeMem {m : MemOpnd} {kind : AK} {a n v : Nat} : Keeps (L.writeMem m kind a n v) :=
  keeps_test keeps_storeScr keeps_store
@[simp] theorem keeps_memAddr {acc : Nat} {m : MemOpnd} {wid : Wid} : Keeps (L.memAddr acc m wid) :=
  keeps_bind keeps_addrOps fun _ => keeps_access
@[simp] theorem keeps_capMem {dst : List Opnd} {m : MemOpnd} : Keeps (L.capMem dst m) :=
  keeps_bind keeps_checkRegs fun _ => keeps_bind keeps_checkAddr fun _ => keeps_bind keeps_addrOps fun _ => keeps_pure

/-! ### Parts of interval words that keep the lane -/

@[simp] theorem keeps_checkIv {x64 : Bool} {o : Opnd} : Keeps (L.checkIv x64 o) :=
  keeps_bind keeps_checkRegs fun _ => keeps_forM (fun _ => keeps_tagIn) (ivRegs x64 o)

@[simp] theorem keeps_rdFRun {l : List Opnd} : Keeps (L.rdFRun l) := by
  induction l with
  | nil => exact keeps_pure
  | cons o l ih => exact keeps_bind keeps_rdD fun _ => keeps_bind ih fun _ => keeps_pure

@[simp] theorem keeps_rdIvBits {x64 : Bool} {o : Opnd} : Keeps (L.rdIvBits x64 o) := keeps_bind keeps_rdFRun fun _ => keeps_pure

/-- The bits of an interval are judged alone: what reads as an interval in one place does so in every other (R67). -/
theorem ivOf_anywhere {x64 neg : Bool} {q : QWord} {x y : LS} {v : Iv} (h : Does (L.ivOf x64 neg q) x v y) :
    y = x ∧ ∀ x', Does (L.ivOf x64 neg q) x' v x' := by
  cases hb : ivBad (rawIv x64 q) with
  | some sub =>
    simp only [L.ivOf, hb] at h
    exact absurd h not_does_trap
  | none =>
    simp only [L.ivOf, hb] at h ⊢
    obtain ⟨hv, hy⟩ := does_pure.1 h
    exact ⟨hy, fun _ => does_pure.2 ⟨hv, rfl⟩⟩

@[simp] theorem keeps_ivOf {x64 neg : Bool} {q : QWord} : Keeps (L.ivOf x64 neg q) := fun _ _ _ h => by
  obtain ⟨rfl, -⟩ := ivOf_anywhere h
  rfl

@[simp] theorem keeps_rdIv {x64 neg : Bool} {o : Opnd} : Keeps (L.rdIv x64 neg o) := keeps_bind keeps_rdIvBits fun _ => keeps_ivOf
@[simp] theorem keeps_rdPoint {x64 neg : Bool} {o : Opnd} : Keeps (L.rdPoint x64 neg o) := keeps_bind keeps_rdD fun _ => keeps_pure

@[simp] theorem keeps_wrIvBits {x64 : Bool} {d : Opnd} {q : QWord} : Keeps (L.wrIvBits x64 d q) := by
  cases d with
  | f n => exact keeps_test (keeps_bind keeps_wrF fun _ => keeps_wrF) keeps_wrF
  | _ => exact keeps_pure

@[simp] theorem keeps_make {v : Iv} : Keeps (L.make v) := by
  unfold L.make
  split
  · exact keeps_trap
  · exact keeps_pure

/-- Points that break no rule of R67 make their interval. -/
theorem make_makes {v : Iv} {x : LS} (h : ivBad v = none) : Does (L.make v) x (plusZero v.1, plusZero v.2) x := by
  unfold L.make
  rw [h]
  exact does_pure.2 ⟨rfl, rfl⟩

@[simp] theorem keeps_capIv {x64 : Bool} {d : Opnd} {srcs : List Opnd} : Keeps (L.capIv x64 d srcs) := by
  refine keeps_bind keeps_checkRegs fun _ => keeps_bind (keeps_forM (fun _ => keeps_checkIv) srcs) fun _ => ?_
  split
  · exact keeps_bind keeps_rdIvBits fun _ => keeps_bind keeps_rdIvBits fun _ => keeps_pure
  · exact keeps_bind keeps_rdIvBits fun _ => keeps_pure
  · exact keeps_pure

@[simp] theorem keeps_cvtSource {a : Opnd} : Keeps (L.cvtSource a) := by
  cases a with
  | f n =>
    refine keeps_bind keeps_checkF fun _ => keeps_bind keeps_landed fun _ => keeps_bind keeps_fibre fun _ => ?_
    dsimp only
    split
    · exact keeps_bind keeps_rdPoint fun _ => keeps_make
    · exact keeps_bind keeps_rdPoint fun _ => keeps_make
    · exact keeps_rdIv
    · exact keeps_test (keeps_bind keeps_trap fun _ => keeps_bind keeps_checkIv fun _ => keeps_rdIv)
        (keeps_bind keeps_checkIv fun _ => keeps_rdIv)
    · exact keeps_trap
  | _ => exact keeps_pure

/-! ### Words of two intervals and of one (R137 to R139) -/

/-- The words of two intervals have the results of the table, wherever they have one. -/
theorem exec_iv2s : ∀ p ∈ iv2s, ∃ f : Iv → Iv → L Iv, (∀ u v x, p.2.2 u v = true → Does (f u v) x (p.2.1 u v) x) ∧
    ∀ (h : Hdr) (d a c : Opnd) (x : XOpt) (s : State),
      exec (p.1 h d a c x) s = laneWord (p.1 h d a c x) h .each (L.iv2 x f d a c) s := by
  intro p hp
  simp only [iv2s, List.mem_cons, List.not_mem_nil, or_false] at hp
  obtain rfl | rfl | rfl | rfl | rfl := hp
  case inr.inr.inr.inr =>
    refine ⟨_, fun u v x hmeet => does_else ?_ (does_pure.2 ⟨rfl, rfl⟩), fun _ _ _ _ _ _ => rfl⟩
    simpa using hmeet
  all_goals exact ⟨_, fun _ _ _ _ => does_pure.2 ⟨rfl, rfl⟩, fun _ _ _ _ _ _ => rfl⟩

theorem exec_iv1s : ∀ p ∈ iv1s, ∀ (h : Hdr) (d a : Opnd) (x : XOpt) (s : State),
    exec (p.1 h d a x) s = laneWord (p.1 h d a x) h .each (L.iv1 x (fun u => pure (p.2 u)) d a) s := by
  intro p hp h d a x s
  simp only [iv1s, List.mem_cons, List.not_mem_nil, or_false] at hp
  rcases hp with rfl | rfl | rfl <;> rfl

theorem exec_ivPoints (x : XOpt) : ∀ p ∈ ivPoints x, ∀ (h : Hdr) (d a : Opnd) (s : State),
    exec (p.1 h d a x) s = laneWord (p.1 h d a x) h .each (L.ivPoint x p.2 d a) s := by
  intro p hp h d a s
  simp only [ivPoints, List.mem_cons, List.not_mem_nil, or_false] at hp
  rcases hp with rfl | rfl | rfl | rfl <;> rfl

theorem iv2_completes {i : Instr} {h : Hdr} {x : XOpt} {f : Iv → Iv → L Iv} {d a c : Opnd} {s : State} {b : Issue} {t : Team} {l : Nat}
    {u v r : Iv} {y z : LS} (hs : Solo s b t l h.guard)
    (hr : Does (do
      L.checkRegs (ivRegs x.x64 d)
      L.checkIv x.x64 a
      L.checkIv x.x64 c
      return (← L.rdIv x.x64 x.negA a, ← L.rdIv x.x64 x.negB c)) (b.start s t l) (u, v) y)
    (hf : Does (f u v) y r y) (hw : Does (L.wrIvBits x.x64 d (ivBits x.x64 r)) y () z) :
    laneWord i h .each (L.iv2 x f d a c) s = .next (b.complete i s id z) := by
  have hk : Keeps (do
      L.checkRegs (ivRegs x.x64 d)
      L.checkIv x.x64 a
      L.checkIv x.x64 c
      return (← L.rdIv x.x64 x.negA a, ← L.rdIv x.x64 x.negB c)) :=
    keeps_bind keeps_checkRegs fun _ => keeps_bind keeps_checkIv fun _ => keeps_bind keeps_checkIv fun _ => keeps_pair keeps_rdIv keeps_rdIv
  obtain ⟨_, _, hregs, hrest⟩ := does_bind.1 hr
  obtain ⟨_, _, ha, hrest⟩ := does_bind.1 hrest
  obtain ⟨_, _, hc, hreads⟩ := does_bind.1 hrest
  obtain ⟨_, hu, hv⟩ := does_pair hreads
  exact runWord_acts hs hr hk hw keeps_wrIvBits
    (does_step hregs (does_step ha (does_step hc (does_step hu (does_step hv (does_step hf hw))))))

/-! ### Long-latency words of intervals (R43, R138, R143) -/

theorem keeps_perfXdiv {x : XOpt} {k : Cap} : Keeps (perfXdiv x k) := by
  refine keeps_bind keeps_ivOf fun _ => keeps_bind keeps_ivOf fun _ => ?_
  split
  · exact keeps_trap
  · exact keeps_pure

theorem perfXdiv_computes {x : XOpt} {k : Cap} {u v r : Iv} {y : LS}
    (hr : Does (do return (← L.ivOf x.x64 x.negA k.av, ← L.ivOf x.x64 x.negB k.bv)) y (u, v) y) (hq : divIv u v = some r) (y' : LS) :
    Does (perfXdiv x k) y' (ivBits x.x64 r, ivTag x.x64) y' := by
  obtain ⟨_, hu, hv⟩ := does_pair hr
  refine does_step ((ivOf_anywhere hu).2 y') (does_step ((ivOf_anywhere hv).2 y') ?_)
  rw [hq]
  exact does_pure.2 ⟨rfl, rfl⟩

theorem keeps_perfXsqrt {x : XOpt} {k : Cap} : Keeps (perfXsqrt x k) := by
  refine keeps_bind keeps_ivOf fun _ => ?_
  split
  · exact keeps_trap
  · exact keeps_pure

theorem perfXsqrt_computes {x : XOpt} {k : Cap} {u r : Iv} {y : LS} (hu : Does (L.ivOf x.x64 x.negA k.av) y u y)
    (hq : sqrtIv u = some r) (y' : LS) : Does (perfXsqrt x k) y' (ivBits x.x64 r, ivTag x.x64) y' := by
  refine does_step ((ivOf_anywhere hu).2 y') ?_
  rw [hq]
  exact does_pure.2 ⟨rfl, rfl⟩

theorem keeps_perfXexp {x : XOpt} {k : Cap} : Keeps (perfXexp x k) := keeps_bind keeps_ivOf fun _ => keeps_pure

theorem perfXexp_computes {x : XOpt} {k : Cap} {u : Iv} {y : LS} (hu : Does (L.ivOf x.x64 x.negA k.av) y u y) (y' : LS) :
    Does (perfXexp x k) y'
      (packIv x.x64 (expR (fmtOf x.x64) .rdn u.1).code (expR (fmtOf x.x64) .rup u.2).code, ivTag x.x64) y' :=
  does_step ((ivOf_anywhere hu).2 y') (does_pure.2 ⟨rfl, rfl⟩)

theorem keeps_perfXld {wid : Wid} {m : MemOpnd} {k : Cap} : Keeps (perfXld wid m k) :=
  keeps_bind keeps_access fun _ => keeps_bind keeps_readMem fun _ => keeps_bind keeps_ivOf fun _ => keeps_pure

/-- The registers of an interval result are different ones. -/
theorem ivDests_nodup {d : Opnd} {c : Prop} [Decidable c] : (regRun d (if c then 2 else 1)).Nodup :=
  regRun_nodup (by split <;> omega)

/-- Settles O17: each word reads its intervals or points and writes what the table gives; a long-latency one lands it. -/
theorem intervalWords : Obligations.IntervalWords := by
  refine ⟨?_, ?_, ?_, ?_, ?_, ?_, ?_, ?_, ?_⟩
  · intro p hp h d a c x s b t l u v y z hs hr hone hw
    obtain ⟨f, hf, hexec⟩ := exec_iv2s p hp
    rw [hexec]
    exact iv2_completes hs hr (hf u v y hone) hw
  · intro p hp h d a x s b t l u y z hs hr hw
    rw [exec_iv1s p hp]
    obtain ⟨_, _, hregs, hrest⟩ := does_bind.1 hr
    obtain ⟨_, _, ha, hu⟩ := does_bind.1 hrest
    exact runWord_acts hs hr (keeps_bind keeps_checkRegs fun _ => keeps_bind keeps_checkIv fun _ => keeps_rdIv) hw keeps_wrIvBits
      (does_step hregs (does_step ha (does_step hu (does_step (does_pure.2 ⟨rfl, rfl⟩) hw))))
  · intro x p hp h d a s b t l u y z hs hr hw
    rw [exec_ivPoints x p hp]
    obtain ⟨_, _, hreg, hrest⟩ := does_bind.1 hr
    obtain ⟨_, _, ha, hu⟩ := does_bind.1 hrest
    exact runWord_acts hs hr (keeps_bind keeps_checkReg fun _ => keeps_bind keeps_checkIv fun _ => keeps_rdIv)
      hw keeps_wrD (does_step hreg (does_step ha (does_step hu hw)))
  · intro h d a c x s b t l u v y z hs hr hok hw
    obtain ⟨_, _, hregs, hrest⟩ := does_bind.1 hr
    obtain ⟨_, _, hc, hreads⟩ := does_bind.1 hrest
    obtain ⟨_, hu, hv⟩ := does_pair hreads
    exact runWord_acts hs hr (keeps_bind keeps_checkRegs fun _ => keeps_bind keeps_checkF3 fun _ => keeps_pair keeps_rdPoint keeps_rdPoint)
      hw keeps_wrIvBits (does_step hregs (does_step hc (does_step hu (does_step hv (does_step (make_makes hok) hw)))))
  · intro h d a x s b t l u y z hs hr hok hw
    obtain ⟨_, _, hregs, hrest⟩ := does_bind.1 hr
    obtain ⟨_, _, hc, hu⟩ := does_bind.1 hrest
    exact runWord_acts hs hr (keeps_bind keeps_checkRegs fun _ => keeps_bind keeps_checkF3 fun _ => keeps_rdPoint) hw keeps_wrIvBits
      (does_step hregs (does_step hc (does_step hu (does_step (make_makes hok) hw))))
  · intro h d a c x s b t l k u v r y z hs hc hr hq hl
    exact longWord_lands hs keeps_capIv keeps_perfXdiv ivDests_nodup hc (hl.of_pure (perfXdiv_computes hr hq))
  · intro h d a x s b t l k u r y z hs hc hu hq hl
    exact longWord_lands hs keeps_capIv keeps_perfXsqrt ivDests_nodup hc (hl.of_pure (perfXsqrt_computes hu hq))
  · intro h d a x s b t l k u y z hs hc hu hl
    exact longWord_lands hs keeps_capIv keeps_perfXexp ivDests_nodup hc (hl.of_pure (perfXexp_computes hu))
  · intro h d wid m s b t l k y z hs hc hl
    exact longWord_lands hs keeps_capMem keeps_perfXld ivDests_nodup hc hl

/-! ### Tests (R140, R141) -/

theorem exec_ivTests (o : TOpt) : ∀ p ∈ ivTests o.rel.toNat, ∀ (h : Hdr) (d a c : Opnd) (s : State),
    exec (p.1 h d a c o) s = laneWord (p.1 h d a c o) h .each (L.ivTest o p.2 d a c) s := by
  intro p hp h d a c s
  simp only [ivTests, List.mem_cons, List.not_mem_nil, or_false] at hp
  rcases hp with rfl | rfl | rfl <;> rfl

/-! ### Bisection (R142) -/

theorem keeps_bisectReads {x64 : Bool} {d a e : Opnd} :
    Keeps (do L.checkRegs (e :: ivRegs x64 d); L.checkIv x64 a; L.rdIv x64 false a) :=
  keeps_bind keeps_checkRegs fun _ => keeps_bind keeps_checkIv fun _ => keeps_rdIv

/-- XBIS reads the interval, and then acts by its midpoint and the team's free slots. -/
theorem bisect_acts {x64 : Bool} {d a e : Opnd} {x y z : LS} {v : Iv} {t : Team} {q : Iv → LS → Team → L Unit}
    (hr : Does (do L.checkRegs (e :: ivRegs x64 d); L.checkIv x64 a; L.rdIv x64 false a) x v y) (ht : Does L.team y t y)
    (hq : Does (q v y t) y () z) : Does (do
      L.checkRegs (e :: ivRegs x64 d)
      L.checkIv x64 a
      let v ← L.rdIv x64 false a
      let y ← get
      let t ← L.team
      q v y t) x () z := by
  obtain ⟨_, _, hregs, hrest⟩ := does_bind.1 hr
  obtain ⟨_, _, ha, hv⟩ := does_bind.1 hrest
  exact does_step hregs (does_step ha (does_step hv (does_step (does_get.2 ⟨rfl, rfl⟩) (does_step ht hq))))

theorem slot_of_team {x : LS} {t : Team} (ht : Does L.team x t x) : Does L.slot x (t.slot x.wave x.lane) x :=
  does_step ht (does_step (does_get.2 ⟨rfl, rfl⟩) (does_step (does_get.2 ⟨rfl, rfl⟩) (does_pure.2 ⟨rfl, rfl⟩)))

/-- Settles O18: the tests write a pair of bits of D; XBIS writes the interval and the status, and with a free slot it first starts the
child with the upper half; XST and XCVT write what they have read. -/
theorem intervalTestsAndBisection : Obligations.IntervalTestsAndBisection := by
  refine ⟨?_, ?_, ?_, ?_, ?_, ?_⟩
  · intro o p hp h d a c s b t l u v w y z hs hr hw
    rw [exec_ivTests o p hp]
    obtain ⟨hlane, hunis, -⟩ := Keeps.of_start (keeps_bind keeps_checkReg fun _ => keeps_bind keeps_checkIv fun _ =>
      keeps_bind keeps_checkIv fun _ => keeps_triple keeps_rdIv keeps_rdIv keeps_rdW) hr
    obtain ⟨_, _, hreg, hrest⟩ := does_bind.1 hr
    obtain ⟨_, _, ha, hrest⟩ := does_bind.1 hrest
    obtain ⟨_, _, hc, hreads⟩ := does_bind.1 hrest
    obtain ⟨_, _, hu, hv, hd⟩ := does_triple hreads
    exact runWord_writes hs hw
      (does_step hreg (does_step ha (does_step hc (does_step hu (does_step hv (does_step hd hw)))))) hlane hunis
  · intro h d a e x s b t l v y z hs hr hm ht hw
    obtain ⟨hlane, hunis, -⟩ := keeps_bisectReads.of_start hr
    obtain ⟨_, y', hiv, hstatus⟩ := does_bind.1 hw
    obtain ⟨hlane', hunis'⟩ := keeps_wrIvBits.place hiv
    exact runWord_writes hs hstatus (bisect_acts hr ht (does_then (by rw [hm]; rfl) hw)) (hlane'.trans hlane) (hunis'.trans hunis)
  · intro h d a k x s b t l v t' y z hs hr hm ht hn hw
    obtain ⟨hlane, hunis, -, hwave, -⟩ := keeps_bisectReads.of_start hr
    obtain ⟨hz, hzu⟩ := Keeps.place (keeps_bind keeps_wrIvBits fun _ => keeps_wrG) hw
    refine runWord_lone hs (bisect_acts hr ht (does_else (by rw [hm]; decide) ?_)) (hz.trans hlane) (hzu.trans hunis)
    rw [hwave, hn]
    exact hw
  · intro h d a e x s b t l v t' f n y z hs hr hm ht hn hf hshadow hlanded hw
    obtain ⟨hlane, hunis, hagent, hwave, -⟩ := keeps_bisectReads.of_start hr
    have hpc := keeps_bisectReads.pc_of_start hr
    obtain ⟨_, y', hiv, hstatus⟩ := does_bind.1 hw
    obtain ⟨hlane', hunis'⟩ := keeps_wrIvBits.place hiv
    have hfib : Does L.fibre y f y := does_fibre.2 ⟨by rw [hagent, hwave, hlane]; exact hf, rfl⟩
    refine runWord_writes hs hstatus (bisect_acts hr ht (does_else (by rw [hm]; decide) ?_)) (hlane'.trans hlane) (hunis'.trans hunis)
    rw [hwave, hn]
    refine does_step hlanded (does_step hfib (does_step (slot_of_team ht) (does_next (does_modTeam.2 rfl) ?_)))
    rw [← hagent, ← hwave, ← hlane, ← hpc] at hw
    rw [hshadow]
    exact hw
  · intro h d wid m s b t l v ea y z hs hr hw
    obtain ⟨_, _, hregs, hrest⟩ := does_bind.1 hr
    obtain ⟨_, _, hm, hrest⟩ := does_bind.1 hrest
    obtain ⟨_, _, hd, hreads⟩ := does_bind.1 hrest
    obtain ⟨_, hv, hea⟩ := does_pair hreads
    exact runWord_acts hs hr (keeps_bind keeps_checkRegs fun _ => keeps_bind keeps_checkAddr fun _ =>
      keeps_bind keeps_checkIv fun _ => keeps_pair keeps_rdIv keeps_memAddr) hw keeps_writeMem
      (does_step hregs (does_step hm (does_step hd (does_step hv (does_step hea hw)))))
  · intro h d a o s b t l v y z hs hr hw
    obtain ⟨_, _, hregs, hv⟩ := does_bind.1 hr
    exact runWord_acts hs hr (keeps_bind keeps_checkRegs fun _ => keeps_cvtSource) hw keeps_wrIvBits
      (does_step hregs (does_step hv hw))

end Sys2Proof.Machine
end

section
/-! Loads (R151 to R154, R163): what a load captures is its address, and what it reads from there is extended by its width and lands. -/

namespace Sys2Proof.Machine

/-! ### Widths (R151) -/

theorem widSize_eq_bytesOf (wid : Wid) : widSize wid = bytesOf wid := by
  cases wid <;> rfl

/-- The low bits of a number, sign-extended, are the signed value of a bit vector of that width. -/
theorem sextN_eq_toInt {w : Nat} (hw : 0 < w) (v : Nat) : sextN v w = (BitVec.ofNat w v).toInt := by
  obtain ⟨n, rfl⟩ : ∃ n, w = n + 1 := ⟨w - 1, by omega⟩
  have hhalf : v % 2 ^ (n + 1) < 2 ^ n ↔ 2 * (v % 2 ^ (n + 1)) < 2 ^ (n + 1) := by omega
  simp only [sextN, BitVec.toInt_eq_toNat_cond, BitVec.toNat_ofNat, Nat.add_sub_cancel, hhalf]
  split
  · rfl
  · norm_cast

theorem loadValue_eq_loaded (wid : Wid) : loadValue wid = loaded wid := by
  funext v
  cases wid with
  | b => simp only [loadValue, loaded, sextN_eq_toInt (show 0 < 8 by omega), BitVec.signExtend]
  | h => simp only [loadValue, loaded, sextN_eq_toInt (show 0 < 16 by omega), BitVec.signExtend]
  | _ => rfl

/-! ### Capture and access -/

theorem capMem_captures {dst : List Opnd} {m : MemOpnd} {av bv : Nat} {x y : LS}
    (h : Does (do L.checkRegs dst; L.checkAddr m; L.addrOps m) x (av, bv) y) : Does (L.capMem dst m) x (addrCap av bv 0) y := by
  obtain ⟨_, _, hregs, h⟩ := does_bind.1 h
  obtain ⟨_, _, hm, hops⟩ := does_bind.1 h
  exact does_step hregs (does_step hm (does_step hops (does_pure.2 ⟨rfl, rfl⟩)))

/-- A load makes the access of the statement, for both kinds of load (R163, R294). -/
theorem perfLoad_eq_loadFrom {m : MemOpnd} {wid : Wid} {kind : AK} {f : Nat → QWord} {tag : BitVec 4} {c : Cap} (hk : kind.acc = 0) :
    perfLoad m wid kind f tag c = loadFrom m wid kind f tag c := by
  simp only [perfLoad, loadFrom, L.readMem, hk, widSize_eq_bytesOf]
  cases m.scratch <;> rfl

theorem keeps_perfLoad {m : MemOpnd} {wid : Wid} {kind : AK} {f : Nat → QWord} {tag : BitVec 4} {c : Cap} :
    Keeps (perfLoad m wid kind f tag c) :=
  keeps_bind keeps_access fun _ => keeps_bind keeps_readMem fun _ => keeps_pure

@[simp] theorem keeps_arrayReg {d : Opnd} {wid : Wid} : Keeps (L.arrayReg d wid) := by
  cases d with
  | i n => exact keeps_bind keeps_rdI fun _ => keeps_bind keeps_team fun _ => keeps_test (keeps_bind keeps_trap fun _ => keeps_pure) keeps_pure
  | _ => exact keeps_pure

/-- Two registers that an index names one after the other differ. -/
theorem idxG_next_ne (v : QWord) : idxG v 0 ≠ idxG v 1 := by
  intro h
  have hn := BitVec.toNat_eq.1 (Opnd.g.inj h)
  simp only [BitVec.toNat_ofNat] at hn
  omega

/-- The registers of LDP's result are different ones (R153). -/
theorem ldpDests_nodup {h : Hdr} {d : Opnd} {wid : Wid} {m : MemOpnd} {c : Cap} : (destsOf (.ldp h d wid m) c).Nodup := by
  simp only [destsOf]
  split
  · simpa using idxG_next_ne c.dv
  · exact List.nodup_singleton _

/-- The registers of an integer load's result are different ones (R151). -/
theorem widDests_nodup {d : Opnd} {wid : Wid} : (regRun d (widRegs wid)).Nodup :=
  regRun_nodup (by cases wid <;> decide)

/-- A load whose result has landed completes. -/
theorem load_lands {i : Instr} {h : Hdr} {cap : L Cap} {m : MemOpnd} {wid : Wid} {kind : AK} {f : Nat → QWord} {tag : BitVec 4} {k : Cap}
    {s : State} {b : Issue} {t : Team} {l : Nat} {y z : LS} (hs : Solo s b t l h.guard) (hkind : kind.acc = 0) (hcap : Keeps cap)
    (hd : (destsOf i k).Nodup) (hc : Does cap (b.start s t l) k y) (hl : Landed i h k (loadFrom m wid kind f tag k) y z) :
    longWord i h .each cap (perfLoad m wid kind f tag) s = .next (b.complete i s id z) := by
  rw [← perfLoad_eq_loadFrom hkind] at hl
  exact longWord_lands hs hcap keeps_perfLoad hd hc hl

/-- LDS: the first lane of the batch makes the one access of the wave (R154). -/
theorem lds_lands {h : Hdr} {d : Opnd} {wid : Wid} {m : MemOpnd} {k : Cap} {s : State} {b : Issue} {t : Team} {l : Nat} {y z : LS}
    (hs : Solo s b t l h.guard) (hw : Does L.wholeWave (b.start s t l) () (b.start s t l))
    (hc : Does (L.capMem [] m) (b.start s t l) k y) (hl : Landed (.lds h d wid m) h k (perfLoad m wid .load (loadValue wid) 0 k) y z) :
    exec (.lds h d wid m) s = .next (b.complete (.lds h d wid m) s id z) := by
  have hfirst : ((b.start s t l).execs.head? == some (b.start s t l).lane) = true := beq_self_eq_true (some l)
  obtain ⟨hlane, hunis, -⟩ := keeps_capMem.of_start hc
  obtain ⟨-, y', _, _, w, hb, hp, hn⟩ := id hl
  obtain ⟨hlane', hunis'⟩ := (keeps_bind keeps_behind fun _ => keeps_perfLoad).place (does_step hb hp)
  obtain ⟨hz, hagree⟩ := landNow_place (i := .lds h d wid m) widDests_nodup (hunis'.trans hunis) hn
  exact runWord_solo hs (does_step hw (does_step (does_get.2 ⟨rfl, rfl⟩) (does_then hfirst (longBody_landed hc hl))))
    (hz.trans (hlane'.trans hlane)) hagree

/-- Settles O19: each load captures its address; the access reads from there, and its result lands in the registers of its width. -/
theorem loadWords : Obligations.LoadWords := by
  refine ⟨?_, ?_, ?_, ?_, ?_⟩
  · intro h d wid m s b t l av bv y z hs hr hl
    rw [← loadValue_eq_loaded] at hl
    exact load_lands hs rfl keeps_capMem widDests_nodup (capMem_captures hr) hl
  · intro h d wid m s b t l av bv y z hs hr hl
    rw [← loadValue_eq_loaded] at hl
    exact load_lands hs rfl keeps_capMem widDests_nodup (capMem_captures hr) hl
  · intro h d wid m s b t l av bv y z hs hr hl
    exact load_lands hs rfl keeps_capMem ivDests_nodup (capMem_captures hr) hl
  · intro h n wid m s b t l r v av bv y z hs hr hl
    obtain ⟨_, _, harr, hr⟩ := does_bind.1 hr
    obtain ⟨_, _, hm, hr⟩ := does_bind.1 hr
    obtain ⟨_, _, hops, hr⟩ := does_bind.1 hr
    obtain ⟨_, _, hv, hr⟩ := does_bind.1 hr
    obtain ⟨he, rfl⟩ := does_pure.1 hr
    simp only [Prod.mk.injEq] at he
    obtain ⟨rfl, rfl, rfl⟩ := he
    rw [← loadValue_eq_loaded] at hl
    exact load_lands hs rfl (keeps_bind keeps_arrayReg fun _ => keeps_bind keeps_capMem fun _ => keeps_bind keeps_rdI fun _ => keeps_pure)
      ldpDests_nodup (does_step harr (does_step (capMem_captures (does_next (does_pure.2 ⟨rfl, rfl⟩) (does_step hm hops)))
        (does_step hv (does_pure.2 ⟨rfl, rfl⟩)))) hl
  · intro h d wid m s b t l av bv y z hs hr hl _
    obtain ⟨_, x, hw, hr⟩ := does_bind.1 hr
    obtain rfl := wholeWave_stands hw
    rw [← loadValue_eq_loaded, ← perfLoad_eq_loadFrom rfl] at hl
    exact lds_lands hs hw (capMem_captures (does_next (does_pure.2 ⟨rfl, rfl⟩) hr)) hl

end Sys2Proof.Machine
end

section
/-! Stores (R151 to R153, R157, R163): the registers are read, the address is formed and checked, and then as many bytes as the width are
written. -/

namespace Sys2Proof.Machine

/-! ### What a store reads and where it writes -/

@[simp] theorem keeps_rdRun {l : List Opnd} : Keeps (L.rdRun l) := by
  induction l with
  | nil => exact keeps_pure
  | cons o l ih => exact keeps_bind keeps_rdW fun _ => keeps_bind ih fun _ => keeps_pure

/-- The value of a run of registers fits in their bits. -/
theorem rdRun_lt {l : List Opnd} {v : Nat} {x y : LS} (h : Does (L.rdRun l) x v y) : v < 2 ^ (32 * l.length) := by
  induction l generalizing v x y with
  | nil =>
    obtain ⟨rfl, -⟩ := does_pure.1 h
    exact Nat.one_pos
  | cons o l ih =>
    obtain ⟨u, x', -, h⟩ := does_bind.1 h
    obtain ⟨w, y', hw, h⟩ := does_bind.1 h
    obtain ⟨rfl, -⟩ := does_pure.1 h
    have hu : u.toNat < 2 ^ 32 := u.isLt
    have hl := ih hw
    rw [List.length_cons, Nat.mul_succ, Nat.pow_add]
    omega

/-- The registers that an integer store reads (R151). -/
def storeRegs (d : Opnd) : Wid → List Opnd
  | .d => regRun d 2
  | .q => regRun d 4
  | _ => [d]

theorem regRun_length_le (o : Opnd) {n : Nat} (hn : 1 ≤ n) : (regRun o n).length ≤ n := by
  cases o with
  | g k => simp [regRun]
  | f k => simp [regRun]
  | s k => simp [regRun]
  | zr => simp [regRun]
  | _ => exact hn

/-- A narrow store takes the low bytes of its register; a wide one has as many bytes as its registers. -/
theorem storeValue_reads {d : Opnd} {wid : Wid} {v : Nat} {x y : LS} (h : Does (L.rdRun (storeRegs d wid)) x v y) :
    Does (L.storeValue d wid) x (v % 2 ^ (8 * widSize wid)) y := by
  have hwide : ∀ n, 1 ≤ n → ∀ {x y : LS}, Does (L.rdRun (regRun d n)) x v y → v % 2 ^ (32 * n) = v := fun n hn _ _ h =>
    Nat.mod_eq_of_lt (lt_of_lt_of_le (rdRun_lt h) (Nat.pow_le_pow_right Nat.two_pos (Nat.mul_le_mul_left 32 (regRun_length_le d hn))))
  have hnarrow : ∀ {x y : LS}, Does (L.rdRun [d]) x v y → ∃ u, Does (L.rdW d) x u y ∧ v = u.toNat := fun h => by
    obtain ⟨u, x', hu, h⟩ := does_bind.1 h
    obtain ⟨w, y', hw, h⟩ := does_bind.1 h
    obtain ⟨rfl, rfl⟩ := does_pure.1 hw
    obtain ⟨rfl, rfl⟩ := does_pure.1 h
    exact ⟨u, hu, by omega⟩
  cases wid with
  | d => rw [show 8 * widSize .d = 32 * 2 from rfl, hwide 2 (by omega) h]; exact h
  | q => rw [show 8 * widSize .q = 32 * 4 from rfl, hwide 4 (by omega) h]; exact h
  | _ =>
    obtain ⟨u, hu, rfl⟩ := hnarrow h
    exact does_step hu (does_pure.2 ⟨rfl, rfl⟩)

@[simp] theorem keeps_storeValue {d : Opnd} {wid : Wid} : Keeps (L.storeValue d wid) := by
  cases wid with
  | d => exact keeps_rdRun
  | q => exact keeps_rdRun
  | _ => exact keeps_bind keeps_rdW fun _ => keeps_pure

/-- The address of an access is formed and checked, and something else follows. -/
theorem address_then {α : Type} {acc : Nat} {m : MemOpnd} {wid : Wid} {q : Nat → L α} {v : α} {x y : LS} (h : Does (do
      let (av, bv) ← L.addrOps m
      q (← L.access acc m (bytesOf wid) av bv)) x v y) : ∃ ea x', Does (L.memAddr acc m wid) x ea x' ∧ Does (q ea) x' v y := by
  obtain ⟨⟨av, bv⟩, _, hops, h⟩ := does_bind.1 h
  obtain ⟨ea, x', hacc, hq⟩ := does_bind.1 h
  rw [← widSize_eq_bytesOf] at hacc
  exact ⟨ea, x', does_step hops hacc, hq⟩

/-- A store completes with what it has written. -/
theorem store_completes {α : Type} {i : Instr} {g : Option Guard} {p : L α} {m : MemOpnd} {n : Nat} {wid : Wid} {body : Bool → L Unit}
    {s : State} {b : Issue} {t : Team} {l : Nat} {u : α} {ea v : Nat} {x y z : LS} (hs : Solo s b t l g) (hk : Keeps p)
    (hr : Does p (b.start s t l) u x) (hea : Does (L.memAddr 1 m wid) x ea y) (hw : Does (L.writeMem m .store ea n v) y () z)
    (hb : Does (do L.writeMem m .store (← L.memAddr 1 m wid) n v) x () z → Does (body false) (b.start s t l) () z) :
    runWord i g .each (fun _ => id) body s = .next (b.complete i s id z) :=
  have hwrite := does_step (f := fun ea => L.writeMem m .store ea n v) hea hw
  runWord_acts hs hr hk hwrite (keeps_bind keeps_memAddr fun _ => keeps_writeMem) (hb hwrite)

/-- A value that one of two parts gives, and what follows it. -/
theorem test_then {α β : Type} {c : Prop} [Decidable c] {p q : L α} {f : α → L β} {x z : LS} {v : β}
    (h : Does (if c then p >>= f else q >>= f) x v z) : ∃ u y, Does (if c then p else q) x u y ∧ Does (f u) y v z := by
  by_cases hc : c
  · rw [if_pos hc] at h ⊢
    exact does_bind.1 h
  · rw [if_neg hc] at h ⊢
    exact does_bind.1 h

theorem does_test {α β : Type} {c : Prop} [Decidable c] {p q : L α} {f : α → L β} {x y z : LS} {u : α} {v : β}
    (h : Does (if c then p else q) x u y) (hf : Does (f u) y v z) : Does (if c then p >>= f else q >>= f) x v z := by
  by_cases hc : c
  · rw [if_pos hc] at h ⊢
    exact does_step h hf
  · rw [if_neg hc] at h ⊢
    exact does_step h hf

/-- STP's value: one register, or two with the first lowest (R153). -/
theorem arrayValue_reads {r : Nat} {lo hi : Word} {c : Prop} [Decidable c] {x y : LS}
    (h : Does (if c then L.rdG (r + 1) else pure 0) x hi y) :
    Does (if c then (fun (v : Word) => lo.toNat + 2 ^ 32 * v.toNat) <$> L.rdG (r + 1) else pure lo.toNat) x
      (lo.toNat + 2 ^ 32 * hi.toNat) y := by
  by_cases hc : c
  · rw [if_pos hc] at h ⊢
    exact does_map.2 ⟨hi, h, rfl⟩
  · rw [if_neg hc] at h ⊢
    obtain ⟨rfl, rfl⟩ := does_pure.1 h
    exact does_pure.2 ⟨rfl, rfl⟩

/-! ### ZFILL (R157) -/

@[simp] theorem keeps_zfillCheck {scratch : Bool} {a n : Nat} : Keeps (L.zfillCheck scratch a n) := by
  induction n generalizing a with
  | zero => exact keeps_pure
  | succ n ih =>
    refine keeps_test (keeps_bind keeps_checkScr fun _ => ih) ?_
    exact keeps_test (keeps_bind keeps_pageTrap fun _ => keeps_bind (keeps_discard keeps_locate) fun _ => ih)
      (keeps_bind (keeps_discard keeps_locate) fun _ => ih)

/-- The upper register of an address pair is checked before the operands, where the word has a pair (R77). -/
theorem does_checkPage {α : Type} {a : Opnd} {l : List Opnd} {c : Prop} [Decidable c] {q : Unit → L α} {x y z : LS} {v : α}
    (hc : c) (h : Does (L.checkPage a l) x () y) (hq : ∀ x', Does (L.checkRegs l) x' () y → Does (q ()) x' v z) :
    Does (match a with
      | .g n => if c then L.checkG (n.toNat + 1) >>= q else q ()
      | _ => q ()) x v z := by
  cases a with
  | g n =>
    obtain ⟨_, x', hg, hl⟩ := does_bind.1 h
    exact does_then hc (does_step hg (hq x' hl))
  | _ => exact hq x h

/-- A scratch address has no pair (R40). -/
theorem does_noPage {α : Type} {a : Opnd} {c : Prop} [Decidable c] {p : BitVec 6 → L Unit} {q : Unit → L α} {x z : LS} {v : α}
    (hc : ¬ c) (h : Does (q ()) x v z) :
    Does (match a with
      | .g n => if c then p n >>= q else q ()
      | _ => q ()) x v z := by
  cases a with
  | g n => exact does_else hc h
  | _ => exact h

/-- A count of bytes that ZFILL takes: whole words, at least one, inside one page. -/
theorem zfill_count_ok {n : Word} {ea : Nat} (h4 : n.toNat % 4 = 0) (hn : n ≠ 0) (hp : ea % 4096 + n.toNat ≤ 4096) :
    ¬ (n.toNat % 4 ≠ 0 ∨ n.toNat < 4 ∨ 4096 < n.toNat ∨ 4096 < ea % 4096 + n.toNat) := by
  have hpos : n.toNat ≠ 0 := fun h0 => hn (BitVec.eq_of_toNat_eq h0)
  omega

/-- Settles O20: each store reads its registers and its address, and the write completes it; ZFILL checks every word of its range. -/
theorem storeWords : Obligations.StoreWords := by
  refine ⟨?_, ?_, ?_, ?_, ?_, ?_⟩
  · intro h d wid m s b t l v ea y z hs hr hw
    obtain ⟨_, _, hregs, hr⟩ := does_bind.1 hr
    obtain ⟨_, _, hm, hr⟩ := does_bind.1 hr
    obtain ⟨_, _, hv, hr⟩ := does_bind.1 hr
    obtain ⟨_, _, hea, hr⟩ := address_then hr
    obtain ⟨he, rfl⟩ := does_pure.1 hr
    obtain ⟨rfl, rfl⟩ := Prod.mk.inj he
    rw [← widSize_eq_bytesOf] at hw
    exact store_completes hs (keeps_bind keeps_checkRegs fun _ => keeps_bind keeps_checkAddr fun _ => keeps_storeValue)
      (does_step hregs (does_step hm (storeValue_reads hv))) hea hw
      fun hb => does_step hregs (does_step hm (does_step (storeValue_reads hv) hb))
  · intro h d wid m s b t l v ea y z hs hr hw
    obtain ⟨_, _, hregs, hr⟩ := does_bind.1 hr
    obtain ⟨_, _, hm, hr⟩ := does_bind.1 hr
    obtain ⟨_, _, hv, hr⟩ := does_bind.1 hr
    obtain ⟨_, _, hea, hr⟩ := address_then hr
    obtain ⟨he, rfl⟩ := does_pure.1 hr
    obtain ⟨rfl, rfl⟩ := Prod.mk.inj he
    rw [← widSize_eq_bytesOf] at hw
    exact store_completes hs (keeps_bind keeps_checkRegs fun _ => keeps_bind keeps_checkAddr fun _ => keeps_rdFRun)
      (does_step hregs (does_step hm hv)) hea hw fun hb => does_step hregs (does_step hm (does_step hv hb))
  · intro h d wid m s b t l lo hi ea y z hs hr hw
    obtain ⟨r, _, harr, hr⟩ := does_bind.1 hr
    obtain ⟨_, _, hm, hr⟩ := does_bind.1 hr
    obtain ⟨_, _, hlo, hr⟩ := does_bind.1 hr
    obtain ⟨_, _, hhi, hr⟩ := test_then hr
    obtain ⟨_, _, hea, hr⟩ := address_then hr
    obtain ⟨he, rfl⟩ := does_pure.1 hr
    simp only [Prod.mk.injEq] at he
    obtain ⟨rfl, rfl, rfl⟩ := he
    rw [← widSize_eq_bytesOf] at hw
    exact store_completes hs (keeps_bind keeps_arrayReg fun _ => keeps_bind keeps_checkAddr fun _ => keeps_bind keeps_rdG fun _ =>
      keeps_test keeps_rdG keeps_pure) (does_step harr (does_step hm (does_step hlo hhi))) hea hw
      fun hb => does_step harr (does_step hm (does_step hlo (does_test (arrayValue_reads hhi) hb)))
  · intro h d wid m s b t l v ea pa leaf y y' z hs hr hrel hw
    obtain ⟨_, _, hregs, hr⟩ := does_bind.1 hr
    obtain ⟨_, _, hm, hr⟩ := does_bind.1 hr
    obtain ⟨_, _, hv, hr⟩ := does_bind.1 hr
    obtain ⟨_, _, hea, hr⟩ := address_then hr
    obtain ⟨_, _, hloc, hr⟩ := does_bind.1 hr
    obtain ⟨he, rfl⟩ := does_pure.1 hr
    simp only [Prod.mk.injEq] at he
    obtain ⟨rfl, rfl, rfl⟩ := he
    rw [← widSize_eq_bytesOf] at hw hloc
    exact runWord_keeps hs (keeps_bind keeps_checkRegs fun _ => keeps_bind keeps_checkAddr fun _ => keeps_bind keeps_storeValue fun _ =>
      keeps_bind keeps_memAddr fun _ => keeps_bind keeps_locate fun _ => keeps_bind keeps_release fun _ => keeps_store)
      (does_step hregs (does_step hm (does_step (storeValue_reads hv) (does_step hea (does_step hloc (does_step hrel hw))))))
  · intro h a e s b t l n ea y z hs hr hlim h4 hn hp hw
    obtain ⟨_, x, hpage, hr⟩ := does_bind.1 hr
    obtain ⟨x', he, ha⟩ := does_pair hr
    have hk : Keeps (do L.checkPage a [a, e]; return (← L.rdW e, ← L.rdPair a)) :=
      keeps_bind keeps_checkPage fun _ => keeps_pair keeps_rdW keeps_rdPair
    obtain ⟨_, y', hcheck, hstore⟩ := does_bind.1 hw
    refine runWord_acts hs (does_step hpage hr) hk hw (keeps_bind keeps_zfillCheck fun _ => keeps_store)
      (does_checkPage rfl hpage fun x1 hregs => ?_)
    exact does_step hregs (does_step he (does_else (by decide) (does_step ha (does_else (by simpa using hlim)
      (does_else (zfill_count_ok h4 hn hp) (does_step hcheck (does_else (by decide) hstore)))))))
  · intro h a e s b t l n ea y z hs hr h4 hn hp hw
    have hk : Keeps (do L.checkRegs [a, e]; return (← L.rdW e, ← L.rdW a)) :=
      keeps_bind keeps_checkRegs fun _ => keeps_pair keeps_rdW keeps_rdW
    obtain ⟨hlane, hunis, hagent, -⟩ := (keeps_bind hk fun _ => keeps_zfillCheck).of_start (does_step hr hw)
    obtain ⟨_, x, hregs, hr⟩ := does_bind.1 hr
    obtain ⟨x', he, ha⟩ := does_pair hr
    rw [← hagent]
    have hfill : Does (do L.effect ⟨false, ea.toNat, n.toNat⟩; L.modTeam (·.wrScr ea.toNat n.toNat 0)) z () { z with
        effs := z.effs ++ [⟨false, ea.toNat, n.toNat⟩], st := z.st.updTeam z.agent (·.wrScr ea.toNat n.toNat 0) } :=
      does_next (does_effect.2 rfl) (does_modTeam.2 rfl)
    refine runWord_stands (z := { z with
      effs := z.effs ++ [⟨false, ea.toNat, n.toNat⟩], st := z.st.updTeam z.agent (·.wrScr ea.toNat n.toNat 0) }) hs
      (does_noPage (by decide) ?_) hlane hunis
    exact does_step hregs (does_step he (does_then rfl (does_step (does_step ha (does_pure.2 ⟨rfl, rfl⟩)) (does_else (by simp)
      (does_else (zfill_count_ok h4 hn hp) (does_step hw (does_then rfl hfill)))))))

end Sys2Proof.Machine
end

section
/-! Accesses of one lane to memory (R11, R148 to R150, R280): where an access lands, and the subcode that a page's mode refuses it with. -/

namespace Sys2Proof.Machine

/-! ### Where an access lands -/

/-- A page of this package answers the bytes of its frame (R11). -/
theorem load_reads {kind : AK} {ea size pa : Nat} {leaf : QWord} {x y : LS} (hk : kind ≠ .lda)
    (h : Does (L.locate kind ea size) x (some pa, leaf) y) (hp : y.st.poisoned pa size = false) :
    Does (L.load kind ea size) x (y.st.readP pa size) y :=
  does_else (by simpa using hk) (does_step h (does_step (does_get.2 ⟨rfl, rfl⟩) (does_else (by simp [hp]) (does_pure.2 ⟨rfl, rfl⟩))))

/-- A store to a page of this package writes the bytes of its frame. -/
theorem store_writes {kind : AK} {ea size v pa : Nat} {leaf : QWord} {x y : LS} (hk : kind ≠ .stl)
    (h : Does (L.locate kind ea size) { x with effs := x.effs ++ [⟨false, ea, v⟩] } (some pa, leaf) y) :
    Does (L.store kind ea size v) x () { y with st := y.st.writeP pa size v } :=
  does_next (does_effect.2 rfl) (does_else (by simpa using hk) (does_step h (does_modSt.2 rfl)))

/-! ### The mode checks (R149, R150) -/

/-- Whether a mode takes no access of a kind, whoever makes it. -/
def modeRefuses (m : Nat) : AK → Bool
  | .fetch => false
  | .load => m == mAtomic || m == mStream
  | .lda => m == mStream
  | .store => !(m == mOwned || m == mHalo || m == mPtab)
  | .stl => !(m == mOwned || m == mHalo || m == mPtab || m == mAtomic)
  | .amo => !(m == mOwned || m == mAtomic || m == mPtab)
  | .red => m != mReduce
  | .pop | .push => m != mStream

/-- The subcode of a refused access where LEVEL and SCOPE do not apply. -/
def refusal (m : Nat) (k : AK) (owner : Bool) : Option (BitVec 8) :=
  if k == .fetch && m != mCode then some 3
  else if modeRefuses m k then some 4
  else if k != .fetch && k != .red && (m == mOwned && !owner) then some 5
  else none

theorem refusal_eq_modeTable {m : Nat} {k : AK} {owner : Bool} {lvl : Nat} (hm : m < 8) (hp : ¬ (m = mPtab ∧ lvl = 0)) :
    refusal m k owner = modeTable m k owner lvl := by
  rw [modeTable.eq_def, if_neg hp]
  cases k <;> interval_cases m <;> cases owner <;> rfl

section
variable {s : State} {p : Partition} {q : QWord} {r : Req}

/-- K and PTAB pages are for levels 1 and 2. -/
theorem mmxSub_level (hq : (lfK q || lfMode q == mPtab) = true) (hl : r.lvl = 0) : mmxSub s p q r = some 1 := by
  simp only [mmxSub, hq, hl, beq_self_eq_true, Bool.and_self, if_true]

theorem mmxSub_region (hl : r.lvl ≠ 0) (hr : inRegion s.pkg q r.agent = false) : mmxSub s p q r = some 2 := by
  simp only [mmxSub, beq_eq_false_iff_ne.2 hl, hr, Bool.and_false, Bool.not_false, Bool.false_eq_true, if_false, if_true]

/-- Inside the region, without K and outside a footprint, the mode and the owner decide: a HALO page of the agent's own has no strips of
another. -/
theorem mmxSub_eq_refusal (hl : ¬ (lfMode q = mPtab ∧ r.lvl = 0)) (hK : lfK q = false) (hr : inRegion s.pkg q r.agent = true)
    (hf : (r.fp && s.footprintHit r) = false) (hh : lfMode q ≠ mHalo ∨ r.agent = lfOwner q) :
    mmxSub s p q r = refusal (lfMode q) r.kind (r.agent == lfOwner q) := by
  have hlevel : (lfMode q == mPtab && r.lvl == 0) = false := by simpa using hl
  have hhalo : (lfMode q == mHalo && !r.agent == lfOwner q) = false := by simpa [or_iff_not_imp_left] using hh
  simp only [mmxSub, hlevel, hhalo, hK, hr, hf, Bool.false_or, Bool.false_and, Bool.or_false, Bool.not_true, Bool.false_eq_true, if_false]
  rfl

end

/-- Settles O21: an access that resolves reads or writes the bytes of its frame; the checks come in the order of their subcodes, and
past LEVEL and SCOPE the mode and the owner decide. -/
theorem accessReachesTheFrame : Obligations.AccessReachesTheFrame := by
  refine ⟨?_, ?_, ?_, ?_, ?_, ?_, ?_, ?_⟩
  · intro kind ea size pa leaf x y hk h hp
    exact load_reads hk h hp
  · intro kind ea size v pa leaf x y hk h
    exact store_writes hk h
  · intro s pa size v a ha
    exact readP_writeP_ne (by omega)
  · intro s pa size v hwf
    rw [readP_writeP_same hwf, Nat.pow_mul]
  · intro off size v x
    exact ⟨does_next (does_effect.2 rfl) (does_modTeam.2 rfl), rfl⟩
  · intro s p q r hm hK hr hf hh
    by_cases hl : lfMode q = mPtab ∧ r.lvl = 0
    · obtain ⟨hmode, hlvl⟩ := hl
      rw [mmxSub_level (by simp [hmode]) hlvl, modeTable.eq_def, if_pos ⟨hmode, hlvl⟩]
    · rw [mmxSub_eq_refusal hl hK hr hf hh, refusal_eq_modeTable hm hl]
  · intro s p q r hK hl
    exact mmxSub_level (by simp [hK]) hl
  · intro s p q r hl hr
    exact mmxSub_region hl hr

end Sys2Proof.Machine
end

section
/-! Atomics (R159 to R162, R171): the address and the operands are captured, one step is taken in the frame of the page, and the old value
lands. -/

namespace Sys2Proof.Machine

/-! ### Parts that keep the lane -/

@[simp] theorem keeps_capAtomic {d a c : Opnd} {dbl cas : Bool} : Keeps (L.capAtomic d a c dbl cas) :=
  keeps_bind keeps_checkPage fun _ => keeps_bind keeps_rdPair fun _ => keeps_bind keeps_rdRun fun _ =>
    keeps_test (keeps_bind keeps_rdRun fun _ => keeps_pure) (keeps_bind keeps_pure fun _ => keeps_pure)

@[simp] theorem keeps_capAmof {d a c : Opnd} {dbl : Bool} : Keeps (L.capAmof d a c dbl) :=
  keeps_bind keeps_checkPage fun _ => keeps_bind keeps_tagIn fun _ => keeps_bind keeps_rdPair fun _ => keeps_bind keeps_rdD fun _ =>
    keeps_pure

/-- A check made under a condition, and what follows it. -/
theorem keeps_when {α : Type} {c : Prop} [Decidable c] {p : L Unit} {f : Unit → L α} (hp : Keeps p) (hf : ∀ u, Keeps (f u)) :
    Keeps (if c then p >>= f else f ()) := keeps_test (keeps_bind hp hf) (hf ())

/-- One of two parts goes before the rest, under a condition. -/
theorem keeps_before {α : Type} {c d : Prop} [Decidable c] [Decidable d] {p q : L Unit} {f : Unit → L α} (hp : Keeps p) (hq : Keeps q)
    (hf : ∀ u, Keeps (f u)) : Keeps (if c then if d then p >>= f else q >>= f else f ()) :=
  keeps_test (keeps_test (keeps_bind hp hf) (keeps_bind hq hf)) (hf ())

theorem does_before {α : Type} {c d : Prop} [Decidable c] [Decidable d] {p q : L Unit} {f : Unit → L α} {x y z : LS} {v : α}
    (h : Does (if c then if d then p else q else pure ()) x () y) (hf : Does (f ()) y v z) :
    Does (if c then if d then p >>= f else q >>= f else f ()) x v z := by
  by_cases hc : c
  · rw [if_pos hc] at h ⊢
    exact does_test h hf
  · rw [if_neg hc] at h ⊢
    obtain ⟨-, rfl⟩ := does_pure.1 h
    exact hf

@[simp] theorem keeps_atomic {size : Nat} {fp cas : Bool} {o : AOpt} {c : Cap} : Keeps (L.atomic size fp cas o c) := by
  unfold L.atomic
  refine keeps_when keeps_pageTrap fun _ => ?_
  refine keeps_when keeps_pageTrap fun _ => ?_
  refine keeps_bind keeps_locate fun _ => keeps_bind keeps_get fun _ => keeps_bind keeps_part fun _ => keeps_bind keeps_asked fun _ => ?_
  refine keeps_before keeps_release keeps_awaitWrites fun _ => ?_
  refine keeps_bind keeps_effect fun _ => keeps_bind keeps_locateAtomic fun place => ?_
  obtain ⟨here | _, _⟩ := place
  · exact keeps_bind keeps_remoteCallP fun _ => keeps_pure
  · refine keeps_bind keeps_get fun _ => ?_
    dsimp only
    refine keeps_when keeps_chki fun _ => ?_
    exact keeps_bind keeps_modSt fun _ => keeps_pure

@[simp] theorem keeps_perfAtomic {fp cas : Bool} {o : AOpt} {c : Cap} : Keeps (perfAtomic fp cas o c) :=
  keeps_bind keeps_atomic fun _ => keeps_pure

/-! ### What an atomic captures -/

theorem capAtomic_captures {d a c : Opnd} {dbl cas : Bool} {av v w : Nat} {x y y' : LS}
    (h : Does (do
      L.checkPage a (regRun c (if dbl then 2 else 1) ++ regRun d (if dbl then 2 else 1))
      return (← L.rdPair a, ← L.rdRun (regRun c (if dbl then 2 else 1)))) x (av, v) y)
    (hd : Does (if cas then L.rdRun (regRun d (if dbl then 2 else 1)) else pure 0) y w y') :
    Does (L.capAtomic d a c dbl cas) x
      { Cap.zero with av := BitVec.ofNat 128 av, bv := BitVec.ofNat 128 v, dv := BitVec.ofNat 128 w } y' := by
  obtain ⟨_, _, hpage, h⟩ := does_bind.1 h
  obtain ⟨_, ha, hb⟩ := does_pair h
  exact does_step hpage (does_step ha (does_step hb (does_test hd (does_pure.2 ⟨rfl, rfl⟩))))

theorem capAmof_captures {d a c : Opnd} {dbl : Bool} {av : Nat} {x1 : DWord × BitVec 4} {x y : LS}
    (h : Does (do
      L.checkPage a [c, d]
      L.tagIn [if dbl then 1 else 2] c
      return (← L.rdPair a, ← L.rdD c)) x (av, x1) y) :
    Does (L.capAmof d a c dbl) x
      { Cap.zero with av := BitVec.ofNat 128 av, bv := BitVec.ofNat 128 (x1.1.toNat % 2 ^ (if dbl then 64 else 32)) } y := by
  obtain ⟨_, _, hpage, h⟩ := does_bind.1 h
  obtain ⟨_, _, htag, h⟩ := does_bind.1 h
  obtain ⟨_, ha, hb⟩ := does_pair h
  have hw : 8 * atomSize dbl = if dbl then 64 else 32 := by cases dbl <;> rfl
  rw [← hw]
  exact does_step hpage (does_step htag (does_step ha (does_step hb (does_pure.2 ⟨rfl, rfl⟩))))

/-! ### One atomic step (R159 to R162) -/

/-- The step releases first where its order asks for it, and writes the new value unless it is a failing CAS. -/
theorem atomic_steps {size : Nat} {fp cas : Bool} {o : AOpt} {c : Cap} {pa pa0 : Nat} {leaf leaf' : QWord} {p : Partition} {x y y' z : LS}
    (hlim : c.av.toNat < 2 ^ 52) (halign : c.av.toNat % size = 0) (hloc : Does (L.locate .amo c.av.toNat size) x (some pa0, leaf) y)
    (hp : Does L.part y p y) (hasked : Does (L.asked c.av.toNat) y none y)
    (hrel : Does (if 2 ≤ o.ord.toNat then L.release (lfScope leaf) else pure ()) y () y')
    (hat : Does (L.locateAtomic .amo c.av.toNat size)
      { y' with effs := y'.effs ++ [⟨false, c.av.toNat, c.bv.toNat + c.dv.toNat * 2 ^ 64⟩] } (some pa, leaf') z)
    (hgood : z.st.poisoned pa size = false) :
    Does (L.atomic size fp cas o c) x (z.st.readP pa size)
      { z with st := z.st.atomicStep pa size fp cas o.aop.toNat c.bv.toNat c.dv.toNat } := by
  refine does_else (Nat.not_le.2 hlim) (does_else (not_not_intro halign) (does_step hloc (does_step (does_get.2 ⟨rfl, rfl⟩)
    (does_step hp (does_step hasked (does_before (y := y') ?_ (does_next (does_effect.2 rfl) (does_step hat
      (does_step (does_get.2 ⟨rfl, rfl⟩) (does_else (by simp [hgood]) (does_next (does_modSt.2 rfl) (does_pure.2 ⟨rfl, rfl⟩))))))))))))
  simpa using hrel

/-! ### The operations (R159 to R161) -/

section
variable {size : Nat} (x y : BitVec (8 * size))

theorem signed_toNat (hs : 0 < size) : signed (8 * size) x.toNat = x.toInt := by
  have h := sextN_eq_toInt (show 0 < 8 * size by omega) x.toNat
  rwa [BitVec.ofNat_toNat, BitVec.setWidth_eq] at h

theorem toNat_one_size (hs : 0 < size) : (1 : BitVec (8 * size)).toNat = 1 :=
  Nat.mod_eq_of_lt (Nat.one_lt_two_pow (by omega))

/-- One of two values by the signed order of two others. -/
theorem toNat_signed (hs : 0 < size) (u v : BitVec (8 * size)) :
    (if signed (8 * size) x.toNat ≤ signed (8 * size) y.toNat then u.toNat else v.toNat) = (if x.sle y then u else v).toNat := by
  simp only [signed_toNat _ hs, BitVec.sle, decide_eq_true_eq, apply_ite BitVec.toNat]

/-- INC counts up while it stands below B. -/
theorem toNat_inc (hs : 0 < size) :
    (if y.toNat ≤ x.toNat then 0 else x.toNat + 1) = (if y ≤ x then 0 else x + 1 : BitVec (8 * size)).toNat := by
  by_cases h : y ≤ x
  · rw [if_pos h, if_pos (BitVec.le_def.1 h)]
    rfl
  · have hlt : x.toNat < y.toNat := Nat.not_le.1 (mt BitVec.le_def.2 h)
    rw [if_neg h, if_neg (Nat.not_le.2 hlt), BitVec.toNat_add, toNat_one_size hs, Nat.mod_eq_of_lt (by omega)]

/-- DEC counts down to 0, and from 0 or above B to B. -/
theorem toNat_dec (hs : 0 < size) :
    (if x.toNat = 0 ∨ y.toNat < x.toNat then y.toNat else x.toNat - 1) = (if x = 0 ∨ y < x then y else x - 1).toNat := by
  have hz : x = 0 ↔ x.toNat = 0 := BitVec.toNat_eq
  by_cases h : x = 0 ∨ y < x
  · rw [if_pos h, if_pos (by rwa [← hz, ← BitVec.lt_def])]
  · have hpos : ¬ (x.toNat = 0 ∨ y.toNat < x.toNat) := by rwa [← hz, ← BitVec.lt_def]
    have h1 := toNat_one_size hs
    rw [if_neg h, if_neg hpos, BitVec.toNat_sub_of_le (BitVec.le_def.2 (by omega)), h1]

/-- AMO's operations are those of the table, at every size (R159). -/
theorem amoNew_eq_table (hs : 0 < size) : ∀ p ∈ amoTable (8 * size), amoNew p.1.toNat size x.toNat y.toNat = (p.2 x y).toNat := by
  intro p hp
  simp only [amoTable, List.mem_cons, List.not_mem_nil, or_false] at hp
  obtain rfl | rfl | rfl | rfl | rfl | rfl | rfl | rfl | rfl | rfl | rfl := hp
  · exact (BitVec.toNat_add x y).symm
  · exact (BitVec.toNat_and x y).symm
  · exact (BitVec.toNat_or x y).symm
  · exact (BitVec.toNat_xor x y).symm
  · exact toNat_signed x y hs x y
  · exact toNat_signed y x hs x y
  · rw [apply_ite BitVec.toNat]
    exact Nat.min_def
  · rw [apply_ite BitVec.toNat]
    exact Nat.max_def
  · rfl
  · exact toNat_inc x y hs
  · exact toNat_dec x y hs

end

/-- The sum, the minimum and the maximum of AMOF, rounded once (R161). -/
theorem amofNew_eq_table : ∀ p ∈ amofTable, ∀ (dbl : Bool) (old v : Nat), amofNew p.1 (atomSize dbl) old v =
    (roundTo (fmtOf dbl) .rne false (p.2 ((fmtOf dbl).value old) ((fmtOf dbl).value v))).code := by
  intro p hp dbl old v
  have hfmt : fmtOf (atomSize dbl == 8) = fmtOf dbl := by cases dbl <;> rfl
  simp only [amofTable, List.mem_cons, List.not_mem_nil, or_false] at hp
  obtain rfl | rfl | rfl := hp
  · simp only [amofNew, hfmt]
  · simp only [amofNew, hfmt, minNum]
  · simp only [amofNew, hfmt, maxNum]

/-! ### The words -/

/-- RED adds D into the page where that lies in this package (R171). -/
theorem red_completes {h : Hdr} {d : Opnd} {m : MemOpnd} {s : State} {b : Issue} {t : Team} {l : Nat} {v : Word} {ea pa : Nat}
    {leaf : QWord} {p : Partition} {y z : LS} (hs : Solo s b t l h.guard)
    (hr : Does (do
      L.checkReg d
      L.checkAddr m
      let v ← L.rdW d
      return (v, ← L.memAddr 2 m .w)) (b.start s t l) (v, ea) y)
    (hloc : Does (L.locate .red ea 4) { y with effs := y.effs ++ [⟨false, ea, v.toNat⟩] } (some pa, leaf) z) (hp : Does L.part z p z) :
    exec (.red h d m) s = .next (b.complete (.red h d m) s id
      { z with st := z.st.redAdd p (ea / 4096) leaf (coreOf b.agent) (ea % 4096) v 4 0 }) := by
  have hk : Keeps (do
      L.checkReg d
      L.checkAddr m
      let v ← L.rdW d
      let ea ← L.memAddr 2 m .w
      L.noteStore ea v.toNat
      L.locate .red ea 4) := keeps_bind keeps_checkReg fun _ => keeps_bind keeps_checkAddr fun _ => keeps_bind keeps_rdW fun _ =>
    keeps_bind keeps_memAddr fun _ => keeps_bind keeps_effect fun _ => keeps_locate
  obtain ⟨_, _, hreg, hr⟩ := does_bind.1 hr
  obtain ⟨_, _, hm, hr⟩ := does_bind.1 hr
  obtain ⟨_, hv, hea⟩ := does_pair hr
  obtain ⟨hlane, hunis, hagent, -⟩ := hk.of_start
    (does_step hreg (does_step hm (does_step hv (does_step hea (does_next (does_effect.2 rfl) hloc)))))
  rw [← hagent]
  exact runWord_stands (z := { z with st := z.st.redAdd p (ea / 4096) leaf (coreOf z.agent) (ea % 4096) v 4 0 }) hs
    (does_step hreg (does_step hm (does_step hv (does_step hea (does_next (does_effect.2 rfl) (does_step hloc (does_step hp
      (does_step (does_step (does_get.2 ⟨rfl, rfl⟩) (does_pure.2 ⟨rfl, rfl⟩)) (does_modSt.2 rfl))))))))) hlane hunis

/-- Settles O22: each word captures its operands and lands the old value of one step; the step writes the value of the tables. -/
theorem atomicWords : Obligations.AtomicWords := by
  refine ⟨?_, ?_, ?_, ?_, ?_, ?_, ?_, ?_, ?_⟩
  · intro h d a c o s b t l av v y z hs hr hl
    exact longWord_lands hs keeps_capAtomic keeps_perfAtomic ivDests_nodup
      (capAtomic_captures hr (does_else (by decide) (does_pure.2 ⟨rfl, rfl⟩))) hl
  · intro h d a c o s b t l av v w y z hs hr hl
    obtain ⟨_, _, hpage, hr⟩ := does_bind.1 hr
    obtain ⟨_, _, ha, hb, hd⟩ := does_triple hr
    exact longWord_lands hs keeps_capAtomic keeps_perfAtomic ivDests_nodup
      (capAtomic_captures (does_step hpage (does_step ha (does_step hb (does_pure.2 ⟨rfl, rfl⟩)))) (does_then rfl hd)) hl
  · intro h d a c o s b t l av x1 k y z hs hr hk hl
    subst hk
    exact longWord_lands hs keeps_capAmof keeps_perfAtomic (regRun_nodup (by omega)) (capAmof_captures hr) hl
  · intro size fp cas o c pa pa0 leaf leaf' p x y y' z hlim halign hloc hp hasked hrel hat hgood
    have hstep := atomic_steps (fp := fp) (cas := cas) hlim halign hloc hp hasked hrel hat hgood
    simpa only [State.atomicStep, Bool.and_eq_true, decide_eq_true_eq] using hstep
  · intro h d m s b t l v ea pa leaf p y z hs hr hloc hp
    obtain ⟨_, _, hreg, hr⟩ := does_bind.1 hr
    obtain ⟨_, _, hm, hr⟩ := does_bind.1 hr
    obtain ⟨_, _, hv, hr⟩ := does_bind.1 hr
    obtain ⟨_, _, hea, hr⟩ := address_then (wid := .w) hr
    exact red_completes hs (does_step hreg (does_step hm (does_step hv (does_step hea hr)))) hloc hp
  · intro p hp x y
    exact amoNew_eq_table (size := 4) x y (by omega) p hp
  · intro p hp x y
    exact amoNew_eq_table (size := 8) x y (by omega) p hp
  · intro size aop old v d
    rfl
  · intro p hp dbl old v d
    exact amofNew_eq_table p hp dbl old v

end Sys2Proof.Machine
end

section
/-! Ordering (R164, R165, R172, R173): a fence finds the leaf of its page and releases at its scope; PROBE and CHKERR go on where nothing
is left to await. -/

namespace Sys2Proof.Machine

/-! ### The leaf of a page -/

@[simp] theorem keeps_pageLeaf {va acc : Nat} : Keeps (L.pageLeaf va acc) := by
  refine keeps_bind keeps_get fun _ => keeps_bind keeps_part fun _ => ?_
  refine keeps_when keeps_block fun _ => ?_
  split
  · exact keeps_bind keeps_modSt fun _ => keeps_pure
  · exact keeps_block
  · exact keeps_walkFault

@[simp] theorem keeps_fenceLeaf {va : Nat} : Keeps (L.fenceLeaf va) := by
  refine keeps_bind keeps_get fun _ => keeps_bind keeps_part fun _ => ?_
  dsimp only
  split
  · exact keeps_pure
  · refine keeps_bind keeps_pageLeaf fun _ => keeps_bind keeps_get fun _ => ?_
    split
    · exact keeps_bind keeps_setSt fun _ => keeps_pure
    · exact keeps_bind keeps_setSt fun _ => keeps_pure
    · exact keeps_bind keeps_walkFault fun _ => keeps_pure
    · exact keeps_bind keeps_blockWith fun _ => keeps_pure
    · exact keeps_pure

theorem keeps_fenceReads {a : Opnd} : Keeps (do L.checkPage a []; let va ← L.pageAddr 4 a; return (va, ← L.fenceLeaf va)) :=
  keeps_bind keeps_checkPage fun _ => keeps_bind keeps_pageAddr fun _ => keeps_bind keeps_fenceLeaf fun _ => keeps_pure

/-- A page's address and what is found of the page. -/
theorem page_then {α : Type} {acc : Nat} {a : Opnd} {l : List Opnd} {p : Nat → L α} {x y : LS} {va : Nat} {v : α}
    (h : Does (do L.checkPage a l; let va ← L.pageAddr acc a; return (va, ← p va)) x (va, v) y) :
    ∃ x1 x2, Does (L.checkPage a l) x () x1 ∧ Does (L.pageAddr acc a) x1 va x2 ∧ Does (p va) x2 v y := by
  obtain ⟨_, x1, hpage, h⟩ := does_bind.1 h
  obtain ⟨_, x2, hva, h⟩ := does_bind.1 h
  obtain ⟨_, x3, hv, h⟩ := does_bind.1 h
  obtain ⟨he, rfl⟩ := does_pure.1 h
  obtain ⟨rfl, rfl⟩ := Prod.mk.inj he
  exact ⟨x1, x2, hpage, hva, hv⟩

/-! ### PROBE (R172) -/

/-- Nothing on the path of the team, and nothing that its jobs have still to send, keeps PROBE waiting. -/
theorem probeWaits_none {s : State} {t : Team} {v : Word} (h : v.extractLsb' 0 12 = s.pkg ∨
      (∀ x ∈ t.onPath, x.2.2 ≠ 0 → v.extractLsb' 0 12 ≠ 0xFFF ∧ x.1 ≠ v.extractLsb' 0 12) ∧
      ∀ j ∈ s.jobs, s.toSend t (v.extractLsb' 0 12).toNat j = false) : s.probeWaits t (bits v.toNat 0 12) = false := by
  have hk : bits v.toNat 0 12 = (v.extractLsb' 0 12).toNat := by simp [bits]
  rw [hk]
  obtain hself | ⟨hpath, hjobs⟩ := h
  · simp [State.probeWaits, hself]
  · have hclear : ∀ x ∈ t.onPath, x.2.2 ≠ 0 → ¬ ((v.extractLsb' 0 12).toNat = 0xFFF ∨ x.1.toNat = (v.extractLsb' 0 12).toNat) := by
      intro x hx hleft
      obtain ⟨hall, hne⟩ := hpath x hx hleft
      rw [not_or]
      exact ⟨fun h => hall (BitVec.eq_of_toNat_eq h), fun h => hne (BitVec.eq_of_toNat_eq h)⟩
    simp only [State.probeWaits, Bool.and_eq_false_iff, Bool.or_eq_false_iff, List.any_eq_false]
    exact .inr ⟨fun x hx => by simpa using hclear x hx, fun j hj => by rw [hjobs j hj]; exact Bool.false_ne_true⟩

/-- Settles O23: a fence checks its page, and a release follows but for an acquire; the other words go on where nothing is awaited. -/
theorem orderingWords : Obligations.OrderingWords := by
  refine ⟨?_, ?_, ?_, ?_⟩
  · intro h a kind s b t l va q f y z hs hr hacq hrel
    obtain ⟨_, _, hpage, hva, hleaf⟩ := page_then hr
    by_cases hkind : kind = 1
    · obtain rfl := hacq hkind
      exact runWord_acts hs hr keeps_fenceReads (does_pure.2 ⟨rfl, rfl⟩) (keeps_pure (v := ()))
        (does_step hpage (does_step hva (does_step hleaf (does_else (not_not_intro hkind) (does_pure.2 ⟨rfl, rfl⟩)))))
    · obtain ⟨hf, hnone, hrelease⟩ := hrel hkind
      obtain ⟨hlane, -, hagent, hwave, -⟩ := keeps_fenceReads.of_start hr
      have hfib : Does L.fibre y f y := does_fibre.2 ⟨by rw [hagent, hwave, hlane]; exact hf, rfl⟩
      exact runWord_acts hs hr keeps_fenceReads hrelease keeps_release
        (does_step hpage (does_step hva (does_step hleaf (does_then hkind (does_step hfib (does_else (by simp [hnone]) hrelease))))))
  · intro h a s b t l va addr q y hs hr hlvl hregion hmode
    obtain ⟨_, _, hpage, hva, hleaf⟩ := page_then hr
    have hk : Keeps (do L.checkPage a []; let va ← L.pageAddr 4 a; return (va, ← L.pageLeaf va 4)) :=
      keeps_bind keeps_checkPage fun _ => keeps_bind keeps_pageAddr fun _ => keeps_bind keeps_pageLeaf fun _ => keeps_pure
    obtain ⟨-, -, hagent, -⟩ := hk.of_start hr
    rw [← hagent] at hregion
    exact runWord_acts hs hr hk (does_pure.2 ⟨rfl, rfl⟩) (keeps_pure (v := ()))
      (does_step hpage (does_step hva (does_step hleaf (does_step (does_get.2 ⟨rfl, rfl⟩) (does_else hlvl
        (does_else (by simp [hregion]) (does_else (not_not_intro hmode) (does_pure.2 ⟨rfl, rfl⟩))))))))
  · intro h a s b t l v t' y hs hr hfree
    obtain ⟨_, _, hreg, hreads⟩ := does_bind.1 hr
    obtain ⟨_, hv, ht⟩ := does_pair hreads
    exact runWord_acts hs hr (keeps_bind keeps_checkReg fun _ => keeps_pair keeps_rdW keeps_team) (does_pure.2 ⟨rfl, rfl⟩)
      (keeps_pure (v := ()))
      (does_step hreg (does_step hv (does_step ht (does_step (does_get.2 ⟨rfl, rfl⟩)
        (does_else (by simp [probeWaits_none hfree]) (does_pure.2 ⟨rfl, rfl⟩))))))
  · intro h d s b t l y z hs hpend hr hw
    obtain rfl := checkReg_stands hr
    have ht := team_start hs
    have hgo : ¬ (t.wave (b.start s t l).wave).pendingLane (b.start s t l).lane = true := Bool.not_eq_true _ ▸ hpend
    exact runWord_writes hs hw (does_step hr (does_step (does_wave_of_team ht) (does_step (does_get.2 ⟨rfl, rfl⟩)
      (does_else hgo (does_step ht hw))))) rfl rfl

end Sys2Proof.Machine
end

section
/-! Modes and owners of pages (R158, R166 to R170): every page is checked before any changes; UNSEAL and PUB may leave the lane blocked with
what it has asked for. -/

namespace Sys2Proof.Machine

/-! ### A word whose one lane blocks (R78, R103) -/

theorem runLane_block {body : Bool → L Unit} {o : Bool} {late : List Nat} {x : LS} {r : Run} {lane : Nat} {why : Wait} {u v : State}
    {e : List Eff} (h : runPair body (r.turn x lane) = .error (.block why u v e)) :
    runLane body o late x r lane = { r with st := u, base := v, held := r.held ++ [lane], why := some (r.why.getD why) } := by
  simp only [Run.turn] at h
  simp only [runLane, h]

/-- A run in which no lane is done retires nothing. -/
theorem retire_none {s : State} {i : Instr} {b : Issue} {n : Nat} {r : Run} (hd : r.dones = []) (hu : r.unis = []) (hr : r.recs = []) :
    s.retire i b n r = s.retire i b n (Run.start s [] []) := by
  cases r
  subst hd hu hr
  rfl

/-- A word whose one lane blocks stands at its place, with what the lane has asked for (R78). -/
theorem runWord_solo_blocks {i : Instr} {g : Option Guard} {body : Bool → L Unit} {s u : State} {b : Issue} {t : Team} {l : Nat} {why : Wait}
    {e : List Eff} (h : Solo s b t l g) (hb : body false (b.start s t l) = .error (.block why u u e)) :
    runWord i g .each (fun _ => id) body s = .next (b.blocked i s l why { b.start s t l with st := u }) := by
  rw [runWord_one h, runLane_block (runPair_turn_stops h hb)]
  simp [finishWord, Run.start, uniFault, Run.allTraps, Run.waits, Run.kept, h.todo, Issue.blocked, retire_none]

/-- A part that succeeds, and then what follows it stops. -/
theorem stops_step {α β : Type} {p : L α} {f : α → L β} {x y : LS} {u : α} {e : Stop} (h : Does p x u y) (hf : f u y = .error e) :
    (p >>= f) x = .error e := (bind_of_does h).trans hf

theorem stops_then {α : Type} {c : Prop} [Decidable c] {p q : L α} {x : LS} {e : Stop} (hc : c) (h : p x = .error e) :
    (if c then p else q) x = .error e := by rwa [if_pos hc]
theorem stops_else {α : Type} {c : Prop} [Decidable c] {p q : L α} {x : LS} {e : Stop} (hc : ¬ c) (h : q x = .error e) :
    (if c then p else q) x = .error e := by rwa [if_neg hc]

/-! ### Parts that keep the lane -/

theorem keeps_mapM {α β : Type} {f : α → L β} (h : ∀ x, Keeps (f x)) (l : List α) : Keeps (l.mapM f) := by
  induction l with
  | nil =>
    rw [List.mapM_nil]
    exact keeps_pure
  | cons x l ih =>
    rw [List.mapM_cons]
    exact keeps_bind (h x) fun _ => keeps_bind ih fun _ => keeps_pure

@[simp] theorem keeps_modePage {va : Nat} {modes : QWord → List Nat} {own : QWord → Bool} {fp : Bool} {target : Option AgentId} :
    Keeps (L.modePage va modes own fp target) := by
  refine keeps_bind keeps_pageLeaf fun _ => keeps_bind keeps_get fun _ => ?_
  split
  · exact keeps_trap
  · exact keeps_pure

@[simp] theorem keeps_modePages {modes : QWord → List Nat} {own : QWord → Bool} {fp : Bool} {pages : List Nat} :
    Keeps (L.modePages modes own fp pages) := by
  refine keeps_bind (keeps_mapM (fun _ => keeps_pageLeaf) pages) fun _ => keeps_bind keeps_get fun _ => ?_
  dsimp only
  split
  · exact keeps_pure
  · exact keeps_trap

@[simp] theorem keeps_pageCount {e : Opnd} : Keeps (L.pageCount e) := keeps_bind keeps_rdW fun _ => keeps_pure

theorem keeps_acceptRun {f : Nat → L Bool} (h : ∀ va, Keeps (f va)) (l : List Nat) : Keeps (L.acceptRun f l) := by
  induction l with
  | nil => exact keeps_pure
  | cons va l ih => exact keeps_bind (h va) fun _ => keeps_bind ih fun _ => keeps_pure

@[simp] theorem keeps_placePage {lvl va : Nat} : Keeps (L.placePage lvl va) := by
  refine keeps_bind keeps_pageLeaf fun _ => keeps_bind keeps_get fun _ => keeps_bind keeps_part fun _ => ?_
  refine keeps_test keeps_pure (keeps_test (keeps_test keeps_pure ?_) ?_)
  · split
    · exact keeps_pure
    · exact keeps_bind keeps_modSt fun _ => keeps_pure
  · split
    · exact keeps_bind keeps_setSt fun _ => keeps_pure
    · exact keeps_pure

@[simp] theorem keeps_evictPage {va : Nat} : Keeps (L.evictPage va) := by
  refine keeps_bind keeps_pageLeaf fun _ => keeps_bind keeps_get fun _ => keeps_bind keeps_part fun _ => ?_
  refine keeps_test keeps_pure (keeps_test (keeps_test keeps_pure ?_) ?_)
  · split
    · exact keeps_pure
    · exact keeps_bind keeps_modSt fun _ => keeps_pure
  · exact keeps_test (keeps_bind keeps_setSt fun _ => keeps_pure) keeps_pure

/-! ### The pages of a word -/

/-- The page count and the first address of a word of pages, its operands checked. -/
def L.pagesOf (a e : Opnd) (l : List Opnd) : L (Nat × Nat) := do
  L.checkPage a l
  let n ← L.pageCount e
  return (n, ← L.pageAddr 8 a)

theorem keeps_pagesOf {a e : Opnd} {l : List Opnd} : Keeps (L.pagesOf a e l) :=
  keeps_bind keeps_checkPage fun _ => keeps_pair keeps_pageCount keeps_pageAddr

theorem pagesOf_then {a e : Opnd} {l : List Opnd} {n va : Nat} {x y : LS} (h : Does (L.pagesOf a e l) x (n, va) y) :
    ∃ x1 x2, Does (L.checkPage a l) x () x1 ∧ Does (L.pageCount e) x1 n x2 ∧ Does (L.pageAddr 8 a) x2 va y := by
  obtain ⟨_, x1, hpage, h⟩ := does_bind.1 h
  obtain ⟨x2, hn, hva⟩ := does_pair h
  exact ⟨x1, x2, hpage, hn, hva⟩

/-! ### SEAL (R166) -/

/-- What each element's part does, another part does in its stead, wherever the lane is of one team. -/
theorem does_forM_of_agent {α : Type} {f g : α → L Unit} {a : AgentId} (hk : ∀ v, Keeps (f v))
    (hfg : ∀ v x y, x.agent = a → Does (f v) x () y → Does (g v) x () y) {l : List α} {x y : LS} (hx : x.agent = a)
    (h : Does (l.forM f) x () y) : Does (l.forM g) x () y := by
  induction l generalizing x with
  | nil => exact h
  | cons v l ih =>
    obtain ⟨_, x', hv, hl⟩ := does_bind.1 h
    have hx' : x'.agent = a := by rw [hk v _ _ _ hv]; exact hx
    exact does_step (hfg v x x' hx hv) (ih hx' hl)

/-- The sealing of one page by a core. -/
def L.sealBy (c : BitVec 11) (code : Bool) (va : Nat) : L Unit := do
  let (q, _) ← L.pageLeaf va 8
  L.release (lfScope q)
  let p ← L.part
  L.modSt (·.sealPage p c (va / 4096) code)

theorem keeps_sealBy {c : BitVec 11} {code : Bool} {va : Nat} : Keeps (L.sealBy c code va) :=
  keeps_bind keeps_pageLeaf fun _ => keeps_bind keeps_release fun _ => keeps_bind keeps_part fun _ => keeps_modSt

theorem seal_completes {h : Hdr} {a e : Opnd} {code : Bool} {s : State} {b : Issue} {t : Team} {l n va : Nat} {y z : LS}
    (hs : Solo s b t l h.guard) (hcode : code = true → t.levelAt b.wave l ≠ 0)
    (hr : Does (L.pagesOf a e [e]) (b.start s t l) (n, va) y)
    (hseal : Does (do
      L.modePages (fun _ => [mOwned]) (fun _ => true) true (pageRun va n)
      (pageRun va n).forM (L.sealBy (coreOf b.agent) code)) y () z) :
    exec (.seal h a e code) s = .next (b.complete (.seal h a e code) s id z) := by
  obtain ⟨x1, _, hpage, hn, hva⟩ := pagesOf_then hr
  obtain ⟨_, _, _, _, hlvl⟩ := keeps_checkPage.of_start hpage
  obtain ⟨_, y', hmodes, hrun⟩ := does_bind.1 hseal
  obtain ⟨_, _, hagent, _⟩ := (keeps_bind keeps_pagesOf fun _ => keeps_modePages).of_start (does_step hr hmodes)
  refine runWord_acts hs hr keeps_pagesOf hseal (keeps_bind keeps_modePages fun _ => keeps_forM (fun _ => keeps_sealBy) _) ?_
  refine does_step hpage (does_step (does_level.2 ⟨rfl, rfl⟩) (does_else (fun hc => hcode hc.1 (hlvl ▸ hc.2)) (does_step hn (does_step hva
    (does_step hmodes (does_forM_of_agent (fun _ => keeps_sealBy) (fun va x x' hx hv => ?_) hagent hrun))))))
  obtain ⟨_, _, hleaf, hv⟩ := does_bind.1 hv
  obtain ⟨_, _, hrel, hv⟩ := does_bind.1 hv
  obtain ⟨_, x3, hp, hv⟩ := does_bind.1 hv
  have hx3 : coreOf x3.agent = coreOf b.agent := by
    rw [← hx, (keeps_bind keeps_pageLeaf fun _ => keeps_bind keeps_release fun _ => keeps_part) _ _ _ (does_step hleaf (does_step hrel hp))]
  exact does_step hleaf (does_step hrel (does_step hp (does_step (does_step (does_get.2 ⟨rfl, rfl⟩) (does_pure.2 ⟨hx3.symm, rfl⟩)) hv)))

/-! ### UNSEAL (R167) -/

/-- All the Bellwethers that the lane has asked for are committed. -/
theorem unseal_completes {h : Hdr} {a e : Opnd} {s : State} {b : Issue} {t : Team} {l n va : Nat} {mine : List Move} {y : LS}
    (hs : Solo s b t l h.guard) (hr : Does (L.pagesOf a e [e]) (b.start s t l) (n, va) y)
    (hmine : mine = y.st.moves.filter (fun m => m.waiter == some (b.agent, b.wave, l))) (hne : mine ≠ [])
    (hcommit : ∀ m ∈ mine, m.st = .commit) :
    exec (.unseal h a e) s = .next (b.complete (.unseal h a e) s id { y with
      st := { y.st with moves := y.st.moves.filter (fun m => !mine.any (·.id == m.id)) } }) := by
  obtain ⟨_, _, hpage, hn, hva⟩ := pagesOf_then hr
  obtain ⟨hlane, hunis, hagent, hwave, -⟩ := keeps_pagesOf.of_start hr
  have hunseals : Does L.unseals y mine y := does_step (does_get.2 ⟨rfl, rfl⟩) (does_pure.2 ⟨by rw [hmine, hagent, hwave, hlane], rfl⟩)
  exact runWord_stands (z := { y with st := { y.st with moves := y.st.moves.filter (fun m => !mine.any (·.id == m.id)) } }) hs
    (does_step hpage (does_step hn (does_step hva (does_step hunseals (does_else (by simpa using hne)
      (does_then (by simpa using hcommit) (does_modSt.2 rfl))))))) hlane hunis

/-- The lane asks for one Bellwether per page, and waits for them. -/
theorem unseal_blocks {h : Hdr} {a e : Opnd} {s : State} {b : Issue} {t : Team} {l n va : Nat} {p : Partition} {y y' : LS}
    (hs : Solo s b t l h.guard) (hr : Does (L.pagesOf a e [e]) (b.start s t l) (n, va) y)
    (hnone : ∀ m ∈ y.st.moves, m.waiter ≠ some (b.agent, b.wave, l))
    (hp : Does (do
      L.modePages (fun _ => [mSealed, mCode]) (fun _ => decide (t.levelAt b.wave l = 0)) true (pageRun va n)
      L.part) y p y') :
    exec (.unseal h a e) s = .next (b.blocked (.unseal h a e) s l .unseal { b.start s t l with
      st := (pageRun va n).foldl (fun c va => c.requestMove p.id (va / 4096) false (coreOf b.agent) none (some b.agent) none
        (some (b.agent, b.wave, l))) s }) := by
  obtain ⟨_, _, hpage, hn, hva⟩ := pagesOf_then hr
  obtain ⟨st, effs, rfl⟩ := keeps_pagesOf.shape hr
  obtain ⟨_, x', hmodes, hp⟩ := does_bind.1 hp
  obtain ⟨st', effs', rfl⟩ := keeps_modePages.shape hmodes
  obtain ⟨-, rfl⟩ := does_part.1 hp
  have hunseals : Does L.unseals { b.start s t l with st := st, effs := effs } [] { b.start s t l with st := st, effs := effs } :=
    does_step (does_get.2 ⟨rfl, rfl⟩) (does_pure.2 ⟨(List.filter_eq_nil_iff.2 fun m hm => mt beq_iff_eq.1 (hnone m hm)).symm, rfl⟩)
  exact runWord_solo_blocks (e := effs') hs (stops_step hpage (stops_step hn (stops_step hva (stops_step hunseals (stops_then rfl
    (stops_step (does_get.2 ⟨rfl, rfl⟩) (stops_step hmodes (stops_step hp rfl))))))))

/-! ### HAND (R168) -/

/-- The page of HAND goes home first, where only the issuing core reaches its frame. -/
def State.handHome (s : State) (p : Partition) (vpn : Nat) (q : QWord) (addr : Nat) (away : Bool) : State :=
  if away then match s.homeFrame p vpn with
    | some f => (s.copyPage (lfFrame q * 4096) (f * 4096)).commitFrame p.id vpn q addr 0 f
    | none => s
  else s

/-- HAND's new owner and its page, checked and released (R168). -/
def L.handReads (a e : Opnd) : L (Word × Nat × QWord × Partition) := do
  L.checkPage a [e]
  let v ← L.rdW e
  let va ← L.pageAddr 8 a
  let q ← L.modePage va (fun _ => [mOwned]) (fun _ => true) true (some (v.extractLsb' 0 16))
  L.release (lfScope q)
  return (v, va, q, ← L.part)

theorem keeps_handReads {a e : Opnd} : Keeps (L.handReads a e) :=
  keeps_bind keeps_checkPage fun _ => keeps_bind keeps_rdW fun _ => keeps_bind keeps_pageAddr fun _ => keeps_bind keeps_modePage fun _ =>
    keeps_bind keeps_release fun _ => keeps_bind keeps_part fun _ => keeps_pure

theorem hand_completes {h : Hdr} {a e : Opnd} {s s1 : State} {b : Issue} {t : Team} {l : Nat} {v : Word} {va addr : Nat} {q0 q q1 : QWord}
    {p : Partition} {away : Bool} {y : LS} (hs : Solo s b t l h.guard)
    (hr : Does (L.handReads a e) (b.start s t l) (v, va, q0, p) y)
    (hleaf : leafAt y.st p (va / 4096) = some (q, addr))
    (haway : (decide (coreOf (v.extractLsb' 0 16) ≠ coreOf b.agent) && lfPkg q0 == 0xFFF &&
      y.st.frameAt (lfFrame q0) 3 (coreOf b.agent)) = away)
    (hhome : y.st.handHome p (va / 4096) q addr away = s1) (hq1 : ((leafAt s1 p (va / 4096)).map (·.1)).getD q = q1) :
    exec (.hand h a e) s = .next (b.complete (.hand h a e) s id { y with
      st := (s1.writeLeaf addr (lfSet (lfBump q1) 16 16 (v.toNat % 2 ^ 16))).dropEntry (coreOf b.agent) p.id (va / 4096) }) := by
  obtain ⟨hlane, hunis, hagent, -⟩ := keeps_handReads.of_start hr
  obtain ⟨_, _, hpage, hr⟩ := does_bind.1 hr
  obtain ⟨_, _, hv, hr⟩ := does_bind.1 hr
  obtain ⟨_, _, hva, hr⟩ := does_bind.1 hr
  obtain ⟨_, _, hmode, hr⟩ := does_bind.1 hr
  obtain ⟨_, _, hrel, hr⟩ := does_bind.1 hr
  obtain ⟨_, _, hp, hr⟩ := does_bind.1 hr
  obtain ⟨he, rfl⟩ := does_pure.1 hr
  simp only [Prod.mk.injEq] at he
  obtain ⟨rfl, rfl, rfl, rfl⟩ := he
  obtain ⟨-, rfl⟩ := does_part.1 hp
  refine runWord_stands (z := { y with st := _ }) hs (does_step hpage (does_step hv (does_step hva (does_step hmode (does_step hrel
    (does_step (does_get.2 ⟨rfl, rfl⟩) (does_step hp ?_))))))) hlane hunis
  have hlow : (v.extractLsb' 0 16).toNat = v.toNat % 2 ^ 16 := by simp
  subst haway hhome hq1
  dsimp only
  rw [hleaf, ← hagent, ← hlow]
  exact does_setSt.2 rfl

/-! ### TAKE and PUB (R169, R170) -/

/-- Whether PUB has pushed its first part (R305). -/
theorem pub_begun {w : Wave} {pc : Addr} {l : Nat} : (w.stuck.any fun k => k.pc == pc && k.why == .lanes && k.todo.contains l) = true ↔
    ∃ k ∈ w.stuck, k.pc = pc ∧ k.why = .lanes ∧ l ∈ k.todo := by
  simp [and_assoc]

/-- PUB's page, checked and released (R170). -/
def L.pubReads (a : Opnd) : L (Nat × QWord × Partition) := do
  L.checkPage a []
  let va ← L.pageAddr 8 a
  let q ← L.modePage va (fun _ => [mHalo]) (fun _ => true) false none
  L.release (lfScope q)
  return (va, q, ← L.part)

theorem keeps_pubReads {a : Opnd} : Keeps (L.pubReads a) :=
  keeps_bind keeps_checkPage fun _ => keeps_bind keeps_pageAddr fun _ => keeps_bind keeps_modePage fun _ =>
    keeps_bind keeps_release fun _ => keeps_bind keeps_part fun _ => keeps_pure

section
variable {h : Hdr} {a : Opnd} {s : State} {b : Issue} {t : Team} {l va : Nat} {q : QWord} {p : Partition} {y : LS}

theorem pub_then (hr : Does (L.pubReads a) (b.start s t l) (va, q, p) y) :
    ∃ x1 x2 x3, Does (L.checkPage a []) (b.start s t l) () x1 ∧ Does (L.pageAddr 8 a) x1 va x2 ∧
      Does (L.modePage va (fun _ => [mHalo]) (fun _ => true) false none) x2 q x3 ∧ Does (L.release (lfScope q)) x3 () y ∧ Does L.part y p y := by
  obtain ⟨_, x1, hpage, hr⟩ := does_bind.1 hr
  obtain ⟨_, x2, hva, hr⟩ := does_bind.1 hr
  obtain ⟨_, x3, hmode, hr⟩ := does_bind.1 hr
  obtain ⟨_, _, hrel, hr⟩ := does_bind.1 hr
  obtain ⟨_, _, hp, hr⟩ := does_bind.1 hr
  obtain ⟨he, rfl⟩ := does_pure.1 hr
  simp only [Prod.mk.injEq] at he
  obtain ⟨rfl, rfl, rfl⟩ := he
  obtain ⟨-, rfl⟩ := does_part.1 hp
  exact ⟨x1, x2, x3, hpage, hva, hmode, hrel, hp⟩

/-- No neighbour has a replica, or the first part is done: what is left is pushed. -/
theorem pub_completes (hs : Solo s b t l h.guard) (hr : Does (L.pubReads a) (b.start s t l) (va, q, p) y)
    (hlast : (y.st.stripFrames p (va / 4096) q).2 = [] ∨ ∃ w, y.st.wave? b.agent b.wave = some w ∧
      ∃ k ∈ w.stuck, k.pc = b.pc ∧ k.why = .lanes ∧ l ∈ k.todo) :
    exec (.pub h a) s = .next (b.complete (.pub h a) s id { y with st := y.st.pushStrips p (va / 4096) q (fun _ => true) }) := by
  obtain ⟨hlane, hunis, hagent, hwave, -⟩ := keeps_pubReads.of_start hr
  have hpc := keeps_pubReads.pc_of_start hr
  obtain ⟨_, _, _, hpage, hva, hmode, hrel, hp⟩ := pub_then hr
  obtain ⟨⟨t', ht, -⟩, -⟩ := does_part.1 hp
  refine runWord_stands (z := { y with st := _ }) hs (does_step hpage (does_step hva (does_step hmode (does_step hrel
    (does_step (does_get.2 ⟨rfl, rfl⟩) (does_step hp (does_step (does_wave_of_team (does_team.2 ⟨ht, rfl⟩)) (does_then ?_
    (does_modSt.2 rfl))))))))) hlane hunis
  rw [Bool.or_eq_true, pub_begun, hpc, hlane, hwave]
  obtain hnone | ⟨w, hw, hk⟩ := hlast
  · exact .inr (List.isEmpty_iff.2 hnone)
  · rw [State.wave?, ← hagent, ht] at hw
    obtain rfl : t'.wave b.wave = w := Option.some.inj hw
    exact .inl hk

/-- A neighbour has a replica: a first part is pushed, and the lane stands for the rest. -/
theorem pub_blocks {w : Wave} (hs : Solo s b t l h.guard) (hr : Does (L.pubReads a) (b.start s t l) (va, q, p) y)
    (hsome : (y.st.stripFrames p (va / 4096) q).2 ≠ []) (hw : y.st.wave? b.agent b.wave = some w) (hfirst : ∀ k ∈ w.stuck, k.pc ≠ b.pc) :
    exec (.pub h a) s = .next (b.blocked (.pub h a) s l .lanes { b.start s t l with
      st := (s.release p.id (coreOf b.agent) (lfScope q)).pushStrips p (va / 4096) q (Config.partsNow s.tick) }) := by
  obtain ⟨st, effs, rfl⟩ := keeps_pubReads.shape hr
  obtain ⟨_, _, _, hpage, hva, hmode, hrel, hp⟩ := pub_then hr
  obtain ⟨⟨t', ht, -⟩, -⟩ := does_part.1 hp
  have hwt : t'.wave b.wave = w := by
    rw [State.wave?, show st.team? b.agent = some t' from ht] at hw
    exact Option.some.inj hw
  refine runWord_solo_blocks (e := effs) hs (stops_step hpage (stops_step hva (stops_step hmode (stops_step hrel
    (stops_step (does_get.2 ⟨rfl, rfl⟩) (stops_step hp (stops_step (does_wave_of_team (does_team.2 ⟨ht, rfl⟩)) (stops_else ?_ rfl))))))))
  rw [Bool.or_eq_true, pub_begun, List.isEmpty_iff, not_or]
  refine ⟨?_, hsome⟩
  rintro ⟨k, hk, hpc, -⟩
  exact hfirst k (hwt ▸ hk) hpc

theorem take_completes (hs : Solo s b t l h.guard) (hr : Does (do
      L.checkPage a []
      let va ← L.pageAddr 8 a
      return (va, ← L.modePage va (fun _ => [mOwned]) (fun _ => false) false none)) (b.start s t l) (va, q) y) (hown : lfOwner q = b.agent) :
    exec (.take h a) s = .next (b.complete (.take h a) s id y) := by
  have hk : Keeps (do
      L.checkPage a []
      let va ← L.pageAddr 8 a
      return (va, ← L.modePage va (fun _ => [mOwned]) (fun _ => false) false none)) :=
    keeps_bind keeps_checkPage fun _ => keeps_bind keeps_pageAddr fun _ => keeps_bind keeps_modePage fun _ => keeps_pure
  obtain ⟨hlane, hunis, hagent, -⟩ := hk.of_start hr
  obtain ⟨_, _, hpage, hva, hmode⟩ := page_then hr
  exact runWord_stands hs (does_step hpage (does_step hva (does_step hmode (does_step (does_get.2 ⟨rfl, rfl⟩)
    (does_else (not_not_intro (hown.trans hagent.symm)) (does_pure.2 ⟨rfl, rfl⟩)))))) hlane hunis

end

/-! ### PLACE and EVICT (R158) -/

/-- A placement checks its pages, counts those accepted, and writes the count to D. -/
theorem placement_completes {i : Instr} {h : Hdr} {d a e : Opnd} {f : Nat → L Bool} {s : State} {b : Issue} {t : Team} {l n va k : Nat}
    {y y' z : LS} (hs : Solo s b t l h.guard) (hf : ∀ va, Keeps (f va))
    (hr : Does (L.pagesOf a e [e, d]) (b.start s t l) (n, va) y)
    (hrun : Does (do
      L.modePages placeModes placeOwn false (pageRun va n)
      L.acceptRun f (pageRun va n)) y k y') (hw : Does (L.wrW d (BitVec.ofNat 32 k)) y' () z) :
    laneWord i h .each (do
      L.checkPage a [e, d]
      let n ← L.pageCount e
      let pages := pageRun (← L.pageAddr 8 a) n
      L.modePages placeModes placeOwn false pages
      L.wrW d (BitVec.ofNat 32 (← L.acceptRun f pages))) s = .next (b.complete i s id z) := by
  obtain ⟨_, _, hpage, hn, hva⟩ := pagesOf_then hr
  obtain ⟨hlane, hunis, -⟩ :=
    (keeps_bind keeps_pagesOf fun _ => keeps_bind keeps_modePages fun _ => keeps_acceptRun hf _).of_start (does_step hr hrun)
  obtain ⟨_, _, hmodes, haccept⟩ := does_bind.1 hrun
  exact runWord_writes hs hw (does_step hpage (does_step hn (does_step hva (does_step hmodes (does_step haccept hw))))) hlane hunis

/-- Settles O24: each word checks its pages before it changes any; UNSEAL and PUB have a case that blocks the lane and one that goes on. -/
theorem ownershipWords : Obligations.OwnershipWords := by
  refine ⟨?_, ?_, ?_, ?_, ?_, ?_, ?_, ?_, ?_, ?_, ?_⟩
  · intro h a e code s b t l n va y z hs hcode hr hseal
    exact seal_completes hs hcode hr hseal
  · intro h a e s b t l n va mine y hs hr hmine hne hcommit
    exact unseal_completes hs hr hmine hne hcommit
  · intro h a e s b t l v va addr q0 q p y z hs hr hleaf hstays hz
    subst hz
    refine hand_completes (away := false) (s1 := y.st) hs hr hleaf ?_ rfl (by rw [hleaf]; rfl)
    obtain hcore | hpkg | hframe := hstays
    · simp [hcore]
    · rw [beq_eq_false_iff_ne.2 hpkg, Bool.and_false, Bool.false_and]
    · simp [hframe]
  · intro h a e s b t l v va addr addr1 f q0 q q1 p s1 y z hs hr hleaf hcore hpkg hframe hhome hs1 hleaf1 hz
    subst hz
    refine hand_completes (away := true) hs hr hleaf (by simp [hcore, hpkg, hframe]) ?_ (by rw [hleaf1]; rfl)
    rw [hs1, State.handHome, if_pos rfl, hhome]
  · intro h a e s b t l n va p y y' hs hr hnone hp
    exact unseal_blocks hs hr hnone hp
  · intro s part vpn c a w
    exact ⟨rfl, rfl, rfl⟩
  · intro h a s b t l va q y hs hr hown
    exact take_completes hs hr hown
  · intro h a s b t l va q p y hs hr hlast
    exact pub_completes hs hr hlast
  · intro h a s b t l va q p w y hs hr hsome hw hfirst
    exact pub_blocks hs hr hsome hw hfirst
  · intro h d a e lvl s b t l n va k y y' z hs hr hrun hw
    exact placement_completes hs (fun _ => keeps_placePage) hr hrun hw
  · intro h d a e s b t l n va k y y' z hs hr hrun hw
    exact placement_completes hs (fun _ => keeps_evictPage) hr hrun hw

end Sys2Proof.Machine
end

section
/-! Commands of the engines (R179 to R200): the lane reads and checks its operands, the issue releases, and the command becomes one job that
the fibre owes; a queue that is full blocks the lane. -/

namespace Sys2Proof.Machine

/-! ### A word of one lane that blocks, in any mode (R78, R98) -/

theorem Solo.batch_alone {s : State} {b : Issue} {t : Team} {l : Nat} {g : Option Guard} (h : Solo s b t l g) :
    ({ b with lanes := [l], todo := [l] } : Issue) = b := by
  have hlanes := h.lanes
  have htodo := h.todo
  cases b
  dsimp only at hlanes htodo
  rw [hlanes, htodo]

/-- Whatever way the lanes of the word stand to one another, its only lane stands at its place with what it has done. -/
theorem runWord_lane_blocks {i : Instr} {g : Option Guard} {m : WMode} {body : Bool → L Unit} {s : State} {b : Issue} {t : Team} {l : Nat}
    {why : Wait} {y : LS} {e : List Eff} (h : Solo s b t l g) (hb : body false (b.start s t l) = .error (.block why y.st y.st e)) :
    runWord i g m (fun _ => id) body s = .next (b.blocked i s l why y) := by
  rw [runWord_one h, runLane_block (runPair_turn_stops h hb)]
  cases m <;> simp [finishWord, Run.start, uniFault, Run.allTraps, Run.waits, Run.kept, h.todo, h.batch_alone, Issue.blocked, retire_none]

/-! ### The parts of an issue (R179, R180) -/

theorem keeps_batchCheck {i : Instr} : Keeps (L.batchCheck i) :=
  keeps_bind keeps_cmdRead fun _ => keeps_bind (keeps_forM (fun _ => keeps_bind keeps_rdW fun _ => keeps_sameInAll) _) fun _ =>
    keeps_bind keeps_engine fun _ => keeps_bind keeps_get fun _ => keeps_bind keeps_team fun _ => keeps_bind keeps_refuse fun _ => keeps_pure

/-- The only lane of a batch is its first one. -/
theorem isHead_alone {x : LS} (h : x.execs = [x.lane]) : Does L.isHead x true x :=
  does_step (does_get.2 ⟨rfl, rfl⟩) (does_pure.2 ⟨by rw [h]; exact (beq_self_eq_true (some x.lane)).symm, rfl⟩)

/-- The job of a command is the newest, and the fibre that issues it owes it. -/
theorem issue_owes {i : Instr} {c : CmdArgs} {x y : LS} {t : Team} (heng : (engOf i).getD .matrix = engineOf i)
    (hrel : Does (L.release 0) x () y) (hroom : x.st.jobRoom (coreOf x.agent) 1 = true) (ht : y.st.team? x.agent = some t) :
    Does (do L.issue i c none; L.owe ((← get).st.nextJob - 1)) x () (y.issued x.st i c none t).owes :=
  does_next (issue_submits heng hrel hroom ht) (does_step (does_get.2 ⟨rfl, rfl⟩) (does_modFibre.2 rfl))

/-- A word whose part ends with an issue completes with the job and the debt. -/
theorem runWord_issues {α : Type} {i : Instr} {g : Option Guard} {m : WMode} {after : Issue → State → State} {body : Bool → L Unit} {p : L α}
    {s : State} {b : Issue} {t t' : Team} {l : Nat} {c : CmdArgs} {u : α} {y y' : LS} (hs : Solo s b t l g)
    (heng : (engOf i).getD .matrix = engineOf i) (hp : Keeps p) (hr : Does p (b.start s t l) u y)
    (hroom : y.st.jobRoom (coreOf b.agent) 1 = true) (hrel : Does (L.release 0) y () y') (ht : y'.st.team? b.agent = some t')
    (hb : Does (do L.issue i c none; L.owe ((← get).st.nextJob - 1)) y () (y'.issued y.st i c none t').owes →
      Does (body false) (b.start s t l) () (y'.issued y.st i c none t').owes) :
    runWord i g m after body s = .next (b.complete i s (after b) (y'.issued y.st i c none t').owes) := by
  obtain ⟨st, effs, rfl⟩ := hp.shape hr
  obtain ⟨st', effs', rfl⟩ := keeps_release.shape hrel
  exact runWord_stands hs (hb (issue_owes heng hrel hroom ht)) rfl rfl

/-! ### Batch commands (R183, R185 to R188, R190, R192) -/

/-- MCFG, MLDB, MVQB, MLDT, MSWB, MZRO, MSTZ and MFST are batch words of the matrix engine. -/
theorem exec_batchCommands {h : Hdr} {a c : Opnd} {arr : BitVec 2} {wf af n : BitVec 3} {mask : BitVec 4} {f : Bool} :
    ∀ i ∈ batchCommands h a c arr wf af n mask f,
      (engOf i).getD .matrix = engineOf i ∧ ∀ s : State, exec i s = batchWord i h s := by
  intro i hi
  simp only [batchCommands, List.mem_cons, List.not_mem_nil, or_false] at hi
  rcases hi with rfl | rfl | rfl | rfl | rfl | rfl | rfl | rfl <;> exact ⟨rfl, fun _ => rfl⟩

theorem batchWord_completes {i : Instr} {h : Hdr} {s : State} {b : Issue} {t t' : Team} {l : Nat} {k : CmdArgs} {y y' : LS}
    (hs : Solo s b t l h.guard) (heng : (engOf i).getD .matrix = engineOf i) (hr : Does (L.batchCheck i) (b.start s t l) k y)
    (hroom : y.st.jobRoom (coreOf b.agent) 1 = true) (hrel : Does (L.release 0) y () y') (ht : y'.st.team? b.agent = some t') :
    batchWord i h s = .next (b.complete i s id (y'.issued y.st i k none t').owes) := by
  refine runWord_issues hs heng keeps_batchCheck hr hroom hrel ht fun hi => ?_
  obtain ⟨st, effs, rfl⟩ := keeps_batchCheck.shape hr
  exact does_step hr (does_step (isHead_alone rfl) (does_then rfl hi))

/-- Settles O25: each of the commands is a batch word, whose one lane is the head of its batch and issues the job. -/
theorem batchCommands_hold : Obligations.BatchCommands := by
  intro h a c arr wf af n mask f i hi s b t l k t' y y' hs hr hroom hrel ht
  obtain ⟨heng, hexec⟩ := exec_batchCommands i hi
  rw [hexec]
  exact batchWord_completes hs heng hr hroom hrel ht

/-! ### Lane commands (R196 to R200) -/

/-- CPY, GTHR, SCTR, MCAST, MSND and COLL are lane commands. -/
theorem exec_laneCommands {h : Hdr} {d a c : Opnd} {w w2 : BitVec 4} {ds ss : Bool} :
    ∀ i ∈ laneCommands h d a c w w2 ds ss,
      (engOf i).getD .matrix = engineOf i ∧ ∀ s : State, exec i s = laneCmd i h s := by
  intro i hi
  simp only [laneCommands, List.mem_cons, List.not_mem_nil, or_false] at hi
  rcases hi with rfl | rfl | rfl | rfl | rfl | rfl <;> exact ⟨rfl, fun _ => rfl⟩

/-- The operands of a lane command and the team that checks them. -/
def L.laneReads (i : Instr) : L (CmdArgs × Team) := do return (← L.cmdRead i, ← L.team)

theorem keeps_laneReads {i : Instr} : Keeps (L.laneReads i) := keeps_pair keeps_cmdRead keeps_team

/-- A lane command that is not refused goes on with its operands. -/
theorem laneReads_then {α : Type} {i : Instr} {k : CmdArgs} {t1 : Team} {q : CmdArgs → L α} {x y z : LS} {v : α}
    (hr : Does (L.laneReads i) x (k, t1) y) (hok : cmdCheck t1 (viewNow t1) i k = none) (hq : Does (q k) y v z) :
    Does (do
      let c ← L.cmdRead i
      let t ← L.team
      L.refuse (cmdCheck t (viewNow t) i c)
      q c) x v z := by
  obtain ⟨_, hk, ht⟩ := does_pair hr
  refine does_step hk (does_step ht ?_)
  rw [hok]
  exact does_next (does_pure.2 ⟨rfl, rfl⟩) hq

theorem laneReads_stops {α : Type} {i : Instr} {k : CmdArgs} {t1 : Team} {q : CmdArgs → L α} {x y : LS} {e : Stop}
    (hr : Does (L.laneReads i) x (k, t1) y) (hok : cmdCheck t1 (viewNow t1) i k = none) (hq : q k y = .error e) :
    (do
      let c ← L.cmdRead i
      let t ← L.team
      L.refuse (cmdCheck t (viewNow t) i c)
      q c) x = .error e := by
  obtain ⟨_, hk, ht⟩ := does_pair hr
  refine stops_step hk (stops_step ht ?_)
  rw [hok]
  exact stops_step (does_pure.2 ⟨rfl, rfl⟩) hq

section
variable {h : Hdr} {d a c : Opnd} {kind : BitVec 4} {s : State} {b : Issue} {t t1 t2 : Team} {l : Nat} {k : CmdArgs} {y y' : LS}

theorem laneCmd_completes {i : Instr} (hs : Solo s b t l h.guard) (heng : (engOf i).getD .matrix = engineOf i)
    (hr : Does (L.laneReads i) (b.start s t l) (k, t1) y) (hok : cmdCheck t1 (viewNow t1) i k = none)
    (hroom : y.st.jobRoom (coreOf b.agent) 1 = true) (hrel : Does (L.release 0) y () y') (ht : y'.st.team? b.agent = some t2) :
    laneCmd i h s = .next (b.complete i s id (y'.issued y.st i k none t2).owes) :=
  runWord_issues hs heng keeps_laneReads hr hroom hrel ht fun hi => laneReads_then hr hok hi

/-- The quantisation jobs of a core that are not done (R196). -/
def State.quantQueue (s : State) (a : AgentId) : List Job :=
  (s.jobsOn (coreOf a)).filter (fun j => j.eng == .quant && j.cmd.isSome && j.st != .done)

/-- What follows the check of a QENQ (R196). -/
def L.enqueue (i : Instr) (c : CmdArgs) : L Unit := do
  if c.a2 ≠ 0 then
    let x ← get
    if 16 ≤ (x.st.quantQueue x.agent).length then L.block .queue
    L.issue i c none
    L.owe ((← get).st.nextJob - 1)

/-- QENQ is its reads and its check, and then takes its place in the queue. -/
theorem exec_qenq : exec (.qenq h d a c kind) s = laneWord (.qenq h d a c kind) h .order (do
    let k ← L.cmdRead (.qenq h d a c kind)
    let t ← L.team
    L.refuse (cmdCheck t (viewNow t) (.qenq h d a c kind) k)
    L.enqueue (.qenq h d a c kind) k) s := rfl

theorem qenq_idle (hs : Solo s b t l h.guard) (hr : Does (L.laneReads (.qenq h d a c kind)) (b.start s t l) (k, t1) y)
    (hok : cmdCheck t1 (viewNow t1) (.qenq h d a c kind) k = none) (h0 : k.a2 = 0) :
    exec (.qenq h d a c kind) s = .next (b.complete (.qenq h d a c kind) s id y) := by
  obtain ⟨hlane, hunis, -⟩ := keeps_laneReads.of_start hr
  rw [exec_qenq]
  exact runWord_stands hs (laneReads_then hr hok (does_else (not_not_intro h0) (does_pure.2 ⟨rfl, rfl⟩))) hlane hunis

theorem qenq_issues (hs : Solo s b t l h.guard) (hr : Does (L.laneReads (.qenq h d a c kind)) (b.start s t l) (k, t1) y)
    (hok : cmdCheck t1 (viewNow t1) (.qenq h d a c kind) k = none) (h0 : k.a2 ≠ 0) (hfree : (y.st.quantQueue b.agent).length < 16)
    (hroom : y.st.jobRoom (coreOf b.agent) 1 = true) (hrel : Does (L.release 0) y () y') (ht : y'.st.team? b.agent = some t2) :
    exec (.qenq h d a c kind) s =
      .next (b.complete (.qenq h d a c kind) s id (y'.issued y.st (.qenq h d a c kind) k none t2).owes) := by
  obtain ⟨-, -, hagent, -⟩ := keeps_laneReads.of_start hr
  rw [← hagent] at hfree
  rw [exec_qenq]
  exact runWord_issues hs rfl keeps_laneReads hr hroom hrel ht fun hi =>
    laneReads_then hr hok (does_then h0 (does_step (does_get.2 ⟨rfl, rfl⟩) (does_else (Nat.not_le.2 hfree) hi)))

theorem qenq_blocks (hs : Solo s b t l h.guard) (hr : Does (L.laneReads (.qenq h d a c kind)) (b.start s t l) (k, t1) y)
    (hok : cmdCheck t1 (viewNow t1) (.qenq h d a c kind) k = none) (h0 : k.a2 ≠ 0) (hfull : 16 ≤ (y.st.quantQueue b.agent).length) :
    exec (.qenq h d a c kind) s = .next (b.blocked (.qenq h d a c kind) s l .queue (b.start s t l)) := by
  obtain ⟨st, effs, rfl⟩ := keeps_laneReads.shape hr
  rw [exec_qenq]
  exact runWord_lane_blocks (e := effs) hs
    (laneReads_stops hr hok (stops_then h0 (stops_step (does_get.2 ⟨rfl, rfl⟩) (stops_then hfull rfl))))

end

/-- Settles O26: a lane command is its reads, its check and its issue; QENQ has a test of its blocks and one of its queue in between. -/
theorem laneCommands_hold : Obligations.LaneCommands := by
  refine ⟨?_, ?_, ?_, ?_⟩
  · intro h d a c w w2 ds ss i hi s b t l k t1 t2 y y' hs hr hok hroom hrel ht
    obtain ⟨heng, hexec⟩ := exec_laneCommands i hi
    rw [hexec]
    exact laneCmd_completes hs heng hr hok hroom hrel ht
  · intro h d a c kind s b t l k t1 y hs hr hok h0
    exact qenq_idle hs hr hok h0
  · intro h d a c kind s b t l k t1 t2 y y' hs hr hok h0 hfree hroom hrel ht
    exact qenq_issues hs hr hok h0 hfree hroom hrel ht
  · intro h d a c kind s b t l k t1 y hs hr hok h0 hfull
    exact qenq_blocks hs hr hok h0 hfull

end Sys2Proof.Machine
end

section
/-! Words that wait for the matrix engine (R191, R193 to R195): MRDZ reads a tile that no earlier command writes; MFAC and MPIV stand at their
word until their job is done; MRNM and MGRW read what the factorisation has left. -/

namespace Sys2Proof.Machine

/-! ### MRDZ (R191) -/

@[simp] theorem keeps_mat : Keeps L.mat := keeps_bind keeps_team fun _ => keeps_pure

theorem behind_stands {l : List Opnd} {x y : LS} {v : Bool} (h : Does (L.behind l) x v y) : y = x := by
  obtain ⟨_, _, hget, hrest⟩ := does_bind.1 h
  obtain ⟨_, _, hw, hpure⟩ := does_bind.1 hrest
  rw [(does_pure.1 hpure).2, (does_wave.1 hw).2, (does_get.1 hget).2]

theorem keeps_capMrdz {d a : Opnd} {n : BitVec 3} : Keeps (L.capMrdz d a n) :=
  keeps_bind keeps_checkRegs fun _ => keeps_bind keeps_team fun _ => keeps_when keeps_trap fun _ => keeps_bind keeps_rdW fun _ =>
    keeps_when keeps_trap fun _ => keeps_bind keeps_get fun _ => keeps_pure

theorem keeps_perfMrdz {n : BitVec 3} {c : Cap} : Keeps (perfMrdz n c) :=
  keeps_bind keeps_team fun _ => keeps_bind keeps_get fun _ => keeps_when keeps_block fun _ => keeps_when keeps_chki fun _ => keeps_pure

/-- The element number and the place in the team's order of commands that MRDZ captures. -/
def mrdzCap (e : Word) (n : Nat) : Cap := { Cap.zero with av := BitVec.ofNat 128 e.toNat, bv := BitVec.ofNat 128 n }

theorem capMrdz_captures {d a : Opnd} {n : BitVec 3} {e : Word} {t1 : Team} {x y : LS} (hr : Does (do
      L.checkRegs [a, d]
      let t ← L.team
      return (← L.rdW a, t)) x (e, t1) y) (hn : n.toNat < t1.tiles) (he : e.toNat < 1536) :
    Does (L.capMrdz d a n) x (mrdzCap e y.st.nextJob) y := by
  obtain ⟨_, _, hregs, hr⟩ := does_bind.1 hr
  obtain ⟨_, _, ht, hr⟩ := does_bind.1 hr
  obtain ⟨_, _, hv, hr⟩ := does_bind.1 hr
  obtain ⟨heq, rfl⟩ := does_pure.1 hr
  obtain ⟨rfl, rfl⟩ := Prod.mk.inj heq
  exact does_step hregs (does_step ht (does_else (Nat.not_le.2 hn) (does_step hv (does_else (Nat.not_le.2 he)
    (does_step (does_get.2 ⟨rfl, rfl⟩) (does_pure.2 ⟨rfl, rfl⟩))))))

/-- No earlier command of the team that writes the tile is incomplete, and the element is not poisoned: it is read as it stands. -/
theorem perfMrdz_reads {n : BitVec 3} {e : Word} {m : Nat} {t : Team} {x : LS} (ht : x.st.team? x.agent = some t)
    (hm : m < 2 ^ 128) (hfree : anyWrites n.toNat (viewNow t) (pendingCmds x.st t m) = false)
    (hclean : (vget t.z n.toNat).bad.contains e.toNat = false) :
    Does (perfMrdz n (mrdzCap e m)) x ((spGet 0 (vget t.z n.toNat).e e.toNat).setWidth 128, 0) x := by
  have hav : (mrdzCap e m).av.toNat = e.toNat := by
    have := e.isLt
    simp only [mrdzCap, BitVec.toNat_ofNat]
    omega
  have hbv : (mrdzCap e m).bv.toNat = m := by
    simp only [mrdzCap, BitVec.toNat_ofNat]
    exact Nat.mod_eq_of_lt hm
  have hopen : ¬ anyWrites n.toNat (viewNow t) (pendingCmds x.st t (mrdzCap e m).bv.toNat) = true := by simp [hbv, hfree]
  have hgood : ¬ (vget t.z n.toNat).bad.contains (mrdzCap e m).av.toNat = true := by rw [hav, hclean]; decide
  exact does_step (does_team.2 ⟨ht, rfl⟩) (does_step (does_get.2 ⟨rfl, rfl⟩) (does_else hopen (does_else hgood
    (does_pure.2 ⟨by rw [hav], rfl⟩))))

theorem mrdz_lands {h : Hdr} {d a : Opnd} {n : BitVec 3} {s : State} {b : Issue} {t t1 t' : Team} {l : Nat} {e : Word} {y z : LS}
    (hs : Solo s b t l h.guard) (hr : Does (do
      L.checkRegs [a, d]
      let t ← L.team
      return (← L.rdW a, t)) (b.start s t l) (e, t1) y) (hn : n.toNat < t1.tiles) (he : e.toNat < 1536)
    (hfree : anyWrites n.toNat (viewNow t') (pendingCmds y.st t' y.st.nextJob) = false) (ht : y.st.team? b.agent = some t')
    (hclean : (vget t'.z n.toNat).bad.contains e.toNat = false)
    (hl : Landed (.mrdz h d a n) h (mrdzCap e y.st.nextJob) (pure ((spGet 0 (vget t'.z n.toNat).e e.toNat).setWidth 128, 0)) y z)
    (hjob : y.st.nextJob < 2 ^ 128) :
    exec (.mrdz h d a n) s = .next (b.complete (.mrdz h d a n) s id z) := by
  have hcap := capMrdz_captures hr hn he
  obtain ⟨-, -, hagent, -⟩ := keeps_capMrdz.of_start hcap
  obtain ⟨hla, x, v, tag, w, hb, hp, hland⟩ := hl
  obtain rfl := behind_stands hb
  obtain ⟨hv, rfl⟩ := does_pure.1 hp
  exact longWord_lands hs keeps_capMrdz keeps_perfMrdz (regRun_nodup (by omega)) hcap
    ⟨hla, w, v, tag, w, hb, hv ▸ perfMrdz_reads (hagent ▸ ht) hjob hfree hclean, hland⟩

/-! ### Words that wait for their job (R193, R194) -/

/-- The job that the only lane of a batch waits for at its word. -/
theorem waited_alone {s : State} {b : Issue} {t : Team} {l : Nat} : Does L.waited (b.start s t l)
    (s.jobs.find? (fun j => j.agent == b.agent && j.wait == some (b.wave, l, b.pc))) (b.start s t l) := by
  have hp : (fun j : Job => j.agent == b.agent && j.wait.isSome && j.wait == some (b.wave, l, b.pc)) =
      fun j => j.agent == b.agent && j.wait == some (b.wave, l, b.pc) := by
    funext j
    cases j.wait with
    | none => simp
    | some k => simp
  rw [← hp]
  exact does_step (does_get.2 ⟨rfl, rfl⟩) (does_pure.2 ⟨rfl, rfl⟩)

section
variable {i : Instr} {h : Hdr} {why : Wait} {d : List Opnd} {take : Job → L Unit} {s : State} {b : Issue} {t t' : Team} {l : Nat} {k : CmdArgs}
  {j : Job} {y y1 z : LS}

/-- No job of the word exists yet: it is issued, the fibre owes it, and the batch waits for it. -/
theorem waitWord_issues (hs : Solo s b t l h.guard) (heng : (engOf i).getD .matrix = engineOf i)
    (hnew : ∀ j ∈ s.jobs, j.agent = b.agent → j.wait ≠ some (b.wave, l, b.pc)) (hr : Does (L.batchCheck i) (b.start s t l) k y)
    (hd : Does (L.checkRegs d) y () y) (hroom : y.st.jobRoom (coreOf b.agent) 1 = true) (hrel : Does (L.release 0) y () y1)
    (ht : y1.st.team? b.agent = some t') :
    waitWord i h why d take s = .next (b.blocked i s l why (y1.issued y.st i k none t').waiting.owes) := by
  have hnone : s.jobs.find? (fun j => j.agent == b.agent && j.wait == some (b.wave, l, b.pc)) = none :=
    List.find?_eq_none.2 fun j hj => by simpa using hnew j hj
  have hwait := waited_alone (s := s) (b := b) (t := t) (l := l)
  rw [hnone] at hwait
  obtain ⟨st, effs, rfl⟩ := keeps_batchCheck.shape hr
  have hissue := issue_submits (i := i) (c := k) (q := none) heng hrel hroom ht
  obtain ⟨st1, effs1, rfl⟩ := keeps_release.shape hrel
  exact runWord_lane_blocks (e := effs1) hs (stops_step hwait (stops_step hr (stops_step hd (stops_step (isHead_alone rfl) (stops_then rfl
    (stops_step hissue (stops_step (does_get.2 ⟨rfl, rfl⟩) (stops_step (u := ()) (does_modSt.2 rfl)
      (stops_step (u := ()) (does_modSt.2 rfl) rfl)))))))))

/-- The job of the word is done without a trap: each lane takes its outcome, and nothing waits for it any more. -/
theorem waitWord_completes (hs : Solo s b t l h.guard)
    (hj : s.jobs.find? (fun j => j.agent == b.agent && j.wait == some (b.wave, l, b.pc)) = some j) (hdone : j.st = .done)
    (htrap : j.trap = none) (htake : Does (take j) (b.start s t l) () z) (hexecs : z.execs = [l]) (hlane : z.lane = l)
    (hu : unisAgree z.unis = true) :
    waitWord i h why d take s = .next (b.complete i s id { z with st := z.st.updJob j.id (fun j => { j with wait := none }) }) := by
  have hwait := waited_alone (s := s) (b := b) (t := t) (l := l)
  rw [hj] at hwait
  have hlast : (z.execs.getLast? == some z.lane) = true := by simp [hexecs, hlane]
  refine runWord_solo (y := { z with st := _ }) hs (does_step hwait (does_else (by simp [hdone]) ?_)) hlane hu
  rw [htrap]
  exact does_next htake (does_step (does_get.2 ⟨rfl, rfl⟩) (does_step (does_get.2 ⟨rfl, rfl⟩) (does_then hlast (does_modSt.2 rfl))))

end

theorem mpiv_completes {h : Hdr} {d a c : Opnd} {n : BitVec 6} {s : State} {b : Issue} {t : Team} {l : Nat} {j : Job} {z : LS}
    (hs : Solo s b t l h.guard) (hj : s.jobs.find? (fun j => j.agent == b.agent && j.wait == some (b.wave, l, b.pc)) = some j)
    (hdone : j.st = .done) (htrap : j.trap = none) (hw : Does (L.wrW d j.out) (b.start s t l) () z) (hu : unisAgree z.unis = true) :
    exec (.mpiv h d a c n) s = .next (b.complete (.mpiv h d a c n) s id { z with
      st := z.st.updJob j.id (fun j => { j with wait := none }) }) := by
  obtain ⟨st, effs, unis, rfl⟩ := wrW_shape hw
  exact waitWord_completes hs hj hdone htrap hw rfl rfl hu

/-! ### The units of their jobs (R193, R194) -/

/-- The command of a direct job is the one it was issued with. -/
theorem current_direct {j : Job} {i : Instr} {c : CmdArgs} {x : LS} (hcard : j.card = none) (hcmd : j.cmd = some (i, c)) :
    Does (L.current j) x (i, c) x := by
  simp only [L.current, hcard, hcmd]
  exact does_pure.2 ⟨rfl, rfl⟩

/-- A direct job outside any loop goes on past the one command that it has. -/
theorem advance_direct {j : Job} (hloop : j.loop = none) : j.advance = { j with idx := j.idx + 1, elem := 0 } := by
  simp only [Job.advance, hloop]

theorem mat_team {m : MatState} {x y : LS} (h : Does L.mat x m y) :
    ∃ t, Does L.team x t x ∧ t.mat.getD MatState.zero = m := by
  obtain ⟨t, _, ht, hm⟩ := does_bind.1 h
  obtain ⟨ht, rfl⟩ := does_team.1 ht
  exact ⟨t, does_team.2 ⟨ht, rfl⟩, (does_pure.1 hm).1.symm⟩

/-- What a job keeps for the word it begins: CRATE as it stands then (R199). -/
def Job.begins (j : Job) (p : Partition) : Job := if j.elem = 0 then { j with out := p.crate } else j

theorem Job.begins_eq {j : Job} {p : Partition} : j.begins p = { j with out := (j.begins p).out } := by
  unfold Job.begins
  split <;> rfl

theorem Job.begins_card {j : Job} {p : Partition} : (j.begins p).card = j.card := by rw [Job.begins_eq]
theorem Job.begins_idx {j : Job} {p : Partition} : (j.begins p).idx = j.idx := by rw [Job.begins_eq]
theorem Job.begins_loop {j : Job} {p : Partition} : (j.begins p).loop = j.loop := by rw [Job.begins_eq]

/-- One column of a direct MFAC: the job goes on until its number is reached (R193). -/
theorem mfac_unit {j : Job} {h : Hdr} {n : BitVec 7} {c : CmdArgs} {p : Partition} {m m' : MatState} {x y : LS} (hcard : j.card = none)
    (hcmd : j.cmd = some (.mfac h n, c)) (hp : Does L.part x p x) (hm : Does L.mat x m x) (hleft : m.factor.counter < n.toNat)
    (hcol : Does L.facStep x () y) (hm' : Does L.mat y m' y) :
    Does (L.jobStep j) x (if n.toNat ≤ m'.factor.counter then (j.begins p).advance else j.begins p) y := by
  obtain ⟨t, ht, rfl⟩ := mat_team hm
  obtain ⟨t', ht', rfl⟩ := mat_team hm'
  refine does_step (current_direct hcard hcmd) (does_else (by simp [hcard]) (does_step hp (does_step ht
    (does_else (Nat.not_le.2 (Nat.sub_pos_of_lt hleft)) (does_step (does_step (does_step hcol (does_pure.2 ⟨rfl, rfl⟩))
      (does_pure.2 ⟨rfl, rfl⟩)) (does_step ht' (does_pure.2 ⟨?_, rfl⟩)))))))
  simp only [unitCount, Nat.sub_eq_zero_iff_le]
  rfl

theorem over_direct {j : Job} (hcard : j.card = none) : j.over = true ↔ 1 ≤ j.idx := by
  simp only [Job.over, hcard, decide_eq_true_eq]

/-- A direct job at its first word is over exactly when it has been advanced. -/
theorem advanced_over {j : Job} {c : Prop} [Decidable c] (hcard : j.card = none) (hidx : j.idx = 0) (hloop : j.loop = none) :
    (if c then j.advance else j).over = true ↔ c := by
  by_cases hc : c
  · rw [if_pos hc, advance_direct hloop]
    exact iff_of_true ((over_direct (j := { j with idx := j.idx + 1, elem := 0 }) hcard).2 (Nat.le_add_left 1 j.idx)) hc
  · rw [if_neg hc, over_direct hcard, hidx]
    exact iff_of_false (by decide) hc

/-- The one unit of a direct MPIV, whose value is the job's outcome (R194). -/
theorem mpiv_unit {j : Job} {h : Hdr} {d a e : Opnd} {n : BitVec 6} {c : CmdArgs} {p : Partition} {t t2 : Team} {v : Word} {x y : LS}
    (hcard : j.card = none) (hcmd : j.cmd = some (.mpiv h d a e n, c)) (hidx : j.idx = 0) (helem : j.elem = 0) (hloop : j.loop = none)
    (hp : Does L.part x p x) (ht : Does L.team x t x) (hpiv : Does (L.mpiv n.toNat (BitVec.ofNat 32 c.a) (BitVec.ofNat 32 c.b)) x v y)
    (ht2 : Does L.team y t2 y) : Does (L.jobStep j) x { j with idx := 1, out := v } y := by
  have hadv : ({ j.begins p with out := v } : Job).advance = { j with idx := 1, out := v } := by
    have hout : ({ j.begins p with out := v } : Job) = { j with out := v } := by rw [Job.begins_eq]
    rw [hout, advance_direct (j := { j with out := v }) hloop]
    dsimp only
    rw [hidx, helem]
  refine does_step (current_direct hcard hcmd) (does_else (by simp [hcard]) (does_step hp (does_step ht (does_else ?_ (does_step
    (does_step (does_step (does_pure.2 ⟨rfl, rfl⟩) hpiv) (does_pure.2 ⟨rfl, rfl⟩)) (does_step ht2 (does_pure.2 ⟨hadv.symm, rfl⟩)))))))
  rw [helem]
  exact Nat.not_le.2 Nat.one_pos

/-! ### MRNM and MGRW (R195) -/

theorem keeps_afterMatrix : Keeps L.afterMatrix := keeps_bind keeps_get fun _ => keeps_test keeps_block keeps_pure

theorem keeps_facRead {i : Instr} : Keeps (L.facRead i) :=
  keeps_bind keeps_known fun _ => keeps_bind keeps_engine fun _ => keeps_bind keeps_get fun _ => keeps_bind keeps_team fun _ =>
    keeps_bind keeps_refuse fun _ => keeps_bind keeps_afterMatrix fun _ => keeps_bind keeps_mat fun _ => keeps_pure

theorem mrnm_completes {h : Hdr} {d a : Opnd} {s : State} {b : Issue} {t : Team} {l : Nat} {v : Word} {r : Factor} {y y' z : LS}
    (hs : Solo s b t l h.guard) (hr : Does (do L.checkRegs [a, d]; L.rdW a) (b.start s t l) v y)
    (hf : Does (L.facRead (.mrnm h d a)) y r y') (hw : Does (L.wrW d (r.record (v.toNat % 64))) y' () z) :
    exec (.mrnm h d a) s = .next (b.complete (.mrnm h d a) s id z) := by
  obtain ⟨hlane, hunis, -⟩ := (keeps_bind (keeps_bind keeps_checkRegs fun _ => keeps_rdW) fun _ => keeps_facRead).of_start (does_step hr hf)
  obtain ⟨_, _, hregs, hv⟩ := does_bind.1 hr
  exact runWord_writes hs hw (does_step hregs (does_step hv (does_step hf (by rw [bits_entry]; exact hw)))) hlane hunis

theorem mgrw_completes {h : Hdr} {d : Opnd} {s : State} {b : Issue} {t : Team} {l : Nat} {r : Factor} {y z : LS}
    (hs : Solo s b t l h.guard) (hr : Does (do L.checkReg d; L.facRead (.mgrw h d)) (b.start s t l) r y)
    (hw : Does (L.wrD d (r.growth.setWidth 64) 2) y () z) : exec (.mgrw h d) s = .next (b.complete (.mgrw h d) s id z) := by
  obtain ⟨_, _, hreg, hf⟩ := does_bind.1 hr
  exact runWord_acts hs hr (keeps_bind keeps_checkReg fun _ => keeps_facRead) hw keeps_wrD (does_step hreg (does_step hf hw))

/-- Settles O28: MRDZ is a capture and a read that lands; MFAC and MPIV issue their job and meet its end; the units are those of the factor
unit; MRNM and MGRW read its state. -/
theorem waitingMatrixWords : Obligations.WaitingMatrixWords := by
  refine ⟨?_, ?_, ?_, ?_, ?_, ?_, ?_, ?_⟩
  · intro h d a n s b t l e t1 t' y z hs hr hn he hfree ht hclean hl hjob
    exact mrdz_lands hs hr hn he hfree ht hclean hl hjob
  · intro w h n d a c n' hw s b t l k t' y y1 hs hnew hr hd hroom hrel ht
    simp only [List.mem_cons, List.not_mem_nil, or_false] at hw
    obtain rfl | rfl := hw
    · exact waitWord_issues (i := .mfac h n) hs rfl hnew hr (does_pure.2 ⟨rfl, rfl⟩) hroom hrel ht
    · exact waitWord_issues (i := .mpiv h d a c n') hs rfl hnew hr (does_next hd (does_pure.2 ⟨rfl, rfl⟩)) hroom hrel ht
  · intro h n s b t l j hs hj hdone htrap
    exact waitWord_completes hs hj hdone htrap (does_pure.2 ⟨rfl, rfl⟩) rfl rfl rfl
  · intro h d a c n s b t l j z hs hj hdone htrap hw hu
    exact mpiv_completes hs hj hdone htrap hw hu
  · intro j h n c p m m' x y hcard hcmd hidx hloop hp hm hleft hcol hm'
    exact ⟨_, mfac_unit hcard hcmd hp hm hleft hcol hm',
      advanced_over (Job.begins_card.trans hcard) (Job.begins_idx.trans hidx) (Job.begins_loop.trans hloop)⟩
  · intro j h d a e n c p t' v x y hcard hcmd hidx helem hloop hp ht hpiv ht2
    obtain ⟨t2, ht2⟩ := ht2
    exact mpiv_unit hcard hcmd hidx helem hloop hp ht hpiv ht2
  · intro h d a s b t l v r y y' z hs hr hf hw
    exact mrnm_completes hs hr hf hw
  · intro h d s b t l r y z hs hr hw
    exact mgrw_completes hs hr hw

end Sys2Proof.Machine
end

section
/-! EWAIT and ELOOP (R203, R204): EWAIT takes the status of the fibre's jobs and observes them; ELOOP traps in a fibre and sets the loop of a
card. -/

namespace Sys2Proof.Machine

/-! ### EWAIT (R204) -/

theorem ewait_completes {h : Hdr} {d : Opnd} {s : State} {b : Issue} {t : Team} {l : Nat} {f : Fibre} {y z : LS}
    (hs : Solo s b t l h.guard) (hr : Does (do L.checkReg d; L.fibre) (b.start s t l) f y)
    (hover : ∀ n ∈ f.jobs, n < presentMark ∧ y.st.jobOver n = true) (hw : Does (L.wrW d (statusOf (y.st.jobsOf f.jobs))) y () z) :
    exec (.ewait h d) s = .next (b.complete (.ewait h d) s id { z with
      st := ((z.st.updFibre b.agent b.wave l (fun f => { f with jobs := [] })).updFibre b.agent b.wave l
        (fun g => { g with remoteWrites := g.remoteWrites ++ z.st.jobWrites f.jobs })).observe b.agent f.jobs }) := by
  have hready : ¬ (f.jobs.any (presentMark ≤ ·) || !f.jobs.all y.st.jobOver) = true := by
    simpa using ⟨fun n hn => (hover n hn).1, fun n hn => (hover n hn).2⟩
  obtain ⟨st, effs, rfl⟩ := (keeps_bind keeps_checkReg fun _ => keeps_fibre).shape hr
  obtain ⟨_, x, hreg, hf⟩ := does_bind.1 hr
  have hagree := wrW_agrees rfl hw
  obtain ⟨st', effs', unis, rfl⟩ := wrW_shape hw
  exact runWord_solo hs (does_step hreg (does_step hf (does_step (does_get.2 ⟨rfl, rfl⟩) (does_else hready (does_next hw
    (does_next (does_modFibre.2 rfl) (does_step (does_get.2 ⟨rfl, rfl⟩) (does_next (does_modFibre.2 rfl) (does_modSt.2 rfl)))))))))
    rfl hagree

/-! ### ELOOP (R203) -/

theorem checkRegs_stands {l : List Opnd} {x y : LS} {u : Unit} (h : Does (L.checkRegs l) x u y) : y = x := by
  induction l generalizing x with
  | nil => exact (does_pure.1 h).2
  | cons o l ih =>
    obtain ⟨_, _, ho, hl⟩ := does_bind.1 h
    obtain rfl := checkReg_stands ho
    exact ih hl

/-- A fibre's ELOOP, its operands in their windows, is ENGINE DIRECT. -/
theorem eloop_traps {h : Hdr} {n : BitVec 8} {a c : Opnd} {count : BitVec 13} {s : State} {b : Issue} {t : Team} {l : Nat} {y : LS}
    (hs : Solo s b t l h.guard) (hr : Does (L.checkRegs [a, c]) (b.start s t l) () y) :
    exec (.eloop h n a c count) s = .next (s.enterHandler b.agent b.wave b.pc [⟨l, 9, 4, 0, 0⟩] [l] [l] none) := by
  obtain rfl := checkRegs_stands hr
  exact runWord_solo_trap hs (stops_step hr rfl)

/-- A card's ELOOP with its words inside the card, outside any loop, sets the sequencer's loop. -/
theorem eloop_loops {j : Job} {h : Hdr} {n : BitVec 8} {a c : Opnd} {count : BitVec 13} {k : Card} {v : CmdArgs} {x y : LS}
    (hcur : Does (L.current j) x (.eloop h n a c count, v) y) (hloop : j.loop = none) (hn : n ≠ 0) (hcard : j.card = some k)
    (hfit : j.idx + 1 + n.toNat ≤ k.cnt) :
    Does (L.jobStep j) x { j with idx := j.idx + 1, elem := 0, loop := some (j.idx + 1, n.toNat, count.toNat + 1, 0,
      (BitVec.ofNat 32 v.a).toInt, (BitVec.ofNat 32 v.b).toInt) } y := by
  refine does_step hcur ?_
  rw [← sextN_eq_toInt (by omega), ← sextN_eq_toInt (by omega)]
  dsimp only
  rw [hcard]
  exact does_else (not_or.2 ⟨by simp [hloop], not_or.2 ⟨hn, Nat.not_lt.2 hfit⟩⟩) (does_pure.2 ⟨rfl, rfl⟩)

/-- Settles O29: EWAIT's jobs are over, so it goes on; a fibre's ELOOP stops after its checks, and a card's passes its test. -/
theorem ewaitAndEloop : Obligations.EwaitAndEloop := by
  refine ⟨?_, ?_, ?_⟩
  · intro h d s b t l f y z hs hr hover hw
    exact ewait_completes hs hr hover hw
  · intro h n a c count s b t l y hs hr
    exact eloop_traps hs hr
  · intro j h n a c count k v x y hcur hloop hn hcard hfit
    exact eloop_loops hcur hloop hn hcard hfit

end Sys2Proof.Machine
end

section
/-! What the end of a word leaves as it was: every field of the package but the teams, and the places of blocked batches other than the
word's own (R42, R78, R98). -/

namespace Sys2Proof.Machine

/-! ### Fields that no change of a team touches -/

/-- A fold of steps that each keep a field keeps it. -/
theorem foldl_outside {α β : Type} {φ : State → β} {F : State → α → State} (hF : ∀ s x, φ (F s x) = φ s) (l : List α) (s : State) :
    φ (l.foldl F s) = φ s := by
  induction l generalizing s with
  | nil => rfl
  | cons x l ih => exact (ih (F s x)).trans (hF s x)

section
variable {β : Type} {φ : State → β} (hφ : ∀ (s : State) (a : AgentId) (f : Team → Team), φ (s.updTeam a f) = φ s)
include hφ

theorem laneDone_outside (s : State) (a : AgentId) (wv : Nat) (d : LaneDone) : φ (s.laneDone a wv d) = φ s :=
  (hφ _ _ _).trans (hφ _ _ _)

theorem retire_outside (s : State) (i : Instr) (b : Issue) (n : Nat) (r : Run) : φ (s.retire i b n r) = φ s := by
  refine (hφ _ _ _).trans ?_
  have hd : φ (r.dones.foldl (fun s d => s.laneDone b.agent b.wave d)
      (s.updWave b.agent b.wave (fun w => r.unis.foldl Wave.applyUni w))) = φ s :=
    (foldl_outside (fun s d => laneDone_outside hφ s _ _ d) _ _).trans (hφ _ _ _)
  split
  · exact hd
  · exact (hφ _ _ _).trans hd

theorem unstick_outside (s : State) (b : Issue) : φ (s.unstick b) = φ s := foldl_outside (fun _ _ => hφ _ _ _) _ _

theorem standBlocked_outside (s : State) (b : Issue) (waits : List Nat) (why : Wait) (ent : Option Nat) (execs : List Nat)
    (unis : List Uni) (word : Option Instr) : φ (s.standBlocked b waits why ent execs unis word) = φ s :=
  (hφ _ _ _).trans (foldl_outside (fun _ _ => hφ _ _ _) _ _)

theorem landLane_outside (s : State) (a : AgentId) (wv : Nat) (e : Entry) (r : LaneRec) : φ (s.landLane a wv e r) = φ s := by
  refine (hφ _ _ _).trans ((hφ _ _ _).trans ?_)
  split
  · exact hφ _ _ _
  · rfl

theorem landList_outside (a : AgentId) (wv : Nat) (l before : List Entry) (s : State) : φ (landList a wv before l s).1 = φ s := by
  induction l generalizing before s with
  | nil => rfl
  | cons e l ih =>
    simp only [landList]
    split <;> exact (ih _ _).trans (foldl_outside (fun s r => landLane_outside hφ s a wv e r) _ _)

theorem landReady_outside (s : State) (a : AgentId) (wv : Nat) : φ (s.landReady a wv) = φ s := by
  simp only [State.landReady]
  cases s.wave? a wv with
  | none => rfl
  | some w => exact (hφ _ _ _).trans (landList_outside hφ a wv _ _ s)

/-- The state in which a word has completed, before what follows it. -/
theorem completed_outside (s : State) (i : Instr) (b : Issue) (n : Nat) (r : Run) :
    φ (((s.retire i b n r).unstick b).landReady b.agent b.wave) = φ s :=
  (landReady_outside hφ _ _ _).trans ((unstick_outside hφ _ _).trans (retire_outside hφ s i b n r))

end

/-! ### Blocked batches -/

/-- The batches of a wave that stand blocked. -/
def State.stuckOf (s : State) (a : AgentId) (wv : Nat) : Option (List Stuck) := (s.wave? a wv).map (·.stuck)

theorem stuckOf_of_team {s : State} {a : AgentId} {t : Team} (h : s.team? a = some t) (wv : Nat) :
    s.stuckOf a wv = some (t.wave wv).stuck := by simp [State.stuckOf, State.wave?, h]

/-- A change of a team that leaves the blocked batches of its waves. -/
theorem stuckOf_updTeam {s : State} {a c : AgentId} {f : Team → Team} {wv : Nat} (ha : ∀ t, (f t).agent = t.agent)
    (hf : ∀ t, ((f t).wave wv).stuck = (t.wave wv).stuck) : (s.updTeam c f).stuckOf a wv = s.stuckOf a wv := by
  simp only [State.stuckOf, State.wave?]
  by_cases h : a = c
  · subst h
    rw [team?_updTeam_same s a f ha]
    cases s.team? a with
    | none => rfl
    | some t => simp [hf]
  · rw [team?_updTeam_ne s c a f ha h]

theorem stuckOf_updFibre {s : State} {a c : AgentId} {w l wv : Nat} {f : Fibre → Fibre} :
    (s.updFibre c w l f).stuckOf a wv = s.stuckOf a wv := stuckOf_updTeam (fun _ => rfl) (fun _ => rfl)

theorem wave_updWave_stuck {t : Team} {w wv : Nat} {f : Wave → Wave} (hf : ∀ v, (f v).stuck = v.stuck) :
    ((t.updWave w f).wave wv).stuck = (t.wave wv).stuck := by
  by_cases h : wv = w
  · subst h
    by_cases hw : wv < 32
    · rw [wave_updWave_same t wv f hw, hf]
    · simp [Team.updWave, Team.wave, vset, vget, hw]
  · rw [wave_updWave_ne t wv w f h]

theorem stuckOf_updWave {s : State} {a c : AgentId} {w wv : Nat} {f : Wave → Wave} (hf : ∀ v, (f v).stuck = v.stuck) :
    (s.updWave c w f).stuckOf a wv = s.stuckOf a wv := stuckOf_updTeam (fun _ => rfl) (fun _ => wave_updWave_stuck hf)

theorem applyUni_stuck (w : Wave) (u : Uni) : (w.applyUni u).stuck = w.stuck := by cases u <;> rfl

theorem foldl_applyUni_stuck (l : List Uni) (w : Wave) : (l.foldl Wave.applyUni w).stuck = w.stuck := by
  induction l generalizing w with
  | nil => rfl
  | cons u l ih => exact (ih _).trans (applyUni_stuck w u)

theorem putAll_stuck (w : Wave) (l : List Opnd) (v : QWord) : (w.putAll l v).stuck = w.stuck := by
  simp only [Wave.putAll]
  generalize l.zipIdx = ps
  induction ps generalizing w with
  | nil => rfl
  | cons p ps ih =>
    obtain ⟨o, j⟩ := p
    refine (ih _).trans ?_
    cases o <;> rfl

theorem stuckOf_landLane {s : State} {a c : AgentId} {w wv : Nat} {e : Entry} {r : LaneRec} :
    (s.landLane c w e r).stuckOf a wv = s.stuckOf a wv := by
  refine (stuckOf_updWave fun v => putAll_stuck v _ _).trans (stuckOf_updFibre.trans ?_)
  split
  · exact stuckOf_updTeam (fun _ => rfl) fun _ => rfl
  · rfl

theorem stuckOf_landList {a c : AgentId} {w wv : Nat} (l before : List Entry) (s : State) :
    (landList c w before l s).1.stuckOf a wv = s.stuckOf a wv := by
  induction l generalizing before s with
  | nil => rfl
  | cons e l ih =>
    simp only [landList]
    split <;> exact (ih _ _).trans (foldl_outside (φ := fun s => s.stuckOf a wv) (fun _ _ => stuckOf_landLane) _ _)

theorem stuckOf_landReady {s : State} {a c : AgentId} {w wv : Nat} : (s.landReady c w).stuckOf a wv = s.stuckOf a wv := by
  simp only [State.landReady]
  cases s.wave? c w with
  | none => rfl
  | some v => exact (stuckOf_updWave fun _ => by rfl).trans (stuckOf_landList _ _ s)

theorem stuckOf_unstick {s : State} {b : Issue} {a : AgentId} {wv : Nat} : (s.unstick b).stuckOf a wv = s.stuckOf a wv :=
  foldl_outside (φ := fun s => s.stuckOf a wv) (fun _ _ => stuckOf_updFibre) _ _

/-- The last change of a wave's blocked batches. -/
theorem stuckOf_updWave_self {s : State} {a : AgentId} {w : Nat} {f : Wave → Wave} {g : List Stuck → List Stuck} (hw : w < 32)
    (hf : ∀ v, (f v).stuck = g v.stuck) : (s.updWave a w f).stuckOf a w = (s.stuckOf a w).map g := by
  cases ht : s.team? a with
  | none =>
    have hn := team?_updTeam_same s a (fun t => t.updWave w f) fun _ => rfl
    simp only [State.stuckOf, State.wave?, State.updWave, hn, ht, Option.map_none]
  | some t =>
    rw [stuckOf_of_team ht, stuckOf_of_team (team?_updWave ht), wave_updWave_same t w f hw, hf, Option.map_some]

/-- A word that completes leaves its own blocked place, and no other (R78). -/
theorem completed_stuck {s : State} {i : Instr} {b : Issue} {n : Nat} {r : Run} (hw : b.wave < 32) :
    (((s.retire i b n r).unstick b).landReady b.agent b.wave).stuckOf b.agent b.wave =
      (s.stuckOf b.agent b.wave).map (·.filter (fun k => !k.isOf b)) := by
  have huni : (s.updWave b.agent b.wave (fun w => r.unis.foldl Wave.applyUni w)).stuckOf b.agent b.wave = s.stuckOf b.agent b.wave :=
    stuckOf_updWave fun v => foldl_applyUni_stuck _ v
  have hdone : ∀ (s : State) (d : LaneDone), (s.laneDone b.agent b.wave d).stuckOf b.agent b.wave = s.stuckOf b.agent b.wave :=
    fun s d => (stuckOf_updWave fun _ => by rfl).trans stuckOf_updFibre
  rw [stuckOf_landReady, stuckOf_unstick, State.retire, stuckOf_updWave_self hw (g := fun l => l.filter (fun k => !k.isOf b)) fun _ => rfl]
  refine congrArg _ ?_
  split
  · rw [foldl_outside (φ := fun s => s.stuckOf b.agent b.wave) hdone, huni]
  · rw [stuckOf_updWave fun _ => by rfl, foldl_outside (φ := fun s => s.stuckOf b.agent b.wave) hdone, huni]

end Sys2Proof.Machine
end

section
/-! Entering a handler by TRAP and SYSC, leaving it by RFT, and the replay queue by RPLY (R209 to R212, R357). -/

namespace Sys2Proof.Machine

/-! ### TRAP and SYSC (R209) -/

theorem level_start {s : State} {b : Issue} {t : Team} {l : Nat} : Does L.level (b.start s t l) (t.levelAt b.wave l) (b.start s t l) :=
  does_level.2 ⟨rfl, rfl⟩

theorem trap_enters {h : Hdr} {code : BitVec 13} {s : State} {b : Issue} {t : Team} {l : Nat} (hs : Solo s b t l h.guard) :
    exec (.trap h code) s = .next (trapAlone s b l 14 0 (code.setWidth 32)) :=
  runWord_solo_trap hs rfl

theorem sysc_enters {h : Hdr} {code : BitVec 13} {s : State} {b : Issue} {t : Team} {l : Nat} (hs : Solo s b t l h.guard)
    (hl : t.levelAt b.wave l ≠ 2) : exec (.sysc h code) s = .next (trapAlone s b l 13 0 (code.setWidth 32)) :=
  runWord_solo_trap hs (stops_step level_start (stops_else hl rfl))

/-- SYSC at level 2 is misplaced (R14). -/
theorem sysc_misplaced {h : Hdr} {code : BitVec 13} {s : State} {b : Issue} {t : Team} {l : Nat} (hs : Solo s b t l h.guard)
    (hl : t.levelAt b.wave l = 2) : exec (.sysc h code) s = .next (trapAlone s b l 0 0x0C 0) :=
  runWord_solo_trap hs (stops_step level_start (stops_then hl rfl))

/-- Settles O31: each word stops with its trap before it has any effect. -/
theorem trapsEnterTheHandler : Obligations.TrapsEnterTheHandler := by
  refine ⟨?_, ?_, ?_⟩
  · intro h code s b t l hs
    exact trap_enters hs
  · intro h code s b t l hs hl
    exact sysc_enters hs hl
  · intro h code s b t l hs hl
    exact sysc_misplaced hs hl

/-! ### RFT: the word (R210) -/

theorem needLevel_reached {n : Nat} {x : LS} (h : n ≤ x.lvl) : Does (L.needLevel n) x () x :=
  does_step (does_level.2 ⟨rfl, rfl⟩) (does_else (Nat.not_lt.2 h) (does_pure.2 ⟨rfl, rfl⟩))

/-- A word of the kernel finds the level it needs, above level 0. -/
theorem needKernel_start {s : State} {b : Issue} {t : Team} {l : Nat} (h : t.levelAt b.wave l ≠ 0) :
    Does (L.needLevel 1) (b.start s t l) () (b.start s t l) := needLevel_reached (Nat.pos_of_ne_zero h)

/-- Only the 32 waves of a team are ever in a handler. -/
theorem wave_lt_of_handler {t : Team} {wv : Nat} {h : HSave} (hh : (t.wave wv).h = some h) : wv < 32 := by
  by_contra hw
  have hd : t.wave wv = default := by simp [Team.wave, vget, hw]
  rw [hd] at hh
  cases hh

/-- RFT of the only lane of a wave in a handler, whose words are performed: its windows close (R210). -/
theorem rft_does {s : State} {b : Issue} {t : Team} {l : Nat} {g : Option Guard} {hs : HSave} (h : Solo s b t l g)
    (hl : t.levelAt b.wave l ≠ 0) (hh : (t.wave b.wave).h = some hs) (hlost : (t.wave b.wave).lost = false)
    (hperf : (t.wave b.wave).unfinished.any (fun e => e.lanes.any (fun r => !r.perf)) = false) :
    Does (do
      L.needLevel 1
      let x ← get
      let w ← L.wave
      if w.h.isNone ∨ w.lost then L.trap 0 0x0C
      if !((← L.team).liveLanes x.wave).all x.execs.contains then L.trap 11 1
      if w.unfinished.any (fun e => e.lanes.any (fun r => !r.perf)) then L.block .rft
      L.modWave Wave.closeWindows) (b.start s t l) () { b.start s t l with st := s.updWave b.agent b.wave Wave.closeWindows } := by
  have hwave : Does L.wave (b.start s t l) (t.wave b.wave) (b.start s t l) := does_wave_of_team (team_start h)
  have hin : ¬ ((t.wave b.wave).h.isNone = true ∨ (t.wave b.wave).lost = true) := by simp [hh, hlost]
  have hall : ¬ (!(t.liveLanes (b.start s t l).wave).all (b.start s t l).execs.contains) = true := by
    rw [show (b.start s t l).wave = b.wave from rfl, h.live]
    simp [Issue.start, Issue.lanes0]
  have hdone : ¬ (t.wave b.wave).unfinished.any (fun e => e.lanes.any (fun r => !r.perf)) = true := by simp [hperf]
  exact does_step (needKernel_start hl) (does_step (does_get.2 ⟨rfl, rfl⟩) (does_step hwave (does_else hin
    (does_step (team_start h) (does_else hall (does_else hdone (does_modWave.2 rfl)))))))

/-- After RFT the wave returns, when a lane has passed the guard and no batch waits at the word any more. -/
theorem afterRft_returns {s0 s : State} {g : Option Guard} {b : Issue} {t : Team} {l : Nat} {ls : List Stuck} (h : Solo s0 b t l g)
    (hk : s.stuckOf b.agent b.wave = some ls) (hgo : ∀ k ∈ ls, k.pc ≠ b.pc) :
    afterRft s0 g b s = (s.returnHandler b.agent b.wave).landReady b.agent b.wave := by
  have hg := h.guard
  simp only [passes, Bool.and_eq_true] at hg
  obtain ⟨⟨-, hpass⟩, -⟩ := hg
  obtain ⟨w, hw, rfl⟩ := Option.map_eq_some_iff.1 hk
  simp only [afterRft, h.team, hw]
  refine if_pos ?_
  simpa [h.lanes, hpass] using hgo

theorem rft_completes {h : Hdr} {s : State} {b : Issue} {t : Team} {l : Nat} {hs : HSave} (hsolo : Solo s b t l h.guard)
    (hl : t.levelAt b.wave l ≠ 0) (hh : (t.wave b.wave).h = some hs) (hlost : (t.wave b.wave).lost = false)
    (hperf : (t.wave b.wave).unfinished.any (fun e => e.lanes.any (fun r => !r.perf)) = false)
    (hmine : ∀ k ∈ (t.wave b.wave).stuck, k.pc = b.pc → l ∈ k.todo ∨ l ∈ k.done) :
    exec (.rft h) s = .next (b.complete (.rft h) s (fun s => (s.returnHandler b.agent b.wave).landReady b.agent b.wave)
      { b.start s t l with st := s.updWave b.agent b.wave Wave.closeWindows }) := by
  refine (runWord_stands hsolo (rft_does hsolo hl hh hlost hperf) rfl rfl).trans ?_
  have hstuck := (completed_stuck (s := s.updWave b.agent b.wave Wave.closeWindows) (i := .rft h) (n := s.tick)
    (r := LS.run { b.start s t l with st := s.updWave b.agent b.wave Wave.closeWindows }) (wave_lt_of_handler hh)).trans
    (congrArg _ ((stuckOf_updWave fun _ => by rfl).trans (stuckOf_of_team hsolo.team _)))
  have hgo : ∀ k ∈ (t.wave b.wave).stuck.filter (fun k => !k.isOf b), k.pc ≠ b.pc := by
    intro k hk hpc
    obtain ⟨hk, hother⟩ := List.mem_filter.1 hk
    simp [Stuck.isOf, hpc, hsolo.lanes] at hother
    exact (hmine k hk hpc).elim hother.1 hother.2
  simp only [Issue.complete]
  rw [afterRft_returns hsolo hstuck hgo]

/-! ### RFT: the return (R357) -/

/-- The entry that a wave goes back to on a return, and what it still keeps of those before it (R358, R359). -/
def Wave.outerOf (w : Wave) (h : HSave) : Option HSave × Option HSave × Option HSave :=
  if w.mc.isSome then (w.mc, w.d1, none)
  else if h.depth = 1 then (w.d1, none, none)
  else (none, w.d1, none)

/-- Whether the wave's handler is that of a word which is complete: TRAP or SYSC. -/
def Wave.stands (w : Wave) : Bool := bits w.tcause.toNat 0 4 = 13 || bits w.tcause.toNat 0 4 = 14

/-- A wave as its return leaves it. -/
def Wave.returned (w : Wave) (h : HSave) : Wave := { w with
  level := h.level
  s := vset (vset (vset (vset w.s 0 (h.ss.getD 0 0)) 1 (h.ss.getD 1 0)) 2 (h.ss.getD 2 0)) 3 (h.ss.getD 3 0)
  tcause := ((w.outerOf h).1.map (·.tcause)).getD w.tcause
  tepc := ((w.outerOf h).1.map (·.tepc)).getD w.tepc
  h := (w.outerOf h).1
  d1 := (w.outerOf h).2.1
  mc := (w.outerOf h).2.2
  unfinished := h.replay
  stuck := []
  due := h.dues }

/-- A fibre's registers as the entry saved them. -/
def Fibre.restored (f : Fibre) (w : Wave) (h : HSave) (l : Nat) : Fibre :=
  match h.gs.find? (·.lane == l) with
  | some k => { f with regs := f.regs.restore (!w.stands) k.g k.bad,
                       shadow := f.shadow.map (fun (r : Regs) => r.restore (!w.stands) k.sg k.sbad) }
  | none => f

/-- A fibre at its saved place. -/
def Fibre.placed (f : Fibre) (h : HSave) (l : Nat) : Fibre :=
  match h.resume.find? (·.lane == l) with
  | some q => { f with pc := q.pc, grp := q.grp, own := q.own }
  | none => { f with own := none }

/-- A fibre as the return of its wave leaves it. -/
def Fibre.returned (f : Fibre) (w : Wave) (h : HSave) (l : Nat) : Fibre :=
  { (f.restored w h l).placed h l with
    pc := if h.batch.contains l then (if w.stands then w.tepc + 8 else w.tepc) else ((f.restored w h l).placed h l).pc
    st := .run
    held := [] }

/-- A team as the return of its wave leaves it. -/
def Team.returned (t : Team) (wv : Nat) (w : Wave) (h : HSave) : Team := { t with
  waves := vset t.waves wv (w.returned h)
  fibres := t.fibres.map (fun x => if x.1 / t.width == wv then (x.1, x.2.returned w h (x.1 % t.width)) else x)
  chki := if h.sBad then t.chki ||| 8 else t.chki }

theorem returnHandler_eq {s : State} {a : AgentId} {wv : Nat} {t : Team} {h : HSave} (ht : s.team? a = some t)
    (hh : (t.wave wv).h = some h) :
    s.returnHandler a wv = { (s.updTeam a (fun t' => t'.returned wv (t.wave wv) h)).pruneOutst a wv with cur := none } := by
  simp only [State.returnHandler, ht, hh]
  rfl

theorem pruneOutst_eq {s : State} {a : AgentId} {wv : Nat} : ∃ o, s.pruneOutst a wv = { s with outst := o } := by
  simp only [State.pruneOutst]
  split
  · exact ⟨s.outst, rfl⟩
  · exact ⟨_, rfl⟩

/-- The return changes the wave's team, and what the package awaits for it. -/
theorem returnHandler_frame {s : State} {a : AgentId} {wv : Nat} {t : Team} {h : HSave} (ht : s.team? a = some t)
    (hh : (t.wave wv).h = some h) :
    (s.returnHandler a wv).team? a = some (t.returned wv (t.wave wv) h) ∧ (s.returnHandler a wv).mem = s.mem ∧
      (s.returnHandler a wv).parts = s.parts := by
  obtain ⟨o, ho⟩ := pruneOutst_eq (s := s.updTeam a (fun t' => t'.returned wv (t.wave wv) h)) (a := a) (wv := wv)
  have hteam := team?_updTeam_same s a (fun t' => t'.returned wv (t.wave wv) h) fun _ => rfl
  rw [returnHandler_eq ht hh, ho]
  exact ⟨hteam.trans (by rw [ht]; rfl), rfl, rfl⟩

/-- s0 to s3 are those of the entry; the others stay. -/
theorem returned_s {w : Wave} {h : HSave} (hlen : h.ss.length = 4) :
    [vget (w.returned h).s 0, vget (w.returned h).s 1, vget (w.returned h).s 2, vget (w.returned h).s 3] = h.ss ∧
      ∀ k, 4 ≤ k → vget (w.returned h).s k = vget w.s k := by
  obtain ⟨x0, x1, x2, x3, hss⟩ : ∃ x0 x1 x2 x3, h.ss = [x0, x1, x2, x3] := by
    match h.ss, hlen with
    | [x0, x1, x2, x3], _ => exact ⟨x0, x1, x2, x3, rfl⟩
  constructor
  · simp [Wave.returned, hss, vget_vset_same, vget_vset_ne]
  · intro k hk
    simp only [Wave.returned]
    rw [vget_vset_ne (by omega), vget_vset_ne (by omega), vget_vset_ne (by omega), vget_vset_ne (by omega)]

theorem restore_f {r : Regs} {all : Bool} {g : List Word} {bad : List Nat} : (r.restore all g bad).f = r.f := by
  unfold Regs.restore
  split <;> rfl

theorem restore_g {r : Regs} {all : Bool} {x0 x1 x2 x3 : Word} {bad : List Nat} :
    vget (r.restore all [x0, x1, x2, x3] bad).g 2 = x2 ∧ vget (r.restore all [x0, x1, x2, x3] bad).g 3 = x3 ∧
      (all = true → vget (r.restore all [x0, x1, x2, x3] bad).g 0 = x0 ∧ vget (r.restore all [x0, x1, x2, x3] bad).g 1 = x1) := by
  cases all <;> simp [Regs.restore, vget_vset_same, vget_vset_ne]

theorem placed_regs {f : Fibre} {h : HSave} {l : Nat} : (f.placed h l).regs = f.regs := by
  unfold Fibre.placed
  split <;> rfl

theorem restored_f {f : Fibre} {w : Wave} {h : HSave} {l : Nat} : (f.restored w h l).regs.f = f.regs.f := by
  unfold Fibre.restored
  split
  · exact restore_f
  · rfl

theorem stands_iff {w : Wave} : w.stands = true ↔ w.tcause.toNat % 16 = 13 ∨ w.tcause.toNat % 16 = 14 := by
  simp [Wave.stands, bits]

theorem returned_regs {f : Fibre} {w : Wave} {h : HSave} {l : Nat} : (f.returned w h l).regs = (f.restored w h l).regs :=
  placed_regs

/-- A lane of the word resumes at TEPC, or after it; another one at its saved place. -/
theorem returned_pc_batch {f : Fibre} {w : Wave} {h : HSave} {l : Nat} (hl : l ∈ h.batch) : (f.returned w h l).pc =
    w.tepc + (if w.tcause.toNat % 16 = 13 ∨ w.tcause.toNat % 16 = 14 then 8 else 0) := by
  simp only [Fibre.returned, List.contains_iff_mem.2 hl, if_true, ← stands_iff]
  split <;> simp

theorem returned_pc_other {f : Fibre} {w : Wave} {h : HSave} {l : Nat} {q : Place} (hl : l ∉ h.batch)
    (hq : h.resume.find? (·.lane == l) = some q) : (f.returned w h l).pc = q.pc := by
  simp [Fibre.returned, hl, Fibre.placed, hq]

/-- g2 and g3 are restored, and g0 and g1 where the word was no TRAP or SYSC. -/
theorem returned_g {f : Fibre} {w : Wave} {h : HSave} {l : Nat} {k : Low4} {x0 x1 x2 x3 : Word}
    (hk : h.gs.find? (·.lane == l) = some k) (hg : k.g = [x0, x1, x2, x3]) :
    vget (f.returned w h l).regs.g 2 = x2 ∧ vget (f.returned w h l).regs.g 3 = x3 ∧
      (w.tcause.toNat % 16 ≠ 13 → w.tcause.toNat % 16 ≠ 14 →
        vget (f.returned w h l).regs.g 0 = x0 ∧ vget (f.returned w h l).regs.g 1 = x1) := by
  obtain ⟨h2, h3, h01⟩ := restore_g (r := f.regs) (all := !w.stands) (x0 := x0) (x1 := x1) (x2 := x2) (x3 := x3) (bad := k.bad)
  rw [returned_regs]
  simp only [Fibre.restored, hk, hg]
  refine ⟨h2, h3, fun h13 h14 => h01 ?_⟩
  rw [Bool.not_eq_true', ← Bool.not_eq_true, stands_iff]
  exact not_or.2 ⟨h13, h14⟩

/-! ### RPLY (R211, R212) -/

/-- What an operation on the replay queue answers. -/
theorem rplyOp_status {q q' : List Entry} {op i st : Nat} {img : Option Entry} {out : List (BitVec 8)}
    (h : rplyOp q op i img = (st, q', out)) : st = 0 ∨ st = 1 ∨ st = 2 ∨ st = 4 := by
  have hst : st = (rplyOp q op i img).1 := by rw [h]
  subst hst
  unfold rplyOp
  split <;> split <;> (try split) <;> (try split) <;> simp

theorem sameInAll_stands {v : Word} {p : L Word} {x y : LS} {u : Unit} (h : Does (L.sameInAll v p) x u y) : y = x := by
  obtain ⟨_, _, hx, h⟩ := does_bind.1 h
  obtain ⟨rfl, rfl⟩ := does_get.1 hx
  exact (does_pure.1 (does_of_test not_does_trap h)).2

/-- The status as RPLY writes it: a reserved bit of the control word counts where the operation has not failed. -/
theorem rply_status {q q' : List Entry} {op i st : Nat} {img : Option Entry} {out : List (BitVec 8)} {ctl : Word}
    (h : rplyOp q op i img = (st, q', out)) :
    (if st ≠ 1 && st ≠ 2 && bits ctl.toNat 6 26 ≠ 0 then 3 else st) = if (st = 0 ∨ st = 4) ∧ 64 ≤ ctl.toNat then 3 else st := by
  have hctl : bits ctl.toNat 6 26 ≠ 0 ↔ 64 ≤ ctl.toNat := by
    have := ctl.isLt
    simp only [bits]
    omega
  have hst := rplyOp_status h
  refine if_congr ?_ rfl rfl
  simp only [Bool.and_eq_true, decide_eq_true_eq, hctl]
  omega

/-- The queue and scratch change where the status is 0. -/
theorem rply_acts {st n : Nat} : (if (st = 0 ∨ st = 4) ∧ 64 ≤ n then 3 else st) = 0 ↔ st = 0 ∧ n < 64 := by
  split <;> omega

/-- What follows a part made under two conditions may go on further. -/
theorem does_further {c d : Prop} [Decidable c] [Decidable d] {p : L Unit} {f g : Unit → L Unit} {x y z : LS}
    (hfg : ∀ u w, Does (f u) w () y → Does (g u) w () z) (h : Does (if c ∧ d then p >>= f else f ()) x () y) :
    Does (if c then if d then p >>= g else g () else g ()) x () z := by
  by_cases hc : c
  · by_cases hd : d
    · rw [if_pos ⟨hc, hd⟩] at h
      obtain ⟨u, w, hp, h⟩ := does_bind.1 h
      rw [if_pos hc, if_pos hd]
      exact does_step hp (hfg u w h)
    · rw [if_neg fun hcd => hd hcd.2] at h
      rw [if_pos hc, if_neg hd]
      exact hfg () x h
  · rw [if_neg fun hcd => hc hcd.1] at h
    rw [if_neg hc]
    exact hfg () x h

/-- The operands of RPLY: the control word and the offset, equal in every lane, and 2,624 aligned bytes of scratch. -/
def L.rplyReads (d a c : Opnd) : L (Word × Word) := do
  L.check 1 [a, c] [d]
  let ctl ← L.rdW a
  L.sameInAll ctl (L.rdW a)
  let off ← L.rdW c
  L.sameInAll off (L.rdW c)
  L.checkScr off.toNat 2624 16
  return (ctl, off)

/-- What RPLY's operation changes where its status is 0: the queue and scratch. -/
def L.rplyChanges (hs : HSave) (off st : Nat) (ctl : Word) (q : List Entry) (out : List (BitVec 8)) : L Unit := do
  if st = 0 ∧ ctl.toNat < 64 then
    L.modWave (fun w => { w with h := some { hs with replay := q } })
    L.modTeam (fun t => t.wrScrBytes off out)

/-- What RPLY's operation does, once for its batch. -/
def L.rplyActs (t : Team) (hs : HSave) (op off st : Nat) (ctl : Word) (q : List Entry) (out : List (BitVec 8)) : L Unit := do
  if (op = 1 ∨ op = 3) ∧ t.scrBad off 2624 then L.chki 4
  L.rplyChanges hs off st ctl q out

theorem keeps_rplyReads {d a c : Opnd} : Keeps (L.rplyReads d a c) :=
  keeps_bind keeps_check fun _ => keeps_bind keeps_rdW fun _ => keeps_bind keeps_sameInAll fun _ => keeps_bind keeps_rdW fun _ =>
    keeps_bind keeps_sameInAll fun _ => keeps_bind keeps_checkScr fun _ => keeps_pure

theorem keeps_rplyActs {t : Team} {hs : HSave} {op off st : Nat} {ctl : Word} {q : List Entry} {out : List (BitVec 8)} :
    Keeps (L.rplyActs t hs op off st ctl q out) :=
  keeps_when keeps_chki fun _ => keeps_test (keeps_bind keeps_modWave fun _ => keeps_modTeam) keeps_pure

/-- RPLY of the only lane of a batch, in a handler, whose operands check. -/
theorem rply_completes {ins : Instr} {h : Hdr} {d a c : Opnd} {s : State} {b : Issue} {t : Team} {l : Nat} {ctl off : Word}
    {hs : HSave} {op i st : Nat} {q : List Entry} {out : List (BitVec 8)} {y y' z : LS} (hsolo : Solo s b t l h.guard)
    (hl : t.levelAt b.wave l ≠ 0) (hh : (t.wave b.wave).h = some hs) (hr : Does (L.rplyReads d a c) (b.start s t l) (ctl, off) y)
    (hop : bits ctl.toNat 4 2 = op) (hi : bits ctl.toNat 0 4 = i)
    (hq : rplyOp hs.replay op i (entryOf (t.scratch.bytes off.toNat 2624) hs.level.toNat (t.liveLanes b.wave)
      (match (generalizing := false) op, hs.replay[i]? with | 1, some e => e.id | _, _ => s.tick) s.nextJob) = (st, q, out))
    (hact : Does (L.rplyActs t hs op off.toNat st ctl q out) y () y')
    (hw : Does (L.wrW d (BitVec.ofNat 32 (if (st = 0 ∨ st = 4) ∧ 64 ≤ ctl.toNat then 3 else st))) y' () z) :
    rplyWord ins h d a c s = .next (b.complete ins s id z) := by
  obtain ⟨hlane, hunis, -⟩ := keeps_rplyReads.of_start hr
  obtain ⟨hlane', hunis'⟩ := keeps_rplyActs.place hact
  obtain ⟨_, y1, hcheck, hr⟩ := does_bind.1 hr
  obtain ⟨_, y2, hctl, hr⟩ := does_bind.1 hr
  obtain ⟨_, y3, hsame, hr⟩ := does_bind.1 hr
  obtain ⟨_, y4, hoff, hr⟩ := does_bind.1 hr
  obtain ⟨_, y5, hsame', hr⟩ := does_bind.1 hr
  obtain ⟨_, y6, hscr, hr⟩ := does_bind.1 hr
  obtain ⟨he, rfl⟩ := does_pure.1 hr
  obtain ⟨rfl, rfl⟩ := Prod.mk.inj he
  have ht : (b.start s t l).st0.team? (b.start s t l).agent = some t := hsolo.team
  have hh' : (t.wave (b.start s t l).wave).h = some hs := hh
  have hhead : ((b.start s t l).execs.head? == some (b.start s t l).lane) = true := beq_self_eq_true (some l)
  refine runWord_writes hsolo hw ?_ (hlane'.trans hlane) (hunis'.trans hunis)
  refine does_next (needKernel_start hl) (does_step (does_get.2 ⟨rfl, rfl⟩) (does_step (does_wave_of_team (team_start hsolo)) ?_))
  simp only [hh', ht, hhead, if_true]
  refine does_next hcheck (does_step hctl (does_next hsame (does_step hoff (does_next hsame' (does_next hscr ?_)))))
  simp only [hop, hi]
  generalize hr : rplyOp _ _ _ _ = r
  obtain rfl : r = (st, q, out) := hr.symm.trans hq
  simp only [rply_status hq]
  refine does_further (f := fun _ => L.rplyChanges hs off.toNat st ctl q out) (fun _ w hdo => ?_) hact
  unfold L.rplyChanges at hdo
  by_cases hst : st = 0 ∧ ctl.toNat < 64
  · rw [if_pos hst] at hdo
    obtain ⟨_, w', hqueue, hscratch⟩ := does_bind.1 hdo
    exact does_then (rply_acts.2 hst) (does_step hqueue (does_next hscratch hw))
  · rw [if_neg hst] at hdo
    obtain ⟨-, rfl⟩ := does_pure.1 hdo
    exact does_else (mt rply_acts.1 hst) hw

/-- Settles O33: RFT closes the windows and the wave returns with what its entry saved; RPLY writes the status of its operation. -/
theorem returnFromHandler : Obligations.ReturnFromHandler := by
  refine ⟨fun h s b t l hs hsolo hl hh hlost hperf hmine => rft_completes hsolo hl hh hlost hperf hmine, ?_, ?_⟩
  · intro s a wv t h ht hwv hh hss
    obtain ⟨hteam, hmem, hparts⟩ := returnHandler_frame ht hh
    have hwave : (t.returned wv (t.wave wv) h).wave wv = (t.wave wv).returned h := vget_vset_same hwv
    obtain ⟨hs4, hsk⟩ := returned_s (w := t.wave wv) hss
    refine ⟨_, hteam, ?_⟩
    rw [hwave]
    refine ⟨rfl, rfl, hs4, hsk, rfl, hmem, hparts, fun x hx hxw => ⟨x.2.returned (t.wave wv) h (x.1 % t.width),
      List.mem_map.2 ⟨x, hx, if_pos (beq_iff_eq.2 hxw)⟩, rfl, ?_,
      returned_pc_batch, fun hl q => returned_pc_other hl, fun k x0 x1 x2 x3 => returned_g⟩⟩
    rw [returned_regs, restored_f]
  · intro w hw h d a c s b t l ctl off hs op i st q out img y y' z hsolo hl hh hr hop hi himg hrply hact hwr
    subst himg
    have hop' : bits ctl.toNat 4 2 = op := hop ▸ by simp [bits]
    have hi' : bits ctl.toNat 0 4 = i := hi ▸ by simp [bits]
    simp only [rplyWords, List.mem_cons, List.not_mem_nil, or_false] at hw
    obtain rfl | rfl | rfl | rfl := hw <;> exact rply_completes hsolo hl hh hr hop' hi' hrply hact hwr

end Sys2Proof.Machine
end

section
/-! The words of translation and faults: TINV, RACK, PARKR and RSUM (R220 to R223). -/

namespace Sys2Proof.Machine

/-- A word that reads, changes the package and then writes D completes with what it has done. -/
theorem runWord_answers {α : Type} {i : Instr} {g : Option Guard} {m : WMode} {after : Issue → State → State} {body : Bool → L Unit}
    {p : L α} {s : State} {b : Issue} {t : Team} {l : Nat} {u : α} {d : Opnd} {v : Word} {y z : LS} {st : State}
    (hs : Solo s b t l g) (hp : Keeps p) (hr : Does p (b.start s t l) u y) (hw : Does (L.wrW d v) { y with st := st } () z)
    (hb : Does (body false) (b.start s t l) () z) : runWord i g m after body s = .next (b.complete i s (after b) z) := by
  obtain ⟨hlane, hunis, -⟩ := hp.of_start hr
  exact runWord_writes hs hw hb hlane hunis

/-- A change of the lane's partition. -/
theorem modPart_does {f : Partition → Partition} {x : LS} {p : Partition} (h : Does L.part x p x) :
    Does (L.modPart f) x () { x with st := x.st.updPart p.id f } := does_step h (does_modSt.2 rfl)

theorem part_stands {x y : LS} {p : Partition} (h : Does L.part x p y) : y = x := (does_part.1 h).2

/-- A change within the lane's team leaves it in its partition. -/
theorem part_updTeam {f : Team → Team} {x : LS} {p : Partition} (ha : ∀ t, (f t).agent = t.agent) (hp : ∀ t, (f t).part = t.part)
    (h : Does L.part x p x) : Does L.part { x with st := x.st.updTeam x.agent f } p { x with st := x.st.updTeam x.agent f } := by
  obtain ⟨⟨t, ht, hpart⟩, -⟩ := does_part.1 h
  refine does_part.2 ⟨⟨f t, ?_, ?_⟩, rfl⟩
  · exact (team?_updTeam_same _ _ _ ha).trans (by rw [ht]; rfl)
  · rw [hp]
    exact hpart

/-! ### TINV (R220) -/

/-- The operands of a word that reads two registers and its partition. -/
theorem keeps_readsTwo {d a c : Opnd} : Keeps (do L.check 1 [a, c] [d]; return (← L.rdW a, ← L.rdW c, ← L.part)) :=
  keeps_bind keeps_check fun _ => keeps_triple keeps_rdW keeps_rdW keeps_part

/-- A word of the kernel that reads two registers and its partition goes on from them. -/
theorem readsTwo_then {d a c : Opnd} {f : Word → Word → Partition → L Unit} {x y : LS} {u v : Word} {p : Partition} (h : 1 ≤ x.lvl)
    (hr : Does (do L.check 1 [a, c] [d]; return (← L.rdW a, ← L.rdW c, ← L.part)) x (u, v, p) y) : (do
      L.needLevel 1
      L.check 1 [a, c] [d]
      let u ← L.rdW a
      let v ← L.rdW c
      let p ← L.part
      f u v p) x = f u v p y := by
  obtain ⟨_, x1, hcheck, hr⟩ := does_bind.1 hr
  obtain ⟨x2, x3, hu, hv, hp⟩ := does_triple hr
  rw [bind_of_does (needLevel_reached h), bind_of_does hcheck, bind_of_does hu, bind_of_does hv, bind_of_does hp]

theorem bits_top (v : Word) : bits v.toNat 31 1 = 1 ↔ v.getLsbD 31 = true := by
  simp [bits, BitVec.getLsbD, Nat.testBit_eq_decide_div_mod_eq]

theorem bits_count (v : Word) : bits v.toNat 0 6 = v.toNat % 64 := by simp [bits]

theorem tinv_drops {h : Hdr} {a c : Opnd} {s : State} {b : Issue} {t : Team} {l va : Nat} {v : Word} {p : Partition} {y : LS}
    (hs : Solo s b t l h.guard) (hl : t.levelAt b.wave l ≠ 0)
    (hr : Does (do L.checkRegs [c]; return (← L.pageAddr 8 a, ← L.rdW c, ← L.part)) (b.start s t l) (va, v, p) y) :
    exec (.tinv h a c) s = .next (b.complete (.tinv h a c) s id { y with
      st := if v.getLsbD 31 then y.st.dropPart p.id
        else (pageRun va (v.toNat % 64 + 1)).foldl (fun s va => s.dropAll p.id (va / 4096)) y.st }) := by
  obtain ⟨_, x, hc, hr⟩ := does_bind.1 hr
  obtain ⟨x1, x2, ha, hv, hp⟩ := does_triple hr
  refine runWord_keeps hs (keeps_bind keeps_needLevel fun _ => keeps_bind keeps_checkRegs fun _ => keeps_bind keeps_pageAddr fun _ =>
    keeps_bind keeps_rdW fun _ => keeps_bind keeps_part fun _ => keeps_test keeps_modSt keeps_modSt)
    (does_next (needKernel_start hl) (does_next hc (does_step ha (does_step hv (does_step hp ?_)))))
  rw [← bits_count]
  by_cases hall : v.getLsbD 31 = true
  · exact does_then ((bits_top v).2 hall) (does_modSt.2 (by rw [if_pos hall]))
  · exact does_else (mt (bits_top v).1 hall) (does_modSt.2 (by rw [if_neg hall]))

/-! ### RACK (R221) -/

theorem rack_full {h : Hdr} {d a c : Opnd} {s : State} {b : Issue} {t : Team} {l : Nat} {u v : Word} {p : Partition} {y z : LS}
    (hs : Solo s b t l h.guard) (hl : t.levelAt b.wave l ≠ 0)
    (hr : Does (do L.check 1 [a, c] [d]; return (← L.rdW a, ← L.rdW c, ← L.part)) (b.start s t l) (u, v, p) y)
    (hv : v ≠ 0xFFFF_FFFF) (hfull : 16 ≤ (p.bindings.filter (·.counter != u.toNat % 2 ^ 12)).length)
    (hw : Does (L.wrW d 1) y () z) : exec (.rack h d a c) s = .next (b.complete (.rack h d a c) s id z) := by
  rw [← bits_counter] at hfull
  exact runWord_answers (st := y.st) hs keeps_readsTwo hr hw ((readsTwo_then (Nat.pos_of_ne_zero hl) hr).trans
    (does_else hv (does_then hfull hw)))

/-- The bindings after RACK: the counter's own ends, and a new one is made unless the schedule is all ones. -/
def rackBinds (p : Partition) (n : Nat) (v : Word) : List Binding :=
  p.bindings.filter (·.counter != n) ++ (if v = 0xFFFF_FFFF then [] else [⟨n, v.toNat, 0, 0⟩])

theorem rack_binds {h : Hdr} {d a c : Opnd} {s : State} {b : Issue} {t : Team} {l : Nat} {u v : Word} {p : Partition} {y z : LS}
    (hs : Solo s b t l h.guard) (hl : t.levelAt b.wave l ≠ 0)
    (hr : Does (do L.check 1 [a, c] [d]; return (← L.rdW a, ← L.rdW c, ← L.part)) (b.start s t l) (u, v, p) y)
    (hroom : v = 0xFFFF_FFFF ∨ (p.bindings.filter (·.counter != u.toNat % 2 ^ 12)).length < 16)
    (hw : Does (L.wrW d 0) { y with st := (y.st.updPart p.id (fun q => { q with bindings := rackBinds p (u.toNat % 2 ^ 12) v })) |>
      (fun s => if p.bindings.any (·.counter == u.toNat % 2 ^ 12) then s.bindingOver p.id (u.toNat % 2 ^ 12) else s) } () z) :
    exec (.rack h d a c) s = .next (b.complete (.rack h d a c) s id z) := by
  refine runWord_answers hs keeps_readsTwo hr hw ((readsTwo_then (Nat.pos_of_ne_zero hl) hr).trans ?_)
  obtain ⟨_, x, -, hr⟩ := does_bind.1 hr
  obtain ⟨x1, x2, -, -, hp⟩ := does_triple hr
  obtain rfl := part_stands hp
  rw [← bits_counter] at hroom hw
  have hend : Does (do
      L.modPart (fun q => { q with bindings := rackBinds p (bits u.toNat 0 12) v })
      if p.bindings.any (·.counter == bits u.toNat 0 12) then L.modSt (·.bindingOver p.id (bits u.toNat 0 12))
      L.wrW d 0) y () z := by
    refine does_next (modPart_does hp) ?_
    by_cases hhad : p.bindings.any (·.counter == bits u.toNat 0 12) = true
    · simp only [hhad, if_true] at hw ⊢
      exact does_next (does_modSt.2 rfl) hw
    · simp only [hhad] at hw ⊢
      exact hw
  by_cases hv : v = 0xFFFF_FFFF
  · rw [rackBinds, if_pos hv, List.append_nil] at hend
    exact does_then hv hend
  · rw [rackBinds, if_neg hv] at hend
    exact does_else hv (does_else (Nat.not_le.2 (hroom.resolve_left hv)) hend)

/-! ### PARKR (R222) -/

theorem wrScr_agent {t : Team} {off n v : Nat} : (t.wrScr off n v).agent = t.agent := by simp only [Team.wrScr]
theorem wrScr_part {t : Team} {off n v : Nat} : (t.wrScr off n v).part = t.part := by simp only [Team.wrScr]

/-- The ticket of a fault record. -/
theorem ticket_bits (v : Nat) : BitVec.ofNat 32 (bits v 64 32) = BitVec.ofNat 32 (v / 2 ^ 64) := by
  simp only [bits, ← BitVec.toNat_inj, BitVec.toNat_ofNat, Nat.mod_mod]

theorem parkr_moves {h : Hdr} {d a : Opnd} {s : State} {b : Issue} {t : Team} {l : Nat} {off : Word} {p : Partition} {y z : LS}
    (hs : Solo s b t l h.guard) (hl : t.levelAt b.wave l ≠ 0)
    (hr : Does (do
      L.checkRegs [d, a]
      let off ← L.rdW a
      L.checkScr off.toNat 32 16
      return (off, ← L.part)) (b.start s t l) (off, p) y) (hcount : p.fltCount ≠ 0)
    (hclean : y.st.poisoned (p.fltq.toNat + 32 * p.fltHead) 32 = false)
    (hw : Does (L.wrW d (BitVec.ofNat 32 (y.st.readP (p.fltq.toNat + 32 * p.fltHead) 32 / 2 ^ 64))) { y with
      st := ((y.st.updTeam b.agent (·.wrScr off.toNat 32 (y.st.readP (p.fltq.toNat + 32 * p.fltHead) 32))).updPart p.id
        (fun p => { p with fltHead := (p.fltHead + 1) % 128, fltCount := p.fltCount - 1 })).enterRecord p.id } () z) :
    exec (.parkr h d a) s = .next (b.complete (.parkr h d a) s id z) := by
  have hk : Keeps (do
      L.checkRegs [d, a]
      let off ← L.rdW a
      L.checkScr off.toNat 32 16
      return (off, ← L.part)) :=
    keeps_bind keeps_checkRegs fun _ => keeps_bind keeps_rdW fun _ => keeps_bind keeps_checkScr fun _ => keeps_bind keeps_part fun _ =>
      keeps_pure
  obtain ⟨-, -, hagent, -⟩ := hk.of_start hr
  refine runWord_answers hs hk hr hw ?_
  obtain ⟨_, x, hc, hr⟩ := does_bind.1 hr
  obtain ⟨_, x1, ha, hr⟩ := does_bind.1 hr
  obtain ⟨_, x2, hscr, hr⟩ := does_bind.1 hr
  obtain ⟨_, x3, hp, hr⟩ := does_bind.1 hr
  obtain ⟨he, rfl⟩ := does_pure.1 hr
  obtain ⟨rfl, rfl⟩ := Prod.mk.inj he
  obtain rfl := part_stands hp
  rw [← hagent] at hw
  have hp' := part_updTeam (f := fun t => t.wrScr off.toNat 32 (y.st.readP (p.fltq.toNat + 32 * p.fltHead) 32)) (fun _ => wrScr_agent)
    (fun _ => wrScr_part) hp
  refine does_next (needKernel_start hl) (does_next hc (does_step ha (does_next hscr (does_step hp (does_else hcount
    (does_step (does_get.2 ⟨rfl, rfl⟩) (does_else (by rw [hclean]; exact Bool.false_ne_true) (does_next (does_modTeam.2 rfl)
      (does_next (modPart_does hp') (does_next (does_modSt.2 rfl) ?_))))))))))
  rw [ticket_bits]
  exact hw

/-! ### RSUM (R223) -/

/-- The action words that RSUM refuses. -/
theorem rsum_refused (v : Word) : 2 ≤ bits v.toNat 0 2 ∨ (bits v.toNat 0 2 = 1 ∧ bits v.toNat 8 8 < 0x10) ∨ bits v.toNat 16 16 ≠ 0 ∨
    bits v.toNat 2 6 ≠ 0 ↔ 2 ≤ v.toNat % 4 ∨ v.toNat % 4 = 1 ∧ v.toNat / 256 % 256 < 16 ∨ 2 ^ 16 ≤ v.toNat ∨ v.toNat / 4 % 64 ≠ 0 := by
  have := v.isLt
  simp only [bits]
  omega

theorem rsum_answers {i : Instr} {h : Hdr} {d a c : Opnd} {s : State} {b : Issue} {t : Team} {l : Nat} {u v : Word}
    {p : Partition} {y : LS} (hs : Solo s b t l h.guard) (hl : t.levelAt b.wave l ≠ 0)
    (hr : Does (do L.check 1 [a, c] [d]; return (← L.rdW a, ← L.rdW c, ← L.part)) (b.start s t l) (u, v, p) y) :
    (∀ z, y.st.ticket? p.id u = none → Does (L.wrW d 1) y () z → rsumWord i h d a c s = .next (b.complete i s id z)) ∧
    (∀ k z, y.st.ticket? p.id u = some k →
      (2 ≤ v.toNat % 4 ∨ v.toNat % 4 = 1 ∧ v.toNat / 256 % 256 < 16 ∨ 2 ^ 16 ≤ v.toNat ∨ v.toNat / 4 % 64 ≠ 0) →
      Does (L.wrW d 2) y () z → rsumWord i h d a c s = .next (b.complete i s id z)) ∧
    (∀ k z, y.st.ticket? p.id u = some k → v.toNat / 4 % 64 = 0 → v.toNat < 2 ^ 16 →
      (v.toNat % 4 = 0 ∨ v.toNat % 4 = 1 ∧ 16 ≤ v.toNat / 256) →
      Does (L.wrW d 0) { y with
        st := if v.toNat % 4 = 0 then y.st.retryParked (u.extractLsb' 21 11) k
          else y.st.failParked (u.extractLsb' 21 11) k (BitVec.ofNat 8 (v.toNat / 256)) } () z →
      rsumWord i h d a c s = .next (b.complete i s id z)) := by
  have hget : Does (get : L LS) y y y := does_get.2 ⟨rfl, rfl⟩
  have hgo := fun f => readsTwo_then (f := f) (Nat.pos_of_ne_zero hl) hr
  refine ⟨fun z hk hw => ?_, fun k z hk hbad hw => ?_, fun k z hk h2 h16 hgood hw => ?_⟩
  · refine runWord_answers (st := y.st) hs keeps_readsTwo hr hw ((hgo _).trans (does_step hget ?_))
    rw [hk]
    exact hw
  · refine runWord_answers (st := y.st) hs keeps_readsTwo hr hw ((hgo _).trans (does_step hget ?_))
    rw [hk]
    exact does_then ((rsum_refused v).2 hbad) hw
  · refine runWord_answers hs keeps_readsTwo hr hw ((hgo _).trans (does_step hget ?_))
    rw [hk]
    refine does_else (mt (rsum_refused v).1 (by omega)) ?_
    have hact : bits v.toNat 0 2 = v.toNat % 4 := by simp [bits]
    have hsub : bits v.toNat 8 8 = v.toNat / 256 := by simp only [bits]; omega
    simp only [hact, hsub]
    by_cases h0 : v.toNat % 4 = 0
    · simp only [h0, if_true] at hw ⊢
      exact does_next (does_modSt.2 rfl) hw
    · simp only [h0, if_false] at hw ⊢
      exact does_next (does_modSt.2 rfl) hw

/-- Settles O37: each word reads its operands and its partition, and then does its one case. -/
theorem translationAndFaultWords : Obligations.TranslationAndFaultWords := by
  refine ⟨?_, ?_, ?_, ?_, ?_⟩
  · intro h a c s b t l va v p y hs hl hr
    exact tinv_drops hs hl hr
  · intro h d a c s b t l u v p y z hs hl hr hv hfull hw
    exact rack_full hs hl hr hv hfull hw
  · intro h d a c s b t l u v p y z hs hl hr hroom hw
    exact rack_binds hs hl hr hroom hw
  · intro h d a s b t l off p y z hs hl hr hcount hclean hw
    exact parkr_moves hs hl hr hcount hclean hw
  · intro f hf h d a c s b t l u v p y hs hl hr
    obtain rfl | rfl := hf
    · exact rsum_answers hs hl hr
    · exact rsum_answers hs hl hr

end Sys2Proof.Machine
end

section
/-! The words of the monitor: FRZ, HALT, CNDL, CMAP and ATST (R226 to R230). -/

namespace Sys2Proof.Machine

/-- A word of the monitor finds level 2. -/
theorem needMonitor_start {s : State} {b : Issue} {t : Team} {l : Nat} (h : t.levelAt b.wave l = 2) :
    Does (L.needLevel 2) (b.start s t l) () (b.start s t l) := needLevel_reached h.ge

/-- The operands of a word that reads one register and its partition. -/
theorem keeps_readsOne {d a : Opnd} : Keeps (do L.check 1 [a] [d]; return (← L.rdW a, ← L.part)) :=
  keeps_bind keeps_check fun _ => keeps_pair keeps_rdW keeps_part

/-! ### FRZ and HALT (R226, R227) -/

/-- The state in which a word stands blocked differs from what it has done in its team alone. -/
theorem blocked_outside {β : Type} {φ : State → β} (hφ : ∀ (s : State) (a : AgentId) (f : Team → Team), φ (s.updTeam a f) = φ s)
    (s : State) (i : Instr) (b : Issue) (n : Nat) (r : Run) (waits : List Nat) (why : Wait) (ent : Option Nat) (execs : List Nat)
    (unis : List Uni) (word : Option Instr) :
    φ (((s.retire i b n r).standBlocked b waits why ent execs unis word).landReady b.agent b.wave) = φ s :=
  (landReady_outside hφ _ _ _).trans ((standBlocked_outside hφ _ _ _ _ _ _ _ _).trans (retire_outside hφ _ _ _ _ _))

/-- FRZ stands at its word, in a package that is frozen and otherwise as it was. -/
theorem frz_freezes {h : Hdr} {s : State} {b : Issue} {t : Team} {l : Nat} (hs : Solo s b t l h.guard) (hl : t.levelAt b.wave l = 2) :
    exec (.frz h) s = .next (b.blocked (.frz h) s l .stop { b.start s t l with st := { s with power := .frozen } }) :=
  runWord_lane_blocks hs (stops_step (needMonitor_start hl) rfl)

/-- What HALT refuses: bits 4:0 or 30:16 of A set, or a core that is not there. -/
theorem halt_accepted {v : Word} {present : Bool} (h5 : v.toNat % 32 = 0) (h16 : v.toNat / 2 ^ 16 % 2 ^ 15 = 0) (hc : present = true) :
    ¬ (bits v.toNat 0 5 ≠ 0 ∨ bits v.toNat 16 15 ≠ 0 ∨ (!present) = true) := by
  rintro (h | h | h)
  · exact h (by simpa [bits] using h5)
  · exact h h16
  · simp [hc] at h

theorem halt_completes {i : Instr} {h : Hdr} {a : Opnd} {s : State} {b : Issue} {t : Team} {l : Nat} {v : Word} {y : LS}
    (hs : Solo s b t l h.guard) (hl : t.levelAt b.wave l ≠ 0) (hr : Does (do L.checkRegs [a]; L.rdW a) (b.start s t l) v y)
    (h5 : v.toNat % 32 = 0) (h16 : v.toNat / 2 ^ 16 % 2 ^ 15 = 0) (hc : y.st.corePresent (v.extractLsb' 5 11) = true) :
    haltWord i h a s = .next (b.complete i s id { y with
      st := y.st.updCore (v.extractLsb' 5 11) (fun k => { k with halted := !v.getLsbD 31 }) }) := by
  obtain ⟨_, x, hcheck, hv⟩ := does_bind.1 hr
  exact runWord_keeps hs (keeps_bind keeps_needLevel fun _ => keeps_bind keeps_checkRegs fun _ => keeps_bind keeps_rdW fun _ =>
      keeps_bind keeps_get fun _ => keeps_when keeps_trap fun _ => keeps_modSt)
    (does_next (needKernel_start hl) (does_next hcheck (does_step hv (does_step (does_get.2 ⟨rfl, rfl⟩)
      (does_else (halt_accepted h5 h16 hc) (does_modSt.2 rfl))))))

/-! ### CNDL (R228) -/

theorem cndl_own {h : Hdr} {d a : Opnd} {s : State} {b : Issue} {t : Team} {l : Nat} {v : Word} {p : Partition} {y z : LS}
    (hs : Solo s b t l h.guard) (hl : t.levelAt b.wave l = 2)
    (hr : Does (do L.check 1 [a] [d]; return (← L.rdW a, ← L.part)) (b.start s t l) (v, p) y)
    (hc : v.extractLsb' 5 11 = coreOf b.agent ∨ y.st.corePresent (v.extractLsb' 5 11) = false) (hw : Does (L.wrW d 3) y () z) :
    exec (.cndl h d a) s = .next (b.complete (.cndl h d a) s id z) := by
  refine runWord_answers (st := y.st) hs keeps_readsOne hr hw ?_
  obtain ⟨-, -, hagent, -⟩ := keeps_readsOne.of_start hr
  obtain ⟨_, x, hcheck, hr⟩ := does_bind.1 hr
  obtain ⟨x1, hv, hp⟩ := does_pair hr
  obtain rfl := part_stands hp
  rw [← hagent] at hc
  exact does_next (needMonitor_start hl) (does_next hcheck (does_step hv (does_step (does_get.2 ⟨rfl, rfl⟩) (does_step hp
    (does_then (hc.imp_right fun hn => by rw [hn]; rfl) hw)))))

theorem cndl_result {h : Hdr} {d a : Opnd} {s : State} {b : Issue} {t : Team} {l r : Nat} {v : Word} {p : Partition} {y z : LS}
    (hs : Solo s b t l h.guard) (hl : t.levelAt b.wave l = 2)
    (hr : Does (do L.check 1 [a] [d]; return (← L.rdW a, ← L.part)) (b.start s t l) (v, p) y)
    (hown : v.extractLsb' 5 11 ≠ coreOf b.agent) (hc : y.st.corePresent (v.extractLsb' 5 11) = true)
    (hcand : (y.st.core (v.extractLsb' 5 11)).candle = some ⟨p.id, b.agent, b.wave, l, some r, false⟩)
    (hw : Does (L.wrW d (BitVec.ofNat 32 r)) { y with
      st := y.st.updCore (v.extractLsb' 5 11) (fun k => { k with candle := none }) } () z) :
    exec (.cndl h d a) s = .next (b.complete (.cndl h d a) s id z) := by
  refine runWord_answers hs keeps_readsOne hr hw ?_
  obtain ⟨hlane, -, hagent, hwave, -⟩ := keeps_readsOne.of_start hr
  obtain ⟨_, x, hcheck, hr⟩ := does_bind.1 hr
  obtain ⟨x1, hv, hp⟩ := does_pair hr
  obtain rfl := part_stands hp
  have hno : ¬ (v.extractLsb' 5 11 = coreOf y.agent ∨ (!y.st.corePresent (v.extractLsb' 5 11)) = true) := by
    simp [hagent, hown, hc]
  refine does_next (needMonitor_start hl) (does_next hcheck (does_step hv (does_step (does_get.2 ⟨rfl, rfl⟩) (does_step hp
    (does_else hno ?_)))))
  simp only [hcand, hlane, hagent, hwave]
  exact does_then rfl (does_next (does_modSt.2 rfl) hw)

/-! ### CMAP (R229) -/

theorem keeps_readsPair {d a c : Opnd} : Keeps (do L.check 1 [a, c] [d]; return (← L.rdW a, ← L.rdW c)) :=
  keeps_bind keeps_check fun _ => keeps_pair keeps_rdW keeps_rdW

/-- A word of the monitor that reads two registers goes on from them. -/
theorem readsPair_then {d a c : Opnd} {f : Word → Word → L Unit} {x y : LS} {u v : Word} (h : 2 ≤ x.lvl)
    (hr : Does (do L.check 1 [a, c] [d]; return (← L.rdW a, ← L.rdW c)) x (u, v) y) : (do
      L.needLevel 2
      L.check 1 [a, c] [d]
      let u ← L.rdW a
      let v ← L.rdW c
      f u v) x = f u v y := by
  obtain ⟨_, x1, hcheck, hr⟩ := does_bind.1 hr
  obtain ⟨x2, hu, hv⟩ := does_pair hr
  rw [bind_of_does (needLevel_reached h), bind_of_does hcheck, bind_of_does hu, bind_of_does hv]

theorem cmap_refused {h : Hdr} {d a c : Opnd} {s : State} {b : Issue} {t : Team} {l : Nat} {u v : Word} {y z : LS}
    (hs : Solo s b t l h.guard) (hl : t.levelAt b.wave l = 2)
    (hr : Does (do L.check 1 [a, c] [d]; return (← L.rdW a, ← L.rdW c)) (b.start s t l) (u, v) y)
    (hbad : y.st.cmapBad u v = true) (hw : Does (L.wrW d 1) y () z) :
    exec (.cmap h d a c) s = .next (b.complete (.cmap h d a c) s id z) := by
  exact runWord_answers (st := y.st) hs keeps_readsPair hr hw ((readsPair_then (ge_of_eq hl) hr).trans
    (does_step (does_get.2 ⟨rfl, rfl⟩) (does_then hbad hw)))

/-- A core without a resident team and without a parked access is one that CMAP edits at once. -/
theorem cmap_ready {s : State} {c : BitVec 11} (hteams : ∀ k ∈ s.allTeams, coreOf k.agent = c → k.resid ≠ .resident)
    (hreplay : (s.core c).replay = []) (hsaved : ∀ k ∈ s.saved, k.core = c → k.replay = []) :
    ¬ (s.allTeams.any (fun t => coreOf t.agent == c && t.resid == .resident) = true ∨ (!(s.core c).replay.isEmpty) = true ∨
      s.saved.any (fun y => y.core == c && !y.replay.isEmpty) = true) := by
  simpa [hreplay] using And.intro hteams hsaved

theorem cmap_edits {h : Hdr} {d a c : Opnd} {s : State} {b : Issue} {t : Team} {l : Nat} {u v : Word} {y z : LS}
    (hs : Solo s b t l h.guard) (hl : t.levelAt b.wave l = 2)
    (hr : Does (do L.check 1 [a, c] [d]; return (← L.rdW a, ← L.rdW c)) (b.start s t l) (u, v) y)
    (hgood : y.st.cmapBad u v = false) (hteams : ∀ k ∈ y.st.allTeams, coreOf k.agent = u.extractLsb' 5 11 → k.resid ≠ .resident)
    (hreplay : (y.st.core (u.extractLsb' 5 11)).replay = []) (hsaved : ∀ k ∈ y.st.saved, k.core = u.extractLsb' 5 11 → k.replay = [])
    (hw : Does (L.wrW d 0) { y with
      st := (if v.getLsbD 31 then y.st.stopCore (coreIndex (u.extractLsb' 5 11)) else y.st).writeMap
        (coreIndex (u.extractLsb' 5 11)) (if v.getLsbD 31 then 0 else BitVec.ofNat 16 (v.toNat / 32 % 2 ^ 11 * 32 + 1)) } () z) :
    exec (.cmap h d a c) s = .next (b.complete (.cmap h d a c) s id z) := by
  refine runWord_answers hs keeps_readsPair hr hw ((readsPair_then (ge_of_eq hl) hr).trans (does_step (does_get.2 ⟨rfl, rfl⟩)
    (does_else (by rw [hgood]; exact Bool.false_ne_true) (does_else (cmap_ready hteams hreplay hsaved) ?_))))
  have hcore : bits v.toNat 5 11 = v.toNat / 32 % 2 ^ 11 := by simp [bits]
  have hbit : bitOf v 31 = v.getLsbD 31 := rfl
  simp only [hcore, hbit]
  by_cases hgone : v.getLsbD 31 = true
  · simp only [hgone, if_true] at hw ⊢
    exact does_next (does_modSt.2 rfl) (does_next (does_modSt.2 rfl) hw)
  · simp only [hgone] at hw ⊢
    exact does_next (does_modSt.2 rfl) hw

/-! ### ATST (R230) -/

@[simp] theorem keeps_loadBytes {va n : Nat} : Keeps (L.loadBytes va n) := by
  induction n generalizing va with
  | zero => exact keeps_pure
  | succ n ih =>
    unfold L.loadBytes
    exact keeps_when keeps_pageTrap fun _ => keeps_bind keeps_load fun _ => keeps_bind ih fun _ => keeps_pure

theorem atst_extends {h : Hdr} {d a c : Opnd} {s : State} {b : Issue} {t : Team} {l : Nat} {i n : Word} {va : Nat}
    {m : List (BitVec 8)} {y z : LS} (hs : Solo s b t l h.guard) (hl : t.levelAt b.wave l = 2)
    (hr : Does (do L.checkRegs [d, c]; return (← L.rdW d, ← L.rdPair a, ← L.rdW c)) (b.start s t l) (i, va, n) y)
    (hi : i.toNat < 16) (h64 : n.toNat % 64 = 0) (hn : n ≠ 0) (hmax : n.toNat ≤ 1048576) (hva : va < 2 ^ 52)
    (hm : Does (L.loadBytes va n.toNat) y m z) :
    exec (.atst h d a c) s = .next (b.complete (.atst h d a c) s id { z with
      st := { z.st with atst := vset z.st.atst i.toNat (extendSlot (vget z.st.atst i.toNat) m) } }) := by
  obtain ⟨_, x, hcheck, hr⟩ := does_bind.1 hr
  obtain ⟨x1, x2, hreadI, hreadVa, hreadN⟩ := does_triple hr
  have hn0 : n.toNat ≠ 0 := fun h0 => hn (BitVec.eq_of_toNat_eq h0)
  have hgood : ¬ (16 ≤ i.toNat ∨ n.toNat % 64 ≠ 0 ∨ n.toNat = 0 ∨ 1048576 < n.toNat) := by omega
  exact runWord_keeps hs (keeps_bind keeps_needLevel fun _ => keeps_bind keeps_checkRegs fun _ => keeps_bind keeps_rdW fun _ =>
      keeps_bind keeps_rdPair fun _ => keeps_bind keeps_rdW fun _ => keeps_when keeps_trap fun _ => keeps_when keeps_pageTrap fun _ =>
      keeps_bind keeps_loadBytes fun _ => keeps_modSt)
    (does_next (needMonitor_start hl) (does_next hcheck (does_step hreadI (does_step hreadVa (does_step hreadN
      (does_else hgood (does_else (Nat.not_le.2 hva) (does_step hm (does_modSt.2 rfl)))))))))

/-- Settles O39: FRZ stands at its word in a frozen package; each other word reads its operands and does its one case. -/
theorem monitorWords : Obligations.MonitorWords := by
  refine ⟨?_, ?_, ?_, ?_, ?_⟩
  · intro h s b t l hs hl
    refine ⟨_, frz_freezes hs hl, ?_, ?_, ?_⟩
    · exact blocked_outside (φ := State.power) (fun _ _ _ => rfl) _ _ _ _ _ _ _ _ _ _ _
    · exact blocked_outside (φ := State.mem) (fun _ _ _ => rfl) _ _ _ _ _ _ _ _ _ _ _
    · exact blocked_outside (φ := State.parts) (fun _ _ _ => rfl) _ _ _ _ _ _ _ _ _ _ _
  · intro f hf h a s b t l v y hs hl hr h5 h16 hc
    obtain rfl | rfl := hf
    · exact halt_completes hs hl hr h5 h16 hc
    · exact halt_completes hs hl hr h5 h16 hc
  · intro h d a s b t l v p y hs hl hr
    exact ⟨fun z hc hw => cndl_own hs hl hr hc hw, fun r z hown hc hcand hw => cndl_result hs hl hr hown hc hcand hw⟩
  · intro h d a c s b t l u v y hs hl hr
    exact ⟨fun z hbad hw => cmap_refused hs hl hr hbad hw,
      fun z hgood hteams hreplay hsaved hw => cmap_edits hs hl hr hgood hteams hreplay hsaved hw⟩
  · intro h d a c s b t l i n va m y z hs hl hr hi h64 hn hmax hva hm
    exact atst_extends hs hl hr hi h64 hn hmax hva hm

end Sys2Proof.Machine
end

section
/-! What the parts of a word that read, check and write its operands leave alone: no switch of a partition comes due, and the places of
blocked batches stay (R36, R98, R245, R364). -/

namespace Sys2Proof.Machine

/-! ### Steps that leave the agenda and the teams -/

/-- A step leaves what is due, and every team. -/
def State.quiet (s s' : State) : Prop := s'.agenda = s.agenda ∧ s'.teams = s.teams

theorem State.quiet.refl (s : State) : s.quiet s := ⟨rfl, rfl⟩

theorem State.quiet.trans {s s' s'' : State} (h : s.quiet s') (h' : s'.quiet s'') : s.quiet s'' :=
  ⟨h'.1.trans h.1, h'.2.trans h.2⟩

theorem foldl_quiet {α : Type} {F : State → α → State} (hF : ∀ (s : State) x, s.quiet (F s x)) (l : List α) (s : State) : s.quiet (l.foldl F s) :=
  ⟨foldl_outside (φ := State.agenda) (fun s x => (hF s x).1) l s, foldl_outside (φ := State.teams) (fun s x => (hF s x).2) l s⟩

theorem quiet_updCore {s : State} {c : BitVec 11} {f : Core → Core} : s.quiet (s.updCore c f) :=
  ⟨updCore_agenda s c f, updCore_teams s c f⟩

theorem quiet_poison {s : State} {pa : Nat} : s.quiet (s.poison pa) := by
  unfold State.poison
  dsimp only
  split <;> exact ⟨rfl, rfl⟩

theorem quiet_poison_foldl {s : State} {l : List Nat} {f : Nat → Nat} : s.quiet (l.foldl (fun s o => s.poison (f o)) s) :=
  foldl_quiet (fun _ _ => quiet_poison) l s

theorem quiet_dropEntry {s : State} {c : BitVec 11} {part vpn : Nat} : s.quiet (s.dropEntry c part vpn) := by
  unfold State.dropEntry
  split
  · exact .refl s
  · dsimp only
    split
    · exact quiet_updCore
    · split <;> exact ⟨updCore_agenda s c _, updCore_teams s c _⟩

theorem quiet_dropStale {s : State} {c : BitVec 11} {part vpn : Nat} {q : QWord} : s.quiet (s.dropStale c part vpn q) := by
  unfold State.dropStale
  split
  · exact quiet_dropEntry
  · exact .refl s

theorem quiet_copyPage {s : State} {src dst : Nat} : s.quiet (s.copyPage src dst) := by
  unfold State.copyPage
  exact State.quiet.trans ⟨rfl, rfl⟩ quiet_poison_foldl

theorem quiet_makeReplica {s : State} {c : BitVec 11} {part vpn src f : Nat} {q : QWord} :
    s.quiet (s.makeReplica c part vpn q src f) := by
  unfold State.makeReplica
  obtain ⟨hagenda, hteams⟩ := quiet_copyPage (s := s) (src := lfFrame q * 4096) (dst := f * 4096)
  dsimp only
  split <;> exact ⟨(updCore_agenda _ _ _).trans hagenda, (updCore_teams _ _ _).trans hteams⟩

theorem quiet_codeReplica {s : State} {p : Partition} {r : Req} {q : QWord} {src : Nat} : s.quiet (codeReplica s p r q src) := by
  unfold codeReplica
  dsimp only
  split
  · exact quiet_updCore
  · split
    · exact quiet_updCore
    · exact quiet_makeReplica

/-- What a resolved access leaves: for one that goes on, what is due and every team. -/
def Res.quiet (s : State) : Res → Prop
  | .ok _ _ s' => s.quiet s'
  | .remote _ s' => s.quiet s'
  | _ => True

theorem Res.quiet.after {s s' : State} {r : Res} (h : s.quiet s') (hr : r.quiet s') : r.quiet s := by
  cases r with
  | ok pa leaf u => exact h.trans hr
  | remote leaf u => exact h.trans hr
  | mmx sub leaf => trivial
  | fault sub lvl gen => trivial
  | stall u => trivial

theorem quiet_placeOf {s : State} {e : TlbEntry} {r : Req} : (placeOf s e r).quiet s := by
  unfold placeOf
  dsimp only
  split
  · exact .refl s
  · split
    · split <;> exact .refl s
    · exact .refl s

theorem quiet_walked {s : State} {p : Partition} {r : Req} {q : QWord} {src : Nat} : (walked s p r q src).quiet s := by
  unfold walked
  dsimp only
  split
  · split <;> trivial
  · refine Res.quiet.after ?_ quiet_placeOf
    split
    · exact quiet_codeReplica
    · exact quiet_updCore

theorem quiet_resolveWalk {s : State} {p : Partition} {r : Req} : (resolveWalk s p r).quiet s := by
  unfold resolveWalk
  split
  · trivial
  · trivial
  · next q src _ =>
    refine Res.quiet.after (s' := s.dropStale r.core r.part (r.va / 4096) q) quiet_dropStale ?_
    dsimp only
    split
    · trivial
    · split
      · trivial
      · exact quiet_walked

theorem quiet_resolve {s : State} {p : Partition} {r : Req} : (resolve s p r).quiet s := by
  unfold resolve
  split
  · trivial
  · split
    · exact quiet_resolveWalk
    · split
      · trivial
      · dsimp only
        split
        · trivial
        · split
          · split
            · exact quiet_walked
            · exact quiet_resolveWalk
          · split
            · exact Res.quiet.after quiet_codeReplica quiet_placeOf
            · exact quiet_placeOf

theorem quiet_redHomeAdd {s : State} {q : QWord} {off : Nat} {v : Word} {bad : Bool} : s.quiet (s.redHomeAdd q off v bad) := by
  unfold State.redHomeAdd
  dsimp only
  split
  · exact State.quiet.trans ⟨rfl, rfl⟩ quiet_poison
  · exact ⟨rfl, rfl⟩

theorem quiet_redAdd {s : State} {p : Partition} {vpn off n lvl : Nat} {q : QWord} {c : BitVec 11} {v : Word} {bad : Bool} :
    s.quiet (s.redAdd p vpn q c off v n lvl bad) := by
  induction n generalizing lvl with
  | zero => exact quiet_redHomeAdd
  | succ n ih =>
    unfold State.redAdd
    split
    · exact quiet_redHomeAdd
    · split
      · exact ⟨rfl, rfl⟩
      · split
        · exact ih
        · exact ⟨rfl, rfl⟩

theorem quiet_release {s : State} {part x : Nat} {c : BitVec 11} : s.quiet (s.release part c x) := by
  unfold State.release
  split
  · exact .refl s
  · refine foldl_quiet (fun s lvl => foldl_quiet (fun s i => ?_) _ s) _ s
    split
    · split
      · exact State.quiet.trans ⟨rfl, rfl⟩ (foldl_quiet (fun _ _ => quiet_redAdd) _ _)
      · exact .refl s
    · exact .refl s

/-! ### Steps that make no switch due -/

/-- A step makes no switch of a partition due, and leaves the places of blocked batches. -/
def State.calm (s s' : State) : Prop :=
  (∀ p m, .switchTo p m ∈ s'.agenda → .switchTo p m ∈ s.agenda) ∧ ∀ a wv, s'.stuckOf a wv = s.stuckOf a wv

theorem State.calm.refl (s : State) : s.calm s := ⟨fun _ _ h => h, fun _ _ => rfl⟩

theorem State.calm.trans {s s' s'' : State} (h : s.calm s') (h' : s'.calm s'') : s.calm s'' :=
  ⟨fun p m hm => h.1 p m (h'.1 p m hm), fun a wv => (h'.2 a wv).trans (h.2 a wv)⟩

theorem State.quiet.calm {s s' : State} (h : s.quiet s') : s.calm s' := by
  obtain ⟨hagenda, hteams⟩ := h
  refine ⟨fun p m hm => hagenda ▸ hm, fun a wv => ?_⟩
  simp only [State.stuckOf, State.wave?, State.team?, hteams]

theorem foldl_calm {α : Type} {F : State → α → State} (hF : ∀ (s : State) x, s.calm (F s x)) (l : List α) (s : State) : s.calm (l.foldl F s) := by
  induction l generalizing s with
  | nil => exact .refl s
  | cons x l ih => exact (hF s x).trans (ih _)

theorem calm_push {s : State} {e : Event} (he : ∀ p m, e ≠ .switchTo p m) : s.calm (s.push e) := by
  refine ⟨fun p m hm => ?_, fun a wv => rfl⟩
  obtain hm | hm := List.mem_append.1 hm
  · exact hm
  · exact absurd (List.mem_singleton.1 hm).symm (he p m)

theorem calm_updTeam {s : State} {a : AgentId} {f : Team → Team} (ha : ∀ t, (f t).agent = t.agent)
    (hf : ∀ t wv, ((f t).wave wv).stuck = (t.wave wv).stuck) : s.calm (s.updTeam a f) :=
  ⟨fun _ _ h => h, fun _ wv => stuckOf_updTeam ha fun t => hf t wv⟩

theorem calm_updFibre {s : State} {a : AgentId} {w l : Nat} {f : Fibre → Fibre} : s.calm (s.updFibre a w l f) :=
  ⟨fun _ _ h => h, fun _ _ => stuckOf_updFibre⟩

theorem quiet_putFlit {s : State} {n : Nat} {f : Flit} : s.quiet (s.putFlit n f) := by
  unfold State.putFlit
  split <;> exact ⟨rfl, rfl⟩

theorem calm_flushPort {s : State} {pn n : Nat} : s.calm (s.flushPort pn n) := by
  induction n generalizing s with
  | zero => exact .refl s
  | succ n ih =>
    unfold State.flushPort
    split
    · exact .refl s
    · split
      · exact .refl s
      · split
        · exact (State.quiet.trans (s' := s.updPort pn _) ⟨rfl, rfl⟩ quiet_putFlit).calm.trans ih
        · split
          · exact calm_push fun _ _ => nofun
          · exact .refl s

theorem calm_sendFlit {s : State} {pn : Nat} {f : Flit} : s.calm (s.sendFlit pn f) :=
  State.calm.trans (State.quiet.calm ⟨rfl, rfl⟩) calm_flushPort

theorem calm_sendPaths {s : State} {dest : BitVec 12} {mk : Nat → Nat → List (BitVec 8) → Flit} {fs : List (List (BitVec 8))} :
    s.calm (s.sendPaths dest mk fs) := by
  unfold State.sendPaths
  refine State.calm.trans (foldl_calm (fun s x => ?_) _ s) (State.quiet.calm ⟨rfl, rfl⟩)
  split
  · exact calm_sendFlit
  · exact .refl s

theorem calm_sendRequest {s : State} {dest : BitVec 12} {r : RemoteReq} : s.calm (s.sendRequest dest r) := by
  unfold State.sendRequest
  split
  · exact calm_push fun _ _ => nofun
  · exact State.calm.trans (s' := s.onPath _ _ _ _) (calm_updTeam (fun _ => rfl) fun _ _ => rfl) calm_sendPaths

/-! ### Parts of a lane's word -/

/-- A part of a lane's word makes no switch due, and leaves the places of blocked batches. -/
def Calm {α : Type} (p : L α) : Prop := ∀ x v y, Does p x v y → x.st.calm y.st

theorem calm_pure {α : Type} {v : α} : Calm (pure v : L α) := by
  intro x u y h
  obtain ⟨-, rfl⟩ := does_pure.1 h
  exact .refl _

theorem calm_bind {α β : Type} {p : L α} {f : α → L β} (hp : Calm p) (hf : ∀ u, Calm (f u)) : Calm (p >>= f) := by
  intro x v z h
  obtain ⟨u, y, h1, h2⟩ := does_bind.1 h
  exact (hp _ _ _ h1).trans (hf u _ _ _ h2)

theorem calm_map {α β : Type} {p : L α} {f : α → β} (hp : Calm p) : Calm (f <$> p) := by
  rw [map_eq_pure_bind]
  exact calm_bind hp fun _ => calm_pure

theorem calm_test {α : Type} {c : Prop} [Decidable c] {p q : L α} (hp : Calm p) (hq : Calm q) : Calm (if c then p else q) := by
  split
  · exact hp
  · exact hq

theorem calm_when {α : Type} {c : Prop} [Decidable c] {p : L Unit} {f : Unit → L α} (hp : Calm p) (hf : ∀ u, Calm (f u)) :
    Calm (if c then p >>= f else f ()) := calm_test (calm_bind hp hf) (hf ())

theorem calm_stop {α : Type} {e : Stop} : Calm (L.stop e : L α) := fun _ _ _ h => absurd h not_does_stop
theorem calm_trap {α : Type} {c : BitVec 4} {sub : BitVec 8} {a : Nat} {w : Word} : Calm (L.trap c sub a w : L α) :=
  fun _ _ _ h => absurd h not_does_trap
theorem calm_block {α : Type} {w : Wait} : Calm (L.block w : L α) := fun _ _ _ h => absurd h not_does_block
theorem calm_blockWith {α : Type} {w : Wait} {f : State → State} : Calm (L.blockWith w f : L α) :=
  fun _ _ _ h => absurd h not_does_blockWith

theorem calm_get : Calm (get : L LS) := by
  intro x v y h
  obtain ⟨-, rfl⟩ := does_get.1 h
  exact .refl _
theorem calm_team : Calm L.team := by
  intro x v y h
  obtain ⟨-, rfl⟩ := does_team.1 h
  exact .refl _
theorem calm_fibre : Calm L.fibre := by
  intro x v y h
  obtain ⟨-, rfl⟩ := does_fibre.1 h
  exact .refl _
theorem calm_part : Calm L.part := by
  intro x v y h
  obtain rfl := part_stands h
  exact .refl _
theorem calm_wave : Calm L.wave := calm_bind calm_team fun _ => calm_bind calm_get fun _ => calm_pure
theorem calm_level : Calm L.level := calm_bind calm_get fun _ => calm_pure

theorem calm_modSt {f : State → State} (hf : ∀ s : State, s.calm (f s)) : Calm (L.modSt f) := by
  intro x v y h
  rw [does_modSt.1 h]
  exact hf _
theorem calm_modTeam {f : Team → Team} (ha : ∀ t, (f t).agent = t.agent) (hf : ∀ t wv, ((f t).wave wv).stuck = (t.wave wv).stuck) :
    Calm (L.modTeam f) := by
  intro x v y h
  rw [does_modTeam.1 h]
  exact calm_updTeam ha hf
theorem calm_modFibre {f : Fibre → Fibre} : Calm (L.modFibre f) := by
  intro x v y h
  rw [does_modFibre.1 h]
  exact calm_updFibre
theorem calm_chki {b : Word} : Calm (L.chki b) := calm_test calm_pure (calm_modTeam (fun _ => rfl) fun _ _ => rfl)

/-! ### Registers and scratch -/

theorem calm_landed {o : Opnd} : Calm (L.landed o) := by
  intro x v y h
  rw [(does_landed.1 h).2]
  exact .refl _
theorem calm_checkG {n : Nat} : Calm (L.checkG n) := calm_bind calm_team fun _ => calm_test calm_trap calm_pure
theorem calm_checkF {n : Nat} : Calm (L.checkF n) := calm_bind calm_team fun _ => calm_test calm_trap calm_pure
theorem calm_rdG {n : Nat} : Calm (L.rdG n) := calm_bind calm_checkG fun _ => calm_bind calm_landed fun _ => calm_bind calm_fibre fun _ =>
  calm_when calm_chki fun _ => calm_pure
theorem calm_wrG {n : Nat} {v : Word} : Calm (L.wrG n v) :=
  calm_bind calm_checkG fun _ => calm_bind calm_landed fun _ => calm_modFibre
theorem calm_rdF {n : Nat} : Calm (L.rdF n) := calm_bind calm_checkF fun _ => calm_bind calm_landed fun _ => calm_bind calm_fibre fun _ =>
  calm_when calm_chki fun _ => calm_pure
theorem calm_rdI {n : Nat} : Calm (L.rdI n) := calm_bind calm_landed fun _ => calm_bind calm_fibre fun _ => calm_pure
theorem calm_wrI {n : Nat} {v : Word} : Calm (L.wrI n v) := calm_bind calm_landed fun _ => calm_modFibre
theorem calm_rdS {n : Nat} : Calm (L.rdS n) := calm_bind calm_landed fun _ => calm_bind calm_wave fun _ => calm_pure
theorem calm_uni {u : Uni} : Calm (L.uni u) := by
  intro x v y h
  rw [uni_holds h]
  exact .refl _
theorem calm_idxReg {r : BitVec 2} {k : BitVec 6} : Calm (L.idxReg r k) :=
  calm_bind calm_rdI fun _ => calm_bind calm_team fun _ => calm_when calm_trap fun _ => calm_pure
theorem calm_wrScr {off n v : Nat} : Calm (L.modTeam (·.wrScr off n v)) :=
  calm_modTeam (fun _ => wrScr_agent) fun t wv => by simp only [Team.wrScr, Team.wave]
theorem calm_loadScr {off n : Nat} : Calm (L.loadScr off n) :=
  calm_bind calm_team fun _ => calm_when calm_chki fun _ => calm_pure

/-! ### Global memory and other packages -/

theorem calm_walkFault {α : Type} {va lvl acc : Nat} {sub : BitVec 8} {gen : BitVec 16} : Calm (L.walkFault va sub lvl gen acc : L α) :=
  calm_bind calm_part fun _ => calm_bind calm_get fun _ => calm_bind calm_level fun _ => calm_test calm_stop calm_trap

/-- A new state in the place of the lane's. -/
theorem calm_setSt_then {α : Type} {s' : State} {q : L α} {x y : LS} {v : α} (hq : Calm q) (h : Does (do L.setSt s'; q) x v y) :
    s'.calm y.st := by
  obtain ⟨_, x', hset, h⟩ := does_bind.1 h
  rw [does_setSt] at hset
  subst hset
  exact hq _ _ _ h

theorem calm_locate {k : AK} {ea n : Nat} : Calm (L.locate k ea n) := by
  intro x v z h
  obtain ⟨x', x1, hx, h1⟩ := does_bind.1 h
  obtain ⟨hx', hx1⟩ := does_get.1 hx
  obtain ⟨p, x2, hp, h2⟩ := does_bind.1 h1
  have hx2 := part_stands hp
  subst hx' hx1 hx2
  have hres := quiet_resolve (s := x2.st) (p := p) (r := ⟨coreOf x2.agent, x2.agent, p.id, x2.lvl, k, ea, n, x2.job.isNone⟩)
  dsimp only at h2
  revert h2 hres
  generalize resolve _ _ _ = r
  intro h2 hres
  cases r with
  | ok pa leaf s => exact hres.calm.trans (calm_setSt_then calm_pure h2)
  | remote leaf s => exact hres.calm.trans (calm_setSt_then calm_pure h2)
  | mmx sub leaf => exact absurd h2 not_does_trap
  | fault sub lvl gen => exact calm_walkFault _ _ _ h2
  | stall s => exact absurd h2 not_does_blockWith

theorem calm_asked {ea : Nat} : Calm (L.asked ea) := calm_bind calm_get fun _ => calm_bind calm_part fun _ => calm_pure

theorem calm_undelivered : Calm L.undelivered :=
  calm_bind calm_get fun _ => calm_bind calm_team fun _ => calm_test calm_pure (calm_bind calm_fibre fun _ => calm_pure)

theorem calm_awaitWrites {scope : Nat} : Calm (L.awaitWrites scope) :=
  calm_bind calm_undelivered fun _ => calm_test calm_block calm_pure

theorem calm_release {scope : Nat} : Calm (L.release scope) := by
  intro x v z h
  obtain ⟨_, y, hawait, h1⟩ := does_bind.1 h
  obtain ⟨y', y1, hy, h2⟩ := does_bind.1 h1
  obtain ⟨hy', hy1⟩ := does_get.1 hy
  obtain ⟨p, y2, hp, h3⟩ := does_bind.1 h2
  have hy2 := part_stands hp
  subst hy' hy1 hy2
  rw [does_setSt.1 h3]
  exact (calm_awaitWrites _ _ _ hawait).trans quiet_release.calm

theorem calm_remoteCallP {ea acc : Nat} {leaf : QWord} {op : RemoteOp} {first : State → State} {busy : Wait} :
    Calm (L.remoteCallP ea acc leaf op first busy) := by
  refine calm_bind calm_get fun x => calm_bind calm_part fun p => calm_bind calm_level fun _ => calm_bind calm_asked fun o => ?_
  cases o with
  | none => exact calm_blockWith
  | some o =>
    dsimp only
    cases o.resp with
    | none => exact calm_block
    | some r =>
      refine calm_bind (calm_modSt fun s => State.quiet.calm ⟨rfl, rfl⟩) fun _ => ?_
      split
      · exact calm_when calm_blockWith fun _ => calm_when calm_chki fun _ => calm_pure
      · exact calm_trap
      · exact calm_walkFault
      · exact calm_trap

theorem calm_remoteCall {ea acc : Nat} {leaf : QWord} {op : RemoteOp} {first : State → State} :
    Calm (L.remoteCall ea acc leaf op first) := calm_bind calm_remoteCallP fun _ => calm_pure

theorem quiet_newMid {s : State} : s.quiet s.newMid.2 := ⟨rfl, rfl⟩

theorem quiet_sent {s : State} {l : List SentMsg} : s.quiet { s with sent := l } := ⟨rfl, rfl⟩

theorem calm_remoteStore {ea : Nat} {acc : BitVec 8} {leaf : QWord} {op : RemoteOp} : Calm (L.remoteStore ea acc leaf op) := by
  intro x v z h
  obtain ⟨x', x1, hx, h1⟩ := does_bind.1 h
  obtain ⟨hx', hx1⟩ := does_get.1 hx
  obtain ⟨p, x2, hp, h2⟩ := does_bind.1 h1
  have hx2 := part_stands hp
  obtain ⟨t, x3, ht, h3⟩ := does_bind.1 h2
  obtain ⟨-, hx3⟩ := does_team.1 ht
  obtain ⟨n, x4, hlvl, h4⟩ := does_bind.1 h3
  obtain ⟨-, hx4⟩ := does_level.1 hlvl
  subst hx' hx1 hx2 hx3 hx4
  exact (quiet_newMid.calm.trans (calm_sendRequest.trans quiet_sent.calm)).trans (calm_setSt_then calm_modFibre h4)

/-! ### Channels -/

theorem calm_chan {n : Nat} {push : Bool} : Calm (L.chan n push) :=
  calm_bind calm_team fun _ => calm_when calm_trap fun _ => calm_when calm_trap fun _ => calm_pure

theorem calm_coming {va : Nat} : Calm (L.coming va) := calm_bind calm_get fun _ => calm_bind calm_part fun _ => calm_pure

theorem calm_ringRd {scratch push : Bool} {a : Nat} {busy : Wait} : Calm (L.ringRd scratch push a busy) := by
  refine calm_test (calm_bind calm_team fun _ => calm_bind calm_loadScr fun _ => calm_pure) (calm_bind calm_locate fun r => ?_)
  obtain ⟨pa, leaf⟩ := r
  cases pa with
  | some pa => exact calm_bind calm_get fun _ => calm_when calm_chki fun _ => calm_pure
  | none => exact calm_bind calm_coming fun _ => calm_when calm_block fun _ => calm_remoteCallP

theorem calm_ringWr {scratch push bad : Bool} {a v : Nat} : Calm (L.ringWr scratch push a v bad) := by
  refine calm_test calm_wrScr (calm_bind calm_locate fun r => ?_)
  obtain ⟨pa, leaf⟩ := r
  cases pa with
  | some pa =>
    refine calm_modSt fun s => State.quiet.calm ?_
    split
    · exact State.quiet.trans ⟨rfl, rfl⟩ quiet_poison
    · exact ⟨rfl, rfl⟩
  | none => exact calm_remoteStore

theorem calm_abroad {c : Chan} {push : Bool} : Calm (L.abroad c push) :=
  calm_test calm_pure (calm_bind calm_locate fun _ => calm_pure)

theorem calm_ring {c : Chan} {push : Bool} : Calm (L.ring c push) := by
  refine calm_test calm_pure (calm_bind calm_abroad fun o => ?_)
  cases o with
  | some leaf => exact calm_bind calm_remoteCall fun _ => calm_pure
  | none => exact calm_bind calm_ringRd fun _ => calm_bind calm_ringRd fun _ => calm_bind calm_ringRd fun _ => calm_pure

theorem calm_blockChan {α : Type} {ch : Nat} {c : Chan} : Calm (L.blockChan ch c : L α) :=
  calm_bind calm_asked fun _ => calm_blockWith

theorem calm_ringSet {n : Nat} {c : Chan} {push : Bool} {r : L.Ring} : Calm (L.ringSet n c push r) :=
  calm_test (calm_modTeam (fun _ => rfl) fun _ _ => rfl)
    (calm_bind calm_ringWr fun _ => calm_bind calm_ringWr fun _ => calm_ringWr)

theorem calm_ringRds {scratch push : Bool} {a n : Nat} {busy : Wait} : Calm (L.ringRds scratch push a busy n) := by
  induction n generalizing a with
  | zero => exact calm_pure
  | succ n ih => exact calm_bind calm_ringRd fun _ => calm_bind ih fun _ => calm_pure

theorem calm_ringWrs {scratch push : Bool} {a v n : Nat} {bad : List Nat} : Calm (L.ringWrs scratch push a v bad n) := by
  induction n generalizing a v bad with
  | zero => exact calm_pure
  | succ n ih => exact calm_bind calm_ringWr fun _ => ih

theorem calm_slotTaken {c : Chan} {r : L.Ring} : Calm (L.slotTaken c r) :=
  calm_test (calm_bind calm_part fun _ => calm_modSt fun _ => State.quiet.calm ⟨rfl, rfl⟩) calm_pure

theorem calm_chanPop {ch n : Nat} {peek : Bool} : Calm (L.chanPop ch peek n) := by
  refine calm_bind calm_chan fun c => calm_when calm_trap fun _ => calm_bind calm_abroad fun o => ?_
  cases o with
  | some leaf => exact calm_bind calm_remoteCallP fun _ => calm_pure
  | none =>
    exact calm_bind calm_ring fun _ => calm_when calm_block fun _ => calm_bind calm_ringRds fun _ =>
      calm_test (calm_bind calm_slotTaken fun _ => calm_bind calm_ringSet fun _ => calm_pure) calm_pure

theorem calm_chanPush {ch v n : Nat} : Calm (L.chanPush ch v n) := by
  refine calm_bind calm_chan fun c => calm_when calm_trap fun _ => calm_bind calm_abroad fun o => ?_
  cases o with
  | some leaf =>
    exact calm_bind calm_asked fun _ => calm_when calm_awaitWrites fun _ => calm_bind calm_get fun _ => calm_bind calm_part fun _ =>
      calm_map calm_remoteCallP
  | none =>
    exact calm_bind calm_ring fun _ => calm_when calm_block fun _ => calm_test
      (calm_bind calm_locate fun _ => calm_bind calm_release fun _ => calm_bind calm_ringWrs fun _ => calm_ringSet)
      (calm_bind calm_ringWrs fun _ => calm_ringSet)

/-! ### Operands -/

theorem calm_checkReg {o : Opnd} : Calm (L.checkReg o) := by
  cases o with
  | g n => exact calm_checkG
  | f n => exact calm_checkF
  | idx r k => exact calm_map calm_idxReg
  | _ => exact calm_pure

theorem calm_checkRegs {l : List Opnd} : Calm (L.checkRegs l) := by
  induction l with
  | nil => exact calm_pure
  | cons o l ih => exact calm_bind calm_checkReg fun _ => ih

theorem calm_checkChans {n : Nat} {all l : List Opnd} : Calm (L.checkChans n all l) := by
  induction l with
  | nil => exact calm_pure
  | cons o l ih =>
    cases o with
    | chan ch pk =>
      exact calm_bind calm_chan fun _ => calm_when calm_trap fun _ => calm_bind calm_ring fun _ => calm_bind ih fun _ =>
        calm_test calm_blockChan calm_pure
    | _ => exact ih

theorem calm_check {n : Nat} {srcs dst : List Opnd} : Calm (L.check n srcs dst) := by
  refine calm_bind calm_checkRegs fun _ => ?_
  split
  · exact calm_bind calm_chan fun _ => calm_when calm_trap fun _ => calm_bind calm_checkChans fun _ => calm_bind calm_ring fun _ =>
      calm_test calm_blockChan calm_pure
  · exact calm_checkChans

theorem calm_rdW {o : Opnd} : Calm (L.rdW o) := by
  cases o with
  | g n => exact calm_rdG
  | f n => exact calm_bind calm_rdF fun _ => calm_pure
  | a n => exact calm_bind calm_wave fun _ => calm_bind calm_get fun _ => calm_pure
  | s n => exact calm_rdS
  | i n => exact calm_rdI
  | lid => exact calm_bind calm_get fun _ => calm_pure
  | idx r k => exact calm_bind calm_idxReg fun _ => calm_rdG
  | chan c pk => exact calm_bind calm_chanPop fun _ => calm_pure
  | _ => exact calm_pure

theorem calm_wrW {o : Opnd} {v : Word} : Calm (L.wrW o v) := by
  cases o with
  | g n => exact calm_wrG
  | s n => exact calm_uni (u := .s n v)
  | i n => exact calm_wrI
  | idx r k => exact calm_bind calm_idxReg fun _ => calm_wrG
  | chan c pk => exact calm_chanPush
  | _ => exact calm_pure

theorem calm_sameInAll {v : Word} {p : L Word} : Calm (L.sameInAll v p) := by
  intro x u y h
  rw [sameInAll_stands h]
  exact .refl _

end Sys2Proof.Machine
end

section
/-! The words of swaps and switches: SWPO, SWPI and PREM (R224, R225, R364). -/

namespace Sys2Proof.Machine

/-! ### SWPO and SWPI (R224) -/

/-- A word that writes D and then changes the package completes with both. -/
theorem runWord_writes_then {α : Type} {i : Instr} {g : Option Guard} {m : WMode} {after : Issue → State → State} {body : Bool → L Unit}
    {p : L α} {s : State} {b : Issue} {t : Team} {l : Nat} {u : α} {d : Opnd} {v : Word} {y z : LS} {st : State}
    (hs : Solo s b t l g) (hp : Keeps p) (hr : Does p (b.start s t l) u y) (hw : Does (L.wrW d v) y () z)
    (hb : Does (body false) (b.start s t l) () { z with st := st }) :
    runWord i g m after body s = .next (b.complete i s (after b) { z with st := st }) := by
  obtain ⟨hlane, hunis, -⟩ := hp.of_start hr
  obtain ⟨hz, -⟩ := wrW_keeps hw
  exact runWord_solo hs hb (hz.trans hlane) (show unisAgree z.unis = true from wrW_agrees hunis hw)

/-- A word of the kernel that reads a register and its partition goes on from them. -/
theorem readsOne_then {d a : Opnd} {f : Word → Partition → L Unit} {x y : LS} {v : Word} {p : Partition} (h : 1 ≤ x.lvl)
    (hr : Does (do L.check 1 [a] [d]; return (← L.rdW a, ← L.part)) x (v, p) y) : (do
      L.needLevel 1
      L.check 1 [a] [d]
      let v ← L.rdW a
      let p ← L.part
      f v p) x = f v p y := by
  obtain ⟨_, x1, hcheck, hr⟩ := does_bind.1 hr
  obtain ⟨x2, hv, hp⟩ := does_pair hr
  rw [bind_of_does (needLevel_reached h), bind_of_does hcheck, bind_of_does hv, bind_of_does hp]

theorem swpo_answers {h : Hdr} {d a : Opnd} {s : State} {b : Issue} {t : Team} {l : Nat} {v : Word} {p : Partition} {y : LS}
    (hs : Solo s b t l h.guard) (hl : t.levelAt b.wave l ≠ 0)
    (hr : Does (do L.check 1 [a] [d]; return (← L.rdW a, ← L.part)) (b.start s t l) (v, p) y) :
    (∀ z, y.st.partTeam? p.id (v.extractLsb' 0 16) = none → Does (L.wrW d 1) y () z →
      exec (.swpo h d a) s = .next (b.complete (.swpo h d a) s id z)) ∧
    (∀ g z, y.st.partTeam? p.id (v.extractLsb' 0 16) = some g → g.resid ≠ .resident → Does (L.wrW d 2) y () z →
      exec (.swpo h d a) s = .next (b.complete (.swpo h d a) s id z)) ∧
    (∀ g z, y.st.partTeam? p.id (v.extractLsb' 0 16) = some g → g.resid = .resident →
      y.st.stopsIn (v.extractLsb' 0 16) p.id = true → Does (L.wrW d 0) y () z →
      exec (.swpo h d a) s = .next (b.complete (.swpo h d a) s id { z with
        st := z.st.inCtx (coreOf (v.extractLsb' 0 16)) p.id
          (fun s => s.swapOut (v.extractLsb' 0 16) .swappedBySwpo (fun _ => true)) })) ∧
    (∀ g, y.st.partTeam? p.id (v.extractLsb' 0 16) = some g → g.resid = .resident →
      y.st.stopsIn (v.extractLsb' 0 16) p.id = false →
      exec (.swpo h d a) s = .next (b.blocked (.swpo h d a) s l .drain (b.start s t l))) := by
  have hgo := fun f => readsOne_then (f := f) (Nat.pos_of_ne_zero hl) hr
  have hget : Does (get : L LS) y y y := does_get.2 ⟨rfl, rfl⟩
  refine ⟨fun z hteam hw => ?_, fun g z hteam hres hw => ?_, fun g z hteam hres hstop hw => ?_, fun g hteam hres hstop => ?_⟩
  · refine runWord_answers (st := y.st) hs keeps_readsOne hr hw ((hgo _).trans (does_step hget ?_))
    rw [hteam]
    exact hw
  · refine runWord_answers (st := y.st) hs keeps_readsOne hr hw ((hgo _).trans (does_step hget ?_))
    rw [hteam]
    exact does_then hres hw
  · refine runWord_writes_then hs keeps_readsOne hr hw ((hgo _).trans (does_step hget ?_))
    rw [hteam]
    exact does_else (not_not_intro hres) (does_step hget (does_else (by simp [hstop]) (does_next hw (does_modSt.2 rfl))))
  · obtain ⟨st, effs, hy⟩ := keeps_readsOne.shape hr
    refine runWord_lane_blocks hs ((hgo _).trans (stops_step hget ?_)) (e := effs)
    rw [hteam]
    refine stops_else (not_not_intro hres) (stops_step hget (stops_then (by simp [hstop]) ?_))
    rw [hy]
    rfl

theorem swpi_answers {h : Hdr} {d a : Opnd} {s : State} {b : Issue} {t : Team} {l : Nat} {v : Word} {p : Partition} {y : LS}
    (hs : Solo s b t l h.guard) (hl : t.levelAt b.wave l ≠ 0)
    (hr : Does (do L.check 1 [a] [d]; return (← L.rdW a, ← L.part)) (b.start s t l) (v, p) y) :
    (∀ z, (∀ g, y.st.partTeam? p.id (v.extractLsb' 0 16) = some g → g.resid ≠ .swappedBySwpo) → Does (L.wrW d 1) y () z →
      exec (.swpi h d a) s = .next (b.complete (.swpi h d a) s id z)) ∧
    (∀ g s' z, y.st.partTeam? p.id (v.extractLsb' 0 16) = some g → g.resid = .swappedBySwpo →
      s' = y.st.inCtx (coreOf (v.extractLsb' 0 16)) p.id (fun s => (s.swapIn (v.extractLsb' 0 16)).getD s) →
      (s'.partTeam? p.id (v.extractLsb' 0 16)).map (·.resid) = some .resident → Does (L.wrW d 0) { y with st := s' } () z →
      exec (.swpi h d a) s = .next (b.complete (.swpi h d a) s id z)) ∧
    (∀ g s' z, y.st.partTeam? p.id (v.extractLsb' 0 16) = some g → g.resid = .swappedBySwpo →
      s' = y.st.inCtx (coreOf (v.extractLsb' 0 16)) p.id (fun s => (s.swapIn (v.extractLsb' 0 16)).getD s) →
      (s'.partTeam? p.id (v.extractLsb' 0 16)).map (·.resid) ≠ some .resident → Does (L.wrW d 2) y () z →
      exec (.swpi h d a) s = .next (b.complete (.swpi h d a) s id z)) := by
  have hgo := fun f => readsOne_then (f := f) (Nat.pos_of_ne_zero hl) hr
  have hget : Does (get : L LS) y y y := does_get.2 ⟨rfl, rfl⟩
  refine ⟨fun z hnone hw => ?_, fun g s' z hteam hres hs' hin hw => ?_, fun g s' z hteam hres hs' hout hw => ?_⟩
  · refine runWord_answers (st := y.st) hs keeps_readsOne hr hw ((hgo _).trans (does_step hget ?_))
    dsimp only
    cases hteam : y.st.partTeam? p.id (v.extractLsb' 0 16) with
    | none => exact hw
    | some g => exact does_then (hnone g hteam) hw
  · subst hs'
    refine runWord_answers hs keeps_readsOne hr hw ((hgo _).trans (does_step hget ?_))
    rw [hteam]
    exact does_else (not_not_intro hres) (does_then hin (does_next (does_setSt.2 rfl) hw))
  · subst hs'
    refine runWord_answers (st := y.st) hs keeps_readsOne hr hw ((hgo _).trans (does_step hget ?_))
    rw [hteam]
    exact does_else (not_not_intro hres) (does_else hout hw)

/-! ### PREM: after its lanes (R225) -/

/-- The switches of partitions that are due. -/
def switchesDue (l : List Event) : List (Nat × Nat) := l.filterMap (fun e => match e with | .switchTo p m => some (p, m) | _ => none)

/-- The events that are no switch of a partition. -/
def otherDue (l : List Event) : List Event := l.filter (fun e => match e with | .switchTo _ _ => false | _ => true)

theorem afterPrem_eq {b : Issue} {s : State} :
    afterPrem b s = (switchesDue s.agenda).foldl (fun s x => s.switchDies x.1 x.2) { s with agenda := otherDue s.agenda } := rfl

theorem switchesDue_nil {l : List Event} (h : ∀ p m, .switchTo p m ∉ l) : switchesDue l = [] := by
  refine List.filterMap_eq_nil_iff.2 fun e he => ?_
  cases e with
  | switchTo p m => exact absurd he (h p m)
  | _ => rfl

theorem otherDue_self {l : List Event} (h : ∀ p m, .switchTo p m ∉ l) : otherDue l = l := by
  refine List.filter_eq_self.2 fun e he => ?_
  cases e with
  | switchTo p m => exact absurd he (h p m)
  | _ => rfl

/-- With no switch due, nothing follows the lanes of PREM. -/
theorem afterPrem_idle {b : Issue} {s : State} (h : ∀ p m, .switchTo p m ∉ s.agenda) : afterPrem b s = s := by
  rw [afterPrem_eq, switchesDue_nil h, otherDue_self h]
  rfl

/-- PREM's lanes leave no switch due where none is when they complete. -/
theorem complete_idle {b : Issue} {i : Instr} {s : State} {z : LS} (h : ∀ p m, .switchTo p m ∉ z.st.agenda) :
    b.complete i s (afterPrem b) z = b.complete i s id z := by
  have hagenda := completed_outside (φ := State.agenda) (fun _ _ _ => rfl) z.st i b s.tick z.run
  simp only [Issue.complete]
  rw [afterPrem_idle (by rw [hagenda]; exact h)]
  rfl

/-- A word of one lane stands blocked, and then what follows its lanes comes. -/
theorem runWord_lane_blocks_after {i : Instr} {g : Option Guard} {m : WMode} {after : Issue → State → State} {body : Bool → L Unit}
    {s : State} {b : Issue} {t : Team} {l : Nat} {why : Wait} {y : LS} {e : List Eff} (h : Solo s b t l g)
    (hb : body false (b.start s t l) = .error (.block why y.st y.st e)) (hafter : after b (((y.st.retire i b s.tick
      (Run.start y.st [] [])).standBlocked b [l] why none [l] [] (some i)).landReady b.agent b.wave) = ((y.st.retire i b s.tick
      (Run.start y.st [] [])).standBlocked b [l] why none [l] [] (some i)).landReady b.agent b.wave) :
    runWord i g m after body s = .next (b.blocked i s l why y) := by
  rw [Issue.blocked, ← hafter, runWord_one h, runLane_block (runPair_turn_stops h hb)]
  cases m <;> simp [finishWord, Run.start, uniFault, Run.allTraps, Run.waits, Run.kept, h.todo, h.batch_alone, retire_none]

/-! ### PREM: its lanes (R225, R364) -/

/-- PREM's operands: the partition and the mask, equal in every lane. -/
def L.premReads (d a c : Opnd) : L (Word × Word) := do
  L.check 1 [a, c] [d]
  let u ← L.rdW a
  L.sameInAll u (L.rdW a)
  let v ← L.rdW c
  L.sameInAll v (L.rdW c)
  return (u, v)

theorem keeps_premReads {d a c : Opnd} : Keeps (L.premReads d a c) :=
  keeps_bind keeps_check fun _ => keeps_bind keeps_rdW fun _ => keeps_bind keeps_sameInAll fun _ => keeps_bind keeps_rdW fun _ =>
    keeps_bind keeps_sameInAll fun _ => keeps_pure

theorem calm_premReads {d a c : Opnd} : Calm (L.premReads d a c) :=
  calm_bind calm_check fun _ => calm_bind calm_rdW fun _ => calm_bind calm_sameInAll fun _ => calm_bind calm_rdW fun _ =>
    calm_bind calm_sameInAll fun _ => calm_pure

/-- What a lane of PREM does with its operands: the carrying lane halts the cores of the mask, waits for their engines' stops, and
makes the switch due; every lane takes the status. -/
def L.premActs (d : Opnd) (u v : Word) : L Unit := do
  let x ← get
  let st := premStatus x.st u.toNat v.toNat
  if st = 0 && x.execs.head? == some x.lane then
    let begun := (← L.wave).stuck.any (fun k => k.pc == x.pc && k.why == .stop)
    let cores := (x.st.coresOf v.toNat).map x.st.core
    if !begun then
      if cores.any (·.switching) then L.block .drain
      let s' := x.clean.haltFor v.toNat
      if (s'.coresOf v.toNat).any (fun c => !(s'.core c).awaiting.isEmpty) then
        L.blockWith .stop (fun s => (s.haltFor v.toNat).push (.switchDue u.toNat v.toNat x.agent x.wave))
      L.modSt (·.haltFor v.toNat)
    else if cores.any (fun k => !k.awaiting.isEmpty) then L.block .stop
    L.modSt (fun s => (s.switchTaken x.agent x.wave).push (.switchTo u.toNat v.toNat))
  L.wrW d (BitVec.ofNat 32 st)

/-- A word of the kernel that reads as PREM does goes on from its operands. -/
theorem premReads_then {d a c : Opnd} {f : Word → Word → L Unit} {x y : LS} {u v : Word} (h : 1 ≤ x.lvl)
    (hr : Does (L.premReads d a c) x (u, v) y) : (do
      L.needLevel 1
      L.check 1 [a, c] [d]
      let u ← L.rdW a
      L.sameInAll u (L.rdW a)
      let v ← L.rdW c
      L.sameInAll v (L.rdW c)
      f u v) x = f u v y := by
  obtain ⟨_, x1, hcheck, hr1⟩ := does_bind.1 hr
  obtain ⟨_, x2, hu, hr2⟩ := does_bind.1 hr1
  obtain ⟨_, x3, hsame, hr3⟩ := does_bind.1 hr2
  obtain ⟨_, x4, hv, hr4⟩ := does_bind.1 hr3
  obtain ⟨_, x5, hsame', hr5⟩ := does_bind.1 hr4
  obtain ⟨he, rfl⟩ := does_pure.1 hr5
  obtain ⟨rfl, rfl⟩ := Prod.mk.inj he
  rw [bind_of_does (needLevel_reached h), bind_of_does hcheck, bind_of_does hu, bind_of_does hsame, bind_of_does hv, bind_of_does hsame']

theorem prem_status {s : State} {u v : Word} : premStatus s u.toNat v.toNat =
    if 16 ≤ u.toNat ∨ s.part? u.toNat = none then 1 else if v = 0 ∨ 256 ≤ v.toNat then 2 else 0 := by
  have hv : v.toNat = 0 ↔ v = 0 := by
    rw [← BitVec.toNat_inj]
    rfl
  simp [premStatus, hv]

/-- The switch of an existing partition, by a mask of dies. -/
theorem prem_status_zero {s : State} {u v : Word} (hu : u.toNat < 16) (hp : s.part? u.toNat ≠ none) (hv : v ≠ 0) (hv8 : v.toNat < 256) :
    premStatus s u.toNat v.toNat = 0 := by
  rw [prem_status, if_neg (not_or.2 ⟨Nat.not_le.2 hu, hp⟩), if_neg (not_or.2 ⟨hv, Nat.not_le.2 hv8⟩)]

/-- The wave of a lane, by its blocked batches. -/
theorem wave_of_stuck {x : LS} {ls : List Stuck} (h : x.st.stuckOf x.agent x.wave = some ls) : ∃ w, Does L.wave x w x ∧ w.stuck = ls := by
  obtain ⟨w, hw, hls⟩ := Option.map_eq_some_iff.1 h
  obtain ⟨t, ht, rfl⟩ := Option.map_eq_some_iff.1 hw
  exact ⟨_, does_wave.2 ⟨⟨t, ht, rfl⟩, rfl⟩, hls⟩

theorem premActs_refuses {d : Opnd} {u v k : Word} {y z : LS} (hst : BitVec.ofNat 32 (premStatus y.st u.toNat v.toNat) = k) (hk : k ≠ 0)
    (hw : Does (L.wrW d k) y () z) : Does (L.premActs d u v) y () z := by
  have hst0 : premStatus y.st u.toNat v.toNat ≠ 0 := fun h0 => hk (hst ▸ h0 ▸ rfl)
  subst hst
  exact does_step (does_get.2 ⟨rfl, rfl⟩) (does_else (by simp [hst0]) hw)

/-- The carrying lane of PREM that has not begun: no batch stands at the word, the cores of the mask are not switching. -/
structure PremFresh (y : LS) (ls : List Stuck) (v : Word) : Prop where
  head : y.execs = [y.lane]
  stuck : y.st.stuckOf y.agent y.wave = some ls
  clear : ∀ k ∈ ls, k.pc ≠ y.pc
  ready : ∀ k ∈ y.st.coresOf v.toNat, (y.st.core k).switching = false

theorem premActs_switches {d : Opnd} {u v : Word} {y z : LS} {ls : List Stuck} (hst : premStatus y.st u.toNat v.toNat = 0)
    (hy : PremFresh y ls v) (hidle : ∀ k ∈ (y.clean.haltFor v.toNat).coresOf v.toNat, ((y.clean.haltFor v.toNat).core k).awaiting = [])
    (hw : Does (L.wrW d 0) { y with st := ((y.st.haltFor v.toNat).switchTaken y.agent y.wave).push (.switchTo u.toNat v.toNat) } () z) :
    Does (L.premActs d u v) y () z := by
  obtain ⟨hhead, hstuck, hclear, hready⟩ := hy
  obtain ⟨w, hwave, rfl⟩ := wave_of_stuck hstuck
  refine does_step (does_get.2 ⟨rfl, rfl⟩) (does_then (by simp [hst, hhead]) (does_step hwave ?_))
  refine does_then (by simpa using fun k hk hpc => absurd hpc (hclear k hk)) (does_else (by simpa using hready)
    (does_else (by simpa using hidle) (does_next (does_modSt.2 rfl) (does_next (does_modSt.2 rfl) ?_))))
  rw [hst]
  exact hw

theorem premActs_halts {d : Opnd} {u v : Word} {y : LS} {ls : List Stuck} (hst : premStatus y.st u.toNat v.toNat = 0)
    (hy : PremFresh y ls v) (hbusy : ∃ k ∈ (y.clean.haltFor v.toNat).coresOf v.toNat, ((y.clean.haltFor v.toNat).core k).awaiting ≠ []) :
    L.premActs d u v y = .error (.block .stop ((y.clean.haltFor v.toNat).push (.switchDue u.toNat v.toNat y.agent y.wave))
      ((y.base.haltFor v.toNat).push (.switchDue u.toNat v.toNat y.agent y.wave)) y.effs) := by
  obtain ⟨hhead, hstuck, hclear, hready⟩ := hy
  obtain ⟨w, hwave, rfl⟩ := wave_of_stuck hstuck
  refine stops_step (does_get.2 ⟨rfl, rfl⟩) (stops_then (by simp [hst, hhead]) (stops_step hwave ?_))
  exact stops_then (by simpa using fun k hk hpc => absurd hpc (hclear k hk)) (stops_else (by simpa using hready)
    (stops_then (by simpa using hbusy) rfl))

theorem premActs_goes_on {d : Opnd} {u v : Word} {y z : LS} {w : Wave} (hst : premStatus y.st u.toNat v.toNat = 0)
    (hhead : y.execs = [y.lane]) (hwave : y.st.wave? y.agent y.wave = some w) (hbegun : ∃ k ∈ w.stuck, k.pc = y.pc ∧ k.why = .stop)
    (hidle : ∀ k ∈ y.st.coresOf v.toNat, (y.st.core k).awaiting = [])
    (hw : Does (L.wrW d 0) { y with st := (y.st.switchTaken y.agent y.wave).push (.switchTo u.toNat v.toNat) } () z) :
    Does (L.premActs d u v) y () z := by
  obtain ⟨t, ht, rfl⟩ := Option.map_eq_some_iff.1 hwave
  refine does_step (does_get.2 ⟨rfl, rfl⟩) (does_then (by simp [hst, hhead]) (does_step (does_wave.2 ⟨⟨t, ht, rfl⟩, rfl⟩) ?_))
  refine does_else (by simpa using hbegun) (does_else (by simpa using hidle) (does_next (does_modSt.2 rfl) ?_))
  rw [hst]
  exact hw

/-- What PREM's reads leave of the lane's start, and of the package. -/
theorem premReads_leaves {d a c : Opnd} {s : State} {b : Issue} {t : Team} {l : Nat} {g : Option Guard} {r : Word × Word} {y : LS}
    (hs : Solo s b t l g) (hr : Does (L.premReads d a c) (b.start s t l) r y) :
    y.execs = [y.lane] ∧ y.pc = b.pc ∧ y.agent = b.agent ∧ y.wave = b.wave ∧ y.clean = s ∧ y.base = s ∧ s.calm y.st ∧
      y.st.stuckOf b.agent b.wave = some (t.wave b.wave).stuck := by
  have hcalm : s.calm y.st := calm_premReads _ _ _ hr
  have hstuck := (hcalm.2 b.agent b.wave).trans (stuckOf_of_team hs.team _)
  obtain ⟨st, effs, rfl⟩ := keeps_premReads.shape hr
  exact ⟨rfl, rfl, rfl, rfl, rfl, rfl, hcalm, hstuck⟩

/-- The lanes of PREM that complete. -/
theorem prem_completes {h : Hdr} {d a c : Opnd} {s : State} {b : Issue} {t : Team} {l : Nat} {u v k : Word} {y z : LS} {st : State}
    (hs : Solo s b t l h.guard) (hl : t.levelAt b.wave l ≠ 0) (hr : Does (L.premReads d a c) (b.start s t l) (u, v) y)
    (hw : Does (L.wrW d k) { y with st := st } () z) (hact : Does (L.premActs d u v) y () z) :
    exec (.prem h d a c) s = .next (b.complete (.prem h d a c) s (afterPrem b) z) :=
  runWord_answers hs keeps_premReads hr hw ((premReads_then (f := L.premActs d) (Nat.pos_of_ne_zero hl) hr).trans hact)

theorem prem_refuses {h : Hdr} {d a c : Opnd} {s : State} {b : Issue} {t : Team} {l : Nat} {u v k : Word} {y z : LS}
    (hs : Solo s b t l h.guard) (hl : t.levelAt b.wave l ≠ 0) (hr : Does (L.premReads d a c) (b.start s t l) (u, v) y)
    (hst : BitVec.ofNat 32 (premStatus y.st u.toNat v.toNat) = k) (hk : k ≠ 0)
    (hidle : ∀ e ∈ s.agenda, ∀ p m, e ≠ .switchTo p m) (hw : Does (L.wrW d k) y () z) :
    exec (.prem h d a c) s = .next (b.complete (.prem h d a c) s id z) := by
  have hz : s.calm z.st := State.calm.trans (calm_premReads _ _ _ hr) (calm_wrW _ _ _ hw)
  rw [prem_completes (st := y.st) hs hl hr hw (premActs_refuses hst hk hw),
    complete_idle fun p m hm => hidle _ (hz.1 p m hm) p m rfl]

theorem prem_switches {h : Hdr} {d a c : Opnd} {s : State} {b : Issue} {t : Team} {l : Nat} {u v : Word} {y z : LS}
    (hs : Solo s b t l h.guard) (hl : t.levelAt b.wave l ≠ 0) (hr : Does (L.premReads d a c) (b.start s t l) (u, v) y)
    (hst : premStatus y.st u.toNat v.toNat = 0) (hclear : ∀ k ∈ (t.wave b.wave).stuck, k.pc ≠ b.pc)
    (hready : ∀ k ∈ y.st.coresOf v.toNat, (y.st.core k).switching = false)
    (hidle : ∀ k ∈ (s.haltFor v.toNat).coresOf v.toNat, ((s.haltFor v.toNat).core k).awaiting = [])
    (hw : Does (L.wrW d 0) { y with
      st := ((y.st.haltFor v.toNat).switchTaken b.agent b.wave).push (.switchTo u.toNat v.toNat) } () z) :
    exec (.prem h d a c) s = .next (b.complete (.prem h d a c) s (afterPrem b) z) := by
  obtain ⟨hhead, hpc, hagent, hwave, hclean, -, -, hstuck⟩ := premReads_leaves hs hr
  have hfresh : PremFresh y (t.wave b.wave).stuck v := ⟨hhead, by rw [hagent, hwave, hstuck], by rw [hpc]; exact hclear, hready⟩
  rw [← hclean] at hidle
  rw [← hagent, ← hwave] at hw
  exact prem_completes hs hl hr hw (premActs_switches hst hfresh hidle hw)

theorem prem_halts {h : Hdr} {d a c : Opnd} {s : State} {b : Issue} {t : Team} {l : Nat} {u v : Word} {y : LS}
    (hs : Solo s b t l h.guard) (hl : t.levelAt b.wave l ≠ 0) (hr : Does (L.premReads d a c) (b.start s t l) (u, v) y)
    (hst : premStatus y.st u.toNat v.toNat = 0) (hclear : ∀ k ∈ (t.wave b.wave).stuck, k.pc ≠ b.pc)
    (hidle : ∀ e ∈ s.agenda, ∀ p m, e ≠ .switchTo p m) (hready : ∀ k ∈ y.st.coresOf v.toNat, (y.st.core k).switching = false)
    (hbusy : ∃ k ∈ (s.haltFor v.toNat).coresOf v.toNat, ((s.haltFor v.toNat).core k).awaiting ≠ []) :
    exec (.prem h d a c) s = .next (b.blocked (.prem h d a c) s l .stop { b.start s t l with
      st := (s.haltFor v.toNat).push (.switchDue u.toNat v.toNat b.agent b.wave) }) := by
  obtain ⟨hhead, hpc, hagent, hwave, hclean, hbase, -, hstuck⟩ := premReads_leaves hs hr
  have hfresh : PremFresh y (t.wave b.wave).stuck v := ⟨hhead, by rw [hagent, hwave, hstuck], by rw [hpc]; exact hclear, hready⟩
  have hstops := premActs_halts (d := d) hst hfresh (by rw [hclean]; exact hbusy)
  rw [hclean, hbase, hagent, hwave] at hstops
  refine runWord_lane_blocks_after hs ((premReads_then (f := L.premActs d) (Nat.pos_of_ne_zero hl) hr).trans hstops)
    (afterPrem_idle fun p m hm => ?_)
  rw [blocked_outside (φ := State.agenda) fun _ _ _ => rfl] at hm
  obtain ⟨hagenda, -⟩ : s.quiet (s.haltFor v.toNat) := foldl_quiet (fun _ _ => quiet_updCore) _ _
  obtain hm | hm := List.mem_append.1 hm
  · rw [hagenda] at hm
    exact hidle _ hm p m rfl
  · cases List.mem_singleton.1 hm

theorem prem_goes_on {h : Hdr} {d a c : Opnd} {s : State} {b : Issue} {t : Team} {l : Nat} {u v : Word} {w : Wave} {y z : LS}
    (hs : Solo s b t l h.guard) (hl : t.levelAt b.wave l ≠ 0) (hr : Does (L.premReads d a c) (b.start s t l) (u, v) y)
    (hst : premStatus y.st u.toNat v.toNat = 0) (hwave : y.st.wave? b.agent b.wave = some w)
    (hbegun : ∃ k ∈ w.stuck, k.pc = b.pc ∧ k.why = .stop) (hidle : ∀ k ∈ y.st.coresOf v.toNat, (y.st.core k).awaiting = [])
    (hw : Does (L.wrW d 0) { y with st := (y.st.switchTaken b.agent b.wave).push (.switchTo u.toNat v.toNat) } () z) :
    exec (.prem h d a c) s = .next (b.complete (.prem h d a c) s (afterPrem b) z) := by
  obtain ⟨hhead, hpc, hagent, hwave', -⟩ := premReads_leaves hs hr
  rw [← hpc] at hbegun
  rw [← hagent, ← hwave'] at hw hwave
  exact prem_completes hs hl hr hw (premActs_goes_on hst hhead hwave hbegun hidle hw)

/-- The status as the word writes it. -/
theorem prem_status_word {s : State} {u v : Word} : BitVec.ofNat 32 (premStatus s u.toNat v.toNat) =
    if 16 ≤ u.toNat ∨ s.part? u.toNat = none then 1 else if v = 0 ∨ 256 ≤ v.toNat then 2 else 0 := by
  rw [prem_status]
  split
  · rfl
  · split <;> rfl

/-- Settles O38: SWPO, SWPI and PREM read their operands and do their one case; the reads make no switch due, so that only the
carrying lane of PREM does. -/
theorem swapAndSwitchWords : Obligations.SwapAndSwitchWords := by
  refine ⟨?_, ?_, ?_⟩
  · intro h d a s b t l v p y hs hl hr
    exact swpo_answers hs hl hr
  · intro h d a s b t l v p y hs hl hr
    exact swpi_answers hs hl hr
  · intro h d a c s b t l u v y hs hl hr
    refine ⟨fun k z hk hk0 hidle hw => ?_, fun z hu hp hv hv8 hclear hready hidle hw => ?_,
      fun hu hp hv hv8 hclear hidle hready hbusy => ?_, fun z hu hp hv hv8 hbegun hidle hw => ?_⟩
    · exact prem_refuses hs hl hr (prem_status_word.trans hk.symm) hk0 hidle hw
    · exact prem_switches hs hl hr (prem_status_zero hu hp hv hv8) hclear hready hidle hw
    · exact prem_halts hs hl hr (prem_status_zero hu hp hv hv8) hclear hidle hready hbusy
    · obtain ⟨w, hwave, hbegun⟩ := hbegun
      exact prem_goes_on hs hl hr (prem_status_zero hu hp hv hv8) hwave hbegun hidle hw

end Sys2Proof.Machine
end

section
/-! Launches and cancels: LNCH and CANC, and what a cancel leaves of launches, rings and teams (R215 to R218, R325). -/

namespace Sys2Proof.Machine

/-! ### LNCH (R215 to R217) -/

@[simp] theorem keeps_loadQuads {va n : Nat} : Keeps (L.loadQuads va n) := by
  induction n generalizing va with
  | zero => exact keeps_pure
  | succ n ih =>
    unfold L.loadQuads
    exact keeps_when keeps_pageTrap fun _ => keeps_bind keeps_load fun _ => keeps_bind ih fun _ => keeps_pure

/-- LNCH's registers: the descriptor's address and the word of its options. -/
def L.lnchRegs (d a c : Opnd) : L (Nat × Nat) := do
  L.checkRegs [d, c]
  let va ← L.rdPair a
  return (va, (← L.rdW c).toNat)

/-- What LNCH reads of memory: the descriptor with its leaf, the footprint list, and the shape of its teams. -/
def L.lnchReads (va : Nat) : L ((Option Nat × QWord) × Nat × List Nat × Partition × Nat) := do
  let x ← L.locate .load va 16
  let w ← L.loadQuads va 4
  let fp ← (List.range (bits w 352 16)).mapM (fun k => L.loadQuads (va + 64 + 16 * k) 1)
  let p ← L.part
  if 2 ^ 52 ≤ p.tshape.toNat + 8 * bits w 304 8 then L.pageTrap 1 (p.tshape.toNat + 8 * bits w 304 8) 0
  return (x, w, fp, p, ← L.load .load (p.tshape.toNat + 8 * bits w 304 8) 8)

theorem keeps_lnchRegs {d a c : Opnd} : Keeps (L.lnchRegs d a c) :=
  keeps_bind keeps_checkRegs fun _ => keeps_bind keeps_rdPair fun _ => keeps_bind keeps_rdW fun _ => keeps_pure

theorem keeps_lnchReads {va : Nat} : Keeps (L.lnchReads va) :=
  keeps_bind keeps_locate fun _ => keeps_bind keeps_loadQuads fun _ => keeps_bind (keeps_mapM (fun _ => keeps_loadQuads) _) fun _ =>
    keeps_bind keeps_part fun _ => keeps_when keeps_pageTrap fun _ => keeps_bind keeps_load fun _ => keeps_pure

/-- What LNCH does with what it has read: an accepted launch is released at the page's scope and placed; D takes the status. -/
def L.lnchActs (d : Opnd) (v : Nat) (r : (Option Nat × QWord) × Nat × List Nat × Partition × Nat) : L Unit := do
  let st := lnchStatus (← get).st r.2.2.2.1 r.2.1 v r.2.2.2.2 r.2.2.1
  if st = 0 then
    L.release (lfScope r.1.2)
    L.modSt (fun s => s.acceptLaunch (launchOf s.nextLaunch r.2.2.2.1.id r.2.1 v r.2.2.2.2 r.2.2.1))
  L.wrW d (BitVec.ofNat 32 st)

/-- LNCH reads its registers, then memory, and then acts. -/
theorem lnch_completes {h : Hdr} {d a c : Opnd} {s : State} {b : Issue} {t : Team} {l va v : Nat} {k : Word}
    {r : (Option Nat × QWord) × Nat × List Nat × Partition × Nat} {y z x z' : LS} (hs : Solo s b t l h.guard)
    (hl : t.levelAt b.wave l ≠ 0) (hr : Does (L.lnchRegs d a c) (b.start s t l) (va, v) y) (hva : va < 2 ^ 52) (h64 : va % 64 = 0)
    (hm : Does (L.lnchReads va) y r z) (hact : Does (L.lnchActs d v r) z () z') (hw : Does (L.wrW d k) x () z')
    (hx : x.lane = z.lane ∧ x.unis = z.unis) :
    exec (.lnch h d a c) s = .next (b.complete (.lnch h d a c) s id z') := by
  obtain ⟨hlane, hunis, -⟩ := keeps_lnchRegs.of_start hr
  obtain ⟨hlane', hunis'⟩ := keeps_lnchReads.place hm
  refine runWord_writes hs hw ?_ (hx.1.trans (hlane'.trans hlane)) (hx.2.trans (hunis'.trans hunis))
  obtain ⟨_, x1, hcheck, hr⟩ := does_bind.1 hr
  obtain ⟨_, x2, hreadVa, hr⟩ := does_bind.1 hr
  obtain ⟨_, x3, hreadV, hr⟩ := does_bind.1 hr
  obtain ⟨he, rfl⟩ := does_pure.1 hr
  obtain ⟨rfl, rfl⟩ := Prod.mk.inj he
  obtain ⟨⟨pa, leaf⟩, y1, hloc, hm⟩ := does_bind.1 hm
  obtain ⟨w, y2, hdesc, hm⟩ := does_bind.1 hm
  obtain ⟨fp, y3, hfp, hm⟩ := does_bind.1 hm
  obtain ⟨p, y4, hp, hm⟩ := does_bind.1 hm
  have hsva : ¬ 2 ^ 52 ≤ p.tshape.toNat + 8 * bits w 304 8 := by
    intro hc
    rw [if_pos hc] at hm
    obtain ⟨_, _, htrap, -⟩ := does_bind.1 hm
    exact not_does_trap htrap
  rw [if_neg hsva] at hm
  obtain ⟨shape, y5, hshape, hm⟩ := does_bind.1 hm
  obtain ⟨rfl, rfl⟩ := does_pure.1 hm
  exact does_next (needKernel_start hl) (does_next hcheck (does_step hreadVa (does_step hreadV (does_else (Nat.not_le.2 hva)
    (does_else (not_not_intro h64) (does_step hloc (does_step hdesc (does_step hfp (does_step hp (does_else hsva
      (does_step hshape hact)))))))))))

theorem lnch_answers {h : Hdr} {d a c : Opnd} {s : State} {b : Issue} {t : Team} {l va v w shape : Nat} {fp : List Nat} {pa : Option Nat}
    {leaf : QWord} {p : Partition} {y z z1 : LS} (hs : Solo s b t l h.guard) (hl : t.levelAt b.wave l ≠ 0)
    (hr : Does (L.lnchRegs d a c) (b.start s t l) (va, v) y) (hva : va < 2 ^ 52) (h64 : va % 64 = 0)
    (hm : Does (L.lnchReads va) y ((pa, leaf), w, fp, p, shape) z) :
    (∀ z', lnchStatus z.st p w v shape fp ≠ 0 → Does (L.wrW d (BitVec.ofNat 32 (lnchStatus z.st p w v shape fp))) z () z' →
      exec (.lnch h d a c) s = .next (b.complete (.lnch h d a c) s id z')) ∧
    (∀ z', lnchStatus z.st p w v shape fp = 0 → Does (L.release (lfScope leaf)) z () z1 → Does (L.wrW d 0) { z1 with
        st := z1.st.acceptLaunch (launchOf z1.st.nextLaunch p.id w v shape fp) } () z' →
      exec (.lnch h d a c) s = .next (b.complete (.lnch h d a c) s id z')) := by
  refine ⟨fun z' hst hw => ?_, fun z' hst hrel hw => ?_⟩
  · exact lnch_completes hs hl hr hva h64 hm (does_step (does_get.2 ⟨rfl, rfl⟩) (does_else hst hw)) hw ⟨rfl, rfl⟩
  · refine lnch_completes hs hl hr hva h64 hm (does_step (does_get.2 ⟨rfl, rfl⟩) (does_then hst (does_next hrel
      (does_next (does_modSt.2 rfl) ?_)))) hw
      (show z1.lane = z.lane ∧ z1.unis = z.unis from keeps_release.place hrel)
    rw [hst]
    exact hw

/-! ### CANC (R218) -/

theorem canc_completes {h : Hdr} {a : Opnd} {lvl : BitVec 2} {s : State} {b : Issue} {t : Team} {l : Nat} {v : Word} {p : Partition}
    {y : LS} (hs : Solo s b t l h.guard) (hl : t.levelAt b.wave l ≠ 0)
    (hr : Does (do L.checkRegs [a]; return (← L.rdW a, ← L.part)) (b.start s t l) (v, p) y) :
    exec (.canc h a lvl) s = .next (b.complete (.canc h a lvl) s id { y with
      st := y.st.cancelCounter p.id (v.toNat % 2 ^ 12) lvl.toNat }) := by
  obtain ⟨_, x, hcheck, hr⟩ := does_bind.1 hr
  obtain ⟨x1, hv, hp⟩ := does_pair hr
  rw [← bits_counter]
  exact runWord_keeps hs (keeps_bind keeps_needLevel fun _ => keeps_bind keeps_checkRegs fun _ => keeps_bind keeps_rdW fun _ =>
      keeps_bind keeps_part fun _ => keeps_modSt)
    (does_next (needKernel_start hl) (does_next hcheck (does_step hv (does_step hp (does_modSt.2 rfl)))))

/-! ### Lists -/

theorem mem_insertBy {α : Type} {key : α → Nat} {x : α} {l : List α} : x ∈ insertBy key x l := by
  induction l with
  | nil => exact List.mem_singleton.2 rfl
  | cons y l ih =>
    unfold insertBy
    split
    · exact List.mem_cons_self
    · exact List.mem_cons_of_mem _ ih

/-- A value that is not the default is read back, whatever the form of the store. -/
theorem spGet_spSet_of_ne {α : Type} [DecidableEq α] {d v : α} {l : List (Nat × α)} {k : Nat} (hv : v ≠ d) :
    spGet d (spSet d l k v) k = v := by
  induction l with
  | nil => simp [spSet, spGet, hv]
  | cons x l ih =>
    obtain ⟨k', v'⟩ := x
    unfold spSet
    rw [if_neg hv, if_neg hv]
    split
    · exact if_pos rfl
    · split
      · exact if_pos rfl
      · next hne => rw [spGet, if_neg (Ne.symm hne), ih]

/-- Replacing the first hit by a value of the same image leaves the images. -/
theorem map_updFirst_const {α β : Type} {p : α → Bool} {g : α → β} {y : α} {l : List α} (h : ∀ x, l.find? p = some x → g y = g x) :
    (updFirst p (fun _ => y) l).map g = l.map g := by
  induction l with
  | nil => rfl
  | cons x l ih =>
    unfold updFirst
    by_cases hx : p x = true
    · rw [if_pos hx, List.map_cons, List.map_cons, h x (List.find?_cons_of_pos hx)]
    · rw [if_neg hx, List.map_cons, List.map_cons, ih fun z hz => h z ((List.find?_cons_of_neg hx).trans hz)]

/-- Where no two elements share a key, what replaces the first of a key replaces every one. -/
theorem mem_updFirst_const {α β : Type} [BEq β] [LawfulBEq β] {key : α → β} {y x : α} {l : List α} (hl : (l.map key).Nodup)
    (h : x ∈ updFirst (fun z => key z == key y) (fun _ => y) l) : x = y ∨ x ∈ l ∧ key x ≠ key y := by
  induction l with
  | nil => cases h
  | cons z l ih =>
    rw [List.map_cons, List.nodup_cons] at hl
    obtain ⟨hz, hl⟩ := hl
    unfold updFirst at h
    by_cases hk : key z = key y
    · rw [if_pos (beq_iff_eq.2 hk)] at h
      obtain rfl | hx := List.mem_cons.1 h
      · exact .inl rfl
      · exact .inr ⟨List.mem_cons_of_mem _ hx, fun he => hz (hk ▸ he ▸ List.mem_map_of_mem hx)⟩
    · rw [if_neg (mt beq_iff_eq.1 hk)] at h
      obtain rfl | hx := List.mem_cons.1 h
      · exact .inr ⟨List.mem_cons_self, hk⟩
      · exact (ih hl hx).imp_right fun ⟨hmem, hne⟩ => ⟨List.mem_cons_of_mem _ hmem, hne⟩

theorem foldl_push {α : Type} {f : α → Event} {l : List α} {s : State} :
    l.foldl (fun s x => s.push (f x)) s = { s with agenda := s.agenda ++ l.map f } := by
  induction l generalizing s with
  | nil => simp
  | cons x l ih =>
    rw [List.foldl_cons, ih]
    simp [State.push]

/-! ### What a cancel decides about a launch by -/

/-- A launch as a cancel knows it: its number, its partition, the counters it names, and whether it is cancelled. -/
def Launch.role (k : Launch) : Nat × Nat × Slots × Bool := (k.id, k.part, k.slots, k.cancelled)

def State.roles (s : State) : List (Nat × Nat × Slots × Bool) := s.launches.map Launch.role

theorem role_of_launch {s : State} {l : Nat} {k : Launch} (h : s.launch? l = some k) : s.roles.find? (·.1 == l) = some k.role := by
  rw [State.roles, List.find?_map]
  exact congrArg (Option.map Launch.role) h

/-- A step that yields entries leaves the launches as a cancel knows them, the rings, the partitions and the teams. -/
structure State.sheds (s s' : State) : Prop where
  roles : s'.roles = s.roles
  rings : s'.rings = s.rings
  parts : s'.parts = s.parts
  teams : s'.allTeams = s.allTeams

theorem State.sheds.refl (s : State) : s.sheds s := ⟨rfl, rfl, rfl, rfl⟩

theorem State.sheds.trans {s s' s'' : State} (h : s.sheds s') (h' : s'.sheds s'') : s.sheds s'' :=
  ⟨h'.roles.trans h.roles, h'.rings.trans h.rings, h'.parts.trans h.parts, h'.teams.trans h.teams⟩

/-- An event that comes due, or none. -/
theorem sheds_push_test {s u : State} {c : Prop} [Decidable c] {e : Event} (h : s.sheds u) : s.sheds (if c then u.push e else u) := by
  split
  · exact ⟨h.roles, h.rings, h.parts, h.teams⟩
  · exact h

/-- Another record of a launch, with its role. -/
theorem sheds_updLaunch {s : State} {l : Nat} {k k' : Launch} (h : s.launch? l = some k) (hk : k'.role = k.role) :
    s.sheds (s.updLaunch l (fun _ => k')) := by
  refine ⟨map_updFirst_const fun x hx => ?_, rfl, rfl, rfl⟩
  rw [hk, Option.some.inj (h.symm.trans hx)]

theorem sheds_countUnits {s : State} {l die n faulted cancelled : Nat} {a : AgentId} :
    s.sheds (s.countUnits l die a n faulted cancelled) := by
  unfold State.countUnits
  split
  · exact .refl s
  · next k hk => exact sheds_push_test (sheds_push_test (sheds_updLaunch hk (by split <;> rfl)))

theorem sheds_yieldEntry {s s' : State} {p : Partition} {die : Nat} {e : RingEntry} (h : s.yieldEntry p die e = some s') : s.sheds s' := by
  cases e with
  | range l first stride m pos =>
    simp only [State.yieldEntry] at h
    split at h
    · exact Option.some.inj h ▸ .refl s
    · split at h
      · exact Option.some.inj h ▸ sheds_countUnits
      · cases h
  | cont r faulted cancelled shape =>
    simp only [State.yieldEntry] at h
    split at h
    · obtain rfl := Option.some.inj h
      split
      · exact .refl s
      · exact ⟨rfl, rfl, rfl, rfl⟩
    · cases h

/-- An entry that stays starts units of no cancelled launch. -/
def RingEntry.runs (R : List (Nat × Nat × Slots × Bool)) (e : RingEntry) : Prop :=
  ∀ l first stride m pos, e = .range l first stride m pos → ∀ x, R.find? (·.1 == l) = some x → x.2.2.2 = false

theorem runs_of_stays {s : State} {p : Partition} {die : Nat} {e : RingEntry} (h : s.yieldEntry p die e = none) : e.runs s.roles := by
  rintro l first stride m pos rfl x hx
  simp only [State.yieldEntry] at h
  split at h
  · cases h
  · next k hk =>
    split at h
    · cases h
    · next hstop =>
      rw [role_of_launch hk] at hx
      obtain rfl := Option.some.inj hx
      simp only [Launch.stopped, Bool.or_eq_true, not_or, Bool.not_eq_true] at hstop
      exact hstop.1

theorem yieldList_sheds {p : Partition} {die : Nat} {l : List RingEntry} {s : State} :
    s.sheds (yieldList p die l s).1 ∧ ∀ e ∈ (yieldList p die l s).2, e.runs s.roles := by
  induction l generalizing s with
  | nil => exact ⟨.refl s, fun _ => nofun⟩
  | cons e l ih =>
    simp only [yieldList]
    cases he : s.yieldEntry p die e with
    | some u =>
      obtain ⟨hsheds, hruns⟩ := ih (s := u)
      have hu := sheds_yieldEntry he
      exact ⟨hu.trans hsheds, fun x hx => hu.roles ▸ hruns x hx⟩
    | none =>
      obtain ⟨hsheds, hruns⟩ := ih (s := s)
      refine ⟨hsheds, fun x hx => ?_⟩
      obtain rfl | hx := List.mem_cons.1 hx
      · exact runs_of_stays he
      · exact hruns x hx

theorem foldl_yieldEntry_sheds {p : Partition} {die : Nat} {l : List (Nat × RingEntry)} {s : State} :
    s.sheds (l.foldl (fun s e => (s.yieldEntry p die e.2).getD s) s) := by
  induction l generalizing s with
  | nil => exact .refl s
  | cons e l ih =>
    refine State.sheds.trans ?_ ih
    dsimp only
    cases he : s.yieldEntry p die e.2 with
    | some u => exact sheds_yieldEntry he
    | none => exact .refl s

/-! ### The rings under a cancel (R325) -/

def Ring.key (r : Ring) : Nat × Nat × Nat := (r.part, r.die, r.prio)

/-- Every entry of a ring, a held one too, starts units of no cancelled launch. -/
def Ring.runs (R : List (Nat × Nat × Slots × Bool)) (r : Ring) : Prop := ∀ e ∈ r.entries ++ r.held.map (·.2), e.runs R

/-- The step of a cancel at one ring. -/
def State.sweepRing (s : State) (p : Partition) (r : Ring) : State :=
  let (s, es) := yieldList p r.die r.entries s
  let gone (e : Nat × RingEntry) : Bool := (s.yieldEntry p r.die e.2).isSome
  let s := (r.held.filter gone).foldl (fun s e => (s.yieldEntry p r.die e.2).getD s) s
  let head := es.head? != r.entries.head?
  s.setRing { r with entries := es, held := r.held.filter (fun e => !gone e), reserved := r.reserved && !head }

theorem yieldCancelled_eq {s : State} {part : Nat} {p : Partition} (h : s.part? part = some p) :
    s.yieldCancelled part = (s.rings.filter (·.part == part)).foldl (fun s r => s.sweepRing p r) s := by
  simp only [State.yieldCancelled, h]
  rfl

/-- A ring takes the place of the one of its key. -/
theorem setRing_rings {s : State} {r : Ring} (hn : (s.rings.map Ring.key).Nodup) :
    ((s.setRing r).rings.map Ring.key).Nodup ∧ ∀ q ∈ (s.setRing r).rings, q = r ∨ q ∈ s.rings ∧ q.key ≠ r.key := by
  have hkey : ∀ q : Ring, (q.part == r.part && q.die == r.die && q.prio == r.prio) = (q.key == r.key) := by
    intro q
    simp [Ring.key, Bool.beq_eq_decide_eq, Bool.and_assoc]
  simp only [State.setRing, hkey]
  split
  · refine ⟨?_, fun q hq => mem_updFirst_const hn hq⟩
    rw [show (updFirst (fun q => q.key == r.key) (fun _ => r) s.rings).map Ring.key = s.rings.map Ring.key from
      map_updFirst_const fun x hx => (beq_iff_eq.1 (List.find?_some (p := fun (q : Ring) => q.key == r.key) hx)).symm]
    exact hn
  · next hnew =>
    simp only [List.any_eq_true, beq_iff_eq, not_exists, not_and] at hnew
    refine ⟨?_, fun q hq => ?_⟩
    · rw [List.map_append, List.map_singleton]
      refine List.nodup_append.2 ⟨hn, List.nodup_singleton _, fun x hx y hy => ?_⟩
      obtain ⟨q, hq, rfl⟩ := List.mem_map.1 hx
      obtain rfl := List.mem_singleton.1 hy
      exact hnew q hq
    · obtain hq | hq := List.mem_append.1 hq
      · exact .inr ⟨hq, hnew q hq⟩
      · exact .inl (List.mem_singleton.1 hq)

/-- What a cancel has done with rings of a partition that are left out of `rem`: each runs no cancelled launch. -/
structure State.swept (s : State) (part : Nat) (rem : List Ring) : Prop where
  keys : (s.rings.map Ring.key).Nodup
  runs : ∀ r ∈ s.rings, r.part = part → r.runs s.roles ∨ r ∈ rem

/-- A ring that has been swept, and what the step leaves. -/
theorem sweepRing_sets {s : State} {p : Partition} {r : Ring} : ∃ u r', s.sweepRing p r = u.setRing r' ∧ s.sheds u ∧ r'.key = r.key ∧
    r'.runs s.roles := by
  have hlist := yieldList_sheds (p := p) (die := r.die) (l := r.entries) (s := s)
  unfold State.sweepRing
  generalize yieldList p r.die r.entries s = ys at hlist ⊢
  obtain ⟨u, es⟩ := ys
  obtain ⟨hu, hes⟩ := hlist
  refine ⟨_, _, rfl, hu.trans foldl_yieldEntry_sheds, rfl, fun e he => ?_⟩
  obtain he | he := List.mem_append.1 he
  · exact hes e he
  · obtain ⟨q, hq, rfl⟩ := List.mem_map.1 he
    have hstays : u.yieldEntry p r.die q.2 = none := by simpa using (List.mem_filter.1 hq).2
    exact hu.roles ▸ runs_of_stays hstays

theorem setRing_sheds {s : State} {r : Ring} : (s.setRing r).roles = s.roles ∧ (s.setRing r).parts = s.parts ∧
    (s.setRing r).allTeams = s.allTeams := by
  unfold State.setRing
  split <;> exact ⟨rfl, rfl, rfl⟩

theorem sweepRing_leaves {s : State} {p : Partition} {r : Ring} : (s.sweepRing p r).roles = s.roles ∧ (s.sweepRing p r).parts = s.parts ∧
    (s.sweepRing p r).allTeams = s.allTeams := by
  obtain ⟨u, r', hset, hsheds, -, -⟩ := sweepRing_sets (s := s) (p := p) (r := r)
  obtain ⟨hroles, hparts, hteams⟩ := setRing_sheds (s := u) (r := r')
  rw [hset]
  exact ⟨hroles.trans hsheds.roles, hparts.trans hsheds.parts, hteams.trans hsheds.teams⟩

theorem sweepRing_swept {s : State} {p : Partition} {part : Nat} {r : Ring} {rem : List Ring} (h : s.swept part (r :: rem)) :
    (s.sweepRing p r).swept part rem := by
  obtain ⟨hroles, -, -⟩ := sweepRing_leaves (s := s) (p := p) (r := r)
  obtain ⟨u, r', hset, hsheds, hkey, hruns⟩ := sweepRing_sets (s := s) (p := p) (r := r)
  have hkeys : (u.rings.map Ring.key).Nodup := by
    rw [hsheds.rings]
    exact h.keys
  obtain ⟨hnodup, hmem⟩ := setRing_rings (r := r') hkeys
  refine ⟨by rw [hset]; exact hnodup, fun q hq hpart => ?_⟩
  rw [hroles]
  rw [hset] at hq
  obtain rfl | ⟨hold, hne⟩ := hmem q hq
  · exact .inl hruns
  · rw [hsheds.rings] at hold
    refine (h.runs q hold hpart).imp_right fun hin => ?_
    obtain rfl | hin := List.mem_cons.1 hin
    · exact absurd hkey.symm hne
    · exact hin

theorem foldl_sweepRing {p : Partition} {part : Nat} {rem : List Ring} {s : State} :
    ((rem.foldl (fun s r => s.sweepRing p r) s).roles = s.roles ∧ (rem.foldl (fun s r => s.sweepRing p r) s).parts = s.parts ∧
      (rem.foldl (fun s r => s.sweepRing p r) s).allTeams = s.allTeams) ∧
    (s.swept part rem → (rem.foldl (fun s r => s.sweepRing p r) s).swept part []) := by
  induction rem generalizing s with
  | nil => exact ⟨⟨rfl, rfl, rfl⟩, id⟩
  | cons r rem ih =>
    obtain ⟨hroles, hparts, hteams⟩ := sweepRing_leaves (s := s) (p := p) (r := r)
    obtain ⟨⟨hroles', hparts', hteams'⟩, hswept⟩ := ih (s := s.sweepRing p r)
    exact ⟨⟨hroles'.trans hroles, hparts'.trans hparts, hteams'.trans hteams⟩, fun h => hswept (sweepRing_swept h)⟩

/-- A cancel takes entries out of rings: the launches as it knows them, the partitions and the teams stay. -/
theorem yieldCancelled_leaves {s : State} {part : Nat} : (s.yieldCancelled part).roles = s.roles ∧
    (s.yieldCancelled part).parts = s.parts ∧ (s.yieldCancelled part).allTeams = s.allTeams := by
  cases hp : s.part? part with
  | none =>
    have hno : s.yieldCancelled part = s := by simp only [State.yieldCancelled, hp]
    rw [hno]
    exact ⟨rfl, rfl, rfl⟩
  | some p =>
    rw [yieldCancelled_eq hp]
    exact (foldl_sweepRing (part := part)).1

/-- No ring of the partition keeps an entry of a cancelled launch. -/
theorem yieldCancelled_runs {s : State} {part : Nat} (hp : s.part? part ≠ none) (hn : (s.rings.map Ring.key).Nodup) {r : Ring}
    (hr : r ∈ (s.yieldCancelled part).rings) (hpart : r.part = part) : r.runs (s.yieldCancelled part).roles := by
  obtain ⟨p, hp⟩ := Option.ne_none_iff_exists'.1 hp
  rw [yieldCancelled_eq hp] at hr ⊢
  have hstart : s.swept part (s.rings.filter (·.part == part)) :=
    ⟨hn, fun q hq hqp => .inr (List.mem_filter.2 ⟨hq, beq_iff_eq.2 hqp⟩)⟩
  exact ((foldl_sweepRing.2 hstart).runs r hr hpart).resolve_right nofun

/-! ### CANC's effect (R218, R325) -/

/-- A partition whose counter is cancelled at a level. -/
def markCounter (p : Partition) (n lvl : Nat) : Partition :=
  p.setCounter n { p.counter n with
    marks := if (p.counter n).marks.contains lvl then (p.counter n).marks else insertBy id lvl (p.counter n).marks }

theorem markCounter_marks {p : Partition} {n lvl : Nat} : lvl ∈ ((markCounter p n lvl).counter n).marks := by
  have hmem : lvl ∈ (if (p.counter n).marks.contains lvl then (p.counter n).marks else insertBy id lvl (p.counter n).marks) := by
    split
    · next h => exact List.contains_iff_mem.1 h
    · exact mem_insertBy
  rw [markCounter, Partition.counter, Partition.setCounter, spGet_spSet_of_ne]
  · exact hmem
  · intro h
    have hmarks := congrArg Counter.marks h
    dsimp only at hmarks
    rw [hmarks] at hmem
    cases hmem

/-- A launch of the partition that names the counter at the level. -/
def Launch.names (k : Launch) (part n lvl : Nat) : Bool := k.part == part && k.slots.at lvl == some n

/-- The package with the counter marked and its launches cancelled, before the rings and the teams are gone through. -/
def State.withCancel (s : State) (part n lvl : Nat) : State :=
  { s.updPart part (fun p => markCounter p n lvl) with
    launches := s.launches.map (fun k => if k.names part n lvl then { k with cancelled := true } else k) }

theorem cancelCounter_eq {s : State} {part n lvl : Nat} : s.cancelCounter part n lvl =
    ((s.withCancel part n lvl).yieldCancelled part).axeTeams (fun t => t.part == part && t.work.slots.at lvl == some n) := rfl

theorem withCancel_cancelled {s : State} {part n lvl : Nat} {k : Launch} (hk : k ∈ (s.withCancel part n lvl).launches)
    (hpart : k.part = part) (hslot : k.slots.at lvl = some n) : k.cancelled = true := by
  obtain ⟨k0, -, rfl⟩ := List.mem_map.1 hk
  by_cases hn : k0.names part n lvl = true
  · rw [if_pos hn]
  · rw [if_neg hn] at hpart hslot
    exact absurd (by simp [Launch.names, hpart, hslot]) hn

/-- Launches of the same role, as a cancel knows them. -/
theorem launch_of_role {s s' : State} (h : s'.roles = s.roles) {k : Launch} (hk : k ∈ s'.launches) : ∃ k0 ∈ s.launches, k0.role = k.role := by
  have hk' : k.role ∈ s'.roles := List.mem_map_of_mem hk
  rw [h] at hk'
  exact List.mem_map.1 hk'

theorem axeTeams_leaves {s : State} {p : Team → Bool} : (s.axeTeams p).launches = s.launches ∧ (s.axeTeams p).rings = s.rings ∧
    (s.axeTeams p).parts = s.parts := by
  simp only [State.axeTeams, foldl_push]
  exact ⟨rfl, rfl, rfl⟩

theorem axeTeams_teams {s : State} {p : Team → Bool} : (s.axeTeams p).allTeams =
    s.allTeams.map (fun t => if p t then { t with axed := true } else t) := by
  simp only [State.axeTeams, foldl_push, State.allTeams, State.mapTeams, List.map_append, List.map_flatMap, List.flatMap_map]

theorem axeTeams_due {s : State} {p : Team → Bool} {t : Team} (ht : t ∈ s.allTeams) (hp : p t = true) (hnew : t.axed = false) :
    .discard t.agent ∈ (s.axeTeams p).agenda := by
  simp only [State.axeTeams, foldl_push]
  exact List.mem_append_right _ (List.mem_map.2 ⟨t, List.mem_filter.2 ⟨ht, by simp [hp, hnew]⟩, rfl⟩)

/-- Settles O36: LNCH reads, and then answers or launches; CANC marks the counter and its launches, and goes through the rings and the
teams, which keeps every launch as it is marked. -/
theorem launchAndCancel : Obligations.LaunchAndCancel := by
  refine ⟨?_, ?_, ?_⟩
  · intro h d a c s b t l va v w shape fp pa leaf p y z z1 hs hl hr hva h64 hm
    exact lnch_answers hs hl hr hva h64 hm
  · intro h a lvl s b t l v p y hs hl hr
    exact canc_completes hs hl hr
  · rintro s s' part n lvl rfl
    rw [cancelCounter_eq]
    obtain ⟨hroles, hparts, hteams⟩ := yieldCancelled_leaves (s := s.withCancel part n lvl) (part := part)
    have hruns := @yieldCancelled_runs (s.withCancel part n lvl) part
    generalize (s.withCancel part n lvl).yieldCancelled part = u at hroles hparts hteams hruns ⊢
    obtain ⟨hlaunches, hrings, hparts'⟩ := axeTeams_leaves (s := u) (p := fun t => t.part == part && t.work.slots.at lvl == some n)
    have hcancel : ∀ k ∈ u.launches, k.part = part → k.slots.at lvl = some n → k.cancelled = true := by
      intro k hk hpart hslot
      obtain ⟨k0, hk0, hrole⟩ := launch_of_role hroles hk
      simp only [Launch.role, Prod.mk.injEq] at hrole
      obtain ⟨-, hrp, hrs, hrc⟩ := hrole
      exact hrc ▸ withCancel_cancelled hk0 (hrp.trans hpart) (hrs ▸ hslot)
    refine ⟨fun p hp => ⟨markCounter p n lvl, ?_, markCounter_marks⟩, ?_, ?_, ?_, ?_⟩
    · rw [State.part?, hparts', hparts]
      exact (part?_updPart_same s part (fun p => markCounter p n lvl) fun _ => rfl).trans (by rw [hp]; rfl)
    · rw [hlaunches]
      exact hcancel
    · intro hkeys hp r hr hpart l first stride m pos hent k hk hkp hks
      rw [hrings] at hr
      have hk' : u.launch? l = some k := by rw [State.launch?, ← hlaunches]; exact hk
      have hp' : (s.withCancel part n lvl).part? part ≠ none := by
        rw [show (s.withCancel part n lvl).part? part = _ from part?_updPart_same s part _ fun _ => rfl]
        simpa using hp
      have hlive := hruns hp' hkeys hr hpart _ hent _ _ _ _ _ rfl _ (role_of_launch hk')
      have hdead := hcancel k (List.mem_of_find?_eq_some hk') hkp hks
      rw [show k.cancelled = false from hlive] at hdead
      cases hdead
    · rw [axeTeams_teams]
      intro t ht hpart hslot
      obtain ⟨t0, -, rfl⟩ := List.mem_map.1 ht
      split
      · rfl
      · next hno =>
        rw [if_neg hno] at hpart hslot
        exact absurd (by simp [hpart, hslot]) hno
    · intro t ht hpart hslot hnew
      exact axeTeams_due (hteams ▸ ht) (by simp [hpart, hslot]) hnew

end Sys2Proof.Machine
end
